-- ==== Sys2Proof/Word.lean ====
section
/-! DEFINITION. The word types of the package model (spec 00 R2-R4): bytes, words, and byte strings. -/

namespace Sys2Proof

/-- One byte. -/
abbrev Byte := BitVec 8

/-- A string of bytes, first byte at the lowest address (R4: little-endian fields). -/
abbrev Bytes := List Byte

/-- Sparse data by key: keys strictly rising, absent keys read as a default. -/
abbrev Tbl (α : Type) := List (Nat × α)

end Sys2Proof
end

