-- ==== Sys2Proof/Syntax.lean ====
section
/-! DEFINITION. The commands of the block: one constructor of `Instr` per row of spec/opcode_table.json, with the
row's operands. Operands hold what reaches the package from outside: the unit addressed, an op's fields, wire
bytes, readings, and what a detector observed. -/

namespace Sys2Proof

/-- The agents that address registers, in the order of R837. -/
inductive Agent where
  | debug | control | service | host
  deriving DecidableEq, Repr

/-- The engines of a core (AE, VE, ME, Sync) and of a die (UE, CX), with the codes of R267. -/
inductive EngKind where
  | ae | ve | me | sync | ue | cx
  deriving DecidableEq, Repr

/-- A logical tensor core (R8, R9). -/
structure CoreRef where
  die : Fin 4
  core : Fin 96
  deriving DecidableEq, Repr

/-- One engine; `core` is meaningless for UE and CX. -/
structure EngRef where
  die : Fin 4
  core : Fin 96
  eng : EngKind
  deriving DecidableEq, Repr

/-- The op header of R274 without its opcode. -/
structure OpHdr where
  wen : Bool
  wxc : BitVec 6
  aen : Bool
  axc : BitVec 6
  fslot : BitVec 8
  wtgt : BitVec 16
  deriving DecidableEq, Repr

/-- A byte that carries an even-parity bit (R720), as a core or a die names it: a scratchpad byte, a byte of die
SRAM, a byte of a Market, a byte of a lane of a vector register, a byte of an entry of an accumulator bank. -/
inductive ParLoc where
  | spm (die : Fin 4) (core : Fin 96) (off : BitVec 22)
  | sram (die : Fin 4) (off : BitVec 27)
  | market (io : Fin 2) (off : BitVec 25)
  | vreg (die : Fin 4) (core : Fin 96) (v : BitVec 6) (lane : Fin 128) (byte : Fin 4)
  | bank (die : Fin 4) (core : Fin 96) (b : Bool) (row : Fin 256) (col : Fin 128) (byte : Fin 4)
  deriving DecidableEq, Repr

/-- A stored byte struck since the last command: the bits of its nine that flip, bit 8 being its parity bit. -/
structure ParFlip where
  loc : ParLoc
  mask : BitVec 9
  deriving DecidableEq, Repr

/-- What the hardware meets while a unit executes one op: stored bytes that were struck before it read them (R720,
R722), and a residue difference of its arithmetic (R245, R246, R723, R724). -/
structure HwObs where
  flips : List ParFlip
  residue : Bool
  deriving DecidableEq, Repr

/-- A run of ACLK cycles of one array, with what its stream feeder and its drain do in each of them (R177): whether
the next stream row is not ready, and whether the bank, the checker or a Marrow save or restore (R247) cannot go
on. -/
structure CycleRun where
  n : Nat
  feeder : Bool
  drain : Bool
  deriving DecidableEq, Repr

/-- The EXT op of a packed pass, as plain data (R284). -/
structure ExtFields where
  soff0 : BitVec 16
  soff1 : BitVec 16
  soff2 : BitVec 16
  soff3 : BitVec 16
  m0 : BitVec 9
  m1 : BitVec 9
  m2 : BitVec 9
  m3 : BitVec 9
  deriving DecidableEq, Repr

/-- The fields of AE_PASS (R283) with its EXT op (R284). -/
structure PassF where
  orient : Bool
  pack : BitVec 2
  swap : Bool
  sealB : Bool
  exactM : Bool
  opn : Bool
  cls : Bool
  acc : Bool
  bank : Bool
  sfmt : BitVec 16
  soff : BitVec 16
  m : BitVec 9
  mimg : BitVec 16
  ext : Option ExtFields
  deriving DecidableEq, Repr

/-- The fields of AE_PRELOAD (R287). -/
structure PreF where
  bank : Bool
  row0 : BitVec 8
  nrows : BitVec 9
  col0 : Bool
  wide : Bool
  src : BitVec 2
  pfmt : BitVec 16
  pline : BitVec 16
  deriving DecidableEq, Repr

/-- The fields of VLD and VST (R288). -/
structure VldF where
  vr : BitVec 6
  fmt : BitVec 16
  line : BitVec 16
  sbyte : BitVec 22
  len : BitVec 7
  deriving DecidableEq, Repr

/-- The fields of VOP (R291). -/
structure VopF where
  func : BitVec 8
  vd : BitVec 6
  va : BitVec 6
  vb : BitVec 6
  vc : BitVec 6
  isel : Bool
  imm : BitVec 32
  deriving DecidableEq, Repr

/-- The fields of VTR and VRED (R294, R296). -/
structure VtrF where
  func : BitVec 8
  vd : BitVec 6
  va : BitVec 6
  deriving DecidableEq, Repr

/-- The fields of DRAIN (R297). -/
structure DrainF where
  bank : Bool
  row0 : BitVec 8
  nrows : BitVec 9
  col0 : Bool
  wide : Bool
  clear : Bool
  release : Bool
  fmt : BitVec 16
  line : BitVec 16
  sbyte : BitVec 22
  deriving DecidableEq, Repr

/-- The fields of SPILL (R298). -/
structure SpillF where
  bank : Bool
  row0 : BitVec 8
  nrows : BitVec 9
  col0 : Bool
  wide : Bool
  init : Bool
  release : Bool
  pline : BitVec 16
  deriving DecidableEq, Repr

/-- The fields of PDRAIN (R299). -/
structure PdrainF where
  nrows : BitVec 9
  wide : Bool
  fmt : BitVec 16
  pline : BitVec 16
  line : BitVec 16
  sbyte : BitVec 22
  deriving DecidableEq, Repr

/-- The fields of X_ARRIVE (R304). -/
structure ArriveF where
  scope : BitVec 2
  die : BitVec 2
  core : BitVec 7
  index : BitVec 8
  n : BitVec 16
  x : BitVec 5
  y : BitVec 5
  z : BitVec 5
  deriving DecidableEq, Repr

/-- A place on BAR0 (host, R852) or in the physical map (Town Hall and debug path, R320, R325). -/
inductive BusAddr where
  | bar0 (off : BitVec 26)
  | phys (a : BitVec 48)
  deriving DecidableEq, Repr

/-- The lock registers of R836. -/
inductive LockBlk where
  | mem (die : Fin 4)
  | link (io : Fin 2)
  | lsec
  deriving DecidableEq, Repr

/-- One run of bytes the host software wrote into its own memory. -/
structure HostWrite where
  addr : BitVec 64
  data : Bytes
  deriving DecidableEq, Repr

/-- One corrupted symbol of a stored line: the line's index in the access, the codeword position 0-67 (positions 0-3
are the check bytes p0-p3, 4-67 the data bytes b0-b63 of R331), the bits flipped, and the data lane that carried them
(R344). -/
structure SymErr where
  line : Nat
  sym : Fin 68
  flip : Byte
  lane : BitVec 12
  deriving DecidableEq, Repr

/-- Who issues a memory request (R315, R826). -/
inductive Issuer where
  | engine (e : EngRef)
  | command (ctx : Fin 4)
  deriving DecidableEq, Repr

/-- A request to a stack controller (R315): `write` is none for a read; `slot` is the slot of the descriptor whose
request it is, where a Move Engine issues it (R380). -/
structure HbmReq where
  issuer : Issuer
  step : Option (BitVec 64)
  slot : Option (Fin 32)
  addr : BitVec 48
  len : Nat
  write : Option Bytes
  err : List SymErr
  deriving DecidableEq, Repr

/-- A fault report on the fault wires (R725): class and locus codes of R761 and R762; `all` tags every uncommitted
step (R65), otherwise the listed steps are tagged. -/
structure FaultReport where
  cls : BitVec 8
  lkind : BitVec 8
  locus : BitVec 32
  addr : BitVec 64
  tags : List (BitVec 64)
  all : Bool
  detail : BitVec 64
  deriving DecidableEq, Repr

/-- One firmware copy as the QSPI flash holds it (R814): the 512-byte header and the payload. -/
structure FlashCopy where
  hdr : Bytes
  pay : Bytes
  deriving DecidableEq, Repr

/-- One kernel's result (R756). -/
structure RadishRes where
  kernel : BitVec 16
  group : BitVec 8
  die : BitVec 8
  phys : BitVec 8
  result : BitVec 8
  crc : BitVec 64
  deriving DecidableEq, Repr

/-- What one stack's training found (R342, R343): the lanes for which repair lanes are in use. -/
structure StackTrain where
  fail : Bool
  lanes : List (BitVec 16)
  deriving DecidableEq, Repr

/-- What a boot meets outside Town Hall: the flash device (none: as the model holds it), the stacks' and links'
training, the Radish kernels' results, and whether the lockstep pair agreed. -/
structure BootEnv where
  flash : Option (FlashCopy × FlashCopy)
  train : List StackTrain
  linkDown : BitVec 8
  spares : List (BitVec 9)
  radish : List RadishRes
  lockstepOk : Bool
  deriving DecidableEq, Repr

/-- A unit of a bounded resource that is released (R395, R396). -/
inductive BoundedRes where
  | stackRequest (stack : Fin 16)
  | marketBuffer (io : Fin 2) (link : Fin 12) (vc : Fin 6) (cls : BitVec 4)
  | incrementSent (link : Fin 24)
  | meDescriptor (core : CoreRef)
  deriving DecidableEq, Repr

/-- The place of a port conflict: a scratchpad line of a core, whose bank the ports contend for (R255, R256), or a
byte of die SRAM, whose slice they contend for (R262, R263). -/
inductive PortSite where
  | line (c : CoreRef) (l : Fin 49152)
  | sram (die : Fin 4) (off : BitVec 27)
  deriving DecidableEq, Repr

/-- One phase's sample (R780): output voltage in mV and output current in mA. -/
structure PhaseSample where
  mv : Nat
  ma : Nat
  deriving DecidableEq, Repr

/-- The samples of one tile (R34, R37, R780), in mV and mA: its first stage's output and rail voltage, and each phase of
each load. -/
structure TileSample where
  vib : Nat
  iib : Nat
  vin : Nat
  core : List PhaseSample
  sram : List PhaseSample
  hbm : List PhaseSample
  io : List PhaseSample
  jd : List PhaseSample
  deriving DecidableEq, Repr

/-- The two readings of a sensor pair, in 1/16 °C; none is a sensor that does not respond (R746). -/
structure PairReading where
  a : Option Int
  b : Option Int
  deriving DecidableEq, Repr

/-- What trips the package (R749). -/
inductive TripSource where
  | pin0 | pin1 | reading
  deriving DecidableEq, Repr

/-- A pair that can disagree: sensor pair number in the order of telemetry set 1 (R869), or the trip inputs. -/
inductive PairRef where
  | sensor (i : Fin 69)
  | trip
  deriving DecidableEq, Repr

/-- The blocks that one member of a PERMUTE sends to another in a round, by the table of the sender (R568). -/
structure PermFlow where
  src : Nat
  dst : Nat
  round : Nat
  blocks : Nat
  deriving DecidableEq, Repr

/-- The commands of the block, in the order of spec/opcode_table.json. -/
inductive Instr where
  -- Citis commands (R662): Town Hall runs the packet at the HEAD of ring r
  | identify (r : Fin 8)
  | queryStatus (r : Fin 8)
  | readTelemetry (r : Fin 8)
  | journalRead (r : Fin 8)
  | attest (r : Fin 8)
  | contextCreate (r : Fin 8)
  | contextSave (r : Fin 8)
  | contextRestore (r : Fin 8)
  | contextDestroy (r : Fin 8)
  | loadImage (r : Fin 8)
  | loadConfig (r : Fin 8)
  | verifyConfig (r : Fin 8)
  | swapConfig (r : Fin 8)
  | startSteps (r : Fin 8)
  | halt (r : Fin 8)
  | resume (r : Fin 8)
  | abortStep (r : Fin 8)
  | remapCore (r : Fin 8)
  | linkCtrl (r : Fin 8)
  | timeCtrl (r : Fin 8)
  | timeCtrlTimeout
  | setPowerLimit (r : Fin 8)
  | runRadish (r : Fin 8)
  | clearErrors (r : Fin 8)
  | fwUpdate (r : Fin 8)
  | saveComplete (c : Fin 4)
  | contextRestoreComplete (c : Fin 4)
  | contextScrubComplete (c : Fin 4)
  -- rings and registers
  | doorbell (r : Fin 8) (writes : List HostWrite) (tail : BitVec 16)
  | ringEnable (r : Fin 8) (writes : List HostWrite) (irqEn : Bool)
  | ringDisable (r : Fin 8) (irqEn : Bool)
  | completionHeadWrite (r : Fin 8) (head : BitVec 16)
  | pcieHotReset
  | registerWrite (a : Agent) (addr : BusAddr) (wide : Bool) (v : BitVec 64)
  | clearingRead (a : Agent) (addr : BusAddr) (wide : Bool)
  | stbTimeLowRead (a : Agent)
  | keyWrite (a : Agent) (v : BitVec 32)
  | keyedLockWrite (a : Agent) (blk : LockBlk) (v : BitVec 32)
  | lsecLoad (a : Agent) (c : Fin 4) (v : BitVec 32)
  | keyedWindowExpire
  | debugAgentHalt (a : Agent) (halted : Bool)
  | dbgToken (tok : Bytes)
  | dbgRelock
  | hostFruCommit
  | hostFruDiscard
  | fruSnapshotRead
  | fruCommitComplete (first : Bool) (second : Bool)
  -- sideband
  | dynamicAddressAssign (addr : BitVec 7)
  | sidebandRead
  | getId
  | getStatus
  | readTelem (set : BitVec 8) (off : BitVec 16)
  | setPwin (limit : BitVec 16) (ms : BitVec 8) (en : BitVec 8)
  | setPrail (limit : BitVec 8) (en : BitVec 8)
  | getLimits
  | fruRead (off : BitVec 8)
  | fruStage (off : BitVec 8) (data : Bytes)
  | fruCommit
  | fruDiscard
  | setIbiMask (m : BitVec 8)
  | readEvents
  -- ops
  | nop (e : EngRef) (h : OpHdr)
  | end_ (e : EngRef) (h : OpHdr)
  | aeLoad (c : CoreRef) (h : OpHdr) (wfmt : BitVec 16) (wline : BitVec 16) (rs : List CycleRun)
  | loadRowWrite (c : CoreRef) (rs : List CycleRun) (o : HwObs)
  | aePass (c : CoreRef) (h : OpHdr) (p : PassF) (rs : List CycleRun) (o : HwObs)
  | passStart (c : CoreRef) (rs : List CycleRun)
  | currentLevelStep (c : CoreRef) (feeder drain : Bool)
  | checksumCheck (c : CoreRef) (observed : Option (BitVec 48))
  | aePreload (c : CoreRef) (h : OpHdr) (p : PreF) (o : HwObs)
  | bankHandover (c : CoreRef) (bank : Bool)
  | vld (c : CoreRef) (h : OpHdr) (f : VldF) (o : HwObs)
  | vst (c : CoreRef) (h : OpHdr) (f : VldF) (o : HwObs)
  | vop (c : CoreRef) (h : OpHdr) (f : VopF) (o : HwObs)
  | vtr (c : CoreRef) (h : OpHdr) (f : VtrF) (o : HwObs)
  | vred (c : CoreRef) (h : OpHdr) (f : VtrF) (o : HwObs)
  | drain (c : CoreRef) (h : OpHdr) (f : DrainF) (o : HwObs)
  | spill (c : CoreRef) (h : OpHdr) (f : SpillF) (o : HwObs)
  | pdrain (c : CoreRef) (h : OpHdr) (f : PdrainF) (o : HwObs)
  | vsrb (c : CoreRef) (h : OpHdr) (v : BitVec 64)
  | meDesc (c : CoreRef) (h : OpHdr) (didx : BitVec 24)
  | copy (c : CoreRef) (slot : Fin 32) (o : HwObs)
  | gather (c : CoreRef) (slot : Fin 32) (o : HwObs)
  | xpEnc (c : CoreRef) (slot : Fin 32) (o : HwObs)
  | xpDec (c : CoreRef) (slot : Fin 32) (o : HwObs)
  | meFence (c : CoreRef) (h : OpHdr)
  | xArrive (c : CoreRef) (h : OpHdr) (f : ArriveF)
  | xWait (c : CoreRef) (h : OpHdr) (scope : BitVec 2) (index : BitVec 8) (target : BitVec 16)
  | xReset (c : CoreRef) (h : OpHdr) (scope : BitVec 2) (index : BitVec 8)
  | xAttime (c : CoreRef) (h : OpHdr) (stb : BitVec 64)
  | stbTimeReached (c : CoreRef)
  | waiterWake (e : EngRef)
  | opComplete (e : EngRef)
  | ueRun (die : Fin 4) (h : OpHdr) (uaddr : BitVec 48) (o : HwObs)
  | cxRun (die : Fin 4) (h : OpHdr) (caddr : BitVec 48)
  | allReduce (die : Fin 4) (slot : Fin 4) (o : HwObs)
  | reduceScatter (die : Fin 4) (slot : Fin 4) (o : HwObs)
  | allGather (die : Fin 4) (slot : Fin 4) (o : HwObs)
  | broadcast (die : Fin 4) (slot : Fin 4) (o : HwObs)
  | barrier (die : Fin 4) (slot : Fin 4) (issued : List Nat)
  | permute (die : Fin 4) (slot : Fin 4) (remote : List PermFlow) (o : HwObs)
  | a2aDispatch (die : Fin 4) (slot : Fin 4) (o : HwObs)
  | a2aCombine (die : Fin 4) (slot : Fin 4) (o : HwObs)
  | cxGnorm (die : Fin 4) (h : OpHdr) (group : BitVec 6) (remote : List (BitVec 48))
  | cxFence (die : Fin 4) (h : OpHdr)
  | collectiveTimeout (die : Fin 4) (slot : Fin 4)
  | portPriorityAging (site : PortSite) (port : Fin 6) (requesters : List (Fin 6))
  | boundedResourceRelease (k : BoundedRes)
  -- memory
  | hbmRequest (req : HbmReq)
  | prefetchAging (stack : Fin 16)
  | scrubChunk (stack : Fin 16) (err : List SymErr)
  | scrubYieldExpire (stack : Fin 16) (err : List SymErr)
  | stackTempSample (stack : Fin 16) (p : PairReading)
  | stackBandChange (stack : Fin 16)
  | marketPartitionSwap (io : Fin 2)
  -- links
  | flitSlot (m : Fin 32) (stalled : BitVec 32)
  | flitReceive (m : Fin 32) (wire : Bytes)
  | ackDue (m : Fin 32)
  | ack (m : Fin 32) (seq : BitVec 16)
  | nak (m : Fin 32) (seq : BitVec 16)
  | credit (m : Fin 32) (vc : BitVec 8) (cls : BitVec 8) (granted : BitVec 32)
  | state (m : Fin 32) (v : BitVec 8)
  | t0 (m : Fin 24) (num : BitVec 8)
  | t1 (m : Fin 24) (num : BitVec 8) (t2 : BitVec 64)
  | t1f (m : Fin 24) (num : BitVec 8) (t1 : BitVec 64)
  | t3 (m : Fin 24) (num : BitVec 8) (t4 : BitVec 64)
  | t4 (m : Fin 24) (num : BitVec 8) (t4 : BitVec 64)
  | timeExchange
  | retrainComplete (m : Fin 32)
  | retrainTimeout (m : Fin 32)
  | parentReselect
  | bucketLeak
  -- messages
  | messageReceive (m : Fin 24)
  | incrementRecord (rec : BitVec 128)
  | heldRecordApply
  | abortMessage (job : BitVec 16) (epoch : BitVec 16) (step : BitVec 64)
  | haltMessage (m : Fin 24) (payload : Bytes)
  | pace (m : Fin 24)
  | ready (m : Fin 24) (phase : BitVec 8)
  | readyDue (m : Fin 24) (phase : BitVec 8)
  | anchorResult (c : Fin 4)
  | launchEntry (i : Fin 64)
  | watchdogExpire (e : EngRef)
  -- steps
  | stepEnterRunning (c : Fin 4)
  | globalNormArrive (c : Fin 4)
  | journalRestoreComplete (c : Fin 4)
  | checkDone (unit : Fin 6) (step : BitVec 64)
  | digestExchange (c : Fin 4) (step : BitVec 64)
  | holdupThresholdMet (c : Fin 4)
  | commitRecordWritten (c : Fin 4) (ok : Bool)
  | faultReport (rep : FaultReport)
  -- power, heat, resets
  | regulatorSample (tiles : List TileSample)
  | windowTermEval
  | railTermEval (tile : Fin 4)
  | thermalSample (pairs : List PairReading)
  | targetMove
  | droopStart (die : Fin 4)
  | droopEnd (die : Fin 4) (skipped : BitVec 32)
  | railOverCurrent (tile : Fin 4)
  | thermalTrip (src : TripSource)
  | tripShutdown
  | sensorDisagree (p : PairRef)
  | powerLoss (vaux : Bool)
  | powerRestore (b : BootEnv)
  | pllLockLoss (b : BootEnv)
  | coldReset (b : BootEnv)
  | warmReset
  | lockstepMismatch (b : BootEnv)
  | pkgRstNRelease (b : BootEnv)
  | tripConditionRelease
  | radishKernelsFinished (results : List RadishRes)
  | memberTrainingComplete (failed : BitVec 24)
  | flashWriteComplete (ok : Bool)
  | targetRegisterRead (a : Agent)
  deriving DecidableEq, Repr

end Sys2Proof
end

