-- ==== Sys2Proof/Config.lean ====
section
/-! DEFINITION. The free values: what the spec leaves open, as constants without a body. Nothing can evaluate them;
a statement that mentions one holds for every value (assumption log 2). -/

namespace Sys2Proof.Config

/-- A byte of scratchpad or die SRAM that no op of the step has written (R264): `g` is the generation of the store
(a new one at each entry into RUNNING), `a` the byte's key. -/
opaque undefByte (g : Nat) (a : Nat) : BitVec 8

/-- A lane of a vector register that no op of the step has written (R254, R264). -/
opaque undefLane (g : Nat) (a : Nat) : BitVec 32

/-- A read of the test-only range of a register window (R859), and of a reserved field nothing has written. -/
opaque testRead (k : Nat) : BitVec 64

/-- The 128-bit debug challenge drawn at draw number k (R843). -/
opaque challenge (k : Nat) : BitVec 128

/-- The device identity public key derived from the part's secret (R824): X then Y. -/
opaque devicePublicKey (serial : BitVec 64) : BitVec 768

/-- The device identity key's signature over a SHA-384 digest (R825); ECDSA's random number is draw k. -/
opaque deviceSign (serial : BitVec 64) (digest : BitVec 384) (k : Nat) : BitVec 768

/-- STB_STATE.OFFSET where the measured offset exceeds the 16 signed bits of R457. -/
opaque wideOffset (units : Int) : BitVec 16

end Sys2Proof.Config
end

