-- ==== Sys2Proof/Machine/State.lean ====
section
/-! DEFINITION. The state of the package: every register, store, queue and mode that spec 00-19 gives it, as plain
data, and the queue of waiting commands. `State.reset` is the machine right after reset. -/

namespace Sys2Proof.Machine

/-! ## Parts fused or recorded at assembly -/

/-- The two parts of R1. -/
inductive PartKind where
  | tq4 | tq4h
  deriving DecidableEq, Repr

/-- What fuses hold (R50, R781, R804, R815, R842). -/
structure Fuses where
  kind : PartKind
  stepB : Bool
  serial : BitVec 64
  arb : Nat
  fwKeyHash : BitVec 384
  dbgKeyHash : BitVec 384
  eta : Tbl (List Nat)
  cHu : Tbl Nat
  deriving DecidableEq, Repr

/-- A store whose unwritten bytes are zero (`gen = none`) or undefined in generation `gen` (R264). -/
structure Store where
  gen : Option Nat
  cells : Tbl (BitVec 8)
  deriving DecidableEq, Repr

/-! ## Job configuration (R678-R679) -/

/-- A triple of coordinates or extents. -/
structure Vec3 where
  x : Nat
  y : Nat
  z : Nat
  deriving DecidableEq, Repr

/-- The topology section (R518). -/
structure TopoCfg where
  sys : Vec3
  origin : Vec3
  ext : Vec3
  self : Vec3
  memberEn : BitVec 24
  w2 : Nat
  w3 : Nat
  w4 : Nat
  w5 : Nat
  bypass : List Nat
  deriving DecidableEq, Repr

/-- A launch entry (R452). -/
structure LaunchEnt where
  px : Nat
  valid : Bool
  offset : Nat
  deriving DecidableEq, Repr

/-- A window entry (R452); link 255 is unused. -/
structure WinEnt where
  link : Nat
  phase : BitVec 8
  wopen : Nat
  wclose : Nat
  deriving DecidableEq, Repr

/-- The synchronisation section (R452), with its defaults resolved. -/
structure SyncCfg where
  wdog : Nat
  wdogLong : Nat
  anchorLead : Nat
  dxOwner : List (BitVec 8)
  pxOwner : List (BitVec 16)
  launch : List LaunchEnt
  window : List WinEnt
  deriving DecidableEq, Repr

/-- A Market entry (R384). -/
structure MktEnt where
  kind : Nat
  io : Nat
  cls : Nat
  vc : Nat
  links : BitVec 12
  buffers : Nat
  deriving DecidableEq, Repr

/-- One member of a group (R537). -/
structure GrpMember where
  x : Nat
  y : Nat
  z : Nat
  die : Nat
  deriving DecidableEq, Repr

/-- A group descriptor (R537). -/
structure Group where
  p : Nat
  l1 : Nat
  l2 : Nat
  l3 : Nat
  members : List GrpMember
  deriving DecidableEq, Repr

/-- A schedule segment (R589). -/
structure Seg where
  start : Nat
  stop : Nat
  kind : Nat
  lrStart : BitVec 32
  lrEnd : BitVec 32
  deriving DecidableEq, Repr

/-- A parameter group of the optimiser section (R622). -/
structure OptGroup where
  b1 : BitVec 32
  b2 : BitVec 32
  eps : BitVec 32
  lam : BitVec 32
  lrMult : BitVec 32
  used : Bool
  deriving DecidableEq, Repr

/-- The optimiser section (R622). -/
structure OptCfg where
  journalLimit : Nat
  lsN : Nat
  lsMin : Int
  lsMax : Int
  tau : BitVec 32
  jbase : List Nat
  jbytes : List Nat
  stepConst : Nat
  groups : List OptGroup
  segs : List Seg
  deriving DecidableEq, Repr

/-- A sharding-map entry (R629). -/
structure Shard where
  first : Nat
  count : Nat
  master : Nat
  die : Nat
  deriving DecidableEq, Repr

/-- The power section (R785), T_LIMIT resolved. -/
structure PowerCfg where
  pwinLimit : Nat
  pwinMs : Nat
  railLimit : Nat
  tLimit : Nat
  fastPos : Nat
  deriving DecidableEq, Repr

/-- A job configuration as checked (R678-R680). -/
structure JobCfg where
  interleave : Bool
  job : BitVec 16
  hash : BitVec 384
  topo : TopoCfg
  sync : SyncCfg
  market : List MktEnt
  cto : Nat
  groups : List Group
  opt : OptCfg
  repl : Option Nat
  shards : List Shard
  power : PowerCfg
  raw : Bytes
  deriving DecidableEq, Repr

/-! ## Schedule image (R266-R267) -/

/-- A section-table entry (R267). -/
structure Section where
  kind : Nat
  die : Nat
  engine : Nat
  core : Nat
  offset : Nat
  length : Nat
  dest : Nat
  deriving DecidableEq, Repr

/-- A checked image and the area it lies in (R687). -/
structure Img where
  area : Bool
  hash : BitVec 384
  seed : BitVec 64
  sections : List Section
  raw : Bytes
  deriving DecidableEq, Repr

/-! ## Steps -/

/-- Step states (R55). -/
inductive StepPhase where
  | idle | running | resolving | restoring | redoing | gated | committing | deferred | committed | aborted
  deriving DecidableEq, Repr

/-- Step outcomes (R599, R600), with the codes of R617. -/
inductive StepOutcome where
  | normal | clipped | skipped | empty
  deriving DecidableEq, Repr

/-- Loss-scale and optimiser state that a step leaves final (R52, R601): `prod` holds P1 and P2 of groups 0-15. -/
structure TrainSt where
  lsExp : Int
  clean : Nat
  optT : BitVec 64
  prod : List (BitVec 48 × BitVec 48)
  dieDigest : List (BitVec 64)
  pkgDigest : BitVec 64
  deriving DecidableEq, Repr

/-- The step constants of one parameter group (R592). -/
structure GroupConst where
  p1 : BitVec 48
  p2 : BitVec 48
  bc1 : BitVec 32
  bc2 : BitVec 32
  omb1 : BitVec 32
  omb2 : BitVec 32
  eta : BitVec 32
  negEta : BitVec 32
  negEtaLam : BitVec 32
  invS : BitVec 32
  deriving DecidableEq, Repr

/-- A fault tagged with a step: the report, when it was received, and the first step tagged (R728, R760). -/
structure SeenFault where
  rep : FaultReport
  stb : Nat
  first : BitVec 64
  deriving DecidableEq, Repr

/-- One uncommitted step of a context. -/
structure StepSt where
  no : BitVec 64
  st : StepPhase
  skipped : Bool
  outcome : Option StepOutcome
  g : BitVec 48
  clip : BitVec 32
  lr : BitVec 32
  seg : Nat
  consts : List GroupConst
  start : TrainSt
  fin : TrainSt
  entered : Nat
  anchor : Option Nat
  anchorAt : Nat
  checkDone : List Nat
  gnDone : List Nat
  ueFinal : List Nat
  restoring : Bool
  restored : Bool
  agree : Bool
  aborts : Nat
  faults : List SeenFault
  faultsRun : List SeenFault
  recFails : Nat
  abandonedCommit : Bool
  commitTime : Nat
  discarded : Bool
  deriving DecidableEq, Repr

/-- Context states (R666). -/
inductive CtxPhase where
  | free | idle | stepping | saving | saved | restoring | faulted | destroying
  deriving DecidableEq, Repr

/-- The key of a context (R832, R850). -/
structure LsecSt where
  en : Bool
  hs : Bool
  valid : Bool
  keyJob : BitVec 16
  key : BitVec 256
  pend : Option (BitVec 256 × BitVec 16)
  deriving DecidableEq, Repr

/-- One context (R666-R677). -/
structure CtxSt where
  st : CtxPhase
  base : Nat
  bytes : Nat
  imgMib : Nat
  cfgMib : Nat
  evtRing : Option (Fin 8)
  evtEvery : Nat
  img : Option Img
  pendImg : Option Img
  cfg : Option JobCfg
  shadow : Option JobCfg
  verified : Bool
  cfgArea : Bool
  steps : List StepSt
  next : Option (BitVec 64)
  remain : Option Nat
  unbounded : Bool
  haltAfter : Option (BitVec 64)
  swapAt : Option (BitVec 64)
  saveSched : Bool
  destroyWait : Bool
  restoreWait : Bool
  epoch : BitVec 16
  fin : TrainSt
  halted : Bool
  haltRec : Bool
  haltTo : Option CtxPhase
  cause : BitVec 8
  lsec : LsecSt
  savedX : Tbl (BitVec 16)
  savedSpm : Option Store
  savedSram : Option Store
  deriving DecidableEq, Repr

/-! ## Engines and cores -/

/-- What an engine waits for (R276, R304). -/
inductive WaitKind where
  | header | xwait | attime
  deriving DecidableEq, Repr

/-- A wait with its watchdog (R421-R423): `ticks` counts, `total` never pauses. `key` names the crossing. -/
structure WaitSt where
  kind : WaitKind
  scope : Nat
  die : Nat
  core : Nat
  index : Nat
  bank : Bool
  target : BitVec 16
  stb : BitVec 64
  ticks : Nat
  total : Nat
  ok : Bool
  deriving DecidableEq, Repr

/-- An op that has issued and not completed (R278). -/
structure IssuedOp where
  code : BitVec 8
  hdr : OpHdr
  step : BitVec 64
  flags : List (Nat × BitVec 4)
  done : Bool
  sealBank : Option Bool
  relBank : Option Bool
  slot : Option Nat
  deriving DecidableEq, Repr

/-- One engine's stream position (R271-R273): `opIdx` counts the ops issued, `word` the stream words they take
(R284). -/
structure EngSt where
  step : Option (BitVec 64)
  ctx : Fin 4
  live : Bool
  opIdx : Nat
  word : Nat
  arrived : Nat
  redoOps : Nat
  passNo : Nat
  wait : Option WaitSt
  issued : List IssuedOp
  ended : Bool
  srb : BitVec 64
  deriving DecidableEq, Repr

/-- A cell's entry of one stationary plane (R147): the element code and its block's scale code. -/
structure PlaneEnt where
  code : BitVec 16
  scale : BitVec 8
  deriving DecidableEq, Repr

/-- A load in progress (R157). -/
structure LoadSt where
  fmt : BitVec 16
  line : BitVec 16
  row : Nat
  plane : Bool
  tok : Option Nat
  deriving DecidableEq, Repr

/-- An issued pass (R156): `b0` is the active beat in which it starts, `mrw` whether its Marrow adders err (R246). -/
structure PassSt where
  hdr : OpHdr
  f : PassF
  step : BitVec 64
  seq : Nat
  started : Bool
  b0 : Nat
  plane : Bool
  mrw : Bool
  deriving DecidableEq, Repr

/-- One stream row that waits for its checksum verdict (R189-R195): W48 sums for a float pass, exact sums for an
integer pass, and `due`, the active beat in which its last sum leaves (R156). -/
structure RowChk where
  due : Nat
  seq : Nat
  row : Nat
  unit : Nat
  orient : Bool
  isInt : Bool
  obs : BitVec 48
  exp : BitVec 48
  mag : BitVec 48
  obsI : Int
  expI : Int
  nonfinite : Bool
  bound : Bool
  step : BitVec 64
  deriving DecidableEq, Repr

/-- The array of one AE. `wrote` names the plane of which a row was written in the present ACLK cycle (R160); `up`
counts the cycles of a ramp-up under way (R185). -/
structure AeSt where
  plane0 : Tbl PlaneEnt
  plane1 : Tbl PlaneEnt
  fmt0 : BitVec 16
  fmt1 : BitVec 16
  rows0 : Nat
  rows1 : Nat
  active : Bool
  load : Option LoadSt
  passes : List PassSt
  beat : Nat
  cyc : Nat
  token : Option Nat
  lastEnd : Nat
  injEnd : Nat
  beatLen : Nat
  level : Nat
  idle : Nat
  wrote : Option Bool
  up : Option Nat
  checks : List RowChk
  deriving DecidableEq, Repr

/-- An outstanding ME descriptor (R301, R302). -/
structure MeDescSt where
  didx : Nat
  desc : BitVec 512
  srb : BitVec 64
  step : BitVec 64
  fslot : BitVec 8
  deriving DecidableEq, Repr

/-- An entry of an accumulator bank: 32 bits, and whether they are I32 or VS32 (R208). -/
structure BankEnt where
  code : BitVec 32
  int : Bool
  deriving DecidableEq, Repr

/-- The entry that nothing has written: VS32 +0. -/
def BankEnt.zero : BankEnt := { code := 0, int := false }

/-- The registers and stores of one physical core. `partInt` lists the scratchpad lines whose partial elements the last
spill into them left as I64 (R227; assumption log 78). -/
structure CoreSt where
  bank0 : Tbl BankEnt
  bank1 : Tbl BankEnt
  partInt : Tbl Bool
  ve0 : Bool
  ve1 : Bool
  hand0 : Option Bool
  hand1 : Option Bool
  ae : AeSt
  abftErr : Bool
  abftLog : BitVec 64
  frozen : Bool
  cntFrz : BitVec 32
  cntGap : BitVec 32
  cntRamp : BitVec 32
  cntLdw : BitVec 32
  mrwErr : Bool
  resErr : Bool
  parErr : Bool
  idxOor : Bool
  codecErr : Bool
  meStallNow : Bool
  meStall : BitVec 32
  meDescs : Tbl (Option MeDescSt)
  pos : Nat
  deriving DecidableEq, Repr

/-! ## Synchronisation -/

/-- XS_STATUS and XS_HANG_LOG of one unit (R454, R455). -/
structure XsSt where
  hang : Bool
  abandoned : Bool
  ovf : Bool
  late : Bool
  stray : Bool
  log : BitVec 64
  deriving DecidableEq, Repr

/-- STB servo states (R433). -/
inductive ServoSt where
  | free | acquire | locked | holdover | master
  deriving DecidableEq, Repr

/-- A time exchange in progress (R435): stamps in units of 2^-16 tick. -/
structure ExchSt where
  num : BitVec 8
  t1 : Option Int
  t2 : Option Int
  t3 : Option Int
  deriving DecidableEq, Repr

/-- The STB and its servo (R430-R438, R457). `ticks` counts TBCLK ticks since reset. `time` counts 2^-16 ticks and `sub`
2^-32 ticks below them. In units of 2^-32 tick, `rate` is the measured frequency of the parent less the nominal one,
for each tick, and `corr` the phase that remains to be slewed. `meas` holds the tick of the last measurement and the
parent's time at it. -/
structure StbSt where
  ticks : Nat
  time : Nat
  sub : Nat
  rate : Int
  meas : Option (Nat × Int)
  st : ServoSt
  parent : Option (Fin 24)
  hops : Nat
  offset : BitVec 16
  exch : Option ExchSt
  exchNo : BitVec 8
  good : Nat
  stepped : Bool
  corr : Int
  lastExch : Nat
  urgent : Bool
  gm : Option Vec3
  follow : Option (Fin 8 × Nat)
  deriving DecidableEq, Repr

/-- What a phase has been counted as (R445, R446). -/
inductive PhaseCount where
  | normal | edge | miss
  deriving DecidableEq, Repr

/-- The stamps of the first and the last flit of one phase of a step in units of 2^-16 tick (R430, R444), and what the
phase has been counted as (R446). -/
structure PhaseStamp where
  phase : BitVec 8
  step : BitVec 64
  first : Nat
  last : Nat
  counted : PhaseCount
  deriving DecidableEq, Repr

/-- STB_SLOT of one link with the stamps it is formed from (R444-R451, R458). `begun` lists the phases whose first flit
has left on the link since the last anchor. -/
structure SlotSt where
  edge : BitVec 15
  miss : BitVec 15
  hsk : Bool
  missTimes : List Nat
  stamps : List PhaseStamp
  paced : Bool
  readyIn : List (BitVec 8)
  readyOut : List (BitVec 8)
  begun : List (BitVec 8)
  deriving DecidableEq, Repr

/-- The launch unit (R442): entries already performed for the step of each bank. -/
structure LaunchSt where
  done0 : List Nat
  done1 : List Nat
  deriving DecidableEq, Repr

/-! ## Links -/

/-- States of a link member (R520). -/
inductive LinkPhase where
  | disabled | training | active | retraining | withdrawing | withdrawn
  deriving DecidableEq, Repr

/-- A flit as it is kept for replay (R464); `par` lists the bytes of its body that its parity bits do not fit (R720). -/
structure Flit where
  seq : Nat
  vc : Nat
  som : Bool
  eom : Bool
  body : Bytes
  par : List Nat
  deriving DecidableEq, Repr

/-- A message to be sent; `sent` counts the bytes already in flits (R469-R471). A forwarded message is in the upper half
of the forwarding store where `upper` holds (R476); `par` lists its bytes, header first, whose parity has failed on the
way (R721). -/
structure TxMsg where
  hdr : BitVec 128
  payload : Bytes
  sent : Nat
  detour : Bool
  fwd : Bool
  upper : Bool
  par : List Nat
  deriving DecidableEq, Repr

/-- A message whose every flit has been sent and whose last flit, `last`, is not acknowledged (R486). -/
structure SentMsg where
  vc : Nat
  msg : TxMsg
  last : Nat
  deriving DecidableEq, Repr

/-- A whole message received, with its link, the Market buffer it fills (R389), and the stamps of its first and last
flit (R444). -/
structure RxMsg where
  link : Nat
  buf : Option Nat
  vc : Nat
  hdr : BitVec 128
  payload : Bytes
  tag : Bytes
  first : Nat
  last : Nat
  deriving DecidableEq, Repr

/-- The part of a message received so far on one VC. -/
structure Partial where
  first : Nat
  buf : Option Nat
  data : Bytes
  par : List Nat
  deriving DecidableEq, Repr

/-- One member: AV00-AV23 are 0-23, MW01, MW13, MW32, MW20 are 24-27, the I/O-die links of CD0-CD3 are 28-31. For each
(VC, class), `credit` holds the credits that the partner has granted and those used, `granted` what this end has granted
and `taken` how many messages have taken a buffer of the allotment (R390, R477). -/
structure MemberSt where
  st : LinkPhase
  txSeq : Nat
  unacked : List Flit
  resend : List Flit
  queue : Tbl (List TxMsg)
  started : Tbl (Option TxMsg)
  sentMsgs : List SentMsg
  curW : Tbl Int
  slotHist : List Nat
  slotNo : Nat
  vc0Slots : List Nat
  credit : Tbl (Nat × Nat)
  granted : Tbl Nat
  taken : Tbl Nat
  ctrl : List (BitVec 128)
  rxSeq : Nat
  nakSent : Bool
  rxUnacked : Nat
  part : Tbl (Option Partial)
  inbox : List RxMsg
  margin : Nat
  replayB : Nat
  uncorrB : Nat
  replayTimes : List Nat
  retrainTimes : List Nat
  retrainStart : Nat
  peer : BitVec 8
  marginErr : Bool
  misroute : Bool
  busy : Bool
  retrains : Nat
  corrCnt : BitVec 32
  replayCnt : BitVec 16
  uncorrCnt : BitVec 16
  spares : BitVec 9
  wire : Bytes
  deriving DecidableEq, Repr

/-- Message numbering of one (context, group, VC, class) (R472, R473, R830): XSEQ counters, of which MSG_SEQ is the
low 16 bits. -/
structure StreamSt where
  out : Nat
  expect : Nat
  highest : Option Nat
  seen : List Nat
  held : List RxMsg
  deriving DecidableEq, Repr

/-- One allotment of an I/O die's Market (R383, R387). -/
structure Alloc where
  stage : Bool
  link : Nat
  vc : Nat
  cls : Nat
  first : Nat
  count : Nat
  deriving DecidableEq, Repr

/-- The Market of one I/O die. -/
structure MktSt where
  allocs : List Alloc
  busy : List Nat
  pendCfg : Option (List MktEnt)
  idle : Nat
  stalls : Tbl (BitVec 32)
  deriving DecidableEq, Repr

/-- TOPO_STATUS (R524). -/
structure TopoSt where
  degraded : Bool
  failed : Bool
  groupDown : BitVec 6
  deriving DecidableEq, Repr

/-! ## Memory controllers -/

/-- Temperature bands of a stack (R347). -/
inductive Band where
  | b1x | b2x | b4x | throttled | shutdown
  deriving DecidableEq, Repr

/-- A request at a stack controller, and whether it is a prefetch request (R380). -/
structure QueuedReq where
  req : HbmReq
  pf : Bool
  deriving DecidableEq, Repr

/-- One stack controller. `queue` holds the requests in its slots that have not been performed: prefetch requests, and
every request while the stack is shut down (R350, R382). `ports` holds those that found no slot and wait at the request
ports of their engines, in issue order (R381, R395). `scrubNext` is the tick at which the next chunk is due (R337). -/
structure StackSt where
  band : Band
  failed : Bool
  temp : Int
  due : Option (Band × Nat)
  coolSince : Option Nat
  queue : List QueuedReq
  ports : List QueuedReq
  ceCnt : BitVec 24
  ueCnt : BitVec 8
  log : BitVec 64
  chunk : BitVec 25
  passes : BitVec 7
  scrubDue : Bool
  scrubNext : Nat
  laneCnt : Tbl (List Nat)
  readData : Bytes
  deriving DecidableEq, Repr

/-! ## Die engines -/

/-- One journal record of the current run of a step (R603): where it lies and what it covers. -/
structure JrnlRec where
  cx : Bool
  kind : Nat
  seq : Nat
  at_ : Nat
  len : Nat
  addr : Nat
  step : BitVec 64
  deriving DecidableEq, Repr

/-- One Update Engine. -/
structure UeSt where
  spec : Bool
  jstall : Bool
  nfErr : Bool
  jrnlErr : Bool
  nfSeen : Bool
  jstallCnt : BitVec 32
  recs : List JrnlRec
  ueBytes : Nat
  cxBytes : Nat
  runs : Nat
  cur : Option (BitVec 48 × Nat × BitVec 64)
  crc : BitVec 64
  clipNow : BitVec 32
  pos : Nat
  deriving DecidableEq, Repr

/-- An op slot of a CX (R527): `hop` is the op's progress, `acc` its working data. -/
structure CxSlot where
  desc : BitVec 512
  gnorm : Bool
  group : Nat
  step : BitVec 64
  opSeq : Nat
  ord : Nat
  srb : BitVec 64
  fslot : BitVec 8
  hop : Nat
  acc : List (BitVec 48)
  lanes : Bytes
  seenRanks : List Nat
  flags : BitVec 4
  normAdded : Bool
  done : Bool
  ticks : Nat
  total : Nat
  deriving DecidableEq, Repr

/-- One Collective Engine. -/
structure CxSt where
  timeout : Bool
  expOor : Bool
  toLog : BitVec 64
  nacc0 : BitVec 48
  nacc1 : BitVec 48
  gnorm0 : BitVec 48
  gnorm1 : BitVec 48
  drops : BitVec 32
  slots : Tbl (Option CxSlot)
  normTurn : List Nat
  intStream : Tbl Bytes
  deriving DecidableEq, Repr

/-! ## Town Hall -/

/-- A reply or an event entry that waits for completion space (R646, R665). -/
structure WaitEnt where
  event : Bool
  code : BitVec 16
  ctx : Nat
  entry : BitVec 256
  irq : Bool
  deriving DecidableEq, Repr

/-- The command in progress on a ring (R658). -/
structure CurCmd where
  pkt : BitVec 512
  deriving DecidableEq, Repr

/-- One ring pair (R639-R651, R712-R717). -/
structure RingSt where
  sqLoc : Bool
  sqAddr : BitVec 52
  cqAddr : BitVec 52
  en : Bool
  irqEn : Bool
  sqTail : BitVec 16
  sqHead : BitVec 16
  cqHead : BitVec 16
  cqTail : BitVec 16
  overrun : Bool
  badAddr : Bool
  stopped : Bool
  cur : Option CurCmd
  mute : Bool
  waiting : List WaitEnt
  deriving DecidableEq, Repr

/-- CM_STATUS and CM_LAST (R627). -/
structure CmSt where
  defer : Bool
  slot : Bool
  torn : Bool
  last : BitVec 64
  deriving DecidableEq, Repr

/-- A past transient fault: locus and STB time (R729). -/
structure FaultHist where
  lkind : BitVec 8
  locus : BitVec 32
  time : Nat
  deriving DecidableEq, Repr

/-- The FLT registers and the fault logic (R725-R766). -/
structure FltSt where
  halted : Bool
  origin : Bool
  lasting : Bool
  sensDis : Bool
  lftFull : Bool
  cntTransient : BitVec 32
  cntLasting : BitVec 16
  cntHalts : BitVec 16
  next : BitVec 12
  lftUsed : Nat
  crashNext : BitVec 4
  seq : BitVec 32
  hist : List FaultHist
  wires : List FaultReport
  disagree : List Nat
  radishFails : List (Nat × Nat)
  deriving DecidableEq, Repr

/-! ## Power, security, management -/

/-- PMC_DIV of one die (R809) and the counters of its terms (R786). -/
structure DivSt where
  target : Nat
  rail : Nat
  therm : Nat
  railCool : Nat
  thermCool : Nat
  deriving DecidableEq, Repr

/-- A limit and whether it is enabled (R705, R784). -/
structure LimitSt where
  en : Bool
  limit : Nat
  ms : Nat
  deriving DecidableEq, Repr

/-- The tile readings in force (R34, R37, R780, R812): what the PMC forms of a sample, and the samples of the first stage
and of the phases of each load. -/
structure TileSt where
  pin : Nat
  irail : Nat
  vin : Nat
  vib : Nat
  iib : Nat
  energy : Nat
  core : List PhaseSample
  sram : List PhaseSample
  hbm : List PhaseSample
  io : List PhaseSample
  jd : List PhaseSample
  railHist : List Nat
  deriving DecidableEq, Repr

/-- The PMC (R783-R813). -/
structure PmcSt where
  div : Tbl DivSt
  hostWin : LimitSt
  hostRail : LimitSt
  sbWin : LimitSt
  sbRail : LimitSt
  winTerm : Nat
  winDown : Option Nat
  pHist : List Nat
  tiles : Tbl TileSt
  skip : Tbl (BitVec 32)
  oc : Bool
  droop : List Nat
  dieOff : List Nat
  selfRefresh : Bool
  tripSince : Option Nat
  overTemp : List Nat
  pairs : List PairReading
  disSince : Tbl (Option Nat)
  agreeSince : Tbl (Option Nat)
  powerLost : Bool
  huLow : Bool
  deriving DecidableEq, Repr

/-- An open keyed sequence (R837): the agent, the target and the CCLK cycles counted. -/
structure KeySeq where
  agent : Agent
  unit : Nat
  target : Nat
  count : Nat
  deriving DecidableEq, Repr

/-- A lock register (R849). -/
structure LockSt where
  lock : Bool
  viol : Bool
  deriving DecidableEq, Repr

/-- The SEC registers and the debug path (R837-R848). -/
structure SecSt where
  stage : Nat
  copyB : Bool
  fail : BitVec 8
  lockBusy : BitVec 4
  seqFail : Bool
  regionViol : Bool
  dbgDisabled : Bool
  seq : Option KeySeq
  stageKey : List (BitVec 32)
  stageJob : BitVec 16
  authCnt : BitVec 32
  challengeNo : Nat
  dbgFails : Nat
  scope : BitVec 16
  haltedAgents : List Agent
  running : FlashCopy
  deriving DecidableEq, Repr

/-- A FRU commit that is running or waiting (R883). -/
inductive FruSide where
  | host | sideband
  deriving DecidableEq, Repr

/-- The FRU record logic (R881-R888). -/
structure FruSt where
  hostStage : Bytes
  sbStage : Bytes
  hostSnap : Bytes
  sbSnap : Bytes
  committed : Bytes
  running : Option (FruSide × Bytes)
  queued : List FruSide
  done : Bool
  fail : Bool
  deriving DecidableEq, Repr

/-- The I3C sideband target (R872-R878, R889). -/
structure SbSt where
  daddr : BitVec 7
  daValid : Bool
  events : BitVec 8
  mask : BitVec 8
  resp : Option Bytes
  read : Bytes
  telem : Bytes
  ibi : Option (BitVec 8)
  deriving DecidableEq, Repr

/-- Levels of the low-speed signals (R893). -/
structure PinSt where
  pkgRstN : Bool
  ttrip0 : Bool
  ttrip1 : Bool
  faultN : Bool
  deriving DecidableEq, Repr

/-- What one agent last read, its latched upper half and its held lower half (R857, R858): the register is named
by unit and offset. -/
structure BusSt where
  data : BitVec 64
  latch : Tbl (Option (BitVec 32))
  held : Tbl (Option (BitVec 32))
  deriving DecidableEq, Repr

/-- A firmware write in progress (R708). -/
structure FwSt where
  busy : Option (Fin 8)
  image : FlashCopy
  toB : Bool
  deriving DecidableEq, Repr

/-! ## The faults and refusals of the model -/

/-- Why the model stops a command. -/
inductive Fault where
  /-- Raised by `guardUnit` for a command that names a unit the TQ4H does not have (R38, R41). Safe: the model
  stops. -/
  | absentUnit
  deriving DecidableEq, Repr

/-- Why the model gives a command no meaning. -/
inductive Refusal where
  /-- A command whose meaning is not written. Safe: nothing is claimed of it. -/
  | notModelled (mnemonic : String)
  deriving DecidableEq, Repr

/-! ## The state -/

/-- The stores. `hbm` holds each data byte as last written; `ecc` holds, at key 68 × line + position, how the stored
codeword of a line differs from the codeword of those bytes (R331, R332): nothing is listed for a line stored whole.
`errLane` names, by the same keys, the data lane that carried each wrong symbol (R344).
`par` lists the bytes whose stored parity bit is not the even parity of the stored byte (R720), by the keys of
`ParLoc`. -/
structure MemSt where
  hbm : Tbl (BitVec 8)
  ecc : Tbl (BitVec 8)
  errLane : Tbl (BitVec 12)
  spm : Store
  sram : Store
  vgen : Option Nat
  vreg : Tbl (BitVec 32)
  market : Tbl (BitVec 8)
  par : Tbl Bool
  jd : Tbl (BitVec 8)
  host : Tbl (BitVec 8)
  hostHoles : List (Nat × Nat)
  ringWin : Tbl (BitVec 8)
  flashA : FlashCopy
  flashB : FlashCopy
  deriving DecidableEq, Repr

/-- An increment record that waits (R418), with the link and the Market buffer it occupies (R420). -/
structure HeldRec where
  record : BitVec 128
  link : Nat
  buf : Option Nat
  deriving DecidableEq, Repr

/-- Crossings and flags. -/
structure SyncSt where
  xcnt : Tbl (BitVec 16)
  xs : Tbl XsSt
  held : List HeldRec
  tflag : Tbl (BitVec 4)
  flagStep : Tbl (BitVec 64)
  launch : LaunchSt
  slot : Tbl SlotSt
  deriving DecidableEq, Repr

/-- Core remap (R305-R309), in force and as the JD last recorded it. -/
structure RemapSt where
  phys : Tbl Nat
  state : Tbl Nat
  jdPhys : Tbl Nat
  jdState : Tbl Nat
  deriving DecidableEq, Repr

/-- MSI-X vectors and the messages written (R652, R852). -/
structure MsixSt where
  table : Tbl (BitVec 8)
  pend : BitVec 8
  out : List (BitVec 64 × BitVec 32)
  deriving DecidableEq, Repr

/-- Scratchpad and SRAM port priorities (R257, R258, R263). -/
structure PortSt where
  aged : List (Nat × Nat)
  granted : Option (Nat × Nat)
  deriving DecidableEq, Repr

/-- A piece of an arriving stream: bytes `at_` to `len - 1` of a message, in the Market buffer of its link that holds
them (R391); `data` holds a message that found no buffer. -/
structure RxChunk where
  data : Bytes
  at_ : Nat
  len : Nat
  link : Nat
  vc : Nat
  buf : Option Nat
  deriving DecidableEq, Repr

/-- Links and topology; `rx` holds, for each link group, VC and class, the data delivered and not yet read. -/
structure NetSt where
  member : Tbl MemberSt
  stream : Tbl StreamSt
  bktCfg : Tbl (BitVec 64)
  topo : TopoSt
  mkt : Tbl MktSt
  linkTrain : List (Fin 8 × BitVec 24)
  linkSched : List (Nat × Bool)
  delivered : List RxMsg
  rx : Tbl (List RxChunk)
  deriving DecidableEq, Repr

/-- The state of the package and the queue of waiting commands. -/
structure State where
  pending : List Instr
  free : Nat
  fuse : Fuses
  mem : MemSt
  rings : Tbl RingSt
  msix : MsixSt
  ctx : Tbl CtxSt
  resident : Option (Fin 4)
  globalIl : Bool
  eng : Tbl EngSt
  core : Tbl CoreSt
  ports : PortSt
  sync : SyncSt
  remap : RemapSt
  stb : StbSt
  net : NetSt
  stack : Tbl StackSt
  scrub : Tbl (BitVec 32)
  memLock : Tbl LockSt
  linkLock : Tbl LockSt
  lsecLock : LockSt
  ue : Tbl UeSt
  cx : Tbl CxSt
  cm : CmSt
  flt : FltSt
  pmc : PmcSt
  sec : SecSt
  fru : FruSt
  sb : SbSt
  pin : PinSt
  bus : Tbl BusSt
  fw : FwSt
  radishRun : Option (Fin 8)
  resetDue : Option (Nat × Option BootEnv)
  rsv : Tbl (BitVec 64)
  deriving DecidableEq, Repr

/-! ## Reset values -/

/-- No training state: the values of a context that does not exist. -/
def TrainSt.zero : TrainSt :=
  { lsExp := 0, clean := 0, optT := 0, prod := [], dieDigest := [], pkgDigest := 0 }

/-- A context in FREE (R666, R821). -/
def CtxSt.reset : CtxSt :=
  { st := .free, base := 0, bytes := 0, imgMib := 0, cfgMib := 0, evtRing := none, evtEvery := 0, img := none,
    pendImg := none, cfg := none, shadow := none, verified := false, cfgArea := false, steps := [], next := none,
    remain := none, unbounded := false, haltAfter := none, swapAt := none, saveSched := false, destroyWait := false,
    restoreWait := false, epoch := 0, fin := .zero, halted := false, haltRec := false, haltTo := none, cause := 0,
    lsec := { en := false, hs := false, valid := false, keyJob := 0, key := 0, pend := none },
    savedX := [], savedSpm := none, savedSram := none }

/-- A ring pair after reset (R712-R717): STOPPED is 1. -/
def RingSt.reset : RingSt :=
  { sqLoc := false, sqAddr := 0, cqAddr := 0, en := false, irqEn := false,
    sqTail := 0, sqHead := 0, cqHead := 0, cqTail := 0, overrun := false, badAddr := false, stopped := true,
    cur := none, mute := false, waiting := [] }

/-- An engine that runs no step. -/
def EngSt.reset : EngSt :=
  { step := none, ctx := 0, live := false, opIdx := 0, word := 0, arrived := 0, redoOps := 0, passNo := 0, wait := none, issued := [],
    ended := true, srb := 0 }

/-- An array after reset (R164, R198). -/
def AeSt.reset : AeSt :=
  { plane0 := [], plane1 := [], fmt0 := 0, fmt1 := 0, rows0 := 0, rows1 := 0, active := false, load := none,
    passes := [], beat := 0, cyc := 0, token := none, lastEnd := 0, injEnd := 0, beatLen := 1, level := 0, idle := 257,
    wrote := none, up := none, checks := [] }

/-- A core after reset (R198-R200, R214, R251, R398, R763). -/
def CoreSt.reset : CoreSt :=
  { bank0 := [], bank1 := [], partInt := [], ve0 := false, ve1 := false,
    hand0 := none, hand1 := none, ae := .reset, abftErr := false, abftLog := 0, frozen := false,
    cntFrz := 0, cntGap := 0, cntRamp := 0, cntLdw := 0, mrwErr := false, resErr := false, parErr := false,
    idxOor := false, codecErr := false, meStallNow := false, meStall := 0, meDescs := [], pos := 0 }

/-- XS_STATUS and XS_HANG_LOG after reset. -/
def XsSt.reset : XsSt :=
  { hang := false, abandoned := false, ovf := false, late := false, stray := false, log := 0 }

/-- The STB after reset (R433, R456, R457). -/
def StbSt.reset : StbSt :=
  { ticks := 0, time := 0, sub := 0, rate := 0, meas := none, st := .free, parent := none, hops := 0, offset := 0, exch := none, exchNo := 0,
    good := 0, stepped := false, corr := 0, lastExch := 0, urgent := false, gm := none, follow := none }

/-- STB_SLOT after reset (R458). -/
def SlotSt.reset : SlotSt :=
  { edge := 0, miss := 0, hsk := false, missTimes := [], stamps := [], paced := false, readyIn := [],
    readyOut := [], begun := [] }

/-- A link member after reset (R520, R521). -/
def MemberSt.reset : MemberSt :=
  { st := .disabled, txSeq := 0, unacked := [], resend := [], queue := [], started := [], sentMsgs := [], curW := [], slotHist := [],
    slotNo := 0, vc0Slots := [], credit := [], granted := [], taken := [], ctrl := [], rxSeq := 0, nakSent := false,
    rxUnacked := 0, part := [], inbox := [], margin := 0, replayB := 0, uncorrB := 0, replayTimes := [],
    retrainTimes := [], retrainStart := 0, peer := 0, marginErr := false, misroute := false, busy := false,
    retrains := 0, corrCnt := 0, replayCnt := 0, uncorrCnt := 0, spares := 0, wire := [] }

/-- A message stream with nothing sent or received. -/
def StreamSt.reset : StreamSt :=
  { out := 0, expect := 0, highest := none, seen := [], held := [] }

/-- A Market before any configuration (R383, R400). -/
def MktSt.reset : MktSt :=
  { allocs := [], busy := [], pendCfg := none, idle := 0x1CC0, stalls := [] }

/-- A stack controller after reset (R352-R357). -/
def StackSt.reset : StackSt :=
  { band := .b1x, failed := false, temp := 0, due := none, coolSince := none, queue := [], ports := [],
    ceCnt := 0, ueCnt := 0, log := 0, chunk := 0, passes := 0, scrubDue := false, scrubNext := 257000,
    laneCnt := [], readData := [] }

/-- A lock register after reset (R849). -/
def LockSt.reset : LockSt := { lock := false, viol := false }

/-- An Update Engine after reset (R624-R626); the clip factor before the norm is 1.0 (R612). -/
def UeSt.reset : UeSt :=
  { spec := false, jstall := false, nfErr := false, jrnlErr := false, nfSeen := false, jstallCnt := 0, recs := [], ueBytes := 0,
    cxBytes := 0, runs := 0, cur := none, crc := 0, clipNow := 0x3F800000#32, pos := 0 }

/-- A Collective Engine after reset (R577-R581). -/
def CxSt.reset : CxSt :=
  { timeout := false, expOor := false, toLog := 0, nacc0 := 0, nacc1 := 0, gnorm0 := 0, gnorm1 := 0, drops := 0,
    slots := [], normTurn := [], intStream := [] }

/-- PMC_DIV after reset (R809). -/
def DivSt.reset : DivSt :=
  { target := 0, rail := 0, therm := 0, railCool := 0, thermCool := 0 }

/-- A tile's readings after reset (R812). -/
def TileSt.reset : TileSt :=
  { pin := 0, irail := 0, vin := 0, vib := 0, iib := 0, energy := 0, core := [], sram := [], hbm := [], io := [], jd := [],
    railHist := [] }

/-- A limit that is not enabled. -/
def LimitSt.off : LimitSt := { en := false, limit := 0, ms := 0 }

/-- The PMC after reset. -/
def PmcSt.reset : PmcSt :=
  { div := [], hostWin := .off, hostRail := .off, sbWin := .off, sbRail := .off, winTerm := 0, winDown := none,
    pHist := [], tiles := [], skip := [], oc := false, droop := [], dieOff := [], selfRefresh := false,
    tripSince := none, overTemp := [], pairs := [], disSince := [], agreeSince := [], powerLost := false, huLow := false }

/-- An erased firmware copy. -/
def blankFlash : FlashCopy := { hdr := [], pay := [] }

/-- SEC registers after reset (R845-R851). -/
def SecSt.reset : SecSt :=
  { stage := 0, copyB := false, fail := 0, lockBusy := 0, seqFail := false, regionViol := false,
    dbgDisabled := false, seq := none, stageKey := List.replicate 8 0, stageJob := 0, authCnt := 0,
    challengeNo := 0, dbgFails := 0, scope := 0, haltedAgents := [], running := blankFlash }

/-- The FRU logic before stage 2 loads it from the JD (R881): empty DATA, GEN 0 (R880). -/
def FruSt.reset : FruSt :=
  { hostStage := [], sbStage := [], hostSnap := [], sbSnap := [], committed := [], running := none, queued := [],
    done := false, fail := false }

/-- The sideband target when VAUX is applied (R889). -/
def SbSt.reset : SbSt :=
  { daddr := 0, daValid := false, events := 0, mask := 0, resp := none, read := [], telem := [], ibi := none }

/-- Bus state of an agent that has read nothing. -/
def BusSt.reset : BusSt := { data := 0, latch := [], held := [] }

/-- FLT registers and fault logic after reset (R764-R766). -/
def FltSt.reset : FltSt :=
  { halted := false, origin := false, lasting := false, sensDis := false, lftFull := false,
    cntTransient := 0, cntLasting := 0, cntHalts := 0, next := 0, lftUsed := 0, crashNext := 0, seq := 0, hist := [],
    wires := [], disagree := [], radishFails := [] }

/-- CM_STATUS and CM_LAST after reset (R627). -/
def CmSt.reset : CmSt := { defer := false, slot := false, torn := false, last := 0 }

/-- MSI-X after reset: every vector masked, as PCIe has it (assumption log 6). -/
def MsixSt.reset : MsixSt :=
  { table := (List.range 8).map fun i => (16 * i + 12, 1#8), pend := 0, out := [] }

/-- What the fuses hold in `State.reset` (assumption log 3). -/
def Fuses.reset : Fuses :=
  { kind := .tq4, stepB := false, serial := 0, arb := 0, fwKeyHash := 0, dbgKeyHash := 0, eta := [], cHu := [] }

/-- The machine right after reset: every register at the value its table gives (R821), every context FREE, rings
stopped, the servo FREE, the stores empty and no command waiting. -/
def State.reset : State :=
  { pending := [], free := 2, fuse := .reset,
    mem := { hbm := [], ecc := [], errLane := [], spm := { gen := some 0, cells := [] },
             sram := { gen := some 1, cells := [] }, vgen := none, vreg := [], market := [], par := [], jd := [], host := [], hostHoles := [],
             ringWin := [], flashA := blankFlash, flashB := blankFlash },
    rings := [], msix := .reset, ctx := [], resident := none, globalIl := false,
    eng := [], core := [], ports := { aged := [], granted := none },
    sync := { xcnt := [], xs := [], held := [], tflag := [], flagStep := [],
              launch := { done0 := [], done1 := [] }, slot := [] },
    remap := { phys := [], state := [], jdPhys := [], jdState := [] },
    stb := .reset,
    net := { member := [], stream := [], bktCfg := [], topo := { degraded := false, failed := false, groupDown := 0 },
             mkt := [], linkTrain := [], linkSched := [], delivered := [], rx := [] },
    stack := [], scrub := [], memLock := [], linkLock := [], lsecLock := .reset, ue := [], cx := [], cm := .reset,
    flt := .reset, pmc := .reset, sec := .reset, fru := .reset, sb := .reset,
    pin := { pkgRstN := true, ttrip0 := true, ttrip1 := true, faultN := true }, bus := [],
    fw := { busy := none, image := blankFlash, toB := false }, radishRun := none, resetDue := none, rsv := [] }

end Sys2Proof.Machine
end

