-- ==== Sys2Proof/Machine/Ops.lean ====
section
/-! DEFINITION. The named operations over sparse tables, byte strings and stores that every meaning uses. -/

namespace Sys2Proof.Machine

/-! ## Sparse tables -/

/-- The entry of key `k`, or `d` where the table lists none. -/
def tget {α : Type} (d : α) (t : Tbl α) (k : Nat) : α :=
  match t with
  | [] => d
  | (j, v) :: r => if j = k then v else tget d r k

/-- The table without key `k`. -/
def tdel {α : Type} (t : Tbl α) (k : Nat) : Tbl α :=
  match t with
  | [] => []
  | (j, v) :: r => if j = k then tdel r k else (j, v) :: tdel r k

/-- The table with `v` at key `k`, keys kept rising. -/
def tput {α : Type} (t : Tbl α) (k : Nat) (v : α) : Tbl α :=
  match t with
  | [] => [(k, v)]
  | (j, w) :: r =>
    if k < j then (k, v) :: (j, w) :: r else if k = j then (k, v) :: r else (j, w) :: tput r k v

/-- The table after writing `v` at `k`: the default is never listed. -/
def tset {α : Type} [DecidableEq α] (d : α) (t : Tbl α) (k : Nat) (v : α) : Tbl α :=
  if v = d then tdel t k else tput t k v

/-- The entry at `k` changed by `f`. -/
def tmod {α : Type} [DecidableEq α] (d : α) (t : Tbl α) (k : Nat) (f : α → α) : Tbl α :=
  tset d t k (f (tget d t k))

/-- Whether the keys of a table rise strictly. -/
def rising {α : Type} : Tbl α → Bool
  | [] => true
  | [_] => true
  | (j, _) :: (k, w) :: r => decide (j < k) && rising ((k, w) :: r)

/-- Canonical form: keys strictly rising, no entry equal to the default. -/
def canon {α : Type} [DecidableEq α] (d : α) (t : Tbl α) : Bool := rising t && t.all fun e => decide (e.2 ≠ d)

/-! ## Little-endian byte strings (R4) -/

/-- The number that little-endian bytes hold. -/
def leNat : Bytes → Nat
  | [] => 0
  | b :: r => b.toNat + 256 * leNat r

/-- The `n` little-endian bytes of a number. -/
def leBytes : Nat → Nat → Bytes
  | 0, _ => []
  | n + 1, v => BitVec.ofNat 8 v :: leBytes n (v / 256)

/-- `len` bytes at offset `off`; absent bytes read as zero. -/
def slice (bs : Bytes) (off len : Nat) : Bytes :=
  let t := (bs.drop off).take len
  t ++ List.replicate (len - t.length) 0

/-- The field of `n` bytes at offset `off`, as a number. -/
def fld (bs : Bytes) (off n : Nat) : Nat := leNat (slice bs off n)

/-- Bits [hi:lo] of a number (R3). -/
def bits (v hi lo : Nat) : Nat := v / 2 ^ lo % 2 ^ (hi + 1 - lo)

/-- Bit `i` of a number. -/
def bitOf (v i : Nat) : Bool := v.testBit i

/-- A two's-complement reading of the low `w` bits. -/
def asInt (w v : Nat) : Int := let u := v % 2 ^ w; if 2 ^ (w - 1) ≤ u then (u : Int) - 2 ^ w else u

/-- The low `w` bits of an integer, two's complement. -/
def ofInt (w : Nat) (i : Int) : Nat := (i % (2 ^ w : Int)).toNat

/-- The number of a Bool. -/
def b2n (b : Bool) : Nat := if b then 1 else 0

/-- `bs` with `src` written at offset `off` (both inside). -/
def splice (bs : Bytes) (off : Nat) (src : Bytes) : Bytes := bs.take off ++ src ++ bs.drop (off + src.length)

/-- Big-endian bytes of a number, as hash and signature standards order them. -/
def beBytes (n v : Nat) : Bytes := (leBytes n v).reverse

/-- The number big-endian bytes hold. -/
def beNat (bs : Bytes) : Nat := leNat bs.reverse

/-! ## Byte stores -/

/-- `len` bytes from `addr` of a table of bytes. -/
def rdBytes (t : Tbl (BitVec 8)) (addr len : Nat) : Bytes := (List.range len).map fun i => tget 0 t (addr + i)

/-- A table of bytes with `bs` written from `addr`. -/
def wrBytes (t : Tbl (BitVec 8)) (addr : Nat) (bs : Bytes) : Tbl (BitVec 8) :=
  match bs with
  | [] => t
  | b :: r => wrBytes (tset 0 t addr b) (addr + 1) r

/-- A store with nothing written, undefined in generation `g` (R264). -/
def Store.undef (g : Nat) : Store := { gen := some g, cells := [] }

/-- A byte of a store: zero or undefined where nothing is listed. -/
def Store.get (st : Store) (key a : Nat) : BitVec 8 :=
  match st.gen with
  | none => tget 0 st.cells a
  | some g => tget (Config.undefByte g (key * 2 ^ 32 + a)) st.cells a

/-- A store with one byte written. A zero store stays canonical; an undefined one lists every written byte. -/
def Store.set (st : Store) (a : Nat) (b : BitVec 8) : Store :=
  match st.gen with
  | none => { st with cells := tset 0 st.cells a b }
  | some _ => { st with cells := tput st.cells a b }

/-- `len` bytes of a store. -/
def Store.read (st : Store) (key a len : Nat) : Bytes := (List.range len).map fun i => st.get key (a + i)

/-- A store with `bs` written from `a`. -/
def Store.write (st : Store) (a : Nat) : Bytes → Store
  | [] => st
  | b :: r => Store.write (st.set a b) (a + 1) r

/-- Canonical form of a store: a zero store lists no zero byte; an undefined one lists exactly what is written. -/
def Store.wf (st : Store) : Bool :=
  match st.gen with
  | none => canon 0#8 st.cells
  | some _ => rising st.cells

/-- The canonical form of the memories: addresses strictly rising, and no entry equal to what an unlisted address reads
as. -/
def Memory.wf (m : MemSt) : Bool :=
  canon 0#8 m.hbm && canon 0#8 m.ecc && m.spm.wf && m.sram.wf && canon 0#8 m.market && canon false m.par && canon 0#8 m.jd && canon 0#8 m.host
  && canon 0#8 m.ringWin

/-! ## Lists of numbers -/

/-- Insert into a strictly rising list. -/
def insNat (k : Nat) : List Nat → List Nat
  | [] => [k]
  | j :: r => if k < j then k :: j :: r else if k = j then j :: r else j :: insNat k r

/-- `l` with element `i` replaced. -/
def setAt {α : Type} (l : List α) (i : Nat) (v : α) : List α := l.set i v

/-- The numbers `0 … n-1` that satisfy `p`. -/
def natsWhere (n : Nat) (p : Nat → Bool) : List Nat := (List.range n).filter p

/-- Sum of a list of numbers. -/
def sumNat (l : List Nat) : Nat := l.foldl (· + ·) 0

/-! ## Check codes (R73, R331) -/

/-- One bit-serial step of the CRC-64 of R73. -/
def crc64Bit (c : BitVec 64) (b : Bool) : BitVec 64 :=
  let top := c.getLsbD 63
  let s := c <<< 1
  if top != b then s ^^^ 0x42F0E1EBA9EA3693#64 else s

/-- One byte into the CRC-64, most significant bit first. -/
def crc64Byte (c : BitVec 64) (x : Byte) : BitVec 64 :=
  (List.range 8).foldl (fun c i => crc64Bit c (x.getLsbD (7 - i))) c

/-- CRC-64 continued from `c` over a byte string. -/
def crc64From (c : BitVec 64) (bs : Bytes) : BitVec 64 := bs.foldl crc64Byte c

/-- CRC-64 of a byte string (R73): initial value zero, no reflection, no final inversion. -/
def crc64 (bs : Bytes) : BitVec 64 := crc64From 0 bs

end Sys2Proof.Machine
end

