-- ==== Sys2Proof/Machine/Flags.lean ====
section
/-! DEFINITION. The numerics flags of R138-R145: four bits that passes and conversions collect. -/

namespace Sys2Proof.Machine

/-- R138 bit 0. -/
def accOvf : BitVec 4 := 1#4
/-- R138 bit 1. -/
def nanSeen : BitVec 4 := 2#4
/-- R138 bit 2. -/
def satClip : BitVec 4 := 4#4
/-- R138 bit 3. -/
def scaleUnder : BitVec 4 := 8#4

/-- A flag where a condition holds. -/
def flagIf (b : Bool) (f : BitVec 4) : BitVec 4 := if b then f else 0#4

/-- The OR of a list of flag words (R143). -/
def orFlags (l : List (BitVec 4)) : BitVec 4 := l.foldl (· ||| ·) 0#4

/-- The place of slot `slot` of the bank of step `step` on die `die` (R141). -/
def flagKey (die : Nat) (step : BitVec 64) (slot : Nat) : Nat := die * 512 + step.toNat % 2 * 256 + slot

/-- The tensor flags with a pass flag word ORed into its slot (R140). -/
def orSlot (t : Tbl (BitVec 4)) (die : Nat) (step : BitVec 64) (slot : Nat) (f : BitVec 4) : Tbl (BitVec 4) :=
  tmod 0#4 t (flagKey die step slot) (· ||| f)

/-- The tensor flags with the bank of `step` cleared on die `die` (R142). -/
def clearBank (t : Tbl (BitVec 4)) (die : Nat) (step : BitVec 64) : Tbl (BitVec 4) :=
  t.filter fun e => !(e.1 / 256 == die * 2 + step.toNat % 2)

/-- NUM_TFLAG_ii (R248): the eight flag words of one register; registers 0-31 hold bank 0 and 32-63 bank 1. -/
def tflagReg (t : Tbl (BitVec 4)) (die ii : Nat) : Nat :=
  sumNat ((List.range 8).map fun j => (tget 0#4 t (die * 512 + 8 * ii + j)).toNat * 16 ^ j)

/-- NUM_FLAGSUM.ANY (R249): the OR of the 256 slots of a bank. -/
def flagAny (t : Tbl (BitVec 4)) (die bank : Nat) : BitVec 4 :=
  orFlags ((t.filter fun e => e.1 / 256 == die * 2 + bank).map (·.2))

end Sys2Proof.Machine
end

