-- ==== Sys2Proof/Machine/Operands.lean ====
section
/-! DEFINITION. Number formats and conversions (spec 03): exact values, the codes of every element format, block
scales, rounding onto a format's grid, stochastic draws, and the packing of elements into bytes. -/

namespace Sys2Proof.Machine

/-! ## Exact values -/

/-- An exact value: NaN, a signed infinity, or (-1)^neg × n/d with d > 0; a zero keeps its sign. -/
inductive Val where
  | nan
  | inf (neg : Bool)
  | fin (neg : Bool) (n d : Nat)
  deriving DecidableEq, Repr

/-- Positive zero. -/
def Val.zero : Val := .fin false 0 1

/-- Whether a value is NaN. -/
def Val.isNan : Val → Bool
  | .nan => true
  | _ => false

/-- Whether a value is infinite. -/
def Val.isInf : Val → Bool
  | .inf _ => true
  | _ => false

/-- Whether a value is finite. -/
def Val.isFin : Val → Bool
  | .fin _ _ _ => true
  | _ => false

/-- Whether a value is a zero. -/
def Val.isZero : Val → Bool
  | .fin _ n _ => n == 0
  | _ => false

/-- The sign of a value. -/
def Val.sign : Val → Bool
  | .nan => false
  | .inf s => s
  | .fin s _ _ => s

/-- The value of an integer. -/
def Val.ofInt (i : Int) : Val := .fin (i < 0) i.natAbs 1

/-- (-1)^neg × n × 2^e. -/
def Val.scale2 (neg : Bool) (n : Nat) (e : Int) : Val :=
  if 0 ≤ e then .fin neg (n * 2 ^ e.toNat) 1 else .fin neg n (2 ^ (-e).toNat)

/-- The opposite value. -/
def Val.neg : Val → Val
  | .nan => .nan
  | .inf s => .inf (!s)
  | .fin s n d => .fin (!s) n d

/-- The magnitude. -/
def Val.abs : Val → Val
  | .nan => .nan
  | .inf _ => .inf false
  | .fin _ n d => .fin false n d

/-- The exact product; zero times infinity is NaN (R138). -/
def Val.mul : Val → Val → Val
  | .nan, _ => .nan
  | _, .nan => .nan
  | .inf s, .inf t => .inf (s != t)
  | .inf s, .fin t n _ => if n = 0 then .nan else .inf (s != t)
  | .fin s n _, .inf t => if n = 0 then .nan else .inf (s != t)
  | .fin s n d, .fin t m e => .fin (s != t) (n * m) (d * e)

/-- The exact sum; a zero sum is -0 only where both terms are -0, and infinities of opposite signs give NaN. -/
def Val.add : Val → Val → Val
  | .nan, _ => .nan
  | _, .nan => .nan
  | .inf s, .inf t => if s = t then .inf s else .nan
  | .inf s, .fin _ _ _ => .inf s
  | .fin _ _ _, .inf t => .inf t
  | .fin s n d, .fin t m e =>
    let a := n * e
    let b := m * d
    if s = t then .fin s (a + b) (d * e)
    else if a = b then .fin false 0 1
    else if b < a then .fin s (a - b) (d * e) else .fin t (b - a) (d * e)

/-- The exact difference. -/
def Val.sub (a b : Val) : Val := a.add b.neg

/-- The exact quotient: a finite value over zero is infinite, 0/0 and infinity over infinity are NaN. -/
def Val.div : Val → Val → Val
  | .nan, _ => .nan
  | _, .nan => .nan
  | .inf _, .inf _ => .nan
  | .inf s, .fin t _ _ => .inf (s != t)
  | .fin s _ _, .inf t => .fin (s != t) 0 1
  | .fin s n d, .fin t m e =>
    if m = 0 then (if n = 0 then .nan else .inf (s != t)) else .fin (s != t) (n * e) (d * m)

/-- Order of two values that are not NaN; the zeros are equal. -/
def Val.lt : Val → Val → Bool
  | .nan, _ => false
  | _, .nan => false
  | .inf s, .inf t => s && !t
  | .inf s, .fin _ _ _ => s
  | .fin _ _ _, .inf t => !t
  | .fin s n d, .fin t m e =>
    let a := if s then -((n * e : Nat) : Int) else ((n * e : Nat) : Int)
    let b := if t then -((m * d : Nat) : Int) else ((m * d : Nat) : Int)
    a < b

/-- Whether a magnitude exceeds another: the larger of two fractions. -/
def magLt (n d m e : Nat) : Bool := n * e < m * d

/-! ## Floating-point layouts (R87, R89, R114) -/

/-- A floating-point format: width, mantissa bits, bias, whether subnormals are flushed, the code of the next power N
of R114, and its infinity and canonical NaN where it has them. -/
structure FloatFmt where
  w : Nat
  m : Nat
  bias : Nat
  flush : Bool
  next : Nat
  hasInf : Bool
  nan : Option Nat
  deriving DecidableEq, Repr

/-- VF4 (R87). -/
def fVF4 : FloatFmt := { w := 4, m := 1, bias := 1, flush := false, next := 8, hasInf := false, nan := none }
/-- VF8A. -/
def fVF8A : FloatFmt := { w := 8, m := 3, bias := 7, flush := false, next := 0x80, hasInf := false, nan := some 0x80 }
/-- VF8B. -/
def fVF8B : FloatFmt := { w := 8, m := 2, bias := 15, flush := false, next := 0x7C, hasInf := true, nan := some 0x7E }
/-- VH16. -/
def fVH16 : FloatFmt :=
  { w := 16, m := 10, bias := 15, flush := false, next := 0x7C00, hasInf := true, nan := some 0x7E00 }
/-- VB16. -/
def fVB16 : FloatFmt :=
  { w := 16, m := 7, bias := 127, flush := false, next := 0x7F80, hasInf := true, nan := some 0x7FC0 }
/-- VS32. -/
def fVS32 : FloatFmt :=
  { w := 32, m := 23, bias := 127, flush := true, next := 0x7F800000, hasInf := true, nan := some 0x7FC00000 }
/-- W48. -/
def fW48 : FloatFmt :=
  { w := 48, m := 37, bias := 511, flush := true, next := 0x7FE000000000, hasInf := true, nan := some 0x7FF000000000 }

/-- The value of a floating-point code (R88, R90-R93). -/
def FloatFmt.value (f : FloatFmt) (c : Nat) : Val :=
  let s := c.testBit (f.w - 1)
  let g := c % 2 ^ (f.w - 1)
  let e := g / 2 ^ f.m
  let m := g % 2 ^ f.m
  if f.hasInf && decide (f.next ≤ g) then (if g = f.next then .inf s else .nan)
  else if g = 0 && !f.hasInf then (if s && f.nan.isSome then .nan else .zero)
  else if e = 0 then
    if f.flush then .fin s 0 1 else .scale2 s m (1 - (f.bias : Int) - f.m)
  else .scale2 s (2 ^ f.m + m) ((e : Int) - f.bias - f.m)

/-- The largest finite value of a format. -/
def FloatFmt.maxVal (f : FloatFmt) : Val := f.value (f.next - 1)

/-- ⌊log2(n/d)⌋ for n, d > 0. -/
def floorLog2 (n d : Nat) : Int :=
  let k : Int := (Nat.log2 n : Int) - Nat.log2 d
  let ge : Bool := if 0 ≤ k then decide (d * 2 ^ k.toNat ≤ n) else decide (d ≤ n * 2 ^ (-k).toNat)
  if ge then k else k - 1

/-- How a magnitude is rounded: to nearest even, or by a stochastic draw (R129). -/
inductive Rnd where
  | rne
  | sr (draw : Nat)
  deriving DecidableEq, Repr

/-- Rounds a count of grid steps num/den (den > 0) to an integer number of steps (R115, R129). -/
def roundSteps (num den : Nat) : Rnd → Nat
  | .rne =>
    let q := num / den
    let r := num % den
    if 2 * r < den then q else if den < 2 * r then q + 1 else if q % 2 = 0 then q else q + 1
  | .sr d =>
    let q := num / den
    let t := num % den * 65536 / den
    if 65536 ≤ t + d then q + 1 else q

/-- The grid index of a rounded magnitude n/d (R114-R116): the magnitude's code, `f.next` and above for N and beyond;
for a flushed format a magnitude below the smallest normal has index 0. -/
def FloatFmt.round (f : FloatFmt) (n d : Nat) (r : Rnd) : Nat :=
  if n = 0 then 0 else
  let e := floorLog2 n d
  let emin : Int := 1 - f.bias
  let u : Int := (if f.flush then e else max e emin) - f.m
  let k := if 0 ≤ u then roundSteps n (d * 2 ^ u.toNat) r else roundSteps (n * 2 ^ (-u).toNat) d r
  let c : Int := (u + f.m + f.bias - 1) * 2 ^ f.m + k
  if c < 2 ^ f.m && f.flush then 0 else min c.toNat f.next

/-- A rounded value as a code, with whether it reached N (R119, R122): no saturation. -/
def FloatFmt.codeOf (f : FloatFmt) (v : Val) : Nat × Bool :=
  match v with
  | .nan => (f.nan.getD 0, false)
  | .inf s => (f.next + b2n s * 2 ^ (f.w - 1), false)
  | .fin s n d =>
    let c := f.round n d .rne
    (c + b2n s * 2 ^ (f.w - 1), decide (f.next ≤ c))

/-- A value rounded to VS32, with whether a finite value overflowed. -/
def toVS32 (v : Val) : BitVec 32 × Bool := let r := fVS32.codeOf v; (BitVec.ofNat 32 r.1, r.2)

/-- A value rounded to W48, with whether a finite value overflowed. -/
def toW48 (v : Val) : BitVec 48 × Bool := let r := fW48.codeOf v; (BitVec.ofNat 48 r.1, r.2)

/-- The value of a VS32 code. -/
def vs32 (c : BitVec 32) : Val := fVS32.value c.toNat

/-- The value of a W48 code. -/
def w48 (c : BitVec 48) : Val := fW48.value c.toNat

/-! ## LOG4 (R95-R99) -/

/-- The numerator of Q over 2^23 (R95). -/
def qNum : Nat := 11863283

/-- (-1)^s × L(k) (R96). -/
def lVal (s : Bool) (k : Int) : Val :=
  let h := k / 2
  if k % 2 = 0 then .scale2 s 1 h else .scale2 s qNum (h - 23)

/-- The value of a LOG4 code (R97). -/
def log4Val (c : Nat) : Val :=
  let e := c % 8
  if e = 0 then .zero else lVal (c.testBit 3) ((e : Int) - 4)

/-- Rounding to the LOG4 grid (R117): the code e, or 8 for N. -/
def log4Round (n d : Nat) : Nat :=
  let m (e : Nat) : Nat × Nat :=
    if e = 0 then (0, 1) else match lVal false ((e : Int) - 4) with
      | .fin _ a b => (a, b)
      | _ => (0, 1)
  let step (c : Nat) : Bool :=
    -- whether |v| rounds above code c: compare with the midpoint of codes c and c+1
    let a := m c
    let b := m (c + 1)
    let num := a.1 * b.2 + b.1 * a.2
    let den := 2 * a.2 * b.2
    if n * den = num * d then c % 2 = 1 else num * d < n * den
  ((List.range 8).filter step).length

/-! ## Format words (R104-R106) -/

/-- FMT. -/
def fmtOf (w : BitVec 16) : Nat := w.toNat % 16
/-- SCALE: 0 none, 1 SE8, 2 SF8. -/
def scaleOf (w : BitVec 16) : Nat := bits w.toNat 5 4
/-- The block size. -/
def blkOf (w : BitVec 16) : Nat := if w.getLsbD 6 then 32 else 16
/-- RND. -/
def rndOf (w : BitVec 16) : Bool := w.getLsbD 7
/-- SAT. -/
def satOf (w : BitVec 16) : Bool := w.getLsbD 8

/-- A format word that carries no reserved encoding (R105). -/
def fmtOk (w : BitVec 16) : Bool :=
  let f := fmtOf w
  decide (f ≤ 12) && decide (scaleOf w ≤ 2)
  && (scaleOf w == 0 || f == 0 || f == 1 || f == 2 || f == 7)
  && (!rndOf w || f == 0 || f == 1 || f == 4)
  && decide (w.toNat / 512 = 0)

/-- Bits per element as stored (R102). -/
def elemBits (fmt : Nat) : Nat :=
  match fmt with
  | 0 | 7 | 8 | 9 => 4
  | 1 | 2 | 10 | 11 => 8
  | 3 | 4 => 16
  | 5 | 12 => 32
  | 6 => 64
  | _ => 8

/-- The layout of a floating-point FMT. -/
def floatFmt (fmt : Nat) : Option FloatFmt :=
  match fmt with
  | 0 => some fVF4
  | 1 => some fVF8A
  | 2 => some fVF8B
  | 3 => some fVH16
  | 4 => some fVB16
  | 5 => some fVS32
  | 6 => some fW48
  | _ => none

/-- Whether a FMT is an integer format. -/
def isIntFmt (fmt : Nat) : Bool := 8 ≤ fmt

/-- The integer a code of an integer FMT stands for (R100). -/
def intVal (fmt c : Nat) : Int :=
  match fmt with
  | 8 => asInt 4 c
  | 9 => (c % 16 : Nat)
  | 10 => asInt 8 c
  | 11 => (c % 256 : Nat)
  | _ => asInt 32 c

/-- The range of an integer FMT. -/
def intRange (fmt : Nat) : Int × Int :=
  match fmt with
  | 8 => (-8, 7)
  | 9 => (0, 15)
  | 10 => (-128, 127)
  | 11 => (0, 255)
  | _ => (-(2 ^ 31), 2 ^ 31 - 1)

/-- The value of an element code without a block scale. -/
def elemVal (fmt c : Nat) : Val :=
  match floatFmt fmt with
  | some f => f.value (c % 2 ^ f.w)
  | none => if fmt = 7 then log4Val c else .ofInt (intVal fmt c)

/-- A block scale: the zero scale, the NaN scale, or a positive value n/d. -/
inductive ScaleVal where
  | zero
  | nan
  | pos (n d : Nat)
  deriving DecidableEq, Repr

/-- The value of a scale code (R107, R108). -/
def scaleVal (kind c : Nat) : ScaleVal :=
  if kind = 1 then
    if c = 0 then .zero else if c = 255 then .nan
    else match Val.scale2 false 1 ((c : Int) - 127) with
      | .fin _ n d => .pos n d
      | _ => .nan
  else if kind = 2 then
    if c = 0 then .zero else if 128 ≤ c then .nan
    else match fVF8A.value c with
      | .fin _ n d => .pos n d
      | _ => .nan
  else .pos 1 1

/-- The dequantised value of an element under its block's scale (R112). -/
def dequant (s : ScaleVal) (v : Val) : Val :=
  match s with
  | .nan => .nan
  | .zero => (match v with
    | .fin g _ _ => .fin g 0 1
    | _ => .nan)
  | .pos n d => (match v with
    | .fin g a b => .fin g (a * n) (b * d)
    | w => w)

/-- The element of a scaled operand read as a value; NAN_SEEN where it reads as NaN (R138). -/
def readElem (w : BitVec 16) (code scale : Nat) : Val :=
  let v := elemVal (fmtOf w) code
  let v := if fmtOf w = 0 ∨ fmtOf w = 1 ∨ fmtOf w = 7 then
    (match v with
     | .fin _ 0 _ => Val.zero
     | x => x) else v
  let v := if scaleOf w = 0 then v else dequant (scaleVal (scaleOf w) scale) v
  if fmtOf w = 0 ∨ fmtOf w = 1 ∨ fmtOf w = 7 then
    (match v with
     | .fin _ 0 _ => Val.zero
     | x => x) else v

/-! ## Conversion (R113-R129) -/

/-- The signed largest finite code of FMT. -/
def maxCode (fmt : Nat) (neg : Bool) : Nat :=
  match floatFmt fmt with
  | some f => f.next - 1 + b2n neg * 2 ^ (f.w - 1)
  | none => 7 + b2n neg * 8

/-- Codes that a zero result takes (R122). -/
def zeroCode (fmt : Nat) (neg : Bool) : Nat :=
  match floatFmt fmt with
  | some f => if f.hasInf then b2n neg * 2 ^ (f.w - 1) else 0
  | none => 0

/-- One scaled value converted into a target FMT (R115-R123): the code and its flags. -/
def convElem (w : BitVec 16) (r : Rnd) (v : Val) : Nat × BitVec 4 :=
  let fmt := fmtOf w
  match v with
  | .nan =>
    (match floatFmt fmt with
     | some f => (f.nan.getD 0, nanSeen)
     | none => (0, nanSeen))
  | .inf s =>
    (match floatFmt fmt with
     | some f => if f.hasInf && !satOf w then (f.next + b2n s * 2 ^ (f.w - 1), 0#4) else (maxCode fmt s, satClip)
     | none =>
       if fmt = 7 then (maxCode 7 s, satClip)
       else let b := intRange fmt; (ofInt (if fmt = 12 then 32 else elemBits fmt) (if s then b.1 else b.2), satClip))
  | .fin s n d =>
    (match floatFmt fmt with
     | some f =>
       let c := f.round n d r
       if c = 0 then (zeroCode fmt s, 0#4)
       else if f.next ≤ c then
         (if f.hasInf && !satOf w then (f.next + b2n s * 2 ^ (f.w - 1), satClip) else (maxCode fmt s, satClip))
       else (c + b2n s * 2 ^ (f.w - 1), 0#4)
     | none =>
       if fmt = 7 then
         let e := log4Round n d
         if e = 0 then (0, 0#4) else if 8 ≤ e then (maxCode 7 s, satClip) else (e + b2n s * 8, 0#4)
       else
         let m : Int := roundSteps n d .rne
         let i := if s then -m else m
         let b := intRange fmt
         let bw := elemBits fmt
         if i < b.1 then (ofInt bw b.1, satClip) else if b.2 < i then (ofInt bw b.2, satClip) else (ofInt bw i, 0#4))

/-- The target maximum of R125 as a fraction. -/
def targetMax (fmt : Nat) : Nat × Nat :=
  match fmt with
  | 0 => (6, 1)
  | 1 => (480, 1)
  | 2 => (57344, 1)
  | _ => (2 * qNum, 2 ^ 23)

/-- The block maximum (R124); `srcMax` is the source format's largest finite value. -/
def blockMax (srcMax : Nat × Nat) (vs : List Val) : Nat × Nat :=
  vs.foldl (fun a v =>
    match v with
    | .nan => a
    | .inf _ => if magLt a.1 a.2 srcMax.1 srcMax.2 then srcMax else a
    | .fin _ n d => if magLt a.1 a.2 n d then (n, d) else a) (0, 1)

/-- Ceiling of log2(n/d). -/
def ceilLog2 (n d : Nat) : Int :=
  let k := floorLog2 n d
  let eq : Bool := if 0 ≤ k then decide (d * 2 ^ k.toNat = n) else decide (d = n * 2 ^ (-k).toNat)
  if eq then k else k + 1

/-- The least VF8A code 0x01-0x7F whose value is at least n/d; 0x80 where none is. -/
def vf8aCeil (n d : Nat) : Nat :=
  1 + ((List.range 127).filter fun i =>
    match fVF8A.value (i + 1) with
    | .fin _ a b => magLt a b n d
    | _ => false).length

/-- The scale code of a block and the scale flags (R126-R128): bm is the block maximum, not zero. -/
def selectScale (kind fmt : Nat) (bm : Nat × Nat) : Nat × BitVec 4 :=
  let t := targetMax fmt
  let n := bm.1 * t.2
  let d := bm.2 * t.1
  if kind = 1 then
    let x := ceilLog2 n d
    if x < -126 then (1, scaleUnder) else if 127 < x then (254, 0#4) else ((x + 127).toNat, 0#4)
  else if magLt n d 1 512 then (1, scaleUnder)
  else (min (vf8aCeil n d) 127, 0#4)

/-- One block, or one run of unscaled elements, converted: element codes, scale codes (one, or none without a
scale), flags. `rnd i` is the rounding of element i (R113, R128). -/
def convBlock (w : BitVec 16) (srcMax : Nat × Nat) (rnd : Nat → Rnd) (i0 : Nat) (vs : List Val) :
    List Nat × List Nat × BitVec 4 :=
  let fmt := fmtOf w
  let elems (vs : List Val) : List (Nat × BitVec 4) := vs.zipIdx.map fun p => convElem w (rnd (i0 + p.2)) p.1
  if scaleOf w = 0 then
    let r := elems vs
    (r.map (·.1), [], orFlags (r.map (·.2)))
  else
    let hasNan := vs.any (·.isNan)
    let bm := blockMax srcMax vs
    if hasNan && fmt != 2 then
      (vs.map fun _ => 0, [if scaleOf w = 1 then 0xFF else 0x80], nanSeen)
    else if bm.1 = 0 then
      (vs.map fun v => if v.isNan then 0x7E else 0, [0], flagIf hasNan nanSeen)
    else
      let sc := selectScale (scaleOf w) fmt bm
      let div (v : Val) : Val :=
        match scaleVal (scaleOf w) sc.1 with
        | .pos n d => v.mul (.fin false d n)
        | _ => v
      let r := elems (vs.map div)
      (r.map (·.1), [sc.1], orFlags (sc.2 :: r.map (·.2)))

/-- A list cut into blocks of `k`; `fuel` bounds the number of blocks. -/
def chunks {α : Type} (k : Nat) : Nat → List α → List (List α)
  | 0, _ => []
  | fuel + 1, l => if l.isEmpty then [] else l.take k :: chunks k fuel (l.drop k)

/-- Elements in output order converted into a target format word: element codes, scale codes, flags. -/
def convert (w : BitVec 16) (srcMax : Nat × Nat) (rnd : Nat → Rnd) (vs : List Val) :
    List Nat × List Nat × BitVec 4 :=
  let bl := if scaleOf w = 0 then [vs] else chunks (blkOf w) vs.length vs
  let rs := bl.zipIdx.map fun p => convBlock w srcMax rnd (p.2 * blkOf w) p.1
  (rs.flatMap (·.1), rs.flatMap (·.2.1), orFlags (rs.map (·.2.2)))

/-- The largest finite value of a source FMT as a fraction (R124). -/
def fmtMax (fmt : Nat) : Nat × Nat :=
  match floatFmt fmt with
  | some f => (match f.maxVal with
    | .fin _ n d => (n, d)
    | _ => (0, 1))
  | none => (0, 1)

/-! ## Stochastic draws (R130-R133) -/

/-- mix64 of R130. -/
def mix64 (x : BitVec 64) : BitVec 64 :=
  let x := x ^^^ (x >>> 30)
  let x := x * 0xBF58476D1CE5E5B9#64
  let x := x ^^^ (x >>> 27)
  let x := x * 0x94D049BB133111EB#64
  x ^^^ (x >>> 31)

/-- The draw of element index i (R130). -/
def srDraw (seed step src i : BitVec 64) : Nat :=
  let s := mix64 (seed ^^^ mix64 (step ^^^ mix64 src))
  let w := mix64 (s + (i >>> 2) * 0x9E3779B97F4A7C15#64)
  ((w >>> (16 * (i.toNat % 4))) &&& 0xFFFF#64).toNat

/-- The source identity of R132: `k` within compute die `die`. -/
def srcId (die k : Nat) : BitVec 64 := BitVec.ofNat 64 (256 * die + k)

/-- The rounding of each output element of an op: stochastic from the op's base (R133) where RND is set. -/
def rndFor (w : BitVec 16) (seed step src base : BitVec 64) (i : Nat) : Rnd :=
  if rndOf w then .sr (srDraw seed step src (base + BitVec.ofNat 64 i)) else .rne

/-! ## Packing (R102, R103) -/

/-- Bytes that `n` elements of FMT occupy. -/
def elemBytes (fmt n : Nat) : Nat := (n * elemBits fmt + 7) / 8

/-- Element `i` of packed bytes, as a code. A W48 container's top 16 bits are ignored (R103). -/
def unpackElem (fmt : Nat) (bs : Bytes) (i : Nat) : Nat :=
  match elemBits fmt with
  | 4 => bits (fld bs (i / 2) 1) (4 * (i % 2) + 3) (4 * (i % 2))
  | 8 => fld bs i 1
  | 16 => fld bs (2 * i) 2
  | 32 => fld bs (4 * i) 4
  | _ => fld bs (8 * i) 6

/-- Codes packed as stored. -/
def packElems (fmt : Nat) (cs : List Nat) : Bytes :=
  match elemBits fmt with
  | 4 => (chunks 2 cs.length cs).map fun p => BitVec.ofNat 8 (p.getD 0 0 % 16 + 16 * (p.getD 1 0 % 16))
  | 8 => cs.map (BitVec.ofNat 8)
  | 16 => cs.flatMap (leBytes 2)
  | 32 => cs.flatMap (leBytes 4)
  | _ => cs.flatMap fun c => leBytes 8 (c % 2 ^ 48)

/-- The values of `n` elements of a format word from their bytes and scale bytes; element 0 starts a block. -/
def readElems (w : BitVec 16) (bs scales : Bytes) (n : Nat) : List Val :=
  (List.range n).map fun i => readElem w (unpackElem (fmtOf w) bs i) (fld scales (i / blkOf w) 1)

end Sys2Proof.Machine
end

