-- ==== Sys2Proof/Machine/OpCheck.lean ====
section
/-! DEFINITION. The reserved encodings of the op set (R105, R275, R280-R304) and the extents of the scratchpad bytes
an op names (R255, R281). -/

namespace Sys2Proof.Machine

/-- Bytes of a core's scratchpad. -/
def spmBytes : Nat := 0x300000

/-- Whether a line number exists (R280). -/
def lineOk (l : BitVec 16) : Bool := decide (l.toNat < 0xC000)

/-- Whether a scale-plane byte offset exists (R280). -/
def sbyteOk (b : BitVec 22) : Bool := decide (b.toNat < spmBytes)

/-- A header of a core stream: WXC and AXC name XC00-XC47 (R275). -/
def hdrOk (h : OpHdr) : Bool := decide (h.wxc.toNat < 48) && decide (h.axc.toNat < 48)

/-- Whether an engine's header names crossings of its own kind (R275). -/
def engHdrOk (e : EngKind) (h : OpHdr) : Bool :=
  match e with
  | .ue | .cx => true
  | .ae | .ve | .me | .sync => hdrOk h

/-- Lines of a row of `n` elements of a format (R281). -/
def rowLines (w : BitVec 16) (n : Nat) : Nat := (elemBytes (fmtOf w) n + 63) / 64

/-- Scale bytes of `rows` rows of `n` elements. -/
def scaleBytes (w : BitVec 16) (rows n : Nat) : Nat := if scaleOf w = 0 then 0 else rows * n / blkOf w

/-- The end of a tensor that an AE op names: element rows, then its scale plane (R281). -/
def tensorEnd (w : BitVec 16) (line rows n : Nat) : Nat :=
  64 * (line + rows * rowLines w n) + scaleBytes w rows n

/-- Width of a bank region. -/
def regionW (wide : Bool) : Nat := if wide then 128 else 64

/-- Whether a bank region exists (R287, R297). -/
def regionOk (row0 : BitVec 8) (nrows : BitVec 9) (col0 wide : Bool) : Bool :=
  decide (1 ≤ nrows.toNat) && decide (row0.toNat + nrows.toNat ≤ 256) && !(col0 && wide)

/-- The FMTs that an array reads (R134). -/
def streamFmt (f : Nat) : Bool := f ≤ 4 || (7 ≤ f && f ≤ 11)

/-- Stream-row length of a unit (R171): its rows in a normal pass and its columns in a transposed pass. -/
def unitLen (pack : Nat) (orient : Bool) : Nat :=
  match pack, orient with
  | 0, _ => 128
  | 1, false => 64
  | 1, true => 128
  | _, _ => 64

/-- The largest M of a unit (R176). -/
def maxM (pack : Nat) (orient : Bool) : Nat :=
  match pack, orient with
  | 0, _ => 256
  | 1, false => 128
  | 1, true => 256
  | _, _ => 128

/-- The units of a pass: first line and stream rows of each (R283, R284). -/
def passUnits (f : PassF) : List (Nat × Nat) :=
  match f.ext with
  | none => [(f.soff.toNat, f.m.toNat)]
  | some e =>
    if f.pack.toNat = 1 then [(e.soff0.toNat, e.m0.toNat), (e.soff1.toNat, e.m1.toNat)]
    else [(e.soff0.toNat, e.m0.toNat), (e.soff1.toNat, e.m1.toNat), (e.soff2.toNat, e.m2.toNat),
          (e.soff3.toNat, e.m3.toNat)]

/-- Whether the fields of a pass list no reserved encoding (R231, R232, R283-R286). -/
def passOk (h : OpHdr) (f : PassF) : Bool :=
  let units := passUnits f
  let mm := maxM f.pack.toNat f.orient
  fmtOk f.sfmt && streamFmt (fmtOf f.sfmt)
  && (match f.pack.toNat, f.ext with
      | 0, none => lineOk f.soff && decide (1 ≤ f.m.toNat) && decide (f.m.toNat ≤ mm)
      | 1, some e => f.soff == 0 && f.m == 0 && e.soff2 == 0 && e.soff3 == 0 && e.m2 == 0 && e.m3 == 0
      | 2, some _ => f.soff == 0 && f.m == 0
      | _, _ => false)
  && units.all (fun u => decide (u.1 < 0xC000) && decide (1 ≤ u.2) && decide (u.2 ≤ mm))
  && decide (h.fslot.toNat + units.length - 1 ≤ 255)
  && (if f.exactM then
        f.pack == 0 && (fmtOf f.sfmt ≤ 4 || fmtOf f.sfmt == 7) && decide (f.m.toNat ≤ 64) && lineOk f.mimg
      else !f.opn && !f.cls && f.mimg == 0)

/-- Whether every scratchpad byte of a pass exists. A pass that opens and closes has no Marrow image (R240, R241). -/
def passIn (f : PassF) : Bool :=
  let n := unitLen f.pack.toNat f.orient
  (passUnits f).all (fun u => decide (tensorEnd f.sfmt u.1 u.2 n ≤ spmBytes))
  && (!f.exactM || (f.opn && f.cls) || decide (64 * f.mimg.toNat + f.m.toNat * 128 * 80 ≤ spmBytes))

/-- AE_PRELOAD's fields (R287). -/
def preOk (p : PreF) : Bool :=
  regionOk p.row0 p.nrows p.col0 p.wide && lineOk p.pline
  && (match p.src.toNat with
      | 0 => p.pfmt == 0
      | 1 => fmtOk p.pfmt && (fmtOf p.pfmt == 5 || fmtOf p.pfmt == 12)
      | 2 => fmtOk p.pfmt && (fmtOf p.pfmt == 5 || fmtOf p.pfmt == 4 || fmtOf p.pfmt == 3 || fmtOf p.pfmt == 12)
      | _ => false)

/-- Whether every source byte of a preload exists. -/
def preIn (p : PreF) : Bool :=
  match p.src.toNat with
  | 1 => decide (tensorEnd p.pfmt p.pline.toNat 1 (regionW p.wide) ≤ spmBytes)
  | 2 => decide (tensorEnd p.pfmt p.pline.toNat p.nrows.toNat (regionW p.wide) ≤ spmBytes)
  | _ => true

/-- The element count of VLD and VST: LEN 0 means 128 (R288). -/
def vldLen (f : VldF) : Nat := if f.len = 0 then 128 else f.len.toNat

/-- VLD's and VST's fields (R280, R290). DEDUCED (assumption log 77): an SBYTE of 0x30_0000 or more is reserved under R280
also where FMT carries no scale and R288 ignores it. -/
def vldOk (f : VldF) : Bool :=
  fmtOk f.fmt && lineOk f.line && sbyteOk f.sbyte
  && (scaleOf f.fmt == 0 || vldLen f % blkOf f.fmt == 0)
  && (elemBits (fmtOf f.fmt) != 4 || vldLen f % 2 == 0)

/-- Whether every byte of a VLD or VST exists. -/
def vldIn (f : VldF) : Bool :=
  decide (64 * f.line.toNat + elemBytes (fmtOf f.fmt) (vldLen f) ≤ spmBytes)
  && decide ((if scaleOf f.fmt = 0 then 0 else f.sbyte.toNat + vldLen f / blkOf f.fmt) ≤ spmBytes)

/-- DRAIN's fields (R297). -/
def drainOk (f : DrainF) : Bool :=
  regionOk f.row0 f.nrows f.col0 f.wide && fmtOk f.fmt && lineOk f.line && sbyteOk f.sbyte

/-- Whether output rows and their scale plane exist (R220). -/
def outIn (fmt : BitVec 16) (line : BitVec 16) (sbyte : BitVec 22) (rows width : Nat) : Bool :=
  decide (64 * (line.toNat + rows * rowLines fmt width) ≤ spmBytes)
  && decide ((if scaleOf fmt = 0 then 0 else sbyte.toNat + scaleBytes fmt rows width) ≤ spmBytes)

/-- SPILL's fields (R298). -/
def spillOk (f : SpillF) : Bool := regionOk f.row0 f.nrows f.col0 f.wide && lineOk f.pline

/-- Whether a partial buffer exists (R228, R298). -/
def partIn (pline : BitVec 16) (rows width : Nat) : Bool := decide (64 * pline.toNat + rows * width * 8 ≤ spmBytes)

/-- PDRAIN's fields (R299). -/
def pdrainOk (f : PdrainF) : Bool :=
  decide (1 ≤ f.nrows.toNat) && decide (f.nrows.toNat ≤ 256) && fmtOk f.fmt && lineOk f.pline && lineOk f.line
  && sbyteOk f.sbyte

/-- X_ARRIVE's fields (R304). -/
def arriveOk (f : ArriveF) : Bool :=
  decide (1 ≤ f.n.toNat)
  && (match f.scope.toNat with
      | 0 => decide (f.core.toNat < 96) && decide (f.index.toNat < 48)
      | 1 => true
      | _ => decide (f.index.toNat < 64))

/-- The crossing that X_WAIT and X_RESET name (R304). -/
def waitOk (scope : BitVec 2) (index : BitVec 8) : Bool :=
  match scope.toNat with
  | 0 => decide (index.toNat < 48)
  | 1 => true
  | 2 => decide (index.toNat < 64)
  | _ => false

end Sys2Proof.Machine
end

