-- ==== Sys2Proof/WellFormed.lean ====
section
/-! DEFINITION. Well-formed commands: an op carries no reserved encoding (R14, R275, R279-R304) and names only bytes
its core's scratchpad has (R255). A command that is not an op has no operand that the spec calls reserved. -/

namespace Sys2Proof

open Sys2Proof.Machine

/-- Whether a command carries no reserved encoding in an operand. -/
def Instr.wf : Instr → Bool
  | .nop e h =>
    engHdrOk e.eng h
  | .end_ e h =>
    engHdrOk e.eng h
  | .aeLoad _ h wfmt wline _ =>
    hdrOk h && fmtOk wfmt && streamFmt (fmtOf wfmt) && lineOk wline
  | .aePass _ h p _ _ =>
    hdrOk h && passOk h p
  | .aePreload _ h p _ =>
    hdrOk h && preOk p
  | .vld _ h f _ =>
    hdrOk h && vldOk f
  | .vst _ h f _ =>
    hdrOk h && vldOk f
  | .vop _ h f _ =>
    hdrOk h && decide (f.func.toNat ≤ 0x0B)
  | .vtr _ h f _ =>
    hdrOk h && decide (f.func.toNat ≤ 4)
  | .vred _ h f _ =>
    hdrOk h && decide (f.func.toNat ≤ 3)
  | .drain _ h f _ =>
    hdrOk h && drainOk f
  | .spill _ h f _ =>
    hdrOk h && spillOk f
  | .pdrain _ h f _ =>
    hdrOk h && pdrainOk f
  | .vsrb _ h _ =>
    hdrOk h
  | .meDesc _ h _ =>
    hdrOk h
  | .meFence _ h =>
    hdrOk h
  | .xArrive _ h f =>
    hdrOk h && arriveOk f
  | .xWait _ h scope index _ =>
    hdrOk h && waitOk scope index
  | .xReset _ h scope index =>
    hdrOk h && waitOk scope index
  | .xAttime _ h _ =>
    hdrOk h
  | .ueRun _ _ uaddr _ =>
    decide (uaddr.toNat % 64 = 0)
  | .cxRun _ _ caddr =>
    decide (caddr.toNat % 64 = 0)
  | _ => true

/-- Whether every scratchpad byte that a command names exists. -/
def Instr.inStore : Instr → Bool
  | .aeLoad _ _ wfmt wline _ =>
    decide (tensorEnd wfmt wline.toNat 128 128 ≤ spmBytes)
  | .aePass _ _ p _ _ =>
    passIn p
  | .aePreload _ _ p _ =>
    preIn p
  | .vld _ _ f _ =>
    vldIn f
  | .vst _ _ f _ =>
    vldIn f
  | .drain _ _ f _ =>
    outIn f.fmt f.line f.sbyte f.nrows.toNat (regionW f.wide)
  | .spill _ _ f _ =>
    partIn f.pline f.nrows.toNat (regionW f.wide)
  | .pdrain _ _ f _ =>
    partIn f.pline f.nrows.toNat (regionW f.wide) && outIn f.fmt f.line f.sbyte f.nrows.toNat (regionW f.wide)
  | _ => true

end Sys2Proof
end

