-- ==== Sys2Proof/Machine/OpDecode.lean ====
section
/-! DEFINITION. The 128-bit ops of a stream (R269, R274, R279-R304, R525, R583): the command that each word spells,
and the words that carry a reserved encoding. -/

namespace Sys2Proof.Machine

/-- The section of a kind for a die, engine and core (R267, R268). -/
def Img.section (im : Img) (kind die eng core : Nat) : Option Section :=
  im.sections.find? fun t => t.kind == kind && t.die == die && t.engine == eng && t.core == core

/-- The opcode of an op word. -/
def opcOf (w : Nat) : Nat := w % 256

/-- The header of an op word (R274). -/
def hdrOf (w : Nat) : OpHdr :=
  { wen := bitOf w 8, wxc := BitVec.ofNat 6 (bits w 14 9), aen := bitOf w 15, axc := BitVec.ofNat 6 (bits w 21 16),
    fslot := BitVec.ofNat 8 (bits w 31 24), wtgt := BitVec.ofNat 16 (bits w 47 32) }

/-- Bits [hi:lo] of an op word, as a field of that width. -/
def opBits (w hi lo : Nat) : BitVec (hi + 1 - lo) := BitVec.ofNat (hi + 1 - lo) (bits w hi lo)

/-- Whether an op word is zero outside its header and the bits from 48 to `hi` (R274); `gaps` are further reserved
fields. -/
def onlyBits (w hi : Nat) (gaps : List (Nat × Nat)) : Bool :=
  bits w 23 22 == 0 && w / 2 ^ (hi + 1) == 0 && gaps.all fun g => bits w g.1 g.2 == 0

/-- What the detectors observe where no op runs. -/
def noObs : HwObs := { flips := [], residue := false }

/-- The fields of EXT (R284). -/
def extFields (w : Nat) : ExtFields :=
  { soff0 := opBits w 31 16, soff1 := opBits w 47 32, soff2 := opBits w 63 48, soff3 := opBits w 79 64,
    m0 := opBits w 88 80, m1 := opBits w 97 89, m2 := opBits w 106 98, m3 := opBits w 115 107 }

/-- The fields of AE_PASS (R283). -/
def passFields (w : Nat) (ext : Option ExtFields) : PassF :=
  { orient := bitOf w 48, pack := opBits w 50 49, swap := bitOf w 51, sealB := bitOf w 52, exactM := bitOf w 53,
    opn := bitOf w 54, cls := bitOf w 55, acc := bitOf w 56, bank := bitOf w 57, sfmt := opBits w 79 64,
    soff := opBits w 95 80, m := opBits w 104 96, mimg := opBits w 120 105, ext := ext }

/-- The fields of AE_PRELOAD (R287). -/
def preFields (w : Nat) : PreF :=
  { bank := bitOf w 48, row0 := opBits w 56 49, nrows := opBits w 65 57, col0 := bitOf w 66, wide := bitOf w 67,
    src := opBits w 69 68, pfmt := opBits w 85 70, pline := opBits w 101 86 }

/-- The fields of VLD and VST (R288). -/
def vldFields (w : Nat) : VldF :=
  { vr := opBits w 53 48, fmt := opBits w 69 54, line := opBits w 85 70, sbyte := opBits w 107 86,
    len := opBits w 114 108 }

/-- The fields of VOP (R291). -/
def vopFields (w : Nat) : VopF :=
  { func := opBits w 55 48, vd := opBits w 61 56, va := opBits w 67 62, vb := opBits w 73 68, vc := opBits w 79 74,
    isel := bitOf w 80, imm := opBits w 112 81 }

/-- The fields of VTR and VRED (R294, R296). -/
def vtrFields (w : Nat) : VtrF := { func := opBits w 55 48, vd := opBits w 61 56, va := opBits w 67 62 }

/-- The fields of DRAIN (R297). -/
def drainFields (w : Nat) : DrainF :=
  { bank := bitOf w 48, row0 := opBits w 56 49, nrows := opBits w 65 57, col0 := bitOf w 66, wide := bitOf w 67,
    clear := bitOf w 68, release := bitOf w 69, fmt := opBits w 85 70, line := opBits w 101 86,
    sbyte := opBits w 123 102 }

/-- The fields of SPILL (R298). -/
def spillFields (w : Nat) : SpillF :=
  { bank := bitOf w 48, row0 := opBits w 56 49, nrows := opBits w 65 57, col0 := bitOf w 66, wide := bitOf w 67,
    init := bitOf w 68, release := bitOf w 69, pline := opBits w 85 70 }

/-- The fields of PDRAIN (R299). -/
def pdrainFields (w : Nat) : PdrainF :=
  { nrows := opBits w 56 48, wide := bitOf w 57, fmt := opBits w 73 58, pline := opBits w 89 74,
    line := opBits w 105 90, sbyte := opBits w 127 106 }

/-- The fields of X_ARRIVE (R304). -/
def arriveFields (w : Nat) : ArriveF :=
  { scope := opBits w 49 48, die := opBits w 51 50, core := opBits w 58 52, index := opBits w 66 59,
    n := opBits w 82 67, x := opBits w 87 83, y := opBits w 92 88, z := opBits w 97 93 }

/-- The AE op of a word; `ext` is the word after it (R282-R287). -/
def aeWord (c : CoreRef) (w ext : Nat) : Option Instr :=
  let h := hdrOf w
  match opcOf w with
  | 0x10 => if onlyBits w 95 [(63, 48)] then some (.aeLoad c h (opBits w 79 64) (opBits w 95 80) []) else none
  | 0x11 =>
    if !onlyBits w 120 [(63, 58)] then none
    else if bits w 50 49 = 0 then some (.aePass c h (passFields w none) [] noObs)
    else if opcOf ext = 0xFE && bits ext 15 8 == 0 && ext / 2 ^ 116 == 0 then
      some (.aePass c h (passFields w (some (extFields ext))) [] noObs)
    else none
  | 0x12 => if onlyBits w 101 [] then some (.aePreload c h (preFields w) noObs) else none
  | _ => none

/-- The VE op of a word (R288-R300). -/
def veWord (c : CoreRef) (w : Nat) : Option Instr :=
  let h := hdrOf w
  match opcOf w with
  | 0x20 => if onlyBits w 114 [] then some (.vld c h (vldFields w) noObs) else none
  | 0x21 => if onlyBits w 114 [] then some (.vst c h (vldFields w) noObs) else none
  | 0x22 => if onlyBits w 112 [] then some (.vop c h (vopFields w) noObs) else none
  | 0x23 => if onlyBits w 67 [] then some (.vtr c h (vtrFields w) noObs) else none
  | 0x24 => if onlyBits w 67 [] then some (.vred c h (vtrFields w) noObs) else none
  | 0x25 => if onlyBits w 123 [] then some (.drain c h (drainFields w) noObs) else none
  | 0x26 => if onlyBits w 85 [] then some (.spill c h (spillFields w) noObs) else none
  | 0x27 => if onlyBits w 127 [] then some (.pdrain c h (pdrainFields w) noObs) else none
  | 0x28 => if onlyBits w 111 [] then some (.vsrb c h (opBits w 111 48)) else none
  | _ => none

/-- The Sync op of a word (R304). -/
def syncWord (c : CoreRef) (w : Nat) : Option Instr :=
  let h := hdrOf w
  match opcOf w with
  | 0x40 => if onlyBits w 97 [] then some (.xArrive c h (arriveFields w)) else none
  | 0x41 => if onlyBits w 73 [] then some (.xWait c h (opBits w 49 48) (opBits w 57 50) (opBits w 73 58)) else none
  | 0x42 => if onlyBits w 57 [] then some (.xReset c h (opBits w 49 48) (opBits w 57 50)) else none
  | 0x43 => if onlyBits w 111 [] then some (.xAttime c h (opBits w 111 48)) else none
  | _ => none

/-- The command that an op word of an engine's stream spells (R279, R525, R583), with `ext` the word after it; none
where the word carries a reserved encoding. -/
def decodeOp (e : EngRef) (w ext : Nat) : Option Instr :=
  let h := hdrOf w
  let c : CoreRef := { die := e.die, core := e.core }
  let i : Option Instr :=
    match opcOf w, e.eng with
    | 0x00, _ => if onlyBits w 47 [] then some (.nop e h) else none
    | 0x01, _ => if onlyBits w 47 [] then some (.end_ e h) else none
    | _, .ae => aeWord c w ext
    | _, .ve => veWord c w
    | _, .sync => syncWord c w
    | 0x30, .me => if onlyBits w 71 [] then some (.meDesc c h (opBits w 71 48)) else none
    | 0x31, .me => if onlyBits w 47 [] then some (.meFence c h) else none
    | 0x50, .ue => if onlyBits w 95 [] then some (.ueRun e.die h (opBits w 95 48) noObs) else none
    | 0x60, .cx => if onlyBits w 95 [] then some (.cxRun e.die h (opBits w 95 48)) else none
    | 0x61, .cx => if onlyBits w 53 [] then some (.cxGnorm e.die h (opBits w 53 48) []) else none
    | 0x62, .cx => if onlyBits w 47 [] then some (.cxFence e.die h) else none
    | _, _ => none
  i.bind fun i => if i.wf && i.inStore then some i else none

/-- Whether an op is followed by an EXT that belongs to it (R284). -/
def takesExt : Instr → Bool
  | .aePass _ _ p _ _ => p.ext.isSome
  | _ => false

/-- The ops of a stream with their op numbers, and the number of the first word that carries a reserved encoding;
`skip` is set at the EXT of the op before. -/
def decodeGo (e : EngRef) : Nat → Bool → List Nat → List (Nat × Instr) × Option Nat
  | _, _, [] => ([], none)
  | i, true, _ :: r => decodeGo e (i + 1) false r
  | i, false, w :: r =>
    match decodeOp e w (r.headD 0) with
    | none => ([], some i)
    | some o =>
      let q := decodeGo e (i + 1) (takesExt o) r
      ((i, o) :: q.1, q.2)

/-- Whether an op is END. -/
def isEnd : Instr → Bool
  | .end_ _ _ => true
  | _ => false

/-- The first op that breaks R269: an END before the last op, or a last op that is no END. -/
def endFault : List (Nat × Instr) → Option Nat
  | [] => some 0
  | [(i, o)] => if isEnd o then none else some i
  | (i, o) :: p :: r => if isEnd o then some i else endFault (p :: r)

/-! ## The op that an engine issues next (R271, R272) -/

/-- The code of an engine (R267). -/
def engCode : EngKind → Nat
  | .ae => 0
  | .ve => 1
  | .me => 2
  | .sync => 3
  | .ue => 4
  | .cx => 5

/-- Whether an engine belongs to a die and not to a core. -/
def dieEng : EngKind → Bool
  | .ue | .cx => true
  | _ => false

/-- Word `i` of a stream section (R269). -/
def Img.wordAt (im : Img) (t : Section) (i : Nat) : Nat :=
  if 16 * i + 16 ≤ t.length then fld im.raw (t.offset + 16 * i) 16 else 0

/-- The op at word `i` of an engine's stream in an image; none past its end and where the image holds no such
stream. -/
def Img.opAt (im : Img) (e : EngRef) (i : Nat) : Option Instr :=
  (im.section 1 e.die.val (engCode e.eng) (if dieEng e.eng then 0xFF else e.core.val)).bind fun t =>
    if 16 * i + 16 ≤ t.length then decodeOp e (im.wordAt t i) (im.wordAt t (i + 1)) else none

/-- Words that an op takes of its stream (R284). -/
def opWords (i : Instr) : Nat := if takesExt i then 2 else 1

end Sys2Proof.Machine
end

