-- ==== Sys2Proof/Machine/OpTouch.lean ====
section
/-! DEFINITION. The stored bytes that each op of a core reads and writes (R220, R228, R239, R281, R286, R288, R298). -/

namespace Sys2Proof.Machine

/-! ## Geometry (R171, R176, R202) -/

/-- A unit of a pass: its rows and columns (first, count), and the bank place of its outputs. -/
structure UnitGeom where
  r0 : Nat
  nr : Nat
  c0 : Nat
  nc : Nat
  bankRow : Nat
  deriving DecidableEq, Repr

/-- Unit `u` of a packing in an orientation (R171, R176); `orient` is true for a transposed pass. -/
def unitGeom (pack : Nat) (orient : Bool) (u : Nat) : UnitGeom :=
  match pack with
  | 0 => { r0 := 0, nr := 128, c0 := 0, nc := 128, bankRow := 0 }
  | 1 => { r0 := 64 * u, nr := 64, c0 := 0, nc := 128, bankRow := if orient then 0 else 128 * u }
  | _ => { r0 := 64 * (u / 2), nr := 64, c0 := 64 * (u % 2), nc := 64,
           bankRow := if orient then 128 * (u % 2) else 128 * (u / 2) }

/-! ## Byte ranges -/

/-- The byte ranges (physical start, length) that an op or a descriptor reads and writes. -/
structure Touch where
  reads : List (Nat × Nat)
  writes : List (Nat × Nat)
  deriving DecidableEq, Repr

/-- Nothing read and nothing written. -/
def Touch.none : Touch := { reads := [], writes := [] }

/-- The rows and the scale plane of a tensor that an AE op names (R281). -/
def tensorRanges (w : BitVec 16) (line rows n : Nat) : List (Nat × Nat) :=
  (List.range rows).map (fun i => (64 * (line + i * rowLines w n), elemBytes (fmtOf w) n))
  ++ [(64 * (line + rows * rowLines w n), scaleBytes w rows n)]

/-- Output rows and their scale plane (R220). -/
def outRanges (w : BitVec 16) (line sbyte rows width : Nat) : List (Nat × Nat) :=
  (List.range rows).map (fun i => (64 * (line + i * rowLines w width), elemBytes (fmtOf w) width))
  ++ [(sbyte, scaleBytes w rows width)]

/-- The scratchpad bytes of its own core that an op reads and writes. -/
def opTouch : Instr → Touch
  | .aeLoad _ _ w line _ => { reads := tensorRanges w line.toNat 128 128, writes := [] }
  | .aePass _ _ p _ _ =>
    let rows := (passUnits p).flatMap fun u => tensorRanges p.sfmt u.1 u.2 (unitLen p.pack.toNat p.orient)
    let img := [(64 * p.mimg.toNat, p.m.toNat * 10240)]
    { reads := rows ++ (if p.exactM && !p.opn then img else []), writes := if p.exactM && !p.cls then img else [] }
  | .aePreload _ _ p _ =>
    { reads := match p.src.toNat with
        | 1 => tensorRanges p.pfmt p.pline.toNat 1 (regionW p.wide)
        | 2 => tensorRanges p.pfmt p.pline.toNat p.nrows.toNat (regionW p.wide)
        | _ => [],
      writes := [] }
  | .vld _ _ f _ =>
    { reads := [(64 * f.line.toNat, elemBytes (fmtOf f.fmt) (vldLen f)), (f.sbyte.toNat, scaleBytes f.fmt 1 (vldLen f))],
      writes := [] }
  | .vst _ _ f _ =>
    { reads := [],
      writes := [(64 * f.line.toNat, elemBytes (fmtOf f.fmt) (vldLen f)),
                 (f.sbyte.toNat, scaleBytes f.fmt 1 (vldLen f))] }
  | .drain _ _ f _ =>
    { reads := [], writes := outRanges f.fmt f.line.toNat f.sbyte.toNat f.nrows.toNat (regionW f.wide) }
  | .spill _ _ f _ =>
    let part := [(64 * f.pline.toNat, f.nrows.toNat * regionW f.wide * 8)]
    { reads := if f.init then [] else part, writes := part }
  | .pdrain _ _ f _ =>
    { reads := [(64 * f.pline.toNat, f.nrows.toNat * regionW f.wide * 8)],
      writes := outRanges f.fmt f.line.toNat f.sbyte.toNat f.nrows.toNat (regionW f.wide) }
  | _ => .none

end Sys2Proof.Machine
end

