-- ==== Sys2Proof/Machine/Access.lean ====
section
/-! DEFINITION. Where each unit's state lies in the tables of `State`, the reads and writes of the stores, fault
reports on the wires, crossings, and the issue of an op by its engine (spec 06, 09). -/

namespace Sys2Proof.Machine

/-- The outcome of a command. -/
abbrev Out := Host.Outcome State Fault Refusal

/-! ## Parts the package has (R38) -/

/-- Enabled compute dies: 4, or 2 on the TQ4H. -/
def State.dies (s : State) : Nat := match s.fuse.kind with
  | .tq4 => 4
  | .tq4h => 2

/-- Memory stacks. -/
def State.stacks (s : State) : Nat := 4 * s.dies

/-- Enabled I/O dies. -/
def State.ios (s : State) : Nat := s.dies / 2

/-- Avenue links. -/
def State.links (s : State) : Nat := 12 * s.ios

/-- The I/O die that carries the PMC, the sideband and the JD interface (R28): IO1, or IO0 on the TQ4H. -/
def State.pmcIo (s : State) : Nat := s.ios - 1

/-- An I/O die's number of the die codes of R762. -/
def ioCode (io : Nat) : Nat := 4 + io

/-- The I/O die that serves a compute die (R8). -/
def ioOf (die : Nat) : Nat := die / 2

/-- Runs a meaning for a unit the part has. -/
def guardUnit (present : Bool) (k : Out) : Out := if present then k else .fault .absentUnit

/-! ## Cores -/

/-- The physical core that executes a logical core (R305). The table's background is the identity. -/
def State.physOf (s : State) (die core : Nat) : Nat := tget core s.remap.phys (die * 96 + core)

/-- Where a logical core's state lies: by its physical core. -/
def State.coreKey (s : State) (c : CoreRef) : Nat := c.die.val * 128 + s.physOf c.die.val c.core.val

/-- The state of a logical core. -/
def State.coreAt (s : State) (c : CoreRef) : CoreSt := tget .reset s.core (s.coreKey c)

/-- The package with a core's state changed. -/
def State.modCore (s : State) (c : CoreRef) (f : CoreSt → CoreSt) : State :=
  { s with core := tmod .reset s.core (s.coreKey c) f }

/-- An accumulator bank (R208). -/
def CoreSt.bank (k : CoreSt) (b : Bool) : Tbl BankEnt := if b then k.bank1 else k.bank0

/-- The core with a bank replaced. -/
def CoreSt.setBank (k : CoreSt) (b : Bool) (t : Tbl BankEnt) : CoreSt :=
  if b then { k with bank1 := t } else { k with bank0 := t }

/-- A table with every entry changed by `f`, which keeps the default. -/
def tmapAll {α : Type} [DecidableEq α] (d : α) (t : Tbl α) (f : α → α) : Tbl α :=
  (t.map fun e => (e.1, f e.2)).filter fun e => decide (e.2 ≠ d)

/-! ## Engines -/

/-- Where an engine's state lies. -/
def engKey (e : EngRef) : Nat :=
  e.die.val * 512 + (match e.eng with
    | .ae => e.core.val * 4
    | .ve => e.core.val * 4 + 1
    | .me => e.core.val * 4 + 2
    | .sync => e.core.val * 4 + 3
    | .ue => 400
    | .cx => 401)

/-- An engine of a core. -/
def engOf (c : CoreRef) (k : EngKind) : EngRef := { die := c.die, core := c.core, eng := k }

/-- An engine of a die. -/
def dieEngOf (die : Fin 4) (k : EngKind) : EngRef := { die := die, core := 0, eng := k }

/-- What the table holds of an engine. -/
def State.engRaw (s : State) (e : EngRef) : EngSt := tget .reset s.eng (engKey e)

/-- The package with an engine's state replaced. -/
def State.setEng (s : State) (e : EngRef) (v : EngSt) : State := { s with eng := tset .reset s.eng (engKey e) v }

/-! ## Contexts and steps -/

/-- A context. -/
def State.ctxAt (s : State) (c : Nat) : CtxSt := tget .reset s.ctx c

/-- The package with a context changed. -/
def State.modCtx (s : State) (c : Nat) (f : CtxSt → CtxSt) : State := { s with ctx := tmod .reset s.ctx c f }

/-- The resident context, with its number. -/
def State.cur (s : State) : Option (Fin 4 × CtxSt) := s.resident.map fun c => (c, s.ctxAt c.val)

/-- Whether engines run the ops of a step in this state (R271-R273). -/
def StepPhase.runs : StepPhase → Bool
  | .running | .resolving | .restoring | .redoing | .gated | .committing | .deferred => true
  | .idle | .committed | .aborted => false

/-- The step of a context by its number. -/
def CtxSt.stepAt (c : CtxSt) (n : BitVec 64) : Option StepSt := c.steps.find? fun t => t.no == n

/-- A context with one step changed. -/
def CtxSt.modStep (c : CtxSt) (n : BitVec 64) (f : StepSt → StepSt) : CtxSt :=
  { c with steps := c.steps.map fun t => if t.no = n then f t else t }

/-- The package with one step of the resident context changed. -/
def State.modStep (s : State) (n : BitVec 64) (f : StepSt → StepSt) : State :=
  match s.resident with
  | none => s
  | some c => s.modCtx c.val fun x => x.modStep n f

/-- A step of the resident context. -/
def State.stepAt (s : State) (n : BitVec 64) : Option StepSt := s.cur.bind fun c => c.2.stepAt n

/-- An engine at op 0 of a step (R271, R300). -/
def EngSt.start (c : Fin 4) (n : BitVec 64) : EngSt :=
  { EngSt.reset with step := some n, ctx := c, live := true, ended := false }

/-- An engine's state now: an engine that is between steps starts the next step that has entered RUNNING (R271). -/
def State.engAt (s : State) (e : EngRef) : EngSt :=
  let r := s.engRaw e
  if r.live && !r.ended then r else if !r.issued.isEmpty then r else
  match s.cur with
  | none => r
  | some (c, x) =>
    (match x.steps.find? (fun t => t.st.runs && (match r.step with
        | none => true
        | some m => decide (m.toNat < t.no.toNat))) with
     | none => r
     | some t => .start c t.no)

/-! ## Stores -/

/-- The STB in whole ticks (R430). -/
def State.stbTicks (s : State) : Nat := s.stb.time / 65536

/-- The STB as the 64-bit count that records and replies carry. -/
def State.stb64 (s : State) : BitVec 64 := BitVec.ofNat 64 s.stbTicks

/-- The scratchpad bank of a line (R255). -/
def spmBank (line : Nat) : Nat := line % 32

/-- The slice of a byte of die SRAM (R262). -/
def sramSlice (off : Nat) : Nat := off / 256 % 64

/-- The keys of `MemSt.par` of the bytes of die SRAM and of a Market; those of a scratchpad start at 0. -/
def parSram (die off : Nat) : Nat := 2 ^ 32 + die * 2 ^ 27 + off

/-- The keys of the bytes of a Market. -/
def parMarket (io off : Nat) : Nat := 2 ^ 33 + io * 2 ^ 25 + off

/-- The keys of the four bytes of a vector lane. -/
def parLane (lane : Nat) : Nat := 2 ^ 34 + 4 * lane

/-- The keys of the four bytes of a bank entry. -/
def parEntry (core : Nat) (b : Bool) (place : Nat) : Nat := 2 ^ 40 + 4 * ((2 * core + b2n b) * 2 ^ 15 + place)

/-- The memories after a producer has written `len` bytes from key `k`, each with the parity it generates (R721). -/
def MemSt.generate (m : MemSt) (k len : Nat) : MemSt :=
  { m with par := m.par.filter fun e => decide (e.1 < k) || decide (k + len ≤ e.1) }

/-- Bytes of a core's scratchpad. -/
def State.spmRead (s : State) (c : CoreRef) (a len : Nat) : Bytes :=
  s.mem.spm.read 0 (s.coreKey c * 2 ^ 22 + a) len

/-- The package with bytes of a core's scratchpad written. -/
def State.spmWrite (s : State) (c : CoreRef) (a : Nat) (bs : Bytes) : State :=
  let k := s.coreKey c * 2 ^ 22 + a
  { s with mem := { s.mem with spm := s.mem.spm.write k bs, par := (s.mem.generate k bs.length).par } }

/-- Bytes of a die's SRAM. -/
def State.sramRead (s : State) (die a len : Nat) : Bytes := s.mem.sram.read 0 (die * 2 ^ 27 + a) len

/-- The package with bytes of a die's SRAM written. -/
def State.sramWrite (s : State) (die a : Nat) (bs : Bytes) : State :=
  { s with mem := { s.mem with sram := s.mem.sram.write (die * 2 ^ 27 + a) bs,
                               par := (s.mem.generate (parSram die a) bs.length).par } }

/-- Where lane `i` of a vector register lies. -/
def State.laneKey (s : State) (c : CoreRef) (v : BitVec 6) (i : Nat) : Nat := (s.coreKey c * 64 + v.toNat) * 128 + i

/-- A lane of a vector register (R254): undefined where the step has not written it. -/
def State.lane (s : State) (c : CoreRef) (v : BitVec 6) (i : Nat) : BitVec 32 :=
  let k := s.laneKey c v i
  tget (match s.mem.vgen with
    | none => 0#32
    | some g => Config.undefLane g k) s.mem.vreg k

/-- A vector register, lane 0 first. -/
def State.vregRead (s : State) (c : CoreRef) (v : BitVec 6) : List (BitVec 32) :=
  (List.range 128).map fun i => s.lane c v i

/-- The package with the lanes of a vector register written. -/
def State.vregWrite (s : State) (c : CoreRef) (v : BitVec 6) (xs : List (BitVec 32)) : State :=
  let put (t : Tbl (BitVec 32)) (p : BitVec 32 × Nat) : Tbl (BitVec 32) :=
    match s.mem.vgen with
    | none => tset 0#32 t (s.laneKey c v p.2) p.1
    | some _ => tput t (s.laneKey c v p.2) p.1
  { s with mem := { s.mem with vreg := xs.zipIdx.foldl put s.mem.vreg,
                               par := (s.mem.generate (parLane (s.laneKey c v 0)) (4 * xs.length)).par } }

/-- The package after an engine has written entries of a bank at these places (R721). -/
def State.bankWrote (s : State) (c : CoreRef) (b : Bool) (places : List Nat) : State :=
  { s with mem := { s.mem with par :=
      (places.foldl (fun (m : MemSt) p => m.generate (parEntry (s.coreKey c) b p) 4) s.mem).par } }

/-! ## Parity (R720-R722) -/

/-- The data bits that a strike flips. -/
def flipBits (f : ParFlip) : BitVec 8 := f.mask.extractLsb' 0 8

/-- Whether a strike leaves nine bits of odd parity. -/
def flipOdd (f : ParFlip) : Bool := (List.range 9).foldl (fun a i => a != f.mask.getLsbD i) false

/-- The key of a byte in `MemSt.par`. -/
def State.parKey (s : State) : ParLoc → Nat
  | .spm d c a => s.coreKey { die := d, core := c } * 2 ^ 22 + a.toNat
  | .sram d a => parSram d.val a.toNat
  | .market io a => parMarket io.val a.toNat
  | .vreg d c v i y => parLane (s.laneKey { die := d, core := c } v i.val) + y.val
  | .bank d c b r k y => parEntry (s.coreKey { die := d, core := c }) b (r.val * 128 + k.val) + y.val

/-- A byte of a 32-bit word flipped. -/
def flipByte (v : BitVec 32) (y : Nat) (m : BitVec 8) : BitVec 32 := v ^^^ (m.setWidth 32 <<< (8 * y))

/-- The package after a stored byte is struck: its data bits flip, and its parity bit disagrees with it where the nine
bits have become odd. -/
def State.strike (s : State) (f : ParFlip) : State :=
  let k := s.parKey f.loc
  let s := { s with mem := { s.mem with par := tmod false s.mem.par k (· != flipOdd f) } }
  match f.loc with
  | .spm _ _ _ => { s with mem := { s.mem with spm := s.mem.spm.set k (s.mem.spm.get 0 k ^^^ flipBits f) } }
  | .sram d a =>
    let p := d.val * 2 ^ 27 + a.toNat
    { s with mem := { s.mem with sram := s.mem.sram.set p (s.mem.sram.get 0 p ^^^ flipBits f) } }
  | .market io a => { s with mem := { s.mem with market := tmod 0#8 s.mem.market (io.val * 2 ^ 25 + a.toNat) (· ^^^ flipBits f) } }
  | .vreg d c v i y =>
    let c : CoreRef := { die := d, core := c }
    { s with mem := { s.mem with vreg := tput s.mem.vreg (s.laneKey c v i.val) (flipByte (s.lane c v i.val) y.val (flipBits f)) } }
  | .bank d c b r q y =>
    s.modCore { die := d, core := c } fun x =>
      x.setBank b (tmod .zero (x.bank b) (r.val * 128 + q.val) fun e => { e with code := flipByte e.code y.val (flipBits f) })

/-- The package after every strike that an op meets. -/
def State.strikes (s : State) (o : HwObs) : State := o.flips.foldl State.strike s

/-- The bytes of these key ranges whose parity fails (R722). -/
def State.parBad (s : State) (ranges : List (Nat × Nat)) : List Nat :=
  (s.mem.par.filter fun e => ranges.any fun r => decide (r.1 ≤ e.1) && decide (e.1 < r.1 + r.2)).map (·.1)

/-- The entries of a bank region, row by row, as key ranges. -/
def State.regionKeys (s : State) (c : CoreRef) (b : Bool) (row0 rows col0 cols : Nat) : List (Nat × Nat) :=
  (List.range rows).map fun i => (parEntry (s.coreKey c) b ((row0 + i) * 128 + col0), 4 * cols)

/-- The key ranges of the registers and bank entries that an op reads. -/
def State.regKeys (s : State) (c : CoreRef) (op : Instr) : List (Nat × Nat) :=
  let reg (v : BitVec 6) : Nat × Nat := (parLane (s.laneKey c v 0), 512)
  match op with
  | .vst _ _ f _ => [reg f.vr]
  | .vop _ _ f _ => [reg f.va, reg f.vc] ++ (if f.isel then [] else [reg f.vb])
  | .vtr _ _ f _ => [reg f.va]
  | .vred _ _ f _ => [reg f.va]
  | .drain _ _ f _ => s.regionKeys c f.bank f.row0.toNat f.nrows.toNat (64 * b2n f.col0) (regionW f.wide)
  | .spill _ _ f _ => s.regionKeys c f.bank f.row0.toNat f.nrows.toNat (64 * b2n f.col0) (regionW f.wide)
  | .aePass _ _ p _ _ =>
    if !p.acc || (p.exactM && !p.opn) then []
    else (passUnits p).zipIdx.flatMap fun u =>
      let g := unitGeom p.pack.toNat p.orient u.2
      if p.orient then s.regionKeys c p.bank g.bankRow u.1.2 g.r0 g.nr
      else s.regionKeys c p.bank g.bankRow u.1.2 g.c0 g.nc
  | _ => []

/-- Byte ranges of a core's scratchpad, as key ranges. -/
def State.spmKeys (s : State) (c : CoreRef) (rs : List (Nat × Nat)) : List (Nat × Nat) :=
  rs.map fun r => (s.coreKey c * 2 ^ 22 + r.1, r.2)

/-- The key ranges of the bytes that an op of a core reads. -/
def State.opKeys (s : State) (c : CoreRef) (op : Instr) : List (Nat × Nat) :=
  s.spmKeys c (opTouch op).reads ++ s.regKeys c op

/-- Whether an op reads its operands when it issues. The loader reads each row as it writes it, and a pass reads when
it runs. -/
def readsAtIssue : Instr → Bool
  | .aeLoad _ _ _ _ _ => false
  | .aePass _ _ _ _ _ => false
  | _ => true

/-! ## Fault reports (R725, R761, R762) -/

/-- The locus bits of a physical core. -/
def coreLocus (die phys : Nat) : BitVec 32 := BitVec.ofNat 32 (die + 8 * phys)

/-- The locus bits of a die-level unit (R762 LKIND 2). -/
def unitLocus (dieCode unit : Nat) : BitVec 32 := BitVec.ofNat 32 (dieCode + 8 * unit)

/-- A report tagged with one step. -/
def mkReport (cls lkind : Nat) (locus : BitVec 32) (n : BitVec 64) (detail : BitVec 64) : FaultReport :=
  { cls := BitVec.ofNat 8 cls, lkind := BitVec.ofNat 8 lkind, locus := locus, addr := 0, tags := [n], all := false,
    detail := detail }

/-- A report tagged with every uncommitted step (R65). -/
def mkReportAll (cls lkind : Nat) (locus : BitVec 32) (detail : BitVec 64) : FaultReport :=
  { cls := BitVec.ofNat 8 cls, lkind := BitVec.ofNat 8 lkind, locus := locus, addr := 0, tags := [], all := true,
    detail := detail }

/-- A detector puts a report on the fault wires (R725). -/
def State.wire (s : State) (r : FaultReport) : State := { s with flt := { s.flt with wires := s.flt.wires ++ [r] } }

/-- The locus of a stored byte (R722, R762): the physical core, or the die SRAM or the Market as a die-level unit. -/
def parLocus (k : Nat) : Nat × BitVec 32 :=
  let core (q : Nat) : Nat × BitVec 32 := (1, coreLocus (q / 128) (q % 128))
  if k < 2 ^ 32 then core (k / 2 ^ 22)
  else if k < 2 ^ 33 then (2, unitLocus ((k - 2 ^ 32) / 2 ^ 27) 2)
  else if k < 2 ^ 34 then (2, unitLocus (ioCode ((k - 2 ^ 33) / 2 ^ 25)) 5)
  else if k < 2 ^ 40 then core ((k - 2 ^ 34) / 2 ^ 15)
  else core ((k - 2 ^ 40) / 2 ^ 18)

/-- The locus of an engine (R762): its physical core, or its unit of a die. -/
def State.engLocus (s : State) (e : EngRef) : Nat × BitVec 32 :=
  match e.eng with
  | .ue => (2, unitLocus e.die.val 0)
  | .cx => (2, unitLocus e.die.val 1)
  | _ => (1, coreLocus e.die.val (s.physOf e.die.val e.core.val))

/-- The registers of a core after its engine meets bytes whose parity fails, or a residue difference (R763). -/
def CoreSt.noteFault (k : CoreSt) (e : EngKind) (parity residue : Bool) : CoreSt :=
  { k with parErr := k.parErr || (parity && !dieEng e), resErr := k.resErr || (residue && e == .ve) }

/-- A data-path fault for each unit of whose bytes the parity fails (R722), tagged with the step of the reading op. -/
def State.parFaults (s : State) (e : Option EngRef) (n : Option (BitVec 64)) (bad : List Nat) : State :=
  if bad.isEmpty then s
  else
    let s := match e with
      | some e => s.modCore { die := e.die, core := e.core } (·.noteFault e.eng true false)
      | none => s
    (bad.map parLocus).eraseDups.foldl (fun (a : State) l =>
    a.wire { cls := 2, lkind := BitVec.ofNat 8 l.1, locus := l.2, addr := 0, tags := n.toList, all := false, detail := 0 }) s

/-- What an op's detectors report (R722-R724): bytes whose parity fails, and an arithmetic-unit fault of the engine. -/
def State.observe (s : State) (e : EngRef) (n : BitVec 64) (bad : List Nat) (residue : Bool) : State :=
  let s := s.parFaults (some e) (some n) bad
  if residue then
    (s.modCore { die := e.die, core := e.core } (·.noteFault e.eng false true)).wire
      (mkReport 3 (s.engLocus e).1 (s.engLocus e).2 n 0)
  else s

/-! ## Crossings (R402-R409) -/

/-- Where a crossing's counter lies. -/
def xKey (scope die core index : Nat) (bank : Bool) : Nat :=
  2 * (match scope with
    | 0 => (die * 96 + core) * 64 + index
    | 1 => 0x10000 + die * 256 + index
    | _ => 0x20000 + index) + b2n bank

/-- The crossing bank of a step (R404). -/
def bankOf (n : BitVec 64) : Bool := n.getLsbD 0

/-- XS_STATUS of a compute die, or of Town Hall (4). -/
def State.xsAt (s : State) (u : Nat) : XsSt := tget .reset s.sync.xs u

/-- The package with one XS unit changed. -/
def State.modXs (s : State) (u : Nat) (f : XsSt → XsSt) : State :=
  { s with sync := { s.sync with xs := tmod .reset s.sync.xs u f } }

/-- The locus of a crossing (R762 LKIND 8). -/
def xLocus (scope die core index : Nat) : BitVec 32 :=
  BitVec.ofNat 32 (scope % 4 + 4 * index + 1024 * (if scope = 0 then core else 0x7F)
    + 131072 * (if scope ≤ 1 then die else 0))

/-- ARRIVE(n) on a crossing (R402, R407): a counter that would pass 65,535 stays there, its holder sets OVF, and a
hang is reported with the step of the arriving op. -/
def State.arrive (s : State) (scope die core index : Nat) (n : BitVec 64) (inc : Nat) : State :=
  let k := xKey scope die core index (bankOf n)
  let v := (tget 0#16 s.sync.xcnt k).toNat + inc
  if v ≤ 65535 then { s with sync := { s.sync with xcnt := tset 0#16 s.sync.xcnt k (BitVec.ofNat 16 v) } }
  else
    (({ s with sync := { s.sync with xcnt := tset 0#16 s.sync.xcnt k 0xFFFF#16 } }).modXs (if scope ≤ 1 then die else 4)
      fun x => { x with ovf := true }).wire (mkReport 6 8 (xLocus scope die core index) n 0)

/-- The value of a crossing of a step's bank. -/
def State.xVal (s : State) (scope die core index : Nat) (n : BitVec 64) : BitVec 16 :=
  tget 0#16 s.sync.xcnt (xKey scope die core index (bankOf n))

/-! ## Issue (R272-R278) -/

/-- The scope of an engine's header crossings (R275): core, or die for UE and CX. -/
def hdrScope (e : EngRef) : Nat := if dieEng e.eng then 1 else 0

/-- Whether the header wait of an op is met (R276). A wait that was woken stays met, so does one that the step satisfied
before a redo (R615), and so does that of an X_WAIT that waits on its own crossing. -/
def hdrMet (s : State) (e : EngRef) (r : EngSt) (h : OpHdr) : Bool :=
  match r.step with
  | none => false
  | some n =>
    !h.wen || decide (r.opIdx < r.redoOps) || (match r.wait with
      | some w => w.ok || w.kind != .header
      | none => decide (h.wtgt.toNat ≤ (s.xVal (hdrScope e) e.die.val e.core.val h.wxc.toNat n).toNat))

/-- The wait that a header starts (R421). -/
def hdrWait (e : EngRef) (n : BitVec 64) (h : OpHdr) : WaitSt :=
  { kind := .header, scope := hdrScope e, die := e.die.val, core := e.core.val, index := h.wxc.toNat,
    bank := bankOf n, target := h.wtgt, stb := 0, ticks := 0, total := 0, ok := false }

/-- Whether an engine is stopped by an op it has issued: X_ATTIME until it is met, ME_FENCE and CX_FENCE until they
complete (R303, R304, R525). An X_WAIT has not issued while it waits (R421; assumption log 21). -/
def blocked (r : EngSt) : Bool :=
  (match r.wait with
   | some w => w.kind == .attime
   | none => false)
  || r.issued.any fun op => op.code == 0x31#8 || op.code == 0x62#8

/-- An op that has issued and waits for nothing but its OP_COMPLETE. -/
def issuedOp (code : Nat) (h : OpHdr) (n : BitVec 64) : IssuedOp :=
  { code := BitVec.ofNat 8 code, hdr := h, step := n, flags := [], done := true, sealBank := none, relBank := none,
    slot := none }

/-- An engine after it issues an op of so many stream words: the wait of its issue is over; that of an X_ATTIME stays. -/
def EngSt.push (r : EngSt) (words : Nat) (op : IssuedOp) : EngSt :=
  let w := r.wait.filter fun w => w.kind == .attime
  { r with opIdx := r.opIdx + 1, word := r.word + words, wait := w, issued := r.issued ++ [op] }

/-- The op that an engine issues next: the one at its place in its stream of the image in force (R272). -/
def State.nextOp (s : State) (e : EngRef) (r : EngSt) : Option Instr :=
  (s.ctxAt r.ctx.val).img.bind fun im => im.opAt e r.word

/-- Whether an op is what its engine tries to issue (R272): the next of its stream, with nothing before it that stops the
engine, on a die that is powered (R801). -/
def State.isNext (s : State) (e : EngRef) (op : Instr) : Bool :=
  let r := s.engAt e
  r.step.isSome && r.live && !r.ended && !blocked r && !s.pmc.dieOff.contains e.die.val && s.nextOp e r == some op

/-- The wait that keeps an op from issuing: its header's, then its own (an X_WAIT's, R304), unless it has woken. -/
def waitOf (s : State) (e : EngRef) (r : EngSt) (n : BitVec 64) (h : OpHdr) (own : Option WaitSt) : Option WaitSt :=
  if !hdrMet s e r h then some (hdrWait e n h)
  else match own with
    | none => none
    | some w => if r.wait.any (fun v => v.kind == w.kind && v.ok) then none else some w

/-- An engine that waits: a wait of another kind begins with its watchdog at zero (R421). -/
def EngSt.waitFor (r : EngSt) (w : WaitSt) : EngSt :=
  if r.wait.any fun v => v.kind == w.kind then r else { r with wait := some w }

/-- The issue of an op (R272, R276). The op issues where it is the next of its engine's stream, nothing before it stops
the engine, `ready` holds, and neither its header nor `own` makes it wait. Then `act` gives the effect, the engine's
registers after it and the op that waits for completion, over the stores as strikes have left them. Where only a wait is
not met, the engine waits and a watchdog starts (R421). In every other case, and on a die that is turned off (R801),
nothing happens and the engine tries again. -/
def issueWith (s : State) (e : EngRef) (op : Instr) (h : OpHdr) (o : HwObs) (ready : EngSt → BitVec 64 → Bool)
    (own : BitVec 64 → Option WaitSt) (act : State → EngSt → BitVec 64 → State × EngSt × IssuedOp) : Out :=
  let r := s.engAt e
  match r.step with
  | none => .next s
  | some n =>
    if !s.isNext e op || !ready r n then .next s
    else match waitOf s e r n h (own n) with
      | some w => .next (s.setEng e (r.waitFor w))
      | none =>
        let s := s.strikes o
        let bad := if readsAtIssue op then s.parBad (s.opKeys { die := e.die, core := e.core } op) else []
        let a := act s r n
        .next ((a.1.observe e n bad (o.residue && e.eng != .ae)).setEng e (a.2.1.push (opWords op) a.2.2))

/-- The issue of an op that waits on nothing but its header. -/
def issue (s : State) (e : EngRef) (op : Instr) (h : OpHdr) (o : HwObs) (ready : EngSt → BitVec 64 → Bool)
    (act : State → EngSt → BitVec 64 → State × EngSt × IssuedOp) : Out :=
  issueWith s e op h o ready (fun _ => none) act

end Sys2Proof.Machine
end

