-- ==== Sys2Proof/Machine/ArrayMath.lean ====
section
/-! DEFINITION. The sums of an array pass (spec 04, 05): products, chains, bank updates, Marrow accumulators and
checksum lanes, over data already read. -/

namespace Sys2Proof.Machine

/-- Stream rows per beat (R153, R233). -/
def rowsPerBeat (exactM : Bool) (cls : Nat) : Nat := if exactM then 1 else if cls = 4 then 2 else 1

/-- ACLK cycles per beat (R153, R233). -/
def beatCycles (exactM : Bool) (cls : Nat) : Nat :=
  match exactM, cls with
  | false, 16 => 4
  | false, _ => 1
  | true, 4 => 16
  | true, 8 => 32
  | true, _ => 128

/-- The rate class of a pair of FMTs (R134), none where R134 lists no such pair. -/
def rateClass (a b : Nat) : Option Nat :=
  let f (x : Nat) : Bool := x ≤ 2
  let i4 (x : Nat) : Bool := x == 8 || x == 9
  let i8 (x : Nat) : Bool := x == 10 || x == 11
  if a = 0 ∧ b = 0 then some 4
  else if f a && f b then some 8
  else if a = 7 ∧ b = 7 then some 4
  else if (a = 7 ∧ b = 1) ∨ (a = 1 ∧ b = 7) then some 8
  else if i4 a && i4 b then some 4
  else if (i4 a || i8 a) && (i4 b || i8 b) then some 8
  else if a = b ∧ (a = 3 ∨ a = 4) then some 16
  else none

/-- The pair of a pass with its mode (R134, R135). -/
def passPair (f : PassF) (wf : BitVec 16) : Option Nat :=
  if (f.exactM || f.pack == 2) && fmtOf f.sfmt != fmtOf wf then none else rateClass (fmtOf f.sfmt) (fmtOf wf)

/-! ## Products and chains -/

/-- The value of one operand. -/
def entVal (w : BitVec 16) (x : PlaneEnt) : Val := readElem w x.code.toNat x.scale.toNat

/-- An operand's scale as a positive fraction. -/
def entScale (w : BitVec 16) (x : PlaneEnt) : Val :=
  match scaleVal (scaleOf w) x.scale.toNat with
  | .pos n d => .fin false n d
  | _ => .zero

/-- The exact product of two operands (R98, R99, R150). -/
def prodVal (sf wf : BitVec 16) (x w : PlaneEnt) : Val :=
  let a := entVal sf x
  let b := entVal wf w
  if fmtOf sf = 7 ∧ fmtOf wf = 7 ∧ a.isFin ∧ b.isFin ∧ !a.isZero ∧ !b.isZero then
    let k : Int := (x.code.toNat % 8 : Nat) + (w.code.toNat % 8 : Nat) - 8
    ((lVal (x.code.getLsbD 3 != w.code.getLsbD 3) k).mul (entScale sf x)).mul (entScale wf w)
  else a.mul b

/-- The integer product of two operands (R100). -/
def prodInt (sf wf : BitVec 16) (x w : PlaneEnt) : Int :=
  intVal (fmtOf sf) x.code.toNat * intVal (fmtOf wf) w.code.toNat

/-- A sum rounded to VS32, with its flags (R203-R206): ACC_OVF where finite terms give infinity. -/
def accVS32 (v : Val) : BitVec 32 × BitVec 4 :=
  let r := toVS32 v
  (r.1, flagIf r.2 accOvf ||| flagIf v.isNan nanSeen)

/-- A VS32 sum with one more term. -/
def addVS32 (s : BitVec 32) (v : Val) : BitVec 32 × BitVec 4 := accVS32 ((vs32 s).add v)

/-- The emitted sum of a chain of products (R203). -/
def chainF (ps : List Val) : BitVec 32 × BitVec 4 :=
  match ps with
  | [] => (0#32, 0#4)
  | p :: r =>
    r.foldl (fun a v => let b := addVS32 a.1 v; (b.1, a.2 ||| b.2 ||| flagIf v.isNan nanSeen)) (accVS32 p)

/-- A W48 sum with one more term, rounded to nearest-even (R187). -/
def addW48 (s : BitVec 48) (v : Val) : BitVec 48 := (toW48 ((w48 s).add v)).1

/-- A W48 sum with one more term, and the flags of it (R138, R226). -/
def addW48F (s : BitVec 48) (v : Val) : BitVec 48 × BitVec 4 :=
  let t := (w48 s).add v
  let r := toW48 t
  (r.1, flagIf r.2 accOvf ||| flagIf (t.isNan || v.isNan || (w48 s).isNan) nanSeen)

/-- A W48 sum of a list of exact terms in order. -/
def sumW48 (vs : List Val) : BitVec 48 :=
  match vs with
  | [] => 0#48
  | v :: r => r.foldl addW48 (toW48 v).1

/-- An I32 value limited to its bounds (R101): the code and whether a bound was taken. -/
def clampI32 (i : Int) : BitVec 32 × Bool :=
  if i < -(2 ^ 31) then (0x80000000#32, true)
  else if 2 ^ 31 - 1 < i then (0x7FFFFFFF#32, true) else (BitVec.ofInt 32 i, false)

/-- One bank entry after a pass applies an emitted float sum (R209). -/
def applyF (acc : Bool) (entry : BankEnt) (sum : BitVec 32) : BankEnt × BitVec 4 :=
  let r := if acc then addVS32 entry.code (vs32 sum) else (sum, 0#4)
  ({ code := r.1, int := false }, r.2)

/-- One bank entry after an integer pass (R209, R101). -/
def applyI (acc : Bool) (entry : BankEnt) (sum : Int) : BankEnt × BitVec 4 :=
  let r := clampI32 (if acc then entry.code.toInt + sum else sum)
  ({ code := r.1, int := true }, flagIf r.2 accOvf)

/-! ## Marrow accumulators (R235-R246) -/

/-- A Marrow accumulator with the residue its second adder keeps. -/
structure Marrow where
  a : Int
  pinf : Bool
  ninf : Bool
  nan : Bool
  res : Nat
  deriving DecidableEq, Repr

/-- marrow_open of R237 without a bank value. -/
def Marrow.zero : Marrow := { a := 0, pinf := false, ninf := false, nan := false, res := 0 }

/-- marrow_add_value of R237. -/
def Marrow.add (m : Marrow) (v : Val) : Marrow :=
  match v with
  | .nan => { m with nan := true }
  | .inf s => if s then { m with ninf := true } else { m with pinf := true }
  | .fin s n d =>
    let t : Int := ((n * 2 ^ 284 / d : Nat) : Int)
    let t := if s then -t else t
    { m with a := m.a + t, res := (((m.res : Int) + t) % 1023).toNat }

/-- Whether an accumulator's integer disagrees with its residue (R246). -/
def Marrow.bad (m : Marrow) : Bool := decide ((m.a % 1023).toNat ≠ m.res)

/-- marrow_close of R237 with its flags. -/
def Marrow.close (m : Marrow) : BitVec 32 × BitVec 4 :=
  if m.nan || (m.pinf && m.ninf) then (0x7FC00000#32, nanSeen)
  else if m.pinf then (0x7F800000#32, 0#4)
  else if m.ninf then (0xFF800000#32, 0#4)
  else if m.a = 0 then (0#32, 0#4)
  else accVS32 (.fin (m.a < 0) m.a.natAbs (2 ^ 284))

/-- The 80-byte record of an accumulator (R239). -/
def Marrow.bytes (m : Marrow) : Bytes :=
  leBytes 75 (ofInt 600 m.a) ++ leBytes 1 (b2n m.pinf + 2 * b2n m.ninf + 4 * b2n m.nan) ++ leBytes 2 m.res ++
    leBytes 2 0

/-- The accumulator of an 80-byte record. -/
def Marrow.ofBytes (bs : Bytes) : Marrow :=
  let sp := fld bs 0x4B 1
  { a := asInt 600 (fld bs 0 75), pinf := bitOf sp 0, ninf := bitOf sp 1, nan := bitOf sp 2,
    res := fld bs 0x4C 2 % 1024 }

/-! ## One stream row of one unit -/

/-- The results of a stream row: emitted sums by output index, flags, and its checksum row. -/
structure RowOut where
  sums : List (Nat × BitVec 32)
  ints : List (Nat × Int)
  flags : BitVec 4
  chk : RowChk
  deriving DecidableEq, Repr

/-- The terms of one output of a unit: pairs of stream entry and stationary entry in chain order (R148, R149). -/
def chainTerms (g : UnitGeom) (orient : Bool) (plane : Nat → Nat → PlaneEnt) (xs : List PlaneEnt) (out : Nat) :
    List (PlaneEnt × PlaneEnt) :=
  xs.zipIdx.map fun p => (p.1, if orient then plane out (g.c0 + p.2) else plane (g.r0 + p.2) out)

/-- The outputs of a unit: columns in a normal pass, rows in a transposed pass (R176). -/
def unitOuts (g : UnitGeom) (orient : Bool) : List Nat :=
  if orient then (List.range g.nr).map (g.r0 + ·) else (List.range g.nc).map (g.c0 + ·)

/-- The lanes that a unit's checksum uses (R189, R190): the first line of each half the unit spans. -/
def unitLanes (g : UnitGeom) (orient : Bool) : List Nat :=
  let f := if orient then g.r0 else g.c0
  let n := if orient then g.nr else g.nc
  if n = 128 then [0, 64] else [f]

/-- One stationary entry that a lane sums: line `i` of the stream direction, position `j` across it. -/
def laneEnt (orient : Bool) (plane : Nat → Nat → PlaneEnt) (i j : Nat) : PlaneEnt :=
  if orient then plane j i else plane i j

/-- A lane's expected and magnitude sums for one float stream row (R187-R189). -/
def laneSums (g : UnitGeom) (orient : Bool) (sf wf : BitVec 16) (plane : Nat → Nat → PlaneEnt) (xs : List PlaneEnt)
    (lane : Nat) : BitVec 48 × BitVec 48 :=
  let base := if orient then g.c0 else g.r0
  let line (i : Nat) : List Val := (List.range 64).map fun j => entVal wf (laneEnt orient plane (base + i) (lane + j))
  let es := xs.zipIdx.map fun p => (entVal sf p.1).mul (w48 (sumW48 (line p.2)))
  let as := xs.zipIdx.map fun p => (entVal sf p.1).abs.mul (w48 (sumW48 ((line p.2).map Val.abs)))
  (sumW48 es, sumW48 as)

/-- Whether an operand of a row or of a unit's stationary tile is infinite, NaN or under the NaN scale (R192). -/
def anyNonfinite (g : UnitGeom) (orient : Bool) (sf wf : BitVec 16) (plane : Nat → Nat → PlaneEnt)
    (xs : List PlaneEnt) : Bool :=
  xs.any (fun x => !(entVal sf x).isFin)
  || (unitOuts g orient).any fun o =>
      (chainTerms g orient plane xs o).any fun t => !(entVal wf t.2).isFin

/-- One stream row of a unit of a float pass (R148-R150, R189-R190, R203). -/
def rowFloat (g : UnitGeom) (orient : Bool) (sf wf : BitVec 16) (plane : Nat → Nat → PlaneEnt) (xs : List PlaneEnt)
    (seq row unit : Nat) (step : BitVec 64) : RowOut :=
  let outs := (unitOuts g orient).map fun o =>
    (o, chainF ((chainTerms g orient plane xs o).map fun t => prodVal sf wf t.1 t.2))
  let lanes := (unitLanes g orient).map (laneSums g orient sf wf plane xs)
  let comb (f : BitVec 48 × BitVec 48 → BitVec 48) : BitVec 48 := sumW48 (lanes.map fun l => w48 (f l))
  { sums := outs.map fun p => (p.1, p.2.1), ints := [], flags := orFlags (outs.map fun p => p.2.2),
    chk := { due := 0, seq := seq, row := row, unit := unit, orient := orient, isInt := false,
             obs := sumW48 (outs.map fun p => vs32 p.2.1), exp := comb (·.1), mag := comb (·.2), obsI := 0, expI := 0,
             nonfinite := anyNonfinite g orient sf wf plane xs, bound := false, step := step } }

/-- One stream row of a unit of an integer pass (R193, R207). -/
def rowInt (g : UnitGeom) (orient : Bool) (sf wf : BitVec 16) (plane : Nat → Nat → PlaneEnt) (xs : List PlaneEnt)
    (seq row unit : Nat) (step : BitVec 64) : RowOut :=
  let sum (l : List Int) : Int := l.foldl (· + ·) 0
  let outs := (unitOuts g orient).map fun o =>
    (o, sum ((chainTerms g orient plane xs o).map fun t => prodInt sf wf t.1 t.2))
  let o := sum (outs.map (·.2))
  { sums := [], ints := outs, flags := 0#4,
    chk := { due := 0, seq := seq, row := row, unit := unit, orient := orient, isInt := true, obs := 0, exp := 0, mag := 0,
             obsI := o, expI := o, nonfinite := false, bound := false, step := step } }

/-- Whether a row fails its check, and whether by R192 (R191-R193). -/
def checkFails (k : RowChk) : Bool × Bool :=
  if k.isInt then (!k.bound && decide (k.obsI ≠ k.expI), false)
  else
    let o := w48 k.obs
    let e := w48 k.exp
    let a := w48 k.mag
    if o.isFin && e.isFin then
      let tol := (a.mul (.fin false 1 (2 ^ 12))).add (.fin false 1 (2 ^ 112))
      (tol.lt (o.sub e).abs, false)
    else if k.nonfinite || !(a.lt (.fin false (2 ^ 127) 1)) then (false, false) else (true, true)

/-- Rows that wait for their verdict, with one more: they are judged in the order in which their last sums leave the
array, rows of one beat in the order of their units (DESIGN CHOICE: R195 orders no two rows; assumption log 79). -/
def insertChk (k : RowChk) : List RowChk → List RowChk
  | [] => [k]
  | q :: r => if k.due < q.due then k :: q :: r else q :: insertChk k r

/-- The value of AE_ABFT_LOG for a failing row (R199). -/
def abftLogOf (k : RowChk) (nonfin : Bool) : BitVec 64 :=
  BitVec.ofNat 64 (k.seq % 2 ^ 24 + 2 ^ 24 * (k.row % 256) + 2 ^ 32 * (k.unit % 4) + 2 ^ 34 * b2n k.orient
    + 2 ^ 35 * b2n nonfin)

end Sys2Proof.Machine
end

