-- ==== Sys2Proof/Machine/Array.lean ====
section
/-! DEFINITION. The Array Engine (spec 04, 05, 06): loads, passes, the current level, preloads, checksum verdicts and
the hand-over of banks. -/

namespace Sys2Proof.Machine

/-! ## The array's clock (R156, R163, R165, R177-R186) -/

/-- Rows written in a plane. -/
def AeSt.rows (a : AeSt) (plane : Bool) : Nat := if plane then a.rows1 else a.rows0

/-- The array with the count of rows written in a plane set. -/
def AeSt.setRows (a : AeSt) (plane : Bool) (n : Nat) : AeSt := if plane then { a with rows1 := n } else { a with rows0 := n }

/-- The format word of the load that filled a plane (R152). -/
def AeSt.fmt (a : AeSt) (plane : Bool) : BitVec 16 := if plane then a.fmt1 else a.fmt0

/-- The entries of a plane. -/
def AeSt.plane (a : AeSt) (plane : Bool) : Tbl PlaneEnt := if plane then a.plane1 else a.plane0

/-- One entry of a plane; an entry no load has written is the zero code. -/
def AeSt.entry (a : AeSt) (plane : Bool) (k n : Nat) : PlaneEnt :=
  tget { code := 0#16, scale := 0#8 } (a.plane plane) (k * 128 + n)

/-- A saturating 32-bit counter with `n` more (R200). -/
def satAdd32 (c : BitVec 32) (n : Nat) : BitVec 32 := BitVec.ofNat 32 (min (c.toNat + n) 0xFFFFFFFF)

/-- The current level after `idle` cycles of an idle interval (R183). -/
def levelAfter (idle : Nat) : Nat := 4 - min 4 (idle / 64)

/-- Rows of a plane written in an earlier ACLK cycle than the present one (R160). -/
def AeSt.rowsBefore (a : AeSt) (plane : Bool) : Nat := a.rows plane - b2n (a.wrote == some plane)

/-- The active beat before which the load-row rule holds back the next row (R163, R164). -/
def LoadSt.need (l : LoadSt) : Nat :=
  match l.tok with
  | none => 0
  | some t => t + l.row + 127

/-- Whether the loader waits under R163 in the present cycle: it has written no row in it and may not. -/
def AeSt.loadWaits (a : AeSt) : Bool :=
  a.wrote.isNone && a.load.any fun l => decide (a.beat < l.need)

/-- The token-row rule (R165): the present beat would bring the swap token to a row that its load has not written in an
earlier cycle. -/
def AeSt.tokenStop (a : AeSt) : Bool :=
  decide (a.cyc = 0)
  && a.token.any fun t => decide (a.beat < t + 128) && decide (a.rowsBefore a.active ≤ a.beat - t)

/-- Whether the array is frozen in the present cycle (R177): the feeder has no next row of a running pass, sums that
leave the array are not accepted, or the token-row rule holds. -/
def AeSt.stopped (a : AeSt) (feeder drain : Bool) : Bool :=
  a.tokenStop || (feeder && decide (a.beat < a.injEnd)) || (drain && decide (a.beat < a.lastEnd))

/-- The pass that has issued and not started. -/
def AeSt.waiting (a : AeSt) : Option PassSt := a.passes.find? fun p => !p.started

/-- The rate class of a pass over the plane it uses (R152, R153). Every pass of a checked image forms a pair (R168). -/
def AeSt.passCls (a : AeSt) (p : PassSt) : Nat := (passPair p.f (a.fmt p.plane)).getD 8

/-- Whether the VE owns a bank. -/
def CoreSt.veOwns (k : CoreSt) (b : Bool) : Bool := if b then k.ve1 else k.ve0

/-- A hand-over of a bank that is due: to the VE, or to the AE. -/
def CoreSt.hand (k : CoreSt) (b : Bool) : Option Bool := if b then k.hand1 else k.hand0

/-- The core with a hand-over made due or cleared. -/
def CoreSt.setHand (k : CoreSt) (b : Bool) (h : Option Bool) : CoreSt :=
  if b then { k with hand1 := h } else { k with hand0 := h }

/-- The core with a bank given to an owner. -/
def CoreSt.own (k : CoreSt) (b ve : Bool) : CoreSt := if b then { k with ve1 := ve } else { k with ve0 := ve }

/-- Whether a pass that waits is ready to inject (R166, R167, R215): its bank is the AE's, its load has written row 0
in an earlier cycle, the passes before it inject no more, and the array has drained where the beat length changes. -/
def passReady (k : CoreSt) (p : PassSt) : Bool :=
  let a := k.ae
  !k.veOwns p.f.bank && (k.hand p.f.bank).isNone
  && (!p.f.swap || decide (1 ≤ a.rowsBefore p.plane))
  && decide (a.injEnd ≤ a.beat)
  && ((decide (beatCycles p.f.exactM (a.passCls p) = a.beatLen) && decide (a.cyc = 0)) || decide (a.lastEnd ≤ a.beat))

/-- Whether work calls for level 4 in a cycle that is not frozen (R185): a row waits to be injected, a pass is ready, a
freeze has just cleared, or a ramp-up is under way. -/
def CoreSt.wants (k : CoreSt) : Bool :=
  decide (k.ae.beat < k.ae.injEnd) || k.frozen || k.ae.up.isSome || k.ae.waiting.any (passReady k)

/-- The level in the present cycle of a ramp-up (R185, R186): one higher in its first cycle and in every 64th after. -/
def AeSt.rise (a : AeSt) : Nat := if a.level < 4 ∧ a.up.getD 0 % 64 = 0 then a.level + 1 else a.level

/-- A core after one more cycle of an idle interval (R183). Its 65th cycle is a pace point: the core adopts its die's
ACLK target `pos` (R773). -/
def CoreSt.idleCycle (pos : Nat) (k : CoreSt) : CoreSt :=
  { k with ae := { k.ae with idle := k.ae.idle + 1, level := min k.ae.level (levelAfter k.ae.idle) },
           pos := if k.ae.idle = 64 then pos else k.pos }

/-- A core after one ACLK cycle of its array in which no command of the array falls (R163-R186, R200): the cycle is
frozen, a ramp wait, a gap, or injects. An idle interval that follows a ramp-up starts anew (DESIGN CHOICE: assumption
log 80). -/
def cycle (pos : Nat) (feeder drain : Bool) (k : CoreSt) : CoreSt :=
  let a := { k.ae with wrote := none }
  let ldw := if k.ae.loadWaits then satAdd32 k.cntLdw 1 else k.cntLdw
  if k.ae.stopped feeder drain then
    CoreSt.idleCycle pos { k with ae := { a with up := none }, frozen := true, cntFrz := satAdd32 k.cntFrz 1, cntLdw := ldw }
  else
    let up := k.wants && decide (a.level < 4)
    let level := if up then a.rise else a.level
    if up && decide (level < 4) then
      { k with ae := { a with level := level, up := some (a.up.getD 0 + 1), idle := 0 }, frozen := false,
               cntRamp := satAdd32 k.cntRamp 1, cntLdw := ldw }
    else
      let on := decide (a.cyc + 1 < a.beatLen)
      let b := { a with level := level, up := none, idle := if up then 0 else a.idle,
                        beat := if on then a.beat else a.beat + 1, cyc := if on then a.cyc + 1 else 0 }
      if a.beat < a.injEnd then { k with ae := { b with idle := 0 }, frozen := false, cntLdw := ldw }
      else CoreSt.idleCycle pos { k with ae := b, frozen := false, cntGap := satAdd32 k.cntGap 1, cntLdw := ldw }

/-- A core after a run of ACLK cycles. -/
def cycles (pos : Nat) (k : CoreSt) (r : CycleRun) : CoreSt := Nat.repeat (cycle pos r.feeder r.drain) r.n k

/-- The ACLK target position of a die (R773). -/
def State.target (s : State) (die : Nat) : Nat := (tget DivSt.reset s.pmc.div die).target

/-- The package after runs of ACLK cycles of a core's array. -/
def State.clock (s : State) (c : CoreRef) (rs : List CycleRun) : State :=
  s.modCore c fun k => rs.foldl (cycles (s.target c.die.val)) k

/-! ## Tensors in scratchpad (R281) -/

/-- Row `m` of a tensor of `count` rows of `n` elements at a line: codes with the scales of their blocks. -/
def tensorRow (s : State) (c : CoreRef) (w : BitVec 16) (line count n m : Nat) : List PlaneEnt :=
  let rl := rowLines w n
  let bs := s.spmRead c (64 * (line + m * rl)) (elemBytes (fmtOf w) n)
  let nb := n / blkOf w
  let sb := if scaleOf w = 0 then [] else s.spmRead c (64 * (line + count * rl) + m * nb) nb
  (List.range n).map fun i =>
    { code := BitVec.ofNat 16 (unpackElem (fmtOf w) bs i), scale := BitVec.ofNat 8 (fld sb (i / blkOf w) 1) }

/-! ## Applying a pass -/

/-- What applying a pass has produced so far: the bank and the places written in it, the flag word of each unit,
checksum rows, how many Marrow residues differed, and the Marrow records to save. -/
structure PassAcc where
  bank : Tbl BankEnt
  places : List Nat
  flags : List (BitVec 4)
  checks : List RowChk
  mrw : Nat
  saves : List (Nat × Bytes)
  deriving DecidableEq, Repr

/-- OR a flag word into unit `u`'s. -/
def orAt (fs : List (BitVec 4)) (u : Nat) (f : BitVec 4) : List (BitVec 4) := fs.set u (fs.getD u 0#4 ||| f)

/-- The bank place of an output of a row (R176). -/
def bankPlace (g : UnitGeom) (m out : Nat) : Nat := (g.bankRow + m) * 128 + out

/-- The accumulated results after one entry of a bank takes what `r` makes of it, with unit `u`'s flags. -/
def PassAcc.put (a : PassAcc) (u place : Nat) (r : BankEnt → BankEnt × BitVec 4) : PassAcc :=
  let v := r (tget .zero a.bank place)
  { a with bank := tset .zero a.bank place v.1, places := place :: a.places, flags := orAt a.flags u v.2 }

/-- The active beat in which the last sum of stream row `m` of a unit leaves the array (R155, R156, R173). -/
def rowDue (p : PassSt) (g : UnitGeom) (cls m : Nat) : Nat :=
  p.b0 + m / rowsPerBeat p.f.exactM cls + g.r0 + g.nr + g.c0 + g.nc - 1

/-- One stream row of one unit of a pass that is not Exact. -/
def runRow (s : State) (c : CoreRef) (p : PassSt) (wf : BitVec 16) (cls : Nat) (plane : Nat → Nat → PlaneEnt)
    (a : PassAcc) (u line mm m : Nat) : PassAcc :=
  let g := unitGeom p.f.pack.toNat p.f.orient u
  let xs := tensorRow s c p.f.sfmt line mm (unitLen p.f.pack.toNat p.f.orient) m
  let due := rowDue p g cls m
  if isIntFmt (fmtOf p.f.sfmt) then
    let r := rowInt g p.f.orient p.f.sfmt wf plane xs p.seq m u p.step
    let bound := r.ints.any fun e => (applyI p.f.acc (tget .zero a.bank (bankPlace g m e.1)) e.2).2 != 0#4
    let a := r.ints.foldl (fun (a : PassAcc) e => a.put u (bankPlace g m e.1) fun x => applyI p.f.acc x e.2) a
    { a with checks := a.checks ++ [{ r.chk with bound := bound, due := due }] }
  else
    let r := rowFloat g p.f.orient p.f.sfmt wf plane xs p.seq m u p.step
    let a := r.sums.foldl (fun (a : PassAcc) e => a.put u (bankPlace g m e.1) fun x => applyF p.f.acc x e.2) a
    { a with flags := orAt a.flags u r.flags, checks := a.checks ++ [{ r.chk with due := due }] }

/-- One accumulator of one stream row of an Exact pass (R237, R240-R242, R246): the bank changes only at a closing. -/
def runMarrow (s : State) (c : CoreRef) (p : PassSt) (wf : BitVec 16) (plane : Nat → Nat → PlaneEnt)
    (xs : List PlaneEnt) (a : PassAcc) (m j : Nat) : PassAcc :=
  let g := unitGeom 0 p.f.orient 0
  let at_ := 64 * p.f.mimg.toNat + (128 * m + j) * 80
  let term := vs32 (tget .zero a.bank (bankPlace g m j)).code
  let m0 := if p.f.opn then (if p.f.acc then Marrow.zero.add term else Marrow.zero) else Marrow.ofBytes (s.spmRead c at_ 80)
  let prods := (chainTerms g p.f.orient plane xs j).map fun t => prodVal p.f.sfmt wf t.1 t.2
  let m1 := prods.foldl Marrow.add m0
  let seen := flagIf (prods.any (·.isNan) || (p.f.opn && p.f.acc && term.isNan)) nanSeen
  let a := { a with mrw := a.mrw + b2n (!p.f.opn && m0.bad) + b2n (p.f.cls && m1.bad), flags := orAt a.flags 0 seen }
  if p.f.cls then a.put 0 (bankPlace g m j) fun _ => let r := m1.close; ({ code := r.1, int := false }, r.2)
  else { a with saves := a.saves ++ [(at_, m1.bytes)] }

/-- One stream row of an Exact pass: its accumulators, and the chain sums that only the checker sees (R244). The flags
of those sums are no event of the pass (DESIGN CHOICE: R138 and R244 do not say; assumption log 81). -/
def runExactRow (s : State) (c : CoreRef) (p : PassSt) (wf : BitVec 16) (cls : Nat) (plane : Nat → Nat → PlaneEnt)
    (a : PassAcc) (line mm m : Nat) : PassAcc :=
  let g := unitGeom 0 p.f.orient 0
  let xs := tensorRow s c p.f.sfmt line mm 128 m
  let r := rowFloat g p.f.orient p.f.sfmt wf plane xs p.seq m 0 p.step
  let a := (List.range 128).foldl (fun a j => runMarrow s c p wf plane xs a m j) a
  { a with checks := a.checks ++ [{ r.chk with due := rowDue p g cls m }] }

/-- Every row of every unit of a pass, in stream order. -/
def runPass (s : State) (c : CoreRef) (k : CoreSt) (p : PassSt) : PassAcc :=
  let wf := k.ae.fmt p.plane
  let plane := k.ae.entry p.plane
  let cls := k.ae.passCls p
  let units := passUnits p.f
  let a0 : PassAcc :=
    { bank := k.bank p.f.bank, places := [], flags := units.map fun _ => 0#4, checks := [],
      mrw := b2n (p.mrw && p.f.exactM && (!p.f.opn || p.f.cls)), saves := [] }
  units.zipIdx.foldl (fun a u =>
    (List.range u.1.2).foldl (fun a m =>
      if p.f.exactM then runExactRow s c p wf cls plane a u.1.1 u.1.2 m
      else runRow s c p wf cls plane a u.2 u.1.1 u.1.2 m) a) a0

/-- An engine with its issued pass `seq` marked finished, with its flags (R140, R285). -/
def EngSt.finishPass (r : EngSt) (p : PassSt) (flags : List (BitVec 4)) : EngSt :=
  { r with issued := r.issued.map fun op =>
      if op.slot = some p.seq ∧ op.code = 0x11#8 ∧ op.step = p.step then
        { op with done := true, flags := flags.zipIdx.map fun f => (p.hdr.fslot.toNat + f.2, f.1),
                  sealBank := if p.f.sealB then some p.f.bank else none }
      else op }

/-- An array-datapath fault of a core (R196, R246). -/
def State.arrayFault (s : State) (c : CoreRef) (n : BitVec 64) (detail : BitVec 64) : State :=
  s.wire (mkReport 1 1 (coreLocus c.die.val (s.physOf c.die.val c.core.val)) n detail)

/-- The package after the oldest started pass of a core applies its sums (R209-R211, R216). Each Marrow residue that
differs reports once (R246; DESIGN CHOICE: assumption log 82). -/
def applyPass (s : State) (c : CoreRef) (p : PassSt) : State :=
  let k := s.coreAt c
  let bad := s.parBad (s.opKeys c (.aePass c p.hdr p.f [] noObs))
  let a := runPass s c k p
  let ae := { k.ae with passes := k.ae.passes.drop 1, checks := a.checks.foldl (fun l q => insertChk q l) k.ae.checks }
  let k := { k.setBank p.f.bank a.bank with ae := ae, mrwErr := k.mrwErr || decide (0 < a.mrw) }
  let k := if p.f.sealB then k.setHand p.f.bank (some true) else k
  let s := a.saves.foldl (fun s w => s.spmWrite c w.1 w.2) ((s.modCore c fun _ => k).bankWrote c p.f.bank a.places)
  let e := engOf c .ae
  let s := (s.setEng e ((s.engRaw e).finishPass p a.flags)).observe e p.step bad false
  Nat.repeat (fun (s : State) => s.arrayFault c p.step 0) a.mrw s

/-- Applies every pass at the head of the core's list that has started and whose plane is loaded. -/
def runPasses : Nat → State → CoreRef → State
  | 0, s, _ => s
  | fuel + 1, s, c =>
    match (s.coreAt c).ae.passes with
    | [] => s
    | p :: _ =>
      if p.started && decide ((s.coreAt c).ae.rows p.plane = 128) then runPasses fuel (applyPass s c p) c else s

/-- Runs what can run of a core's passes. -/
def runReady (s : State) (c : CoreRef) : State := runPasses (s.coreAt c).ae.passes.length s c

/-! ## Commands -/

/-- NOP (R279): it does nothing and completes when it issues. -/
def execNop (e : EngRef) (h : OpHdr) (s : State) : Out :=
  guardUnit (e.die.val < s.dies)
    (issue s e (.nop e h) h noObs (fun _ _ => true) fun s r n => (s, r, issuedOp 0 h n))

/-- END (R279): the engine's last op of the step; it completes when every earlier op has. -/
def execEnd (e : EngRef) (h : OpHdr) (s : State) : Out :=
  guardUnit (e.die.val < s.dies)
    (issue s e (.end_ e h) h noObs (fun _ _ => true) fun s r n => (s, r, issuedOp 1 h n))

/-- AE_LOAD (R157, R282): a load of 128 rows into the shadow plane starts. It waits for a load that is under way and
for a swap that has not happened. -/
def execAeLoad (c : CoreRef) (h : OpHdr) (wfmt wline : BitVec 16) (rs : List CycleRun) (s : State) : Out :=
  guardUnit (c.die.val < s.dies)
    (let s := s.clock c rs
     let a := (s.coreAt c).ae
     issue s (engOf c .ae) (.aeLoad c h wfmt wline []) h noObs
       (fun _ _ => a.load.isNone && !(a.passes.any fun p => !p.started && p.f.swap)) fun s r n =>
      (s.modCore c fun k =>
        let pl := !k.ae.active
        let ae := k.ae.setRows pl 0
        let ae := if pl then { ae with fmt1 := wfmt } else { ae with fmt0 := wfmt }
        { k with ae := { ae with load := some { fmt := wfmt, line := wline, row := 0, plane := pl, tok := ae.token } } },
       r, { issuedOp 0x10 h n with done := false }))

/-- The array with one row of a plane written in the present cycle (R147, R157). -/
def AeSt.writeRow (a : AeSt) (plane : Bool) (row : Nat) (xs : List PlaneEnt) : AeSt :=
  let d : PlaneEnt := { code := 0#16, scale := 0#8 }
  let t := xs.zipIdx.foldl (fun t p => tset d t (row * 128 + p.2) p.1) (a.plane plane)
  let a := (if plane then { a with plane1 := t } else { a with plane0 := t }).setRows plane (row + 1)
  { a with wrote := some plane }

/-- The byte ranges of one row of a tensor of 128 rows and of the scales of its blocks (R159, R281). -/
def rowRanges (w : BitVec 16) (line row : Nat) : List (Nat × Nat) :=
  let rl := rowLines w 128
  let nb := 128 / blkOf w
  [(64 * (line + row * rl), elemBytes (fmtOf w) 128)]
  ++ (if scaleOf w = 0 then [] else [(64 * (line + 128 * rl) + row * nb, nb)])

/-- An engine with every op of a code done. -/
def EngSt.finishCode (r : EngSt) (code : BitVec 8) : EngSt :=
  { r with issued := r.issued.map fun op => if op.code = code then { op with done := true } else op }

/-- LOAD_ROW_WRITE (R157-R165, R187): in the cycle after those given, the loader writes the next row of the shadow
plane where the load-row rule allows, at most one row a cycle; otherwise it waits. It reads the row, and with it any
strike. -/
def execLoadRowWrite (c : CoreRef) (rs : List CycleRun) (o : HwObs) (s : State) : Out :=
  guardUnit (c.die.val < s.dies)
    (let s := s.clock c rs
     let k := s.coreAt c
     match k.ae.load with
     | none => .next s
     | some l =>
       if k.ae.wrote.isSome || decide (k.ae.beat < l.need) then .next s
       else
         let s := s.strikes o
         let e := engOf c .ae
         let n := ((s.engRaw e).issued.find? fun op => op.code == 0x10#8).elim 0 (·.step)
         let bad := s.parBad (s.spmKeys c (rowRanges l.fmt l.line.toNat l.row))
         let xs := tensorRow s c l.fmt l.line.toNat 128 128 l.row
         let last := decide (l.row = 127)
         let s := s.modCore c fun k =>
           { k with ae := { k.ae.writeRow l.plane l.row xs with
                              load := if last then none else some { l with row := l.row + 1 } } }
         let s := if last then s.setEng e ((s.engRaw e).finishCode 0x10) else s
         .next (runReady (s.observe e n bad false) c))

/-- AE_PASS with its EXT (R283-R285): the pass issues and waits for its start. -/
def execAePass (c : CoreRef) (h : OpHdr) (f : PassF) (rs : List CycleRun) (o : HwObs) (s : State) : Out :=
  guardUnit (c.die.val < s.dies)
    (let s := s.clock c rs
     let a := (s.coreAt c).ae
     let pl := if f.swap then !a.active else a.active
     issue s (engOf c .ae) (.aePass c h f [] noObs) h o (fun _ _ => a.waiting.isNone) fun s r n =>
      (s.modCore c fun k =>
        { k with ae := { k.ae with passes := k.ae.passes ++
            [{ hdr := h, f := f, step := n, seq := r.passNo, started := false, b0 := 0, plane := pl,
               mrw := o.residue }] } },
       { r with passNo := r.passNo + 1 },
       { issuedOp 0x11 h n with done := false, slot := some r.passNo }))

/-- The largest stream-row count of a pass. -/
def passM (f : PassF) : Nat := (passUnits f).foldl (fun a u => max a u.2) 0

/-- The array after a pass starts in the present beat (R155, R161, R162): a swap exchanges the planes. -/
def AeSt.startPass (a : AeSt) (p : PassSt) : AeSt :=
  let cls := a.passCls p
  let r := rowsPerBeat p.f.exactM cls
  let inj := (passM p.f + r - 1) / r
  let a := if p.f.swap then { a with active := p.plane, token := some a.beat }.setRows (!p.plane) 0 else a
  { a with passes := a.passes.map fun q => if q.started then q else { q with started := true, b0 := a.beat },
           beatLen := beatCycles p.f.exactM cls, injEnd := a.beat + inj, lastEnd := a.beat + inj + 255, cyc := 0 }

/-- PASS_START (R155, R156, R161, R162, R166, R167, R178, R185, R773): in the cycle after those given, the waiting pass
injects its first row, where it is ready, the token-row rule does not freeze the array and the level is 4. The core
adopts its die's ACLK target. -/
def execPassStart (c : CoreRef) (rs : List CycleRun) (s : State) : Out :=
  guardUnit (c.die.val < s.dies)
    (let s := s.clock c rs
     let k := s.coreAt c
     match k.ae.waiting with
     | none => .next s
     | some p =>
       if !passReady k p || k.ae.tokenStop || decide (k.ae.rise < 4) then .next s
       else .next (runReady (s.modCore c fun k => { k with ae := k.ae.startPass p, pos := s.target c.die.val }) c))

/-- CURRENT_LEVEL_STEP (R177-R186, R200, R773): 64 ACLK cycles of the array pass, with what the feeder and the drain do
in them, and the level follows. -/
def execCurrentLevelStep (c : CoreRef) (feeder drain : Bool) (s : State) : Out :=
  guardUnit (c.die.val < s.dies) (.next (s.clock c [{ n := 64, feeder := feeder, drain := drain }]))

/-- CHECKSUM_CHECK (R190-R197): the oldest stream row that waits is judged; `observed` is what the checker's lanes
hold where the datapath erred, as a W48 code for a float row and a 48-bit integer for an integer row. -/
def execChecksumCheck (c : CoreRef) (observed : Option (BitVec 48)) (s : State) : Out :=
  guardUnit (c.die.val < s.dies)
    (let k := s.coreAt c
     match k.ae.checks with
     | [] => .next s
     | q :: rest =>
       let q := match observed with
         | none => q
         | some v => if q.isInt then { q with obsI := v.toInt } else { q with obs := v }
       let r := checkFails q
       let log := abftLogOf q r.2
       let s := s.modCore c fun k => { k with ae := { k.ae with checks := rest } }
       if r.1 then
         let s := s.modCore c fun k =>
           { k with abftErr := true, abftLog := if k.abftErr then k.abftLog else log }
         .next (s.arrayFault c q.step (s.coreAt c).abftLog)
       else .next s)

/-- The values a preload writes, row by row, with its flags (R212): codes for region row `i`. -/
def preRow (s : State) (c : CoreRef) (p : PreF) (i : Nat) : List (Nat × BitVec 4) :=
  let n := regionW p.wide
  let raw (row : Nat) (count : Nat) : List Nat :=
    let rl := rowLines p.pfmt n
    let bs := s.spmRead c (64 * (p.pline.toNat + (if count = 1 then 0 else row) * rl)) (elemBytes (fmtOf p.pfmt) n)
    (List.range n).map fun j => unpackElem (fmtOf p.pfmt) bs j
  match p.src.toNat with
  | 0 => (List.range n).map fun _ => (0, 0#4)
  | 1 => (raw 0 1).map fun v => (v, 0#4)
  | _ =>
    if fmtOf p.pfmt = 12 then (raw i 2).map fun v => (v, 0#4)
    else (raw i 2).map fun v => convElem 5#16 .rne (elemVal (fmtOf p.pfmt) v)

/-- AE_PRELOAD (R212, R213, R215, R287): a bank region takes zeros, a bias row or a residual tensor. Zeros leave the
kind of an entry as it was. -/
def execAePreload (c : CoreRef) (h : OpHdr) (p : PreF) (o : HwObs) (s : State) : Out :=
  guardUnit (c.die.val < s.dies)
    (issue s (engOf c .ae) (.aePreload c h p noObs) h o
      (fun _ _ => let k := s.coreAt c
                  !k.veOwns p.bank && (k.hand p.bank).isNone && !(k.ae.passes.any fun q => q.f.bank == p.bank))
      fun s r n =>
        let rows := (List.range p.nrows.toNat).map fun i => (i, preRow s c p i)
        let cells := rows.flatMap fun x => x.2.zipIdx.map fun v =>
          ((p.row0.toNat + x.1) * 128 + (b2n p.col0 * 64 + v.2), v.1.1)
        let flags := orFlags (rows.flatMap fun x => x.2.map (·.2))
        let put (t : Tbl BankEnt) (e : Nat × Nat) : Tbl BankEnt :=
          tmod .zero t e.1 fun x =>
            { code := BitVec.ofNat 32 e.2, int := if p.src = 0 then x.int else fmtOf p.pfmt == 12 }
        let s := s.modCore c fun k => k.setBank p.bank (cells.foldl put (k.bank p.bank))
        (s.bankWrote c p.bank (cells.map (·.1)), r, { issuedOp 0x12 h n with flags := [(h.fslot.toNat, flags)] }))

/-- BANK_HANDOVER (R216-R218): the hand-over that is due takes effect. -/
def execBankHandover (c : CoreRef) (bank : Bool) (s : State) : Out :=
  guardUnit (c.die.val < s.dies)
    (.next (s.modCore c fun k =>
      match k.hand bank with
      | none => k
      | some ve => (k.own bank ve).setHand bank none))

end Sys2Proof.Machine
end

