-- ==== Sys2Proof/Machine/Crypto.lean ====
section
/-! DEFINITION. The cryptographic functions that the spec names by their standards: SHA-384 (R270, R617, R815),
ECDSA P-384 (R815, R842), AES-256-GCM (R827-R829) and the CRC-32 of R465. The standards' own definitions are taken
from outside the spec (assumption log 15). -/

namespace Sys2Proof.Machine

/-! ## Integer roots and primes -/

/-- The largest r below 2^bits with r^k ≤ n, one bit at a time. -/
def irootBits (k : Nat) : Nat → Nat → Nat → Nat
  | 0, _, r => r
  | b + 1, n, r => irootBits k b n (if (r + 2 ^ b) ^ k ≤ n then r + 2 ^ b else r)

/-- Whether a number is prime, by trial division. -/
def isPrime (n : Nat) : Bool := decide (2 ≤ n) && (List.range n).all fun d => decide (d < 2) || n % d != 0

/-- The first 80 primes. -/
def primes80 : List Nat := (List.range 410).filter isPrime

/-! ## SHA-384 -/

/-- Rotation right of a 64-bit word. -/
def rotr64 (x : BitVec 64) (k : Nat) : BitVec 64 := (x >>> k) ||| (x <<< (64 - k))

/-- Round constants: the first 64 fraction bits of the cube roots of the first 80 primes. -/
def shaK : List (BitVec 64) := primes80.map fun p => BitVec.ofNat 64 (irootBits 3 68 (p * 2 ^ 192) 0)

/-- Initial value: the first 64 fraction bits of the square roots of the 9th to 16th primes. -/
def shaInit : List (BitVec 64) :=
  ((primes80.drop 8).take 8).map fun p => BitVec.ofNat 64 (irootBits 2 68 (p * 2 ^ 128) 0)

/-- A word of a list. -/
def w64 (l : List (BitVec 64)) (i : Nat) : BitVec 64 := l.getD i 0

/-- The message schedule, extended to 80 words; `l` holds the words so far, last first. -/
def shaExpand : Nat → List (BitVec 64) → List (BitVec 64)
  | 0, l => l.reverse
  | k + 1, l =>
    let a := w64 l 14
    let b := w64 l 1
    let s0 := rotr64 a 1 ^^^ rotr64 a 8 ^^^ (a >>> 7)
    let s1 := rotr64 b 19 ^^^ rotr64 b 61 ^^^ (b >>> 6)
    shaExpand k ((w64 l 15 + s0 + w64 l 6 + s1) :: l)

/-- One round on the eight working words. -/
def shaRound (v : List (BitVec 64)) (k w : BitVec 64) : List (BitVec 64) :=
  let a := w64 v 0
  let e := w64 v 4
  let s1 := rotr64 e 14 ^^^ rotr64 e 18 ^^^ rotr64 e 41
  let ch := (e &&& w64 v 5) ^^^ (~~~e &&& w64 v 6)
  let t1 := w64 v 7 + s1 + ch + k + w
  let s0 := rotr64 a 28 ^^^ rotr64 a 34 ^^^ rotr64 a 39
  let mj := (a &&& w64 v 1) ^^^ (a &&& w64 v 2) ^^^ (w64 v 1 &&& w64 v 2)
  [t1 + s0 + mj, a, w64 v 1, w64 v 2, w64 v 3 + t1, e, w64 v 5, w64 v 6]

/-- One block of 128 bytes. -/
def shaBlock (h : List (BitVec 64)) (blk : Bytes) : List (BitVec 64) :=
  let ws := (List.range 16).map fun i => BitVec.ofNat 64 (beNat (slice blk (8 * i) 8))
  let sched := shaExpand 64 ws.reverse
  let v := (shaK.zip sched).foldl (fun v p => shaRound v p.1 p.2) h
  (h.zip v).map fun p => p.1 + p.2

/-- The blocks of a padded message. -/
def shaBlocks : Nat → List (BitVec 64) → Bytes → List (BitVec 64)
  | 0, h, _ => h
  | k + 1, h, bs => shaBlocks k (shaBlock h (bs.take 128)) (bs.drop 128)

/-- SHA-384 as 48 bytes in the order of the standard. -/
def sha384Bytes (m : Bytes) : Bytes :=
  let z := (239 - m.length % 128) % 128
  let padded := m ++ [0x80#8] ++ List.replicate z 0#8 ++ beBytes 16 (8 * m.length)
  let h := shaBlocks (padded.length / 128) shaInit padded
  ((h.take 6).flatMap fun x => beBytes 8 x.toNat)

/-- A SHA-384 value as it is stored: 48 bytes, the standard's first byte at the lowest address. -/
def sha384 (m : Bytes) : BitVec 384 := BitVec.ofNat 384 (leNat (sha384Bytes m))

/-! ## P-384 -/

/-- The field prime. -/
def pP : Nat := 2 ^ 384 - 2 ^ 128 - 2 ^ 96 + 2 ^ 32 - 1

/-- The curve's constant b. -/
def pB : Nat :=
  0xb3312fa7e23ee7e4988e056be3f82d19181d9c6efe8141120314088f5013875ac656398d8a2ed19d2a85c8edd3ec2aef

/-- The order of the base point. -/
def pN : Nat :=
  0xffffffffffffffffffffffffffffffffffffffffffffffffc7634d81f4372ddf581a0db248b0a77aecec196accc52973

/-- The base point. -/
def pG : Nat × Nat :=
  (0xaa87ca22be8b05378eb1c71ef320ad746e1d3b628ba79b9859f741e082542a385502f25dbf55296c3a545e3872760ab7,
   0x3617de4a96262c6f5d9e98bf9292dc29f8f41dbd289a147ce9da3113b5f0b8c00a60b1ce1d7e819d7a431d7c90ea0e5f)

/-- A power modulo m, over the low `k` bits of the exponent. -/
def powMod (m : Nat) : Nat → Nat → Nat → Nat
  | 0, _, _ => 1 % m
  | k + 1, b, e =>
    let r := powMod m k (b * b % m) (e / 2)
    if e % 2 = 1 then b * r % m else r

/-- An inverse modulo a prime m. -/
def invMod (m a : Nat) : Nat := powMod m 384 (a % m) (m - 2)

/-- A difference modulo the field prime. -/
def subP (a b : Nat) : Nat := (a % pP + pP - b % pP) % pP

/-- The sum of two points; none is the point at infinity. -/
def ecAdd (a b : Option (Nat × Nat)) : Option (Nat × Nat) :=
  match a, b with
  | none, q => q
  | p, none => p
  | some (x1, y1), some (x2, y2) =>
    if x1 = x2 ∧ (y1 + y2) % pP = 0 then none
    else
      let l := if x1 = x2 ∧ y1 = y2 then subP (3 * x1 * x1) 3 * invMod pP (2 * y1) % pP
        else subP y2 y1 * invMod pP (subP x2 x1) % pP
      let x3 := subP (l * l) (x1 + x2)
      some (x3, subP (l * subP x1 x3) y1)

/-- A multiple of a point, over the low `k` bits of the factor. -/
def ecMul : Nat → Nat → Option (Nat × Nat) → Option (Nat × Nat)
  | 0, _, _ => none
  | k + 1, e, q =>
    let r := ecMul k (e / 2) (ecAdd q q)
    if e % 2 = 1 then ecAdd q r else r

/-- Whether a signature (r, s) over a digest verifies under a public key (ECDSA, P-384, SHA-384). -/
def ecdsaOk (x y r s digest : Nat) : Bool :=
  let onCurve := decide (x < pP) && decide (y < pP) && decide (y * y % pP = (x * x * x + (pP - 3) * x + pB) % pP)
  let inRange := decide (1 ≤ r) && decide (r < pN) && decide (1 ≤ s) && decide (s < pN)
  onCurve && inRange &&
    (let w := invMod pN s
     match ecAdd (ecMul 384 (digest * w % pN) (some pG)) (ecMul 384 (r * w % pN) (some (x, y))) with
     | some p => decide (p.1 % pN = r)
     | none => false)

/-- Whether the 96-byte signature verifies over a message under a 96-byte public key; each number is 48 bytes
little-endian (R814, R842). -/
def sigOk (pub sig msg : Bytes) : Bool :=
  ecdsaOk (fld pub 0 48) (fld pub 48 48) (fld sig 0 48) (fld sig 48 48) (beNat (sha384Bytes msg))

/-! ## AES-256-GCM -/

/-- A product in the field of AES. -/
def aesMul (a b : Nat) : Nat :=
  ((List.range 8).foldl (fun (p : Nat × Nat) i =>
    (if b.testBit i then p.1 ^^^ p.2 else p.1, if p.2.testBit 7 then (p.2 * 2) ^^^ 0x11B else p.2 * 2)) (0, a)).1

/-- a^254, the inverse in the field of AES (zero for zero). -/
def aesInv (a : Nat) : Nat := (List.range 253).foldl (fun x _ => aesMul x a) a

/-- The S-box. -/
def aesSbox (a : Nat) : Nat :=
  let x := aesInv a
  let r (k : Nat) : Nat := (x * 2 ^ k % 256) ||| (x / 2 ^ (8 - k))
  x ^^^ r 1 ^^^ r 2 ^^^ r 3 ^^^ r 4 ^^^ 0x63

/-- The S-box as a table. -/
def aesTable : List Nat := (List.range 256).map aesSbox

/-- One byte through the S-box. -/
def aesSub (t : List Nat) (b : Nat) : Nat := t.getD b 0

/-- Key words of AES-256, each four bytes; `l` holds the words so far, last first. -/
def aesExpand (t : List Nat) : Nat → Nat → List (List Nat) → List (List Nat)
  | 0, _, l => l.reverse
  | k + 1, i, l =>
    let prev := l.getD 0 []
    let rcon := (List.range (i / 8 - 1)).foldl (fun x _ => aesMul x 2) 1
    let tmp :=
      if i % 8 = 0 then
        let rot := prev.drop 1 ++ prev.take 1
        let sb := rot.map (aesSub t)
        (sb.headD 0 ^^^ rcon) :: sb.drop 1
      else if i % 8 = 4 then prev.map (aesSub t) else prev
    aesExpand t k (i + 1) (((l.getD 7 []).zip tmp).map (fun p => p.1 ^^^ p.2) :: l)

/-- The fifteen round keys of 16 bytes. -/
def aesKeys (t : List Nat) (key : Bytes) : List (List Nat) :=
  let ws := (List.range 8).map fun i => (slice key (4 * i) 4).map (·.toNat)
  let all := aesExpand t 52 8 ws.reverse
  (List.range 15).map fun r => ((all.drop (4 * r)).take 4).flatten

/-- Bytes XORed pairwise. -/
def xorNats (a b : List Nat) : List Nat := (a.zip b).map fun p => p.1 ^^^ p.2

/-- ShiftRows on a state in column order. -/
def aesShift (s : List Nat) : List Nat := (List.range 16).map fun i => s.getD ((i + 4 * (i % 4)) % 16) 0

/-- MixColumns. -/
def aesMix (s : List Nat) : List Nat :=
  (List.range 16).map fun i =>
    let c := i / 4 * 4
    let g (k : Nat) : Nat := s.getD (c + (i + k) % 4) 0
    aesMul 2 (g 0) ^^^ aesMul 3 (g 1) ^^^ g 2 ^^^ g 3

/-- AES-256 of one block. -/
def aesBlock (t : List Nat) (ks : List (List Nat)) (blk : List Nat) : List Nat :=
  let s0 := xorNats blk (ks.getD 0 [])
  let mid := (List.range 13).foldl (fun s r =>
    xorNats (aesMix (aesShift (s.map (aesSub t)))) (ks.getD (r + 1) [])) s0
  xorNats (aesShift (mid.map (aesSub t))) (ks.getD 14 [])

/-- A product in the field of GHASH; blocks are 128-bit numbers whose most significant bit is the standard's bit 0. -/
def ghMul (x y : Nat) : Nat :=
  ((List.range 128).foldl (fun (p : Nat × Nat) i =>
    (if x.testBit (127 - i) then p.1 ^^^ p.2 else p.1,
     if p.2.testBit 0 then (p.2 / 2) ^^^ (0xE1 * 2 ^ 120) else p.2 / 2)) (0, y)).1

/-- GHASH over a byte string padded to whole blocks; `k` bounds the blocks. -/
def ghash (h : Nat) : Nat → Nat → Bytes → Nat
  | 0, acc, _ => acc
  | k + 1, acc, bs => if bs.isEmpty then acc else ghash h k (ghMul (acc ^^^ beNat (slice bs 0 16)) h) (bs.drop 16)

/-- A byte string with zeros to a whole number of blocks. -/
def pad16 (bs : Bytes) : Bytes := bs ++ List.replicate ((16 - bs.length % 16) % 16) 0#8

/-- The key stream of counter mode XORed onto data, from counter value c; `k` bounds the blocks. -/
def gcmCtr (t : List Nat) (ks : List (List Nat)) (iv : Bytes) : Nat → Nat → Bytes → Bytes
  | 0, _, _ => []
  | k + 1, c, bs =>
    if bs.isEmpty then []
    else
      let s := aesBlock t ks ((iv ++ beBytes 4 c).map (·.toNat))
      ((bs.take 16).zip s).map (fun p => p.1 ^^^ BitVec.ofNat 8 p.2) ++ gcmCtr t ks iv k (c + 1) (bs.drop 16)

/-- The tag of AES-256-GCM over additional data and ciphertext. -/
def gcmTag (key iv aad ct : Bytes) : Bytes :=
  let t := aesTable
  let ks := aesKeys t key
  let h := beNat ((aesBlock t ks (List.replicate 16 0)).map (BitVec.ofNat 8))
  let body := pad16 aad ++ pad16 ct ++ beBytes 8 (8 * aad.length) ++ beBytes 8 (8 * ct.length)
  let g := ghash h (body.length + 1) 0 body
  gcmCtr t ks iv 1 1 (beBytes 16 g)

/-- AES-256-GCM encryption and decryption of a payload share the key stream from counter 2. -/
def gcmStream (key iv bs : Bytes) : Bytes :=
  let t := aesTable
  gcmCtr t (aesKeys t key) iv (bs.length + 1) 2 bs

/-! ## CRC-32 (R465) -/

/-- One bit of the reflected CRC-32. -/
def crc32Bit (c : BitVec 32) : BitVec 32 := if c.getLsbD 0 then (c >>> 1) ^^^ 0xEDB88320#32 else c >>> 1

/-- The CRC-32 of R465: polynomial 0x04C11DB7 reflected, initial value all ones, final inversion. -/
def crc32 (bs : Bytes) : BitVec 32 :=
  ~~~(bs.foldl (fun c x => (List.range 8).foldl (fun c _ => crc32Bit c) (c ^^^ x.zeroExtend 32)) 0xFFFFFFFF#32)

end Sys2Proof.Machine
end

