-- ==== Sys2Proof/Machine/Memory.lean ====
section
/-! DEFINITION. The physical address map, the interleave functions, the controller code of HBM lines and every access
to the stores behind a physical address (spec 07; region checks R826). -/

namespace Sys2Proof.Machine

/-! ## Address map (R320-R328) -/

/-- What a physical address names. -/
inductive Place where
  | hbm
  | sram (die off : Nat)
  | spm (die core off : Nat)
  | market (io off : Nat)
  | jd (off : Nat)
  | reg (u off : Nat)
  | none
  deriving DecidableEq, Repr

/-- Bytes of HBM (R1, R322). -/
def State.hbmBytes (s : State) : Nat := match s.fuse.kind with
  | .tq4 => 2 ^ 40
  | .tq4h => 2 ^ 39

/-- Whether unit window `u` belongs to a part of the package (R322). -/
def State.unitOn (s : State) (u : Nat) : Bool :=
  u < s.dies || u == 4 || (u == 5 && s.ios == 2) || u == 6

/-- What a physical address names (R320-R322). -/
def State.place (s : State) (a : Nat) : Place :=
  if a < s.hbmBytes then .hbm
  else if a < 0x100000000000 then .none
  else
    let u := (a - 0x100000000000) / 2 ^ 32
    let o := a % 2 ^ 32
    if 6 < u || !s.unitOn u then .none
    else if u ≤ 5 ∧ 0xC0000000 ≤ o ∧ o < 0xC1000000 then .reg u (o - 0xC0000000)
    else if u ≤ 3 then
      if o < 0x8000000 then .sram u o
      else if 0x10000000 ≤ o ∧ (o - 0x10000000) / 0x400000 < 96 ∧ (o - 0x10000000) % 0x400000 < 0x300000 then
        .spm u ((o - 0x10000000) / 0x400000) ((o - 0x10000000) % 0x400000)
      else .none
    else if u ≤ 5 then (if o < 0x2000000 then .market (u - 4) o else .none)
    else if o < 0x10000000 then .jd o else .none

/-- The stack and stack byte offset of an HBM address (R326-R328). -/
def State.stackOf (s : State) (a : Nat) : Nat × Nat :=
  if s.globalIl then
    (match s.fuse.kind with
     | .tq4 => ((a / 2 ^ 12 ^^^ a / 2 ^ 20 ^^^ a / 2 ^ 28 ^^^ a / 2 ^ 36) % 16, a / 2 ^ 16 * 2 ^ 12 + a % 2 ^ 12)
     | .tq4h => ((a / 2 ^ 12 ^^^ a / 2 ^ 20 ^^^ a / 2 ^ 28 ^^^ a / 2 ^ 36) % 8, a / 2 ^ 15 * 2 ^ 12 + a % 2 ^ 12))
  else
    let o := a % 2 ^ 38
    (4 * (a / 2 ^ 38 % 4) + (o / 2 ^ 12 ^^^ o / 2 ^ 20 ^^^ o / 2 ^ 28) % 4, o / 2 ^ 14 * 2 ^ 12 + o % 2 ^ 12)

/-- A stack controller. -/
def State.stackAt (s : State) (k : Nat) : StackSt := tget .reset s.stack k

/-- The package with a stack controller changed. -/
def State.modStack (s : State) (k : Nat) (f : StackSt → StackSt) : State :=
  { s with stack := tmod .reset s.stack k f }

/-- The granules that a byte range touches (R315). -/
def granules (a len : Nat) : List Nat :=
  if len = 0 then [] else (List.range ((a % 4096 + len + 4095) / 4096)).map fun i => a / 4096 * 4096 + 4096 * i

/-- Whether a stack serves requests: not shut down, not in self-refresh and not without power (R350, R351, R802,
R807). -/
def State.serves (s : State) (k : Nat) : Bool :=
  (s.stackAt k).band != .shutdown && !s.pmc.selfRefresh && !s.pmc.powerLost

/-- Whether every stack that a context's region reaches is in service (R350): a region is a number of GiB, so it reaches
every stack of a die whose HBM it meets. -/
def State.regionServed (s : State) (x : CtxSt) : Bool :=
  (List.range s.stacks).all fun k =>
    s.serves k || !(s.globalIl || (decide (x.base < 2 ^ 38 * (k / 4 + 1)) && decide (2 ^ 38 * (k / 4) < x.base + x.bytes)))

/-- Whether every stack that holds a byte of an HBM range is in service (R350). -/
def State.rangeUp (s : State) (a len : Nat) : Bool :=
  (granules a len).all fun g => s.place g != .hbm || s.serves (s.stackOf g).1

/-! ## The controller code (R331-R336) -/

/-- A product in GF(2^8) with the field polynomial of R331. -/
def gfMul (a b : Nat) : Nat :=
  ((List.range 8).foldl (fun (p : Nat × Nat) i =>
    (if b.testBit i then p.1 ^^^ p.2 else p.1, if p.2.testBit 7 then (p.2 * 2) ^^^ 0x11D else p.2 * 2)) (0, a)).1

/-- α to a power. -/
def gfPow : Nat → Nat
  | 0 => 1
  | n + 1 => gfMul (gfPow n) 2

/-- What decoding a line gives (R333). -/
inductive LineDec where
  | clean
  | corrected (sym flip : Nat)
  | bad
  deriving DecidableEq, Repr

/-- Syndrome k of an error pattern (R331). -/
def syndrome (errs : List (Nat × Nat)) (k : Nat) : Nat :=
  errs.foldl (fun a e => a ^^^ gfMul e.2 (gfPow (e.1 * k % 255))) 0

/-- The decoder of R333 on an error pattern: the pattern whose syndromes are those of one symbol is corrected. -/
def decodeLine (errs : List (Nat × Nat)) : LineDec :=
  if errs.isEmpty then .clean
  else
    let s := (List.range 4).map (syndrome errs)
    if s.all (· == 0) then .clean
    else
      let s0 := s.getD 0 0
      match (List.range 68).find? (fun j => s0 != 0 && (List.range 4).all fun k =>
          s.getD k 0 == gfMul s0 (gfPow (j * k % 255))) with
      | some j => .corrected j s0
      | none => .bad

/-- The symbols of a line that differ from its codeword. -/
def lineErrs (t : Tbl (BitVec 8)) (line : Nat) : List (Nat × Nat) :=
  (t.filter fun e => e.1 / 68 == line).map fun e => (e.1 % 68, e.2.toNat)

/-- The data bytes of a line as stored. -/
def lineData (m : MemSt) (line : Nat) : Bytes :=
  (List.range 64).map fun i => tget 0#8 m.hbm (64 * line + i) ^^^ tget 0#8 m.ecc (68 * line + 4 + i)

/-- The stores after the whole line is written with its check bytes (R332). -/
def writeLine (m : MemSt) (line : Nat) (bs : Bytes) : MemSt :=
  { m with hbm := wrBytes m.hbm (64 * line) bs, ecc := m.ecc.filter fun e => !(e.1 / 68 == line),
           errLane := m.errLane.filter fun e => !(e.1 / 68 == line) }

/-- The stores after symbols of lines are corrupted; lines count from `line0`. -/
def corrupt (m : MemSt) (line0 : Nat) (errs : List SymErr) : MemSt :=
  let key (e : SymErr) : Nat := 68 * (line0 + e.line) + e.sym.val
  { m with ecc := errs.foldl (fun t e => tmod 0#8 t (key e) (· ^^^ e.flip)) m.ecc,
           errLane := errs.foldl (fun t e => tset 0#12 t (key e) e.lane) m.errLane }

/-- The number of ones of a byte. -/
def popCount (b : Byte) : Nat := ((List.range 8).filter fun i => b.getLsbD i).length

/-- Corrected bit errors of one data lane counted over one second (R344); the 65th reports the lane. -/
def State.laneError (s : State) (k : Nat) (lane n : Nat) : State :=
  let now := s.stb.ticks
  let old := (tget [] (s.stackAt k).laneCnt lane).filter fun t => decide (now - t < 100000000)
  let l := old ++ List.replicate n now
  if 64 < l.length then
    (s.modStack k fun t => { t with laneCnt := tset [] t.laneCnt lane [] }).wire
      { cls := 0x10, lkind := 3, locus := BitVec.ofNat 32 (k + 16 * lane), addr := 0, tags := [], all := false, detail := 0 }
  else s.modStack k fun t => { t with laneCnt := tset [] t.laneCnt lane l }

/-- A saturating counter of `w` bits with one more. -/
def satInc {w : Nat} (c : BitVec w) : BitVec w := if c = BitVec.allOnes w then c else c + 1

/-- MEM_ECC_LOG's value for a line (R354). -/
def eccLogOf (f : Nat) (scrub : Bool) : BitVec 64 :=
  BitVec.ofNat 64 (f / 64 * 64 % 2 ^ 36 + 2 ^ 36 * b2n scrub + 2 ^ 37)

/-- Whether a register of captures holds one. -/
def eccHeld (l : BitVec 64) : Bool := l.getLsbD 37

/-- The package after the controller meets an uncorrectable line (R335, R339): counted, captured, reported. -/
def State.lineBad (s : State) (line : Nat) (n : Option (BitVec 64)) (scrub : Bool) : State :=
  let p := s.stackOf (64 * line)
  let log := eccLogOf p.2 scrub
  let s := s.modStack p.1 fun k =>
    { k with ueCnt := satInc k.ueCnt, log := if eccHeld k.log then k.log else log }
  let r : FaultReport :=
    { cls := 4, lkind := 3, locus := BitVec.ofNat 32 (p.1 + 16 * 0xFFF), addr := BitVec.ofNat 64 (p.2 / 64 * 64),
      tags := n.toList, all := scrub, detail := (s.stackAt p.1).log }
  s.wire r

/-- Reads one line (R333-R335, R344): the bytes delivered, and the package after counts, write-back and reports. -/
def State.readLine (s : State) (line : Nat) (n : Option (BitVec 64)) (scrub : Bool) : State × Bytes × LineDec :=
  let d := decodeLine (lineErrs s.mem.ecc line)
  let data := lineData s.mem line
  match d with
  | .clean => (s, data, d)
  | .corrected j v =>
    let fixed := if 4 ≤ j then data.set (j - 4) (data.getD (j - 4) 0#8 ^^^ BitVec.ofNat 8 v) else data
    let p := s.stackOf (64 * line)
    let lane := tget 0#12 s.mem.errLane (68 * line + j)
    let s := ({ s with mem := writeLine s.mem line fixed }).modStack p.1 fun k => { k with ceCnt := satInc k.ceCnt }
    (s.laneError p.1 lane.toNat (popCount (BitVec.ofNat 8 v)), fixed, d)
  | .bad => (s.lineBad line n scrub, data, d)

/-- Reads HBM line by line. -/
def State.hbmLines (s : State) (n : Option (BitVec 64)) (scrub : Bool) : List Nat → State × Bytes × List LineDec
  | [] => (s, [], [])
  | l :: r =>
    let a := s.readLine l n scrub
    let b := a.1.hbmLines n scrub r
    (b.1, a.2.1 ++ b.2.1, a.2.2 :: b.2.2)

/-- The lines that a byte range touches. -/
def linesOf (a len : Nat) : List Nat :=
  if len = 0 then [] else (List.range ((a % 64 + len + 63) / 64)).map fun i => a / 64 + i

/-- Reads `len` bytes of HBM at an address. -/
def State.hbmRead (s : State) (n : Option (BitVec 64)) (a len : Nat) : State × Bytes :=
  let r := s.hbmLines n false (linesOf a len)
  (r.1, (r.2.1.drop (a % 64)).take len)

/-- Writes part or all of one line (R317, R336): a part of a line whose read is uncorrectable writes nothing. -/
def State.hbmWriteLine (s : State) (n : Option (BitVec 64)) (line off : Nat) (bs : Bytes) : State :=
  if bs.length = 64 then { s with mem := writeLine s.mem line bs }
  else
    let r := s.readLine line n false
    match r.2.2 with
    | .bad => r.1
    | _ => { r.1 with mem := writeLine r.1.mem line (splice r.2.1 off bs) }

/-- Writes bytes of HBM; `fuel` bounds the lines touched. -/
def State.hbmWriteGo (s : State) (n : Option (BitVec 64)) : Nat → Nat → Bytes → State
  | 0, _, _ => s
  | fuel + 1, a, bs =>
    if bs.isEmpty then s
    else
      let k := 64 - a % 64
      (s.hbmWriteLine n (a / 64) (a % 64) (bs.take k)).hbmWriteGo n fuel (a + k) (bs.drop k)

/-- Writes a byte string to HBM. -/
def State.hbmWrite (s : State) (n : Option (BitVec 64)) (a : Nat) (bs : Bytes) : State :=
  s.hbmWriteGo n (bs.length + 1) a bs

/-! ## Region checks (R669, R826) -/

/-- Bytes of the save area (R669). -/
def State.saveBytes (s : State) : Nat := match s.fuse.kind with
  | .tq4 => 1792 * 2 ^ 20
  | .tq4h => 896 * 2 ^ 20

/-- Bytes of a context's reserve (R669). -/
def State.reserveBytes (s : State) (x : CtxSt) : Nat := s.saveBytes + 2 * (x.imgMib + x.cfgMib) * 2 ^ 20

/-- Whether an HBM range lies in a context's region below its reserve. -/
def State.inRegion (s : State) (x : CtxSt) (a len : Nat) : Bool :=
  decide (x.base ≤ a) && decide (a + len ≤ x.base + x.bytes - s.reserveBytes x)

/-- The context against which an access is checked (R826). -/
def State.ctxOf (s : State) (who : Issuer) : Option CtxSt :=
  match who with
  | .engine _ => s.resident.map fun c => s.ctxAt c.val
  | .command c => some (s.ctxAt c.val)

/-- Whether an access is allowed: a range of HBM inside the region, or a range of one other store. -/
def State.allowed (s : State) (who : Issuer) (a len : Nat) : Bool :=
  match s.place a with
  | .hbm => (match s.ctxOf who with
    | some x => s.inRegion x a len
    | none => false)
  | .none => false
  | .reg _ _ => false
  | .jd _ => false
  | _ => true

/-- The package after an access that is not performed (R826). -/
def State.violate (s : State) (who : Issuer) (n : Option (BitVec 64)) : State :=
  let s := { s with sec := { s.sec with regionViol := true } }
  match who with
  | .engine e =>
    let l := s.engLocus e
    s.wire { cls := 2, lkind := BitVec.ofNat 8 l.1, locus := l.2, addr := 0, tags := n.toList, all := false, detail := 0 }
  | .command _ => s

/-- The parity keys of a byte range at a physical address (R720): HBM bytes carry the controller code instead. -/
def State.parRange (s : State) (a len : Nat) : List (Nat × Nat) :=
  match s.place a with
  | .sram d o => [(parSram d o, len)]
  | .spm d c o => [((d * 128 + s.physOf d c) * 2 ^ 22 + o, len)]
  | .market io o => [(parMarket io o, len)]
  | _ => []

/-- Reads bytes of a store at a physical address (R322): HBM, die SRAM, a scratchpad or a Market. The reader checks the
parity of bytes that carry it (R722). -/
def State.memRead (s : State) (e : Option EngRef) (n : Option (BitVec 64)) (a len : Nat) : State × Bytes :=
  let t := s.parFaults e n (s.parBad (s.parRange a len))
  match s.place a with
  | .hbm => s.hbmRead n a len
  | .sram d o => (t, s.sramRead d o len)
  | .spm d c o => (t, s.mem.spm.read 0 ((d * 128 + s.physOf d c) * 2 ^ 22 + o) len)
  | .market io o => (t, rdBytes s.mem.market (io * 2 ^ 25 + o) len)
  | _ => (s, List.replicate len 0#8)

/-- The package with bytes of a Market written (R721). -/
def State.marketWrite (s : State) (io off : Nat) (bs : Bytes) : State :=
  { s with mem := { s.mem with market := wrBytes s.mem.market (io * 2 ^ 25 + off) bs,
                               par := (s.mem.generate (parMarket io off) bs.length).par } }

/-- Writes bytes of a store at a physical address (R322). -/
def State.memWrite (s : State) (n : Option (BitVec 64)) (a : Nat) (bs : Bytes) : State :=
  match s.place a with
  | .hbm => s.hbmWrite n a bs
  | .sram d o => s.sramWrite d o bs
  | .spm d c o =>
    let k := (d * 128 + s.physOf d c) * 2 ^ 22 + o
    { s with mem := { s.mem with spm := s.mem.spm.write k bs, par := (s.mem.generate k bs.length).par } }
  | .market io o => s.marketWrite io o bs
  | _ => s

/-- Reads bytes at a physical address for an engine or a command (R826). -/
def State.physRead (s : State) (who : Issuer) (n : Option (BitVec 64)) (a len : Nat) : State × Bytes :=
  if len = 0 then (s, [])
  else if !s.allowed who a len then (s.violate who n, List.replicate len 0#8)
  else s.memRead (match who with
    | .engine e => some e
    | .command _ => none) n a len

/-- Writes bytes at a physical address for an engine or a command (R826). -/
def State.physWrite (s : State) (who : Issuer) (n : Option (BitVec 64)) (a : Nat) (bs : Bytes) : State :=
  if bs.isEmpty then s
  else if !s.allowed who a bs.length then s.violate who n
  else s.memWrite n a bs

/-! ## JD and host memory -/

/-- Bytes of the JD (R30). The background is zero. -/
def State.jdRead (s : State) (off len : Nat) : Bytes := rdBytes s.mem.jd off len

/-- The package with bytes of the JD written. -/
def State.jdWrite (s : State) (off : Nat) (bs : Bytes) : State :=
  { s with mem := { s.mem with jd := wrBytes s.mem.jd off bs } }

/-- Whether a range of host memory answers (R650, R657). -/
def State.hostOk (s : State) (a len : Nat) : Bool :=
  decide (a + len ≤ 2 ^ 64) && s.mem.hostHoles.all fun h => decide (a + len ≤ h.1) || decide (h.1 + h.2 ≤ a)

/-- Bytes of host memory. -/
def State.hostRead (s : State) (a len : Nat) : Bytes := rdBytes s.mem.host a len

/-- The package with bytes of host memory written. -/
def State.hostWrite (s : State) (a : Nat) (bs : Bytes) : State :=
  { s with mem := { s.mem with host := wrBytes s.mem.host a bs } }

end Sys2Proof.Machine
end

