-- ==== Sys2Proof/Machine/Net.lean ====
section
/-! DEFINITION. Link groups and routes (R496-R503, R514), messages put on a member's queue with their numbers and
encryption (R469-R473, R827-R829), and the Market's allotments (R383-R390). -/

namespace Sys2Proof.Machine

/-! ## Members and groups -/

/-- A link member. -/
def State.memberAt (s : State) (m : Nat) : MemberSt := tget .reset s.net.member m

/-- The package with a member changed. -/
def State.modMember (s : State) (m : Nat) (f : MemberSt → MemberSt) : State :=
  { s with net := { s.net with member := tmod .reset s.net.member m f } }

/-- The role and member number of Avenue link j (R496, R520): roles 0-5 are X+ to Z-, 6 bypass, 7 host and storage. -/
def roleOf (k : PartKind) (j : Nat) : Nat × Nat :=
  match k with
  | .tq4 =>
    if j < 6 then (j, 0)
    else if j = 6 then (0, 2) else if j = 7 then (1, 2) else if j = 8 then (2, 2)
    else if j = 9 then (6, 0) else if j = 10 then (6, 1) else if j = 11 then (7, 0)
    else if j < 18 then (j - 12, 1)
    else if j = 18 then (3, 2) else if j = 19 then (4, 2) else if j = 20 then (5, 2)
    else if j = 21 then (6, 2) else if j = 22 then (6, 3) else (7, 1)
  | .tq4h =>
    if j < 4 then (j, 0) else if j < 8 then (j - 4, 1) else if j < 10 then (6, j - 8) else (7, j - 10)

/-- The role of a link of this part. -/
def State.role (s : State) (j : Nat) : Nat × Nat := roleOf s.fuse.kind j

/-- The topology section in force (R518). -/
def State.topoCfg (s : State) : Option TopoCfg :=
  s.cur.bind fun c => c.2.cfg.map (·.topo)

/-- The direction that a bypass link stands in for (R514): 0-5, none where unused. -/
def TopoCfg.standIn (t : TopoCfg) (bp : Nat) : Option Nat :=
  let v := t.bypass.getD bp 0
  if v = 0 then none else some (v - 1)

/-- The group of link j: 0-5 a torus direction, 6 HS0, 7 HS1 (R517, R829). -/
def State.groupOf (s : State) (j : Nat) : Option Nat :=
  let r := s.role j
  match s.topoCfg with
  | none => if r.1 = 7 then some (6 + r.2) else none
  | some t =>
    if r.1 = 7 then some (6 + r.2)
    else if r.1 = 6 then t.standIn r.2
    else if (List.range 4).any (fun b => t.standIn b == some r.1) then none else some r.1

/-- Whether the configuration in force enables link j. -/
def State.enabled (s : State) (j : Nat) : Bool :=
  match s.topoCfg with
  | none => false
  | some t => t.memberEn.getLsbD j

/-- The members of a group, lowest member number first (R496). -/
def State.members (s : State) (g : Nat) : List Nat :=
  (List.range 4).flatMap fun i =>
    (List.range s.links).filter fun j => s.groupOf j == some g && s.enabled j && (s.role j).2 == i

/-- The extents of axis `a` (0 X, 1 Y, 2 Z). -/
def Vec3.axis (v : Vec3) (a : Nat) : Nat := if a = 0 then v.x else if a = 1 then v.y else v.z

/-- Whether direction d has a neighbour in the job (R499). -/
def TopoCfg.faces (t : TopoCfg) (d : Nat) : Bool :=
  let a := d / 2
  let e := t.ext.axis a
  let here := t.self.axis a
  if e ≤ 1 then false
  else if e = t.sys.axis a then true
  else if d % 2 = 0 then decide (here + 1 < e) else decide (0 < here)

/-- The neighbour's coordinate on the axis of direction d. -/
def TopoCfg.step (t : TopoCfg) (v : Vec3) (d : Nat) : Vec3 :=
  let a := d / 2
  let e := t.ext.axis a
  let n := if d % 2 = 0 then (v.axis a + 1) % e else (v.axis a + e - 1) % e
  if a = 0 then { v with x := n } else if a = 1 then { v with y := n } else { v with z := n }

/-- The way along axis a from one coordinate to another (R500): fewer hops on a wrapped axis, positive when equal. -/
def TopoCfg.along (t : TopoCfg) (a src dst : Nat) : Option Nat :=
  if src = dst then none
  else
    let e := t.ext.axis a
    if e = t.sys.axis a then
      let fwd := (dst + e - src) % e
      some (2 * a + if fwd ≤ e - fwd then 0 else 1)
    else some (2 * a + if src < dst then 0 else 1)

/-- The first direction of a path in the order of axes given (R500, R438, R512). -/
def TopoCfg.firstDir (t : TopoCfg) (order : List Nat) (src dst : Vec3) : Option Nat :=
  order.findSome? fun a => t.along a (src.axis a) (dst.axis a)

/-- Whether a member carries traffic: both of its ends are active (R477, R484). -/
def MemberSt.inService (x : MemberSt) : Bool := x.st == .active && x.peer == 0

/-- Whether a member retrains, at this end or at its partner's. -/
def MemberSt.retrains? (x : MemberSt) : Bool := x.st == .retraining || (x.st == .active && x.peer == 1)

/-- Members of a group that are active. -/
def State.actives (s : State) (g : Nat) : List Nat := (s.members g).filter fun j => (s.memberAt j).inService

/-- Members of a group that are retraining. -/
def State.retrainers (s : State) (g : Nat) : List Nat := (s.members g).filter fun j => (s.memberAt j).retrains?

/-- Whether a torus group is down (R511). -/
def State.groupDown (s : State) (g : Nat) : Bool := (s.actives g).isEmpty && (s.retrainers g).isEmpty

/-- The member that carries a group's next message (R486, R501): the lowest-numbered active member, else a retraining
one, else the first member, where the message waits (assumption log 16). -/
def State.carrier (s : State) (g : Nat) : Option Nat :=
  match s.actives g, s.retrainers g, s.members g with
  | j :: _, _, _ => some j
  | [], j :: _, _ => some j
  | [], [], j :: _ => some j
  | [], [], [] => none

/-! ## Messages (R469-R473) -/

/-- The fields of a message header (R470). -/
structure MsgHdr where
  dst : Vec3
  cls : Nat
  len : Nat
  phase : Nat
  job : Nat
  seq : Nat
  epoch : Nat
  enc : Bool
  deriving DecidableEq, Repr

/-- The header as its 128 bits. -/
def MsgHdr.pack (h : MsgHdr) : BitVec 128 :=
  BitVec.ofNat 128 (h.dst.x % 32 + 2 ^ 5 * (h.dst.y % 32) + 2 ^ 10 * (h.dst.z % 32) + 2 ^ 15 * (h.cls % 16)
    + 2 ^ 19 * (h.len % 2 ^ 13) + 2 ^ 32 * (h.phase % 256) + 2 ^ 40 * (h.job % 2 ^ 16) + 2 ^ 56 * (h.seq % 2 ^ 16)
    + 2 ^ 72 * (h.epoch % 2 ^ 16) + 2 ^ 88 * b2n h.enc)

/-- The fields of 128 header bits. -/
def msgHdr (b : BitVec 128) : MsgHdr :=
  let v := b.toNat
  { dst := { x := bits v 4 0, y := bits v 9 5, z := bits v 14 10 }, cls := bits v 18 15, len := bits v 31 19,
    phase := bits v 39 32, job := bits v 55 40, seq := bits v 71 56, epoch := bits v 87 72, enc := bitOf v 88 }

/-- Where the numbering of a stream lies: context, group, VC, class. -/
def streamKey (c g vc cls : Nat) : Nat := ((c * 8 + g) * 8 + vc) * 16 + cls

/-- A message stream. -/
def State.streamAt (s : State) (k : Nat) : StreamSt := tget .reset s.net.stream k

/-- The package with a stream changed. -/
def State.modStream (s : State) (k : Nat) (f : StreamSt → StreamSt) : State :=
  { s with net := { s.net with stream := tmod .reset s.net.stream k f } }

/-- Whether a context encrypts messages of a VC (R827). -/
def LsecSt.covers (l : LsecSt) (vc : Nat) : Bool :=
  l.en && (decide (2 ≤ vc ∧ vc ≤ 4) || (vc == 5 && l.hs))

/-- The GCM nonce (R829). -/
def gcmNonce (xseq epoch : Nat) (v : Vec3) (dir vc cls : Nat) : Bytes :=
  leBytes 12 (xseq % 2 ^ 55 + 2 ^ 55 * epoch + 2 ^ 71 * v.x + 2 ^ 76 * v.y + 2 ^ 81 * v.z + 2 ^ 86 * dir
    + 2 ^ 89 * vc + 2 ^ 92 * cls)

/-- A message queued on a member. -/
def State.enqueue (s : State) (m vc : Nat) (t : TxMsg) : State :=
  s.modMember m fun x => { x with queue := tmod [] x.queue vc (· ++ [t]) }

/-- The next message number of a stream, taken (R472, R830). -/
def State.takeSeq (s : State) (k : Nat) : State × Nat :=
  let n := (s.streamAt k).out
  (s.modStream k fun t => { t with out := n + 1 }, n)

/-- A message that waits to be sent. -/
def plainMsg (hdr : BitVec 128) (payload : Bytes) : TxMsg :=
  { hdr := hdr, payload := payload, sent := 0, detour := false, fwd := false, upper := false, par := [] }

/-- The next message of a stream, formed and numbered (R470, R472, R827, R828). -/
def State.formMsg (s : State) (c : Nat) (x : CtxSt) (cfg : JobCfg) (g vc cls phase : Nat) (dst : Vec3)
    (payload : Bytes) : State × TxMsg :=
  let q := s.takeSeq (streamKey c g vc cls)
  let n := q.2
  let enc := x.lsec.covers vc
  let f : MsgHdr :=
    { dst := dst, cls := cls, len := payload.length, phase := phase, job := cfg.job.toNat, seq := n % 65536,
      epoch := x.epoch.toNat, enc := enc }
  let h := f.pack
  let body :=
    if enc then
      let key := leBytes 32 x.lsec.key.toNat
      let iv := gcmNonce n x.epoch.toNat cfg.topo.self g vc cls
      let ct := gcmStream key iv payload
      ct ++ gcmTag key iv (leBytes 16 h.toNat) ct
    else payload
  (q.1, plainMsg h body)

/-- A message of the resident context sent on group g (R484, R501). -/
def State.sendOn (s : State) (g vc cls phase : Nat) (dst : Vec3) (payload : Bytes) : State :=
  match s.cur, s.carrier g with
  | some (c, x), some m =>
    (match x.cfg with
     | none => s
     | some cfg =>
       let r := s.formMsg c.val x cfg g vc cls phase dst payload
       r.1.enqueue m vc r.2)
  | _, _ => s

/-- The direction in which a VC0 or VC1 message for `dst` leaves this package (R500, R512): a VC0 message whose group
is down takes Z, Y, X, and the other way round the ring of the down axis where it is wrapped. -/
def State.routeDir (s : State) (t : TopoCfg) (vc : Nat) (dst : Vec3) : Option (Nat × Bool) :=
  match t.firstDir [0, 1, 2] t.self dst with
  | none => none
  | some d =>
    if vc = 0 && s.groupDown d then
      (match t.firstDir [2, 1, 0] t.self dst with
       | none => some (d, false)
       | some e =>
         if e / 2 = d / 2 then
           (if t.ext.axis (d / 2) = t.sys.axis (d / 2) then some (d / 2 * 2 + (1 - d % 2), true) else some (d, false))
         else some (e, true))
    else some (d, false)

/-- The way onward of a VC0 or VC1 message that has arrived on group g (R475, R512). One that would go back, or that has
come along a later axis while an earlier one is left, is on a detour: it keeps to its way round the ring, or to Z, Y, X,
and takes no second detour (assumption log 70). -/
def State.routeOn (s : State) (t : TopoCfg) (vc : Nat) (dst : Vec3) (g : Option Nat) : Option (Nat × Bool) :=
  match t.firstDir [0, 1, 2] t.self dst, g with
  | some d, some a =>
    if vc ≠ 0 ∨ 6 ≤ a then s.routeDir t vc dst
    else if d = a then some (a / 2 * 2 + (1 - a % 2), true)
    else if d / 2 < a / 2 then (t.firstDir [2, 1, 0] t.self dst).map fun e => (e, true)
    else s.routeDir t vc dst
  | _, _ => s.routeDir t vc dst

/-- A message that a package has formed goes out on a group, under the numbering of that group (R472, R475): nothing
else of its header changes. -/
def State.sendOnward (s : State) (g vc : Nat) (detour : Bool) (t : TxMsg) : State :=
  match s.resident, s.carrier g with
  | some c, some m =>
    let h := msgHdr t.hdr
    let q := s.takeSeq (streamKey c.val g vc h.cls)
    q.1.enqueue m vc { t with hdr := ({ h with seq := q.2 % 65536 } : MsgHdr).pack, sent := 0, detour := detour }
  | _, _ => s

/-- Town Hall sends a VC0 message to one package of the job. -/
def State.sendTo (s : State) (vc cls phase : Nat) (dst : Vec3) (payload : Bytes) : State :=
  match s.topoCfg with
  | none => s
  | some t =>
    (match s.routeDir t vc dst with
     | none => s
     | some (g, _) => s.sendOn g vc cls phase dst payload)

/-- Every package of the job but this one, in coordinate order. -/
def TopoCfg.others (t : TopoCfg) : List Vec3 :=
  ((List.range (t.ext.x * t.ext.y * t.ext.z)).map fun i =>
    ({ x := i % t.ext.x, y := i / t.ext.x % t.ext.y, z := i / (t.ext.x * t.ext.y) } : Vec3)).filter (· != t.self)

/-- A VC0 message to every package of the job. -/
def State.sendAll (s : State) (cls : Nat) (payload : Bytes) : State :=
  match s.topoCfg with
  | none => s
  | some t => t.others.foldl (fun s v => s.sendTo 0 cls 0 v payload) s

/-- First byte of the payloads that Town Halls exchange on VC0: the spec names the messages and leaves their layout
open (assumption log 17). -/
def tagAbort : Byte := 1#8
/-- A package digest (R76). -/
def tagDigest : Byte := 2#8
/-- An anchor contribution (R440). -/
def tagAnchor : Byte := 3#8
/-- PACE (R449). -/
def tagPace : Byte := 4#8
/-- READY (R450). -/
def tagReady : Byte := 5#8

/-- The first 16 bytes of a payload of a step: its tag, the coordinates of the package that sends it, and the step. -/
def tagBytes (tag : Byte) (v : Vec3) (n : BitVec 64) : Bytes :=
  [tag, BitVec.ofNat 8 v.x, BitVec.ofNat 8 v.y, BitVec.ofNat 8 v.z, 0#8, 0#8, 0#8, 0#8] ++ leBytes 8 n.toNat

/-- The eight bytes that a package sent this one under a tag for a step, where they have arrived: a digest (R76) or a
time (R440). -/
def State.heardFrom (s : State) (tag : Byte) (n : BitVec 64) (v : Vec3) : Option (BitVec 64) :=
  (s.net.delivered.find? fun r => r.vc == 0 && r.payload.take 16 == tagBytes tag v n).map fun r =>
    BitVec.ofNat 64 (fld r.payload 16 8)

/-- Whether a delivered VC0 payload belongs to a run of a step: a digest or an anchor contribution. -/
def RxMsg.ofRun (r : RxMsg) : Bool :=
  r.vc == 0 && (msgHdr r.hdr).cls != 15 && (r.payload.headD 0#8 == tagDigest || r.payload.headD 0#8 == tagAnchor)

/-- Whether a delivered VC0 payload has a tag and, at bytes 8-15, a step. -/
def RxMsg.tagged (r : RxMsg) (tag : Byte) (step : BitVec 64) : Bool :=
  r.vc == 0 && r.payload.headD 0#8 == tag && fld r.payload 8 8 == step.toNat

/-- The package after Town Hall takes delivered messages. -/
def State.consume (s : State) (p : RxMsg → Bool) : State :=
  { s with net := { s.net with delivered := s.net.delivered.filter fun r => !p r } }

/-! ## Market allotments (R383-R390) -/

/-- The minimum allotments of an I/O die. -/
def minAllocs : List Alloc :=
  (List.range 72).map fun i =>
    let j := i / 6
    let v := i % 6
    { stage := false, link := j, vc := v, cls := 0,
      first := 112 * j + (if v = 0 then 0 else 32 + 16 * (v - 1)), count := if v = 0 then 32 else 16 }

/-- The LINK entries of an I/O die placed from buffer `at_` (R387). -/
def placeLinks (io : Nat) : Nat → List MktEnt → List Alloc
  | _, [] => []
  | at_, e :: r =>
    if e.kind = 1 ∧ e.io = io then
      let js := (List.range 12).filter fun j => e.links.getLsbD j
      (js.zipIdx.map fun p =>
        ({ stage := false, link := p.1, vc := e.vc, cls := e.cls, first := at_ + p.2 * e.buffers,
           count := e.buffers } : Alloc)) ++ placeLinks io (at_ + js.length * e.buffers) r
    else placeLinks io at_ r

/-- The STAGE entries of an I/O die placed down from buffer `top` (R387). -/
def placeStages (io : Nat) : Nat → List MktEnt → List Alloc
  | _, [] => []
  | top, e :: r =>
    if e.kind = 2 ∧ e.io = io then
      { stage := true, link := 0, vc := 0, cls := 0, first := top - e.buffers, count := e.buffers }
        :: placeStages io (top - e.buffers) r
    else placeStages io top r

/-- The LINK and STAGE allotments of a Market section. -/
def placeMarket (io : Nat) (es : List MktEnt) : List Alloc := placeLinks io 1344 es ++ placeStages io 8192 es

/-- Buffers in no allotment (R388, R400). -/
def idleBuffers (as : List Alloc) : Nat := 8192 - 1344 - sumNat (as.map (·.count))

/-- The Market of an I/O die. -/
def State.mktAt (s : State) (io : Nat) : MktSt := tget .reset s.net.mkt io

/-- The package with a Market changed. -/
def State.modMkt (s : State) (io : Nat) (f : MktSt → MktSt) : State :=
  { s with net := { s.net with mkt := tmod .reset s.net.mkt io f } }

/-- The allotment that takes a message (R389). -/
def MktSt.allotFor (k : MktSt) (j vc cls : Nat) : Option Alloc :=
  match k.allocs.find? fun a => !a.stage && a.link == j && a.vc == vc && a.cls == cls && cls != 0 with
  | some a => some a
  | none => minAllocs.find? fun a => a.link == j && a.vc == vc

/-- A free buffer of an allotment. -/
def MktSt.freeBuf (k : MktSt) (a : Alloc) : Option Nat :=
  (List.range a.count).findSome? fun i => if k.busy.contains (a.first + i) then none else some (a.first + i)

/-- A partition brought into force with nothing in use (R393). -/
def MktSt.activate (k : MktSt) (io : Nat) (es : List MktEnt) : MktSt :=
  let as := placeMarket io es
  { k with allocs := as, pendCfg := none, idle := idleBuffers as }

/-- The key of a (VC, class) pair in the credit tables of a member. -/
def credKey (vc cls : Nat) : Nat := vc * 16 + cls

/-- The cumulative count of the credits granted on link m for an allotment becomes `v`, and a CREDIT record is due (R390,
R477). The class of a grant is that of the allotment. -/
def MemberSt.setGrant (x : MemberSt) (vc cls v : Nat) : MemberSt :=
  let rec_ : BitVec 128 := BitVec.ofNat 128 (3 + 2 ^ 8 * vc + 2 ^ 16 * cls + 2 ^ 32 * (v % 2 ^ 32))
  { x with granted := tset 0 x.granted (credKey vc cls) (v % 2 ^ 32),
           ctrl := (x.ctrl.filter fun r => !(r.toNat % 2 ^ 24 == rec_.toNat % 2 ^ 24)) ++ [rec_] }

/-- Credits are granted on link m for an allotment (R390). -/
def State.grant (s : State) (m vc cls n : Nat) : State :=
  s.modMember m fun x => x.setGrant vc cls (tget 0 x.granted (credKey vc cls) + n)

/-- A Market buffer is freed and its credit returned, unless a swap waits for a LINK allotment (R391, R393). -/
def State.freeBuffer (s : State) (io j vc b : Nat) : State :=
  let k := s.mktAt io
  let a := (k.allocs ++ minAllocs).find? fun a => !a.stage && decide (a.first ≤ b) && decide (b < a.first + a.count)
  let s := s.modMkt io fun k => { k with busy := k.busy.filter (· != b) }
  match a with
  | none => s
  | some a => if a.cls ≠ 0 && k.pendCfg.isSome then s else s.grant (12 * io + j) vc a.cls 1

/-- The buffer that a message or a piece of one holds is freed. -/
def State.freeOf (s : State) (link vc : Nat) (buf : Option Nat) : State :=
  match buf with
  | some b => s.freeBuffer (link / 12) (link % 12) vc b
  | none => s

/-- Whether a message of VC0 comes from a run that an abort epoch has ended (R418, R474). -/
def RxMsg.older (r : RxMsg) (e : BitVec 16) : Bool := r.vc == 0 && (msgHdr r.hdr).cls != 15 && decide ((msgHdr r.hdr).epoch < e.toNat)

/-- The streams of a context start again at each change of abort epoch (R472, R829); what they hold back is dropped. -/
def State.clearStreams (s : State) (c : Nat) : State :=
  let mine := s.net.stream.filter fun e => e.1 / 1024 == c
  let s := (mine.flatMap fun e => e.2.held).foldl (fun (a : State) r => a.freeOf r.link r.vc r.buf) s
  { s with net := { s.net with stream := s.net.stream.filter fun e => !(e.1 / 1024 == c) } }

/-- The credits of every allotment of link m (R390, R393, R488): as many in all as messages have taken buffers and as
buffers are free. -/
def State.grantAll (s : State) (m : Nat) (cls0 : Bool) : State :=
  let io := m / 12
  let k := s.mktAt io
  (k.allocs ++ (if cls0 then minAllocs else [])).foldl (fun s a =>
    if a.stage || a.link != m % 12 then s
    else
      let used := (k.busy.filter fun b => decide (a.first ≤ b ∧ b < a.first + a.count)).length
      s.modMember m fun x => x.setGrant a.vc a.cls (tget 0 x.taken (credKey a.vc a.cls) + (a.count - used))) s

end Sys2Proof.Machine
end

