-- ==== Sys2Proof/Machine/Request.lean ====
section
/-! DEFINITION. Requests at the stack controllers: their slots, their order and their effect (R315-R319, R333-R336,
R350, R351, R380-R382, R395). -/

namespace Sys2Proof.Machine

/-- Whether a request keeps to one granule (R315). -/
def reqInGranule (r : HbmReq) : Bool :=
  decide (1 ≤ r.len) && decide (r.addr.toNat % 4096 + r.len ≤ 4096) && match r.write with
    | some w => w.length == r.len
    | none => true

/-- A request takes effect: a read gives its bytes, a write stores them (R316, R317, R334-R336). -/
def State.doReq (s : State) (k : Nat) (r : HbmReq) : State :=
  let a := r.addr.toNat
  let s := { s with mem := corrupt s.mem (a / 64) r.err }
  match r.write with
  | some w => s.hbmWrite r.step a w
  | none =>
    let x := s.hbmRead r.step a r.len
    x.1.modStack k fun t => { t with readData := x.2 }

/-- The descriptor in a slot of a core's Move Engine. -/
def CoreSt.slot (k : CoreSt) (i : Nat) : Option MeDescSt := tget none k.meDescs i

/-- FLAGS.PF of a descriptor (R358). -/
def descPf (d : BitVec 512) : Bool := d.getLsbD 8

/-- Whether a request is a prefetch request: it is of an outstanding descriptor with PF = 1 (R380). -/
def State.isPrefetch (s : State) (r : HbmReq) : Bool :=
  match r.issuer, r.slot with
  | .engine e, some i =>
    e.eng == .me && ((s.coreAt { die := e.die, core := e.core }).slot i.val).any fun m => descPf m.desc
  | _, _ => false

/-- Whether a controller has no slot for a request: 256 are taken, or 192 by prefetch requests (R381, R395). -/
def StackSt.full (t : StackSt) (pf : Bool) : Bool :=
  decide (256 ≤ t.queue.length) || (pf && decide (192 ≤ (t.queue.filter (·.pf)).length))

/-- Whether two requests of one engine touch one line (R318). -/
def sharesLine (a b : HbmReq) : Bool :=
  a.issuer == b.issuer && (linesOf a.addr.toNat a.len).any fun l => (linesOf b.addr.toNat b.len).contains l

/-- Requests take effect in order. -/
def State.perform (s : State) (k : Nat) (qs : List QueuedReq) : State := qs.foldl (fun (a : State) q => a.doReq k q.req) s

/-- A request reaches its controller. Without a slot, or behind an earlier request of its engine, it waits at the port
(R381, R395). A prefetch request, and any request while the stack does not serve, waits in its slot (R350, R382). A
demand request takes effect, after the requests of its engine that wait where one of them touches its lines (R318). -/
def State.takeReq (s : State) (k : Nat) (q : QueuedReq) : State :=
  let t := s.stackAt k
  let mine := t.queue.filter fun x => x.req.issuer == q.req.issuer
  if t.full q.pf || t.ports.any (fun x => x.req.issuer == q.req.issuer) then
    s.modStack k fun t => { t with ports := t.ports ++ [q] }
  else if !s.serves k || q.pf then s.modStack k fun t => { t with queue := t.queue ++ [q] }
  else if mine.any fun x => sharesLine x.req q.req then
    ((s.modStack k fun t => { t with queue := t.queue.filter fun x => !(x.req.issuer == q.req.issuer) }).perform k
      mine).doReq k q.req
  else s.doReq k q.req

/-- The requests that wait at ports take the slots that are free, in issue order (R395, R396). -/
def State.refill (s : State) (k : Nat) : State :=
  ((s.stackAt k).ports).foldl (fun (a : State) q => a.takeReq k q) (s.modStack k fun t => { t with ports := [] })

/-- Every request in a slot takes effect (R319, R350). -/
def State.drainReqs (s : State) (k : Nat) : State :=
  (s.modStack k fun t => { t with queue := [] }).perform k (s.stackAt k).queue

/-- The oldest request in a slot of a stack that serves takes effect, and its slot is free for another. -/
def State.ageReq (s : State) (k : Nat) : State :=
  match (s.stackAt k).queue with
  | q :: rest =>
    if s.serves k then (((s.modStack k fun t => { t with queue := rest }).doReq k q.req).refill k) else s
  | [] => s

/-- A stack that returns to service takes up the requests it held, then those at the ports (R351). -/
def State.resumeReqs (s : State) (k : Nat) : State :=
  (((s.stackAt k).queue).foldl (fun (a : State) q => a.takeReq k q) (s.modStack k fun t => { t with queue := [] })).refill k

/-- The stacks with waiting requests of an engine take them, before the engine's own next accesses (R318). -/
def State.settleEngine (s : State) (who : Issuer) : State :=
  (List.range s.stacks).foldl (fun (a : State) k =>
    if a.serves k && (a.stackAt k).queue.any (fun q => q.req.issuer == who) then (a.drainReqs k).refill k else a) s

end Sys2Proof.Machine
end

