-- ==== Sys2Proof/Machine/VectorMath.lean ====
section
/-! DEFINITION. The lane functions of the Vector Engine (R291-R296): one rounding each, with their flags. -/

namespace Sys2Proof.Machine

/-- A lane result with its flags. -/
abbrev LaneOut := BitVec 32 × BitVec 4

/-- NAN_SEEN where any operand reads as NaN (R138). -/
def seenNan (vs : List Val) : BitVec 4 := flagIf (vs.any (·.isNan)) nanSeen

/-- The result of an accumulation (R293): ACC_OVF where finite terms give infinity. -/
def laneAcc (ops : List Val) (v : Val) : LaneOut :=
  let r := toVS32 v
  (r.1, seenNan (v :: ops) ||| flagIf r.2 accOvf)

/-- The result of an op that sets only NAN_SEEN. -/
def lanePlain (ops : List Val) (v : Val) : LaneOut := ((toVS32 v).1, seenNan (v :: ops))

/-- The greater of two values, -0 below +0, NaN where either is NaN (R292). -/
def maxVal (a b : Val) : Val :=
  if a.isNan || b.isNan then .nan
  else if a.lt b then b else if b.lt a then a else if a.sign then b else a

/-- The lesser of two values (R292). -/
def minVal (a b : Val) : Val :=
  if a.isNan || b.isNan then .nan
  else if a.lt b then a else if b.lt a then b else if a.sign then a else b

/-- The VS32 value 1. -/
def Val.one : Val := .fin false 1 1

/-- VOP's function in one lane (R291-R293). -/
def vopLane (func : Nat) (a b c : BitVec 32) : LaneOut :=
  let x := vs32 a
  let y := vs32 b
  let z := vs32 c
  match func with
  | 0x00 => laneAcc [x, y] (x.add y)
  | 0x01 => laneAcc [x, y] (x.sub y)
  | 0x02 => lanePlain [x, y] (x.mul y)
  | 0x03 => laneAcc [x, y, z] ((x.mul y).add z)
  | 0x04 => lanePlain [x, y] (maxVal x y)
  | 0x05 => lanePlain [x, y] (minVal x y)
  | 0x06 => lanePlain [x] x.abs
  | 0x07 => lanePlain [x] x.neg
  | 0x08 => lanePlain [x, y] (if x.lt y then .one else .zero)
  | 0x09 => lanePlain [x, y] (if !x.isNan && !y.isNan && !x.lt y && !y.lt x then .one else .zero)
  | 0x0A => lanePlain [x, y, z] (if z.isZero then y else x)
  | _ => lanePlain [x] x

/-! ## Correctly rounded functions (R294, R295) -/

/-- ⌊√n⌋ below 2^bits, one bit at a time. -/
def isqrtBits : Nat → Nat → Nat → Nat
  | 0, _, r => r
  | b + 1, n, r => isqrtBits b n (if (r + 2 ^ b) * (r + 2 ^ b) ≤ n then r + 2 ^ b else r)

/-- ⌊√n⌋. -/
def isqrt (n : Nat) : Nat := isqrtBits (Nat.log2 n / 2 + 1) n 0

/-- √(n/d) for n, d > 0 to well past 2^-60 of its size: exact, or a value strictly between the two neighbours of that
precision, so that one rounding of it is the rounding of the root. -/
def sqrtVal (n d : Nat) : Val :=
  let t := 80 + Nat.log2 d
  let q := n * 2 ^ (2 * t) / d
  let r := isqrt q
  if r * r * d = n * 2 ^ (2 * t) then .fin false r (2 ^ t) else .fin false (2 * r + 1) (2 ^ (t + 1))

/-- 2^(2^-j) scaled by 2^p, rounded down: the j-th root by repeated square roots. -/
def rootTable (p : Nat) : Nat → Nat → List Nat
  | 0, _ => []
  | k + 1, c => let r := isqrt (c * 2 ^ p); r :: rootTable p k r

/-- The product of the roots that the fraction bits of `f` (q bits, most significant first) select, scaled by 2^p. -/
def rootProduct (p : Nat) : Nat → Nat → List Nat → Nat → Nat
  | _, _, [], acc => acc
  | q, f, r :: rs, acc =>
    rootProduct p (q - 1) f rs (if f.testBit (q - 1) then acc * r / 2 ^ p else acc)

/-- VS32 code of the value of n/d, as an unsigned magnitude. -/
def codeMag (n d : Nat) : Nat := fVS32.round n d .rne

/-- 2^(i + f/2^q) rounded, for 0 < f < 2^q: the first precision of the list at which both ends of the interval round
alike. -/
def exp2Code (i : Int) (f q : Nat) : List Nat → Nat
  | [] => 0
  | p :: ps =>
    let lo := rootProduct p q f (rootTable p q (2 * 2 ^ p)) (2 ^ p)
    let hi := lo + 16 * q + 16
    let code (m : Nat) : Nat :=
      match Val.scale2 false m (i - p) with
      | .fin _ n d => codeMag n d
      | _ => 0
    if ps.isEmpty || code lo == code hi then code lo else exp2Code i f q ps

/-- EXP2 (R294, R295). -/
def exp2Lane (v : Val) : Val :=
  match v with
  | .nan => .nan
  | .inf s => if s then .zero else .inf false
  | .fin s n d =>
    if n = 0 then .one
    else if n * 2 ^ 30 < d then .one
    else if 256 * d < n then (if s then .zero else .inf false)
    else
      let q := Nat.log2 d
      let x : Int := if s then -((n : Nat) : Int) else (n : Int)
      let i := x / (d : Int)
      let f := (x % (d : Int)).toNat
      if f = 0 then .scale2 false 1 i else fVS32.value (exp2Code i f q [128, 256, 512])

/-- The fraction bits of log2 of y/2^p, for y in [2^p, 2^(p+1)). -/
def logBits (p : Nat) : Nat → Nat → Nat → Nat
  | 0, _, acc => acc
  | b + 1, y, acc =>
    let y2 := y * y / 2 ^ p
    if 2 ^ (p + 1) ≤ y2 then logBits p b (y2 / 2) (2 * acc + 1) else logBits p b y2 (2 * acc)

/-- e + log2(m/2^k) rounded, for 2^k < m < 2^(k+1): the code with its sign bit. -/
def log2Code (e : Int) (m k : Nat) : List Nat → Nat
  | [] => 0
  | b :: bs =>
    let p := 2 * b + 64
    let lo := logBits p b (m * 2 ^ (p - k)) 0
    let code (l : Nat) : Nat :=
      let t : Int := e * 2 ^ b + l
      (fVS32.codeOf (.fin (t < 0) t.natAbs (2 ^ b))).1
    if bs.isEmpty || code lo == code (lo + 2) then code lo else log2Code e m k bs

/-- LOG2 (R294, R295). -/
def log2Lane (v : Val) : Val :=
  match v with
  | .nan => .nan
  | .inf s => if s then .nan else .inf false
  | .fin s n d =>
    if n = 0 then .inf true
    else if s then .nan
    else
      let k := Nat.log2 n
      let e : Int := (k : Int) - Nat.log2 d
      if n = 2 ^ k then .ofInt e else fVS32.value (log2Code e n k [128, 256])

/-- VTR's function in one lane (R294, R295): NaN results set NAN_SEEN. -/
def vtrLane (func : Nat) (a : BitVec 32) : LaneOut :=
  let x := vs32 a
  let r : Val :=
    match func with
    | 0x00 => (match x with
      | .fin s n _ => if n = 0 then .inf s else Val.one.div x
      | v => Val.one.div v)
    | 0x01 => (match x with
      | .nan => .nan
      | .inf s => if s then .nan else .zero
      | .fin s n d => if n = 0 then .inf false else if s then .nan else sqrtVal d n)
    | 0x02 => (match x with
      | .nan => .nan
      | .inf s => if s then .nan else .inf false
      | .fin s n d => if n = 0 then .fin s 0 1 else if s then .nan else sqrtVal n d)
    | 0x03 => exp2Lane x
    | _ => log2Lane x
  lanePlain [x] r

/-! ## Reductions (R296) -/

/-- The op of a VRED. -/
def vredOp (func : Nat) (a b : BitVec 32) : LaneOut :=
  match func with
  | 0x01 => vopLane 0x04 a b 0#32
  | 0x02 => vopLane 0x05 a b 0#32
  | _ => vopLane 0x00 a b 0#32

/-- One round of a reduction: neighbours combined, the lower first. -/
def vredRound (func : Nat) : List (BitVec 32) → List LaneOut
  | a :: b :: r => vredOp func a b :: vredRound func r
  | [a] => [(a, 0#4)]
  | [] => []

/-- Rounds of pairwise combination: lane 0's value with the flags. -/
def vredTree (func : Nat) : Nat → List (BitVec 32) → BitVec 4 → BitVec 32 × BitVec 4
  | 0, l, f => (l.headD 0#32, f)
  | k + 1, l, f =>
    let r := vredRound func l
    vredTree func k (r.map (·.1)) (f ||| orFlags (r.map (·.2)))

/-- VRED (R296) over the 128 lanes. -/
def vredLanes (func : Nat) (xs : List (BitVec 32)) : BitVec 32 × BitVec 4 :=
  let sq := if func = 0x03 then xs.map fun x => vopLane 0x02 x x 0#32 else xs.map fun x => (x, 0#4)
  vredTree func 7 (sq.map (·.1)) (orFlags (sq.map (·.2)))

end Sys2Proof.Machine
end

