-- ==== Sys2Proof/Machine/Vector.lean ====
section
/-! DEFINITION. The Vector Engine (R288-R300): loads and stores, lane ops, reductions, drains, spills, partial drains
and the stochastic-rounding base. -/

namespace Sys2Proof.Machine

/-- The stochastic-rounding seed of the image in force (R131). -/
def State.seed (s : State) : BitVec 64 :=
  match s.cur with
  | some (_, x) => (match x.img with
    | some i => i.seed
    | none => 0)
  | none => 0

/-- Rounding of the VE's converted elements (R132, R133). -/
def veRnd (s : State) (c : CoreRef) (w : BitVec 16) (n base : BitVec 64) : Nat → Rnd :=
  rndFor w s.seed n (srcId c.die.val c.core.val) base

/-- A VE op that has issued, with its flag word for the header's slot. -/
def veOp (code : Nat) (h : OpHdr) (n : BitVec 64) (f : BitVec 4) : IssuedOp :=
  { issuedOp code h n with flags := [(h.fslot.toNat, f)] }

/-- The issue of a VE op, named with a bare observation. -/
def issueVe (s : State) (c : CoreRef) (op : Instr) (h : OpHdr) (o : HwObs) (ready : CoreSt → Bool)
    (act : State → EngSt → BitVec 64 → State × EngSt × IssuedOp) : Out :=
  guardUnit (c.die.val < s.dies) (issue s (engOf c .ve) op h o (fun _ _ => ready (s.coreAt c)) act)

/-- A VE op that writes one register from lanes computed with flags. -/
def writeLanes (s : State) (c : CoreRef) (vd : BitVec 6) (xs : List LaneOut) : State × BitVec 4 :=
  (s.vregWrite c vd (xs.map (·.1)), orFlags (xs.map (·.2)))

/-- VLD (R288, R289): elements converted into VS32; lanes past LEN take +0. -/
def execVld (c : CoreRef) (h : OpHdr) (f : VldF) (o : HwObs) (s : State) : Out :=
  issueVe s c (.vld c h f noObs) h o (fun _ => true) fun s r n =>
      let len := vldLen f
      let bs := s.spmRead c (64 * f.line.toNat) (elemBytes (fmtOf f.fmt) len)
      let sc := if scaleOf f.fmt = 0 then [] else s.spmRead c f.sbyte.toNat (len / blkOf f.fmt)
      let xs := (readElems f.fmt bs sc len).map fun v =>
        let e := convElem 5#16 .rne v
        ((BitVec.ofNat 32 e.1 : BitVec 32), e.2)
      let w := writeLanes s c f.vr (xs ++ List.replicate (128 - len) (0#32, 0#4))
      (w.1, r, veOp 0x20 h n w.2)

/-- VST (R288-R290, R300): the register's first LEN lanes converted into the format and written. -/
def execVst (c : CoreRef) (h : OpHdr) (f : VldF) (o : HwObs) (s : State) : Out :=
  issueVe s c (.vst c h f noObs) h o (fun _ => true) fun s r n =>
      let len := vldLen f
      let vs := ((s.vregRead c f.vr).take len).map vs32
      let q := convert f.fmt (fmtMax 5) (veRnd s c f.fmt n r.srb) vs
      let s := s.spmWrite c (64 * f.line.toNat) (packElems (fmtOf f.fmt) q.1)
      let s := s.spmWrite c f.sbyte.toNat (q.2.1.map (BitVec.ofNat 8))
      (s, { r with srb := r.srb + BitVec.ofNat 64 len }, veOp 0x21 h n q.2.2)

/-- VOP (R291-R293). -/
def execVop (c : CoreRef) (h : OpHdr) (f : VopF) (o : HwObs) (s : State) : Out :=
  issueVe s c (.vop c h f noObs) h o (fun _ => true) fun s r n =>
      let xs := (List.range 128).map fun i =>
        vopLane f.func.toNat (s.lane c f.va i) (if f.isel then f.imm else s.lane c f.vb i) (s.lane c f.vc i)
      let w := writeLanes s c f.vd xs
      (w.1, r, veOp 0x22 h n w.2)

/-- VTR (R294, R295). -/
def execVtr (c : CoreRef) (h : OpHdr) (f : VtrF) (o : HwObs) (s : State) : Out :=
  issueVe s c (.vtr c h f noObs) h o (fun _ => true) fun s r n =>
      let w := writeLanes s c f.vd ((s.vregRead c f.va).map (vtrLane f.func.toNat))
      (w.1, r, veOp 0x23 h n w.2)

/-- VRED (R296): lane 0 takes the result and the other lanes +0. -/
def execVred (c : CoreRef) (h : OpHdr) (f : VtrF) (o : HwObs) (s : State) : Out :=
  issueVe s c (.vred c h f noObs) h o (fun _ => true) fun s r n =>
      let q := vredLanes f.func.toNat (s.vregRead c f.va)
      let s := s.vregWrite c f.vd (q.1 :: List.replicate 127 0#32)
      (s, r, veOp 0x24 h n q.2)

/-! ## Bank regions -/

/-- The bank places of a region's row `i` (R220). -/
def regionRow (row0 : BitVec 8) (col0 wide : Bool) (i : Nat) : List Nat :=
  (List.range (regionW wide)).map fun j => (row0.toNat + i) * 128 + b2n col0 * 64 + j

/-- The value of a bank entry (R208). -/
def BankEnt.val (e : BankEnt) : Val := if e.int then .ofInt e.code.toInt else vs32 e.code

/-- Whether a VE op may read a bank (R217, R218). -/
def veMayRead (k : CoreSt) (b : Bool) : Bool := k.veOwns b && (k.hand b).isNone

/-- The core after a VE op that reads a region: the entries zeroed where it clears, the bank released where it says
so (R217, R221). -/
def CoreSt.afterRead (k : CoreSt) (b : Bool) (places : List Nat) (clear release : Bool) : CoreSt :=
  let zero (e : BankEnt) : BankEnt := { e with code := 0 }
  let k := if clear then k.setBank b (places.foldl (fun t p => tmod .zero t p zero) (k.bank b)) else k
  if release then k.setHand b (some false) else k

/-- Output rows written as R220 lays them out: element rows of RL lines each, scales with no gap. -/
def writeRows (s : State) (c : CoreRef) (fmt : BitVec 16) (line sbyte width : Nat)
    (rows : List (List Nat × List Nat × BitVec 4)) : State :=
  rows.zipIdx.foldl (fun s p =>
    let s := s.spmWrite c (64 * (line + p.2 * rowLines fmt width)) (packElems (fmtOf fmt) p.1.1)
    s.spmWrite c (sbyte + p.2 * (width / blkOf fmt)) (p.1.2.1.map (BitVec.ofNat 8))) s

/-- DRAIN (R217, R220, R221, R297). -/
def execDrain (c : CoreRef) (h : OpHdr) (f : DrainF) (o : HwObs) (s : State) : Out :=
  issueVe s c (.drain c h f noObs) h o (veMayRead · f.bank) fun s r n =>
      let k := s.coreAt c
      let width := regionW f.wide
      let rows := (List.range f.nrows.toNat).map fun i =>
        let es := (regionRow f.row0 f.col0 f.wide i).map (tget .zero (k.bank f.bank))
        convert f.fmt (fmtMax (if es.all (·.int) then 12 else 5)) (fun j => veRnd s c f.fmt n r.srb (i * width + j))
          (es.map (·.val))
      let places := (List.range f.nrows.toNat).flatMap (regionRow f.row0 f.col0 f.wide)
      let s := writeRows s c f.fmt f.line.toNat f.sbyte.toNat width rows
      let s := s.modCore c fun k => k.afterRead f.bank places f.clear f.release
      let s := if f.clear then s.bankWrote c f.bank places else s
      (s, { r with srb := r.srb + BitVec.ofNat 64 (f.nrows.toNat * width) },
       { veOp 0x25 h n (orFlags (rows.map (·.2.2))) with relBank := if f.release then some f.bank else none })

/-- A partial element after a spill adds a bank entry (R226, R227): its container and flags. -/
def spillElem (init : Bool) (old : Nat) (e : BankEnt) : Nat × BitVec 4 :=
  if e.int then (ofInt 64 (if init then e.code.toInt else asInt 64 old + e.code.toInt), 0#4)
  else
    let p := if init then vs32 e.code else (fW48.value (old % 2 ^ 48)).add (vs32 e.code)
    let r := toW48 p
    (r.1.toNat, flagIf p.isNan nanSeen ||| flagIf r.2 accOvf)

/-- SPILL (R225-R230, R298). -/
def execSpill (c : CoreRef) (h : OpHdr) (f : SpillF) (o : HwObs) (s : State) : Out :=
  issueVe s c (.spill c h f noObs) h o (veMayRead · f.bank) fun s r n =>
      let k := s.coreAt c
      let width := regionW f.wide
      let places := (List.range f.nrows.toNat).flatMap (regionRow f.row0 f.col0 f.wide)
      let es := places.zipIdx.map fun p => (p.2, (tget .zero (k.bank f.bank) p.1 : BankEnt))
      let outs := es.map fun e =>
        let a := 64 * f.pline.toNat + 8 * e.1
        (a, spillElem f.init (leNat (s.spmRead c a 8)) e.2)
      let s := outs.foldl (fun s e => s.spmWrite c e.1 (leBytes 8 e.2.1)) s
      let s := s.modCore c fun k =>
        { k.afterRead f.bank places true f.release with
            partInt := es.foldl (fun t e => tset false t (f.pline.toNat + e.1 / 8) e.2.int) k.partInt }
      (s.bankWrote c f.bank places, r,
       { veOp 0x26 h n (orFlags (outs.map (·.2.2))) with relBank := if f.release then some f.bank else none })

/-- PDRAIN (R229, R299): a partial buffer converted once into the output format. An element is an I64 one where the
spill that wrote its line left one (DESIGN CHOICE: the op does not say; assumption log 78). -/
def execPdrain (c : CoreRef) (h : OpHdr) (f : PdrainF) (o : HwObs) (s : State) : Out :=
  issueVe s c (.pdrain c h f noObs) h o (fun _ => true) fun s r n =>
      let width := regionW f.wide
      let k := s.coreAt c
      let elem (i j : Nat) : Val :=
        let v := leNat (s.spmRead c (64 * f.pline.toNat + (i * width + j) * 8) 8)
        if tget false k.partInt (f.pline.toNat + (i * width + j) / 8) then .ofInt (asInt 64 v) else fW48.value (v % 2 ^ 48)
      let rows := (List.range f.nrows.toNat).map fun i =>
        convert f.fmt (fmtMax 6) (fun j => veRnd s c f.fmt n r.srb (i * width + j)) ((List.range width).map (elem i))
      let s := writeRows s c f.fmt f.line.toNat f.sbyte.toNat width rows
      (s, { r with srb := r.srb + BitVec.ofNat 64 (f.nrows.toNat * width) },
       veOp 0x27 h n (orFlags (rows.map (·.2.2))))

/-- VSRB (R300). -/
def execVsrb (c : CoreRef) (h : OpHdr) (v : BitVec 64) (s : State) : Out :=
  issueVe s c (.vsrb c h v) h noObs (fun _ => true) fun s r n => (s, { r with srb := v }, issuedOp 0x28 h n)

end Sys2Proof.Machine
end

