-- ==== Sys2Proof/Machine/Move.lean ====
section
/-! DEFINITION. The Move Engine (R301-R303, R358-R379): issue of descriptors, copies, gathers and the exponent-plane
codec. -/

namespace Sys2Proof.Machine

/-! ## Descriptors (R358) -/

/-- The little-endian field of `n` bytes at offset `off` of a descriptor. -/
def dfld (d : BitVec 512) (off n : Nat) : Nat := d.toNat / 2 ^ (8 * off) % 2 ^ (8 * n)

/-- A descriptor with its fields named. -/
structure Desc where
  kind : Nat
  sfmt : BitVec 16
  dfmt : BitVec 16
  e0 : Nat
  e1 : Nat
  e2 : Nat
  e3 : Nat
  src : Nat
  dst : Nat
  sscl : Nat
  dscl : Nat
  ss1 : Nat
  ss2 : Nat
  ss3 : Nat
  ds1 : Nat
  ds2 : Nat
  ds3 : Nat
  deriving DecidableEq, Repr

/-- The fields of a descriptor (R358). -/
def descOf (d : BitVec 512) : Desc :=
  { kind := dfld d 0 1, sfmt := BitVec.ofNat 16 (dfld d 2 2), dfmt := BitVec.ofNat 16 (dfld d 4 2), e0 := dfld d 6 2,
    e1 := dfld d 0x0E 2, e2 := dfld d 0x16 2, e3 := dfld d 0x1E 2, src := dfld d 8 6, dst := dfld d 0x10 6,
    sscl := dfld d 0x18 6, dscl := dfld d 0x20 6, ss1 := dfld d 0x28 4, ss2 := dfld d 0x2C 4, ss3 := dfld d 0x30 4,
    ds1 := dfld d 0x34 4, ds2 := dfld d 0x38 4, ds3 := dfld d 0x3C 4 }

/-- Elements of a descriptor. -/
def Desc.count (d : Desc) : Nat := d.e0 * d.e1 * d.e2 * d.e3

/-- Entry DIDX of a core's descriptor table in the image in force (R267, R301). -/
def State.descAt (s : State) (c : CoreRef) (didx : Nat) : Option (BitVec 512) :=
  match s.cur with
  | none => none
  | some (_, x) =>
    match x.img with
    | none => none
    | some im =>
      (match im.sections.find? (fun t => t.kind == 2 && t.die == c.die.val && t.core == c.core.val) with
       | none => none
       | some t => if 64 * didx + 64 ≤ t.length then some (BitVec.ofNat 512 (fld im.raw (t.offset + 64 * didx) 64))
         else none)

/-- Descriptors outstanding (R398). -/
def CoreSt.outstanding (k : CoreSt) : Nat := k.meDescs.length

/-- The lowest free slot. -/
def CoreSt.freeSlot (k : CoreSt) : Nat := ((List.range 32).find? fun i => (k.slot i).isNone).getD 0

/-- ME_DESC (R301, R302, R366, R399): the descriptor becomes outstanding. At the bound of 32 the op waits, and the cycles
count in ME_CNT_STALL until it issues. -/
def execMeDesc (c : CoreRef) (h : OpHdr) (didx : BitVec 24) (s : State) : Out :=
  guardUnit (c.die.val < s.dies)
    (let e := engOf c .me
     let full := decide (32 ≤ (s.coreAt c).outstanding)
     let stall := full && hdrMet s e (s.engAt e) h
     let s := if s.isNext e (.meDesc c h didx) then s.modCore c fun k => { k with meStallNow := stall } else s
     issue s e (.meDesc c h didx) h noObs (fun _ _ => !full) fun s r n =>
      let d := (s.descAt c didx.toNat).getD 0
      let i := (s.coreAt c).freeSlot
      let m : MeDescSt := { didx := didx.toNat, desc := d, srb := r.srb, step := n, fslot := h.fslot }
      (s.modCore c fun k => { k with meDescs := tset none k.meDescs i (some m) },
       { r with srb := r.srb + BitVec.ofNat 64 (descOf d).count },
       { issuedOp 0x30 h n with done := false, slot := some i }))

/-- A descriptor's place that is free reaches the ME_DESC that waits for one (R302, R395, R396). -/
def execMeSlotFree (c : CoreRef) (s : State) : Out :=
  guardUnit (c.die.val < s.dies)
    (match s.nextOp (engOf c .me) (s.engAt (engOf c .me)) with
     | some (.meDesc c' h didx) => if c' = c ∧ (s.coreAt c).meStallNow then execMeDesc c h didx s else .next s
     | _ => .next s)

/-- ME_FENCE (R303): no later op issues until it completes, after every earlier descriptor. -/
def execMeFence (c : CoreRef) (h : OpHdr) (s : State) : Out :=
  guardUnit (c.die.val < s.dies)
    (issue s (engOf c .me) (.meFence c h) h noObs (fun _ _ => true) fun s r n => (s, r, issuedOp 0x31 h n))

/-! ## Data movement -/

/-- Whether a descriptor copies codes unchanged (R365). Every field but RND is compared, also one that the other fields
leave without effect (DESIGN CHOICE: R106 and R365 together do not say; assumption log 83). -/
def sameFmt (a b : BitVec 16) : Bool := (a ||| 0x80#16) == (b ||| 0x80#16)

/-- One row moved: destination codes, scale codes and flags (R365, R366). `base` is the row's first output position. -/
def moveRow (s : State) (c : CoreRef) (m : MeDescSt) (d : Desc) (base : Nat) (bs sc : Bytes) :
    List Nat × List Nat × BitVec 4 :=
  if sameFmt d.sfmt d.dfmt then
    ((List.range d.e0).map fun i => unpackElem (fmtOf d.sfmt) bs i, sc.map (·.toNat), 0#4)
  else
    let vs := readElems d.sfmt bs sc d.e0
    let seen := flagIf (vs.any (·.isNan)) nanSeen
    let r := convert d.dfmt (fmtMax (fmtOf d.sfmt))
      (fun i => rndFor d.dfmt s.seed m.step (srcId c.die.val (96 + c.core.val)) m.srb (base + i)) vs
    (r.1, r.2.1, r.2.2 ||| seen)

/-- Bytes of the scales of a row. -/
def rowScales (w : BitVec 16) (n : Nat) : Nat := if scaleOf w = 0 then 0 else n / blkOf w

/-- The rows of a descriptor in element order (R360): the linear index with i1, i2, i3. -/
def descRows (d : Desc) : List (Nat × Nat × Nat × Nat) :=
  (List.range (d.e1 * d.e2 * d.e3)).map fun q => (q, q % d.e1, q / d.e1 % d.e2, q / d.e1 / d.e2)

/-- The package after a COPY moves its rows: flags collected (R361, R363, R365). -/
def runCopy (s : State) (c : CoreRef) (m : MeDescSt) : State × BitVec 4 :=
  let d := descOf m.desc
  let who := Issuer.engine (engOf c .me)
  (descRows d).foldl (fun a q =>
    let s := a.1
    let r1 := s.physRead who (some m.step) (d.src + q.2.1 * d.ss1 + q.2.2.1 * d.ss2 + q.2.2.2 * d.ss3)
      (elemBytes (fmtOf d.sfmt) d.e0)
    let r2 := r1.1.physRead who (some m.step) (d.sscl + q.1 * rowScales d.sfmt d.e0) (rowScales d.sfmt d.e0)
    let o := moveRow r2.1 c m d (q.1 * d.e0) r1.2 r2.2
    let s := r2.1.physWrite who (some m.step) (d.dst + q.2.1 * d.ds1 + q.2.2.1 * d.ds2 + q.2.2.2 * d.ds3)
      (packElems (fmtOf d.dfmt) o.1)
    (s.physWrite who (some m.step) (d.dscl + q.1 * rowScales d.dfmt d.e0) (o.2.1.map (BitVec.ofNat 8)),
     a.2 ||| o.2.2)) (s, 0#4)

/-- The address of a GATHER's index table (R359). -/
def Desc.idxAddr (d : Desc) : Nat := d.ss3 + d.ds1 % 2 ^ 16 * 2 ^ 32

/-- The package after a GATHER: flags, and whether an index was out of range (R370-R373). -/
def runGather (s : State) (c : CoreRef) (m : MeDescSt) : State × BitVec 4 × Bool :=
  let d := descOf m.desc
  let who := Issuer.engine (engOf c .me)
  let r0 := s.physRead who (some m.step) d.idxAddr (4 * d.e1)
  (List.range d.e1).foldl (fun a k =>
    let s := a.1
    let x := fld r0.2 (4 * k) 4
    let dst := d.dst + k * elemBytes (fmtOf d.dfmt) d.e0
    let dscl := d.dscl + k * rowScales d.dfmt d.e0
    if x < d.ss2 then
      let r1 := s.physRead who (some m.step) (d.src + x * d.ss1) (elemBytes (fmtOf d.sfmt) d.e0)
      let r2 := r1.1.physRead who (some m.step) (d.sscl + x * rowScales d.sfmt d.e0) (rowScales d.sfmt d.e0)
      let o := moveRow r2.1 c m d (k * d.e0) r1.2 r2.2
      let s := r2.1.physWrite who (some m.step) dst (packElems (fmtOf d.dfmt) o.1)
      (s.physWrite who (some m.step) dscl (o.2.1.map (BitVec.ofNat 8)), a.2.1 ||| o.2.2, a.2.2)
    else
      let s := s.physWrite who (some m.step) dst (List.replicate (elemBytes (fmtOf d.dfmt) d.e0) 0#8)
      (s.physWrite who (some m.step) dscl (List.replicate (rowScales d.dfmt d.e0) 0#8), a.2.1,
       a.2.2 || decide (x ≠ 0xFFFFFFFF))) (r0.1, 0#4, false)

/-! ## The exponent-plane codec (R374-R379) -/

/-- The width of a frame's exponent codes: the smallest w with 2^w - 1 at least the span. -/
def xpWidth (span : Nat) : Nat := ((List.range 9).find? fun w => decide (span ≤ 2 ^ w - 1)).getD 8

/-- One frame of 256 codes encoded (R376). -/
def encodeFrame (codes : List Nat) : Bytes :=
  let e := codes.map fun c => c / 128 % 256
  let nz := e.filter (· != 0)
  let emin := nz.foldl min 255
  let emax := nz.foldl max 0
  let p : Nat × Nat := if nz.isEmpty then (0, 0) else (emin, xpWidth (emax - emin + 1))
  let sm := codes.map fun c => BitVec.ofNat 8 (c / 256 / 128 * 128 + c % 128)
  let ex := e.zipIdx.foldl (fun a x => a + (if x.1 = 0 then 0 else x.1 - p.1 + 1) * 2 ^ (p.2 * x.2)) 0
  leBytes 2 (p.1 + 256 * p.2) ++ sm ++ leBytes (32 * p.2) ex

/-- An XP stream of codes (R375): header, then frames. -/
def encodeStream (codes : List Nat) : Bytes :=
  let body := (chunks 256 codes.length codes).flatMap encodeFrame
  leBytes 8 codes.length ++ leBytes 8 (16 + body.length) ++ body

/-- The codes of one frame (R377): element i, or none where the frame or the exponent is malformed (R379). -/
def decodeElem (fhdr : Nat) (sm ex : Bytes) (i : Nat) : Option Nat :=
  let emin := fhdr % 256
  let w := fhdr / 256 % 16
  if 8 < w || 4096 ≤ fhdr then none
  else
    let code := leNat ex / 2 ^ (w * i) % 2 ^ w
    let e := if code = 0 then 0 else emin + code - 1
    if 255 < e then none
    else
      let b := fld sm i 1
      some (b / 128 * 32768 + e * 128 + b % 128)

/-- Codes up to the first malformed element, NaN codes from there on; with whether one was met. -/
def stopAtNone : List (Option Nat) → List Nat × Bool
  | [] => ([], false)
  | some v :: r => let q := stopAtNone r; (v :: q.1, q.2)
  | none :: r => (0x7FC0 :: r.map fun _ => 0x7FC0, true)

/-- Reads the frames of a stream: elements as decoded. -/
def readFrames (s : State) (who : Issuer) (n : Option (BitVec 64)) : Nat → Nat → State × List (Option Nat)
  | 0, _ => (s, [])
  | k + 1, a =>
    let r0 := s.physRead who n a 2
    let fh := leNat r0.2
    let w := fh / 256 % 16
    if 8 < w || 4096 ≤ fh then (r0.1, List.replicate (256 * (k + 1)) none)
    else
      let r1 := r0.1.physRead who n (a + 2) 256
      let r2 := r1.1.physRead who n (a + 258) (32 * w)
      let rest := readFrames r2.1 who n k (a + 258 + 32 * w)
      (rest.1, (List.range 256).map (decodeElem fh r1.2 r2.2) ++ rest.2)

/-- The package after an XP_ENC. -/
def runXpEnc (s : State) (c : CoreRef) (m : MeDescSt) : State :=
  let d := descOf m.desc
  let who := Issuer.engine (engOf c .me)
  let a := (descRows d).foldl (fun (a : State × List Nat) q =>
    let r := a.1.physRead who (some m.step) (d.src + q.2.1 * d.ss1 + q.2.2.1 * d.ss2 + q.2.2.2 * d.ss3) (2 * d.e0)
    (r.1, a.2 ++ (List.range d.e0).map fun i => fld r.2 (2 * i) 2)) (s, [])
  a.1.physWrite who (some m.step) d.dst (encodeStream a.2)

/-- The package after an XP_DEC, with whether the stream was malformed (R377, R379). -/
def runXpDec (s : State) (c : CoreRef) (m : MeDescSt) : State × Bool :=
  let d := descOf m.desc
  let who := Issuer.engine (engOf c .me)
  let r0 := s.physRead who (some m.step) d.src 8
  let q := if leNat r0.2 = d.count then readFrames r0.1 who (some m.step) (d.count / 256) (d.src + 16)
    else (r0.1, List.replicate d.count none)
  let v := stopAtNone q.2
  ((descRows d).foldl (fun s r =>
    s.physWrite who (some m.step) (d.dst + r.2.1 * d.ds1 + r.2.2.1 * d.ds2 + r.2.2.2 * d.ds3)
      (((v.1.drop (r.1 * d.e0)).take d.e0).flatMap (leBytes 2))) q.1, v.2)

/-! ## Completion of a descriptor's data -/

/-- The bytes that an XP stream of so many elements takes at most (R378). -/
def xpBound (n : Nat) : Nat := 16 + 514 * n / 256

/-- The rows of the strided source and destination of a descriptor. -/
def Desc.srcRows (d : Desc) : List (Nat × Nat) :=
  (descRows d).map fun q =>
    (d.src + q.2.1 * d.ss1 + q.2.2.1 * d.ss2 + q.2.2.2 * d.ss3, elemBytes (fmtOf d.sfmt) d.e0)

/-- The rows of the strided destination. -/
def Desc.dstRows (d : Desc) : List (Nat × Nat) :=
  (descRows d).map fun q =>
    (d.dst + q.2.1 * d.ds1 + q.2.2.1 * d.ds2 + q.2.2.2 * d.ds3, elemBytes (fmtOf d.dfmt) d.e0)

/-- The byte ranges that a descriptor accesses (R361, R363, R370, R371, R378). -/
def descRanges (s : State) (d : Desc) : List (Nat × Nat) :=
  let rows := d.e1 * d.e2 * d.e3
  let dscl := (d.dscl, rows * rowScales d.dfmt d.e0)
  match d.kind with
  | 1 => d.srcRows ++ d.dstRows ++ [(d.sscl, rows * rowScales d.sfmt d.e0), dscl]
  | 2 =>
    let idx := (s.memRead none none d.idxAddr (4 * d.e1)).2
    let xs := ((List.range d.e1).map fun k => fld idx (4 * k) 4).filter (· < d.ss2)
    let rb := elemBytes (fmtOf d.sfmt) d.e0
    let sb := rowScales d.sfmt d.e0
    [(d.idxAddr, 4 * d.e1), (d.dst, d.e1 * elemBytes (fmtOf d.dfmt) d.e0), dscl]
    ++ xs.flatMap fun x => [(d.src + x * d.ss1, rb), (d.sscl + x * sb, sb)]
  | 3 => d.srcRows ++ [(d.dst, xpBound d.count)]
  | _ => d.dstRows ++ [(d.src, xpBound d.count)]

/-- Whether the controllers take a descriptor's requests: every stack that it accesses serves (R350) and has a slot
for a request of its priority (R381, R395). -/
def descUp (s : State) (d : BitVec 512) : Bool :=
  (descRanges s (descOf d)).all fun r =>
    s.rangeUp r.1 r.2 && (granules r.1 r.2).all fun g =>
      s.place g != .hbm || !(s.stackAt (s.stackOf g).1).full (descPf d)

/-- The core and its Move Engine after slot `i` has moved its data: the slot is free (R369, R395). -/
def finishDesc (s : State) (c : CoreRef) (i : Nat) (m : MeDescSt) (f : BitVec 4) (residue : Bool) : State :=
  let s := s.modCore c fun k => { k with meDescs := tset none k.meDescs i none }
  let e := engOf c .me
  let r := s.engRaw e
  let ops := r.issued.map fun op =>
    if op.slot = some i ∧ op.code = 0x30#8 ∧ !op.done then
      { op with done := true, flags := [(m.fslot.toNat, f)] } else op
  (s.setEng e { r with issued := ops }).observe e m.step [] residue

/-- Runs the outstanding descriptor of a slot when it is of this kind and the controllers take its requests, after the
engine's requests that wait (R318). -/
def runSlot (s : State) (c : CoreRef) (i : Fin 32) (kind : Nat) (o : HwObs)
    (act : State → MeDescSt → State × BitVec 4) : Out :=
  guardUnit (c.die.val < s.dies)
    (match (s.coreAt c).slot i.val with
     | none => .next s
     | some m =>
       if (descOf m.desc).kind != kind || s.pmc.dieOff.contains c.die.val || !descUp s m.desc then .next s
       else
         let a := act ((s.settleEngine (.engine (engOf c .me))).strikes o) m
         .next (finishDesc a.1 c i.val m a.2 o.residue))

/-- COPY (R360-R366). -/
def execCopy (c : CoreRef) (slot : Fin 32) (o : HwObs) (s : State) : Out :=
  runSlot s c slot 1 o fun s m => runCopy s c m

/-- GATHER (R370-R373). -/
def execGather (c : CoreRef) (slot : Fin 32) (o : HwObs) (s : State) : Out :=
  runSlot s c slot 2 o fun s m =>
    let a := runGather s c m
    (if a.2.2 then a.1.modCore c fun k => { k with idxOor := true } else a.1, a.2.1)

/-- XP_ENC (R374-R376, R378). -/
def execXpEnc (c : CoreRef) (slot : Fin 32) (o : HwObs) (s : State) : Out :=
  runSlot s c slot 3 o fun s m => (runXpEnc s c m, 0#4)

/-- XP_DEC (R377, R379). -/
def execXpDec (c : CoreRef) (slot : Fin 32) (o : HwObs) (s : State) : Out :=
  runSlot s c slot 4 o fun s m =>
    let a := runXpDec s c m
    if a.2 then (a.1.modCore c fun k => { k with codecErr := true }, nanSeen) else (a.1, 0#4)

end Sys2Proof.Machine
end

