-- ==== Sys2Proof/Machine/Stream.lean ====
section
/-! DEFINITION. The schedule image's sections and op streams (R266-R275), the groups of a configuration (R537, R547),
the descriptors of the UE and the CX (R532, R585) and the exact journal sizes of R608. -/

namespace Sys2Proof.Machine

/-! ## Sections and ops -/

/-- Ops of a section. -/
def Section.ops (t : Section) : Nat := t.length / 16

/-- The op words of a stream section (R269). -/
def Img.words (im : Img) (t : Section) : List Nat :=
  (chunks 16 t.ops (slice im.raw t.offset (16 * t.ops))).map leNat

/-- The UE or CX stream of a die. -/
def Img.dieWords (im : Img) (die eng : Nat) : List Nat :=
  match im.section 1 die eng 0xFF with
  | none => []
  | some t => im.words t

/-- Bytes of the constant data that cover an address range (R267). -/
def Img.constAt (im : Img) (a len : Nat) : Option Bytes :=
  (im.sections.find? fun t => t.kind == 3 && decide (t.dest ≤ a) && decide (a + len ≤ t.dest + t.length)).map
    fun t => slice im.raw (t.offset + (a - t.dest)) len

/-! ## Update descriptors (R585) -/

/-- The fields of an update descriptor. -/
structure UpdDesc where
  kind : Nat
  group : Nat
  flags : Nat
  wfmt : BitVec 16
  grad : Nat
  master : Nat
  mom1 : Nat
  mom2 : Nat
  work : Nat
  wscl : Nat
  count : Nat
  deriving DecidableEq, Repr

/-- The fields of 64 descriptor bytes. -/
def updDesc (b : Bytes) : UpdDesc :=
  { kind := fld b 0 1, group := fld b 1 1, flags := fld b 2 1, wfmt := BitVec.ofNat 16 (fld b 4 2), grad := fld b 8 6,
    master := fld b 0x10 6, mom1 := fld b 0x18 6, mom2 := fld b 0x20 6, work := fld b 0x28 6, wscl := fld b 0x30 6,
    count := fld b 0x38 5 }

/-- The update descriptors of a die's stream, in stream order. -/
def Img.updates (im : Img) (die : Nat) : List UpdDesc :=
  (im.dieWords die 4).filterMap fun w =>
    if opcOf w = 0x50 then (im.constAt (bits w 95 48) 64).map updDesc else none

/-- Bytes of one journal record of `len` data bytes, header and padding included (R603). -/
def recBytes (len : Nat) : Nat := 64 + (len + 63) / 64 * 64

/-- A run of bytes cut into records of 16,384 data bytes (R915). -/
def runLens (len : Nat) : List Nat :=
  (List.range ((len + 16383) / 16384)).map fun i => min 16384 (len - 16384 * i)

/-- The five (or four) data ranges that a chunk of `n` parameters from parameter `p` journals (R604). -/
def UpdDesc.chunk (d : UpdDesc) (p n : Nat) : List (Nat × Nat) :=
  [(d.master + 4 * p, 4 * n), (d.mom1 + 4 * p, 4 * n), (d.mom2 + 4 * p, 4 * n),
   (d.work + elemBytes (fmtOf d.wfmt) p, elemBytes (fmtOf d.wfmt) n)]
  ++ (if scaleOf d.wfmt = 0 then [] else [(d.wscl + p / blkOf d.wfmt, n / blkOf d.wfmt)])

/-- Journal bytes of one chunk. -/
def UpdDesc.chunkBytes (d : UpdDesc) (p n : Nat) : Nat := sumNat ((d.chunk p n).map fun r => recBytes r.2)

/-- Chunks of a UE_RUN (R604): first parameter and length. -/
def UpdDesc.chunks (d : UpdDesc) : List (Nat × Nat) :=
  (List.range ((d.count + 4095) / 4096)).map fun i => (4096 * i, min 4096 (d.count - 4096 * i))

/-- Journal bytes of one whole run of a die's UE stream (R608). -/
def Img.ueJournal (im : Img) (die : Nat) : Nat :=
  sumNat ((im.updates die).flatMap fun d => d.chunks.map fun c => d.chunkBytes c.1 c.2)

/-! ## Groups (R537, R547) -/

/-- A member's digits. -/
def Group.digits (g : Group) (k : Nat) : Nat × Nat × Nat := (k % g.l1, k / g.l1 % g.l2, k / (g.l1 * g.l2))

/-- The rank with the given digits. -/
def Group.rankAt (g : Group) (d : Nat × Nat × Nat) : Nat := d.1 + g.l1 * (d.2.1 + g.l2 * d.2.2)

/-- The shard that a member owns (R547). -/
def Group.shard (g : Group) (k : Nat) : Nat :=
  let d := g.digits k
  d.1 * g.l2 * g.l3 + d.2.1 * g.l3 + d.2.2

/-- The rank of a die of the package at `v`. -/
def Group.rankOf (g : Group) (v : Vec3) (die : Nat) : Option Nat :=
  g.members.findIdx? fun m => m.x == v.x && m.y == v.y && m.z == v.z && m.die == die

/-- Positions of a level's ring. -/
def Group.level (g : Group) (i : Nat) : Nat := if i = 1 then g.l1 else if i = 2 then g.l2 else g.l3

/-- A digit. -/
def digit (d : Nat × Nat × Nat) (i : Nat) : Nat := if i = 1 then d.1 else if i = 2 then d.2.1 else d.2.2

/-- Digits with one replaced. -/
def setDigit (d : Nat × Nat × Nat) (i v : Nat) : Nat × Nat × Nat :=
  if i = 1 then (v, d.2) else if i = 2 then (d.1, v, d.2.2) else (d.1, d.2.1, v)

/-- The member at another position of the level-i ring of member k. -/
def Group.ringMember (g : Group) (k i pos : Nat) : Nat := g.rankAt (setDigit (g.digits k) i (pos % g.level i))

/-- The next hop of a block from member `k` toward `dst` (R544): level 1 first, the way with fewer hops, positive when
both are equal. -/
def Group.nextHop (g : Group) (k dst : Nat) : Option Nat :=
  let a := g.digits k
  let b := g.digits dst
  match [1, 2, 3].find? fun i => digit a i != digit b i with
  | none => none
  | some i =>
    let q := g.level i
    let fwd := (digit b i + q - digit a i) % q
    some (g.ringMember k i (if fwd ≤ q - fwd then digit a i + 1 else digit a i + q - 1))

/-! ## Collective descriptors (R532) -/

/-- The fields of a collective descriptor. -/
structure CollDesc where
  kind : Nat
  group : Nat
  comp : Bool
  norm : Bool
  rop : Nat
  vc : Nat
  cls : Nat
  ifmt : BitVec 16
  ofmt : BitVec 16
  count : Nat
  src : Nat
  dst : Nat
  aux : Nat
  stage : Nat
  stageBufs : Nat
  p1 : Nat
  p2 : Nat
  dropv : Nat
  deriving DecidableEq, Repr

/-- The fields of 64 descriptor bytes. -/
def collDesc (b : Bytes) : CollDesc :=
  let f := fld b 2 1
  let l := fld b 3 1
  { kind := fld b 0 1, group := fld b 1 1, comp := bitOf f 0, norm := bitOf f 1, rop := bits f 3 2, vc := bits l 2 0,
    cls := bits l 6 3, ifmt := BitVec.ofNat 16 (fld b 4 2), ofmt := BitVec.ofNat 16 (fld b 6 2), count := fld b 8 8,
    src := fld b 0x10 6, dst := fld b 0x18 6, aux := fld b 0x20 6, stage := fld b 0x28 6, stageBufs := fld b 0x2E 2,
    p1 := fld b 0x30 4, p2 := fld b 0x34 4, dropv := fld b 0x38 6 }

/-- The collective descriptors of a die's CX stream before and after its CX_GNORM, in stream order. -/
def Img.colls (im : Img) (die : Nat) : List CollDesc × List CollDesc :=
  let ws := im.dieWords die 5
  let get (l : List Nat) : List CollDesc :=
    l.filterMap fun w => if opcOf w = 0x60 then (im.constAt (bits w 95 48) 64).map collDesc else none
  (get (ws.takeWhile fun w => opcOf w != 0x61), get (ws.dropWhile fun w => opcOf w != 0x61))

/-- One entry of a permute table (R568). -/
structure PermEnt where
  round : Nat
  peer : Nat
  saddr : Nat
  daddr : Nat
  len : Nat
  deriving DecidableEq, Repr

/-- Entry i of a permute table's bytes. -/
def permEnt (b : Bytes) (i : Nat) : PermEnt :=
  { round := fld b (32 * i) 2, peer := fld b (32 * i + 4) 4, saddr := fld b (32 * i + 8) 6,
    daddr := fld b (32 * i + 16) 6, len := fld b (32 * i + 24) 4 }

/-- The permute table of a descriptor as the image holds it; empty where the image does not hold it. -/
def Img.permTable (im : Img) (d : CollDesc) : List PermEnt :=
  match im.constAt d.aux (32 * d.count) with
  | none => []
  | some b => (List.range d.count).map (permEnt b)

/-- Bytes of a range that lie in no range of a list, as maximal runs: what R915 leaves to journal. -/
def minusRanges : List (Nat × Nat) → List (Nat × Nat) → List (Nat × Nat)
  | runs, [] => runs
  | runs, c :: cs =>
    minusRanges (runs.flatMap fun r =>
      let e := r.1 + r.2
      let ce := c.1 + c.2
      if ce ≤ r.1 || e ≤ c.1 then [r]
      else (if r.1 < c.1 then [(r.1, c.1 - r.1)] else []) ++ (if ce < e then [(ce, e - ce)] else [])) cs

/-- The table entries of the dies of this package for one PERMUTE, as far as the image's own tables show, with the rank of
each: every table whose descriptor is the `k`-th PERMUTE of its stream on the same group (assumption log 18). -/
def permTables (im : Img) (dies : Nat) (g : Group) (self : Vec3) (grp k : Nat) : List (Nat × PermEnt) :=
  (List.range dies).flatMap fun e =>
    match g.rankOf self e with
    | none => []
    | some r =>
      let ds := ((im.colls e).1 ++ (im.colls e).2).filter fun d => d.kind == 6 && d.group == grp
      (match ds[k]? with
       | none => []
       | some d => (im.permTable d).map fun t => (r, t))

/-- An entry put where its key comes, behind those of the same key. -/
def insertBy {α : Type} (key : α → Nat) (x : α) : List α → List α
  | [] => [x]
  | y :: r => if key x < key y then x :: y :: r else y :: insertBy key x r

/-- A list in the order of a key, with equal keys as they stood. -/
def sortBy {α : Type} (key : α → Nat) (l : List α) : List α := l.foldl (fun a x => insertBy key x a) []

/-- The blocks that these tables write at rank `me`, in the order of their writes: by round, and in a round by sender
(assumption log 18). -/
def permBlocks (im : Img) (dies : Nat) (g : Group) (self : Vec3) (grp k me : Nat) : List (Nat × PermEnt) :=
  sortBy (fun e => e.2.round) (sortBy (·.1) ((permTables im dies g self grp k).filter fun e => e.2.peer == me))

/-- The residual runs that a compressed reduction overwrites (R555, R915): every element but those of the own shard. -/
def residualRuns (d : CollDesc) (g : Group) (rank : Nat) : List (Nat × Nat) :=
  let n := d.count / g.p
  let s := g.shard rank
  [(d.aux, 2 * (s * n)), (d.aux + 2 * ((s + 1) * n), 2 * (d.count - (s + 1) * n))].filter fun r => decide (0 < r.2)

/-- The runs that the ops of one die journal in a step, in stream order: `done` holds the bytes journalled so far
(R606), `pk` counts the PERMUTEs met on each group. -/
def cxRuns (im : Img) (cfg : JobCfg) (dies die : Nat) :
    List CollDesc → List (Nat × Nat) → List Nat → List (List (Nat × Nat))
  | [], _, _ => []
  | d :: r, done, pk =>
    match cfg.groups[d.group]? with
    | none => [] :: cxRuns im cfg dies die r done pk
    | some g =>
      match g.rankOf cfg.topo.self die with
      | none => [] :: cxRuns im cfg dies die r done pk
      | some me =>
        if d.kind ≤ 2 && d.comp then
          let runs := residualRuns d g me
          runs :: cxRuns im cfg dies die r (runs ++ done) pk
        else if d.kind = 6 then
          let k := (pk.filter (· == d.group)).length
          let bs := (permBlocks im dies g cfg.topo.self d.group k me).map fun e => (e.2.daddr, e.2.len)
          let w := bs.foldl (fun (a : List (Nat × Nat) × List (Nat × Nat)) b =>
            let new := minusRanges [b] a.2
            (a.1 ++ new, new ++ a.2)) ([], done)
          w.1 :: cxRuns im cfg dies die r w.2 (d.group :: pk)
        else [] :: cxRuns im cfg dies die r done pk

/-- Journal bytes of a list of runs. -/
def runsBytes (rs : List (Nat × Nat)) : Nat := sumNat (rs.flatMap fun r => (runLens r.2).map recBytes)

/-- The CX's journal bytes of a step on one die: before CX_GNORM, and in all (R608). -/
def cxJournal (im : Img) (cfg : JobCfg) (dies die : Nat) : Nat × Nat :=
  let c := im.colls die
  let rs := cxRuns im cfg dies die (c.1 ++ c.2) [] []
  (sumNat ((rs.take c.1.length).map runsBytes), sumNat (rs.map runsBytes))

end Sys2Proof.Machine
end

