-- ==== Sys2Proof/Machine/UpdateMath.lean ====
section
/-! DEFINITION. The arithmetic of the Update Engine (R588-R594, R599, R601, R912): the scalar stage, the learning-rate
schedule, the step constants, one parameter's update, and the outcome of a step. -/

namespace Sys2Proof.Machine

/-! ## Scalar stage (R588, R912) -/

/-- A value rounded to VS32. -/
def rn32 (v : Val) : Val := vs32 (toVS32 v).1

/-- A value rounded to W48. -/
def rn48 (v : Val) : Val := w48 (toW48 v).1

/-- The code of a value already on the VS32 grid. -/
def code32 (v : Val) : BitVec 32 := (toVS32 v).1

/-- The code of a value already on the W48 grid. -/
def code48 (v : Val) : BitVec 48 := (toW48 v).1

/-- SQRT in the precision that `rn` rounds to (R295, R912). -/
def sqrtOf (rn : Val → Val) : Val → Val
  | .nan => .nan
  | .inf s => if s then .nan else .inf false
  | .fin s n d => if n = 0 then .fin s 0 1 else if s then .nan else rn (sqrtVal n d)

/-- RSQRT in VS32. -/
def rsqrt32 : Val → Val
  | .nan => .nan
  | .inf s => if s then .nan else .zero
  | .fin s n d => if n = 0 then .inf false else if s then .nan else rn32 (sqrtVal d n)

/-- π scaled by 2^252. -/
def piFix : Nat := 0x3243F6A8885A308D313198A2E03707344A4093822299F31D0082EFA98EC4E6C8

/-- The terms of the cosine series from term `k`: x² and the term are scaled by 2^192. -/
def cosTerms (x2 : Int) : Nat → Nat → Int → Int → Int
  | 0, _, _, acc => acc
  | fuel + 1, k, t, acc =>
    let t := -(t * x2) / 2 ^ 192 / ((2 * k + 1) * (2 * k + 2) : Nat)
    cosTerms x2 fuel (k + 1) t (acc + t)

/-- cos(π n/d) scaled by 2^192, for 0 ≤ n/d ≤ 1/2, to within 2^-180. -/
def cosFix (n d : Nat) : Int :=
  let x : Int := ((n * piFix / d / 2 ^ 60 : Nat) : Int)
  cosTerms (x * x / 2 ^ 192) 48 0 (2 ^ 192) (2 ^ 192)

/-- COSPI (R588, R912): cos of π times the argument, correctly rounded in VS32. -/
def cospi : Val → Val
  | .nan => .nan
  | .inf _ => .nan
  | .fin _ n d =>
    let r := n % (2 * d)
    let t := if d < r then 2 * d - r else r
    if t = 0 then .one
    else if t = d then Val.one.neg
    else if 2 * t = d then .zero
    else
      let neg := decide (d < 2 * t)
      let c := cosFix (if neg then d - t else t) d
      rn32 (.fin neg c.natAbs (2 ^ 192))

/-- EXP2 in VS32. -/
def exp2V (v : Val) : Val := rn32 (exp2Lane v)

/-- LOG2 in VS32. -/
def log2V (v : Val) : Val := rn32 (log2Lane v)

/-- An integer as a value. -/
def natV (n : Nat) : Val := .fin false n 1

/-! ## Schedule (R589-R591) -/

/-- The segment that serves step n and the step number it is evaluated with (R590). -/
def serveSeg (segs : List Seg) (n : Nat) : Option (Nat × Seg × Nat) :=
  match segs.zipIdx.find? fun p => decide (p.1.start ≤ n) && decide (n ≤ p.1.stop) with
  | some p => some (p.2, p.1, n)
  | none =>
    match (segs.zipIdx.filter fun p => decide (p.1.stop < n)).getLast? with
    | some p => some (p.2, p.1, p.1.stop)
    | none => segs.head?.map fun s => (0, s, s.start)

/-- The learning rate that a segment yields (R591). -/
def segLr (s : Seg) (n : Nat) : Val :=
  let a := vs32 s.lrStart
  let b := vs32 s.lrEnd
  let f := if s.stop = s.start then .zero
    else rn32 ((rn32 (natV (n - s.start))).div (rn32 (natV (s.stop - s.start))))
  match s.kind with
  | 0 => a
  | 1 => rn32 ((f.mul (rn32 (b.sub a))).add a)
  | 2 =>
    let h := rn32 ((Val.fin false 1 2).mul (rn32 (Val.one.add (cospi f))))
    rn32 (((rn32 (a.sub b)).mul h).add b)
  | 3 => maxVal (rn32 (a.mul (rsqrt32 (rn32 (natV (n - s.start + 1)))))) b
  | _ =>
    let k := rn32 (f.mul (log2V (rn32 (b.div a))))
    rn32 (a.mul (exp2V k))

/-- The learning rate of step n and the index of the serving segment. -/
def lrOf (segs : List Seg) (n : Nat) : BitVec 32 × Nat :=
  match serveSeg segs n with
  | some (i, s, m) => (code32 (segLr s m), i)
  | none => (0, 0)

/-! ## Step constants (R592) -/

/-- 2^e. -/
def pow2V (e : Int) : Val := .scale2 false 1 e

/-- The constants of one group: `p` is its pair P1, P2 after the step before. -/
def groupConst (g : OptGroup) (p : BitVec 48 × BitVec 48) (lr : BitVec 32) (lsExp : Int) : GroupConst :=
  let p1 := rn48 ((w48 p.1).mul (vs32 g.b1))
  let p2 := rn48 ((w48 p.2).mul (vs32 g.b2))
  let bc (q : Val) : BitVec 32 := code32 (rn32 (rn48 (Val.one.div (rn48 (Val.one.sub q)))))
  let eta := rn32 ((vs32 lr).mul (vs32 g.lrMult))
  { p1 := code48 p1, p2 := code48 p2, bc1 := bc p1, bc2 := bc p2, omb1 := code32 (rn32 (Val.one.sub (vs32 g.b1))),
    omb2 := code32 (rn32 (Val.one.sub (vs32 g.b2))), eta := code32 eta, negEta := code32 eta.neg,
    negEtaLam := code32 (rn32 (eta.mul (vs32 g.lam))).neg, invS := code32 (pow2V (-lsExp)) }

/-- The W48 code of 1.0. -/
def w48One : BitVec 48 := (toW48 Val.one).1

/-- The pair P1, P2 of a group in a training state. -/
def TrainSt.pair (t : TrainSt) (g : Nat) : BitVec 48 × BitVec 48 := t.prod.getD g (w48One, w48One)

/-- The constants of the sixteen groups. -/
def stepConsts (o : OptCfg) (start : TrainSt) (lr : BitVec 32) : List GroupConst :=
  o.groups.zipIdx.map fun p => groupConst p.1 (start.pair p.2) lr start.lsExp

/-! ## One parameter (R594) -/

/-- A parameter's new master value, moments, whether u is not finite (R596), and the flags that R138 gives the
accumulations. -/
structure ParamOut where
  w : Val
  m : Val
  v : Val
  bad : Bool
  flags : BitVec 4
  deriving DecidableEq, Repr

/-- update() of R594: `g` the gradient, `c` the clip factor in force. -/
def updateParam (og : OptGroup) (k : GroupConst) (wdecay : Bool) (c g w m v : Val) : ParamOut :=
  let b1 := vs32 og.b1
  let b2 := vs32 og.b2
  let u := rn32 ((rn32 (g.mul (vs32 k.invS))).mul c)
  let rm := (b1.mul m).add (rn32 ((vs32 k.omb1).mul u))
  let rv := (b2.mul v).add (rn32 ((vs32 k.omb2).mul (rn32 (u.mul u))))
  let m1 := rn32 rm
  let v1 := rn32 rv
  let mh := rn32 (m1.mul (vs32 k.bc1))
  let vh := rn32 (v1.mul (vs32 k.bc2))
  let rs := (sqrtOf rn32 vh).add (vs32 og.eps)
  let q := rn32 (mh.div (rn32 rs))
  let r1 := if wdecay then ((vs32 k.negEtaLam).mul w).add w else w
  let r2 := ((vs32 k.negEta).mul q).add (rn32 r1)
  let nan := [g, w, m, v, u, m1, v1, mh, vh, q, rn32 r1, r2].any (·.isNan)
  let ovf := [rm, rv, rs, r1, r2].any fun x => (toVS32 x).2
  { w := rn32 r2, m := m1, v := v1, bad := !u.isFin, flags := flagIf nan nanSeen ||| flagIf ovf accOvf }

/-! ## Outcome (R599, R601) -/

/-- resolve() of R599 on a step whose UE streams update: the outcome and the clip factor. -/
def resolveNorm (g : BitVec 48) (lsExp : Int) (tau : BitVec 32) : StepOutcome × BitVec 32 :=
  let v := w48 g
  if !v.isFin then (.skipped, 0)
  else
    let n := sqrtOf rn48 (rn48 (v.mul (pow2V (-2 * lsExp))))
    if !(vs32 tau).lt n then (.normal, 0x3F800000)
    else (.clipped, code32 (rn32 (rn48 ((vs32 tau).div n))))

/-- A value held to a range. -/
def clampInt (lo hi x : Int) : Int := if x < lo then lo else if hi < x then hi else x

/-- The training state that a step leaves final (R601). -/
def finalTrain (o : OptCfg) (start : TrainSt) (consts : List GroupConst) (out : StepOutcome) : TrainSt :=
  match out with
  | .empty => start
  | .skipped => { start with lsExp := clampInt o.lsMin o.lsMax (start.lsExp - 1), clean := 0 }
  | _ =>
    let up := decide (o.lsN ≤ start.clean + 1)
    { start with lsExp := clampInt o.lsMin o.lsMax (if up then start.lsExp + 1 else start.lsExp),
                 clean := if up then 0 else start.clean + 1,
                 optT := start.optT + 1,
                 prod := (o.groups.zip consts).zipIdx.map fun p =>
                   if p.1.1.used then (p.1.2.p1, p.1.2.p2) else start.pair p.2 }

end Sys2Proof.Machine
end

