-- ==== Sys2Proof/Machine/Update.lean ====
section
/-! DEFINITION. The Update Engine (R582-R615): chunks of a UE_RUN, the undo journal and its restore, and the die
digests (R72, R597, R598). -/

namespace Sys2Proof.Machine

/-- An Update Engine. -/
def State.ueAt (s : State) (die : Nat) : UeSt := tget .reset s.ue die

/-- The package with an Update Engine changed. -/
def State.modUe (s : State) (die : Nat) (f : UeSt → UeSt) : State := { s with ue := tmod .reset s.ue die f }

/-- The target position of a die (R787). -/
def State.targetOf (s : State) (die : Nat) : Nat := (tget DivSt.reset s.pmc.div die).target

/-- A Collective Engine. -/
def State.cxAt (s : State) (die : Nat) : CxSt := tget .reset s.cx die

/-- The package with a Collective Engine changed. -/
def State.modCx (s : State) (die : Nat) (f : CxSt → CxSt) : State := { s with cx := tmod .reset s.cx die f }

/-- A die's engines by number. -/
def dieFin (die : Nat) : Fin 4 := Fin.ofNat 4 die

/-- The image and configuration in force. -/
def State.pair (s : State) : Option (Img × JobCfg) :=
  s.cur.bind fun c => c.2.img.bind fun i => c.2.cfg.map fun g => (i, g)

/-! ## The journal (R602-R608) -/

/-- Base address and bytes of a die's journal (R622: JOURNAL_BYTES and JOURNAL_BASE as configured). -/
def OptCfg.journal (o : OptCfg) (die : Nat) : Nat × Nat := (o.jbase.getD die 0, o.jbytes.getD die 0)

/-- The bytes of a record header (R603). -/
def recHeader (kind len : Nat) (step : BitVec 64) (addr seq : Nat) (data : Bytes) : Bytes :=
  let h := leBytes 4 kind ++ leBytes 4 len ++ leBytes 8 step.toNat ++ leBytes 8 addr ++ leBytes 4 seq ++ leBytes 4 0
    ++ leBytes 8 (crc64 data).toNat ++ List.replicate 16 0#8
  h ++ leBytes 8 (crc64 h).toNat

/-- Journals `len` bytes at `addr`: the record's data and then its header, upward for the UE and downward for the CX
(R602, R603, R605). -/
def State.journal (s : State) (o : OptCfg) (die : Nat) (cx : Bool) (kind : Nat) (step : BitVec 64) (addr len : Nat) :
    State :=
  let u := s.ueAt die
  let e := dieEngOf (dieFin die) (if cx then .cx else .ue)
  let r := s.physRead (.engine e) (some step) addr len
  let j := o.journal die
  let size := recBytes len
  let at_ := if cx then j.1 + j.2 - u.cxBytes - size else j.1 + u.ueBytes
  let seq := (u.recs.filter fun t => t.cx == cx).length
  let s := r.1.physWrite (.engine e) (some step) (at_ + 64) (r.2 ++ List.replicate (size - 64 - len) 0#8)
  let s := s.physWrite (.engine e) (some step) at_ (recHeader kind len step addr seq r.2)
  let t : JrnlRec := { cx := cx, kind := kind, seq := seq, at_ := at_, len := len, addr := addr, step := step }
  s.modUe die fun u =>
    { u with recs := u.recs ++ [t], ueBytes := if cx then u.ueBytes else u.ueBytes + size,
             cxBytes := if cx then u.cxBytes + size else u.cxBytes }

/-- The UE's bound in force (R607): JOURNAL_LIMIT until the norm arrives and JOURNAL_BYTES after it, less the CX's. -/
def ueBound (im : Img) (cfg : JobCfg) (dies die : Nat) (arrived : Bool) : Nat :=
  let c := cxJournal im cfg dies die
  if arrived then (cfg.opt.journal die).2 - c.2 else cfg.opt.journalLimit * 2 ^ 20 - c.1

/-- Restores the records of one list, newest first (R609): each record is read back and checked, and its data written
to where it came from. Stops at a record that fails (R610). -/
def State.restoreGo (s : State) (die : Nat) : List JrnlRec → State × Bool
  | [] => (s, true)
  | r :: rest =>
    let l := s.hbmLines (some r.step) false (linesOf r.at_ (recBytes r.len))
    let bs := l.2.1.drop (r.at_ % 64)
    let h := slice bs 0 64
    let data := slice bs 64 r.len
    let ok := fld h 0x38 8 == (crc64 (slice h 0 0x38)).toNat && fld h 0x20 8 == (crc64 data).toNat
      && !l.2.2.contains .bad
    if ok then (l.1.physWrite (.engine (dieEngOf (dieFin die) .ue)) (some r.step) (fld h 0x10 6) data).restoreGo die rest
    else
      ((l.1.modUe die fun u => { u with jrnlErr := true }).wire (mkReport 0x0C 2 (unitLocus die 0) r.step 0), false)

/-- Restores a die's records (R609, R613): the UE's alone, or every record. -/
def State.restoreDie (s : State) (die : Nat) (all : Bool) : State × Bool :=
  let u := s.ueAt die
  let mine := (u.recs.filter fun t => !t.cx).reverse
  let theirs := if all then (u.recs.filter fun t => t.cx).reverse else []
  let r := s.restoreGo die (theirs ++ mine)
  if r.2 then
    (r.1.modUe die fun u =>
      { u with recs := if all then [] else u.recs.filter fun t => t.cx,
               ueBytes := 0, cxBytes := if all then 0 else u.cxBytes, runs := 0, cur := none, crc := 0,
               jstall := false, nfSeen := false }, true)
  else r

/-- Restores on every die; true when every record of every die was restored. -/
def State.restoreAll (s : State) (all : Bool) : State × Bool :=
  (List.range s.dies).foldl (fun a d => let r := a.1.restoreDie d all; (r.1, a.2 && r.2)) (s, true)

/-- The journals emptied without a restore (R611). -/
def State.dropJournal (s : State) : State :=
  { s with ue := tmapAll UeSt.reset s.ue fun u =>
      { u with recs := [], ueBytes := 0, cxBytes := 0, runs := 0, cur := none, crc := 0, jstall := false,
               nfSeen := false } }

/-! ## Chunks of a UE_RUN (R594-R604) -/

/-- What one chunk gives: the package and the flags of the op. -/
def State.runChunk (s : State) (im : Img) (cfg : JobCfg) (die : Nat) (st : StepSt) (d : UpdDesc) (base : BitVec 64)
    (p n : Nat) : State × BitVec 4 :=
  let who := Issuer.engine (dieEngOf (dieFin die) .ue)
  let tag := some st.no
  let s := (d.chunk p n).foldl (fun s r => s.journal cfg.opt die false 1 st.no r.1 r.2) s
  let rg := s.physRead who tag (d.grad + 2 * p) (2 * n)
  let rw := rg.1.physRead who tag (d.master + 4 * p) (4 * n)
  let rm := rw.1.physRead who tag (d.mom1 + 4 * p) (4 * n)
  let rv := rm.1.physRead who tag (d.mom2 + 4 * p) (4 * n)
  let s := rv.1
  let og := cfg.opt.groups.getD d.group { b1 := 0, b2 := 0, eps := 0, lam := 0, lrMult := 0, used := false }
  let k := st.consts.getD d.group
    { p1 := 0, p2 := 0, bc1 := 0, bc2 := 0, omb1 := 0, omb2 := 0, eta := 0, negEta := 0, negEtaLam := 0, invS := 0 }
  let clip := vs32 (s.ueAt die).clipNow
  let at32 (b : Bytes) (i : Nat) : Val := fVS32.value (fld b (4 * i) 4)
  let outs := (List.range n).map fun i =>
    updateParam og k (d.flags % 2 == 1) clip (fVH16.value (fld rg.2 (2 * i) 2)) (at32 rw.2 i) (at32 rm.2 i) (at32 rv.2 i)
  let enc (f : ParamOut → Val) : Bytes := outs.flatMap fun o => leBytes 4 (code32 (f o)).toNat
  let master := enc (·.w)
  let q := convert d.wfmt (fmtMax 5)
    (fun i => rndFor d.wfmt im.seed st.no (srcId die 192) base (p + i)) (outs.map (·.w))
  let s := s.physWrite who tag (d.master + 4 * p) master
  let s := s.physWrite who tag (d.mom1 + 4 * p) (enc (·.m))
  let s := s.physWrite who tag (d.mom2 + 4 * p) (enc (·.v))
  let s := s.physWrite who tag (d.work + elemBytes (fmtOf d.wfmt) p) (packElems (fmtOf d.wfmt) q.1)
  let s := if scaleOf d.wfmt = 0 then s
    else s.physWrite who tag (d.wscl + p / blkOf d.wfmt) (q.2.1.map (BitVec.ofNat 8))
  let bad := outs.any (·.bad)
  let known := st.outcome == some .normal || st.outcome == some .clipped
  let s := s.modUe die fun u =>
    { u with crc := crc64From u.crc master, nfSeen := u.nfSeen || bad, nfErr := u.nfErr || (bad && known) }
  (if bad && known then s.wire (mkReport 0x0B 2 (unitLocus die 0) st.no 0) else s,
   orFlags (outs.map (·.flags)) ||| q.2.2)

/-- The engine's UE_RUN after chunks gave flags, and after its last chunk. -/
def EngSt.ueProgress (r : EngSt) (f : BitVec 4) (done : Bool) : EngSt :=
  { r with issued := r.issued.map fun op =>
      if op.code = 0x50#8 ∧ !op.done then
        { op with done := done, flags := op.flags.map fun x => (x.1, x.2 ||| f) } else op }

/-- Whether the memory that a chunk and its records touch is in service (R350). -/
def State.chunkUp (s : State) (o : OptCfg) (die : Nat) (d : UpdDesc) (p n : Nat) : Bool :=
  (d.chunk p n).all (fun r => s.rangeUp r.1 r.2) && s.rangeUp (d.grad + 2 * p) (2 * n)
  && s.rangeUp ((o.journal die).1 + (s.ueAt die).ueBytes) (d.chunkBytes p n)

/-- Runs chunks of the UE_RUN in progress while the bound in force and the stacks allow (R350, R604, R607). -/
def State.pumpGo (s : State) (im : Img) (cfg : JobCfg) (die : Nat) (st : StepSt) (d : UpdDesc) (base : BitVec 64) :
    List (Nat × Nat) → State
  | [] =>
    let e := dieEngOf (dieFin die) .ue
    (s.modUe die fun u => { u with cur := none, jstall := false, runs := u.runs + 1, pos := s.targetOf die }).setEng e
      ((s.engRaw e).ueProgress 0 true)
  | (p, n) :: rest =>
    if ueBound im cfg s.dies die st.outcome.isSome < (s.ueAt die).ueBytes + d.chunkBytes p n then
      s.modUe die fun u => { u with jstall := true }
    else if !s.chunkUp cfg.opt die d p n then s.modUe die fun u => { u with jstall := false }
    else
      let r := s.runChunk im cfg die st d base p n
      let e := dieEngOf (dieFin die) .ue
      let s := (r.1.modUe die fun u =>
        { u with jstall := false, pos := s.targetOf die, cur := u.cur.map fun c => (c.1, p / 4096 + 1, c.2.2) }).setEng e
          ((r.1.engRaw e).ueProgress r.2 false)
      s.pumpGo im cfg die st d base rest

/-- A UE takes up its UE_RUN where it stands. -/
def State.pumpUe (s : State) (die : Nat) (st : StepSt) : State :=
  match s.pair, (s.ueAt die).cur with
  | some (im, cfg), some (a, chunk, base) =>
    let r := s.physRead (.engine (dieEngOf (dieFin die) .ue)) (some st.no) a.toNat 64
    let d := updDesc r.2
    r.1.pumpGo im cfg die st d base (d.chunks.drop chunk)
  | _, _ => s

/-- A UE whose chunks wait for a stack goes on (R350, R351). -/
def State.pumpDie (s : State) (die : Nat) : State :=
  if (s.ueAt die).cur.isNone || (s.ueAt die).jstall then s
  else
    match (s.engRaw (dieEngOf (dieFin die) .ue)).step.bind s.stepAt with
    | some st => s.pumpUe die st
    | none => s

/-- Whether a UE may issue a UE_RUN of a step (R69, R584, R612, R613): it runs none, the step is the oldest
uncommitted one, and its branch lets the UE issue. -/
def ueMay (s : State) (die : Nat) (n : BitVec 64) : Bool :=
  (s.ueAt die).cur.isNone &&
  (match s.cur with
   | none => false
   | some (_, x) =>
     (match x.steps.head? with
      | none => false
      | some t => t.no == n && (t.st == .running || t.st == .resolving || t.st == .redoing)))

/-- The update descriptor at an address. -/
def State.updAt (s : State) (a : BitVec 48) : UpdDesc :=
  match s.pair with
  | some (im, _) => ((im.constAt a.toNat 64).map updDesc).getD (updDesc [])
  | none => updDesc []

/-- UE_RUN (R583-R597, R604-R607, R612): the UE takes up the descriptor, advances SRB by COUNT, and runs its chunks to
the journal bound. -/
def execUeRun (die : Fin 4) (h : OpHdr) (uaddr : BitVec 48) (o : HwObs) (s : State) : Out :=
  guardUnit (die.val < s.dies)
    (let e := dieEngOf die .ue
     match issue s e (.ueRun die h uaddr noObs) h o (fun _ n => ueMay s die.val n && s.rangeUp uaddr.toNat 64) (fun s r n =>
       (s.modUe die.val fun u =>
          { u with cur := some (uaddr, 0, r.srb),
                   spec := ((s.stepAt n).map fun t => t.outcome.isNone).getD false },
        { r with srb := r.srb + BitVec.ofNat 64 (s.updAt uaddr).count },
        { issuedOp 0x50 h n with done := false, flags := [(h.fslot.toNat, 0#4)] })) with
     | .next t => .next (if (s.ueAt die.val).cur.isNone then t.pumpDie die.val else t)
     | out => out)

/-! ## Digests (R72-R75, R597, R598) -/

/-- The die digest of a step that updates nothing: CRC-64 over the master copies of the die's shards (R72, R598). -/
def State.shardDigest (s : State) (n : Option (BitVec 64)) (cfg : JobCfg) (die : Nat) : State × BitVec 64 :=
  (cfg.shards.filter fun t => t.die == die).foldl (fun a t =>
    let r := a.1.hbmRead n t.master (4 * t.count)
    (r.1, crc64From a.2 r.2)) (s, 0)

/-- The package digest (R74): the die digests of the enabled dies in the order CD0, CD1, CD2, CD3. -/
def pkgDigest (ds : List (BitVec 64)) : BitVec 64 := crc64 (ds.flatMap fun d => leBytes 8 d.toNat)

/-- Whether every UE_RUN of a die's stream has completed in the current run. -/
def State.ueDone (s : State) (im : Img) (die : Nat) : Bool :=
  decide ((im.updates die).length ≤ (s.ueAt die).runs) && (s.ueAt die).cur.isNone

end Sys2Proof.Machine
end

