-- ==== Sys2Proof/Machine/Inside.lean ====
section
/-! DEFINITION. Traffic between the dies of the package over its Mews and I/O-die links (R26, R40, R504, R506, R720,
R721). A node is a compute die (0-3) or an I/O die (4, 5). The messages' layout is internal to the package (R476;
assumption log 86). -/

namespace Sys2Proof.Machine

/-- The dies that each Mews link joins (R17): MW01, MW13, MW32, MW20 are members 24-27. -/
def mewsEnds : List (Nat × Nat) := [(0, 1), (1, 3), (3, 2), (2, 0)]

/-- The nodes that a member of the package joins. -/
def innerEnds (m : Nat) : Nat × Nat := if m < 28 then mewsEnds.getD (m - 24) (0, 1) else (m - 28, 4 + (m - 28) / 2)

/-- The node at the other end of a member. -/
def otherEnd (m u : Nat) : Nat := let e := innerEnds m; if e.1 = u then e.2 else e.1

/-- The place of a compute die on the ring CD0, CD1, CD3, CD2. -/
def ringPos (d : Nat) : Nat := ([0, 1, 3, 2] : List Nat).getD d 0

/-- The Mews links that a route crosses from one ring place over `n` links, upward or downward. -/
def ringPath (p : Nat) (up : Bool) (n : Nat) : List Nat :=
  (List.range n).map fun i => 24 + (if up then (p + i) % 4 else (p + 7 - i) % 4)

/-- The Mews links of a route between two compute dies while every link is up (R504), and of the way round the ring. -/
def ringRoutes (u v : Nat) : List Nat × List Nat :=
  let p := ringPos u
  let n := (ringPos v + 4 - p) % 4
  let up := ringPath p true n
  let down := ringPath p false (4 - n)
  let viaUp := decide (n = 1) || (decide (n = 2) && (u == 0 || u == 2))
  if viaUp then (up, down) else (down, up)

/-- Whether a member of the package is up (R506). -/
def State.innerUp (s : State) (m : Nat) : Bool := (s.memberAt m).st != .withdrawn

/-- The members that a route crosses between two nodes (R26, R40, R504, R506). -/
def State.innerRoute (s : State) (u v : Nat) : List Nat :=
  let ring (a b : Nat) : List Nat :=
    if a = b then []
    else if s.ios = 1 then (if s.innerUp 24 then [24] else [28 + a, 28 + b])
    else
      let r := ringRoutes a b
      if r.1.all s.innerUp then r.1 else r.2
  match decide (u < 4), decide (v < 4) with
  | true, true => ring u v
  | true, false =>
    let at_ := if ioOf u = v - 4 then u else u ^^^ 2
    ring u at_ ++ [28 + at_]
  | false, true =>
    let at_ := if ioOf v = u - 4 then v else v ^^^ 2
    [28 + at_] ++ ring at_ v
  | false, false => if u = v then [] else [28 + 2 * (u - 4)] ++ ring (2 * (u - 4)) (2 * (v - 4)) ++ [28 + 2 * (v - 4)]

/-- The fields of a message inside the package: the node it goes to, the node it last left, the stream it belongs to,
and the generation of the step's stores, which no other run of a step has (R264). -/
structure InnerHdr where
  dst : Nat
  at_ : Nat
  key : Nat
  len : Nat
  gen : Nat
  deriving DecidableEq, Repr

/-- The header as 128 bits. -/
def InnerHdr.pack (h : InnerHdr) : BitVec 128 :=
  BitVec.ofNat 128 (h.dst % 16 + 2 ^ 4 * (h.at_ % 16) + 2 ^ 8 * (h.key % 2 ^ 64) + 2 ^ 72 * (h.len % 2 ^ 16)
    + 2 ^ 88 * (h.gen % 2 ^ 40))

/-- The fields of 128 header bits. -/
def innerHdr (b : BitVec 128) : InnerHdr :=
  let v := b.toNat
  { dst := bits v 3 0, at_ := bits v 7 4, key := bits v 71 8, len := bits v 87 72, gen := bits v 127 88 }

/-- The generation of the run in progress. -/
def State.runGen (s : State) : Nat := (s.mem.vgen.getD 0) % 2 ^ 40

/-- A message leaves a node on the first member of its route. -/
def State.innerOut (s : State) (vc u : Nat) (h : InnerHdr) (payload : Bytes) (par : List Nat) : State :=
  match s.innerRoute u h.dst with
  | [] => s
  | m :: _ => s.enqueue m vc { plainMsg ({ h with at_ := u }).pack payload with par := par, fwd := u != h.at_ }

/-- Bytes of a stream sent from one compute die to another, in messages of up to 4,096 bytes (R504). -/
def State.innerSend (s : State) (vc u v key : Nat) (bs : Bytes) : State :=
  (chunks 4096 bs.length bs).foldl (fun (a : State) p =>
    a.innerOut vc u { dst := v, at_ := u, key := key, len := p.length, gen := a.runGen } p []) s

/-- A message of the package's own links reaches the far end of a member: it goes on along its route, or its bytes join
their stream at the Collective Engine, which checks their parity (R722). One of a run that is over is dropped. -/
def State.innerIn (s : State) (m vc : Nat) (hdr : BitVec 128) (payload : Bytes) (par : List Nat) : State :=
  let h := innerHdr hdr
  let v := otherEnd m h.at_
  if h.gen ≠ s.runGen then s
  else if v ≠ h.dst then s.innerOut vc v h payload par
  else
    let s := s.modCx v fun x => { x with intStream := tmod [] x.intStream h.key (· ++ payload) }
    let n := match s.cur with
      | some (_, x) => (x.steps.getLast?.map fun t => t.no).toList
      | none => []
    if par.isEmpty then s
    else s.wire { cls := 2, lkind := 5, locus := BitVec.ofNat 32 (m - 24), addr := 0, tags := n, all := false, detail := 0 }

/-- What waits on the package's own links is dropped: the run that sent it is over. -/
def State.dropInner (s : State) : State :=
  { s with net := { s.net with member := tmapKeys s.net.member } }
where
  /-- The members 24 to 31 with nothing queued, begun or assembled. -/
  tmapKeys (t : Tbl MemberSt) : Tbl MemberSt :=
    (t.map fun e => if e.1 < 24 then e else (e.1, { e.2 with queue := [], started := [], part := [] })).filter
      fun e => decide (e.2 ≠ MemberSt.reset)

end Sys2Proof.Machine
end

