-- ==== Sys2Proof/Machine/Ring.lean ====
section
/-! DEFINITION. Completion rings (R641-R652): replies, event entries and MSI-X messages. -/

namespace Sys2Proof.Machine

/-- A ring pair. -/
def State.ringAt (s : State) (r : Nat) : RingSt := tget .reset s.rings r

/-- The package with a ring pair changed. -/
def State.modRing (s : State) (r : Nat) (f : RingSt → RingSt) : State :=
  { s with rings := tmod .reset s.rings r f }

/-- Whether the completion ring is full (R646). -/
def RingSt.full (q : RingSt) : Bool := (q.cqTail - q.cqHead) == 256#16

/-- A reply or event entry without its PHASE bit (R655). -/
def entryBits (tag status ring detail stb outLen : Nat) : BitVec 256 :=
  BitVec.ofNat 256 (tag % 2 ^ 32 + 2 ^ 32 * (status % 2 ^ 16) + 2 ^ 48 * ring + 2 ^ 64 * (detail % 2 ^ 64)
    + 2 ^ 128 * stb + 2 ^ 192 * (outLen % 2 ^ 32))

/-- Vector i of the MSI-X table is raised (R652): a masked vector stays pending (R852). -/
def State.raise (s : State) (i : Nat) : State :=
  let e := rdBytes s.msix.table (16 * i) 16
  if bitOf (fld e 12 4) 0 then { s with msix := { s.msix with pend := s.msix.pend ||| BitVec.ofNat 8 (2 ^ i) } }
  else
    let m : BitVec 64 × BitVec 32 := (BitVec.ofNat 64 (fld e 0 8), BitVec.ofNat 32 (fld e 8 4))
    { s with msix := { s.msix with out := s.msix.out ++ [m] } }

/-- A write of one entry to CQr (R645, R650, R652): the entry with its PHASE, then the completion TAIL, then the
interrupt. -/
def State.writeEntry (s : State) (r : Nat) (w : WaitEnt) : State :=
  let q := s.ringAt r
  let a := q.cqAddr.toNat * 4096 + 32 * (q.cqTail.toNat % 256)
  if !s.hostOk a 32 then s.modRing r fun q => { q with badAddr := true, stopped := true }
  else
    let phase := 1 - q.cqTail.toNat / 256 % 2
    let bs := leBytes 32 (w.entry.toNat + 2 ^ 56 * phase)
    let s := (s.hostWrite a bs).modRing r fun q => { q with cqTail := q.cqTail + 1 }
    if q.irqEn && (w.event || w.irq) then s.raise r else s

/-- An entry joins the waiting list; a later event of one code and context replaces the one that waits (R665). -/
def putWait (l : List WaitEnt) (w : WaitEnt) : List WaitEnt :=
  if w.event && l.any (fun v => v.event && v.code == w.code && v.ctx == w.ctx) then
    l.map fun v => if v.event && v.code == w.code && v.ctx == w.ctx then w else v
  else l ++ [w]

/-- An entry is written, or waits while the ring is full (R646, R665). -/
def State.putEntry (s : State) (r : Nat) (w : WaitEnt) : State :=
  let q := s.ringAt r
  if q.full || !q.waiting.isEmpty then s.modRing r fun q => { q with waiting := putWait q.waiting w }
  else s.writeEntry r w

/-- Waiting entries are written while there is space (R646); `k` bounds their number. -/
def State.drainWait (s : State) (r : Nat) : Nat → State
  | 0 => s
  | k + 1 =>
    let q := s.ringAt r
    match q.waiting with
    | [] => s
    | w :: rest =>
      if q.full then s
      else ((s.modRing r fun q => { q with waiting := rest }).writeEntry r w).drainWait r k

/-- The reply of the command in progress on ring r (R655, R656); none after a hot reset (R651). -/
def State.reply (s : State) (r : Nat) (pkt : BitVec 512) (status detail outLen : Nat) : State :=
  let q := s.ringAt r
  let s := s.modRing r fun q => { q with cur := none, mute := false }
  if q.mute then s
  else
    let v := pkt.toNat
    s.putEntry r
      { event := false, code := BitVec.ofNat 16 status, ctx := 0,
        entry := entryBits (bits v 63 32) status r detail s.stbTicks outLen, irq := bitOf v 16 }

/-- An event entry of a context (R663, R664): written to the ring it names while that ring is enabled. -/
def State.event (s : State) (c code detail : Nat) : State :=
  match (s.ctxAt c).evtRing with
  | none => s
  | some r =>
    if !(s.ringAt r.val).en then s
    else
      s.putEntry r.val
        { event := true, code := BitVec.ofNat 16 code, ctx := c,
          entry := entryBits 0xFFFFFFFF code r.val detail s.stbTicks 0, irq := true }

end Sys2Proof.Machine
end

