-- ==== Sys2Proof/Machine/Regs.lean ====
section
/-! DEFINITION. The registers: where each lies (R862-R864), what a read returns, what a clearing read clears, the
capture lists of CLEAR_ERRORS and the crash slot (R865-R868), and the telemetry sets (R869-R871). -/

namespace Sys2Proof.Machine

/-! ## The registers -/

/-- The registers of the register map. A crossing unit is 0-3 for a compute die and 4 for Town Hall. -/
inductive Reg where
  | remap (d i : Nat) | coreState (d i : Nat) | tflag (d i : Nat) | flagSum (d b : Nat) | flagStep (d b : Nat)
  | memStatus (k : Nat) | eccCnt (k : Nat) | eccLog (k : Nat) | scrubPos (k : Nat) | scrubCfg (d : Nat)
  | memLock (d : Nat) | xsStatus (u : Nat) | xsLog (u : Nat) | cxStatus (d : Nat) | cxToLog (d : Nat)
  | cxNacc (d b : Nat) | cxGnorm (d b : Nat) | cxDrops (d : Nat) | ueStatus (d : Nat) | ueJrnl (d : Nat)
  | ueStall (d : Nat) | aeStatus (d c : Nat) | aeLog (d c : Nat) | aeCnt (d c i : Nat) | accStatus (d c : Nat)
  | veStatus (d c : Nat) | meStatus (d c : Nat) | meStall (d c : Nat) | bootStatus | secStatus | keySeq
  | lsecCtl (c : Nat) | lsecKey (w : Nat) | lsecJob | lsecStatus | lsecLock | sqBase (r : Nat) | cqBase (r : Nat)
  | citCtl (r : Nat) | sqPtr (r : Nat) | cqPtr (r : Nat) | citStatus (r : Nat) | cmStatus | cmLast | fltStatus
  | fltCnt | fltLogPos | topo | mews (i : Nat) | stbTime | stbState | slot (j : Nat) | linkStatus (j : Nat)
  | linkErr (j : Nat) | bktCfg (io : Nat) | linkLock (io : Nat) | mktStatus (io : Nat) | mktStall (io j : Nat)
  | pmcStatus | pmcDiv (n : Nat) | plwin | plrail | pwr | rail (t : Nat) | holdup (t : Nat) | cntSkip (n : Nat)
  | fruCtl | sbStatus | fruStage (w : Nat) | fruData (w : Nat)
  deriving DecidableEq, Repr

/-- Whether a register has 64 bits. -/
def Reg.wide : Reg → Bool
  | .flagStep _ _ | .eccLog _ | .xsLog _ | .cxToLog _ | .cxNacc _ _ | .cxGnorm _ _ | .ueJrnl _ | .aeLog _ _
  | .sqBase _ | .cqBase _ | .cmLast | .fltCnt | .stbTime | .stbState | .linkErr _ | .bktCfg _ => true
  | _ => false

/-- The number of an array of registers at `base`, `stride` apart, that an offset names. -/
def regIdx (base stride n off : Nat) : Option Nat :=
  if base ≤ off ∧ (off - base) % stride = 0 ∧ (off - base) / stride < n then some ((off - base) / stride) else none

/-- A register of a core block (R863). -/
def coreReg (d c off : Nat) : Option Reg :=
  match off with
  | 0x000 => some (.aeStatus d c)
  | 0x008 => some (.aeLog d c)
  | 0x010 => some (.aeCnt d c 0)
  | 0x014 => some (.aeCnt d c 1)
  | 0x018 => some (.aeCnt d c 2)
  | 0x01C => some (.aeCnt d c 3)
  | 0x020 => some (.accStatus d c)
  | 0x030 => some (.veStatus d c)
  | 0x040 => some (.meStatus d c)
  | 0x044 => some (.meStall d c)
  | _ => none

/-- A register of a compute die (R862). -/
def dieReg (d off : Nat) : Option Reg :=
  if 0x100000 ≤ off then
    if (off - 0x100000) / 0x1000 < 96 then coreReg d ((off - 0x100000) / 0x1000) ((off - 0x100000) % 0x1000) else none
  else
    (regIdx 0 4 96 off).map (Reg.remap d)
    <|> (regIdx 0x200 4 100 off).map (Reg.coreState d)
    <|> (regIdx 0x1000 4 64 off).map (Reg.tflag d)
    <|> (regIdx 0x1100 4 2 off).map (Reg.flagSum d)
    <|> (regIdx 0x1108 8 2 off).map (Reg.flagStep d)
    <|> (regIdx 0x2000 4 4 off).map (fun k => Reg.memStatus (4 * d + k))
    <|> (regIdx 0x2010 4 4 off).map (fun k => Reg.eccCnt (4 * d + k))
    <|> (regIdx 0x2020 8 4 off).map (fun k => Reg.eccLog (4 * d + k))
    <|> (regIdx 0x2040 4 4 off).map (fun k => Reg.scrubPos (4 * d + k))
    <|> (match off with
      | 0x2050 => some (.scrubCfg d)
      | 0x2054 => some (.memLock d)
      | 0x3000 => some (.xsStatus d)
      | 0x3008 => some (.xsLog d)
      | 0x4000 => some (.cxStatus d)
      | 0x4008 => some (.cxToLog d)
      | 0x4010 => some (.cxNacc d 0)
      | 0x4018 => some (.cxNacc d 1)
      | 0x4020 => some (.cxGnorm d 0)
      | 0x4028 => some (.cxGnorm d 1)
      | 0x4030 => some (.cxDrops d)
      | 0x5000 => some (.ueStatus d)
      | 0x5008 => some (.ueJrnl d)
      | 0x5010 => some (.ueStall d)
      | _ => none)

/-- A register of a ring pair. -/
def ringReg (r off : Nat) : Option Reg :=
  match off with
  | 0x00 => some (.sqBase r)
  | 0x08 => some (.cqBase r)
  | 0x10 => some (.citCtl r)
  | 0x14 => some (.sqPtr r)
  | 0x18 => some (.cqPtr r)
  | 0x1C => some (.citStatus r)
  | _ => none

/-- A register of Town Hall's die (R864); `links` is the number of Avenue links and `mewses` of Mews links. -/
def townReg (links mewses off : Nat) : Option Reg :=
  (regIdx 0x100 4 4 off).map Reg.lsecCtl
  <|> (regIdx 0x120 4 8 off).map Reg.lsecKey
  <|> (if 0x1000 ≤ off ∧ off < 0x1200 then ringReg ((off - 0x1000) / 0x40) ((off - 0x1000) % 0x40) else none)
  <|> (regIdx 0x2040 4 mewses off).map Reg.mews
  <|> (regIdx 0x2100 4 links off).map Reg.slot
  <|> (match off with
    | 0x0000 => some .bootStatus
    | 0x0004 => some .secStatus
    | 0x0008 => some .keySeq
    | 0x0140 => some .lsecJob
    | 0x0144 => some .lsecStatus
    | 0x0148 => some .lsecLock
    | 0x2000 => some (.xsStatus 4)
    | 0x2008 => some (.xsLog 4)
    | 0x2010 => some .cmStatus
    | 0x2018 => some .cmLast
    | 0x2020 => some .fltStatus
    | 0x2028 => some .fltCnt
    | 0x2030 => some .fltLogPos
    | 0x2034 => some .topo
    | 0x2050 => some .stbTime
    | 0x2058 => some .stbState
    | _ => none)

/-- A register of every I/O die (R864). -/
def linkReg (io off : Nat) : Option Reg :=
  (regIdx 0x3000 4 12 off).map (fun j => Reg.linkStatus (12 * io + j))
  <|> (regIdx 0x3040 8 12 off).map (fun j => Reg.linkErr (12 * io + j))
  <|> (regIdx 0x4010 4 12 off).map (Reg.mktStall io)
  <|> (match off with
    | 0x30A0 => some (.bktCfg io)
    | 0x30A8 => some (.linkLock io)
    | 0x4000 => some (.mktStatus io)
    | _ => none)

/-- A register of the PMC's die (R864); `n` is the number of compute dies and tiles. -/
def pmcReg (n off : Nat) : Option Reg :=
  (regIdx 0x5010 4 n off).map Reg.pmcDiv
  <|> (regIdx 0x5030 4 n off).map Reg.rail
  <|> (regIdx 0x5040 4 n off).map Reg.holdup
  <|> (regIdx 0x5050 4 n off).map Reg.cntSkip
  <|> (regIdx 0x6100 4 60 off).map Reg.fruStage
  <|> (regIdx 0x6200 4 64 off).map Reg.fruData
  <|> (match off with
    | 0x5000 => some .pmcStatus
    | 0x5020 => some .plwin
    | 0x5024 => some .plrail
    | 0x5028 => some .pwr
    | 0x6000 => some .fruCtl
    | 0x6004 => some .sbStatus
    | _ => none)

/-- The register at an offset of a unit's register window; none where the part has none, which reads as zero (R29). -/
def State.regAt (s : State) (u off : Nat) : Option Reg :=
  if !s.unitOn u || 6 ≤ u then none
  else if u ≤ 3 then dieReg u off
  else
    linkReg (u - 4) off
    <|> (if u = 4 then townReg s.links (if s.ios = 2 then 4 else 1) off else none)
    <|> (if u = 4 + s.pmcIo then pmcReg s.dies off else none)

/-! ## Values -/

/-- Fields packed at their lowest bits (R3). -/
def pk (l : List (Nat × Nat)) : Nat := l.foldl (fun a p => a + p.2 * 2 ^ p.1) 0

/-- The core a core block reaches (R863). -/
def State.blockCore (s : State) (d c : Nat) : CoreSt := tget .reset s.core (d * 128 + s.physOf d c)

/-- The package with the core of a core block changed. -/
def State.modBlock (s : State) (d c : Nat) (f : CoreSt → CoreSt) : State :=
  { s with core := tmod .reset s.core (d * 128 + s.physOf d c) f }

/-- LINK_STATUS.STATE (R520). -/
def LinkPhase.code : LinkPhase → Nat
  | .disabled => 0
  | .training => 1
  | .active => 2
  | .retraining => 3
  | .withdrawing => 4
  | .withdrawn => 5

/-- MEWS_STATUS.STATE (R523). -/
def LinkPhase.mewsCode : LinkPhase → Nat
  | .retraining | .training => 1
  | .withdrawing | .withdrawn => 2
  | .disabled | .active => 0

/-- STB_STATE.STATE (R433). -/
def ServoSt.code : ServoSt → Nat
  | .free => 0
  | .acquire => 1
  | .locked => 2
  | .holdover => 3
  | .master => 4

/-- MEM_STATUS.REFRESH of a band (R347, R352). -/
def Band.refresh : Band → Nat
  | .b1x => 0
  | .b2x => 1
  | .b4x | .throttled => 2
  | .shutdown => 3

/-- A controlling temperature in whole degrees, as MEM_STATUS.TEMP holds it. -/
def tempC (t : Int) : Nat := min 255 (t / 16).toNat

/-- The state of a physical core (R306): 0 mapped, 1 spare, 2 fenced, 3 failed screening; as assembled, 0-95 are
mapped and 96-99 spare (assumption log 10). -/
def State.physState (s : State) (d p : Nat) : Nat := tget (if p < 96 then 0 else 1) s.remap.state (d * 128 + p)

/-- CD_CORESTATE_ii. -/
def State.coreStateReg (s : State) (d p : Nat) : Nat :=
  let st := s.physState d p
  let l := if st = 0 then ((List.range 96).find? fun c => s.physOf d c == p).getD 0x7F else 0x7F
  st + 4 * l

/-- The windowed limits that are enabled, with their sources (R784, R810). -/
def State.winLimits (s : State) : List (Nat × Nat × Nat) :=
  let p := s.pmc
  let one (l : LimitSt) (src : Nat) := if l.en then [(l.limit, l.ms, src)] else []
  one p.hostWin 0 ++ one p.sbWin 1
    ++ (match s.cur.bind fun c => c.2.cfg with
        | some g => if g.power.pwinLimit = 0 then [] else [(g.power.pwinLimit, g.power.pwinMs, 2)]
        | none => [])

/-- The rail limits that are enabled, with their sources. -/
def State.railLimits (s : State) : List (Nat × Nat) :=
  let p := s.pmc
  let one (l : LimitSt) (src : Nat) := if l.en then [(l.limit, src)] else []
  one p.hostRail 0 ++ one p.sbRail 1
    ++ (match s.cur.bind fun c => c.2.cfg with
        | some g => if g.power.railLimit = 0 then [] else [(g.power.railLimit, 2)]
        | none => [])

/-- The windowed limit in force: the lowest, and of equal ones the shortest window (R784). -/
def State.winLimit (s : State) : Option (Nat × Nat × Nat) :=
  s.winLimits.foldl (fun a l => match a with
    | none => some l
    | some b => if l.1 < b.1 ∨ (l.1 = b.1 ∧ l.2.1 < b.2.1) then some l else some b) none

/-- The rail limit in force. -/
def State.railLimit (s : State) : Option (Nat × Nat) :=
  s.railLimits.foldl (fun a l => match a with
    | none => some l
    | some b => if l.1 < b.1 then some l else some b) none

/-- The mean of the newest `n` samples of a history. -/
def meanOf (l : List Nat) (n : Nat) : Nat := let t := l.take n; if t.isEmpty then 0 else sumNat t / t.length

/-- A tile's readings. -/
def State.tileAt (s : State) (t : Nat) : TileSt := tget .reset s.pmc.tiles t

/-- A die's terms. -/
def State.divAt (s : State) (d : Nat) : DivSt := tget .reset s.pmc.div d

/-- PMC_PWR (R811): the newest 50 samples of 2 µs are the last 100 µs. -/
def State.pwrReg (s : State) : Nat :=
  let pin := meanOf s.pmc.pHist 50 / 100
  let pw := match s.winLimit with
    | some l => meanOf s.pmc.pHist (500 * l.2.1) / 100
    | none => 0
  pk [(0, pin % 65536), (16, pw % 65536)]

/-- FRU record bytes (R879) with a generation and DATA. -/
def fruRecord (gen : Nat) (data : Bytes) : Bytes :=
  let b := leBytes 4 0x46525530 ++ leBytes 2 gen ++ [0#8, 0#8] ++ slice data 0 240
  b ++ leBytes 8 (crc64 b).toNat

/-- A FRU slot as the JD holds it; the record of assembly lies in slot 0 (R880). -/
def State.fruSlot (s : State) (i : Nat) : Bytes :=
  let b := s.jdRead (0x2000 + 0x100 * i) 256
  if i = 0 ∧ b.all (· == 0#8) then fruRecord 0 [] else b

/-- Whether a FRU slot is valid. -/
def fruValid (b : Bytes) : Bool := fld b 0 4 == 0x46525530 && fld b 0xF8 8 == (crc64 (b.take 248)).toNat

/-- The committed record of the JD (R880). -/
def State.fruStored (s : State) : Bytes :=
  let a := s.fruSlot 0
  let b := s.fruSlot 1
  if fruValid b && (!fruValid a || fld b 4 2 == (fld a 4 2 + 1) % 65536) then b else a

/-- The committed record in force: the JD's before stage 2 loads it. -/
def State.fruCommitted (s : State) : Bytes := if s.fru.committed.isEmpty then s.fruStored else s.fru.committed

/-- The host's staging buffer. -/
def State.fruHostStage (s : State) : Bytes :=
  if s.fru.hostStage.isEmpty then slice s.fruStored 8 240 else s.fru.hostStage

/-- The value of a register, reserved bits zero. -/
def State.regVal (s : State) : Reg → Nat
  | .remap d i => s.physOf d i
  | .coreState d i => s.coreStateReg d i
  | .tflag d i => tflagReg s.sync.tflag d i
  | .flagSum d b => (flagAny s.sync.tflag d b).toNat
  | .flagStep d b => (tget 0#64 s.sync.flagStep (2 * d + b)).toNat
  | .memStatus k =>
    let t := s.stackAt k
    let r := if s.pmc.selfRefresh then 3 else t.band.refresh
    pk [(0, r), (2, b2n (t.band == .throttled)), (3, b2n (t.band == .shutdown)), (4, b2n t.failed),
        (5, b2n s.globalIl), (8, tempC t.temp)]
  | .eccCnt k => pk [(0, (s.stackAt k).ceCnt.toNat), (24, (s.stackAt k).ueCnt.toNat)]
  | .eccLog k => (s.stackAt k).log.toNat
  | .scrubPos k => pk [(0, (s.stackAt k).chunk.toNat), (25, (s.stackAt k).passes.toNat)]
  | .scrubCfg d => (tget 0x3EBE8#32 s.scrub d).toNat
  | .memLock d => let l := tget .reset s.memLock d; pk [(0, b2n l.lock), (1, b2n l.viol)]
  | .xsStatus u =>
    let x := s.xsAt u
    pk [(0, b2n x.hang), (1, b2n x.abandoned), (2, b2n x.ovf), (3, b2n x.late), (4, b2n x.stray)]
  | .xsLog u => (s.xsAt u).log.toNat
  | .cxStatus d => let c := s.cxAt d; pk [(0, b2n c.timeout), (1, b2n c.expOor), (2, c.slots.length)]
  | .cxToLog d => (s.cxAt d).toLog.toNat
  | .cxNacc d b => (if b = 0 then (s.cxAt d).nacc0 else (s.cxAt d).nacc1).toNat
  | .cxGnorm d b => (if b = 0 then (s.cxAt d).gnorm0 else (s.cxAt d).gnorm1).toNat
  | .cxDrops d => (s.cxAt d).drops.toNat
  | .ueStatus d =>
    let u := s.ueAt d
    pk [(0, b2n (u.spec && u.cur.isSome)), (1, b2n u.jstall), (2, b2n u.nfErr), (3, b2n u.jrnlErr)]
  | .ueJrnl d => ((s.ueAt d).ueBytes + (s.ueAt d).cxBytes) % 2 ^ 40
  | .ueStall d => (s.ueAt d).jstallCnt.toNat
  | .aeStatus d c =>
    let k := s.blockCore d c
    pk [(0, b2n k.abftErr), (1, b2n k.ae.loadWaits), (2, b2n k.frozen), (3, k.ae.level)]
  | .aeLog d c => (s.blockCore d c).abftLog.toNat
  | .aeCnt d c i =>
    let k := s.blockCore d c
    (if i = 0 then k.cntFrz else if i = 1 then k.cntGap else if i = 2 then k.cntRamp else k.cntLdw).toNat
  | .accStatus d c =>
    let k := s.blockCore d c
    pk [(0, b2n k.ve0), (1, b2n k.ve1), (2, b2n k.mrwErr)]
  | .veStatus d c => let k := s.blockCore d c; pk [(0, b2n k.resErr), (1, b2n k.parErr)]
  | .meStatus d c =>
    let k := s.blockCore d c
    pk [(0, k.outstanding), (6, b2n k.idxOor), (7, b2n k.codecErr)]
  | .meStall d c => (s.blockCore d c).meStall.toNat
  | .bootStatus => pk [(0, s.sec.stage), (4, b2n s.sec.copyB), (8, s.sec.fail.toNat), (16, s.fuse.arb)]
  | .secStatus =>
    pk [(0, s.sec.lockBusy.toNat), (4, b2n s.sec.seqFail), (5, b2n s.sec.regionViol), (6, b2n (s.sec.scope != 0)),
        (7, b2n s.sec.dbgDisabled)]
  | .keySeq => 0
  | .lsecCtl c =>
    let l := (s.ctxAt c).lsec
    pk [(0, b2n l.en), (1, b2n l.hs), (3, b2n l.valid), (4, l.keyJob.toNat)]
  | .lsecKey _ => 0
  | .lsecJob => s.sec.stageJob.toNat
  | .lsecStatus => s.sec.authCnt.toNat
  | .lsecLock => pk [(0, b2n s.lsecLock.lock), (1, b2n s.lsecLock.viol)]
  | .sqBase r => pk [(0, b2n (s.ringAt r).sqLoc), (12, (s.ringAt r).sqAddr.toNat)]
  | .cqBase r => pk [(12, (s.ringAt r).cqAddr.toNat)]
  | .citCtl r => pk [(0, b2n (s.ringAt r).en), (1, b2n (s.ringAt r).irqEn)]
  | .sqPtr r => pk [(0, (s.ringAt r).sqTail.toNat), (16, (s.ringAt r).sqHead.toNat)]
  | .cqPtr r => pk [(0, (s.ringAt r).cqHead.toNat), (16, (s.ringAt r).cqTail.toNat)]
  | .citStatus r =>
    let q := s.ringAt r
    pk [(0, b2n q.overrun), (1, b2n q.badAddr), (2, b2n q.full), (3, b2n q.stopped)]
  | .cmStatus => pk [(0, b2n s.cm.defer), (1, b2n s.cm.slot), (2, b2n s.cm.torn)]
  | .cmLast => s.cm.last.toNat
  | .fltStatus =>
    let f := s.flt
    pk [(0, b2n f.halted), (1, b2n f.origin), (2, b2n f.lasting), (3, b2n f.sensDis), (4, b2n f.lftFull),
        (5, b2n (!s.pin.ttrip0 || !s.pin.ttrip1))]
  | .fltCnt => pk [(0, s.flt.cntTransient.toNat), (32, s.flt.cntLasting.toNat), (48, s.flt.cntHalts.toNat)]
  | .fltLogPos => pk [(0, s.flt.next.toNat), (12, s.flt.lftUsed), (23, s.flt.crashNext.toNat)]
  | .topo => pk [(0, b2n s.net.topo.degraded), (1, b2n s.net.topo.failed), (2, s.net.topo.groupDown.toNat)]
  | .mews i =>
    let m := s.memberAt (24 + i)
    pk [(0, m.st.mewsCode), (2, m.spares.toNat), (11, m.replayCnt.toNat)]
  | .stbTime => s.stbTicks % 2 ^ 64
  | .stbState =>
    let b := s.stb
    let ep := match s.cur with
      | some c => c.2.epoch.toNat
      | none => 0
    pk [(0, b.st.code), (3, match b.parent with
          | some p => p.val
          | none => 0x1F), (8, b.hops % 64), (16, ep), (32, b.offset.toNat)]
  | .slot j =>
    let t := tget .reset s.sync.slot j
    pk [(0, t.edge.toNat), (15, b2n t.hsk), (16, t.miss.toNat)]
  | .linkStatus j =>
    let m := s.memberAt j
    let r := s.role j
    pk [(0, m.st.code), (3, r.1), (6, r.2), (8, b2n m.marginErr), (9, b2n m.misroute), (10, b2n m.busy),
        (11, min 15 m.retrains)]
  | .linkErr j =>
    let m := s.memberAt j
    pk [(0, m.corrCnt.toNat), (32, m.replayCnt.toNat), (48, m.uncorrCnt.toNat)]
  | .bktCfg io => (tget 0xC8C803E800040410#64 s.net.bktCfg io).toNat
  | .linkLock io => let l := tget .reset s.linkLock io; pk [(0, b2n l.lock), (1, b2n l.viol)]
  | .mktStatus io => let k := s.mktAt io; pk [(0, k.idle), (14, b2n k.pendCfg.isSome)]
  | .mktStall io j => (tget 0#32 (s.mktAt io).stalls j).toNat
  | .pmcStatus =>
    let ds := (List.range s.dies).map s.divAt
    pk [(0, b2n (decide (0 < s.pmc.winTerm))), (1, b2n (ds.any fun d => decide (0 < d.rail))),
        (2, b2n (ds.any fun d => decide (0 < d.therm))), (3, b2n (!s.pmc.droop.isEmpty)), (4, b2n s.pmc.huLow),
        (5, b2n s.pmc.oc)]
  | .pmcDiv n =>
    let d := s.divAt n
    pk [(0, d.target), (3, s.pmc.winTerm), (6, d.rail), (9, d.therm)]
  | .plwin => (match s.winLimit with
    | some l => pk [(0, l.1), (16, l.2.1), (23, l.2.2)]
    | none => pk [(23, 3)])
  | .plrail => (match s.railLimit with
    | some l => pk [(0, l.1), (7, l.2)]
    | none => pk [(7, 3)])
  | .pwr => s.pwrReg
  | .rail t => let x := s.tileAt t; pk [(0, x.irail / 10 % 65536), (16, x.vin % 65536)]
  | .holdup t => let x := s.tileAt t; pk [(0, x.energy % 65536), (16, x.vib % 65536)]
  | .cntSkip n => (tget 0#32 s.pmc.skip n).toNat
  | .fruCtl =>
    pk [(2, b2n (s.fru.running.isSome || !s.fru.queued.isEmpty)), (3, b2n s.fru.done), (4, b2n s.fru.fail),
        (16, fld s.fruCommitted 4 2)]
  | .sbStatus =>
    pk [(0, s.sb.daddr.toNat), (7, b2n s.sb.daValid), (8, s.sb.events.toNat), (16, s.sb.mask.toNat)]
  | .fruStage w => fld s.fruHostStage (4 * w) 4
  | .fruData w => fld (if s.fru.hostSnap.isEmpty then s.fruStored else s.fru.hostSnap) (4 * w) 4

/-- The reserved bits of a register that hold what is written to them (R10; assumption log 19). -/
def Reg.rsvMask : Reg → Nat
  | .remap _ _ => 0xFFFFFF80
  | .coreState _ _ => 0xFFFFFE00
  | .flagSum _ _ => 0xFFFFFFF0
  | .memStatus _ => 0xFFFF00C0
  | .eccLog _ => 0xFFFFFFC000000000
  | .scrubCfg _ => 0xFE000000
  | .memLock _ | .linkLock _ | .lsecLock => 0xFFFFFFFC
  | .xsStatus _ => 0xFFFFFFE0
  | .xsLog _ => 0xFFC0000000000000
  | .cxStatus _ => 0xFFFFFFE0
  | .cxNacc _ _ | .cxGnorm _ _ => 0xFFFF000000000000
  | .ueStatus _ => 0xFFFFFFF0
  | .ueJrnl _ => 0xFFFFFF0000000000
  | .aeStatus _ _ => 0xFFFFFFC0
  | .aeLog _ _ => 0xFFFFFFF000000000
  | .accStatus _ _ => 0xFFFFFFF8
  | .veStatus _ _ => 0xFFFFFFFC
  | .meStatus _ _ => 0xFFFFFF00
  | .bootStatus => 0xFF8000E0
  | .secStatus => 0xFFFFFF00
  | .lsecCtl _ => 0xFFF00000
  | .lsecJob => 0xFFFF0000
  | .sqBase _ => 0xFFE
  | .cqBase _ => 0xFFF
  | .citCtl _ => 0xFFFFFFFC
  | .citStatus _ => 0xFFFFFFF0
  | .cmStatus => 0xFFFFFFF8
  | .fltStatus => 0xFFFFFFC0
  | .fltLogPos => 0xF8000000
  | .topo => 0xFFFFFF00
  | .mews _ => 0xF8000000
  | .stbState => 0xFFFF00000000C000
  | .slot _ => 0x80000000
  | .linkStatus _ => 0xFFFF8000
  | .bktCfg _ => 0xFF000000
  | .mktStatus _ => 0xFFFF8000
  | .pmcStatus => 0xFFFFFFC0
  | .pmcDiv _ => 0xFFFFF000
  | .plwin => 0xFE000000
  | .plrail => 0xFFFFFE00
  | .fruCtl => 0x0000FFE0
  | .sbStatus => 0xFF000000
  | _ => 0

/-- Where the reserved bits of a register lie in `State.rsv`. -/
def rsvKey (u off : Nat) : Nat := u * 2 ^ 23 + off

/-- What a read of the register at an offset returns. -/
def State.regRead (s : State) (u off : Nat) (r : Reg) : BitVec 64 :=
  BitVec.ofNat 64 (s.regVal r) ||| (tget 0#64 s.rsv (rsvKey u off) &&& BitVec.ofNat 64 r.rsvMask)

/-! ## Clearing reads (R10, R12, R857) -/

/-- The package after the RC fields of a register are cleared: those of bits [31:0] when `lo`, of [63:32] when `hi`. A
log that a status register releases reads 0 from then on (R199; DESIGN CHOICE: assumption log 92). -/
def State.regClear (s : State) (r : Reg) (lo hi : Bool) : State :=
  match r with
  | .eccCnt k => s.modStack k fun t => { t with ceCnt := 0, ueCnt := 0, log := 0 }
  | .xsStatus u => s.modXs u fun x =>
      { hang := false, abandoned := false, ovf := false, late := false, stray := false,
        log := if x.hang then 0 else x.log }
  | .cxStatus d => s.modCx d fun c => { c with timeout := false, expOor := false, toLog := 0 }
  | .cxDrops d => s.modCx d fun c => { c with drops := 0 }
  | .ueStatus d => s.modUe d fun u => { u with nfErr := false, jrnlErr := false }
  | .ueStall d => s.modUe d fun u => { u with jstallCnt := 0 }
  | .aeStatus d c => s.modBlock d c fun k => { k with abftErr := false, abftLog := 0 }
  | .aeCnt d c i => s.modBlock d c fun k =>
      if i = 0 then { k with cntFrz := 0 } else if i = 1 then { k with cntGap := 0 }
      else if i = 2 then { k with cntRamp := 0 } else { k with cntLdw := 0 }
  | .accStatus d c => s.modBlock d c fun k => { k with mrwErr := false }
  | .veStatus d c => s.modBlock d c fun k => { k with resErr := false, parErr := false }
  | .meStatus d c => s.modBlock d c fun k => { k with idxOor := false, codecErr := false }
  | .meStall d c => s.modBlock d c fun k => { k with meStall := 0 }
  | .secStatus => { s with sec := { s.sec with lockBusy := 0, seqFail := false, regionViol := false } }
  | .lsecStatus => { s with sec := { s.sec with authCnt := 0 } }
  | .citStatus q => s.modRing q fun t => { t with overrun := false, badAddr := false }
  | .cmStatus => { s with cm := { s.cm with defer := false, torn := false } }
  | .fltStatus => { s with flt := { s.flt with lasting := false, sensDis := false } }
  | .fltCnt =>
    let s := if lo then { s with flt := { s.flt with cntTransient := 0 } } else s
    if hi then { s with flt := { s.flt with cntLasting := 0, cntHalts := 0 } } else s
  | .mews i => s.modMember (24 + i) fun m => { m with replayCnt := 0 }
  | .slot j => { s with sync := { s.sync with slot := tmod .reset s.sync.slot j fun t => { t with edge := 0, miss := 0 } } }
  | .linkStatus j => s.modMember j fun m => { m with marginErr := false, misroute := false }
  | .linkErr j =>
    let s := if lo then s.modMember j fun m => { m with corrCnt := 0 } else s
    if hi then s.modMember j fun m => { m with replayCnt := 0, uncorrCnt := 0 } else s
  | .mktStall io j => s.modMkt io fun k => { k with stalls := tset 0#32 k.stalls j 0#32 }
  | .pmcStatus => { s with pmc := { s.pmc with oc := false } }
  | .cntSkip n => { s with pmc := { s.pmc with skip := tset 0#32 s.pmc.skip n 0#32 } }
  | .fruCtl => { s with fru := { s.fru with done := false, fail := false } }
  | _ => s

/-! ## Error groups (R865-R868) -/

/-- The registers of one unit of a group. -/
def perUnit (n : Nat) (f : Nat → List Reg) : List Reg := (List.range n).flatMap f

/-- The registers of an error group in the order of R865; an absent unit's registers keep their places. -/
def groupRegs (g : Nat) : List Reg :=
  match g with
  | 0 => perUnit 384 fun i =>
      let d := i / 96
      let c := i % 96
      [.aeLog d c, .aeStatus d c, .accStatus d c, .aeCnt d c 0, .aeCnt d c 1, .aeCnt d c 2, .aeCnt d c 3]
  | 1 => perUnit 384 fun i => [.veStatus (i / 96) (i % 96), .meStatus (i / 96) (i % 96), .meStall (i / 96) (i % 96)]
  | 2 => perUnit 16 fun k => [.eccLog k, .eccCnt k]
  | 3 => perUnit 5 fun u => [.xsLog u, .xsStatus u]
  | 4 => perUnit 4 fun d => [.cxToLog d, .cxStatus d, .cxDrops d, .ueStatus d, .ueStall d]
  | 5 => perUnit 24 (fun j => [.linkStatus j, .linkErr j]) ++ [.mews 0, .mews 1, .mews 2, .mews 3]
  | 6 => perUnit 24 fun j => [.slot j]
  | 7 => perUnit 2 fun io => perUnit 12 fun j => [.mktStall io j]
  | 8 => [.pmcStatus, .cntSkip 0, .cntSkip 1, .cntSkip 2, .cntSkip 3]
  | 9 => [.secStatus, .lsecStatus]
  | 10 => [.fltStatus, .fltCnt, .cmStatus]
  | 11 => perUnit 8 fun r => [.citStatus r]
  | _ => []

/-- Whether the part has a compute die. -/
def State.hasDie (s : State) (d : Nat) : Bool := decide (d < s.dies)

/-- Whether the part has the unit of a register; Town Hall's and the PMC's own it always has. -/
def State.hasReg (s : State) : Reg → Bool
  | .aeStatus d _ | .aeLog d _ | .aeCnt d _ _ | .accStatus d _ | .veStatus d _ | .meStatus d _ | .meStall d _ => s.hasDie d
  | .remap d _ | .coreState d _ | .tflag d _ | .flagSum d _ | .flagStep d _ | .scrubCfg d | .memLock d => s.hasDie d
  | .cxStatus d | .cxToLog d | .cxNacc d _ | .cxGnorm d _ | .cxDrops d => s.hasDie d
  | .ueStatus d | .ueJrnl d | .ueStall d => s.hasDie d
  | .pmcDiv d | .rail d | .holdup d | .cntSkip d => s.hasDie d
  | .memStatus k | .eccCnt k | .eccLog k | .scrubPos k => decide (k < s.stacks)
  | .xsStatus u | .xsLog u => u == 4 || s.hasDie u
  | .mews i => i == 0 || s.ios == 2
  | .slot j | .linkStatus j | .linkErr j => decide (j < s.links)
  | .bktCfg io | .linkLock io | .mktStatus io | .mktStall io _ => decide (io < s.ios)
  | _ => true

/-- A register's value through its peek alias; an absent unit's register is zero. -/
def State.peek (s : State) (r : Reg) : Nat := if s.hasReg r then s.regVal r else 0

/-- Whether a register is a capture log (R867, R868). -/
def Reg.isLog : Reg → Bool
  | .aeLog _ _ | .eccLog _ | .xsLog _ | .cxToLog _ => true
  | _ => false

/-- The registers of the groups that a mask selects. -/
def maskRegs (groups : Nat) : List Reg := (List.range 12).flatMap fun g => if groups.testBit g then groupRegs g else []

/-- What CLEAR_ERRORS writes (R866): GROUPS, the entry count and the STB, then one entry for each register. -/
def State.errorReport (s : State) (groups : Nat) : Bytes :=
  let regs := maskRegs groups
  leBytes 4 groups ++ leBytes 4 regs.length ++ leBytes 8 s.stbTicks ++ regs.flatMap fun g => leBytes 8 (s.peek g)

/-- The capture lists of a crash slot (R868): the logs, then every other register. -/
def State.captureBytes (s : State) : Bytes :=
  let all := maskRegs 0xFFF
  ((all.filter Reg.isLog) ++ all.filter fun r => !r.isLog).flatMap fun r => leBytes 8 (s.peek r)

/-! ## Telemetry (R869-R871) -/

/-- A reading in 1/16 °C as two bytes. -/
def readingBytes (t : Int) : Bytes := leBytes 2 (ofInt 16 t)

/-- One sensor as R746 reads it: 150 °C when it does not respond or lies outside -40 to 150 °C. -/
def sensor (t : Option Int) : Int :=
  match t with
  | none => 2400
  | some v => if v < -640 ∨ 2400 < v then 2400 else v

/-- The controlling reading of a pair (R745). -/
def ctrlReading (p : PairReading) : Int := max (sensor p.a) (sensor p.b)

/-- The latest reading of pair i of telemetry set 1; before any sample both read zero (assumption log 12). -/
def State.pairAt (s : State) (i : Nat) : PairReading := s.pmc.pairs.getD i { a := some 0, b := some 0 }

/-- Whether the part has the unit of pair i. -/
def State.pairOn (s : State) (i : Nat) : Bool :=
  if i < 32 then i / 8 < s.dies
  else if i < 36 then (i - 32) / 2 < s.ios
  else if i < 52 then (i - 36) / 4 < s.dies
  else if i = 52 then true
  else i - 53 < s.stacks

/-- The highest controlling reading of a range of pairs; an absent unit reads zero. -/
def State.hottest (s : State) (first n : Nat) : Int :=
  if !s.pairOn first then 0
  else (List.range n).foldl (fun a i => max a (ctrlReading (s.pairAt (first + i)))) (ctrlReading (s.pairAt first))

/-- CTX_STATE's codes (R666). -/
def CtxPhase.code : CtxPhase → Nat
  | .free => 0
  | .idle => 1
  | .stepping => 2
  | .saving => 3
  | .saved => 4
  | .restoring => 5
  | .faulted => 6
  | .destroying => 7

/-- RESIDENT and CTX_STATE of the package summary. -/
def State.residentBytes (s : State) : Bytes :=
  match s.cur with
  | none => [0xFF#8, 0#8]
  | some (c, x) => [BitVec.ofNat 8 c.val, BitVec.ofNat 8 x.st.code]

/-- The voltage of the phases of a load in mV: their mean (assumption log 90). -/
def phaseMv (xs : List PhaseSample) : Nat := sumNat (xs.map (·.mv)) / max 1 xs.length

/-- The current of the phases of a load in mA: their sum. -/
def phaseMa (xs : List PhaseSample) : Nat := sumNat (xs.map (·.ma))

/-- A telemetry set (R869, R870). -/
def State.telemetry (s : State) (set : Nat) : Option Bytes :=
  let v4 (r : Reg) : Bytes := leBytes 4 (s.peek r)
  match set with
  | 0 => some (leBytes 8 s.stbTicks ++ v4 .pwr ++ v4 .plwin ++ v4 .plrail ++ v4 .pmcStatus
      ++ ((List.range 4).map fun n => BitVec.ofNat 8 (if n < s.dies then (s.divAt n).target else 0))
      ++ [BitVec.ofNat 8 s.sec.stage] ++ s.residentBytes ++ [BitVec.ofNat 8 (s.regVal .fltStatus % 64)]
      ++ leBytes 8 s.cm.last.toNat
      ++ ((List.range 4).flatMap fun d => readingBytes (s.hottest (8 * d) 8)) ++ readingBytes (s.hottest 32 2)
      ++ readingBytes (s.hottest 34 2) ++ readingBytes (s.hottest 52 1) ++ List.replicate 10 0#8)
  | 1 => some ((List.range 69).flatMap fun i =>
      if s.pairOn i then readingBytes (sensor (s.pairAt i).a) ++ readingBytes (sensor (s.pairAt i).b)
      else List.replicate 4 0#8)
  | 2 => some ((List.range 4).flatMap fun t =>
      if t < s.dies then
        let x := s.tileAt t
        v4 (.rail t) ++ v4 (.holdup t) ++ leBytes 2 (x.pin / 100) ++ leBytes 2 (phaseMv x.core)
          ++ leBytes 2 (phaseMa x.core / 100) ++ [0#8, 0#8]
      else List.replicate 16 0#8)
  | 3 => some ((List.range 16).flatMap fun k => v4 (.memStatus k) ++ v4 (.scrubPos k))
  | 4 => some ((List.range 24).flatMap fun j => v4 (.linkStatus j) ++ v4 (.slot j))
  | _ => none

end Sys2Proof.Machine
end

