-- ==== Sys2Proof/Machine/LinkOps.lean ====
section
/-! DEFINITION. Members that withdraw and links that go down (R485-R488, R505-R512), the holdover that follows
(R438), and the events latched for the sideband (R878). -/

namespace Sys2Proof.Machine

/-- A STATE record of a member (R477). -/
def stateRecord (v : Nat) : BitVec 128 := BitVec.ofNat 128 (4 + 256 * v)

/-- A member with a control record due. -/
def MemberSt.due (m : MemberSt) (r : BitVec 128) : MemberSt := { m with ctrl := m.ctrl ++ [r] }

/-- Messages of a VC that a member has queued, begun or sent without full acknowledgement, oldest first (R486). -/
def MemberSt.msgsOf (m : MemberSt) (vc : Nat) : List TxMsg :=
  ((m.sentMsgs.filter fun t => t.vc == vc).map (·.msg) ++ (tget none m.started vc).toList ++ tget [] m.queue vc).map
    fun t => { t with sent := 0 }

/-- Whether a member loses a started message of VC2-VC5 when it withdraws (R487). -/
def MemberSt.loses (m : MemberSt) : Bool :=
  (m.sentMsgs.any fun t => decide (2 ≤ t.vc))
  || [2, 3, 4, 5].any fun v => match tget none m.started v with
    | some t => decide (0 < t.sent)
    | none => false

/-- The buffers of the messages that have arrived in part are freed (R488). -/
def State.dropParts (s : State) (m : Nat) : State :=
  let ps := (s.memberAt m).part
  let s := ps.foldl (fun (a : State) p => match p.2 with
    | some q => a.freeOf m p.1 q.buf
    | none => a) s
  s.modMember m fun x => { x with part := [] }

/-- A member with nothing to send or to assemble. -/
def MemberSt.drop (m : MemberSt) : MemberSt :=
  { m with unacked := [], resend := [], queue := [], started := [], sentMsgs := [], part := [], ctrl := [], busy := false }

/-- Messages of one VC handed to a member (R486): those of VC1 go ahead of what it has queued, others behind it. -/
def State.handTo (s : State) (m vc : Nat) (ts : List TxMsg) : State :=
  s.modMember m fun x => { x with queue := tmod [] x.queue vc fun q => if vc = 1 then ts ++ q else q ++ ts }

/-- A message that has lost its member is sent afresh from this package (R486). -/
def State.resend (s : State) (vc : Nat) (t : TxMsg) : State :=
  match s.topoCfg with
  | none => s
  | some topo =>
    (match s.routeDir topo vc (msgHdr t.hdr).dst with
     | none => s
     | some (g, d) => s.sendOnward g vc d t)

/-- TOPO_STATUS.GROUP_DOWN follows the groups (R503, R511, R524); a group that goes down is reported. -/
def State.refreshGroups (s : State) : State :=
  match s.topoCfg with
  | none => { s with net := { s.net with topo := { s.net.topo with groupDown := 0 } } }
  | some t =>
    let down := (List.range 6).filter fun d => t.faces d && s.groupDown d
    let old := s.net.topo.groupDown
    let s := { s with net := { s.net with topo := { s.net.topo with
      groupDown := BitVec.ofNat 6 (sumNat (down.map fun d => 2 ^ d)) } } }
    (down.filter fun d => !old.getLsbD d).foldl (fun s d => s.wire (mkReportAll 5 9 (BitVec.ofNat 32 d) 0)) s

/-- The parent link is lost: the servo holds over (R438). -/
def State.loseParent (s : State) (m : Nat) : State :=
  match s.stb.parent with
  | some p =>
    if p.val = m ∧ (s.stb.st = .locked ∨ s.stb.st = .acquire ∨ s.stb.st = .holdover) then
      { s with stb := { s.stb with st := .holdover, exch := none, parent := none, corr := 0, meas := none } }
    else s
  | none => s

/-- A Mews or I/O-die link goes down (R40, R505-R508): what waited on it takes its new route. -/
def State.dieLinkDown (s : State) (m : Nat) : State :=
  let x := s.memberAt m
  if x.st = .withdrawn then s
  else
    let begun := x.started.filterMap (·.2)
    let lost := !x.unacked.isEmpty || begun.any fun t => decide (0 < t.sent)
    let s := s.modMember m fun y => { y.drop with st := .withdrawn }
    let waiting := ((x.started ).filterMap fun e => e.2.map fun t => (e.1, t)) ++ x.queue.flatMap fun e => e.2.map fun t => (e.1, t)
    let s := (waiting.filter fun e => e.2.sent == 0).foldl (fun (a : State) e =>
      let h := innerHdr e.2.hdr
      a.innerOut e.1 h.at_ h e.2.payload e.2.par) s
    let downs := (List.range 4).filter fun i => (s.memberAt (24 + i)).st == .withdrawn
    let ioDown := (List.range 4).any fun i => (s.memberAt (28 + i)).st == .withdrawn
    let failed := decide (2 ≤ downs.length) || ioDown
    let s := { s with net := { s.net with topo := { s.net.topo with degraded := !downs.isEmpty, failed := failed } } }
    s.wire { mkReportAll 0x11 5 (BitVec.ofNat 32 (m - 24)) 0 with all := lost || failed }

/-- Whether a member's loss is reported: its group faces a neighbour of the job, or the host or storage (R503). -/
def State.missed (s : State) (m : Nat) : Bool :=
  match s.topoCfg with
  | none => true
  | some t => (s.groupOf m).any fun g => decide (6 ≤ g) || t.faces g

/-- An Avenue member withdraws (R486-R488): VC0 and then VC1 messages go to another member of the group, or back to
the package; started data messages are lost and abort the uncommitted steps. The partner learns that it withdraws and that it has
(R477). -/
def State.withdrawAvenue (s : State) (m : Nat) (fault : Bool) : State :=
  let x := s.memberAt m
  let g := (s.groupOf m).getD 8
  let lost := x.loses
  let rest (v : Nat) : List TxMsg := tget [] x.queue v
  let s := (s.dropParts m).modMember m fun y => { y.drop with st := .withdrawn }
  let other := (s.actives g ++ s.retrainers g).head?
  let s := match other with
    | some t =>
      let s := (s.handTo t 0 (x.msgsOf 0)).handTo t 1 (x.msgsOf 1)
      ([2, 3, 4, 5] : List Nat).foldl (fun (a : State) v => a.handTo t v (rest v)) s
    | none =>
      let s := (x.msgsOf 0).foldl (fun (a : State) t => a.resend 0 t) s
      let s := (x.msgsOf 1).foldl (fun (a : State) t => a.resend 1 t) s
      ([2, 3, 4, 5] : List Nat).foldl (fun (a : State) v => a.handTo m v (rest v)) s
  let s := s.modMember m fun y => (y.due (stateRecord 2)).due (stateRecord 3)
  let s := if fault || lost then s.wire { mkReportAll 5 4 (BitVec.ofNat 32 m) 0 with all := lost } else s
  (s.loseParent m).refreshGroups

/-- A member withdraws, once (R485). -/
def State.withdraw (s : State) (m : Nat) : State :=
  if 24 ≤ m then s.dieLinkDown m
  else if (s.memberAt m).st = .withdrawn ∨ (s.memberAt m).st = .disabled then s
  else s.withdrawAvenue m (s.missed m)

/-- Messages that wait on withdrawn members of a group go to a member that has come into service (R486). -/
def State.collectTo (s : State) (m : Nat) : State :=
  let others := ((s.groupOf m).elim [] s.members).filter fun j => j != m && (s.memberAt j).st == .withdrawn
  others.foldl (fun (a : State) j =>
    let q := (a.memberAt j).queue
    let a := a.modMember j fun x => { x with queue := [] }
    (List.range 6).foldl (fun (b : State) v => b.handTo m v (tget [] q v)) a) s

/-- A member comes into service after training (R488): its sequence and credit state start afresh, and its credits
are granted (R390). -/
def State.bringUp (s : State) (m : Nat) : State :=
  let s := s.modMember m fun y =>
    { y with st := .active, txSeq := 0, rxSeq := 0, nakSent := false, rxUnacked := 0, unacked := [], resend := [],
             started := [], sentMsgs := [], credit := [], granted := [], taken := [], ctrl := [stateRecord 0], part := [], peer := 0,
             busy := false }
  ((if m < 24 then (s.collectTo m).grantAll m true else s)).refreshGroups

/-- A LINK_CTRL change takes effect (R703): the member is admitted again, or withdraws. -/
def State.linkChange (s : State) (e : Nat × Bool) : State :=
  if e.2 then s.bringUp e.1
  else if (s.memberAt e.1).st = .withdrawn ∨ (s.memberAt e.1).st = .disabled then s
  else s.withdrawAvenue e.1 false

/-! ## Events of the sideband (R878) -/

/-- An event is latched; one IBI is raised while a latched event is unmasked and none is outstanding. -/
def State.latch (s : State) (bit : Nat) : State :=
  let ev := s.sb.events ||| BitVec.ofNat 8 (2 ^ bit)
  let ibi := match s.sb.ibi with
    | some b => some b
    | none => if ev &&& ~~~s.sb.mask = 0 then none else some ev
  { s with sb := { s.sb with events := ev, ibi := ibi } }

end Sys2Proof.Machine
end

