-- ==== Sys2Proof/Machine/Faults.lean ====
section
/-! DEFINITION. What a fault does (spec 15, R56-R65, R305-R310, R416-R417, R427): fault records, the stop of engines,
the abort of steps, the core fence, the containment halt, and the response to a lasting fault. -/

namespace Sys2Proof.Machine

/-! ## Replies of commands that wait (R658) -/

/-- Opcode of a packet (R653). -/
def pktOp (p : BitVec 512) : Nat := p.toNat % 2 ^ 16

/-- Context of a packet. -/
def pktCtx (p : BitVec 512) : Nat := bits p.toNat 71 64

/-- The ring whose command in progress has one of these opcodes and names this context. -/
def State.ringRunning (s : State) (ops : List Nat) (c : Nat) : Option (Nat × BitVec 512) :=
  (List.range 8).findSome? fun r => match (s.ringAt r).cur with
    | some q => if ops.contains (pktOp q.pkt) ∧ pktCtx q.pkt = c then some (r, q.pkt) else none
    | none => none

/-- The reply of a waiting command of a context, where one waits. -/
def State.replyWaiting (s : State) (ops : List Nat) (c status detail : Nat) : State :=
  match s.ringRunning ops c with
  | some (r, p) => s.reply r p status detail 0
  | none => s

/-! ## Fault records (R757-R760) -/

/-- JOB and EPOCH of the active context, zero where there is none. -/
def State.jobEpoch (s : State) : Nat × Nat :=
  match s.cur with
  | some (_, x) => ((match x.cfg with
      | some g => g.job.toNat
      | none => 0), x.epoch.toNat)
  | none => (0, 0)

/-- The 64 bytes of a fault record. -/
def faultRecord (seq : Nat) (rep : FaultReport) (stb : Nat) (first : BitVec 64) (outcome action : Nat)
    (je : Nat × Nat) : Bytes :=
  let b := leBytes 4 0x544C5546 ++ leBytes 4 seq
    ++ [rep.cls, BitVec.ofNat 8 outcome, rep.lkind, BitVec.ofNat 8 action] ++ leBytes 4 rep.locus.toNat
    ++ leBytes 8 (if rep.lkind = 3 then rep.addr.toNat else 0) ++ leBytes 8 first.toNat ++ leBytes 8 stb
    ++ leBytes 2 je.1 ++ leBytes 2 je.2 ++ leBytes 4 0 ++ leBytes 8 rep.detail.toNat
  b ++ leBytes 8 (crc64 b).toNat

/-- Writes a fault record to the log, and to the lasting-fault table where `lft` (R757, R758, R766). -/
def State.logFault (s : State) (rep : FaultReport) (stb : Nat) (first : BitVec 64) (outcome action : Nat) (lft : Bool) :
    State :=
  let b := faultRecord s.flt.seq.toNat rep stb first outcome action s.jobEpoch
  let s := s.jdWrite (0x200000 + 64 * s.flt.next.toNat) b
  let s := { s with flt := { s.flt with seq := s.flt.seq + 1, next := s.flt.next + 1 } }
  if !lft then s
  else if s.flt.lftUsed < 1024 then
    let s := s.jdWrite (0x240000 + 64 * s.flt.lftUsed) b
    { s with flt := { s.flt with lftUsed := s.flt.lftUsed + 1, lftFull := decide (1024 ≤ s.flt.lftUsed + 1) } }
  else { s with flt := { s.flt with lftFull := true } }

/-- A fault is classed lasting (R764, R765). -/
def State.countLasting (s : State) : State :=
  { s with flt := { s.flt with lasting := true, cntLasting := satInc s.flt.cntLasting } }

/-! ## Engines of a step that stops (R273, R531) -/

/-- An engine after step `n` is aborted, where it stands in that step or past it: it issues no more, the wait of an op
that has not issued ends, its issued ops run on without arrivals, and it stands before the step. A UE_RUN and the ops of
a CX stop at once (R531, R613). -/
def EngSt.stop (n : BitVec 64) (r : EngSt) : EngSt :=
  if r.step.any fun m => decide (n.toNat ≤ m.toNat) then
    { r with live := false, ended := true, wait := r.wait.filter fun w => w.kind == .attime,
             step := if n = 0 then none else some (n - 1),
             issued := r.issued.map fun op =>
               if op.code = 0x50#8 ∨ op.code = 0x60#8 ∨ op.code = 0x61#8 then { op with done := true } else op }
  else r

/-- Whether a pass of step `n` or a later one has not started: its start conditions are conditions of its issue (R215,
R272). -/
def PassSt.unstarted (n : BitVec 64) (p : PassSt) : Bool := !p.started && decide (n.toNat ≤ p.step.toNat)

/-- An AE without its passes that have not started. -/
def AeSt.unpass (n : BitVec 64) (a : AeSt) : AeSt := { a with passes := a.passes.filter fun p => !p.unstarted n }

/-- The numbers of the passes that an engine forgets at the abort of step `n`: those of its core that have not
started. -/
def State.forgotten (s : State) (key : Nat) (n : BitVec 64) : List Nat :=
  if key % 512 < 400 ∧ key % 4 = 0 then
    let c : CoreRef := { die := Fin.ofNat 4 (key / 512), core := Fin.ofNat 96 (key % 512 / 4) }
    ((s.coreAt c).ae.passes.filter (PassSt.unstarted n)).map (·.seq)
  else []

/-- An engine without the passes of these numbers. -/
def EngSt.forget (r : EngSt) (seqs : List Nat) : EngSt :=
  { r with issued := r.issued.filter fun op => !(op.code == 0x11#8 && seqs.any fun q => op.slot == some q) }

/-- The Market buffer that holds a piece of a stream is freed. -/
def State.freeChunk (s : State) (k : RxChunk) : State :=
  s.freeOf k.link k.vc k.buf

/-- What has arrived for collectives and is not read is dropped, and its buffers are freed (R531). -/
def State.dropRx (s : State) : State :=
  let s := (s.net.rx.flatMap (·.2)).foldl (fun (a : State) c => a.freeChunk c) s
  { s with net := { s.net with rx := [] } }

/-- A Collective Engine's slots of a step are freed, and what has come to it over the package's links is dropped. -/
def State.stopCx (s : State) (n : BitVec 64) (die : Nat) : State :=
  s.modCx die fun k =>
    { k with slots := k.slots.filter fun e => match e.2 with
               | some t => t.step != n
               | none => false,
             intStream := [] }

/-- Every engine stops the step (R273, R531), and what travels between the dies for it is dropped. -/
def State.stopStep (s : State) (n : BitVec 64) : State :=
  let s := { s with eng := (s.eng.map fun (e : Nat × EngSt) => (e.1, (e.2.stop n).forget (s.forgotten e.1 n))).filter
                      fun e => decide (e.2 ≠ EngSt.reset),
                    core := tmapAll CoreSt.reset s.core fun k => { k with ae := k.ae.unpass n, meStallNow := false } }
  (List.range s.dies).foldl (fun (a : State) d => a.stopCx n d) s.dropRx.dropInner

/-! ## Containment halt (R734-R742, R759) -/

/-- The payload of a halt message (R738). -/
def State.haltPayload (s : State) (cause : Nat) : Bytes :=
  let je := s.jobEpoch
  let o : Vec3 := match s.topoCfg with
    | some t => t.self
    | none => { x := 0, y := 0, z := 0 }
  let first := match s.cur with
    | some (_, x) => (match x.steps with
      | t :: _ => t.no
      | [] => BitVec.allOnes 64)
    | none => BitVec.allOnes 64
  leBytes 2 je.1 ++ [BitVec.ofNat 8 o.x, BitVec.ofNat 8 o.y, BitVec.ofNat 8 o.z, BitVec.ofNat 8 cause, 0#8, 0#8]
    ++ leBytes 8 first.toNat ++ leBytes 8 s.stbTicks ++ List.replicate 8 0#8

/-- The halt message on the members of one group: the same message on every active torus member, or on the stand-in
link (R738). -/
def State.haltOn (s : State) (c : Nat) (payload : Bytes) (g : Nat) : State :=
  let x := s.ctxAt c
  match x.cfg with
  | none => s
  | some cfg =>
    let stand := (List.range 4).any fun b => cfg.topo.standIn b == some g
    let ms := if stand then s.members g else s.actives g
    if ms.isEmpty then s
    else
      let r := s.formMsg c x cfg g 0 15 0 (cfg.topo.step cfg.topo.self g) payload
      ms.foldl (fun (a : State) m => a.enqueue m 0 r.2) r.1

/-- The halt message on every group but the one it arrived on (R738, R739). -/
def State.haltFlood (s : State) (c : Nat) (payload : Bytes) (excl : Option Nat) : State :=
  (List.range 6).foldl (fun (a : State) g => if excl = some g then a else a.haltOn c payload g) s

/-- A crash slot is written (R759, R868). -/
def State.crashSlot (s : State) (payload : Bytes) : State :=
  let b := payload ++ leBytes 8 s.stbTicks ++ s.captureBytes
  let s := s.jdWrite (0x300000 + 0x10000 * s.flt.crashNext.toNat) b
  { s with flt := { s.flt with crashNext := s.flt.crashNext + 1 } }

/-- Whether a step is past the point where a halt or an abort reaches it: a commit in progress completes (R64, R736). -/
def StepSt.held (t : StepSt) : Bool := t.st == .committing && !t.abandonedCommit

/-- A step that is being discarded before a replay, with its records to be restored. -/
def StepSt.abort (t : StepSt) : StepSt :=
  { t with st := .aborted, restoring := true, restored := false, checkDone := [], gnDone := [], ueFinal := [],
           agree := false, aborts := t.aborts + 1 }

/-- A halted context takes its state once nothing of it remains to commit or to restore (R740, R741). -/
def State.haltDone (s : State) (c : Nat) : State :=
  let x := s.ctxAt c
  match x.haltTo with
  | none => s
  | some p =>
    if x.steps.all (fun t => t.st == .aborted && !t.restoring) then
      let s := (s.modCtx c fun x =>
        { x with st := p, steps := [], next := none, remain := none, unbounded := false, haltAfter := none,
                 saveSched := false, haltTo := none })
      ((s.event c 0x8004 s.cm.last.toNat).replyWaiting [0x30, 0x32] c 0x32 0)
    else s

/-- The context is stopped by the halt: every uncommitted step but a commit in progress is restored (R735, R740). -/
def State.haltCtx (s : State) (c : Nat) (cause : Nat) (target : CtxPhase) : State :=
  let x := s.ctxAt c
  let s := (x.steps.foldl (fun (a : State) t => if t.held then a else a.stopStep t.no) s).consume RxMsg.ofRun
  let s := s.modCtx c fun x =>
    { x with halted := true, cause := BitVec.ofNat 8 cause, haltTo := some target,
             steps := x.steps.map fun t => if t.held then t else t.abort }
  s.haltDone c

/-- A containment halt (R734-R742): `payload` is the halt message received, or none where this package originates it. -/
def State.containHalt (s : State) (cause : Nat) (target : CtxPhase) (payload : Option Bytes) (excl : Option Nat) :
    State :=
  if s.flt.halted && (s.cur.all fun c => c.2.halted) then
    (match target, s.resident with
     | .faulted, some c => s.modCtx c.val fun x =>
        if x.haltTo.isSome then { x with haltTo := some .faulted, cause := BitVec.ofNat 8 cause }
        else if x.st = .idle then { x with st := .faulted, cause := BitVec.ofNat 8 cause } else x
     | _, _ => s)
  else
    let p := payload.getD (s.haltPayload cause)
    let s := { s with flt := { s.flt with halted := true, origin := payload.isNone, cntHalts := satInc s.flt.cntHalts },
                      pin := { s.pin with faultN := false } }
    let s := (s.latch 0).crashSlot p
    match s.cur with
    | none => s
    | some (c, x) =>
      let s := s.haltFlood c.val p excl
      (match x.st with
       | .idle | .stepping | .faulted => s.haltCtx c.val cause target
       | _ => s.modCtx c.val fun x => { x with halted := true, haltRec := true })

/-- A lasting fault that needs no report of a detector, with its containment halt (R310, R417, R730). -/
def State.haltFault (s : State) (rep : FaultReport) : State :=
  let first := rep.tags.headD (BitVec.allOnes 64)
  let s := s.logFault rep s.stbTicks first 0 4 false
  let s := (s.logFault rep s.stbTicks first 2 4 true).countLasting
  s.containHalt rep.cls.toNat .faulted none none

/-- A replay-limit report (R417, R730). -/
def replayLimit (n : BitVec 64) : FaultReport := mkReport 0x13 0 0 n 0

/-! ## Step abort (R56, R60, R71, R416, R417, R726, R730) -/

/-- Whether an abort reaches a step: RUNNING to DEFERRED, but no commit in progress. -/
def StepSt.abortable (t : StepSt) : Bool := t.st != .aborted && !t.held

/-- The stamps of the phases of step `n` and later are dropped (R444): they belong to a run that is over. -/
def State.dropStamps (s : State) (n : BitVec 64) : State :=
  { s with sync := { s.sync with slot := tmapAll .reset s.sync.slot fun k =>
      { k with stamps := k.stamps.filter fun p => decide (p.step.toNat < n.toNat) } } }

/-- One step goes to ABORTED; the step after it is discarded and starts again once it commits (R71). -/
def State.abortOne (s : State) (c : Nat) (n : BitVec 64) : State :=
  let x := s.ctxAt c
  let later := x.steps.filter fun t => decide (n.toNat < t.no.toNat)
  let s := (s.stopStep n).dropStamps n
  let s := later.foldl (fun (a : State) t => a.stopStep t.no) s
  let s := s.modCtx c fun x =>
    { x with steps := (x.steps.filter fun t => decide (t.no.toNat ≤ n.toNat)).map fun t =>
               if t.no = n then { t.abort with discarded := t.discarded || !later.isEmpty } else t,
             next := match later with
               | t :: _ => some t.no
               | [] => x.next }
  s.event c 0x8002 n.toNat

/-- The epoch rises: every stream starts again, and what older runs have sent is discarded (R416, R418, R472, R829). -/
def State.setEpoch (s : State) (c : Nat) (e : BitVec 16) : State :=
  ((s.modCtx c fun x => { x with epoch := e }).clearStreams c).consume fun r => r.older e

/-- The abort message of a step (R60; assumption log 17). -/
def abortPayload (n : BitVec 64) : Bytes := [tagAbort] ++ leBytes 7 0 ++ leBytes 8 n.toNat

/-- Steps of the resident context go to ABORTED; where this package originates the abort it sends it (R60, R416), and
a fourth abort reaches the replay limit (R730). At epoch 0xFFFF the context halts instead (R417). -/
def State.abortSteps (s : State) (c : Nat) (ns : List (BitVec 64)) (send : Bool) : State :=
  let x := s.ctxAt c
  let live := x.steps.filter fun t => ns.contains t.no && t.abortable
  match live with
  | [] => s
  | t :: _ =>
    if x.epoch = 0xFFFF then s.haltFault (replayLimit t.no)
    else
      let s := live.reverse.foldl (fun (a : State) u => a.abortOne c u.no) s
      if !send then s
      else
        let s := s.setEpoch c (x.epoch + 1)
        let s := s.sendAll 0 (abortPayload t.no)
        (match (s.ctxAt c).steps.find? fun u => live.any (·.no == u.no) && u.st == .aborted && decide (4 ≤ u.aborts) with
         | some u => s.haltFault (replayLimit u.no)
         | none => s)

/-- Every uncommitted step of the resident context that an abort reaches (R65, R831). -/
def State.abortAll (s : State) : State :=
  match s.cur with
  | none => s
  | some (c, x) => s.abortSteps c.val (x.steps.map (·.no)) true

/-! ## Core fence and remap (R305-R310, R427, R733) -/

/-- The package with the state of a physical core recorded in the JD and in force (R307). -/
def State.setPhysState (s : State) (d p v : Nat) : State :=
  let k := d * 128 + p
  let b := if p < 96 then 0 else 1
  { s with remap := { s.remap with state := tset b s.remap.state k v, jdState := tset b s.remap.jdState k v } }

/-- The package with a logical core mapped to a physical core (R305, R307). -/
def State.setPhys (s : State) (d l p : Nat) : State :=
  let k := d * 96 + l
  { s with remap := { s.remap with phys := tset l s.remap.phys k p, jdPhys := tset l s.remap.jdPhys k p } }

/-- The lowest-numbered spare of a die (R309). -/
def State.spareOf (s : State) (d : Nat) : Option Nat := (List.range 100).find? fun p => s.physState d p == 1

/-- The logical core that a physical core executes. -/
def State.logicalOf (s : State) (d p : Nat) : Option Nat :=
  if s.physState d p = 0 then (List.range 96).find? fun l => s.physOf d l == p else none

/-- Whether the package runs no step until it is replaced: it is PKG_FAILED, or a fenced core has no spare (R310,
R508). -/
def State.stepsBarred (s : State) : Bool :=
  s.net.topo.failed
  || (List.range s.dies).any fun d => (List.range 96).any fun l => s.physState d (s.physOf d l) != 0

/-- Waiting engines of the context wake ABANDONED (R427). -/
def State.abandon (s : State) : State :=
  (List.range s.dies).foldl (fun (a : State) d =>
    if s.eng.any (fun e => e.1 / 512 == d && match e.2.wait with
        | some w => w.kind != .attime && !w.ok
        | none => false)
    then (a.modXs d fun x => { x with abandoned := true }) else a) s

/-- A logical core leaves its physical core (R311, R733): the requests that a controller has accepted from it complete,
and what it has issued ends with the physical core. -/
def State.quitCore (s : State) (d l : Nat) : State :=
  let c : CoreRef := { die := Fin.ofNat 4 d, core := Fin.ofNat 96 l }
  let s := [EngKind.ae, .ve, .me, .sync].foldl (fun (a : State) k => a.settleEngine (.engine (engOf c k))) s
  let s := [EngKind.ae, .ve, .me, .sync].foldl (fun (a : State) k =>
    a.setEng (engOf c k) { a.engRaw (engOf c k) with issued := [], wait := none }) s
  s.modCore c fun k => { k with ae := { k.ae with passes := [], load := none, checks := [] }, meDescs := [], meStallNow := false }

/-- A core is fenced and its logical core remapped; false where the die has no spare (R310, R733). -/
def State.fenceCore (s : State) (d p : Nat) : State × Bool :=
  match s.logicalOf d p with
  | none => (s.setPhysState d p 2, true)
  | some l =>
    let s := (s.quitCore d l).setPhysState d p 2
    match s.spareOf d with
    | none => (s, false)
    | some q => ((s.setPhysState d q 0).setPhys d l q, true)

/-! ## Classification (R726-R732, R916) -/

/-- Whether two reports match (R727). -/
def sameFault (a b : FaultReport) : Bool := a.cls == b.cls && a.lkind == b.lkind && a.locus == b.locus

/-- Faults that are lasting when reported: R485, R511, R735, R78, R610, R620, R749, R506, R508, R754, R755, R730,
R310. -/
def bornLasting (c : BitVec 8) : Bool :=
  [0x05, 0x09, 0x0A, 0x0C, 0x0D, 0x0E, 0x11, 0x12, 0x13, 0x14].contains c.toNat

/-- The response to a lasting fault, with the codes of ACTION in R760 (R732). -/
def State.response (s : State) (r : FaultReport) : Nat :=
  match r.cls.toNat, r.lkind.toNat with
  | 0x05, 9 => 4
  | 0x05, _ => 3
  | 0x11, _ => if s.net.topo.failed then 4 else 0
  | 0x14, _ => 4
  | 0x0E, _ => 4
  | 0x12, 1 => 2
  | 0x12, _ => 0
  | _, 1 => 2
  | _, 4 => 3
  | _, 5 => 3
  | _, 7 => 0
  | _, _ => 4

/-- The steps of the resident context that a report tags (R64, R65). -/
def State.tagged (s : State) (r : FaultReport) : List (BitVec 64) :=
  match s.cur with
  | none => []
  | some (_, x) => (x.steps.filter fun t => !t.held && (r.all || r.tags.contains t.no)).map (·.no)

/-- A lasting fault's response (R732, R733, R916): `tags` are the steps it aborts. A core fence aborts every uncommitted
step first: R308 lets no step of the die stand before COMMITTING while the mapping changes (assumption log 87). -/
def State.respond (s : State) (r : FaultReport) (tags : List (BitVec 64)) : State :=
  match s.response r with
  | 4 => s.containHalt r.cls.toNat (if r.cls = 0x0E then .idle else .faulted) none none
  | 2 =>
    let s := s.abandon
    let s := match s.cur with
      | some (c, x) => s.abortSteps c.val (x.steps.map (fun (t : StepSt) => t.no)) true
      | none => s
    let f := s.fenceCore (r.locus.toNat % 8) (bits r.locus.toNat 9 3)
    if f.2 then f.1
    else
      f.1.haltFault
        { cls := 0x14, lkind := 11, locus := BitVec.ofNat 32 (r.locus.toNat % 8), addr := 0, tags := [], all := false,
          detail := 0 }
  | 3 =>
    let s := if r.cls = 0x05 then s
      else s.withdraw (if r.lkind = 4 then r.locus.toNat % 32 else 24 + r.locus.toNat % 8)
    (match s.cur with
     | some (c, _) => s.abortSteps c.val tags true
     | none => s)
  | _ =>
    (match s.cur with
     | some (c, _) => s.abortSteps c.val tags true
     | none => s)

/-- A step with a fault noted for the run it is in, or classed and struck from its list. -/
def StepSt.note (t : StepSt) (f : SeenFault) : StepSt :=
  if t.faultsRun.any fun g => sameFault g.rep f.rep then t else { t with faultsRun := t.faultsRun ++ [f] }

/-- A step without the faults that match a report. -/
def StepSt.strike (t : StepSt) (r : FaultReport) : StepSt :=
  { t with faults := t.faults.filter fun g => !sameFault g.rep r,
           faultsRun := t.faultsRun.filter fun g => !sameFault g.rep r }

/-- A report reaches Town Hall (R726-R732): it is recorded, its steps abort, and a fault that is lasting has its
response. -/
def State.report (s : State) (r : FaultReport) : State :=
  let tags := s.tagged r
  let first := (tags ++ r.tags).headD (BitVec.allOnes 64)
  let now := s.stbTicks
  if r.cls = 0x0F then (s.logFault r now first 0 0 false).logFault r now first 3 0 false
  else if r.cls = 0x10 then
    ((s.logFault r now first 0 0 false).logFault r now first 3 0 true).countLasting
  else
    let again := match s.cur with
      | some (_, x) => x.steps.any fun t => tags.contains t.no && t.faults.any fun g => sameFault g.rep r
      | none => false
    if bornLasting r.cls || again then
      let act := s.response r
      let s := s.logFault r now first 0 act false
      let s := (s.logFault r now first 2 act true).countLasting
      let s := match s.resident with
        | some c => s.modCtx c.val fun x =>
            { x with steps := x.steps.map fun (t : StepSt) => if tags.contains t.no then t.strike r else t }
        | none => s
      s.respond r tags
    else
      let s := s.logFault r now first 0 (if tags.isEmpty then 0 else 1) false
      match s.resident with
      | none => s
      | some c =>
        let s := s.modCtx c.val fun x =>
          { x with steps := x.steps.map fun t =>
              if tags.contains t.no then t.note { rep := r, stb := now, first := first } else t }
        s.abortSteps c.val tags true

/-- A fault of a step that commits is classed (R728, R729): transient, or lasting when it is the fourth of its locus
in 24 hours. The second part says whether it is lasting. -/
def State.classTransient (s : State) (f : SeenFault) : State × Bool :=
  let now := s.stbTicks
  let same (h : FaultHist) : Bool := h.lkind == f.rep.lkind && h.locus == f.rep.locus
  let recent := s.flt.hist.filter fun h => !same h || decide (now - h.time < 8640000000000)
  if 3 ≤ (recent.filter same).length then
    let s := { s with flt := { s.flt with hist := recent } }
    ((s.logFault f.rep f.stb f.first 2 (s.response f.rep) true).countLasting, true)
  else
    let h : FaultHist := { lkind := f.rep.lkind, locus := f.rep.locus, time := now }
    let s := { s with flt := { s.flt with hist := recent ++ [h], cntTransient := satInc s.flt.cntTransient } }
    (s.logFault f.rep f.stb f.first 1 1 false, false)

/-- The faults of a step, each matching set once. -/
def StepSt.allFaults (t : StepSt) : List SeenFault :=
  (t.faults ++ t.faultsRun).foldl (fun a f => if a.any fun g => sameFault g.rep f.rep then a else a ++ [f]) []

end Sys2Proof.Machine
end

