-- ==== Sys2Proof/Machine/Steps.lean ====
section
/-! DEFINITION. The step machine of Town Hall (R51-R79, R264, R271, R405, R440, R588-R601, R609-R621, R672-R700):
entry into RUNNING, the outcome of the norm, restores, gating, commit and the step boundary. -/

namespace Sys2Proof.Machine

/-! ## Entry into RUNNING (R52, R67-R71) -/

/-- Whether a change is pending for the boundary of step `n` (R67, R68). -/
def CtxSt.changeAt (x : CtxSt) (n : BitVec 64) : Bool :=
  x.pendImg.isSome || x.saveSched
  || (match x.swapAt with
      | some k => decide (k.toNat ≤ n.toNat)
      | none => false)
  || (match x.haltAfter with
      | some k => decide (k.toNat ≤ n.toNat)
      | none => false)

/-- Whether the steps before a step let it enter RUNNING (R67, R70, R71). -/
def CtxSt.roomFor (x : CtxSt) (n : BitVec 64) : Bool :=
  match x.steps.filter fun t => decide (t.no.toNat < n.toNat) with
  | [] => true
  | [t] => (t.st == .gated || t.st == .committing || t.st == .deferred) && !t.discarded && !x.changeAt t.no
  | _ => false

/-- Whether steps of the resident context run at all now. -/
def State.mayRun (s : State) (c : Nat) (x : CtxSt) : Bool :=
  s.resident.any (fun r => r.val == c) && x.st == .stepping && !x.halted && x.haltTo.isNone && !s.pmc.powerLost && !s.stepsBarred
  && s.resetDue.isNone && (s.mktAt 0).pendCfg.isNone && (s.mktAt 1).pendCfg.isNone

/-- The step that enters RUNNING next: a replay whose restore is complete, or the next step. -/
def CtxSt.entrant (x : CtxSt) : Option (BitVec 64) :=
  match x.steps.find? fun t => t.st == .aborted && t.restored with
  | some t => if x.roomFor t.no then some t.no else none
  | none =>
    match x.next with
    | none => none
    | some n =>
      let scheduled := x.unbounded || match x.remain with
        | some k => decide (x.steps.length < k)
        | none => false
      let before := match x.haltAfter with
        | some k => decide (n.toNat ≤ k.toNat)
        | none => true
      if scheduled && before && x.steps.all (fun t => t.st != .aborted) && x.roomFor n then some n else none

/-- The final state that a step reads (R52): that of the step before it. -/
def CtxSt.before (x : CtxSt) (n : BitVec 64) : TrainSt :=
  match x.steps.filter fun t => decide (t.no.toNat < n.toNat) with
  | t :: _ => t.fin
  | [] => x.fin

/-- The step constant block (R593). -/
def stepConstBlock (n : BitVec 64) (start : TrainSt) (lr : BitVec 32) (seg : Nat) : Bytes :=
  leBytes 8 n.toNat ++ leBytes 4 (code32 (pow2V start.lsExp)).toNat ++ leBytes 4 (code32 (pow2V (-start.lsExp))).toNat
    ++ leBytes 4 lr.toNat ++ [BitVec.ofNat 8 seg, 0#8, 0#8, 0#8] ++ leBytes 8 (start.optT + 1).toNat
    ++ List.replicate 32 0#8

/-- The step as it enters RUNNING, with what its earlier runs left. -/
def StepSt.enter (n : BitVec 64) (cfg : JobCfg) (start : TrainSt) (now : Nat) (old : Option StepSt) : StepSt :=
  let lr := lrOf cfg.opt.segs n.toNat
  { no := n, st := .running, skipped := false, outcome := none, g := 0, clip := 0x3F800000#32, lr := lr.1, seg := lr.2,
    consts := stepConsts cfg.opt start lr.1, start := start, fin := start, entered := now, anchor := none, anchorAt := 0,
    checkDone := [], gnDone := [], ueFinal := [], restoring := false, restored := false, agree := false,
    aborts := (old.map (·.aborts)).getD 0,
    faults := (old.map fun t => t.faults ++ t.faultsRun).getD [], faultsRun := [], recFails := 0,
    abandonedCommit := false, commitTime := 0, discarded := (old.map (·.discarded)).getD false }

/-- The stores as a step enters RUNNING (R254, R264): undefined, in generations of their own. An undefined byte fails no
parity check (assumption log 84). -/
def State.freshStores (s : State) : State :=
  let stays (k : Nat) : Bool := decide (2 ^ 40 ≤ k) || (decide (2 ^ 33 ≤ k) && decide (k < 2 ^ 34))
  { s with free := s.free + 3,
           mem := { s.mem with spm := .undef s.free, sram := .undef (s.free + 1), vgen := some (s.free + 2), vreg := [],
                               par := s.mem.par.filter fun e => stays e.1 } }

/-- The crossings and flags of a step's bank are cleared, and the bank serves the step (R142, R250, R405). -/
def State.clearBanks (s : State) (n : BitVec 64) : State :=
  let b := b2n (bankOf n)
  let y := s.sync
  let y := { y with xcnt := y.xcnt.filter fun e => e.1 % 2 != b,
                    tflag := (List.range s.dies).foldl (fun t d => clearBank t d n) y.tflag,
                    flagStep := (List.range s.dies).foldl (fun t d => tset 0#64 t (2 * d + b) n) y.flagStep,
                    launch := if b = 0 then { y.launch with done0 := [] } else { y.launch with done1 := [] } }
  { s with sync := y }

/-- Every bank goes to the AE of its core (R214). -/
def State.banksToAe (s : State) : State :=
  { s with core := tmapAll CoreSt.reset s.core fun k =>
      { k with ve0 := false, ve1 := false, hand0 := none, hand1 := none } }

/-- The engines of the dies as a step enters RUNNING (R558, R612): its norm accumulators clear, c is 1. -/
def State.freshDies (s : State) (n : BitVec 64) : State :=
  let s := (List.range s.dies).foldl (fun (a : State) d => a.modCx d fun k =>
    if bankOf n then { k with nacc1 := 0, normTurn := [], intStream := [] } else { k with nacc0 := 0, normTurn := [], intStream := [] }) s
  (List.range s.dies).foldl (fun (a : State) d => a.modUe d fun u =>
    { u with clipNow := 0x3F800000#32, runs := 0, cur := none, crc := 0, jstall := false, spec := false,
             nfSeen := false }) s

/-- The step constant block of every die is written (R588, R593). -/
def State.writeConsts (s : State) (cfg : JobCfg) (t : StepSt) : State :=
  (List.range s.dies).foldl (fun (a : State) d =>
    a.physWrite (.engine (dieEngOf (dieFin d) .ue)) (some t.no) (cfg.opt.stepConst + 64 * d)
      (stepConstBlock t.no t.start t.lr t.seg)) s

/-- This package's contribution to the anchor exchange (R440; assumption log 17). -/
def anchorPayload (v : Vec3) (n : BitVec 64) (time : Nat) : Bytes := tagBytes tagAnchor v n ++ leBytes 8 time

/-- A step enters RUNNING. -/
def State.enterStep (s : State) (c : Nat) (n : BitVec 64) (cfg : JobCfg) : State :=
  let x := s.ctxAt c
  let old := x.stepAt n
  let t := StepSt.enter n cfg (x.before n) s.stbTicks old
  let s := (s.freshStores).clearBanks n
  let s := if old.isSome || x.steps.isEmpty then s.banksToAe else s
  let s := s.freshDies n
  let s := s.modCtx c fun x =>
    { x with steps := if old.isSome then x.steps.map fun u => if u.no = n then t else u else x.steps ++ [t],
             next := if old.isSome then x.next else some (n + 1) }
  let s := s.writeConsts cfg t
  let s := (s.dropStamps n).sendAll 0 (anchorPayload cfg.topo.self n s.stbTicks)
  s.replyWaiting [0x30, 0x32] c 0 0

/-- Whether no op of a step is still issued: the ops of an aborted run have run to completion (R273), and their flags
stay with that run (R142). -/
def State.opsGone (s : State) (n : BitVec 64) : Bool := !(s.eng.any fun e => e.2.issued.any fun op => op.step == n)

/-- STEP_ENTER_RUNNING (R51, R52, R56, R67-R71, R142, R250, R254, R264, R271, R405, R440, R558, R588-R593). -/
def execStepEnterRunning (c : Fin 4) (s : State) : Out :=
  let x := s.ctxAt c.val
  match x.entrant, x.cfg with
  | some n, some cfg =>
    if s.mayRun c.val x && s.opsGone n && s.regionServed x then .next (s.enterStep c.val n cfg) else .next s
  | _, _ => .next s

/-! ## The UEs report their shards final (R72-R75, R597, R598, R613) -/

/-- A die's digest put in its place. -/
def TrainSt.withDigest (t : TrainSt) (die : Nat) (d : BitVec 64) : TrainSt :=
  { t with dieDigest := (List.range 4).map fun i => if i = die then d else t.dieDigest.getD i 0 }

/-- Whether a die engine has completed every op of a step. -/
def State.engDone (s : State) (e : EngRef) (n : BitVec 64) : Bool :=
  let r := s.engRaw e
  match r.step with
  | none => false
  | some m => decide (n.toNat < m.toNat) || (m == n && r.ended && r.issued.isEmpty)

/-- Whether a scheduled swap takes effect at the boundary of step `n` (R684); `last` where it is the highest step that
has entered RUNNING. -/
def CtxSt.swapsAt (x : CtxSt) (n : BitVec 64) (last : Bool) : Bool :=
  match x.swapAt with
  | some k => if k = 0 then last else decide (k.toNat ≤ n.toNat)
  | none => false

/-- The configuration that will be active for the step after step `n` (R598). -/
def CtxSt.cfgAfter (x : CtxSt) (n : BitVec 64) : Option JobCfg :=
  if x.swapsAt n (x.steps.all fun t => decide (t.no.toNat ≤ n.toNat)) then x.shadow else x.cfg

/-- The digest of a die that its UE forms by reading master copies, once the stacks that hold them serve (R350, R598). -/
def State.readDigest (s : State) (x : CtxSt) (t : StepSt) (d : Nat) : Option (State × BitVec 64) :=
  match x.cfgAfter t.no with
  | some cfg =>
    if (cfg.shards.filter fun q => q.die == d).all fun q => s.rangeUp q.master (4 * q.count) then
      some (s.shardDigest (some t.no) cfg d)
    else none
  | none => none

/-- Whether every engine of the cores and every CX has completed the ops of a step: what the bank of its flags holds is
then final (R142; assumption log 85). -/
def State.quiet (s : State) (n : BitVec 64) : Bool :=
  (List.range s.dies).all fun d =>
    s.engDone (dieEngOf (dieFin d) .cx) n
    && (List.range 96).all fun l =>
      [EngKind.ae, .ve, .me, .sync].all fun k => s.engDone { die := dieFin d, core := Fin.ofNat 96 l, eng := k } n

/-- The digest of a die whose shard is final; none while it is not. -/
def State.dieFinal (s : State) (x : CtxSt) (im : Img) (t : StepSt) (d : Nat) : Option (State × BitVec 64) :=
  if (im.updates d).isEmpty then
    (if s.engDone (dieEngOf (dieFin d) .cx) t.no then s.readDigest x t d else none)
  else if s.ueDone im d && (s.engRaw (dieEngOf (dieFin d) .ue)).issued.all fun op => op.code != 0x50#8 then
    some (s, (s.ueAt d).crc)
  else none

/-- The digest message to the other packages of the replica group (R76; assumption log 17). -/
def digestPayload (v : Vec3) (n d : BitVec 64) : Bytes := tagBytes tagDigest v n ++ leBytes 8 d.toNat

/-- The other packages of the replica group (R631). -/
def JobCfg.replicas (g : JobCfg) : List Vec3 :=
  match g.repl.bind fun i => g.groups[i]? with
  | none => []
  | some r => (r.members.map fun m => ({ x := m.x, y := m.y, z := m.z } : Vec3)).filter (· != g.topo.self)

/-- A step enters GATED: it exchanges its package digest, at once complete in a group of one (R76, R79). -/
def State.toGated (s : State) (c : Nat) (cfg : JobCfg) (n : BitVec 64) (fin : TrainSt) : State :=
  let others := cfg.replicas
  let s := s.modCtx c fun x => x.modStep n fun t =>
    { t with st := .gated, fin := fin, restoring := false, agree := others.isEmpty }
  others.foldl (fun (a : State) v => a.sendTo 0 0 0 v (digestPayload cfg.topo.self n fin.pkgDigest)) s

/-- The dies whose shard has become final report it, each with its digest. -/
def State.reportFinal (s : State) (c : Nat) (t : StepSt) (ready : State → Nat → Option (State × BitVec 64)) :
    State × TrainSt × List Nat :=
  let r := (List.range s.dies).foldl (fun (a : State × TrainSt × List Nat) d =>
    if a.2.2.contains d then a
    else match ready a.1 d with
      | some q => (q.1, a.2.1.withDigest d q.2, insNat d a.2.2)
      | none => a) (s, t.fin, t.ueFinal)
  (r.1.modCtx c fun x => x.modStep t.no fun t => { t with fin := r.2.1, ueFinal := r.2.2 }, r.2)

/-- Whether the digests of a skipped step are those of the step before it (R75): not where that step is none. -/
def StepSt.keepsDigest (t : StepSt) : Bool := t.skipped && !t.start.dieDigest.isEmpty

/-- The dies that have become final report it, and the step enters GATED once every die has (R56, R613) and nothing of
the step can change its flags (R142). A skipped step keeps the digests of the step before it; the first step of a run
that loads no starting state forms them as R72 has it. -/
def State.tryFinal (s : State) (c : Nat) : State :=
  let x := s.ctxAt c
  match x.steps.head?, x.img, x.cfg with
  | some t, some im, some cfg =>
    let skipped := t.st == .restoring && t.skipped && !t.restoring
    if (t.st = .resolving ∨ t.st = .redoing ∨ skipped) ∧ s.quiet t.no then
      if t.keepsDigest then s.toGated c cfg t.no (finalTrain cfg.opt t.start t.consts .skipped)
      else
        let r := s.reportFinal c t fun a d => if skipped then a.readDigest x t d else a.dieFinal x im t d
        if r.2.2.length < s.dies then r.1
        else
          let ds := (List.range s.dies).map fun d => r.2.1.dieDigest.getD d 0
          let f := finalTrain cfg.opt t.start t.consts (t.outcome.getD .normal)
          r.1.toGated c cfg t.no { f with dieDigest := r.2.1.dieDigest, pkgDigest := pkgDigest ds }
    else s
  | _, _, _ => s

/-! ## Gating and commit (R61-R66, R616-R620) -/

/-- The units that send a check-done report: compute dies 0-3 and I/O dies 4 and 5 (R61). -/
def State.checkUnits (s : State) : List Nat := List.range s.dies ++ (List.range s.ios).map (4 + ·)

/-- Whether every enabled tile holds the commit threshold (R616), as the PMC last sampled. -/
def State.holdup (s : State) : Bool := !s.pmc.huLow

/-- A step enters DEFERRED (R66, R616, R620). -/
def State.deferStep (s : State) (c : Nat) (n : BitVec 64) : State :=
  let s := s.modCtx c fun x => x.modStep n fun t => { t with st := .deferred }
  ({ s with cm := { s.cm with defer := true } }).event c 0x8006 n.toNat

/-- A step enters COMMITTING, or DEFERRED below the threshold (R616, R66). -/
def State.startCommit (s : State) (c : Nat) (n : BitVec 64) : State :=
  if s.holdup then
    s.modCtx c fun x => x.modStep n fun t => { t with st := .committing, commitTime := s.stbTicks }
  else s.deferStep c n

/-- Whether a report that tags the step is still on its way to Town Hall (R62, R63). -/
def State.reportDue (s : State) (n : BitVec 64) : Bool := s.flt.wires.any fun r => r.all || r.tags.contains n

/-- A gated step whose checks are closed and whose digests agree leaves GATED (R62, R616); none does while a report of
it is on the fault wires, nor once a halt or a power loss is in force (R735, R807). -/
def State.tryCommit (s : State) (c : Nat) : State :=
  let x := s.ctxAt c
  match x.steps.head? with
  | some t =>
    if t.st = .gated ∧ t.agree ∧ s.checkUnits.all t.checkDone.contains ∧ !s.reportDue t.no ∧ !x.halted
        ∧ !s.pmc.powerLost then
      s.startCommit c t.no
    else s
  | none => s

/-- What follows an event of the step machine. -/
def State.settle (s : State) (c : Nat) : State := (s.tryFinal c).tryCommit c

/-- The resident context settles. -/
def State.settleNow (s : State) : State :=
  match s.resident with
  | some c => s.settle c.val
  | none => s

/-- OUTCOME of a commit record (R617). -/
def StepOutcome.code : StepOutcome → Nat
  | .normal => 0
  | .clipped => 1
  | .skipped => 2
  | .empty => 3

/-- The commit record of a step (R617). -/
def commitRecord (c : Nat) (x : CtxSt) (t : StepSt) (im : Img) (cfg : JobCfg) : Bytes :=
  let b := leBytes 4 0x434D5452 ++ leBytes 2 1
    ++ [BitVec.ofNat 8 (t.outcome.getD .normal).code, BitVec.ofNat 8 c] ++ leBytes 8 t.no.toNat
    ++ leBytes 2 cfg.job.toNat ++ leBytes 2 x.epoch.toNat
    ++ [BitVec.ofNat 8 (ofInt 8 t.fin.lsExp), BitVec.ofNat 8 t.seg] ++ leBytes 2 t.fin.clean
    ++ leBytes 8 t.fin.optT.toNat ++ leBytes 8 t.g.toNat ++ leBytes 4 t.clip.toNat ++ leBytes 4 t.lr.toNat
    ++ leBytes 8 t.fin.pkgDigest.toNat ++ ((List.range 4).flatMap fun d => leBytes 8 (t.fin.dieDigest.getD d 0).toNat)
    ++ leBytes 8 t.commitTime ++ leBytes 48 im.hash.toNat ++ leBytes 48 cfg.hash.toNat
    ++ ((List.range 16).flatMap fun g =>
        let p := t.fin.pair g
        leBytes 8 p.1.toNat ++ leBytes 8 p.2.toNat)
    ++ List.replicate 3640 0#8
  b ++ leBytes 8 (crc64 b).toNat

/-- JD offset of a record slot (R618). -/
def recSlot (c : Nat) (n : BitVec 64) : Nat := 0x8000 + c * 0x2000 + n.toNat % 2 * 0x1000

/-! ## The step boundary (R58, R59, R672, R684-R688, R697, R698) -/

/-- An image takes effect (R688): its constant data is copied to DEST. -/
def State.applyImage (s : State) (c : Nat) (im : Img) : State :=
  let s := s.modCtx c fun x => { x with img := some im, pendImg := none }
  (im.sections.filter fun t => t.kind == 3).foldl (fun (a : State) t =>
    a.physWrite (.command (Fin.ofNat 4 c)) none t.dest (slice im.raw t.offset t.length)) s

/-- The links as a configuration is activated (R495, R503, R518): weights start again, members it does not enable
leave service. -/
def State.applyLinks (s : State) (cfg : JobCfg) : State :=
  let s := (List.range s.links).foldl (fun (a : State) j => a.modMember j fun m =>
    let m := { m with curW := [] }
    if cfg.topo.memberEn.getLsbD j then m
    else if m.st = .withdrawn then m else { m.drop with st := .disabled }) s
  s.refreshGroups

/-- The Market partition of a configuration waits for its buffers (R393). -/
def State.pendMarket (s : State) (cfg : JobCfg) : State :=
  (List.range s.ios).foldl (fun (a : State) io => a.modMkt io fun k => { k with pendCfg := some cfg.market }) s

/-- A key that waits for a swap takes effect (R832, R833). -/
def LsecSt.arm (l : LsecSt) : LsecSt :=
  match l.pend with
  | some (k, j) => { l with key := k, keyJob := j, valid := true, pend := none }
  | none => l

/-- A swap exchanges the configurations (R685, R686, R833). -/
def State.applySwap (s : State) (c : Nat) : State :=
  let x := s.ctxAt c
  match x.shadow with
  | none => s.modCtx c fun x => { x with swapAt := none }
  | some cfg =>
    let same := x.cfg.any fun o => o.job == cfg.job
    let s := s.modCtx c fun x =>
      { x with cfg := some cfg, shadow := x.cfg, verified := false, cfgArea := !x.cfgArea, swapAt := none,
               lsec := x.lsec.arm }
    let s := if same then s else s.setEpoch c 0
    (s.applyLinks cfg).pendMarket cfg

/-- A save starts (R672, R673). -/
def State.startSave (s : State) (c : Nat) : State := s.modCtx c fun x => { x with st := .saving, saveSched := false }

/-- The steps of a context stop (R697, R698). -/
def State.stopSteps (s : State) (c : Nat) : State :=
  let s := s.modCtx c fun x =>
    { x with st := .idle, haltAfter := none, remain := none, unbounded := false, next := none }
  s.event c 0x8003 s.cm.last.toNat

/-- The changes that take effect at the boundary of step `n` (R59). -/
def State.boundary (s : State) (c : Nat) (n : BitVec 64) : State :=
  let s := s.net.linkSched.foldl (fun (a : State) e => a.linkChange e)
    { s with net := { s.net with linkSched := [] } }
  let x := s.ctxAt c
  let quiet := x.steps.isEmpty
  let s := if x.swapsAt n quiet then s.applySwap c else s
  let s := match x.pendImg with
    | some im => if quiet then s.applyImage c im else s
    | none => s
  if !quiet then s
  else if x.saveSched then s.startSave c
  else
    let halt := (match x.haltAfter with
        | some k => decide (k.toNat ≤ n.toNat)
        | none => false)
      || (!x.unbounded && x.remain == some 0)
    if halt then s.stopSteps c else s

/-- The faults of a committed step are classed, and those that are lasting have their response (R728, R729, R916). -/
def State.classAll (s : State) (fs : List SeenFault) : State :=
  let r := fs.foldl (fun (a : State × List FaultReport) f =>
    let q := a.1.classTransient f
    (q.1, if q.2 then a.2 ++ [f.rep] else a.2)) (s, [])
  r.2.foldl (fun (a : State) f => a.respond f []) r.1

/-- A step is COMMITTED (R56-R59, R611): its state is final, the journal is empty, and the boundary is taken. -/
def State.commitStep (s : State) (c : Nat) (t : StepSt) : State :=
  let s := s.modCtx c fun x =>
    { x with fin := t.fin, steps := x.steps.filter fun u => u.no != t.no, remain := x.remain.map (· - 1) }
  let s := { s with cm := { s.cm with last := t.no, slot := t.no.getLsbD 0 } }
  let s := s.dropJournal
  let e := (s.ctxAt c).evtEvery
  let s := if e ≠ 0 ∧ t.no.toNat % e = 0 then s.event c 0x8001 t.no.toNat else s
  let s := if (s.ctxAt c).haltTo.isSome then s.haltDone c else s.boundary c t.no
  (s.classAll t.allFaults).settle c

/-- A read-back of the record fails (R620): the write starts again, or the step goes to DEFERRED below the threshold; a
second failure abandons the commit. A step of a halted context whose commit is no longer in progress is restored (R735,
R736, R740). -/
def State.recordFailed (s : State) (c : Nat) (t : StepSt) : State :=
  let fails := t.recFails + 1
  let s := s.modCtx c fun x => x.modStep t.no fun t =>
    { t with recFails := fails, abandonedCommit := decide (2 ≤ fails) }
  let s := if 2 ≤ fails then s.wire (mkReport 0x0D 2 (unitLocus 6 9) t.no 0)
    else if s.holdup then s
    else s.deferStep c t.no
  if (s.ctxAt c).haltTo.isSome ∧ (2 ≤ fails ∨ !s.holdup) then
    s.modCtx c fun x => x.modStep t.no StepSt.abort
  else s

/-- The outcome of the write and read-back of a commit record (R619, R620). -/
def State.commitWritten (s : State) (c : Nat) (ok : Bool) : State :=
  let x := s.ctxAt c
  match x.steps.head?, x.img, x.cfg with
  | some t, some im, some cfg =>
    if t.st ≠ .committing ∨ t.abandonedCommit then s
    else
      let b := commitRecord c x t im cfg
      if ok then (s.jdWrite (recSlot c t.no) b).commitStep c t
      else (s.jdWrite (recSlot c t.no) (b.set 0xFF8 (b.getD 0xFF8 0#8 ^^^ 1#8))).recordFailed c t
  | _, _, _ => s

/-! ## Commands of the step machine -/

/-- Whether an image's UE streams update anything (R600). -/
def Img.updatesAny (im : Img) (dies : Nat) : Bool := (List.range dies).any fun d => !(im.updates d).isEmpty

/-- A UE that met a non-finite u before the norm reports it once G is known finite (R596). -/
def State.reportNf (s : State) (n : BitVec 64) (d : Nat) : State :=
  if (s.ueAt d).nfSeen then
    (s.modUe d fun u => { u with nfErr := true }).wire (mkReport 0x0B 2 (unitLocus d 0) n 0)
  else s

/-- GLOBAL_NORM_ARRIVE (R56, R560, R599, R600, R607, R612, R613): once CX_GNORM has completed on every die, the outcome
and the clip factor follow from G. -/
def execGlobalNormArrive (c : Fin 4) (s : State) : Out :=
  let x := s.ctxAt c.val
  match x.steps.find? (fun t => t.st == .running && (List.range s.dies).all t.gnDone.contains), x.img, x.cfg with
  | some t, some im, some cfg =>
    let g := if bankOf t.no then (s.cxAt 0).gnorm1 else (s.cxAt 0).gnorm0
    let o := if im.updatesAny s.dies then resolveNorm g t.start.lsExp cfg.opt.tau else (.empty, 0x3F800000#32)
    let st : StepPhase := match o.1 with
      | .normal | .empty => .resolving
      | .clipped | .skipped => .restoring
    let t1 := { t with st := st, outcome := some o.1, g := g, clip := o.2, skipped := o.1 == .skipped,
                       restoring := st == .restoring }
    let s := s.modCtx c.val fun x => x.modStep t.no fun _ => t1
    let s := (List.range s.dies).foldl (fun (a : State) d => a.modUe d fun u => { u with spec := false }) s
    let s := if (w48 g).isFin then (List.range s.dies).foldl (fun (a : State) d => a.reportNf t.no d) s else s
    let s := if o.1 == .normal then (List.range s.dies).foldl (fun (a : State) d => a.pumpUe d t1) s else s
    .next (s.settle c.val)
  | _, _, _ => .next s

/-- A UE's engine at the start of a redo (R587, R613, R615): op 0 again, with what the step satisfied kept. -/
def EngSt.redo (n : BitVec 64) (r : EngSt) : EngSt :=
  if r.step = some n then
    { r with live := true, ended := false, redoOps := max r.redoOps r.opIdx, opIdx := 0, issued := [], wait := none,
             srb := 0 }
  else r

/-- A UE's engine that issues nothing more of a skipped step. -/
def EngSt.skip (n : BitVec 64) (r : EngSt) : EngSt :=
  if r.step = some n then { r with ended := true, issued := [], wait := none } else r

/-- The UE engines changed. -/
def State.mapUes (s : State) (f : EngSt → EngSt) : State :=
  (List.range s.dies).foldl (fun (a : State) d =>
    let e := dieEngOf (dieFin d) .ue
    a.setEng e (f (a.engRaw e))) s

/-- JOURNAL_RESTORE_COMPLETE (R56, R57, R75, R587, R609-R615, R740): the restore of the step that waits for one. -/
def execJournalRestoreComplete (c : Fin 4) (s : State) : Out :=
  let x := s.ctxAt c.val
  match x.steps.find? (fun t => t.restoring), x.cfg with
  | some t, some _ =>
    if !s.regionServed x then .next s else
    let head := x.steps.head?.any fun u => u.no == t.no
    let clip := t.st == .restoring && !t.skipped
    let r := if head then s.restoreAll (!clip) else (s, true)
    if !r.2 then
      let s := r.1.modCtx c.val fun x => x.modStep t.no fun t =>
        { t with restoring := false, restored := false, st := .aborted }
      .next (s.haltDone c.val)
    else if t.st = .aborted then
      .next ((r.1.modCtx c.val fun x => x.modStep t.no fun t =>
        { t with restoring := false, restored := true }).haltDone c.val)
    else if clip then
      let s := (r.1.mapUes (EngSt.redo t.no))
      let s := (List.range s.dies).foldl (fun (a : State) d => a.modUe d fun u => { u with clipNow := t.clip }) s
      let s := s.modCtx c.val fun x => x.modStep t.no fun t => { t with st := .redoing, restoring := false }
      .next (s.settle c.val)
    else
      let s := (r.1.mapUes (EngSt.skip t.no)).modCtx c.val fun x => x.modStep t.no fun t => { t with restoring := false }
      .next (s.settle c.val)
  | _, _ => .next s

/-- Whether a compute die has completed every op of a step and judged every stream row of it (R61). -/
def State.dieDone (s : State) (d : Nat) (n : BitVec 64) : Bool :=
  (s.engDone (dieEngOf (dieFin d) .ue) n || ((s.stepAt n).any fun t => t.skipped))
  && s.engDone (dieEngOf (dieFin d) .cx) n
  && (List.range 96).all fun l =>
    ([EngKind.ae, .ve, .me, .sync].all fun k =>
      s.engDone { die := dieFin d, core := Fin.ofNat 96 l, eng := k } n)
    && (tget CoreSt.reset s.core (d * 128 + s.physOf d l)).ae.checks.all fun q => q.step != n

/-- CHECK_DONE (R61-R63): a die's report that its checks of a step are closed, which the package takes once the step is
GATED: until then a restore and a redo may read more of its data. A compute die sends it once its engines have completed
the step and every stream row of it is judged, an I/O die once every compute die's have. -/
def execCheckDone (unit : Fin 6) (n : BitVec 64) (s : State) : Out :=
  guardUnit (s.checkUnits.contains unit.val)
    (match s.cur with
     | none => .next s
     | some (c, x) =>
       let ds := if unit.val < 4 then [unit.val] else List.range s.dies
       if (x.steps.any fun t => t.no == n && t.st == .gated) && ds.all (fun d => s.dieDone d n) then
         .next ((s.modCtx c.val fun x => x.modStep n fun t => { t with checkDone := insNat unit.val t.checkDone }).tryCommit
           c.val)
       else .next s)

/-- The number of packages of a replica group that hold a digest: this package and the peers. -/
def votes (own : BitVec 64) (peers : List (BitVec 64)) (d : BitVec 64) : Nat := ((own :: peers).filter (· == d)).length

/-- Whether a digest is held by most of a group. -/
def majority (own : BitVec 64) (peers : List (BitVec 64)) (d : BitVec 64) : Bool :=
  decide (peers.length + 1 < 2 * votes own peers d)

/-- DIGEST_EXCHANGE (R74-R79): the digests that the replicas have sent for a gated step are compared with this
package's. One that differs aborts the step; the step agrees once the digest of every replica has arrived. In a replay, a
package whose digest is not that of most of the group reports a lasting fault, which needs every digest. -/
def execDigestExchange (c : Fin 4) (n : BitVec 64) (s : State) : Out :=
  let x := s.ctxAt c.val
  match x.stepAt n, x.cfg with
  | some t, some cfg =>
    if t.st ≠ .gated ∨ t.agree ∨ s.resident ≠ some c then .next s
    else
      let own := t.fin.pkgDigest
      let peers := cfg.replicas.filterMap fun v => s.heardFrom tagDigest n v
      let every := decide (peers.length = cfg.replicas.length)
      let s' := s.consume fun r => r.tagged tagDigest n
      if peers.all (· == own) then
        (if every then
          .next ((s'.modCtx c.val fun x => x.modStep n fun t => { t with agree := true }).tryCommit c.val)
         else .next s)
      else if t.aborts = 0 then .next (s'.abortSteps c.val [n] true)
      else if !every then .next s
      else if !majority own peers own then .next (s'.wire (mkReport 0x0A 0 0 n 0))
      else .next (s'.abortSteps c.val [n] true)
  | _, _ => .next s

/-- HOLDUP_THRESHOLD_MET (R56, R66): a deferred step enters COMMITTING. -/
def execHoldupThresholdMet (c : Fin 4) (s : State) : Out :=
  let x := s.ctxAt c.val
  match x.steps.head? with
  | some t =>
    if t.st = .deferred ∧ s.holdup ∧ !x.halted ∧ !s.pmc.powerLost ∧ s.resident = some c then
      .next (s.modCtx c.val fun x => x.modStep t.no fun t => { t with st := .committing, commitTime := s.stbTicks })
    else .next s
  | none => .next s

/-- FAULT_REPORT (R63-R65, R725-R733, R758): a report reaches Town Hall over the fault wires. -/
def execFaultReport (rep : FaultReport) (s : State) : Out :=
  let s := { s with flt := { s.flt with wires := s.flt.wires.erase rep } }
  .next (s.report rep).settleNow

/-- Whether a delivered message is the abort message of a step, a JOB and an epoch. -/
def RxMsg.aborts (r : RxMsg) (job epoch : BitVec 16) (n : BitVec 64) : Bool :=
  r.tagged tagAbort n && (msgHdr r.hdr).epoch == epoch.toNat && (msgHdr r.hdr).job == job.toNat

/-- A delivered VC0 message counts in the numbering of the epoch that it has brought (R472, R473). -/
def State.markSeen (s : State) (c : Nat) (r : RxMsg) : State :=
  match s.groupOf r.link with
  | none => s
  | some g =>
    let h := msgHdr r.hdr
    s.modStream (streamKey c g 0 h.cls) fun t =>
      { t with highest := some (t.highest.getD h.seq), seen := if t.seen.contains h.seq then t.seen else h.seq :: t.seen }

/-- Whether a JOB is that of a context of the package (R418). -/
def State.holdsJob (s : State) (job : BitVec 16) : Bool :=
  (List.range 4).any fun c => (s.ctxAt c).st != .free && (s.ctxAt c).cfg.any fun g => g.job == job

/-- An abort message that waits for its context to be resident (R418, R474). -/
def State.holdAbort (s : State) (job epoch : BitVec 16) (n : BitVec 64) : State :=
  if s.net.delivered.any fun r => r.aborts job epoch n then s
  else
    let h : MsgHdr := { dst := { x := 0, y := 0, z := 0 }, cls := 0, len := 16, phase := 0, job := job.toNat, seq := 0,
                        epoch := epoch.toNat, enc := false }
    let r : RxMsg := { link := 24, buf := none, vc := 0, hdr := h.pack, payload := abortPayload n, tag := [], first := 0,
                       last := 0 }
    { s with net := { s.net with delivered := s.net.delivered ++ [r] } }

/-- An abort message for the resident context takes effect (R416, R731). -/
def State.takeAbort (s : State) (c : Nat) (job epoch : BitVec 16) (n : BitVec 64) : State :=
  let x := s.ctxAt c
  let gone := s.consume fun r => r.aborts job epoch n
  if epoch.toNat < x.epoch.toNat then gone
  else
    let t := gone.abortSteps c [n] false
    if decide (x.epoch.toNat < epoch.toNat) && x.epoch != 0xFFFF then
      (s.net.delivered.filter fun r => r.aborts job epoch n).foldl (fun (a : State) r => a.markSeen c r)
        (t.setEpoch c epoch)
    else t

/-- ABORT_MESSAGE (R60, R416-R418, R731): the JOB and EPOCH rows of R418 judge it; it raises the epoch and aborts the
step it names, with no fault of this package. It is held while its JOB names a context that is not resident. -/
def execAbortMessage (job epoch : BitVec 16) (n : BitVec 64) (s : State) : Out :=
  match s.cur.filter fun c => c.2.cfg.any fun g => g.job == job with
  | some (c, _) => .next (s.takeAbort c.val job epoch n)
  | none =>
    if s.holdsJob job then .next (s.holdAbort job epoch n)
    else .next ((s.consume fun r => r.aborts job epoch n).modXs 4 fun x => { x with stray := true })

end Sys2Proof.Machine
end

