-- ==== Sys2Proof/Machine/ConfigCheck.lean ====
section
/-! DEFINITION. Job configurations (R678-R680): the header, the seven sections, and every check that LOAD_CONFIG and
VERIFY_CONFIG apply to a configuration alone. -/

namespace Sys2Proof.Machine

/-! ## Rejections (R663) -/

/-- DETAIL of CFG_REJECT: a section KIND (0 for the header and the section table) and a byte offset. -/
def cfgErr (kind off : Nat) : Nat := kind + 65536 * off

/-- A check of a field of a section. -/
def ck (ok : Bool) (kind off : Nat) : Option Nat := if ok then none else some (cfgErr kind off)

/-- The checks of the fields of an entry at `base`: each field's offset in the entry, and whether it is in order. -/
def cks (kind base : Nat) (l : List (Nat × Bool)) : List (Option Nat) := l.map fun p => ck p.2 kind (base + p.1)

/-- The first failure of a list of checks. -/
def firstErr (l : List (Option Nat)) : Option Nat := l.findSome? id

/-- Whether a field of `n` bytes is zero. -/
def zeroAt (b : Bytes) (off n : Nat) : Bool := (slice b off n).all (· == 0#8)

/-- Whether two ranges (start, length) share a byte. -/
def meet (a b : Nat × Nat) : Bool := decide (a.1 < b.1 + b.2) && decide (b.1 < a.1 + a.2) && a.2 != 0 && b.2 != 0

/-- The index of the first element of a list that clashes with an earlier one. -/
def firstClash {α : Type} (f : α → α → Bool) : List α → Nat → List α → Option Nat
  | _, _, [] => none
  | seen, i, x :: r => if seen.any (fun y => f y x) then some i else firstClash f (x :: seen) (i + 1) r

/-! ## Header (R678, R679) -/

/-- The section table: KIND, OFFSET and LENGTH of each of the seven entries. -/
def cfgTable (b : Bytes) : List (Nat × Nat × Nat) :=
  (List.range 7).map fun i => (fld b (0x40 + 16 * i) 2, fld b (0x48 + 16 * i) 4, fld b (0x4C + 16 * i) 4)

/-- The length that R679 fixes for a section kind; none where the section's own fields fix it. -/
def cfgLen (kind : Nat) : Option Nat :=
  match kind with
  | 1 => some 32
  | 2 => some 5776
  | 3 => some 512
  | 5 => some 1120
  | 7 => some 16
  | _ => none

/-- The code of the part in headers (R266, R678). -/
def kindCode : PartKind → Nat
  | .tq4 => 1
  | .tq4h => 2

/-- The header's and the section table's checks. -/
def cfgHeaderErr (k : PartKind) (jobs : List Nat) (b : Bytes) : Option Nat :=
  let tab := cfgTable b
  let job := fld b 8 2
  firstErr
    ([ck (fld b 0 4 == 0x47464354) 0 0, ck (fld b 4 2 == 1) 0 4, ck (fld b 6 1 == kindCode k) 0 6,
      ck (decide (fld b 7 1 ≤ 1)) 0 7, ck (job != 0 && !jobs.contains job) 0 8, ck (zeroAt b 0xA 6) 0 0xA,
      ck (fld b 0x10 8 == b.length) 0 0x10, ck (zeroAt b 0x18 40) 0 0x18]
     ++ tab.zipIdx.flatMap fun p =>
       let o := 0x40 + 16 * p.2
       let e := p.1
       [ck (e.1 == p.2 + 1) 0 o, ck (zeroAt b (o + 2) 6) 0 (o + 2),
        ck (e.2.1 % 64 == 0 && decide (e.2.1 + e.2.2 ≤ b.length)
          && (tab.take p.2).all (fun f => !meet f.2 e.2)) 0 (o + 8),
        ck (match cfgLen (p.2 + 1) with
          | some n => e.2.2 == n
          | none => true) 0 (o + 12)])

/-- The bytes of a section. -/
def cfgSec (b : Bytes) (kind : Nat) : Bytes := slice b (fld b (0x38 + 16 * kind) 4) (fld b (0x3C + 16 * kind) 4)

/-! ## Topology (R518, R519) -/

/-- Three bytes as a triple. -/
def vecAt (b : Bytes) (off : Nat) : Vec3 := { x := fld b off 1, y := fld b (off + 1) 1, z := fld b (off + 2) 1 }

/-- The topology section. -/
def topoOf (b : Bytes) : TopoCfg :=
  { sys := vecAt b 0, origin := vecAt b 4, ext := vecAt b 8, self := vecAt b 0xC,
    memberEn := BitVec.ofNat 24 (fld b 0x10 3), w2 := fld b 0x14 1, w3 := fld b 0x15 1, w4 := fld b 0x16 1,
    w5 := fld b 0x17 1, bypass := (List.range 4).map fun i => fld b (0x18 + 2 * i) 2 }

/-- The topology section's checks. -/
def topoErr (k : PartKind) (b : Bytes) : Option Nat :=
  let t := topoOf b
  let small := k == .tq4h
  let vec (off : Nat) (ok : Nat → Bool) : List (Option Nat) :=
    cks 1 off [(0, ok 0), (1, ok 1), (2, ok 2), (3, zeroAt b (off + 3) 1)]
  let dirs := t.bypass.filter (· != 0)
  firstErr
    (vec 0 (fun a => decide (1 ≤ t.sys.axis a) && decide (t.sys.axis a ≤ 32))
     ++ vec 4 (fun a => decide (t.origin.axis a < t.sys.axis a))
     ++ vec 8 (fun a => decide (1 ≤ t.ext.axis a) && decide (t.ext.axis a ≤ t.sys.axis a))
     ++ vec 0xC (fun a => decide (t.self.axis a < t.ext.axis a))
     ++ [ck (!small || decide (t.memberEn.toNat < 4096)) 1 0x10, ck (zeroAt b 0x13 1) 1 0x13,
         ck (t.w2 + t.w3 + t.w4 + t.w5 == 64) 1 0x14,
         ck (!small || t.sys.z == 1) 1 2, ck (!small || t.ext.z == 1) 1 0xA]
     ++ t.bypass.zipIdx.map fun p =>
       ck (decide (p.1 ≤ 6) && (p.1 == 0 || t.faces (p.1 - 1)) && (!small || decide (p.2 < 2) || p.1 == 0)
         && (p.1 == 0 || (dirs.filter (· == p.1)).length == 1)) 1 (0x18 + 2 * p.2))

/-! ## Synchronisation (R426, R452, R453) -/

/-- A field of which zero selects a default. -/
def dflt (v d : Nat) : Nat := if v = 0 then d else v

/-- The synchronisation section. -/
def syncOf (b : Bytes) : SyncCfg :=
  let rec8 (base n w : Nat) : List Bytes := chunks w n (slice b base (n * w))
  { wdog := dflt (fld b 0 4) 1000000, wdogLong := dflt (fld b 4 4) 25000000, anchorLead := dflt (fld b 8 4) 2000,
    dxOwner := slice b 0x10 1024, pxOwner := (rec8 0x410 64 2).map fun e => BitVec.ofNat 16 (leNat e),
    launch := (rec8 0x490 64 8).map fun e =>
      ({ px := leNat e % 64, valid := bitOf (leNat e) 6, offset := fld e 4 4 } : LaunchEnt),
    window := (rec8 0x690 256 16).map fun e =>
      ({ link := fld e 0 1, phase := BitVec.ofNat 8 (fld e 1 1), wopen := fld e 4 4, wclose := fld e 8 4 } : WinEnt) }

/-- Whether a DX_OWNER entry marks its crossing unallocated. -/
def dxFree (o : BitVec 8) : Bool := o.toNat % 128 == 0x7F

/-- Whether a PX_OWNER entry marks its crossing unallocated. -/
def pxFree (o : BitVec 16) : Bool := o == 0xFFFF#16

/-- The synchronisation section's checks on a part with so many dies and links; `cto` is the collective timeout of the
same configuration. -/
def syncErr (dies links cto : Nat) (b : Bytes) : Option Nat :=
  let y := syncOf b
  let range (v lo hi : Nat) : Bool := v == 0 || (decide (lo ≤ v) && decide (v ≤ hi))
  let used := y.window.filter fun w => w.link != 255
  firstErr
    ([ck (range (fld b 0 4) 100 100000000) 2 0, ck (range (fld b 4 4) 100 100000000) 2 4,
      ck (range (fld b 8 4) 100 1000000) 2 8, ck (zeroAt b 0xC 4) 2 0xC]
     ++ (y.dxOwner.zipIdx.map fun p =>
       ck (dxFree p.1 || (decide (p.1.toNat % 128 < 96) && decide (p.2 / 256 < dies))) 2 (0x10 + p.2))
     ++ (y.pxOwner.zipIdx.map fun p =>
       let v := p.1.toNat
       ck (pxFree p.1 || (decide (v % 128 < 96) && decide (bits v 8 7 < dies) && v / 1024 == 0)) 2 (0x410 + 2 * p.2))
     ++ ((y.launch.zip (chunks 8 64 (slice b 0x490 512))).zipIdx.map fun p =>
       let l := p.1.1
       ck (bits (fld p.1.2 0 4) 31 7 == 0 && (!l.valid || !pxFree (y.pxOwner.getD l.px 0xFFFF#16))) 2 (0x490 + 8 * p.2))
     ++ ((y.window.zip (chunks 16 256 (slice b 0x690 4096))).zipIdx.flatMap fun p =>
       let o := 0x690 + 16 * p.2
       let w := p.1.1
       [ck (decide (w.link < links) || w.link == 255) 2 o, ck (zeroAt p.1.2 2 2) 2 (o + 2),
        ck (w.link == 255 || decide (w.wopen ≤ w.wclose)) 2 (o + 8), ck (zeroAt p.1.2 12 4) 2 (o + 12),
        ck (w.link == 255 || (used.filter fun v => v.link == w.link && v.phase == w.phase).length == 1) 2 o])
     ++ [ck (decide (4 * cto < y.wdogLong)) 2 4])

/-! ## Market (R384-R386) -/

/-- An entry of the Market section. -/
def mktEnt (v : Nat) : MktEnt :=
  { kind := bits v 1 0, io := bits v 2 2, cls := bits v 11 8, vc := bits v 14 12, links := BitVec.ofNat 12 (bits v 27 16),
    buffers := bits v 47 32 }

/-- The words of the Market section. -/
def mktWords (b : Bytes) : List Nat := (chunks 8 64 (slice b 0 512)).map leNat

/-- The Market section. -/
def marketOf (b : Bytes) : List MktEnt := (mktWords b).map mktEnt

/-- The fields of an entry, each with its byte and whether it carries no reserved encoding (R384, R386). -/
def mktFields (ios v : Nat) : List (Nat × Bool) :=
  let e := mktEnt v
  let link := e.kind == 1
  let size := decide (1 ≤ e.buffers) && decide (e.buffers ≤ 8192)
  let used := e.kind != 0
  [(0, e.kind != 3), (0, if used then decide (e.io < ios) else e.io == 0), (0, bits v 7 3 == 0),
   (1, (e.cls != 0) == link), (1, if link then decide (e.vc ≤ 5) else e.vc == 0), (1, bits v 15 15 == 0),
   (2, link || e.links == 0), (3, bits v 31 28 == 0), (4, if used then size else e.buffers == 0), (6, v / 2 ^ 48 == 0)]

/-- Whether two LINK entries of one I/O die break R385. -/
def mktClash (a b : MktEnt) : Bool :=
  a.kind == 1 && b.kind == 1 && a.io == b.io && a.cls == b.cls && (a.vc != b.vc || a.links &&& b.links != 0)

/-- The Market section's checks but for R386. -/
def marketErr (ios : Nat) (b : Bytes) : Option Nat :=
  let es := marketOf b
  firstErr
    (((mktWords b).zipIdx.flatMap fun p => cks 3 (8 * p.2) (mktFields ios p.1))
     ++ (es.zipIdx.map fun p =>
       ck (p.1.kind == 0 || decide (((es.take p.2).filter fun e => e.kind != 0 && e.io == p.1.io).length < 32)) 3 (8 * p.2))
     ++ [(firstClash mktClash [] 0 es).map fun i => cfgErr 3 (8 * i)])

/-- The buffers that a Market section requires of an I/O die (R386). -/
def mktNeed (io : Nat) (es : List MktEnt) : Nat :=
  1344 + sumNat (es.map fun e =>
    if e.io ≠ io then 0
    else if e.kind = 1 then e.buffers * ((List.range 12).filter fun j => e.links.getLsbD j).length
    else if e.kind = 2 then e.buffers else 0)

/-! ## Collective section (R536-R538) -/

/-- A group member. -/
def memberOf (v : Nat) : GrpMember := { x := bits v 4 0, y := bits v 9 5, z := bits v 14 10, die := bits v 16 15 }

/-- Member words of a group descriptor at an offset. -/
def memberWords (b : Bytes) (off : Nat) : List Nat :=
  let p := fld b off 4
  if b.length < off + 16 + 4 * p then [] else (chunks 4 p (slice b (off + 16) (4 * p))).map leNat

/-- A group descriptor. -/
def groupOf (b : Bytes) (off : Nat) : Group :=
  { p := fld b off 4, l1 := fld b (off + 4) 4, l2 := fld b (off + 8) 4, l3 := fld b (off + 12) 4,
    members := (memberWords b off).map memberOf }

/-- Offsets of the group descriptors. -/
def groupOffs (b : Bytes) : List Nat := (List.range (min 64 (fld b 4 4))).map fun g => fld b (0x10 + 4 * g) 4

/-- The group descriptors of a collective section. -/
def groupsOf (b : Bytes) : List Group := (groupOffs b).map (groupOf b)

/-- Whether two packages are torus neighbours in the job (R499). -/
def TopoCfg.adj (t : TopoCfg) (v w : Vec3) : Bool :=
  (List.range 6).any fun d => ({ t with self := v }).faces d && t.step v d == w

/-- The coordinates of a member. -/
def GrpMember.vec (m : GrpMember) : Vec3 := { x := m.x, y := m.y, z := m.z }

/-- The package of a rank; rank 0's where there is none. -/
def Group.vec (g : Group) (k : Nat) : Vec3 :=
  match g.members[k]? with
  | some m => m.vec
  | none => { x := 0, y := 0, z := 0 }

/-- Whether the next position of every ring of a member lies on the same or on a neighbouring package. -/
def ringsOk (t : TopoCfg) (g : Group) (k : Nat) : Bool :=
  [1, 2, 3].all fun i =>
    let n := g.ringMember k i (digit (g.digits k) i + 1)
    g.vec n == g.vec k || t.adj (g.vec k) (g.vec n)

/-- A group descriptor's checks. -/
def groupErr (dies : Nat) (t : TopoCfg) (b : Bytes) (off : Nat) : Option Nat :=
  let g := groupOf b off
  firstErr
    ([ck (decide (1 ≤ g.p) && decide (g.p ≤ 131072) && decide (off + 16 + 4 * g.p ≤ b.length)) 4 off,
      ck (g.l1 * g.l2 * g.l3 == g.p) 4 (off + 4)]
     ++ ((memberWords b off).zipIdx.flatMap fun p =>
       let m := memberOf p.1
       cks 4 (off + 16 + 4 * p.2)
         [(0, decide (m.x < t.ext.x)), (0, decide (m.y < t.ext.y)), (1, decide (m.z < t.ext.z)), (1, decide (m.die < dies)),
          (2, p.1 / 2 ^ 17 == 0)])
     ++ [(firstClash (· == ·) [] 0 g.members).map fun i => cfgErr 4 (off + 16 + 4 * i)]
     ++ (List.range g.members.length).map fun k => ck (ringsOk t g k) 4 (off + 16 + 4 * k))

/-- The collective section's checks. -/
def collErr (dies : Nat) (t : TopoCfg) (b : Bytes) : Option Nat :=
  let cto := fld b 0 4
  let n := fld b 4 4
  firstErr
    ([ck (decide (0x110 ≤ b.length)) 4 0, ck (cto == 0 || (decide (1000 ≤ cto) && decide (cto ≤ 100000000))) 4 0,
      ck (decide (n ≤ 64)) 4 4, ck (zeroAt b 8 8) 4 8]
     ++ ((List.range 64).map fun g =>
       let o := fld b (0x10 + 4 * g) 4
       ck (if g < n then o % 8 == 0 && decide (o + 16 ≤ b.length) else o == 0) 4 (0x10 + 4 * g))
     ++ (groupOffs b).map (groupErr dies t b))

/-! ## Optimiser (R589, R622, R623) -/

/-- A parameter group of 32 bytes. -/
def optGroup (e : Bytes) : OptGroup :=
  let v (i : Nat) : BitVec 32 := BitVec.ofNat 32 (fld e (4 * i) 4)
  { b1 := v 0, b2 := v 1, eps := v 2, lam := v 3, lrMult := v 4, used := bitOf (fld e 31 1) 0 }

/-- A schedule segment of 32 bytes. -/
def segOf (e : Bytes) : Seg :=
  { start := fld e 0 8, stop := fld e 8 8, kind := fld e 16 1, lrStart := BitVec.ofNat 32 (fld e 20 4),
    lrEnd := BitVec.ofNat 32 (fld e 24 4) }

/-- The 32-byte entries of a table. -/
def tab32 (b : Bytes) (off n : Nat) : List Bytes := chunks 32 n (slice b off (32 * n))

/-- The optimiser section. -/
def optOf (b : Bytes) : OptCfg :=
  { journalLimit := fld b 0 4, lsN := fld b 4 2, lsMin := asInt 8 (fld b 6 1), lsMax := asInt 8 (fld b 7 1),
    tau := BitVec.ofNat 32 (fld b 0xC 4), jbase := (List.range 4).map fun d => fld b (0x10 + 8 * d) 8,
    jbytes := (List.range 4).map fun d => fld b (0x30 + 8 * d) 8, stepConst := fld b 0x50 8,
    groups := (tab32 b 0x60 16).map optGroup, segs := ((tab32 b 0x260 16).map segOf).take (fld b 8 1) }

/-- Whether a VS32 code is a finite number that is not negative. -/
def posFin (v : BitVec 32) : Bool :=
  match vs32 v with
  | .fin s n _ => !s || n == 0
  | _ => false

/-- Whether a VS32 code is a number above zero, +infinity included. -/
def aboveZero (v : BitVec 32) : Bool :=
  match vs32 v with
  | .fin s n _ => !s && n != 0
  | .inf s => !s
  | .nan => false

/-- Whether a VS32 code lies from 0 to below 1. -/
def unitVal (v : BitVec 32) : Bool :=
  match vs32 v with
  | .fin s n d => n == 0 || (!s && decide (n < d))
  | _ => false

/-- The fields of a segment's entry, each with whether it is in order (R589); an entry from SEGS on is zero (R622). -/
def segFields (present : Bool) (e : Bytes) : List (Nat × Bool) :=
  let s := segOf e
  let rate (v : BitVec 32) : Bool := posFin v && (s.kind != 4 || aboveZero v)
  if present then
    [(8, decide (s.start ≤ s.stop)), (16, decide (s.kind ≤ 4)), (17, zeroAt e 17 3), (20, rate s.lrStart),
     (24, rate s.lrEnd), (28, zeroAt e 28 4)]
  else ([(0, 8), (8, 8), (16, 1), (17, 3), (20, 4), (24, 4), (28, 4)] : List (Nat × Nat)).map fun f => (f.1, zeroAt e f.1 f.2)

/-- The fields of a parameter group's entry, each with whether it is in order (R622, R623). -/
def groupFields (e : Bytes) : List (Nat × Bool) :=
  let g := optGroup e
  [(0, !g.used || unitVal g.b1), (4, !g.used || unitVal g.b2), (8, !g.used || posFin g.eps), (12, !g.used || posFin g.lam),
   (16, !g.used || posFin g.lrMult), (20, zeroAt e 20 11), (31, decide (fld e 31 1 ≤ 1))]

/-- Whether an HBM range exists, and lies in the range of one die where interleave is die-local (R320, R326). -/
def hbmRange (hbm : Nat) (il : Bool) (die a n : Nat) : Bool :=
  if il then decide (a + n ≤ hbm) else decide (2 ^ 38 * die ≤ a) && decide (a + n ≤ 2 ^ 38 * (die + 1))

/-- The optimiser section's checks. -/
def optErr (dies hbm : Nat) (il : Bool) (b : Bytes) : Option Nat :=
  let o := optOf b
  let segs := fld b 8 1
  let ds := List.range dies
  let js := ds.map fun d => (o.jbase.getD d 0, o.jbytes.getD d 0)
  firstErr
    ([ck (decide (1 ≤ o.journalLimit) && js.all fun j => decide (o.journalLimit * 2 ^ 20 ≤ j.2)) 5 0,
      ck (o.lsN != 0) 5 4, ck (decide (-126 ≤ o.lsMin) && decide (o.lsMin ≤ 126)) 5 6,
      ck (decide (o.lsMin ≤ o.lsMax) && decide (o.lsMax ≤ 126)) 5 7, ck (decide (1 ≤ segs) && decide (segs ≤ 16)) 5 8,
      ck (zeroAt b 9 3) 5 9, ck (aboveZero o.tau) 5 0xC]
     ++ (js.zipIdx.map fun p =>
       ck (p.1.1 % 4096 == 0 && hbmRange hbm il p.2 p.1.1 p.1.2) 5 (0x10 + 8 * p.2))
     ++ (js.zipIdx.map fun p => ck (p.1.2 % 2 ^ 20 == 0) 5 (0x30 + 8 * p.2))
     ++ [ck (o.stepConst % 64 == 0 && decide (o.stepConst + 64 * dies ≤ hbm)) 5 0x50, ck (zeroAt b 0x58 8) 5 0x58,
         (firstClash meet [] 0 js).map fun i => cfgErr 5 (0x10 + 8 * i),
         ck (js.all fun j => !meet j (o.stepConst, 64 * dies)) 5 0x50]
     ++ ((tab32 b 0x60 16).zipIdx.flatMap fun p => cks 5 (0x60 + 32 * p.2) (groupFields p.1))
     ++ ((tab32 b 0x260 16).zipIdx.flatMap fun p =>
       cks 5 (0x260 + 32 * p.2) (segFields (decide (p.2 < segs)) p.1))
     ++ (List.range (o.segs.length - 1)).map fun i =>
       ck (match o.segs[i]?, o.segs[i + 1]? with
         | some a, some c => decide (a.start < c.start) && decide (a.stop < c.start)
         | _, _ => true) 5 (0x260 + 32 * (i + 1)))

/-! ## Mapping (R628-R630) -/

/-- A sharding-map entry of 32 bytes. -/
def shardOf (e : Bytes) : Shard := { first := fld e 0 6, count := fld e 8 5, master := fld e 16 6, die := fld e 24 1 }

/-- The sharding map of a mapping section. -/
def shardsOf (b : Bytes) : List Shard := (tab32 b 0x10 (fld b 4 4)).map shardOf

/-- The replica group of a mapping section. -/
def replOf (b : Bytes) : Option Nat := let v := fld b 0 4; if v = 0xFFFFFFFF then none else some v

/-- Whether a group serves as the replica group of a package. -/
def replOk (t : TopoCfg) (g : Group) : Bool :=
  g.members.all (fun m => m.die == 0) && (g.members.filter fun m => m.vec == t.self).length == 1

/-- The mapping section's checks. -/
def mapErr (dies hbm : Nat) (il : Bool) (t : TopoCfg) (gs : List Group) (b : Bytes) : Option Nat :=
  let n := fld b 4 4
  let es := shardsOf b
  firstErr
    ([ck (match replOf b with
        | none => true
        | some g => (gs[g]?).any (replOk t)) 6 0,
      ck (decide (1 ≤ n) && decide (n ≤ 4096) && b.length == 16 + 32 * n) 6 4, ck (zeroAt b 8 8) 6 8]
     ++ ((tab32 b 0x10 n).zipIdx.flatMap fun p =>
       let e := shardOf p.1
       cks 6 (0x10 + 32 * p.2)
         [(0, zeroAt p.1 6 2), (8, zeroAt p.1 13 3 && e.count % 64 == 0), (24, decide (e.die < dies)),
          (16, zeroAt p.1 22 2 && hbmRange hbm il e.die e.master (4 * e.count)), (25, zeroAt p.1 25 7)])
     ++ ((List.range (es.length - 1)).map fun i =>
       ck (match es[i]?, es[i + 1]? with
         | some a, some c => decide (a.first < c.first) && decide (a.first + a.count ≤ c.first)
         | _, _ => true) 6 (0x10 + 32 * (i + 1)))
     ++ [(firstClash (fun a c => meet (a.master, 4 * a.count) (c.master, 4 * c.count)) [] 0 es).map fun i =>
           cfgErr 6 (0x10 + 32 * i)])

/-! ## Power (R785) -/

/-- Sustained maximum power of the part in W (R1). -/
def maxPower : PartKind → Nat
  | .tq4 => 4000
  | .tq4h => 2000

/-- The power section. -/
def powerOf (b : Bytes) : PowerCfg :=
  { pwinLimit := fld b 0 4, pwinMs := fld b 4 2, railLimit := fld b 6 1, tLimit := dflt (fld b 7 1) 100,
    fastPos := fld b 8 1 }

/-- The power section's checks. -/
def powerErr (k : PartKind) (b : Bytes) : Option Nat :=
  let p := powerOf b
  firstErr
    [ck (p.pwinLimit == 0 || (decide (100 ≤ p.pwinLimit) && decide (p.pwinLimit ≤ maxPower k))) 7 0,
     ck (if p.pwinLimit = 0 then p.pwinMs == 0 else decide (1 ≤ p.pwinMs) && decide (p.pwinMs ≤ 100)) 7 4,
     ck (decide (p.railLimit ≤ 95)) 7 6, ck (decide (80 ≤ p.tLimit) && decide (p.tLimit ≤ 100)) 7 7,
     ck (decide (p.fastPos ≤ 4)) 7 8, ck (zeroAt b 9 7) 7 9]

/-! ## The whole configuration (R681) -/

/-- JOBs of the configurations of the other contexts (R680). -/
def State.otherJobs (s : State) (c : Nat) : List Nat :=
  (List.range 4).flatMap fun i =>
    if i = c then []
    else
      let x := s.ctxAt i
      (x.cfg.toList ++ x.shadow.toList).map fun g => g.job.toNat

/-- The configuration that checked bytes spell. -/
def cfgOf (b : Bytes) : JobCfg :=
  { interleave := fld b 7 1 == 1, job := BitVec.ofNat 16 (fld b 8 2), hash := sha384 b, topo := topoOf (cfgSec b 1),
    sync := syncOf (cfgSec b 2), market := marketOf (cfgSec b 3), cto := dflt (fld (cfgSec b 4) 0 4) 5000000,
    groups := groupsOf (cfgSec b 4), opt := optOf (cfgSec b 5), repl := replOf (cfgSec b 6),
    shards := shardsOf (cfgSec b 6), power := powerOf (cfgSec b 7), raw := b }

/-- The status and DETAIL with which a configuration alone is rejected (R15, R330, R385, R386, R426, R453, R519, R538,
R623, R630, R678-R680). -/
def State.cfgErrOf (s : State) (c : Nat) (b : Bytes) : Option (Nat × Nat) :=
  let k := s.fuse.kind
  let rej (e : Option Nat) : Option (Nat × Nat) := e.map fun d => (0x20, d)
  match rej (cfgHeaderErr k (s.otherJobs c) b) with
  | some e => some e
  | none =>
    let il := fld b 7 1 == 1
    if il != s.globalIl then some (0x22, b2n s.globalIl)
    else
      let t := topoOf (cfgSec b 1)
      let es := marketOf (cfgSec b 3)
      let full := (List.range s.ios).find? fun io => decide (8192 < mktNeed io es)
      rej (firstErr
        [topoErr k (cfgSec b 1), syncErr s.dies s.links (dflt (fld (cfgSec b 4) 0 4) 5000000) (cfgSec b 2),
         marketErr s.ios (cfgSec b 3)])
      <|> (full.map fun io => (0x21, io + 256 * mktNeed io es))
      <|> rej (firstErr
        [collErr s.dies t (cfgSec b 4), optErr s.dies s.hbmBytes il (cfgSec b 5),
         mapErr s.dies s.hbmBytes il t (groupsOf (cfgSec b 4)) (cfgSec b 6), powerErr k (cfgSec b 7)])

/-- The configuration that bytes spell, or the status and DETAIL of its rejection. -/
def State.readCfg (s : State) (c : Nat) (b : Bytes) : Sum (Nat × Nat) JobCfg :=
  match s.cfgErrOf c b with
  | some e => .inl e
  | none => .inr (cfgOf b)

end Sys2Proof.Machine
end

