-- ==== Sys2Proof/Machine/Firmware.lean ====
section
/-! DEFINITION. Firmware copies (R814-R817): what makes a copy authentic and admissible, and which copy runs. -/

namespace Sys2Proof.Machine

/-- A header of R814 with its MAGIC, version, zeros and payload length. -/
def fwShape (c : FlashCopy) : Bool :=
  fld c.hdr 0 4 == 0x57465154 && fld c.hdr 4 2 == 1 && zeroAt c.hdr 0x18 8 && zeroAt c.hdr 0x110 240
  && c.hdr.length == 512 && decide (fld c.hdr 0xC 4 ≤ 64)
  && decide (1 ≤ fld c.hdr 0x10 8) && decide (fld c.hdr 0x10 8 ≤ 2 ^ 24) && c.pay.length == fld c.hdr 0x10 8

/-- ARB of a copy. -/
def fwArb (c : FlashCopy) : Nat := fld c.hdr 0xC 4

/-- The version of a copy, the major number first. -/
def fwVersion (c : FlashCopy) : Nat := fld c.hdr 8 1 * 2 ^ 24 + fld c.hdr 9 1 * 2 ^ 16 + fld c.hdr 10 2

/-- Whether a copy is authentic (R815). -/
def fwAuthentic (f : Fuses) (c : FlashCopy) : Bool :=
  fwShape c && fld c.hdr 6 1 == kindCode f.kind && decide (fld c.hdr 7 1 ≤ (if f.stepB then 0xB0 else 0xA0))
  && (fld c.hdr 7 1 == 0xA0 || fld c.hdr 7 1 == 0xB0)
  && (sha384 (slice c.hdr 0x50 96) == f.fwKeyHash)
  && slice c.hdr 0x20 48 == sha384Bytes c.pay
  && sigOk (slice c.hdr 0x50 96) (slice c.hdr 0xB0 96) (slice c.hdr 0 0xB0)

/-- Whether a copy is admissible (R815). -/
def fwAdmissible (f : Fuses) (c : FlashCopy) : Bool := fwAuthentic f c && decide (f.arb ≤ fwArb c)

/-- The copy that the boot ROM runs (R816), and whether it is copy B; none where neither is admissible. -/
def fwChoice (f : Fuses) (a b : FlashCopy) : Option (FlashCopy × Bool) :=
  match fwAdmissible f a, fwAdmissible f b with
  | false, false => none
  | true, false => some (a, false)
  | false, true => some (b, true)
  | true, true =>
    if fwArb a < fwArb b ∨ (fwArb a = fwArb b ∧ fwVersion a < fwVersion b) then some (b, true) else some (a, false)

end Sys2Proof.Machine
end

