-- ==== Sys2Proof/Machine/Fec.lean ====
section
/-! DEFINITION. Flits, their check sequence, and the forward error correction of an Avenue link (R464-R468). -/

namespace Sys2Proof.Machine

/-! ## RS(70, 64) (R467, R468) -/

/-- The generator with roots α^0 to α^5, lowest coefficient first, without its leading 1 (R467). -/
def rsGen : List Nat :=
  let mulRoot (g : List Nat) (r : Nat) : List Nat :=
    (List.range (g.length + 1)).map fun i => (if i = 0 then 0 else g.getD (i - 1) 0) ^^^ gfMul r (g.getD i 0)
  ((List.range 6).foldl (fun g k => mulRoot g (gfPow k)) [1]).take 6

/-- The six parity symbols of 64 data symbols. Data symbol i is the coefficient of x^(6 + i) and parity symbol q that
of x^q, as R331 places the symbols of its code (DEDUCED; assumption log 20). -/
def rsParity (data : List Nat) : List Nat :=
  let g := rsGen
  data.reverse.foldl (fun r d =>
    let fb := d ^^^ r.getD 5 0
    (List.range 6).map fun j => (if j = 0 then 0 else r.getD (j - 1) 0) ^^^ gfMul fb (g.getD j 0)) (List.replicate 6 0)

/-- Syndromes 0 to 5 of a codeword, position 0 first. -/
def rsSyn (cw : List Nat) : List Nat :=
  (List.range 6).map fun k => (cw.zipIdx.foldl (fun a p => a ^^^ gfMul p.1 (gfPow (p.2 * k % 255))) 0)

/-- The inverse of a field element. -/
def gfInv (a : Nat) : Nat := (List.range 254).foldl (fun x _ => gfMul x a) 1

/-- The state of the search for the shortest error locator: the locator, the one before, its length, and the
discrepancy and age of the one before. -/
structure LocSt where
  c : List Nat
  b : List Nat
  l : Nat
  d : Nat
  m : Nat
  deriving DecidableEq, Repr

/-- One syndrome more (Berlekamp and Massey). -/
def locStep (s : List Nat) (t : LocSt) (n : Nat) : LocSt :=
  let d := (List.range (t.l + 1)).foldl (fun a i => a ^^^ gfMul (t.c.getD i 0) (s.getD (n - i) 0)) 0
  if d = 0 then { t with m := t.m + 1 }
  else
    let k := gfMul d (gfInv t.d)
    let c := (List.range (max t.c.length (t.b.length + t.m))).map fun i =>
      t.c.getD i 0 ^^^ (if i < t.m then 0 else gfMul k (t.b.getD (i - t.m) 0))
    if 2 * t.l ≤ n then { c := c, b := t.c, l := n + 1 - t.l, d := d, m := 1 } else { t with c := c, m := t.m + 1 }

/-- The magnitude of the error at place `x` of the places `xs`. -/
def errMag (s xs : List Nat) (x : Nat) : Nat :=
  let o := xs.filter (· != x)
  let poly := o.foldl (fun p r => (List.range (p.length + 1)).map fun i =>
    (if i = 0 then 0 else p.getD (i - 1) 0) ^^^ gfMul r (p.getD i 0)) [1]
  let num := poly.zipIdx.foldl (fun a p => a ^^^ gfMul p.1 (s.getD p.2 0)) 0
  let den := o.foldl (fun a r => gfMul a (x ^^^ r)) 1
  gfMul num (gfInv den)

/-- A codeword corrected in up to three symbols, with their number; none where it cannot be decoded (R468). -/
def rsDecode (cw : List Nat) : Option (List Nat × Nat) :=
  let s := rsSyn cw
  if s.all (· == 0) then some (cw, 0)
  else
    let t := (List.range 6).foldl (locStep s) { c := [1], b := [1], l := 0, d := 1, m := 1 }
    if 3 < t.l then none
    else
      let js := (List.range 70).filter fun j =>
        t.c.zipIdx.foldl (fun a p => a ^^^ gfMul p.1 (gfPow ((255 - j) * p.2 % 255))) 0 == 0
      if js.length ≠ t.l then none
      else
        let xs := js.map gfPow
        let fixed := js.foldl (fun c j => c.set j (c.getD j 0 ^^^ errMag s xs (gfPow j))) cw
        if (rsSyn fixed).all (· == 0) then some (fixed, t.l) else none

/-- Codeword c of a wire unit: its parity symbols, then its data symbols (R467). -/
def codewordOf (u : Bytes) (c : Nat) : List Nat :=
  ((List.range 6).map fun q => fld u (256 + 4 * q + c) 1) ++ (List.range 64).map fun i => fld u (c + 4 * i) 1

/-- The wire unit of a flit's 256 bytes: the flit and its 24 parity bytes (R467). -/
def wireUnit (f : Bytes) : Bytes :=
  let ps := (List.range 4).map fun c => rsParity ((List.range 64).map fun i => fld f (c + 4 * i) 1)
  f ++ (List.range 24).map fun i => BitVec.ofNat 8 ((ps.getD (i % 4) []).getD (i / 4) 0)

/-- A wire unit decoded: the flit's bytes and the largest number of symbols that a codeword needed corrected; none
where a codeword cannot be decoded. -/
def fecDecode (u : Bytes) : Option (Bytes × Nat) :=
  match rsDecode (codewordOf u 0), rsDecode (codewordOf u 1), rsDecode (codewordOf u 2), rsDecode (codewordOf u 3) with
  | some a, some b, some c, some d =>
    let cs := [a.1, b.1, c.1, d.1]
    some ((List.range 256).map fun i => BitVec.ofNat 8 ((cs.getD (i % 4) []).getD (6 + i / 4) 0),
          max (max a.2 b.2) (max c.2 d.2))
  | _, _, _, _ => none

/-! ## Flits (R464-R466) -/

/-- The 256 bytes of a flit with a VC code of R464. -/
def flitBytes (f : Flit) : Bytes :=
  let h := leBytes 2 (f.seq % 1024 + 1024 * (f.vc % 8) + 8192 * b2n f.som + 16384 * b2n f.eom) ++ slice f.body 0 250
  h ++ leBytes 4 (crc32 h).toNat

/-- The fields of a flit's bytes. -/
def flitOf (b : Bytes) : Flit :=
  let h := fld b 0 2
  { seq := h % 1024, vc := bits h 12 10, som := bitOf h 13, eom := bitOf h 14, body := slice b 2 250, par := [] }

/-- Whether a flit's check sequence holds (R465). -/
def crcOk (b : Bytes) : Bool := fld b 252 4 == (crc32 (b.take 252)).toNat

/-- The body of a link-control flit (R477). -/
def ctrlBody (rs : List (BitVec 128)) : Bytes := slice (rs.flatMap fun r => leBytes 16 r.toNat) 0 250

/-- A link-control flit. -/
def ctrlFlit (rs : List (BitVec 128)) : Flit := { seq := 0, vc := 6, som := false, eom := false, body := ctrlBody rs, par := [] }

/-- An idle flit. -/
def idleFlit : Flit := { seq := 0, vc := 7, som := false, eom := false, body := [], par := [] }

/-! ## Parity beside the flits of the package's own links (R720, R721) -/

/-- The even-parity bit of a byte. -/
def parityOf (b : Byte) : Bool := (List.range 8).foldl (fun a i => a != b.getLsbD i) false

/-- The parity bits of a flit's body, eight to a byte. -/
def bodyParity (f : Flit) : Bytes :=
  (List.range 32).map fun q => BitVec.ofNat 8 (sumNat ((List.range 8).map fun i =>
    2 ^ i * b2n (parityOf (f.body.getD (8 * q + i) 0#8) != f.par.contains (8 * q + i))))

/-- A flit of the package's own links, from the bytes of a wire unit: the flit and the parity bits of its body. -/
def innerFlit (b : Bytes) : Flit :=
  let f := flitOf (b.take 256)
  { f with par := (List.range 250).filter fun i =>
      parityOf (f.body.getD i 0#8) != (b.getD (256 + i / 8) 0#8).getLsbD (i % 8) }

end Sys2Proof.Machine
end

