-- ==== Sys2Proof/Machine/Sync.lean ====
section
/-! DEFINITION. Crossings, completion of ops, watchdogs, increment records, anchors, launches and handshake pacing
(R277, R278, R304, R402-R428, R439-R451). -/

namespace Sys2Proof.Machine

/-! ## Increment records (R413-R420) -/

/-- The fields of an increment record (R413). -/
structure IncRec where
  step : BitVec 64
  job : BitVec 16
  epoch : BitVec 16
  n : Nat
  index : Nat
  deriving DecidableEq, Repr

/-- The record in 128 bits. -/
def incRec (b : BitVec 128) : IncRec :=
  let v := b.toNat
  { step := BitVec.ofNat 64 v, job := BitVec.ofNat 16 (bits v 79 64), epoch := BitVec.ofNat 16 (bits v 95 80),
    n := bits v 111 96, index := bits v 117 112 }

/-- The 128 bits of a record. -/
def IncRec.pack (r : IncRec) : BitVec 128 :=
  BitVec.ofNat 128 (r.step.toNat + 2 ^ 64 * r.job.toNat + 2 ^ 80 * r.epoch.toNat + 2 ^ 96 * (r.n % 65536)
    + 2 ^ 112 * (r.index % 64))

/-- The outcomes of R418. -/
inductive RecOut where
  | stray | hold | discard | apply
  deriving DecidableEq, Repr

/-- What a JOB and an EPOCH alone decide (R418, R474). -/
def State.judgeJob (s : State) (job epoch : BitVec 16) : RecOut :=
  let holds (x : CtxSt) : Bool := x.st != .free && x.cfg.any fun g => g.job == job
  match s.cur with
  | some (_, x) =>
    if holds x then
      (if epoch.toNat < x.epoch.toNat then .discard else if x.epoch.toNat < epoch.toNat then .hold else .apply)
    else if (List.range 4).any fun c => holds (s.ctxAt c) then .hold else .stray
  | none => if (List.range 4).any fun c => holds (s.ctxAt c) then .hold else .stray

/-- What R418 decides for a record. A step in ABORTED counts as not yet entered: its bank is cleared when it runs
again. -/
def State.judgeRec (s : State) (r : IncRec) : RecOut :=
  match s.judgeJob r.job r.epoch with
  | .apply =>
    (match s.cur with
     | none => .hold
     | some (_, x) =>
       let oldest := match x.steps with
         | t :: _ => t.no.toNat
         | [] => (x.next.map (·.toNat)).getD (s.cm.last.toNat + 1)
       if r.step.toNat < oldest then .discard
       else if x.steps.any fun t => t.st.runs && decide (r.step.toNat ≤ t.no.toNat) then .apply else .hold)
  | o => o

/-- A record that is not held takes its outcome, and its buffer is freed. -/
def State.settleRec (s : State) (h : HeldRec) : State :=
  let r := incRec h.record
  let s := s.freeOf h.link 1 h.buf
  match s.judgeRec r with
  | .apply => s.arrive 2 0 0 r.index r.step r.n
  | .stray => s.modXs 4 fun x => { x with stray := true }
  | .discard => s
  | .hold => s

/-- A record that reaches the package is applied, held or discarded. -/
def State.takeRec (s : State) (h : HeldRec) : State :=
  if s.judgeRec (incRec h.record) = .hold then { s with sync := { s.sync with held := s.sync.held ++ [h] } }
  else s.settleRec h

/-- INCREMENT_RECORD (R413-R420): a record is judged; the message that carried it leaves the arrivals. -/
def execIncrementRecord (rec : BitVec 128) (s : State) : Out :=
  match s.net.delivered.find? fun d => d.vc == 1 && BitVec.ofNat 128 (fld d.payload 0 16) == rec with
  | some d =>
    .next (({ s with net := { s.net with delivered := s.net.delivered.erase d } }).takeRec
      { record := rec, link := d.link, buf := d.buf })
  | none => .next (s.takeRec { record := rec, link := 0, buf := none })

/-- The held abort messages whose context has become resident take effect (R416, R418). -/
def State.heldAborts (s : State) : State :=
  match s.cur with
  | none => s
  | some (c, x) =>
    (s.net.delivered.filter fun r => r.link == 24).foldl (fun (a : State) r =>
      let h := msgHdr r.hdr
      let job : BitVec 16 := BitVec.ofNat 16 h.job
      if x.cfg.any fun g => g.job == job then
        a.takeAbort c.val job (BitVec.ofNat 16 h.epoch) (BitVec.ofNat 64 (fld r.payload 8 8))
      else a) s

/-- HELD_RECORD_APPLY (R418, R419): the oldest held record whose condition has cleared takes its outcome, and so do the
held abort messages of the resident context. -/
def execHeldRecordApply (s : State) : Out :=
  let s := s.heldAborts
  match s.sync.held.find? fun h => s.judgeRec (incRec h.record) != .hold with
  | some h => .next (({ s with sync := { s.sync with held := s.sync.held.erase h } }).settleRec h)
  | none => .next s

/-! ## Sync ops (R304, R402-R409) -/

/-- Messages of VC1 that this package originated and that wait to leave on a link (R415). -/
def MemberSt.incQueued (m : MemberSt) : Nat :=
  ((tget [] m.queue 1).filter fun t => !t.fwd).length
  + (match tget none m.started 1 with
     | some t => b2n (!t.fwd)
     | none => 0)

/-- The first link of an increment record's path, with room for it (R415); none in this package itself. -/
def State.recRoom (s : State) (dst : Vec3) : Bool :=
  match s.topoCfg with
  | none => false
  | some t =>
    match s.routeDir t 1 dst with
    | none => true
    | some (g, _) => (match s.carrier g with
      | some m => decide ((s.memberAt m).incQueued < 64)
      | none => false)

/-- The record of an X_ARRIVE with SCOPE 3 leaves on VC1, or is judged here when it names this package. -/
def State.sendRec (s : State) (f : ArriveF) (n : BitVec 64) : State :=
  match s.cur, s.topoCfg with
  | some (_, x), some t =>
    let je := s.jobEpoch
    let r : IncRec :=
      { step := n, job := BitVec.ofNat 16 je.1, epoch := x.epoch, n := f.n.toNat, index := f.index.toNat }
    let dst : Vec3 := { x := f.x.toNat, y := f.y.toNat, z := f.z.toNat }
    if dst = t.self then s.takeRec { record := r.pack, link := 0, buf := none }
    else s.sendTo 1 0 0 dst (leBytes 16 r.pack.toNat)
  | _, _ => s

/-- X_ARRIVE (R304, R402, R404, R407, R413-R415). -/
def execXArrive (c : CoreRef) (h : OpHdr) (f : ArriveF) (s : State) : Out :=
  let dst : Vec3 := { x := f.x.toNat, y := f.y.toNat, z := f.z.toNat }
  guardUnit (c.die.val < s.dies && (decide (1 < f.scope.toNat) || decide (f.die.toNat < s.dies)))
    (issue s (engOf c .sync) (.xArrive c h f) h noObs (fun _ _ => f.scope.toNat != 3 || s.recRoom dst) fun s r n =>
      (if f.scope.toNat = 3 then s.sendRec f n
       else s.arrive f.scope.toNat f.die.toNat f.core.toNat f.index.toNat n f.n.toNat,
       r, issuedOp 0x40 h n))

/-- The wait of an X_WAIT (R421). -/
def xWait (c : CoreRef) (n : BitVec 64) (scope : BitVec 2) (index : BitVec 8) (target : BitVec 16) : WaitSt :=
  { kind := .xwait, scope := scope.toNat, die := c.die.val, core := c.core.val, index := index.toNat, bank := bankOf n,
    target := target, stb := 0, ticks := 0, total := 0, ok := false }

/-- X_WAIT (R304, R402, R404, R421): the op issues and completes once the crossing has reached TARGET; until then its
engine waits. -/
def execXWait (c : CoreRef) (h : OpHdr) (scope : BitVec 2) (index : BitVec 8) (target : BitVec 16) (s : State) : Out :=
  guardUnit (c.die.val < s.dies)
    (issueWith s (engOf c .sync) (.xWait c h scope index target) h noObs (fun _ _ => true)
      (fun n =>
        if target.toNat ≤ (s.xVal scope.toNat c.die.val c.core.val index.toNat n).toNat then none
        else some (xWait c n scope index target))
      fun s r n => (s, r, issuedOp 0x41 h n))

/-- X_RESET (R304, R402, R404): the counter of the step's bank becomes zero. -/
def execXReset (c : CoreRef) (h : OpHdr) (scope : BitVec 2) (index : BitVec 8) (s : State) : Out :=
  guardUnit (c.die.val < s.dies)
    (issue s (engOf c .sync) (.xReset c h scope index) h noObs (fun _ _ => true) fun s r n =>
      let k := xKey scope.toNat c.die.val c.core.val index.toNat (bankOf n)
      ({ s with sync := { s.sync with xcnt := tset 0#16 s.sync.xcnt k 0#16 } }, r, issuedOp 0x42 h n))

/-- The wait of an X_ATTIME. -/
def timeWait (c : CoreRef) (n : BitVec 64) (stb : BitVec 64) : WaitSt :=
  { kind := .attime, scope := 0, die := c.die.val, core := c.core.val, index := 0, bank := bankOf n, target := 0,
    stb := stb, ticks := 0, total := 0, ok := false }

/-- Whether the STB has reached a value. -/
def State.reached (s : State) (stb : BitVec 64) : Bool := decide (stb.toNat ≤ s.stbTicks)

/-- X_ATTIME (R304, R421). -/
def execXAttime (c : CoreRef) (h : OpHdr) (stb : BitVec 64) (s : State) : Out :=
  guardUnit (c.die.val < s.dies)
    (issue s (engOf c .sync) (.xAttime c h stb) h noObs (fun _ _ => true) fun s r n =>
      let met := s.reached stb
      (s, { r with wait := if met then none else some (timeWait c n stb) }, { issuedOp 0x43 h n with done := met }))

/-- An engine whose X_ATTIME is satisfied: the op is done. -/
def EngSt.timeDone (r : EngSt) : EngSt :=
  { r with wait := none, issued := r.issued.map fun op => if op.code = 0x43#8 then { op with done := true } else op }

/-- STB_TIME_REACHED (R304): the waiting X_ATTIME of a core completes. -/
def execStbTimeReached (c : CoreRef) (s : State) : Out :=
  let e := engOf c .sync
  let r := s.engRaw e
  match r.wait with
  | some w => if w.kind = .attime ∧ s.reached w.stb then .next (s.setEng e r.timeDone) else .next s
  | none => .next s

/-- Whether the crossing of a wait has reached its target. -/
def State.waitMet (s : State) (w : WaitSt) : Bool :=
  decide (w.target.toNat ≤ (tget 0#16 s.sync.xcnt (xKey w.scope w.die w.core w.index w.bank)).toNat)

/-- WAITER_WAKE (R276, R410): an engine whose crossing has reached the target of its wait wakes. -/
def execWaiterWake (e : EngRef) (s : State) : Out :=
  let r := s.engRaw e
  match r.wait with
  | none => .next s
  | some w =>
    if w.kind = .attime ∨ !s.waitMet w then .next s
    else .next (s.setEng e { r with wait := some { w with ok := true } })

/-! ## Completion of ops (R140, R277, R278, R527, R528) -/

/-- The bank hand-over that an op makes, if it has not taken effect. -/
def State.handDue (s : State) (e : EngRef) (op : IssuedOp) : Bool :=
  let k := s.coreAt { die := e.die, core := e.core }
  let due (b : Option Bool) : Bool := match b with
    | some b => (k.hand b).isSome
    | none => false
  due op.sealBank || due op.relBank

/-- The op slot of a CX that an op held is free again (R527), where it still holds that op. -/
def State.freeSlotOf (s : State) (e : EngRef) (op : IssuedOp) : State :=
  match op.slot with
  | none => s
  | some i =>
    if e.eng = .cx && (tget none (s.cxAt e.die.val).slots i).any fun k => k.step == op.step then
      s.modCx e.die.val fun k => { k with slots := tdel k.slots i }
    else s

/-- OP_COMPLETE (R140, R273, R277, R278): the oldest issued op of an engine completes. Its flags are ORed, and it
arrives once in a step, in stream order; the arrival of an op whose step was aborted is discarded. -/
def execOpComplete (e : EngRef) (s : State) : Out :=
  let r := s.engRaw e
  match r.issued with
  | [] => .next s
  | op :: rest =>
    if !op.done || s.handDue e op then .next s
    else
      let idx := r.opIdx - r.issued.length
      let mine := r.step == some op.step
      let s := s.freeSlotOf e op
      let s := s.setEng e { r with issued := rest, arrived := if mine then max r.arrived (idx + 1) else r.arrived,
                                   ended := r.ended || (op.code == 1#8) }
      let s := { s with sync := { s.sync with
        tflag := op.flags.foldl (fun (t : Tbl (BitVec 4)) (f : Nat × BitVec 4) => orSlot t e.die.val op.step f.1 f.2) s.sync.tflag } }
      if !mine then .next s
      else
        let s := if op.hdr.aen ∧ r.arrived ≤ idx then
          s.arrive (hdrScope e) e.die.val e.core.val op.hdr.axc.toNat op.step 1 else s
        let s := if op.code = 0x61#8 then
          s.modStep op.step fun t => { t with gnDone := insNat e.die.val t.gnDone } else s
        .next s.settleNow

/-! ## Watchdogs (R421-R425, R455) -/

/-- The period of a wait's watchdog (R422). -/
def SyncCfg.period (c : SyncCfg) (w : WaitSt) : Nat :=
  let long := match w.scope with
    | 0 => false
    | 1 => (c.dxOwner.getD (w.die * 256 + w.index) 0#8).getLsbD 7
    | _ => (c.pxOwner.getD w.index 0#16).getLsbD 9
  if long then c.wdogLong else c.wdog

/-- Whether a watchdog has run out (R422, R423). -/
def SyncCfg.expired (c : SyncCfg) (w : WaitSt) : Bool :=
  decide (c.period w ≤ w.ticks) || decide (4 * c.period w ≤ w.total)

/-- XS_HANG_LOG of a wait (R455). -/
def hangLog (e : EngRef) (w : WaitSt) (value : BitVec 16) : BitVec 64 :=
  BitVec.ofNat 64 ((if dieEng e.eng then 0x7F else e.core.val) + 2 ^ 7 * engCode e.eng + 2 ^ 10 * w.scope
    + 2 ^ 12 * w.index + 2 ^ 20 * b2n w.bank + 2 ^ 21 * value.toNat + 2 ^ 37 * w.target.toNat + 2 ^ 53)

/-- One XS unit records a hang (R424). -/
def XsSt.hangs (x : XsSt) (log : BitVec 64) : XsSt :=
  { x with hang := true, log := if x.log.getLsbD 53 then x.log else log }

/-- WATCHDOG_EXPIRE (R421-R425, R65): a wait that has run out and is not satisfied is a hang, whose report tags every
uncommitted step. -/
def execWatchdogExpire (e : EngRef) (s : State) : Out :=
  guardUnit (e.die.val < s.dies)
    (let r := s.engRaw e
     match r.wait, s.cur.bind fun c => c.2.cfg with
     | some w, some cfg =>
       if w.kind = .attime ∨ w.ok ∨ s.waitMet w ∨ !cfg.sync.expired w then .next s
       else
         let v := tget 0#16 s.sync.xcnt (xKey w.scope w.die w.core w.index w.bank)
         let log := hangLog e w v
         let s := s.modXs e.die.val (·.hangs log)
         let s := if w.scope = 2 then s.modXs 4 (·.hangs log) else s
         let s := s.setEng e { r with wait := some { w with ticks := 0, total := 0 } }
         .next (s.wire (mkReportAll 6 8 (xLocus w.scope w.die w.core w.index) 0))
     | _, _ => .next s)

/-! ## Anchors, launches and handshake pacing (R440-R451) -/

/-- STB_SLOT of a link with what it is formed from. -/
def State.slotAt (s : State) (j : Nat) : SlotSt := tget .reset s.sync.slot j

/-- The package with a link's slot state changed. -/
def State.modSlot (s : State) (j : Nat) (f : SlotSt → SlotSt) : State :=
  { s with sync := { s.sync with slot := tmod .reset s.sync.slot j f } }

/-- A 15-bit saturating count with one more. -/
def sat15 (c : BitVec 15) : BitVec 15 := satInc c

/-- How far a stamp lies outside a window (R445). -/
def outside (lo hi t : Nat) : Nat := if t < lo then lo - t else t - hi

/-- Sends a pacing message to the sender on link j (R449, R450; assumption log 17): its tag, the member number and the
phase. -/
def State.sendPacing (s : State) (j : Nat) (tag : Byte) (phase : BitVec 8) : State :=
  match s.topoCfg, s.groupOf j with
  | some t, some g =>
    if 6 ≤ g then s else s.sendOn g 0 0 0 (t.step t.self g) [tag, BitVec.ofNat 8 (s.role j).2, phase]
  | _, _ => s

/-- A miss on a link (R445, R448, R449): a package with a parent exchanges time with it outside its schedule, and the
third miss within 100,000 ticks begins handshake pacing. -/
def State.slotMiss (s : State) (j : Nat) : State :=
  let now := s.stb.ticks
  let times := ((s.slotAt j).missTimes ++ [now]).filter fun t => decide (now - t < 100000)
  let pace := decide (3 ≤ times.length)
  let s := s.modSlot j fun k => { k with miss := sat15 k.miss, missTimes := times, hsk := k.hsk || pace }
  let s := { s with stb := { s.stb with urgent := s.stb.urgent || s.stb.parent.isSome } }
  if pace then s.sendPacing j tagPace 0 else s

/-- Where the stamp that lies furthest outside a window lies (R430, R445): the window in ticks, the stamps in units of
2^-16 tick. The guard is 20 ticks. -/
def phaseOutcome (lo hi first last : Nat) : PhaseCount :=
  let d := max (outside (65536 * lo) (65536 * hi) first) (outside (65536 * lo) (65536 * hi) last)
  if d = 0 then .normal else if d ≤ 20 * 65536 then .edge else .miss

/-- A phase is counted as what its stamps show, once (R446): a miss takes the place of an edge that an earlier message of
the phase gave. -/
def State.countPhase (s : State) (j : Nat) (p : PhaseStamp) (o : PhaseCount) : State :=
  let s := s.modSlot j fun k =>
    { k with stamps := k.stamps.map fun q => if q.phase = p.phase ∧ q.step = p.step then { q with counted := o } else q }
  match p.counted, o with
  | .normal, .edge => s.modSlot j fun k => { k with edge := sat15 k.edge }
  | .normal, .miss => s.slotMiss j
  | .edge, .miss => (s.modSlot j fun k => { k with edge := if k.edge = 0 then 0 else k.edge - 1 }).slotMiss j
  | _, _ => s

/-- A phase is classified by the stamps it has, once its anchor is known (R445-R447, R450). The model knows no last
message of a phase: it judges at the end of each, and later stamps can only move a phase further outside its window
(assumption log 35). -/
def State.classify (s : State) (j : Nat) (p : PhaseStamp) : State :=
  match s.stepAt p.step, s.cur.bind fun c => c.2.cfg with
  | some t, some cfg =>
    (match t.anchor, cfg.sync.window.find? fun w => w.link == j && w.phase == p.phase with
     | some a, some w =>
       if (s.slotAt j).hsk then s
       else s.countPhase j p (phaseOutcome (a + w.wopen) (a + w.wclose) p.first p.last)
     | _, _ => s)
  | _, _ => s

/-- Stamps of a message of a phase are taken (R444): the phase's first and last flits so far in the newest step that
runs. A message that R474 does not let through counts for no phase. -/
def State.stampPhase (s : State) (j : Nat) (h : MsgHdr) (first last : Nat) : State :=
  let phase : BitVec 8 := BitVec.ofNat 8 h.phase
  match s.cur.bind fun c => c.2.steps.reverse.find? fun t => t.st.runs with
  | none => s
  | some t =>
    if phase = 0 ∨ s.judgeJob (BitVec.ofNat 16 h.job) (BitVec.ofNat 16 h.epoch) ≠ .apply then s
    else
      let k := s.slotAt j
      let old := k.stamps.find? fun q => q.phase == phase && q.step == t.no
      let p : PhaseStamp := match old with
        | some q => { q with last := last }
        | none => { phase := phase, step := t.no, first := first, last := last, counted := .normal }
      let keep := k.stamps.filter fun q => !(q.phase == phase && q.step == t.no) && (s.stepAt q.step).isSome
      (s.modSlot j fun k => { k with stamps := keep ++ [p] }).classify j p

/-- The times of the anchor exchange of a step that have come from other packages of the job (R440). -/
def State.anchorTimes (s : State) (cfg : JobCfg) (n : BitVec 64) : List (BitVec 64) :=
  cfg.topo.others.filterMap fun v => s.heardFrom tagAnchor n v

/-- ANCHOR_RESULT (R440, R441, R446, R451): once every package of the job has contributed its time to the step that
waits for its anchor, A(n) is the latest of them plus ANCHOR_LEAD; pacing ends, and phases that have arrived are
classified. -/
def execAnchorResult (c : Fin 4) (s : State) : Out :=
  let x := s.ctxAt c.val
  match x.steps.find? (fun t => t.st.runs && t.anchor.isNone), x.cfg with
  | some t, some cfg =>
    let times := s.anchorTimes cfg t.no
    if s.resident ≠ some c ∨ times.length < cfg.topo.others.length then .next s
    else
    let latest := times.foldl (fun a v => max a v.toNat) t.entered
    let s := s.consume fun r => r.tagged tagAnchor t.no
    let s := s.modCtx c.val fun x => x.modStep t.no fun t =>
      { t with anchor := some (latest + cfg.sync.anchorLead), anchorAt := s.stbTicks }
    let s := { s with sync := { s.sync with slot := tmapAll .reset s.sync.slot fun k =>
      { k with hsk := false, paced := false, readyIn := [], readyOut := [], begun := [] } } }
    .next ((List.range s.links).foldl (fun (a : State) j =>
      ((a.slotAt j).stamps.filter fun p => p.step == t.no).foldl (fun (b : State) p => b.classify j p) a) s)
  | _, _ => .next s

/-- Whether the launch unit has performed an entry for the step of a bank. -/
def LaunchSt.did (l : LaunchSt) (bank : Bool) (i : Nat) : Bool := (if bank then l.done1 else l.done0).contains i

/-- The launch unit after it performs an entry. -/
def LaunchSt.note (l : LaunchSt) (bank : Bool) (i : Nat) : LaunchSt :=
  if bank then { l with done1 := insNat i l.done1 } else { l with done0 := insNat i l.done0 }

/-- LAUNCH_ENTRY (R442, R443): the launch unit arrives once on the entry's package crossing when the STB has reached
A(n) + OFFSET. -/
def execLaunchEntry (i : Fin 64) (s : State) : Out :=
  match s.cur with
  | none => .next s
  | some (_, x) =>
    (match x.cfg.bind fun g => g.sync.launch[i.val]? with
     | none => .next s
     | some e =>
       let due (t : StepSt) : Bool := t.st.runs && !s.sync.launch.did (bankOf t.no) i.val
         && match t.anchor with
            | some a => decide (a + e.offset ≤ s.stbTicks)
            | none => false
       if !e.valid then .next s
       else match x.steps.find? due with
         | none => .next s
         | some t =>
           let late := match t.anchor with
             | some a => decide (a + e.offset < t.anchorAt)
             | none => false
           let s := if late then s.modXs 4 fun x => { x with late := true } else s
           let s := { s with sync := { s.sync with launch := s.sync.launch.note (bankOf t.no) i.val } }
           .next (s.arrive 2 0 0 e.px t.no 1))

/-- PACE (R449, R450): the outgoing direction of a link is held to its partner's READY messages. -/
def execPace (m : Fin 24) (s : State) : Out :=
  let s := s.consume fun r => r.vc == 0 && r.link == m.val && r.payload.headD 0#8 == tagPace
  guardUnit (m.val < s.links) (.next (s.modSlot m.val fun k => { k with paced := true, readyIn := [] }))

/-- READY (R450): the first flit of a held phase may leave. -/
def execReady (m : Fin 24) (phase : BitVec 8) (s : State) : Out :=
  let s := s.consume fun r => r.vc == 0 && r.link == m.val && r.payload.headD 0#8 == tagReady && r.payload.getD 2 0#8 == phase
  guardUnit (m.val < s.links)
    (.next (s.modSlot m.val fun k =>
      { k with readyIn := if k.paced && !k.readyIn.contains phase then k.readyIn ++ [phase] else k.readyIn }))

/-- READY_DUE (R450): under pacing, the receiver sends READY for a phase once its STB has reached A(n) + WOPEN in the
newest step that runs. -/
def execReadyDue (m : Fin 24) (phase : BitVec 8) (s : State) : Out :=
  guardUnit (m.val < s.links)
    (let k := s.slotAt m.val
     match s.cur with
     | none => .next s
     | some (_, x) =>
       (match x.cfg.bind fun g => g.sync.window.find? fun w => w.link == m.val && w.phase == phase with
        | none => .next s
        | some w =>
          let open_ := match (x.steps.reverse.find? fun t => t.st.runs).bind (·.anchor) with
            | some a => decide (a + w.wopen ≤ s.stbTicks)
            | none => false
          if !k.hsk || k.readyOut.contains phase || !open_ then .next s
          else .next ((s.modSlot m.val fun k => { k with readyOut := k.readyOut ++ [phase] }).sendPacing m.val tagReady phase)))

end Sys2Proof.Machine
end

