-- ==== Sys2Proof/Machine/Hbm.lean ====
section
/-! DEFINITION. The stack controllers (R315-R319, R333-R351, R380-R382), the ports of the core stores (R257, R258,
R263), the release of bounded resources (R395, R396) and the swap of a Market partition (R393). -/

namespace Sys2Proof.Machine

/-! ## Requests (R315-R319, R333-R336, R380-R382, R826) -/

/-- HBM_REQUEST (R315-R319, R333-R336, R344, R350, R380-R382, R826): a request that leaves the region or its granule is
not performed. -/
def execHbmRequest (r : HbmReq) (s : State) : Out :=
  if !reqInGranule r || s.place r.addr.toNat != .hbm || !s.allowed r.issuer r.addr.toNat r.len then
    .next (s.violate r.issuer r.step)
  else .next (s.takeReq (s.stackOf r.addr.toNat).1 { req := r, pf := s.isPrefetch r })

/-- PREFETCH_AGING (R382): the oldest request that waits takes effect. -/
def execPrefetchAging (k : Fin 16) (s : State) : Out := guardUnit (k.val < s.stacks) (.next (s.ageReq k.val))

/-! ## Patrol scrub (R337-R340) -/

/-- The physical address of a stack byte offset that is a whole multiple of 2,048: the inverse of R326-R328. -/
def State.physOfStack (s : State) (k off : Nat) : Nat :=
  let m := if s.globalIl then s.stacks else 4
  let base := (if s.globalIl then 0 else k / 4 * 2 ^ 38) + off / 4096 * (4096 * m) + off % 4096
  match (List.range m).find? fun i => (s.stackOf (base + 4096 * i)).1 == k with
  | some i => base + 4096 * i
  | none => base

/-- MEM_SCRUB_CFG.INTERVAL of the die that owns a stack (R356). -/
def State.scrubInterval (s : State) (k : Nat) : Nat := (tget 0x3EBE8#32 s.scrub (k / 4)).toNat % 2 ^ 25

/-- One chunk is read and checked, the position moves on, and the next chunk is due one interval later (R337-R339). -/
def State.scrubNow (s : State) (k : Nat) (errs : List SymErr) : State :=
  let a := s.physOfStack k ((s.stackAt k).chunk.toNat * 2048)
  let s := { s with mem := corrupt s.mem (a / 64) errs }
  let r := s.hbmLines none true (linesOf a 2048)
  let gap := s.scrubInterval k
  r.1.modStack k fun t =>
    { t with chunk := t.chunk + 1, scrubDue := false, scrubNext := max (t.scrubNext + gap) s.stb.ticks,
             passes := if t.chunk = BitVec.allOnes 25 then t.passes + 1 else t.passes }

/-- SCRUB_CHUNK (R337-R340): the chunk whose time has come is read, or waits behind requests. Before its time nothing
happens. -/
def execScrubChunk (k : Fin 16) (errs : List SymErr) (s : State) : Out :=
  guardUnit (k.val < s.stacks)
    (let t := s.stackAt k.val
     if !s.serves k.val || decide (s.stb.ticks < t.scrubNext) then .next s
     else if !t.queue.isEmpty then .next (s.modStack k.val fun t => { t with scrubDue := true })
     else .next (s.scrubNow k.val errs))

/-- SCRUB_YIELD_EXPIRE (R340): a chunk that waits proceeds. -/
def execScrubYieldExpire (k : Fin 16) (errs : List SymErr) (s : State) : Out :=
  guardUnit (k.val < s.stacks)
    (if s.serves k.val && (s.stackAt k.val).scrubDue then .next (s.scrubNow k.val errs) else .next s)

/-! ## Temperature bands (R346-R351) -/

/-- The band of a temperature in 1/16 °C (R347). -/
def bandOf (t : Int) : Band :=
  if t < 1360 then .b1x else if t < 1520 then .b2x else if t < 1680 then .b4x else if t < 1760 then .throttled
  else .shutdown

/-- Bands from cold to hot. -/
def Band.rank : Band → Nat
  | .b1x => 0
  | .b2x => 1
  | .b4x => 2
  | .throttled => 3
  | .shutdown => 4

/-- The boundary below which a band may be left, in 1/16 °C, and the band that follows (R347, R349). -/
def Band.fall : Band → Int × Band
  | .b1x => (-100000, .b1x)
  | .b2x => (1360, .b1x)
  | .b4x => (1520, .b2x)
  | .throttled => (1680, .b4x)
  | .shutdown => (1600, .b4x)

/-- A controller after a sample of its controlling temperature (R346, R348, R349). -/
def StackSt.sample (k : StackSt) (t : Int) (now : Nat) : StackSt :=
  let b := bandOf t
  { k with temp := t,
           due := if k.band.rank < b.rank then (match k.due with
               | some (d, at_) => some (if d.rank < b.rank then b else d, at_)
               | none => some (b, now))
             else k.due,
           coolSince := if k.band != .b1x && decide (t ≤ k.band.fall.1 - 32) then some (k.coolSince.getD now) else none }

/-- The two sensors or inputs of pair k agree or differ (R747, R748): a disagreement has a start, and one that follows
200,000 ticks of agreement may be raised again. -/
def State.track (s : State) (k : Nat) (differ : Bool) : State :=
  let now := s.stb.ticks
  let p := s.pmc
  if !differ then
    let since := (tget none p.agreeSince k).getD now
    { s with pmc := { p with disSince := tset none p.disSince k none, agreeSince := tset none p.agreeSince k (some since) } }
  else if (tget none p.disSince k).isSome then s
  else
    let rested := match tget none p.agreeSince k with
      | some t => decide (t + 200000 ≤ now)
      | none => false
    { s with pmc := { p with disSince := tset none p.disSince k (some now), agreeSince := tset none p.agreeSince k none },
             flt := { s.flt with disagree := if rested then s.flt.disagree.filter (· != k) else s.flt.disagree } }

/-- Whether the sensors of a pair differ by more than 5 °C (R747). -/
def pairDiffers (p : PairReading) : Bool := decide (80 < (sensor p.a - sensor p.b).natAbs)

/-- A reading of one sensor pair is stored (R744, R869). -/
def State.setPair (s : State) (i : Nat) (p : PairReading) : State :=
  let s := s.track i (pairDiffers p)
  let l := s.pmc.pairs
  let l := if l.length ≤ i then l ++ List.replicate (i + 1 - l.length) { a := some 0, b := some 0 } else l
  { s with pmc := { s.pmc with pairs := l.set i p } }

/-- STACK_TEMP_SAMPLE (R346, R348, R349, R745, R746). -/
def execStackTempSample (k : Fin 16) (p : PairReading) (s : State) : Out :=
  guardUnit (k.val < s.stacks)
    (.next ((s.setPair (53 + k.val) p).modStack k.val fun t => t.sample (ctrlReading p) s.stb.ticks))

/-- A stack goes into a band: into shutdown it first completes what it has accepted and reports the fault (R350); out
of shutdown its held requests follow (R351). -/
def State.toBand (s : State) (k : Nat) (b : Band) : State :=
  let old := (s.stackAt k).band
  let s := if b = .shutdown then s.drainReqs k else s
  let s := s.modStack k fun t => { t with band := b, due := none, coolSince := none }
  if b = .shutdown then (s.wire (mkReportAll 8 3 (BitVec.ofNat 32 (k + 16 * 0xFFF)) 0)).refill k
  else if old = .shutdown then s.resumeReqs k
  else s

/-- STACK_BAND_CHANGE (R348-R351): a rise that is due takes effect; else a fall does, once every sample of 10 ms has
allowed it. -/
def execStackBandChange (k : Fin 16) (s : State) : Out :=
  guardUnit (k.val < s.stacks)
    (let t := s.stackAt k.val
     match t.due with
     | some (b, _) => .next (s.toBand k.val b)
     | none =>
       (match t.coolSince with
        | some c => if c + 1000000 ≤ s.stb.ticks then .next (s.toBand k.val t.band.fall.2) else .next s
        | none => .next s))

/-! ## Ports (R257, R258, R263) -/

/-- The number of a port conflict's place. -/
def siteKey : PortSite → Nat
  | .line c l => (c.die.val * 96 + c.core.val) * 32 + spmBank l.val
  | .sram d o => 2 ^ 20 + d.val * 64 + sramSlice o.toNat

/-- The die of a port conflict's place. -/
def siteDie : PortSite → Nat
  | .line c _ => c.die.val
  | .sram d _ => d.val

/-- Ports of a place: six at a scratchpad bank, and UE, CX and ME at a slice. -/
def sitePorts : PortSite → Nat
  | .line _ _ => 6
  | .sram _ _ => 3

/-- PORT_PRIORITY_AGING (R257, R258, R263): a port that has waited eight cycles takes priority 0; of the ports that
request, one of priority 0 is granted, by rank. -/
def execPortPriorityAging (site : PortSite) (port : Fin 6) (requesters : List (Fin 6)) (s : State) : Out :=
  guardUnit (siteDie site < s.dies)
    (if sitePorts site ≤ port.val then .next s
     else
       let k := siteKey site
       let aged := if s.ports.aged.contains (k, port.val) then s.ports.aged else s.ports.aged ++ [(k, port.val)]
       let asks := port.val :: (requesters.map (·.val)).filter fun p => decide (p < sitePorts site)
       let win := (List.range 6).find? fun p => asks.contains p && aged.contains (k, p)
       .next { s with ports := { aged := match win with
                                   | some p => aged.filter (· != (k, p))
                                   | none => aged,
                                 granted := win.map fun p => (k, p) } })

/-! ## The Market (R391-R396) -/

/-- The CREDIT records of allotments that a link no longer has: nothing is granted for them (R393, R477). -/
def MemberSt.withdrawGrants (x : MemberSt) : MemberSt :=
  ((x.granted.map (·.1)).filter fun k => k % 16 != 0).foldl (fun (y : MemberSt) k => y.setGrant (k / 16) (k % 16) 0) x

/-- A partition that waits takes effect once every LINK and STAGE buffer is free (R393), and the credits of its
allotments are granted. What the partners have granted does not change: a partition governs the receive side alone. -/
def State.swapMarket (s : State) (io : Nat) : State :=
  let k := s.mktAt io
  match k.pendCfg with
  | none => s
  | some es =>
    if k.busy.any fun b => decide (1344 ≤ b) then s
    else
      let s := s.modMkt io fun k => k.activate io es
      ((List.range 12).map (12 * io + ·)).foldl (fun (a : State) m =>
        (a.modMember m MemberSt.withdrawGrants).grantAll m false) s

/-- MARKET_PARTITION_SWAP (R393, R394). -/
def execMarketPartitionSwap (io : Fin 2) (s : State) : Out := guardUnit (io.val < s.ios) (.next (s.swapMarket io.val))

end Sys2Proof.Machine
end

