-- ==== Sys2Proof/Machine/Links.lean ====
section
/-! DEFINITION. The link layer of a member (R464-R495): slots, flits received, control records, replays, retraining
and buckets; and the time exchanges that its records carry (R432-R438, R448, R479). -/

namespace Sys2Proof.Machine

/-- Members of this part: its Avenue links, its Mews links and its I/O-die links (R17, R496, R504). -/
def State.hasMember (s : State) (m : Nat) : Bool :=
  if m < 24 then decide (m < s.links)
  else if m < 28 then (m == 24 || s.ios == 2) else decide (m - 28 < s.dies)

/-! ## Retraining and buckets (R482, R485, R489, R490) -/

/-- A member retrains, or withdraws where a fourth retraining would start within 10 s (R482, R485). -/
def State.retrain (s : State) (m : Nat) : State :=
  let now := s.stb.ticks
  let times := (s.memberAt m).retrainTimes.filter fun t => decide (now - t < 1000000000)
  if 3 ≤ times.length then s.withdraw m
  else s.modMember m fun x =>
    ({ x with st := .retraining, retrainTimes := times ++ [now], retrainStart := now, resend := [], busy := true,
              retrains := x.retrains + 1 }).due (stateRecord 1)

/-- The bucket registers that govern a member (R490, R522). -/
def State.bktOf (s : State) (m : Nat) : Nat :=
  if m < 24 then (tget 0xC8C803E800040410#64 s.net.bktCfg (m / 12)).toNat else 0xC8C803E800040410

/-- An event for the MARGIN bucket. -/
def State.marginEvent (s : State) (m : Nat) : State :=
  let lim := bits (s.bktOf m) 47 32
  s.modMember m fun x =>
    if lim ≤ x.margin + 1 then { x with margin := 0, marginErr := true } else { x with margin := x.margin + 1 }

/-- An event for the REPLAY bucket. -/
def State.replayEvent (s : State) (m : Nat) : State :=
  let lim := bits (s.bktOf m) 55 48
  if lim ≤ (s.memberAt m).replayB + 1 then (s.modMember m fun x => { x with replayB := 0 }).withdraw m
  else s.modMember m fun x => { x with replayB := x.replayB + 1 }

/-- An event for the UNCORR bucket. -/
def State.uncorrEvent (s : State) (m : Nat) : State :=
  let lim := bits (s.bktOf m) 63 56
  if lim ≤ (s.memberAt m).uncorrB + 1 then (s.modMember m fun x => { x with uncorrB := 0 }).withdraw m
  else s.modMember m fun x => { x with uncorrB := x.uncorrB + 1 }

/-- BUCKET_LEAK (R489): every bucket falls by its leak. -/
def execBucketLeak (s : State) : Out :=
  .next ((List.range 32).foldl (fun (a : State) m =>
    let b := a.bktOf m
    a.modMember m fun x =>
      { x with margin := x.margin - bits b 7 0, replayB := x.replayB - bits b 15 8, uncorrB := x.uncorrB - bits b 23 16 }) s)

/-! ## Sending (R466, R469-R471, R481, R484, R493-R495) -/

/-- The bytes of a message as flits carry them. -/
def TxMsg.bytes (t : TxMsg) : Bytes := leBytes 16 t.hdr.toNat ++ t.payload

/-- The credit entry of a member that a message uses: that of its class where the partner has an allotment for it (R389,
R390), which it shows by a grant that is not zero. -/
def MemberSt.creditKey (x : MemberSt) (vc : Nat) (t : TxMsg) : Nat :=
  let k := credKey vc (bits t.hdr.toNat 18 15)
  if (tget (0, 0) x.credit k).1 = 0 then credKey vc 0 else k

/-- Whether a credit is left. -/
def MemberSt.hasCredit (x : MemberSt) (k : Nat) : Bool :=
  let c := tget (0, 0) x.credit k
  (c.1 + 2 ^ 32 - c.2 % 2 ^ 32) % 2 ^ 32 != 0

/-- Whether a message may start (R390, R449, R450, R484): under pacing only the first flit of a phase is held. The links
inside the package have no Market and no credits. -/
def State.mayStart (s : State) (m vc : Nat) (t : TxMsg) : Bool :=
  let x := s.memberAt m
  let phase : BitVec 8 := BitVec.ofNat 8 (bits t.hdr.toNat 39 32)
  let k := s.slotAt m
  x.peer == 0
  && (24 ≤ m || (x.hasCredit (x.creditKey vc t)
    && (!k.paced || phase == 0 || k.begun.contains phase || k.readyIn.contains phase)))

/-- The message whose flit a VC would send next: the one that has started, or the first that may start. -/
def State.nextMsg (s : State) (m vc : Nat) : Option TxMsg :=
  let x := s.memberAt m
  match tget none x.started vc with
  | some t => some t
  | none => (match tget [] x.queue vc with
    | t :: _ => if s.mayStart m vc t then some t else none
    | [] => none)

/-- Whether VC0 may take a slot under the metering of what this package originates (R494). -/
def MemberSt.vc0Free (x : MemberSt) (t : TxMsg) : Bool :=
  t.fwd || decide ((x.vc0Slots.filter fun n => decide (x.slotNo < n + 8000)).length < 80)

/-- VCs of VC2-VC5 that are eligible (R495). -/
def State.eligible (s : State) (m : Nat) : List Nat := [2, 3, 4, 5].filter fun v => (s.nextMsg m v).isSome

/-- The weight of a VC (R518). -/
def State.vcWeight (s : State) (v : Nat) : Int :=
  match s.topoCfg with
  | none => 0
  | some t => ((if v = 2 then t.w2 else if v = 3 then t.w3 else if v = 4 then t.w4 else t.w5 : Nat) : Int)

/-- The choice of R495: the VC and the counts after it. -/
def State.pickWeighted (s : State) (m : Nat) (el : List Nat) : Nat × Tbl Int :=
  let cur := (s.memberAt m).curW
  let pos := el.filter fun v => decide (0 < s.vcWeight v)
  match pos with
  | [] => (el.foldl min 5, cur)
  | p :: ps =>
    let total := pos.foldl (fun a v => a + s.vcWeight v) 0
    let cur := pos.foldl (fun t v => tmod 0 t v (· + s.vcWeight v)) cur
    let best := ps.foldl (fun b v => if tget 0 cur b < tget 0 cur v then v else b) p
    (best, tmod 0 cur best (· - total))

/-- What a slot carries: a control flit, a replayed flit, a flit of a VC, or an idle flit. -/
inductive SlotPick where
  | ctrl | replay | vc (v : Nat) | idle
  deriving DecidableEq, Repr

/-- The order of R493, without the choice among VC2-VC5. A member that does not carry traffic sends control flits alone
(R477, R483, R484). -/
def State.slotPick (s : State) (m : Nat) : SlotPick :=
  let x := s.memberAt m
  let up := x.inService
  let room := up && decide (x.unacked.length < 512)
  let el := s.eligible m
  let vc0 := match s.nextMsg m 0 with
    | some t => x.vc0Free t
    | none => false
  if !x.ctrl.isEmpty && !(x.slotHist.take 31).contains 6 then .ctrl
  else if up && !x.resend.isEmpty then .replay
  else if room && vc0 then .vc 0
  else if room && (s.nextMsg m 1).isSome && (decide ((x.slotHist.filter (· == 1)).length < 8) || el.isEmpty) then .vc 1
  else if room && !el.isEmpty then .vc (s.pickWeighted m el).1
  else if !x.ctrl.isEmpty then .ctrl
  else .idle

/-- The slot that a member has used: 0-5 a VC, 6 control, 7 idle, 8 a replayed flit. -/
def MemberSt.used (x : MemberSt) (k : Nat) : MemberSt := { x with slotHist := (k :: x.slotHist).take 64, slotNo := x.slotNo + 1 }

/-- A stamp of R479. -/
def State.stamp (s : State) : BitVec 64 := BitVec.ofNat 64 s.stb.time

/-- A flit as it goes on the wire of a member: with its check symbols (R467), or with its parity bits (R720). -/
def wireOf (m : Nat) (f : Flit) : Bytes := if m < 24 then wireUnit (flitBytes f) else flitBytes f ++ bodyParity f

/-- One flit of a VC leaves: of the message that has started, or of the next one, which takes a credit. -/
def State.sendVc (s : State) (m vc : Nat) (t : TxMsg) : State :=
  let x := s.memberAt m
  let fresh := (tget none x.started vc).isNone
  let bs := t.bytes
  let f : Flit :=
    { seq := x.txSeq, vc := vc, som := t.sent == 0, eom := decide (bs.length ≤ t.sent + 250),
      body := slice bs t.sent 250,
      par := (t.par.filter fun i => decide (t.sent ≤ i ∧ i < t.sent + 250)).map (· - t.sent) }
  let credit := if fresh then tmod (0, 0) x.credit (x.creditKey vc t) fun c => (c.1, (c.2 + 1) % 2 ^ 32) else x.credit
  let queue := if fresh then tmod [] x.queue vc (·.drop 1) else x.queue
  let t2 := { t with sent := t.sent + 250 }
  let phase : BitVec 8 := BitVec.ofNat 8 (bits t.hdr.toNat 39 32)
  let s := if m < 24 ∧ fresh ∧ phase ≠ 0 ∧ !(s.slotAt m).begun.contains phase then
    s.modSlot m fun k => { k with begun := k.begun ++ [phase] } else s
  s.modMember m fun x =>
    let y : MemberSt :=
      { x with credit := credit, queue := queue, txSeq := (x.txSeq + 1) % 1024, unacked := x.unacked ++ [f],
               started := tset none x.started vc (if f.eom then none else some t2),
               sentMsgs := if f.eom then x.sentMsgs ++ [{ vc := vc, msg := t2, last := f.seq }] else x.sentMsgs,
               vc0Slots := if vc = 0 ∧ !t.fwd then
                  (x.vc0Slots.filter fun n => decide (x.slotNo < n + 8000)) ++ [x.slotNo] else x.vc0Slots,
               wire := wireOf m f }
    y.used vc

/-- A control flit leaves with the records that are due, T1 and T3 stamped on departure (R477, R479). -/
def State.sendCtrl (s : State) (m : Nat) : State :=
  let x := s.memberAt m
  let rs := x.ctrl.take 15
  let st := s.stamp
  let t1f := (rs.filter fun r => r.toNat % 256 == 0x11).map fun r =>
    (BitVec.ofNat 128 (0x12 + 256 * bits r.toNat 15 8 + 65536 * st.toNat) : BitVec 128)
  let t3 := rs.find? fun r => r.toNat % 256 == 0x13
  let s := s.modMember m fun x =>
    ({ x with ctrl := x.ctrl.drop 15 ++ t1f, wire := wireOf m (ctrlFlit rs) }).used 6
  match t3, s.stb.exch with
  | some r, some e =>
    if bits r.toNat 15 8 = e.num.toNat then { s with stb := { s.stb with exch := some { e with t3 := some st.toNat } } }
    else s
  | _, _ => s

/-- The flit that a slot's pick calls for leaves. -/
def State.sendPick (s : State) (m : Nat) : SlotPick → State
  | .ctrl => s.sendCtrl m
  | .replay =>
    s.modMember m fun x =>
      match x.resend with
      | [] => x
      | f :: r => ({ x with resend := r, busy := !r.isEmpty, wire := wireOf m f }).used 8
  | .vc v =>
    (match s.nextMsg m v with
     | none => s
     | some t =>
       let w := if v < 2 then (s.memberAt m).curW else (s.pickWeighted m (s.eligible m)).2
       (s.sendVc m v t).modMember m fun x => { x with curW := w })
  | .idle => s.modMember m fun x => ({ x with wire := wireOf m idleFlit }).used 7

/-- Whether a member has flit slots: in service, or with a STATE record to send as it retrains or has withdrawn (R477). -/
def MemberSt.hasSlots (x : MemberSt) : Bool :=
  x.st == .active || (!x.ctrl.isEmpty && (x.st == .retraining || x.st == .withdrawing || x.st == .withdrawn))

/-- The GCLK cycles in which a message for a link waited at its partner for a credit, as the partner reports them, join
MKT_STALL (R401). -/
def State.noteStall (s : State) (j : Nat) (n : BitVec 32) : State :=
  if n = 0 then s
  else s.modMkt (j / 12) fun k =>
    { k with stalls := tmod 0#32 k.stalls (j % 12) fun c => BitVec.ofNat 32 (min (c.toNat + n.toNat) 0xFFFFFFFF) }

/-- FLIT_SLOT (R401, R466, R471, R478, R481, R484, R493-R495): a member in service sends one flit; `stalled` is what the
partner reports of its own waits for a credit since the slot before (assumption log 33). -/
def execFlitSlot (m : Fin 32) (stalled : BitVec 32) (s : State) : Out :=
  guardUnit (s.hasMember m.val)
    (let s := if m.val < 24 then s.noteStall m.val stalled else s
     if !(s.memberAt m.val).hasSlots then .next s else .next (s.sendPick m.val (s.slotPick m.val)))

/-! ## Control records (R477-R482) -/

/-- An ACK record with the last SEQ accepted. -/
def ackRecord (seq : Nat) : BitVec 128 := BitVec.ofNat 128 (1 + 65536 * seq)

/-- A NAK record. -/
def nakRecord (seq : Nat) : BitVec 128 := BitVec.ofNat 128 (2 + 65536 * seq)

/-- ACK_DUE (R478): data that has not been acknowledged is. -/
def execAckDue (m : Fin 32) (s : State) : Out :=
  guardUnit (s.hasMember m.val)
    (.next (s.modMember m.val fun x =>
      if x.rxUnacked = 0 then x else ({ x with rxUnacked := 0 }).due (ackRecord ((x.rxSeq + 1023) % 1024))))

/-- Every flit up to and including SEQ has been accepted. -/
def MemberSt.acked (x : MemberSt) (seq : Nat) : MemberSt :=
  match x.unacked.findIdx? fun f => f.seq == seq with
  | none => x
  | some i =>
    let u := x.unacked.drop (i + 1)
    let r := x.resend.filter fun f => u.any fun g => g.seq == f.seq
    { x with unacked := u, resend := r, busy := x.busy && (x.st == .retraining || !r.isEmpty),
             sentMsgs := x.sentMsgs.filter fun t => u.any fun g => g.seq == t.last }

/-- ACK (R477): the flits leave the replay buffer. -/
def execAck (m : Fin 32) (seq : BitVec 16) (s : State) : Out :=
  guardUnit (s.hasMember m.val) (.next (s.modMember m.val (·.acked seq.toNat)))

/-- A NAK starts a replay, or the 17th within 20 µs a retraining (R481-R483). -/
def State.nakOn (s : State) (m seq : Nat) : State :=
  let x := s.memberAt m
  if x.st ≠ .active then s
  else match x.unacked.findIdx? fun f => f.seq == seq with
    | none => s
    | some i =>
      let now := s.stb.ticks
      let times := x.replayTimes.filter fun t => decide (now - t < 2000)
      if 16 ≤ times.length then s.retrain m
      else
        (s.modMember m fun x =>
          { x with resend := x.unacked.drop i, replayTimes := times ++ [now], busy := true,
                   replayCnt := satInc x.replayCnt }).replayEvent m

/-- NAK (R481-R483, R489). -/
def execNak (m : Fin 32) (seq : BitVec 16) (s : State) : Out :=
  guardUnit (s.hasMember m.val) (.next (s.nakOn m.val seq.toNat))

/-- CREDIT (R390, R477): the cumulative count of credits granted. -/
def execCredit (m : Fin 32) (vc cls : BitVec 8) (granted : BitVec 32) (s : State) : Out :=
  guardUnit (s.hasMember m.val)
    (.next (s.modMember m.val fun x =>
      { x with credit := tmod (0, 0) x.credit (credKey vc.toNat cls.toNat) fun c => (granted.toNat, c.2) }))

/-- The partner's state is known (R477): while it retrains, nothing leaves here (R484), and what is not acknowledged is
sent again after it (R483). Once it withdraws, its partial messages are dropped and this end of the member withdraws with
it (R488). -/
def State.peerState (s : State) (m : Nat) (v : BitVec 8) : State :=
  let s := s.modMember m fun x =>
    let again := v == 0 && x.peer == 1 && x.st == .active
    { x with peer := v, resend := if again then x.unacked else x.resend,
             busy := if again then !x.unacked.isEmpty else x.busy || v == 1 }
  if 2 ≤ v.toNat then (s.dropParts m).withdraw m else s

/-- STATE (R477, R484, R488). -/
def execState (m : Fin 32) (v : BitVec 8) (s : State) : Out :=
  guardUnit (s.hasMember m.val) (.next (s.peerState m.val v))

/-! ## Time exchanges (R432-R438, R448, R479) -/

/-- A T-record with an exchange number and a stamp. -/
def tRecord (kind : Nat) (num : BitVec 8) (stamp : Nat) : BitVec 128 :=
  BitVec.ofNat 128 (kind + 256 * num.toNat + 65536 * (stamp % 2 ^ 64))

/-- The exchange in progress changed, where the record belongs to it. -/
def State.modExch (s : State) (m : Nat) (num : BitVec 8) (f : ExchSt → ExchSt) : State :=
  match s.stb.exch, s.stb.parent with
  | some e, some p => if e.num = num ∧ p.val = m then { s with stb := { s.stb with exch := some (f e) } } else s
  | _, _ => s

/-- T0 (R435): the parent answers with T1. -/
def execT0 (m : Fin 24) (num : BitVec 8) (s : State) : Out :=
  guardUnit (m.val < s.links) (.next (s.modMember m.val (·.due (tRecord 0x11 num 0))))

/-- T1 (R435): the child has stamped t2. -/
def execT1 (m : Fin 24) (num : BitVec 8) (t2 : BitVec 64) (s : State) : Out :=
  guardUnit (m.val < s.links) (.next (s.modExch m.val num fun e => { e with t2 := some t2.toNat }))

/-- T1F brings t1, and the child sends T3. -/
def State.gotT1f (s : State) (m : Nat) (num : BitVec 8) (t1 : BitVec 64) : State :=
  match s.stb.exch, s.stb.parent with
  | some e, some p =>
    if e.num = num ∧ p.val = m ∧ e.t2.isSome then
      (s.modExch m num fun e => { e with t1 := some t1.toNat }).modMember m (·.due (tRecord 0x13 num 0))
    else s
  | _, _ => s

/-- T1F (R435, R477). -/
def execT1f (m : Fin 24) (num : BitVec 8) (t1 : BitVec 64) (s : State) : Out :=
  guardUnit (m.val < s.links) (.next (s.gotT1f m.val num t1))

/-- T3 (R435): the parent has stamped t4 and sends it. -/
def execT3 (m : Fin 24) (num : BitVec 8) (t4 : BitVec 64) (s : State) : Out :=
  guardUnit (m.val < s.links) (.next (s.modMember m.val (·.due (tRecord 0x14 num t4.toNat))))

/-- STB_STATE.OFFSET of an offset in units of 2^-16 tick, which a tick of 10 ns turns into units of 2^-4 ns (R457). -/
def offsetReg (off : Int) : BitVec 16 :=
  let v := off * 160 / 65536
  if v < -32768 ∨ 32767 < v then Config.wideOffset v else BitVec.ofInt 16 v

/-- The servo after it has measured the frequency of its parent over the time since the measurement before (R432): what
the parent's time has gone on by, in units of 2^-32 tick for each tick of this package, less the nominal 2^32. -/
def StbSt.frequency (b : StbSt) (off : Int) : StbSt :=
  let parent : Int := (b.time : Int) - off
  let rate := match b.meas with
    | some (t, p) => if t < b.ticks then (parent - p) * 65536 / ((b.ticks - t : Nat) : Int) - 2 ^ 32 else b.rate
    | none => b.rate
  { b with rate := rate, meas := some (b.ticks, parent) }

/-- The servo after it has measured its offset from the parent, in units of 2^-16 tick (R432, R433, R436, R437): in
ACQUIRE it may step the STB once, and otherwise corrects by its rate. ±1.5 ns are 9,830 units. -/
def StbSt.measured (b : StbSt) (off : Int) : StbSt :=
  let near := decide (off.natAbs ≤ 9830)
  let b := ({ b with exch := none, offset := offsetReg off }).frequency off
  let slew := -off * 65536
  match b.st with
  | .acquire =>
    let b := { b with good := if near then b.good + 1 else 0 }
    if 4 ≤ b.good then { b with st := .locked, corr := slew }
    else if !near && !b.stepped then { b with time := ((b.time : Int) - off).toNat, stepped := true, corr := 0 }
    else { b with corr := slew }
  | .locked => { b with corr := slew }
  | .holdover => if near then { b with st := .locked, corr := slew } else { b with corr := slew }
  | .free | .master => b

/-- A TIME_CTRL that waits for LOCKED replies once it is reached (R704). -/
def State.followed (s : State) : State :=
  match s.stb.st, s.stb.follow with
  | .locked, some (r, _) =>
    let s := { s with stb := { s.stb with follow := none } }
    (match (s.ringAt r.val).cur with
     | some q => s.reply r.val q.pkt 0 0 0
     | none => s)
  | _, _ => s

/-- T4 brings t4, and the child takes its offset (R435). -/
def State.gotT4 (s : State) (m : Nat) (num : BitVec 8) (t4 : BitVec 64) : State :=
  match s.stb.exch, s.stb.parent with
  | some e, some p =>
    (match e.t1, e.t2, e.t3 with
     | some t1, some t2, some t3 =>
       if e.num = num ∧ p.val = m then
         let d (a b : Int) : Int := asInt 64 (ofInt 64 (a - b))
         ({ s with stb := s.stb.measured ((d t2 t1 - d t4.toNat t3) / 2) }).followed
       else s
     | _, _, _ => s)
  | _, _ => s

/-- T4 (R432, R435, R436). -/
def execT4 (m : Fin 24) (num : BitVec 8) (t4 : BitVec 64) (s : State) : Out :=
  guardUnit (m.val < s.links) (.next (s.gotT4 m.val num t4))

/-- TIME_EXCHANGE (R435, R448, R479): a package that is not grandmaster starts an exchange with its parent: one that a miss
calls for, outside the schedule, or the next of the schedule, every 10,000 ticks. An exchange that is still open is
abandoned. -/
def execTimeExchange (s : State) : Out :=
  let b := s.stb
  match b.parent with
  | none => .next s
  | some p =>
    let on := b.st == .acquire || b.st == .locked || b.st == .holdover
    if !on || !(b.urgent || decide (b.lastExch + 10000 ≤ b.ticks)) then .next s
    else
      let num := b.exchNo + 1
      let s := { s with stb := { b with exchNo := num, lastExch := if b.urgent then b.lastExch else b.ticks, urgent := false,
                                        exch := some { num := num, t1 := none, t2 := none, t3 := none } } }
      .next (s.modMember p.val (·.due (tRecord 0x10 num 0)))

/-- The links between this package and another along the way of R500. -/
def TopoCfg.hops (t : TopoCfg) (v : Vec3) : Nat :=
  sumNat ([0, 1, 2].map fun a =>
    let e := t.ext.axis a
    let x := t.self.axis a
    let y := v.axis a
    if e = t.sys.axis a ∧ 0 < e then min ((y + e - x) % e) ((x + e - y) % e) else max x y - min x y)

/-- The parent link toward a package by an order of axes (R434, R438, R502). -/
def State.parentToward (s : State) (order : List Nat) (v : Vec3) : Option (Fin 24) :=
  match s.topoCfg with
  | none => none
  | some t =>
    match t.firstDir order t.self v with
    | none => none
    | some d => (s.actives d).head?.map fun j => Fin.ofNat 24 j

/-- PARENT_RESELECT (R438, R502): in holdover, a parent by the alternate order Z, Y, X. -/
def execParentReselect (s : State) : Out :=
  match s.stb.st, s.stb.parent, s.stb.gm, s.topoCfg with
  | .holdover, none, some v, some t =>
    (match s.parentToward [2, 1, 0] v with
     | none => .next s
     | some p =>
       .next { s with stb := { s.stb with parent := some p, hops := t.hops v, exch := none, meas := none, lastExch := s.stb.ticks - 10000 } })
  | _, _, _, _ => .next s

/-! ## Retraining ends (R483, R485) -/

/-- The ticks within which retraining completes (R483). -/
def retrainBound (m : Nat) : Nat := if m < 24 then 500000 else 20000

/-- RETRAIN_COMPLETE (R483): within its bound, the member is active again and resends from its first unacknowledged
flit. -/
def execRetrainComplete (m : Fin 32) (s : State) : Out :=
  guardUnit (s.hasMember m.val)
    (.next (s.modMember m.val fun x =>
      if x.st = .retraining ∧ s.stb.ticks ≤ x.retrainStart + retrainBound m.val then
        ({ x with st := .active, resend := x.unacked, busy := !x.unacked.isEmpty }).due (stateRecord 0)
      else x))

/-- RETRAIN_TIMEOUT (R483, R485): a retraining that has not completed within its bound makes the member withdraw. -/
def execRetrainTimeout (m : Fin 32) (s : State) : Out :=
  guardUnit (s.hasMember m.val)
    (let x := s.memberAt m.val
     if x.st = .retraining ∧ x.retrainStart + retrainBound m.val ≤ s.stb.ticks then .next (s.withdraw m.val)
     else .next s)

/-! ## Receiving (R464-R468, R475, R477, R480, R488) -/

/-- One control record takes effect (R477): an unknown KIND does nothing. -/
def State.ctrlRec (s : State) (m : Nat) (r : Nat) : State :=
  let num : BitVec 8 := BitVec.ofNat 8 (bits r 15 8)
  let t : BitVec 64 := BitVec.ofNat 64 (bits r 79 16)
  match r % 256 with
  | 0x01 => s.modMember m (·.acked (bits r 31 16))
  | 0x02 => s.nakOn m (bits r 31 16)
  | 0x03 => s.modMember m fun x =>
      { x with credit := tmod (0, 0) x.credit (credKey (bits r 15 8) (bits r 23 16)) fun c => (bits r 63 32, c.2) }
  | 0x04 => s.peerState m num
  | 0x10 => s.modMember m (·.due (tRecord 0x11 num 0))
  | 0x11 => s.modExch m num fun e => { e with t2 := some (s.stamp.toNat : Int) }
  | 0x12 => s.gotT1f m num t
  | 0x13 => s.modMember m (·.due (tRecord 0x14 num s.stamp.toNat))
  | 0x14 => s.gotT4 m num t
  | _ => s

/-- A flit that is not accepted: one NAK names the SEQ expected (R480). -/
def State.refuse (s : State) (m : Nat) : State :=
  s.modMember m fun x => if x.nakSent then x else ({ x with nakSent := true }).due (nakRecord x.rxSeq)

/-- A flit discarded for FEC or CRC (R468, R480, R489). -/
def State.badFlit (s : State) (m : Nat) : State :=
  ((s.modMember m fun x => { x with uncorrCnt := satInc x.uncorrCnt }).refuse m).uncorrEvent m

/-- A Market buffer for a message that starts to arrive (R389); the partner has used a credit of its allotment. -/
def State.takeBuf (s : State) (m vc cls : Nat) : State × Option Nat :=
  let io := m / 12
  match ((s.mktAt io).allotFor (m % 12) vc cls).bind (s.mktAt io).freeBuf with
  | some b =>
    let a := ((s.mktAt io).allotFor (m % 12) vc cls).elim 0 (·.cls)
    ((s.modMkt io fun k => { k with busy := insNat b k.busy }).modMember m fun x =>
      { x with taken := tmod 0 x.taken (credKey vc a) (· + 1) }, some b)
  | none => (s, none)

/-- The whole message that has arrived (R469, R470, R828); none where its LEN does not fit what arrived. -/
def rxMsgOf (m vc : Nat) (p : Partial) (last : Nat) : Option RxMsg :=
  let h : BitVec 128 := BitVec.ofNat 128 (fld p.data 0 16)
  let f := msgHdr h
  let tag := if f.enc then 16 else 0
  if f.len = 0 ∨ 4096 < f.len ∨ p.data.length < 16 + f.len + tag then none
  else some { link := m, buf := p.buf, vc := vc, hdr := h, payload := slice p.data 16 f.len,
              tag := slice p.data (16 + f.len) tag, first := p.first, last := last }

/-- The payload bytes that a flit brings are written into the buffer of their message (R389). -/
def State.fillBuf (s : State) (m : Nat) (p : Partial) (body : Bytes) : State :=
  match p.buf with
  | none => s
  | some b =>
    let done := p.data.length - body.length
    let first := done - 16
    let new := (body.drop (16 - done)).take (min 4096 (msgHdr (BitVec.ofNat 128 (fld p.data 0 16))).len - first)
    if new.isEmpty then s else s.marketWrite (m / 12) (4096 * b + first) new

/-- A message of an Avenue link is whole (R444, R469, R470): it joins the arrivals, with the stamps of its phase. -/
def State.wholeMsg (s : State) (m vc : Nat) (p : Partial) (now : Nat) : State :=
  match rxMsgOf m vc p now with
  | none => s.freeOf m vc p.buf
  | some r =>
    (s.modMember m fun x => { x with inbox := x.inbox ++ [r] }).stampPhase m (msgHdr r.hdr) r.first r.last

/-- A message of the package's own links is whole: it goes on, or reaches its die (R504). -/
def State.wholeInner (s : State) (m vc : Nat) (p : Partial) : State :=
  let h : BitVec 128 := BitVec.ofNat 128 (fld p.data 0 16)
  s.innerIn m vc h (slice p.data 16 (innerHdr h).len) p.par

/-- The body of a data flit that was accepted joins its message (R389, R469, R471); stamps are in units of 2^-16 tick. -/
def State.joinPart (s : State) (m : Nat) (f : Flit) : State :=
  let now := s.stb.time
  let started : State × Option Partial :=
    if f.som then
      let s := match tget none (s.memberAt m).part f.vc with
        | some q => s.freeOf m f.vc q.buf
        | none => s
      let b := if m < 24 then s.takeBuf m f.vc (bits (fld f.body 0 16) 18 15) else (s, none)
      (b.1, some { first := now, buf := b.2, data := f.body, par := f.par })
    else (s, (tget none (s.memberAt m).part f.vc).map fun p =>
      { p with data := p.data ++ f.body, par := p.par ++ f.par.map (p.data.length + ·) })
  let s := started.1
  match started.2 with
  | none => s
  | some p =>
    let s := s.fillBuf m p f.body
    if !f.eom then s.modMember m fun x => { x with part := tset none x.part f.vc (some p) }
    else
      let s := s.modMember m fun x => { x with part := tset none x.part f.vc none }
      if m < 24 then s.wholeMsg m f.vc p now else s.wholeInner m f.vc p

/-- A flit whose check sequence holds. -/
def State.goodFlit (s : State) (m : Nat) (f : Flit) : State :=
  if f.vc = 6 then (List.range 15).foldl (fun (a : State) i => a.ctrlRec m (fld f.body (16 * i) 16)) s
  else if f.vc = 7 then s
  else if f.seq ≠ (s.memberAt m).rxSeq then s.refuse m
  else
    let s := s.modMember m fun x =>
      { x with rxSeq := (x.rxSeq + 1) % 1024, nakSent := false, rxUnacked := x.rxUnacked + 1 }
    s.joinPart m f

/-- FLIT_RECEIVE (R464-R471, R477, R480, R489): a wire unit is decoded and checked; a flit in sequence is accepted, a
control flit's records take effect, and anything else is discarded. -/
def execFlitReceive (m : Fin 32) (wire : Bytes) (s : State) : Out :=
  guardUnit (s.hasMember m.val)
    (if (s.memberAt m.val).st ≠ .active ∧ (s.memberAt m.val).st ≠ .retraining then .next s
     else if m.val < 24 then
       (match fecDecode wire with
        | none => .next (s.badFlit m.val)
        | some (b, n) =>
          let s := if 3 ≤ n then s.marginEvent m.val else s
          if !crcOk b then .next (s.badFlit m.val)
          else
            let s := if 0 < n then s.modMember m.val fun x => { x with corrCnt := satInc x.corrCnt } else s
            .next (s.goodFlit m.val (flitOf b)))
     else if crcOk wire then .next (s.goodFlit m.val (innerFlit wire)) else .next (s.badFlit m.val))

/-! ## Bounded resources (R395, R396) -/

/-- A unit of a Market allotment is released (R391, R395): the partner learns the credits that stand granted. A buffer
itself is freed as its last byte is read, and by nothing else. -/
def State.tellCredit (s : State) (io j vc cls : Nat) : State :=
  match (s.mktAt io).allotFor j vc cls with
  | some a => s.grant (12 * io + j) vc a.cls 0
  | none => s

/-- BOUNDED_RESOURCE_RELEASE (R302, R391, R395, R396): a unit of a bounded resource is released, so that what waits for it
may go on: an accepted request of a stack completes, the credits of an allotment reach the partner, a queued increment
record is sent in a slot that R493 gives to VC1, an ME_DESC that waits at the bound of 32 issues. -/
def execBoundedResourceRelease (k : BoundedRes) (s : State) : Out :=
  match k with
  | .stackRequest x => guardUnit (x.val < s.stacks) (.next (s.ageReq x.val))
  | .marketBuffer io j vc cls =>
    guardUnit (io.val < s.ios) (.next (s.tellCredit io.val j.val vc.val cls.toNat))
  | .incrementSent j =>
    guardUnit (j.val < s.links)
      (if (s.memberAt j.val).hasSlots ∧ s.slotPick j.val = .vc 1 then .next (s.sendPick j.val (.vc 1)) else .next s)
  | .meDescriptor c => execMeSlotFree c s

end Sys2Proof.Machine
end

