-- ==== Sys2Proof/Machine/Messages.lean ====
section
/-! DEFINITION. Whole messages that have arrived (R472-R476, R500, R512, R827-R831) and halt messages (R738-R742). -/

namespace Sys2Proof.Machine

/-! ## Numbering (R472, R473) -/

/-- Whether a VC0 or VC1 message is new to its stream, and the stream after it is marked delivered (R473). -/
def StreamSt.fresh (t : StreamSt) (seq : Nat) : Option StreamSt :=
  match t.highest with
  | none => some { t with highest := some seq, seen := [seq] }
  | some hi =>
    let fwd := (seq + 65536 - hi) % 65536
    if 1 ≤ fwd ∧ fwd ≤ 32767 then
      some { t with highest := some seq,
                    seen := seq :: t.seen.filter fun q => decide ((seq + 65536 - q) % 65536 < 2048) }
    else
      let back := (hi + 65536 - seq) % 65536
      if 2048 ≤ back ∨ t.seen.contains seq then none else some { t with seen := seq :: t.seen }

/-- The XSEQ of a message (R830): the number with its low 16 bits nearest to the next expected one. -/
def StreamSt.xseq (t : StreamSt) (seq : Nat) : Nat :=
  let d := asInt 16 ((seq + 65536 - t.expect % 65536) % 65536)
  ((t.expect : Int) + d).toNat

/-! ## Forwarding (R475, R476, R500, R512) -/

/-- Flits that a message occupies (R471). -/
def flitsOf (len : Nat) : Nat := (16 + len + 249) / 250

/-- Flits of forwarded messages of a VC that a half of a member's forwarding store holds (R476). -/
def MemberSt.fwdFlits (x : MemberSt) (vc : Nat) (upper : Bool) : Nat :=
  sumNat ((((tget none x.started vc).toList ++ tget [] x.queue vc).filter fun t => t.fwd && t.upper == upper).map fun t =>
    flitsOf t.payload.length)

/-- Whether a hop in direction d from a coordinate crosses the wrap of its axis. -/
def TopoCfg.wraps (t : TopoCfg) (d at_ : Nat) : Bool :=
  let e := t.ext.axis (d / 2)
  decide (e = t.sys.axis (d / 2)) && (if d % 2 = 0 then at_ + 1 == e else at_ == 0)

/-- Whether a message that leaves in direction d, and has arrived on group g, crosses the wrap of the axis of d: on the
way ahead, or on the hop behind it (R476; assumption log 70). -/
def TopoCfg.upperHalf (t : TopoCfg) (dst : Vec3) (d : Nat) (g : Option Nat) : Bool :=
  let a := d / 2
  let here := t.self.axis a
  let ahead := if d % 2 = 0 then decide (dst.axis a < here) else decide (here < dst.axis a)
  ahead || g.any fun b => decide (b = a * 2 + (1 - d % 2)) && t.wraps b here

/-- A message of VC0 or VC1 for another package goes on toward it, once its half of the forwarding store of its link has
room; none while it has not. -/
def State.forward (s : State) (r : RxMsg) : Option State :=
  let h := msgHdr r.hdr
  let from_ := s.groupOf r.link
  let gone := s.freeOf r.link r.vc r.buf
  match s.topoCfg.bind fun t => (s.routeOn t r.vc h.dst from_).map fun d => (t, d) with
  | none => some gone
  | some (t, g, detour) =>
    let upper := t.upperHalf h.dst g from_
    let room := (s.carrier g).all fun m => decide ((s.memberAt m).fwdFlits r.vc upper + flitsOf r.payload.length ≤ 32)
    if !room then none
    else some (gone.sendOnward g r.vc detour { plainMsg r.hdr r.payload with fwd := true, upper := upper })

/-! ## Delivery -/

/-- The message at the front of a member's arrivals is taken. -/
def State.popInbox (s : State) (m : Nat) : State := s.modMember m fun x => { x with inbox := x.inbox.drop 1 }

/-- The message at the front of a member's arrivals is held (R418, R474): it is judged again after those behind it. -/
def State.holdInbox (s : State) (m : Nat) : State :=
  s.modMember m fun x => { x with inbox := x.inbox.drop 1 ++ x.inbox.take 1 }

/-- Whether a message is an abort message (R60). -/
def RxMsg.isAbort (r : RxMsg) : Bool := r.vc == 0 && (msgHdr r.hdr).cls != 15 && r.payload.headD 0#8 == tagAbort

/-- Whether a message is a halt message (R738). -/
def RxMsg.isHalt (r : RxMsg) : Bool := r.vc == 0 && (msgHdr r.hdr).cls == 15

/-- A VC0 or VC1 message reaches this package: a VC1 message keeps its buffer until its record is judged (R420). -/
def State.deliverCtl (s : State) (r : RxMsg) : State :=
  let s := if r.vc = 0 then s.freeOf r.link 0 r.buf else s
  { s with net := { s.net with delivered := s.net.delivered ++ [if r.vc = 0 then { r with buf := none } else r] } }

/-- A VC0 or VC1 message that is not a duplicate is delivered here or forwarded; none while it finds no room. -/
def State.passCtl (s : State) (m : Nat) (r : RxMsg) : Option State :=
  if r.isHalt || s.topoCfg.all fun t => (msgHdr r.hdr).dst == t.self then some ((s.popInbox m).deliverCtl r)
  else (s.popInbox m).forward r

/-- A message at the front of a member's arrivals is discarded, and its buffer freed. -/
def State.dropMsg (s : State) (m : Nat) (r : RxMsg) : State := (s.popInbox m).freeOf r.link r.vc r.buf

/-- A VC0 or VC1 message in the numbering of a context: a duplicate is discarded (R472, R473). -/
def State.passNew (s : State) (m c : Nat) (r : RxMsg) : State :=
  match s.groupOf m with
  | none => (s.passCtl m r).getD s
  | some g =>
    let k := streamKey c g r.vc (msgHdr r.hdr).cls
    match (s.streamAt k).fresh (msgHdr r.hdr).seq with
    | none => s.dropMsg m r
    | some t =>
      match s.passCtl m r with
      | none => s
      | some after => after.modStream k fun u => { u with highest := t.highest, seen := t.seen }

/-- The context that holds a JOB. -/
def State.ctxOfJob (s : State) (job : Nat) : Option (Fin 4) :=
  (List.finRange 4).find? fun c =>
    let x := s.ctxAt c.val
    x.st != .free && x.cfg.any fun g => g.job.toNat == job

/-- A halt message (R474, R739): the context of its JOB takes it, in the numbering of its epoch where it has the
context's. -/
def State.recvHalt (s : State) (m : Nat) (r : RxMsg) : State :=
  let h := msgHdr r.hdr
  match s.ctxOfJob h.job with
  | none => (s.dropMsg m r).modXs 4 fun x => { x with stray := true }
  | some c => if (s.ctxAt c.val).epoch.toNat = h.epoch then s.passNew m c.val r else (s.passCtl m r).getD s

/-- An abort message of a later epoch for this package and its resident context is delivered, once (R416, R474). -/
def State.takesAbort (s : State) (r : RxMsg) : Bool :=
  let h := msgHdr r.hdr
  r.isAbort && (s.cur.any fun c => c.2.cfg.any fun g => g.job.toNat == h.job && g.topo.self == h.dst)

/-- A VC0 or VC1 message (R472-R476). -/
def State.recvCtl (s : State) (m : Nat) (r : RxMsg) : State :=
  let h := msgHdr r.hdr
  if r.isHalt then s.recvHalt m r
  else match s.judgeJob (BitVec.ofNat 16 h.job) (BitVec.ofNat 16 h.epoch) with
    | .stray => (s.dropMsg m r).modXs 4 fun x => { x with stray := true }
    | .discard => s.dropMsg m r
    | .hold =>
      if !s.takesAbort r then s.holdInbox m
      else if s.net.delivered.any fun q => q.hdr == r.hdr && s.groupOf q.link == s.groupOf m then s.dropMsg m r
      else (s.passCtl m r).getD s
    | .apply => s.passNew m ((s.resident.map (·.val)).getD 0) r

/-- The key of a link group's arrivals on a VC and class. -/
def rxKey (g vc cls : Nat) : Nat := (g * 8 + vc) * 16 + cls

/-- A message of VC2-VC5 reaches its allotment, in order (R472): its bytes lie in the buffer it fills (R389). -/
def State.deliverData (s : State) (g : Nat) (r : RxMsg) : State :=
  let k := rxKey g r.vc (msgHdr r.hdr).cls
  let c : RxChunk :=
    { data := if r.buf.isSome then [] else r.payload, at_ := 0, len := r.payload.length, link := r.link, vc := r.vc,
      buf := r.buf }
  { s with net := { s.net with rx := tmod [] s.net.rx k (· ++ [c]) } }

/-- Messages that were held back follow while they are next in order; `fuel` bounds their number. -/
def State.deliverHeld (s : State) (g k : Nat) : Nat → State
  | 0 => s
  | fuel + 1 =>
    let t := s.streamAt k
    match t.held.find? fun r => (msgHdr r.hdr).seq == t.expect % 65536 with
    | none => s
    | some r =>
      ((s.modStream k fun t => { t with expect := t.expect + 1, held := t.held.erase r }).deliverData g r).deliverHeld g k fuel

/-- A message with its payload in the clear; none where R831 discards it. -/
def openMsg (x : CtxSt) (cfg : JobCfg) (g : Nat) (t : StreamSt) (r : RxMsg) : Option RxMsg :=
  let h := msgHdr r.hdr
  if !h.enc then (if x.lsec.covers r.vc then none else some r)
  else
    let self := cfg.topo.self
    let from_ := if g < 6 then cfg.topo.step self g else self
    let dir := if g < 6 then g / 2 * 2 + (1 - g % 2) else g
    let iv := gcmNonce (t.xseq h.seq) h.epoch from_ dir r.vc h.cls
    let key := leBytes 32 x.lsec.key.toNat
    if gcmTag key iv (leBytes 16 r.hdr.toNat) r.payload = r.tag then some { r with payload := gcmStream key iv r.payload }
    else none

/-- A message that was deciphered stands in the clear in its buffer (R827). -/
def State.clearBuf (s : State) (r : RxMsg) : State :=
  match r.buf with
  | some b => if (msgHdr r.hdr).enc then s.marketWrite (r.link / 12) (4096 * b) r.payload else s
  | none => s

/-- A message of VC2-VC5 (R472, R474, R475, R827-R831). -/
def State.recvData (s : State) (m : Nat) (r : RxMsg) : State :=
  let h := msgHdr r.hdr
  let drop := s.dropMsg m r
  match s.judgeJob (BitVec.ofNat 16 h.job) (BitVec.ofNat 16 h.epoch) with
  | .stray => drop.modXs 4 fun x => { x with stray := true }
  | .discard => drop
  | .hold => s.holdInbox m
  | .apply =>
    (match s.cur, s.groupOf m with
     | some (c, x), some g =>
       (match x.cfg with
        | none => drop
        | some cfg =>
          if h.dst ≠ cfg.topo.self then drop.modMember m fun y => { y with misroute := true }
          else
            let k := streamKey c.val g r.vc h.cls
            let t := s.streamAt k
            match openMsg x cfg g t r with
            | none =>
              ({ drop with sec := { drop.sec with authCnt := satInc drop.sec.authCnt } }).abortAll
            | some q =>
              let d := (h.seq + 65536 - t.expect % 65536) % 65536
              let pop := (s.popInbox m).clearBuf q
              if d = 0 then
                ((pop.modStream k fun t => { t with expect := t.expect + 1 }).deliverData g q).deliverHeld g k t.held.length
              else if d ≤ 32767 ∧ !(t.held.any fun p => p.hdr == q.hdr) then
                pop.modStream k fun t => { t with held := t.held ++ [q] }
              else drop)
     | _, _ => drop)

/-- MESSAGE_RECEIVE (R472-R476, R500, R512, R827-R831): the oldest whole message on a link is delivered in order,
forwarded, held or discarded. -/
def execMessageReceive (m : Fin 24) (s : State) : Out :=
  guardUnit (m.val < s.links)
    (match (s.memberAt m.val).inbox with
     | [] => .next s
     | r :: _ => if r.vc ≤ 1 then .next (s.recvCtl m.val r) else .next (s.recvData m.val r))

/-! ## Halt messages (R738-R742) -/

/-- HALT_MESSAGE (R734, R739, R742): a halt for the JOB of the resident context halts the package; one for another
context is recorded; both are forwarded once. -/
def execHaltMessage (m : Fin 24) (payload : Bytes) (s : State) : Out :=
  guardUnit (m.val < s.links)
    (let s := s.consume fun r => r.isHalt && r.link == m.val && r.payload == payload
     match s.ctxOfJob (fld payload 0 2) with
     | none => .next s
     | some c =>
       if (s.ctxAt c.val).halted then .next s
       else if s.resident = some c then .next (s.containHalt (fld payload 5 1) .idle (some payload) (s.groupOf m.val))
       else
         let s := s.modCtx c.val fun x => { x with halted := true, haltRec := true }
         .next (s.haltFlood c.val payload (s.groupOf m.val)))

end Sys2Proof.Machine
end

