-- ==== Sys2Proof/Machine/Collective.lean ====
section
/-! DEFINITION. The Collective Engine (R525-R576, R915): the issue of its ops, the ring hops of reductions, gathers and
broadcasts, barriers, the blocks of PERMUTE and of the all-to-alls, and the global norm. -/

namespace Sys2Proof.Machine

/-! ## Ops in slots -/

/-- One collective as its CX runs it: its die, its slot and what that slot holds, its descriptor, its group and this
member's rank, and the topology of the job. -/
structure Coll where
  die : Nat
  slot : Nat
  k : CxSlot
  d : CollDesc
  g : Group
  me : Nat
  topo : TopoCfg
  deriving DecidableEq, Repr

/-- An op slot of a CX. -/
def State.cxSlot (s : State) (die i : Nat) : Option CxSlot := tget none (s.cxAt die).slots i

/-- The package with an op slot replaced. -/
def State.setSlot (s : State) (die i : Nat) (k : CxSlot) : State :=
  s.modCx die fun c => { c with slots := tset none c.slots i (some k) }

/-- The bytes of a descriptor held in a slot. -/
def slotDesc (d : BitVec 512) : CollDesc := collDesc (leBytes 64 d.toNat)

/-- The collective of a slot. -/
def State.coll (s : State) (die i : Nat) : Option Coll :=
  match s.cxSlot die i, s.cur.bind fun c => c.2.cfg with
  | some k, some cfg =>
    let d := slotDesc k.desc
    (match cfg.groups[d.group]? with
     | none => none
     | some g => (g.rankOf cfg.topo.self die).map fun me => ⟨die, i, k, d, g, me, cfg.topo⟩)
  | _, _ => none

/-- The engine that runs a collective. -/
def Coll.eng (c : Coll) : EngRef := dieEngOf (dieFin c.die) .cx

/-- Who reads and writes memory for a collective. -/
def Coll.who (c : Coll) : Issuer := .engine c.eng

/-- The place of a PERMUTE among the PERMUTEs of its group in its die's CX stream. -/
def State.permOrd (s : State) (c : Coll) : Nat :=
  match s.pair with
  | none => 0
  | some (im, _) =>
    (((im.dieWords c.die 5).take c.k.opSeq).filter fun w =>
      opcOf w == 0x60 && match im.constAt (bits w 95 48) 64 with
        | some b => (collDesc b).kind == 6 && (collDesc b).group == c.d.group
        | none => false).length

/-- A slot's progress changed. -/
def State.modSlotOf (s : State) (c : Coll) (f : CxSlot → CxSlot) : State :=
  match s.cxSlot c.die c.slot with
  | some k => s.setSlot c.die c.slot (f k)
  | none => s

/-- The op of a slot is done: its engine may complete it, with its flags (R139, R140). -/
def State.finishSlot (s : State) (die i : Nat) : State :=
  match s.cxSlot die i with
  | none => s
  | some k =>
    let e := dieEngOf (dieFin die) .cx
    let r := s.engRaw e
    let ops := r.issued.map fun op =>
      if op.slot = some i ∧ (op.code = 0x60#8 ∨ op.code = 0x61#8) then
        { op with done := true, flags := [(k.fslot.toNat, k.flags)] } else op
    (s.setSlot die i { k with done := true }).setEng e { r with issued := ops }

/-! ## Streams between members (R541, R542, R546) -/

/-- The package of a rank. -/
def Group.vecOf (g : Group) (k : Nat) : Vec3 :=
  match g.members[k]? with
  | some m => { x := m.x, y := m.y, z := m.z }
  | none => { x := 0, y := 0, z := 0 }

/-- The die of a rank. -/
def Group.dieOf (g : Group) (k : Nat) : Nat := match g.members[k]? with
  | some m => m.die
  | none => 0

/-- The direction in which a neighbouring package lies: the lowest-numbered where two do. -/
def TopoCfg.dirTo (t : TopoCfg) (v : Vec3) : Option Nat :=
  (List.range 6).find? fun d => t.faces d && t.step t.self d == v

/-- The group on which data from a neighbouring package arrives. -/
def TopoCfg.dirFrom (t : TopoCfg) (v : Vec3) : Option Nat :=
  (({ t with self := v }).dirTo t.self).map fun d => d / 2 * 2 + (1 - d % 2)

/-- Where the bytes of a stream lie at the receiving CX: from a die of the package (0-3) or from a group (4 and up). -/
def streamOf (src group lane : Nat) : Nat := (src * 64 + group) * 2 ^ 32 + lane

/-- The source of data from a rank: a die of this package, or a link group. -/
def Coll.srcOf (c : Coll) (k : Nat) : Nat :=
  let v := c.g.vecOf k
  if v = c.topo.self then c.g.dieOf k else 4 + (c.topo.dirFrom v).getD 0

/-- The stream of a source: between the dies of the package an op's data carries the die and the op, which is the op's
place among the CX_RUN ops of the group in its stream; over a link it has its VC and CLASS (R530). -/
def Coll.key (c : Coll) (src : Nat) : Nat :=
  streamOf src c.d.group (if src < 4 then c.k.ord else c.d.vc * 16 + c.d.cls)

/-- Up to `n` bytes of the pieces of a stream: what each gives, the pieces read to their end, and the rest. -/
def cutChunks : Nat → List RxChunk → List (RxChunk × Nat) × List RxChunk × List RxChunk
  | _, [] => ([], [], [])
  | n, p :: r =>
    let m := p.len - p.at_
    if n = 0 then ([], [], p :: r)
    else if n < m then ([(p, n)], [], { p with at_ := p.at_ + n } :: r)
    else
      let q := cutChunks (n - m) r
      ((p, m) :: q.1, p :: q.2.1, q.2.2)

/-- The byte of a Market at which the unread bytes of a piece start. -/
def RxChunk.place (p : RxChunk) (b : Nat) : Nat := 4096 * b + p.at_

/-- The next `n` bytes of a piece of a stream: from its Market buffer, where it has one. -/
def State.chunkBytes (s : State) (p : RxChunk) (n : Nat) : Bytes :=
  match p.buf with
  | some b => rdBytes s.mem.market (p.link / 12 * 2 ^ 25 + p.place b) n
  | none => slice p.data p.at_ n

/-- The parity keys of the next `n` bytes of a piece. -/
def RxChunk.keys (p : RxChunk) (n : Nat) : List (Nat × Nat) :=
  match p.buf with
  | some b => [(parMarket (p.link / 12) (p.place b), n)]
  | none => []

/-- Up to `n` bytes that wait on a link group, which stay there. -/
def State.peekRx (s : State) (key n : Nat) : Bytes :=
  (cutChunks n (tget [] s.net.rx key)).1.flatMap fun p => s.chunkBytes p.1 p.2

/-- Up to `n` bytes of the data that has arrived on a link group: the CX checks their parity (R722), and buffers read to
their end are freed (R391). -/
def State.takeRx (s : State) (c : Coll) (key n : Nat) : State × Bytes :=
  let q := cutChunks n (tget [] s.net.rx key)
  let bad := s.parBad (q.1.flatMap fun p => p.1.keys p.2)
  let t := (s.parFaults none (some c.k.step) bad)
  let t := { t with net := { t.net with rx := tset [] t.net.rx key q.2.2 } }
  (q.2.1.foldl (fun (a : State) p => a.freeChunk p) t, q.1.flatMap fun p => s.chunkBytes p.1 p.2)

/-- Up to `n` bytes of the stream from a rank. -/
def State.takeFrom (s : State) (c : Coll) (k n : Nat) : State × Bytes :=
  let src := c.srcOf k
  if src < 4 then
    let b := tget [] (s.cxAt c.die).intStream (c.key src)
    (s.modCx c.die fun x => { x with intStream := tset [] x.intStream (c.key src) (b.drop n) }, b.take n)
  else s.takeRx c (rxKey (src - 4) c.d.vc c.d.cls) n

/-- Bytes sent to a rank that is a neighbour: over the package's own links, or in messages of 4,096 bytes (R541). -/
def State.sendRank (s : State) (c : Coll) (k : Nat) (bs : Bytes) : State :=
  let v := c.g.vecOf k
  if v = c.topo.self then s.innerSend c.d.vc c.die (c.g.dieOf k) (c.key c.die) bs
  else match c.topo.dirTo v with
    | none => s
    | some d =>
      (chunks 4096 bs.length bs).foldl (fun (a : State) p => a.sendOn d c.d.vc c.d.cls 0 v p) s

/-- The slot gathers the `n` bytes that its hop expects from a rank; true once it holds them. -/
def State.gather (s : State) (c : Coll) (k n : Nat) : State × Bool :=
  match s.cxSlot c.die c.slot with
  | none => (s, false)
  | some x =>
    let r := s.takeFrom c k (n - x.lanes.length)
    let got := x.lanes ++ r.2
    (r.1.modSlotOf c fun y => { y with lanes := got }, decide (got.length = n))

/-! ## Ranges (R534, R547) -/

/-- Elements of a level's range: level 0 is COUNT. -/
def Coll.size (c : Coll) (i : Nat) : Nat :=
  c.d.count / (if i = 0 then 1 else if i = 1 then c.g.l1 else if i = 2 then c.g.l1 * c.g.l2 else c.g.l1 * c.g.l2 * c.g.l3)

/-- The first element of the range that this member holds at a level (R547). -/
def Coll.base (c : Coll) (i : Nat) : Nat :=
  let q := c.g.digits c.me
  (if 1 ≤ i then q.1 * c.size 1 else 0) + (if 2 ≤ i then q.2.1 * c.size 2 else 0) + (if 3 ≤ i then q.2.2 * c.size 3 else 0)

/-- Bytes of a scale plane of `n` elements. -/
def planeBytes (w : BitVec 16) (n : Nat) : Nat := if scaleOf w = 0 then 0 else (n + blkOf w - 1) / blkOf w

/-- Bytes of `n` elements with their scales. -/
def tensorBytes (w : BitVec 16) (n : Nat) : Nat := elemBytes (fmtOf w) n + planeBytes w n

/-- The ranges at SRC and DST of a collective, and what else it reads and writes; `g` is its group with this member's
rank where it is known, and what it would fix is left out where it is not. -/
def collRanges (im : Img) (d : CollDesc) (g : Option (Group × Nat)) :
    List (Nat × Nat) × List (Nat × Nat) × Touch :=
  let n := d.count
  let p := (g.map fun q => q.1.p).getD 0
  let known := g.isSome
  let row := d.p2 % 65536 * 64
  let c := d.p1 % 65536
  let epm := d.p1 / 65536
  let res := if d.comp then [(d.aux, 2 * n)] else []
  match d.kind with
  | 1 => ([(d.src, tensorBytes d.ifmt n)], [(d.dst, tensorBytes d.ofmt n)], { reads := res, writes := res })
  | 2 =>
    ([(d.src, tensorBytes d.ifmt n)], if known then [(d.dst, tensorBytes d.ofmt (n / p))] else [],
     { reads := res, writes := res })
  | 3 => (if known then [(d.src, tensorBytes d.ifmt (n / p))] else [], [(d.dst, tensorBytes d.ofmt n)], .none)
  | 4 =>
    (if g.any (fun q => q.2 == d.p1) then [(d.src, tensorBytes d.ifmt n)] else [], [(d.dst, tensorBytes d.ofmt n)], .none)
  | 6 =>
    let own := (im.permTable d).map fun e => (e.saddr, e.len)
    let here := match g with
      | some q => ((im.permTable d).filter fun e => e.peer == q.2).map fun e => (e.daddr, e.len)
      | none => []
    ([], [], { reads := (d.aux, 32 * n) :: own, writes := here })
  | 7 =>
    let toks := match im.constAt d.aux (8 * n) with
      | some b => (chunks 8 n b).map fun e => (d.src + fld e 0 4 * row, row)
      | none => []
    (toks, if known then [(d.dst, epm * p * c * row)] else [],
     { reads := [(d.aux, 8 * n)], writes := if known then [(d.dropv, 4 * epm * p)] else [] })
  | 8 =>
    (if known then [(d.src, epm * p * c * row)] else [], [(d.dst, n * row)], { reads := [(d.aux, 8 * n)], writes := [] })
  | _ => ([], [], .none)

/-- Everything that a collective reads and writes. -/
def collTouch (im : Img) (d : CollDesc) (g : Option (Group × Nat)) : Touch :=
  let r := collRanges im d g
  { reads := r.1 ++ r.2.2.reads, writes := r.2.1 ++ r.2.2.writes }

/-- Elements as they are written: a W48 element has zero in bits [63:48] (R103). -/
def padElems (w : BitVec 16) (bs : Bytes) : Bytes :=
  if fmtOf w = 6 then bs.zipIdx.map fun p => if 6 ≤ p.2 % 8 then 0#8 else p.1 else bs

/-- Reads elements `b` to `b + n - 1` and their scales of a tensor of `total` elements. -/
def State.readRange (s : State) (c : Coll) (w : BitVec 16) (addr total b n : Nat) : State × Bytes :=
  let r := s.physRead c.who (some c.k.step) (addr + elemBytes (fmtOf w) b) (elemBytes (fmtOf w) n)
  let q := r.1.physRead c.who (some c.k.step) (addr + elemBytes (fmtOf w) total + planeBytes w b) (planeBytes w n)
  (q.1, r.2 ++ q.2)

/-- Writes elements `b` to `b + n - 1` and their scales of a tensor of `total` elements. DESIGN CHOICE (assumption log 88):
of an odd count of 4-bit elements, the whole last byte is written, with the upper nibble that came. -/
def State.writeRange (s : State) (c : Coll) (w : BitVec 16) (addr total b n : Nat) (bs : Bytes) : State :=
  let e := elemBytes (fmtOf w) n
  let s := s.physWrite c.who (some c.k.step) (addr + elemBytes (fmtOf w) b) (padElems w (bs.take e))
  s.physWrite c.who (some c.k.step) (addr + elemBytes (fmtOf w) total + planeBytes w b) (bs.drop e)

/-! ## Reductions (R547-R558, R915) -/

/-- One more term of a reduction (R548, R552). -/
def reduceTerm (rop : Nat) (a : BitVec 32) (v : Val) : LaneOut :=
  match rop with
  | 0 => laneAcc [vs32 a, v] ((vs32 a).add v)
  | 1 => lanePlain [vs32 a, v] (maxVal (vs32 a) v)
  | _ => lanePlain [vs32 a, v] (minVal (vs32 a) v)

/-- A term converted to VS32 as it starts a chain (R548). -/
def firstTerm (v : Val) : LaneOut := let r := convElem 5#16 .rne v; (BitVec.ofNat 32 r.1, r.2)

/-- The format word of a compressed send: VF8B with one SE8 scale per 32 elements (R554). -/
def sendFmt : BitVec 16 := 0x52#16

/-- The terms that this member contributes to elements `b` to `b + n - 1` at a level: its input at level 1, and its
result of the level below at levels 2 and 3 (R549). -/
def State.terms (s : State) (c : Coll) (level b n : Nat) : State × List Val :=
  if level = 1 then
    let f := fmtOf c.d.ifmt
    let r := s.physRead c.who (some c.k.step) (c.d.src + elemBytes f b) (elemBytes f n)
    (r.1, (List.range n).map fun i => elemVal f (unpackElem f r.2 i))
  else (s, ((c.k.acc.drop (b - c.base (level - 1))).take n).map fun v => vs32 (BitVec.ofNat 32 v.toNat))

/-- The values that the bytes of a hop carry. -/
def Coll.wireVals (c : Coll) (n : Nat) (bs : Bytes) : List Val :=
  if c.d.comp then readElems sendFmt (bs.take n) (bs.drop n) n
  else (List.range n).map fun i => fVS32.value (fld bs (4 * i) 4)

/-- Bytes of a hop of `n` elements. -/
def Coll.wireLen (c : Coll) (n : Nat) : Nat := if c.d.comp then tensorBytes sendFmt n else 4 * n

/-- The partial sums of a hop: this member's terms, added to what the hop before sent. -/
def Coll.partials (c : Coll) (ins : Option (List Val)) (own : List Val) : List LaneOut :=
  match ins with
  | none => own.map firstTerm
  | some xs => (xs.zip own).map fun p =>
      if c.d.comp then laneAcc [p.1, p.2] (p.1.add (vs32 (firstTerm p.2).1)) else reduceTerm c.d.rop (firstTerm p.1).1 p.2

/-- A compressed send of `n` elements from element `b` (R554): the codes and scales, and the residuals written. -/
def State.sendComp (s : State) (c : Coll) (b : Nat) (ps : List (BitVec 32)) : State × Bytes × BitVec 4 :=
  let n := ps.length
  let r := s.physRead c.who (some c.k.step) (c.d.aux + 2 * b) (2 * n)
  let vs := (List.range n).map fun i =>
    let x := vs32 (ps.getD i 0)
    let y := fVH16.value (fld r.2 (2 * i) 2)
    laneAcc [x, y] (x.add y)
  let q := convert sendFmt (fmtMax 5) (fun _ => .rne) (vs.map fun v => vs32 v.1)
  let back := readElems sendFmt (q.1.map (BitVec.ofNat 8)) (q.2.1.map (BitVec.ofNat 8)) n
  let res := (vs.zip back).map fun p =>
    if (vs32 p.1.1).isFin then convElem 0x103#16 .rne ((vs32 p.1.1).sub p.2) else (0, 0#4)
  let s := r.1.physWrite c.who (some c.k.step) (c.d.aux + 2 * b) (res.flatMap fun e => leBytes 2 e.1)
  (s, q.1.map (BitVec.ofNat 8) ++ q.2.1.map (BitVec.ofNat 8),
   orFlags (vs.map (·.2)) ||| q.2.2 ||| orFlags (res.map (·.2)))

/-- The level and the ring step of hop `h` of the reducing hops (one for each position of a ring, level 1 first). -/
def Coll.hopAt (c : Coll) (h : Nat) : Nat × Nat :=
  if h < c.g.l1 then (1, h + 1) else if h < c.g.l1 + c.g.l2 then (2, h - c.g.l1 + 1) else (3, h - c.g.l1 - c.g.l2 + 1)

/-- Reducing hops in all. -/
def Coll.hops (c : Coll) : Nat := c.g.l1 + c.g.l2 + c.g.l3

/-- The old residuals are journalled before the op overwrites any of them (R556, R915). -/
def State.journalResiduals (s : State) (c : Coll) : State :=
  match s.pair with
  | none => s
  | some (_, cfg) =>
    (residualRuns c.d c.g c.me).foldl (fun (a : State) r =>
      ((runLens r.2).zipIdx).foldl (fun (b : State) p =>
        b.journal cfg.opt c.die true 2 c.k.step (r.1 + 16384 * p.2) p.1) a) s

/-- One hop of a reduction; false where it waits for data. -/
def State.reduceHop (s : State) (c : Coll) : State × Bool :=
  let lt := c.hopAt c.k.hop
  let q := c.g.level lt.1
  let pos := digit (c.g.digits c.me) lt.1
  let n := c.size lt.1
  let o := (pos + q - lt.2 % q) % q
  let b := c.base (lt.1 - 1) + o * n
  let s := if c.k.hop = 0 ∧ c.d.comp ∧ c.k.lanes.isEmpty then s.journalResiduals c else s
  let got := if lt.2 = 1 then (s, true) else s.gather c (c.g.ringMember c.me lt.1 (pos + q - 1)) (c.wireLen n)
  if !got.2 then (got.1, false)
  else
    let s := got.1
    let lanes := ((s.cxSlot c.die c.slot).map (·.lanes)).getD []
    let own := s.terms c lt.1 b n
    let ps := c.partials (if lt.2 = 1 then none else some (c.wireVals n lanes)) own.2
    let fl := orFlags (ps.map (·.2))
    let s := own.1
    if lt.2 = q then
      (s.modSlotOf c fun x =>
        { x with hop := x.hop + 1, lanes := [], flags := x.flags ||| fl, acc := ps.map fun p => p.1.setWidth 48 }, true)
    else
      let w : State × Bytes × BitVec 4 :=
        if c.d.comp then s.sendComp c b (ps.map (·.1)) else (s, ps.flatMap fun p => leBytes 4 p.1.toNat, 0#4)
      let s := w.1.sendRank c (c.g.ringMember c.me lt.1 (pos + 1)) w.2.1
      (s.modSlotOf c fun x => { x with hop := x.hop + 1, lanes := [], flags := x.flags ||| fl ||| w.2.2 }, true)

/-- The owner converts its sums once and writes its shard (R550, R551); the subtotal of R557 replaces the sums. -/
def State.ownShard (s : State) (c : Coll) : State :=
  let n := c.size 3
  let b := c.base 3
  let r := convert c.d.ofmt (fmtMax 5)
    (fun i => rndFor c.d.ofmt s.seed c.k.step (srcId c.die 193) c.k.srb (b + i))
    (c.k.acc.map fun v => vs32 (BitVec.ofNat 32 v.toNat))
  let bs := packElems (fmtOf c.d.ofmt) r.1 ++ r.2.1.map (BitVec.ofNat 8)
  let s := if c.d.kind = 1 then s.writeRange c c.d.ofmt c.d.dst c.d.count b n bs
    else s.writeRange c c.d.ofmt c.d.dst n 0 n bs
  let vals := r.1.zipIdx.map fun p => readElem c.d.ofmt p.1 (r.2.1.getD (p.2 / blkOf c.d.ofmt) 0)
  let t := vals.foldl (fun (a : BitVec 48 × BitVec 4) v =>
    let b := addW48F a.1 (w48 (toW48 (v.mul v)).1)
    (b.1, a.2 ||| b.2)) (0#48, 0#4)
  s.modSlotOf c fun x =>
    { x with hop := x.hop + 1, flags := x.flags ||| r.2.2 ||| (if c.d.norm then t.2 else 0), acc := [t.1] }

/-- A NORM op adds its subtotal to the accumulator of its step in its turn (R558); false where it waits. -/
def State.addNorm (s : State) (c : Coll) : State × Bool :=
  if !c.d.norm then (s.modSlotOf c fun x => { x with hop := x.hop + 1 }, true)
  else if (s.cxAt c.die).normTurn.head? ≠ some c.k.opSeq then (s, false)
  else
    let bank := bankOf c.k.step
    let old := if bank then (s.cxAt c.die).nacc1 else (s.cxAt c.die).nacc0
    let sum := addW48F old (w48 (c.k.acc.headD 0))
    let s := s.modCx c.die fun x =>
      { x with normTurn := x.normTurn.drop 1, nacc0 := if bank then x.nacc0 else sum.1,
               nacc1 := if bank then sum.1 else x.nacc1 }
    (s.modSlotOf c fun x => { x with hop := x.hop + 1, flags := x.flags ||| sum.2, normAdded := true }, true)

/-! ## Gathers (R550, R553) -/

/-- The level, the ring step and whether it is the receiving half of gathering hop `h`: level 3 first, two halves for
each step of a ring. -/
def Coll.gatherAt (c : Coll) (h : Nat) : Option (Nat × Nat × Bool) :=
  let n3 := 2 * (c.g.l3 - 1)
  let n2 := 2 * (c.g.l2 - 1)
  let n1 := 2 * (c.g.l1 - 1)
  if h < n3 then some (3, h / 2 + 1, h % 2 == 1)
  else if h < n3 + n2 then some (2, (h - n3) / 2 + 1, (h - n3) % 2 == 1)
  else if h < n3 + n2 + n1 then some (1, (h - n3 - n2) / 2 + 1, (h - n3 - n2) % 2 == 1)
  else none

/-- The first element of what position `p` of this member's ring holds after the levels below it are gathered. -/
def Coll.blockBase (c : Coll) (i p : Nat) : Nat := c.base (i - 1) + p * c.size i

/-- One half hop of a gather; false where it waits. -/
def State.gatherHop (s : State) (c : Coll) (lt : Nat × Nat × Bool) : State × Bool :=
  let q := c.g.level lt.1
  let pos := digit (c.g.digits c.me) lt.1
  let n := c.size lt.1
  let next := fun (a : State) => a.modSlotOf c fun x => { x with hop := x.hop + 1, lanes := [] }
  if !lt.2.2 then
    let p := (pos + q - (lt.2.1 - 1)) % q
    let r := s.readRange c c.d.ofmt c.d.dst c.d.count (c.blockBase lt.1 p) n
    (next (r.1.sendRank c (c.g.ringMember c.me lt.1 (pos + 1)) r.2), true)
  else
    let p := (pos + q - lt.2.1) % q
    let got := s.gather c (c.g.ringMember c.me lt.1 (pos + q - 1)) (tensorBytes c.d.ofmt n)
    if !got.2 then (got.1, false)
    else
      let lanes := ((got.1.cxSlot c.die c.slot).map (·.lanes)).getD []
      (next (got.1.writeRange c c.d.ofmt c.d.dst c.d.count (c.blockBase lt.1 p) n lanes), true)

/-- One hop of ALL_REDUCE or REDUCE_SCATTER. -/
def State.reduceStep (s : State) (c : Coll) : State × Bool :=
  let h := c.hops
  if c.k.hop < h then s.reduceHop c
  else if c.k.hop = h then (s.ownShard c, true)
  else if c.k.hop = h + 1 then s.addNorm c
  else if c.d.kind = 2 then (s.finishSlot c.die c.slot, true)
  else match c.gatherAt (c.k.hop - h - 2) with
    | some lt => s.gatherHop c lt
    | none => (s.finishSlot c.die c.slot, true)

/-- One hop of ALL_GATHER (R553). -/
def State.gatherStep (s : State) (c : Coll) : State × Bool :=
  if c.k.hop = 0 then
    let n := c.size 3
    let r := s.readRange c c.d.ifmt c.d.src n 0 n
    let s := r.1.writeRange c c.d.ofmt c.d.dst c.d.count (c.base 3) n r.2
    (s.modSlotOf c fun x => { x with hop := 1 }, true)
  else match c.gatherAt (c.k.hop - 1) with
    | some lt => s.gatherHop c lt
    | none => (s.finishSlot c.die c.slot, true)

/-- The level on which a member of a BROADCAST receives: 0 at the root. -/
def Coll.castLevel (c : Coll) : Nat :=
  let a := c.g.digits c.me
  let r := c.g.digits c.d.p1
  if a.2.2 ≠ r.2.2 then 3 else if a.2.1 ≠ r.2.1 then 2 else if a.1 ≠ r.1 then 1 else 0

/-- The members to which a member of a BROADCAST sends on: the next position of the ring it received on, and of each
ring of a higher level. -/
def Coll.castNext (c : Coll) : List Nat :=
  ([1, 2, 3].filter fun i => decide (c.castLevel ≤ i)).filterMap fun i =>
    let q := c.g.level i
    let next := (digit (c.g.digits c.me) i + 1) % q
    if next = digit (c.g.digits c.d.p1) i ∨ q ≤ 1 then none else some (c.g.ringMember c.me i next)

/-- BROADCAST (R553): the root's data goes round the level-1 ring of the root, then the level-2 rings that meet it, then
the level-3 rings. -/
def State.castStep (s : State) (c : Coll) : State × Bool :=
  let n := tensorBytes c.d.ifmt c.d.count
  let l := c.castLevel
  let got : State × Option Bytes :=
    if l = 0 then let r := s.readRange c c.d.ifmt c.d.src c.d.count 0 c.d.count; (r.1, some r.2)
    else
      let r := s.gather c (c.g.ringMember c.me l (digit (c.g.digits c.me) l + c.g.level l - 1)) n
      (r.1, if r.2 then (r.1.cxSlot c.die c.slot).map (·.lanes) else none)
  match got.2 with
  | none => (got.1, false)
  | some bs =>
    let s := got.1.writeRange c c.d.ofmt c.d.dst c.d.count 0 c.d.count bs
    let s := c.castNext.foldl (fun (a : State) k => a.sendRank c k bs) s
    (s.finishSlot c.die c.slot, true)

/-- Hops of a collective until it waits or is done; `fuel` bounds their number. -/
def State.runHops (s : State) (die i : Nat) (step : State → Coll → State × Bool) : Nat → State
  | 0 => s
  | fuel + 1 =>
    match s.coll die i with
    | none => s
    | some c =>
      if c.k.done then s
      else
        let r := step s c
        if r.2 then r.1.runHops die i step fuel else r.1

/-- Hops that a collective of a group can have. -/
def Coll.fuel (c : Coll) : Nat := 4 * (c.g.l1 + c.g.l2 + c.g.l3) + 8

/-- Whether every stack that a collective touches, or in which it journals, serves (R350). -/
def State.collUp (s : State) (c : Coll) : Bool :=
  match s.pair with
  | none => true
  | some (im, cfg) =>
    let t := collTouch im c.d (some (c.g, c.me))
    let j := cfg.opt.journal c.die
    let perm := if c.d.kind = 6 then
        ((permTables im s.dies c.g c.topo.self c.d.group (s.permOrd c)).filter fun e => e.2.peer == c.me).map fun e =>
          (e.2.daddr, e.2.len)
      else []
    (t.reads ++ t.writes ++ perm ++ (if c.d.comp || c.d.kind == 6 then [j] else [])).all fun r =>
      r.2 == 0 || s.rangeUp r.1 r.2

/-- A collective runs as far as it can, over the stores as strikes have left them; every reader checks parity as it
reads (R722), and the CX its arithmetic (R723). -/
def State.runCx (s : State) (c : Coll) (o : HwObs) (step : State → Coll → State × Bool) (fuel : Nat) : State :=
  ((s.strikes o).runHops c.die c.slot step fuel).observe c.eng c.k.step [] o.residue

/-- Whether the op of a slot must wait for the steps before its own to commit: one that journals does (R605, R611). -/
def State.journalFree (s : State) (c : Coll) : Bool :=
  !(c.d.comp || c.d.kind == 6) || match s.cur with
    | some (_, x) => x.steps.head?.any fun t => t.no == c.k.step
    | none => false

/-- A collective of a kind advances as far as it can. -/
def runColl (die : Fin 4) (slot : Fin 4) (kind : Nat) (o : HwObs) (step : State → Coll → State × Bool) (s : State) : Out :=
  guardUnit (die.val < s.dies)
    (match s.coll die.val slot.val with
     | none => .next s
     | some c =>
       if c.k.gnorm || c.k.done || c.d.kind != kind || !s.journalFree c || !s.collUp c then .next s
       else .next (s.runCx c o step c.fuel))

/-- ALL_REDUCE (R547-R558). -/
def execAllReduce (die slot : Fin 4) (o : HwObs) (s : State) : Out := runColl die slot 1 o State.reduceStep s

/-- REDUCE_SCATTER (R547-R558). -/
def execReduceScatter (die slot : Fin 4) (o : HwObs) (s : State) : Out := runColl die slot 2 o State.reduceStep s

/-- ALL_GATHER (R553). -/
def execAllGather (die slot : Fin 4) (o : HwObs) (s : State) : Out := runColl die slot 3 o State.gatherStep s

/-- BROADCAST (R553). -/
def execBroadcast (die slot : Fin 4) (o : HwObs) (s : State) : Out := runColl die slot 4 o State.castStep s

/-! ## BARRIER (R553) -/

/-- A member's issue of a BARRIER becomes known to the other dies of the package that have issued it: the op in the same
place among the ops of the group (R553). -/
def State.meetBarrier (s : State) (c : Coll) : State :=
  (List.range s.dies).foldl (fun (a : State) d =>
    if d = c.die then a
    else (List.range 4).foldl (fun (b : State) i =>
      match b.coll d i with
      | none => b
      | some e =>
        if e.d.kind ≠ 5 ∨ e.d.group ≠ c.d.group ∨ e.k.ord ≠ c.k.ord ∨ e.k.step ≠ c.k.step ∨ e.k.gnorm
            ∨ e.k.seenRanks.contains c.me then b
        else
          let b := b.setSlot d i { e.k with seenRanks := insNat c.me e.k.seenRanks }
          b.modSlotOf c fun x => { x with seenRanks := insNat e.me x.seenRanks }) a) s

/-- A BARRIER completes once every member has issued it. -/
def State.endBarrier (s : State) (die i : Nat) : State :=
  match s.coll die i with
  | none => s
  | some c =>
    if c.d.kind = 5 ∧ !c.k.gnorm ∧ !c.k.done ∧ (List.range c.g.p).all c.k.seenRanks.contains then s.finishSlot die i else s

/-- BARRIER (R553): `issued` are the members on other packages known over the links to have issued it. -/
def execBarrier (die slot : Fin 4) (issued : List Nat) (s : State) : Out :=
  guardUnit (die.val < s.dies)
    (match s.coll die.val slot.val with
     | none => .next s
     | some c =>
       if c.k.gnorm || c.k.done || c.d.kind != 5 then .next s
       else
         let s := s.modSlotOf c fun x => { x with seenRanks :=
           (issued.filter fun r => c.g.vecOf r != c.topo.self).foldl (fun a r => insNat r a) (insNat c.me x.seenRanks) }
         let s := s.meetBarrier c
         .next ((List.range s.dies).foldl (fun (a : State) d =>
           (List.range 4).foldl (fun (b : State) i => b.endBarrier d i) a) s))

/-! ## Blocks of PERMUTE and the all-to-alls (R543-R546, R562-R570) -/

/-- A block header's fields (R543). -/
structure BlkHdr where
  src : Nat
  dst : Nat
  kind : Nat
  daddr : Nat
  len : Nat
  deriving DecidableEq, Repr

/-- The fields of 16 bytes. -/
def blkHdr (b : Bytes) : BlkHdr :=
  let v := fld b 0 16
  { src := bits v 16 0, dst := bits v 33 17, kind := bits v 35 34, daddr := bits v 95 48, len := bits v 127 96 }

/-- The 16 bytes of a header. -/
def BlkHdr.bytes (h : BlkHdr) : Bytes :=
  leBytes 16 (h.src + 2 ^ 17 * h.dst + 2 ^ 34 * h.kind + 2 ^ 48 * h.daddr + 2 ^ 96 * h.len)

/-- A block sent on its way from this member (R544). -/
def State.sendBlock (s : State) (c : Coll) (h : BlkHdr) (data : Bytes) : State :=
  match c.g.nextHop c.me h.dst with
  | none => s
  | some k => s.sendRank c k (h.bytes ++ data)

/-- The sources from which blocks can reach this member, each once. -/
def Coll.sources (c : Coll) : List Nat :=
  let ks := ([1, 2, 3].filter fun i => decide (1 < c.g.level i)).flatMap fun i =>
    let p := digit (c.g.digits c.me) i
    [c.g.ringMember c.me i (p + 1), c.g.ringMember c.me i (p + c.g.level i - 1)]
  (ks.map c.srcOf).foldl (fun a x => if a.contains x then a else a ++ [x]) []

/-- The bytes of a block that a stream's first bytes announce. -/
def blkBytes (b : Bytes) : Nat := if b.length < 16 then 16 else 16 + (blkHdr b).len

/-- The blocks that a member of a PERMUTE holds until it has those of its round; `fuel` bounds their number. -/
def blocksIn : Nat → Bytes → List (BlkHdr × Bytes)
  | 0, _ => []
  | fuel + 1, b =>
    if b.length < 16 then []
    else
      let h := blkHdr b
      (h, slice b 16 h.len) :: blocksIn fuel (b.drop (16 + h.len))

/-- The blocks that a collective's slot holds (R569). -/
def State.staged (s : State) (c : Coll) : List (BlkHdr × Bytes) :=
  if c.d.kind ≠ 6 then []
  else match s.cxSlot c.die c.slot with
    | some k => blocksIn k.lanes.length k.lanes
    | none => []

/-- STAGE space in use: the blocks that are arriving over links, and those that wait for their round (R545, R569). -/
def State.stageUsed (s : State) (c : Coll) : Nat :=
  sumNat (c.sources.map fun src =>
    if src < 4 then 0
    else
      let b := tget [] (s.cxAt c.die).intStream (c.key src)
      if b.isEmpty then 0 else blkBytes b)
  + sumNat (((s.staged c).filter fun b => b.1.src != c.me).map fun b => 16 + b.1.len)

/-- Data of a block in arrival is taken from its link while the STAGE region has room for the block (R545). -/
def State.pullBlock (s : State) (c : Coll) (src : Nat) : State :=
  if src < 4 then s
  else
    let k := c.key src
    let rk := rxKey (src - 4) c.d.vc c.d.cls
    let b := tget [] (s.cxAt c.die).intStream k
    let head := if b.isEmpty then s.peekRx rk 16 else b
    if head.length < 16 then s
    else
      let size := blkBytes head
      if b.isEmpty ∧ c.d.stageBufs * 4096 < s.stageUsed c + size then s
      else
        let r := s.takeRx c rk (size - b.length)
        r.1.modCx c.die fun x => { x with intStream := tset [] x.intStream k (b ++ r.2) }

/-- A whole block from a source, if one has arrived that may be taken. -/
def State.popBlock (s : State) (c : Coll) (may : State → BlkHdr → Bool) (src : Nat) : Option (State × BlkHdr × Bytes) :=
  let k := c.key src
  let b := tget [] (s.cxAt c.die).intStream k
  let size := blkBytes b
  if b.length < 16 ∨ b.length < size ∨ !may s (blkHdr b) then none
  else some (s.modCx c.die fun x => { x with intStream := tset [] x.intStream k (b.drop size) }, blkHdr b,
             (b.take size).drop 16)

/-- The number of a block of an all-to-all. -/
def blkId (h : BlkHdr) : Nat := (h.src * 2 ^ 17 + h.dst) * 2 ^ 16 + bits h.daddr 15 0

/-- The members between two members on a block's way (R544). -/
def Group.between (g : Group) (dst : Nat) : Nat → Nat → List Nat
  | 0, _ => []
  | fuel + 1, k =>
    match g.nextHop k dst with
    | none => []
    | some n => if n = dst then [] else n :: g.between dst fuel n

/-- Blocks of an all-to-all that reach this member from others or pass through it. -/
def Coll.blocksDue (c : Coll) (epm : Nat) : Nat :=
  let others := (List.range c.g.p).filter (· != c.me)
  let through := sumNat (others.map fun a =>
    (others.filter fun b => b != a && (c.g.between b (c.hops) a).contains c.me).length)
  (others.length + through) * epm

/-- Entries of a routing table (R562): token and expert. -/
def routeEnts (b : Bytes) (n : Nat) : List (Nat × Nat) := (List.range n).map fun i => (fld b (8 * i) 4, fld b (8 * i + 4) 2)

/-- The parameters of an all-to-all: C, EPM, row bytes and the number of experts. -/
structure A2a where
  cap : Nat
  epm : Nat
  row : Nat
  ne : Nat
  deriving DecidableEq, Repr

/-- P1 and P2 of a descriptor (R533). -/
def Coll.a2a (c : Coll) : A2a :=
  let e := c.d.p1 / 65536
  { cap := c.d.p1 % 65536, epm := e, row := c.d.p2 % 65536 * 64, ne := c.g.p * e }

/-- The indices of the entries of an expert that are kept, and those dropped (R563). -/
def keptOf (es : List (Nat × Nat)) (cap e : Nat) : List Nat × List Nat :=
  let l := (es.zipIdx.filter fun p => p.1.2 == e).map (·.2)
  (l.take cap, l.drop cap)

/-- The routing table of a collective. -/
def State.routes (s : State) (c : Coll) : State × List (Nat × Nat) :=
  let r := s.physRead c.who (some c.k.step) c.d.aux (8 * c.d.count)
  (r.1, routeEnts r.2 c.d.count)

/-- Rows of memory, joined. -/
def State.readRows (s : State) (c : Coll) (addrs : List Nat) (row : Nat) : State × Bytes :=
  addrs.foldl (fun (a : State × Bytes) p =>
    let r := a.1.physRead c.who (some c.k.step) p row
    (r.1, a.2 ++ r.2)) (s, [])

/-- The block of expert `e` that a dispatch forms, padded with zero rows (R564). -/
def State.dispatchBlock (s : State) (c : Coll) (p : A2a) (es : List (Nat × Nat)) (e : Nat) : State × Bytes :=
  let kept := (keptOf es p.cap e).1
  let r := s.readRows c (kept.map fun i => c.d.src + (es.getD i (0, 0)).1 * p.row) p.row
  (r.1, slice r.2 0 (p.cap * p.row))

/-- A block of a dispatch is written at its host (R564). -/
def State.putDispatch (s : State) (c : Coll) (p : A2a) (src j : Nat) (data : Bytes) : State :=
  s.physWrite c.who (some c.k.step) (c.d.dst + (j * c.g.p + src) * p.cap * p.row) data

/-- A returned block's rows are written at their sender (R565). -/
def State.putCombine (s : State) (c : Coll) (p : A2a) (es : List (Nat × Nat)) (e : Nat) (data : Bytes) : State :=
  ((keptOf es p.cap e).1.zipIdx).foldl (fun (a : State) q =>
    a.physWrite c.who (some c.k.step) (c.d.dst + q.1 * p.row) (slice data (q.2 * p.row) p.row)) s

/-- A block of PERMUTE is written, after what it overwrites is journalled (R570, R606, R915). -/
def State.putPermute (s : State) (c : Coll) (addr : Nat) (data : Bytes) : State :=
  match s.pair with
  | none => s
  | some (_, cfg) =>
    let done := ((s.ueAt c.die).recs.filter (·.cx)).map fun r => (r.addr, r.len)
    let s := (minusRanges [(addr, data.length)] done).foldl (fun (a : State) r =>
      ((runLens r.2).zipIdx).foldl (fun (b : State) q =>
        b.journal cfg.opt c.die true 3 c.k.step (r.1 + 16384 * q.2) q.1) a) s
    s.physWrite c.who (some c.k.step) addr data

/-- A block that has arrived is written here, or held for its round (R569), or sent on, and noted. -/
def State.takeBlock (s : State) (c : Coll) (es : List (Nat × Nat)) (h : BlkHdr) (data : Bytes) : State :=
  let p := c.a2a
  let s := if h.dst ≠ c.me then s.sendBlock c h data
    else match h.kind with
      | 0 => s.putDispatch c p h.src h.daddr data
      | 1 => s.putCombine c p es (h.src * p.epm + h.daddr) data
      | _ => s.modSlotOf c fun x => { x with lanes := x.lanes ++ h.bytes ++ data }
  s.modSlotOf c fun x =>
    { x with seenRanks := if h.kind = 2 then x.seenRanks ++ [if h.dst = c.me then h.src else 2 ^ 17]
                          else insNat (blkId h) x.seenRanks }

/-- Blocks that have arrived are taken, one after another; `fuel` bounds their number. -/
def State.takeBlocks (s : State) (c : Coll) (es : List (Nat × Nat)) (may : State → BlkHdr → Bool) : Nat → State
  | 0 => s
  | fuel + 1 =>
    let s := c.sources.foldl (fun (a : State) src => a.pullBlock c src) s
    match c.sources.findSome? fun src => s.popBlock c may src with
    | none => s
    | some (t, h, data) => (t.takeBlock c es h data).takeBlocks c es may fuel

/-- Blocks that can be waiting for a collective. -/
def State.blockFuel (s : State) (c : Coll) : Nat :=
  c.sources.length + sumNat (c.sources.map fun src =>
    (tget [] (s.cxAt c.die).intStream (c.key src)).length
    + (if src < 4 then 0 else sumNat ((tget [] s.net.rx (rxKey (src - 4) c.d.vc c.d.cls)).map fun k => k.len)))

/-- An all-to-all at its first hop: every block of this member is formed and sent, its own kept here, zero rows and drop
counts written (R563-R566). Every source byte is read before any is written (R535). -/
def State.a2aStart (s : State) (c : Coll) (dispatch : Bool) : State :=
  let p := c.a2a
  let r := s.routes c
  let es := r.2
  let oor := es.any fun e => decide (p.ne ≤ e.2) && e.2 != 0xFFFF
  let s := if oor then r.1.modCx c.die fun x => { x with expOor := true } else r.1
  let experts := List.range p.ne
  let blocks : State × List (BlkHdr × Bytes) :=
    if dispatch then
      experts.foldl (fun (a : State × List (BlkHdr × Bytes)) e =>
        let b := a.1.dispatchBlock c p es e
        (b.1, a.2 ++ [({ src := c.me, dst := e / p.epm, kind := 0, daddr := e % p.epm, len := b.2.length }, b.2)])) (s, [])
    else
      ((List.range c.g.p).flatMap fun q => (List.range p.epm).map fun j => (q, j)).foldl
        (fun (a : State × List (BlkHdr × Bytes)) qj =>
          let b := a.1.physRead c.who (some c.k.step) (c.d.src + (qj.2 * c.g.p + qj.1) * p.cap * p.row) (p.cap * p.row)
          (b.1, a.2 ++ [({ src := c.me, dst := qj.1, kind := 1, daddr := qj.2, len := b.2.length }, b.2)])) (s, [])
  let s := blocks.2.foldl (fun (a : State) b => if b.1.dst = c.me then a else a.sendBlock c b.1 b.2) blocks.1
  let s := (blocks.2.filter fun b => b.1.dst == c.me).foldl (fun (a : State) b =>
    if dispatch then a.putDispatch c p c.me b.1.daddr b.2 else a.putCombine c p es (c.me * p.epm + b.1.daddr) b.2) s
  let drops := experts.map fun e => (keptOf es p.cap e).2.length
  let s := if dispatch then
      (s.physWrite c.who (some c.k.step) c.d.dropv (drops.flatMap (leBytes 4))).modCx c.die fun x =>
        { x with drops := satAdd32 x.drops (sumNat drops) }
    else
      let kept := experts.flatMap fun e => (keptOf es p.cap e).1
      ((List.range c.d.count).filter fun i => !kept.contains i).foldl (fun (a : State) i =>
        a.physWrite c.who (some c.k.step) (c.d.dst + i * p.row) (List.replicate p.row 0#8)) s
  s.modSlotOf c fun x => { x with hop := 1 }

/-- One hop of an all-to-all. -/
def State.a2aStep (dispatch : Bool) (s : State) (c : Coll) : State × Bool :=
  if c.k.hop = 0 then (s.a2aStart c dispatch, true)
  else
    let r := s.routes c
    let s := r.1.takeBlocks c r.2 (fun _ _ => true) (r.1.blockFuel c)
    match s.cxSlot c.die c.slot with
    | none => (s, false)
    | some k => if c.blocksDue c.a2a.epm ≤ k.seenRanks.length then (s.finishSlot c.die c.slot, true) else (s, false)

/-- A2A_DISPATCH (R562-R567). -/
def execA2aDispatch (die slot : Fin 4) (o : HwObs) (s : State) : Out := runColl die slot 7 o (State.a2aStep true) s

/-- A2A_COMBINE (R562-R567). -/
def execA2aCombine (die slot : Fin 4) (o : HwObs) (s : State) : Out := runColl die slot 8 o (State.a2aStep false) s

/-- The permute table of a collective. -/
def State.permEnts (s : State) (c : Coll) : State × List PermEnt :=
  let r := s.physRead c.who (some c.k.step) c.d.aux (32 * c.d.count)
  (r.1, (List.range c.d.count).map (permEnt r.2))

/-- The blocks of a PERMUTE that the tables of its members name: those of this package's dies as the image holds them, and
`remote` for the members on other packages (R568; assumption log 18). -/
def State.permFlows (s : State) (c : Coll) (remote : List PermFlow) : List PermFlow :=
  match s.pair with
  | none => []
  | some (im, _) =>
    ((permTables im s.dies c.g c.topo.self c.d.group (s.permOrd c)).map fun e =>
      ({ src := e.1, dst := e.2.peer, round := e.2.round, blocks := 1 } : PermFlow))
    ++ remote.filter fun f => c.g.vecOf f.src != c.topo.self

/-- The blocks that a member sends to this one up to a round. -/
def Coll.flowsTo (c : Coll) (fs : List PermFlow) (src round : Nat) : Nat :=
  sumNat ((fs.filter fun f => f.src == src && f.dst == c.me && decide (f.round ≤ round)).map (·.blocks))

/-- The blocks of other members that pass through this one (R544). -/
def Coll.flowsBy (c : Coll) (fs : List PermFlow) : Nat :=
  sumNat ((fs.filter fun f => f.src != c.me && f.dst != c.me && (c.g.between f.dst c.hops f.src).contains c.me).map
    (·.blocks))

/-- What a PERMUTE has noted of a rank, or of the blocks that it has sent on (2^17). -/
def State.permSeen (s : State) (c : Coll) (r : Nat) : Nat :=
  match s.cxSlot c.die c.slot with
  | some k => (k.seenRanks.filter (· == r)).length
  | none => 0

/-- Whether a member takes a block that has arrived (R569): one that goes on, or one of its current round or of a round
before. While the sources of a round are not read, `round` is none. -/
def State.permMay (c : Coll) (fs : List PermFlow) (round : Option Nat) (s : State) (h : BlkHdr) : Bool :=
  h.dst != c.me || round.any fun q => decide (s.permSeen c h.src < c.flowsTo fs h.src q)

/-- A round of a PERMUTE starts: every source is read, blocks leave, and this member's own wait to be written (R569). -/
def State.permRound (s : State) (c : Coll) (es : List PermEnt) : State :=
  es.foldl (fun (a : State) e =>
    let r := a.physRead c.who (some c.k.step) e.saddr e.len
    let h : BlkHdr := { src := c.me, dst := e.peer, kind := 2, daddr := e.daddr, len := e.len }
    if e.peer ≠ c.me then r.1.sendBlock c h r.2
    else r.1.modSlotOf c fun x => { x with lanes := x.lanes ++ h.bytes ++ r.2, seenRanks := x.seenRanks ++ [c.me] }) s

/-- A round ends: its blocks are written, sender by sender (R569). -/
def State.permWrite (s : State) (c : Coll) : State :=
  (sortBy (fun (b : BlkHdr × Bytes) => b.1.src) (s.staged c)).foldl (fun (a : State) b => a.putPermute c b.1.daddr b.2)
    (s.modSlotOf c fun x => { x with lanes := [] })

/-- One hop of a PERMUTE (R569). The hop number is twice the round, and one more once the round's sources are read. A
round starts when the round before it is written; it ends when every block of it is here. The op is done once the rounds
are, and once the blocks that pass through this member have gone on. -/
def State.permStep (remote : List PermFlow) (s : State) (c : Coll) : State × Bool :=
  let t := s.permEnts c
  let fs := t.1.permFlows c remote
  let at_ := c.k.hop / 2
  if c.k.hop % 2 = 0 then
    let rounds := t.2.map (·.round) ++ (fs.filter fun f => f.dst == c.me).map (·.round)
    match (rounds.filter fun q => decide (at_ ≤ q)).foldl (fun a q => some (a.elim q (min q))) none with
    | some q =>
      (((t.1.permRound c (t.2.filter fun e => e.round == q))).modSlotOf c fun x => { x with hop := 2 * q + 1 }, true)
    | none =>
      let s := t.1.takeBlocks c [] (State.permMay c fs none) (t.1.blockFuel c)
      if c.flowsBy fs ≤ s.permSeen c (2 ^ 17) then (s.finishSlot c.die c.slot, true) else (s, false)
  else
    let s := t.1.takeBlocks c [] (State.permMay c fs (some at_)) (t.1.blockFuel c)
    if (fs.filter fun f => f.dst == c.me).all fun f => decide (c.flowsTo fs f.src at_ ≤ s.permSeen c f.src) then
      ((s.permWrite c).modSlotOf c fun x => { x with hop := 2 * (at_ + 1) }, true)
    else (s, false)

/-- PERMUTE (R543-R546, R568-R570, R915); `remote` is what the tables of members on other packages send (assumption
log 18). -/
def execPermute (die slot : Fin 4) (remote : List PermFlow) (o : HwObs) (s : State) : Out :=
  guardUnit (die.val < s.dies)
    (match s.coll die.val slot.val with
     | none => .next s
     | some c =>
       if c.k.gnorm || c.k.done || c.d.kind != 6 || !s.journalFree c || !s.collUp c then .next s
       else .next (s.runCx c o (State.permStep remote) (2 * (c.d.count + remote.length + (s.permFlows c remote).length) + 4)))

/-! ## Issue (R272, R525-R528, R551, R558, R559, R572) -/

/-- The lowest free op slot of a CX. -/
def State.freeCx (s : State) (die : Nat) : Option Nat := (List.range 4).find? fun i => (s.cxSlot die i).isNone

/-- How many CX_RUN ops of the group stand before an op in its die's CX stream. -/
def State.cxOrd (s : State) (die group opSeq : Nat) : Nat :=
  match s.pair with
  | none => 0
  | some (im, _) =>
    (((im.dieWords die 5).take opSeq).filter fun w =>
      opcOf w == 0x60 && match im.constAt (bits w 95 48) 64 with
        | some b => (collDesc b).group == group
        | none => false).length

/-- An op slot as its op issues. -/
def newSlot (desc : BitVec 512) (gnorm : Bool) (group : Nat) (step : BitVec 64) (opSeq ord : Nat) (srb : BitVec 64)
    (fslot : BitVec 8) : CxSlot :=
  { desc := desc, gnorm := gnorm, group := group, step := step, opSeq := opSeq, ord := ord, srb := srb, fslot := fslot, hop := 0,
    acc := [], lanes := [], seenRanks := [], flags := 0, normAdded := false, done := false, ticks := 0, total := 0 }

/-- CX_RUN (R525-R527, R551, R558, R572): the descriptor takes an op slot, and SRB rises by its COUNT. -/
def execCxRun (die : Fin 4) (h : OpHdr) (caddr : BitVec 48) (s : State) : Out :=
  guardUnit (die.val < s.dies)
    (issue s (dieEngOf die .cx) (.cxRun die h caddr) h noObs (fun _ _ => (s.freeCx die.val).isSome && s.rangeUp caddr.toNat 64) fun s r n =>
      let q := s.physRead (.engine (dieEngOf die .cx)) (some n) caddr.toNat 64
      let d := collDesc q.2
      let i := (s.freeCx die.val).getD 0
      let k := newSlot (BitVec.ofNat 512 (leNat q.2)) false d.group n r.opIdx (s.cxOrd die.val d.group r.opIdx) r.srb h.fslot
      let s := (q.1.setSlot die.val i k).modCx die.val fun x =>
        { x with normTurn := if d.norm then x.normTurn ++ [r.opIdx] else x.normTurn }
      (s, { r with srb := r.srb + BitVec.ofNat 64 d.count }, { issuedOp 0x60 h n with done := false, slot := some i }))

/-- CX_FENCE (R525, R528): no later op issues until every earlier one has completed. -/
def execCxFence (die : Fin 4) (h : OpHdr) (s : State) : Out :=
  guardUnit (die.val < s.dies)
    (issue s (dieEngOf die .cx) (.cxFence die h) h noObs (fun _ _ => true) fun s r n => (s, r, issuedOp 0x62 h n))

/-- The op slot of a die's CX_GNORM. -/
def State.gnormSlot (s : State) (die : Nat) : Option (Nat × CxSlot) :=
  (List.range 4).findSome? fun i => match s.cxSlot die i with
    | some k => if k.gnorm then some (i, k) else none
    | none => none

/-- The accumulators of a group's members in rank order (R559): this package's own, and `remote` for the others, in
order; none while a die of the package has not come to its CX_GNORM or an accumulator is not known. -/
def State.gnormTerms (s : State) (self : Vec3) (n : BitVec 64) : List GrpMember → List (BitVec 48) → Option (List (BitVec 48))
  | [], _ => some []
  | m :: ms, remote =>
    if ({ x := m.x, y := m.y, z := m.z } : Vec3) = self then
      let k := s.cxAt m.die
      let ready := (match s.gnormSlot m.die with
          | some q => q.2.step == n
          | none => false) || ((s.stepAt n).any fun t => t.gnDone.contains m.die)
      if ready then (s.gnormTerms self n ms remote).map fun l => (if bankOf n then k.nacc1 else k.nacc0) :: l else none
    else match remote with
      | [] => none
      | v :: r => (s.gnormTerms self n ms r).map fun l => v :: l

/-- A W48 sum in order of codes, and its flags (R138, R559). -/
def sumCodes : List (BitVec 48) → BitVec 48 × BitVec 4
  | [] => (0#48, 0#4)
  | v :: r => r.foldl (fun a x => let b := addW48F a.1 (w48 x); (b.1, a.2 ||| b.2)) (v, flagIf (w48 v).isNan nanSeen)

/-- G of R559: sums over d1, then d2, then d3, each in ascending order with a W48 rounding after each add; and its
flags. -/
def gnormSum (g : Group) (ns : List (BitVec 48)) : BitVec 48 × BitVec 4 :=
  let sumOver (n : Nat) (f : Nat → BitVec 48 × BitVec 4) : BitVec 48 × BitVec 4 :=
    let ts := (List.range n).map f
    let r := sumCodes (ts.map (·.1))
    (r.1, orFlags (ts.map (·.2)) ||| r.2)
  sumOver g.l3 fun d3 => sumOver g.l2 fun d2 => sumOver g.l1 fun d1 => (ns.getD (g.rankAt (d1, d2, d3)) 0, 0#4)

/-- A die whose CX_GNORM waits receives G once every accumulator is known (R560). -/
def State.formNorm (s : State) (die : Nat) (remote : List (BitVec 48)) : State :=
  match s.gnormSlot die, s.cur.bind fun c => c.2.cfg with
  | some (i, k), some cfg =>
    if k.done then s
    else (match cfg.groups[k.group]? with
      | none => s
      | some g =>
        match s.gnormTerms cfg.topo.self k.step g.members remote with
        | none => s
        | some ns =>
          let v := gnormSum g ns
          let s := s.modCx die fun x => if bankOf k.step then { x with gnorm1 := v.1 } else { x with gnorm0 := v.1 }
          (s.setSlot die i { k with flags := v.2 }).finishSlot die i)
  | _, _ => s

/-- CX_GNORM (R525, R559-R561): it issues after every earlier op of its stream, and every die of the package that has
come to it receives G; `remote` are the accumulators of the members on other packages, in rank order. -/
def execCxGnorm (die : Fin 4) (h : OpHdr) (group : BitVec 6) (remote : List (BitVec 48)) (s : State) : Out :=
  guardUnit (die.val < s.dies)
    (let deliver (s : State) : State := (List.range s.dies).foldl (fun (a : State) d => a.formNorm d remote) s
     if (s.gnormSlot die.val).isSome then .next (deliver s)
     else match issue s (dieEngOf die .cx) (.cxGnorm die h group []) h noObs (fun r _ => r.issued.isEmpty && (s.freeCx die.val).isSome) (fun s r n =>
         let i := (s.freeCx die.val).getD 0
         (s.setSlot die.val i (newSlot 0 true group.toNat n r.opIdx 0 r.srb h.fslot), r,
          { issuedOp 0x61 h n with done := false, slot := some i })) with
       | .next t => .next (if (t.gnormSlot die.val).isSome then deliver t else t)
       | out => out)

/-! ## Timers (R572-R576, R578) -/

/-- CX_TO_LOG of an op (R578). -/
def toLogOf (k : CxSlot) : BitVec 64 :=
  BitVec.ofNat 64 (k.opSeq % 2 ^ 24 + 2 ^ 24 * ((if k.gnorm then 0xF else (slotDesc k.desc).kind) % 16)
    + 2 ^ 28 * (k.group % 64) + 2 ^ 34 * (k.total % 2 ^ 29) + 2 ^ 63)

/-- COLLECTIVE_TIMEOUT (R572-R576): the timer of an op that has not completed has run out. -/
def execCollectiveTimeout (die slot : Fin 4) (s : State) : Out :=
  guardUnit (die.val < s.dies)
    (match s.cxSlot die.val slot.val, s.cur.bind fun c => c.2.cfg with
     | some k, some cfg =>
       if k.done ∨ (k.ticks < cfg.cto ∧ k.total < 4 * cfg.cto) then .next s
       else
         let log := toLogOf k
         let s := s.modCx die.val fun x =>
           { x with timeout := true, toLog := if x.toLog.getLsbD 63 then x.toLog else log }
         let s := s.setSlot die.val slot.val { k with ticks := 0, total := 0 }
         .next (s.wire (mkReportAll 7 2 (unitLocus die.val 1) 0))
     | _, _ => .next s)

end Sys2Proof.Machine
end

