-- ==== Sys2Proof/Machine/ImageCheck.lean ====
section
/-! DEFINITION. The checks of a schedule image (R266-R270, R687): its header and section table, its streams and tables,
and every rule that rejects an image at LOAD_IMAGE alone. -/

namespace Sys2Proof.Machine

/-! ## Rejections (R663) -/

/-- DETAIL of a fault at an op, a descriptor or an entry of a section. -/
def imgErr (sec idx : Nat) : Nat := sec + 2 ^ 32 * idx

/-- DETAIL of a fault in the image header or the section table. -/
def hdrErr (off : Nat) : Nat := 0xFFFFFFFF + 2 ^ 32 * off

/-- DETAIL of a required stream or table that is missing. -/
def missErr (die eng core : Nat) : Nat := 0xFFFFFFFE + 2 ^ 32 * (die + 256 * eng + 65536 * core)

/-- A check that names its own DETAIL. -/
def ckAt (ok : Bool) (detail : Nat) : Option Nat := if ok then none else some detail

/-! ## Byte ranges -/

/-- A range (first byte, end) joined to a rising list of ranges that do not meet. -/
def addRange : List (Nat × Nat) → Nat → Nat → List (Nat × Nat)
  | [], lo, hi => [(lo, hi)]
  | (a, b) :: r, lo, hi =>
    if hi < a then (lo, hi) :: (a, b) :: r
    else if b < lo then (a, b) :: addRange r lo hi
    else addRange r (min a lo) (max b hi)

/-- Ranges (start, length) as a rising list of ranges (first byte, end) that do not meet. -/
def mergeRanges (l : List (Nat × Nat)) : List (Nat × Nat) :=
  l.foldl (fun a r => if r.2 = 0 then a else addRange a r.1 (r.1 + r.2)) []

/-- Whether merged ranges hold every byte of a range (start, length). -/
def holds (m : List (Nat × Nat)) (r : Nat × Nat) : Bool :=
  r.2 == 0 || m.any fun e => decide (e.1 ≤ r.1) && decide (r.1 + r.2 ≤ e.2)

/-- Whether merged ranges share a byte. -/
def mergedMeet (a b : List (Nat × Nat)) : Bool :=
  a.any fun x => b.any fun y => decide (x.1 < y.2) && decide (y.1 < x.2)

/-- Whether ranges (start, length) of one list share a byte with one another. -/
def selfMeet (l : List (Nat × Nat)) : Bool :=
  decide (sumNat ((mergeRanges l).map fun e => e.2 - e.1) < sumNat (l.map (·.2)))

/-! ## Header and section table (R266-R269) -/

/-- A section-table entry (R267). -/
def sectionOf (e : Bytes) : Section :=
  { kind := fld e 0 2, die := fld e 2 1, engine := fld e 3 1, core := fld e 4 1, offset := fld e 8 8,
    length := fld e 16 8, dest := fld e 24 8 }

/-- The sections of an image. -/
def imgTable (b : Bytes) : List Section :=
  let n := min (fld b 0x18 4) (b.length / 32)
  (chunks 32 n (slice b 0x40 (32 * n))).map sectionOf

/-- The fault of a section-table entry, as the offset of the field in the entry. -/
def sectionErr (dies len : Nat) (raw : Bytes) : Option Nat :=
  let t := sectionOf raw
  let core := t.kind == 2 || (t.kind == 1 && decide (t.engine ≤ 3))
  firstErr
    [ckAt (decide (1 ≤ t.kind) && decide (t.kind ≤ 3)) 0,
     ckAt (if t.kind = 3 then t.die == 0xFF else decide (t.die < dies)) 2,
     ckAt (if t.kind = 1 then decide (t.engine ≤ 5) else t.engine == 0xFF) 3,
     ckAt (if core then decide (t.core < 96) else t.core == 0xFF) 4, ckAt (zeroAt raw 5 3) 5,
     ckAt (t.offset % 64 == 0 && decide (t.offset + t.length + 48 ≤ len)) 8,
     ckAt (if t.kind = 1 then t.length % 16 == 0 && t.length != 0 && decide (t.length / 16 ≤ 2 ^ 28)
       else t.kind != 2 || t.length % 64 == 0) 16,
     ckAt (t.kind == 3 || t.dest == 0) 24]

/-- The header's and the section table's faults. -/
def imgHeaderErr (dies : Nat) (b : Bytes) : Option Nat :=
  let n := fld b 0x18 4
  firstErr
    [ckAt (fld b 0 4 == 0x4D495154) (hdrErr 0), ckAt (fld b 4 2 == 1) (hdrErr 4),
     ckAt (fld b 7 1 == 0xA0 || fld b 7 1 == 0xB0) (hdrErr 7), ckAt (fld b 0x10 8 == b.length) (hdrErr 0x10),
     ckAt (decide (0x40 + 32 * n + 48 ≤ b.length)) (hdrErr 0x18), ckAt (zeroAt b 0x1C 4) (hdrErr 0x1C)]
  <|> firstErr ((chunks 32 n (slice b 0x40 (32 * n))).zipIdx.map fun p =>
        (sectionErr dies b.length p.1).map fun o => hdrErr (0x40 + 32 * p.2 + o))

/-- The streams and tables that R268 requires: KIND, DIE, ENGINE and CORE. -/
def required (dies : Nat) : List (Nat × Nat × Nat × Nat) :=
  (List.range dies).flatMap fun d =>
    ((List.range 96).flatMap fun c => [(1, d, 0, c), (1, d, 1, c), (1, d, 2, c), (1, d, 3, c), (2, d, 0xFF, c)])
    ++ [(1, d, 4, 0xFF), (1, d, 5, 0xFF)]

/-- What a section serves. -/
def Section.role (t : Section) : Nat × Nat × Nat × Nat := (t.kind, t.die, t.engine, t.core)

/-- The fault of the set of sections: one that is missing, or one that stands twice. -/
def setErr (dies : Nat) (ts : List Section) : Option Nat :=
  firstErr ((required dies).map fun q => ckAt (ts.any fun t => t.role == q) (missErr q.2.1 q.2.2.1 q.2.2.2))
  <|> ((firstClash (fun (a b : Section) => a.kind != 3 && a.role == b.role) [] 0 ts).map fun i => hdrErr (0x40 + 32 * i))

/-! ## Streams -/

/-- One op stream with the index of its section and its ops. -/
structure Strm where
  sec : Nat
  eng : EngRef
  ops : List (Nat × Instr)
  deriving DecidableEq, Repr

/-- The engine of a stream section. -/
def Section.engRef (t : Section) : EngRef :=
  { die := Fin.ofNat 4 t.die, core := Fin.ofNat 96 (if t.engine ≤ 3 then t.core else 0),
    eng := match t.engine with
      | 0 => .ae
      | 1 => .ve
      | 2 => .me
      | 3 => .sync
      | 4 => .ue
      | _ => .cx }

/-- A stream, and the DETAIL of its first op that carries a reserved encoding or breaks R269. -/
def Img.strm (im : Img) (i : Nat) (t : Section) : Strm × Option Nat :=
  let q := decodeGo t.engRef 0 false (im.words t)
  ({ sec := i, eng := t.engRef, ops := q.1 },
   (q.2.map (imgErr i)) <|> (if q.2.isNone then (endFault q.1).map (imgErr i) else none))

/-- Every op stream of an image in the order of its section table. -/
def Img.strms (im : Img) : List (Strm × Option Nat) :=
  (im.sections.zipIdx.filter fun p => p.1.kind == 1).map fun p => im.strm p.2 p.1

/-- The stream of an engine. -/
def strmOf (ss : List Strm) (e : EngRef) : List (Nat × Instr) :=
  match ss.find? fun t => t.eng == e with
  | some t => t.ops
  | none => []

/-! ## What core ops touch (R220, R228, R239, R281, R286, R288, R298) -/

/-- Physical address of a core's scratchpad window (R321). -/
def spmWindow (e : EngRef) : Nat := 0x100010000000 + e.die.val * 2 ^ 32 + e.core.val * 0x400000

/-- Ranges moved to a window. -/
def shiftRanges (base : Nat) (l : List (Nat × Nat)) : List (Nat × Nat) := l.map fun r => (base + r.1, r.2)

/-! ## Array and vector streams (R168, R219, R224, R236, R243) -/

/-- The bank rows and column halves that a unit of a pass writes (R176): first row, rows, and the halves. -/
def unitRegion (p : PassF) (u m : Nat) : Nat × Nat × Bool × Bool :=
  let g := unitGeom p.pack.toNat p.orient u
  let first := if p.orient then g.r0 else g.c0
  let n := if p.orient then g.nr else g.nc
  (g.bankRow, m, first == 0, decide (64 < first + n))

/-- The term counts of both banks: entry 512 × bank + 2 × row + column half. -/
abbrev Terms := List Nat

/-- Term counts with those of a region changed by `f`. -/
def Terms.upd (t : Terms) (bank : Bool) (r : Nat × Nat × Bool × Bool) (f : Nat → Nat) : Terms :=
  t.zipIdx.map fun e =>
    let row := e.2 % 512 / 2
    let h := e.2 % 2
    if e.2 / 512 = b2n bank ∧ r.1 ≤ row ∧ row < r.1 + r.2.1 ∧ (if h = 0 then r.2.2.1 else r.2.2.2) then f e.1 else e.1

/-- The region of a VE op or a preload. -/
def rectOf (row0 : BitVec 8) (nrows : BitVec 9) (col0 wide : Bool) : Nat × Nat × Bool × Bool :=
  (row0.toNat, nrows.toNat, wide || !col0, wide || col0)

/-- The VE's ops on a bank, cut after each RELEASE: what the VE does in each period of ownership (R217). -/
def vePeriods (bank : Bool) : List (Nat × Instr) → List Instr → List (List Instr)
  | [], cur => [cur]
  | (_, i) :: r, cur =>
    match i with
    | .drain _ _ f _ =>
      if f.bank != bank then vePeriods bank r cur
      else if f.release then (cur ++ [i]) :: vePeriods bank r [] else vePeriods bank r (cur ++ [i])
    | .spill _ _ f _ =>
      if f.bank != bank then vePeriods bank r cur
      else if f.release then (cur ++ [i]) :: vePeriods bank r [] else vePeriods bank r (cur ++ [i])
    | _ => vePeriods bank r cur

/-- Term counts after the VE's ops of one period (R221, R223, R225). -/
def Terms.period (t : Terms) (bank : Bool) (l : List Instr) : Terms :=
  l.foldl (fun (t : Terms) i => match i with
    | .drain _ _ f _ => if f.clear then t.upd bank (rectOf f.row0 f.nrows f.col0 f.wide) (fun _ => 0) else t
    | .spill _ _ f _ => t.upd bank (rectOf f.row0 f.nrows f.col0 f.wide) (fun _ => 0)
    | _ => t) t

/-- What the scan of an AE stream holds: the loaded and the active stationary format, the periods of the VE that are
to come on each bank, the term counts, and the Exact accumulations that are open (first byte of the image row, terms). -/
structure AeScan where
  loaded : Option (BitVec 16)
  active : Option (BitVec 16)
  ve0 : List (List Instr)
  ve1 : List (List Instr)
  terms : Terms
  marrow : List (Nat × Nat)
  deriving DecidableEq, Repr

/-- The term counts after a pass (R202, R209, R223, R242). An Exact pass applies products to entries at its closing alone,
where it overwrites them; it keeps their count only where it also opens and adds the bank (assumption log 42). -/
def AeScan.count (a : AeScan) (p : PassF) : Terms :=
  if p.exactM && !p.cls then a.terms
  else
    let n := unitLen p.pack.toNat p.orient
    (passUnits p).zipIdx.foldl (fun (t : Terms) u =>
      t.upd p.bank (unitRegion p u.2 u.1.2) fun k => if p.acc && (!p.exactM || p.opn) then k + n else n) a.terms

/-- The open Exact accumulations after a pass; none where one closes or restores without having opened, or passes
2^28 terms (R236, R243). -/
def AeScan.marrowAfter (a : AeScan) (p : PassF) : Option (List (Nat × Nat)) :=
  if !p.exactM then some a.marrow
  else
    let rows := (List.range p.m.toNat).map fun m => 64 * p.mimg.toNat + m * 10240
    if p.opn then
      (if p.cls then some a.marrow
       else if rows.any fun r => a.marrow.any fun e => e.1 == r then none
       else some (a.marrow ++ rows.map fun r => (r, 128 + b2n p.acc)))
    else if !(rows.all fun r => a.marrow.any fun e => e.1 == r && decide (e.2 + 128 ≤ 2 ^ 28)) then none
    else if p.cls then some (a.marrow.filter fun e => !rows.contains e.1)
    else some (a.marrow.map fun e => if rows.contains e.1 then (e.1, e.2 + 128) else e)

/-- One AE op; none where it breaks R168, R224, R236 or R243. -/
def AeScan.op (a : AeScan) (i : Instr) : Option AeScan :=
  match i with
  | .aeLoad _ _ w _ _ => if a.loaded.isSome then none else some { a with loaded := some w }
  | .aePreload _ _ p _ =>
    some { a with terms := a.terms.upd p.bank (rectOf p.row0 p.nrows p.col0 p.wide) (fun _ => 0) }
  | .aePass _ _ p _ _ =>
    let a := if p.swap then { a with active := a.loaded, loaded := none } else a
    (match a.active with
     | none => none
     | some w =>
       let t := a.count p
       if (passPair p w).isNone || t.any (fun k => decide (8192 < k)) then none
       else
         match a.marrowAfter p with
         | none => none
         | some m =>
           let a := { a with terms := t, marrow := m }
           if !p.sealB then some a
           else if p.bank then some { a with terms := a.terms.period true (a.ve1.headD []), ve1 := a.ve1.drop 1 }
           else some { a with terms := a.terms.period false (a.ve0.headD []), ve0 := a.ve0.drop 1 })
  | _ => some a

/-- The scan of an AE stream: the op that breaks a rule, or the state at its end. -/
def aeScan : AeScan → List (Nat × Instr) → Sum Nat AeScan
  | a, [] => .inr a
  | a, (i, o) :: r =>
    match a.op o with
    | none => .inl i
    | some b => aeScan b r

/-- Passes with SEAL = 1 on a bank. -/
def seals (bank : Bool) (l : List (Nat × Instr)) : Nat :=
  (l.filter fun e => match e.2 with
    | .aePass _ _ p _ _ => p.sealB && p.bank == bank
    | _ => false).length

/-- The faults of a core's AE and VE streams. -/
def coreErr (ss : List Strm) (t : Strm) : Option Nat :=
  if t.eng.eng ≠ .ae then none
  else
    let ve := strmOf ss { t.eng with eng := .ve }
    let p0 := vePeriods false ve []
    let p1 := vePeriods true ve []
    let last := (t.ops.getLast?.map (·.1)).getD 0
    match aeScan { loaded := none, active := none, ve0 := p0, ve1 := p1, terms := List.replicate 1024 0, marrow := [] }
      t.ops with
    | .inl i => some (imgErr t.sec i)
    | .inr a =>
      ckAt (a.marrow.isEmpty && p0.length == seals false t.ops + 1 && p1.length == seals true t.ops + 1)
        (imgErr t.sec last)

/-! ## Move Engine descriptors (R301, R358-R374) -/

/-- Whether an ME descriptor carries no reserved encoding (R358, R359, R362, R374). -/
def descOk (b : BitVec 512) : Bool :=
  let d := descOf b
  let flags := dfld b 1 1
  let side (w : BitVec 16) : Bool :=
    fmtOk w && (elemBits (fmtOf w) != 4 || d.e0 % 2 == 0) && (scaleOf w == 0 || d.e0 % blkOf w == 0)
  let scl (w : BitVec 16) (a : Nat) : Bool := scaleOf w != 0 || a == 0
  decide (flags ≤ 1) && dfld b 0x26 2 == 0 && d.e0 != 0 && d.e1 != 0 && d.e2 != 0 && d.e3 != 0
  && (match d.kind with
      | 1 => side d.sfmt && side d.dfmt && scl d.sfmt d.sscl && scl d.dfmt d.dscl
      | 2 => side d.sfmt && side d.dfmt && scl d.sfmt d.sscl && scl d.dfmt d.dscl && d.e2 == 1 && d.e3 == 1
          && decide (d.ds1 < 2 ^ 16) && d.ds2 == 0 && d.ds3 == 0
      | 3 => fmtOk d.sfmt && fmtOf d.sfmt == 4 && d.dfmt == 0 && d.sscl == 0 && d.dscl == 0 && d.ds1 == 0 && d.ds2 == 0
          && d.ds3 == 0 && d.count % 256 == 0
      | 4 => fmtOk d.dfmt && fmtOf d.dfmt == 4 && d.sfmt == 0 && d.sscl == 0 && d.dscl == 0 && d.ss1 == 0 && d.ss2 == 0
          && d.ss3 == 0 && d.count % 256 == 0
      | _ => false)

/-- The rows of a strided side (R361). -/
def sideRows (d : Desc) (w : BitVec 16) (a s1 s2 s3 : Nat) : List (Nat × Nat) :=
  (descRows d).map fun q => (a + q.2.1 * s1 + q.2.2.1 * s2 + q.2.2.2 * s3, elemBytes (fmtOf w) d.e0)

/-- Bytes of a dense scale plane of `rows` rows (R363). -/
def sclPlane (w : BitVec 16) (rows e0 : Nat) : Nat := rows * rowScales w e0

/-- The bytes that a descriptor reads and writes. A GATHER may read every row of its table, and a stream takes up to
the bound of R378. -/
def descTouch (d : Desc) : Touch :=
  let rows := d.e1 * d.e2 * d.e3
  let bound := 16 + 514 * (d.count / 256)
  match d.kind with
  | 1 =>
    { reads := sideRows d d.sfmt d.src d.ss1 d.ss2 d.ss3 ++ [(d.sscl, sclPlane d.sfmt rows d.e0)],
      writes := sideRows d d.dfmt d.dst d.ds1 d.ds2 d.ds3 ++ [(d.dscl, sclPlane d.dfmt rows d.e0)] }
  | 2 =>
    { reads := (d.idxAddr, 4 * d.e1) :: (d.sscl, sclPlane d.sfmt d.ss2 d.e0)
        :: (List.range d.ss2).map fun x => (d.src + x * d.ss1, elemBytes (fmtOf d.sfmt) d.e0),
      writes := [(d.dst, d.e1 * elemBytes (fmtOf d.dfmt) d.e0), (d.dscl, sclPlane d.dfmt d.e1 d.e0)] }
  | 3 => { reads := sideRows d d.sfmt d.src d.ss1 d.ss2 d.ss3, writes := [(d.dst, bound)] }
  | _ => { reads := [(d.src, bound)], writes := sideRows d d.dfmt d.dst d.ds1 d.ds2 d.ds3 }

/-- Whether a descriptor or an op writes a bit twice, or a byte that it reads (R364, R368). -/
def Touch.clean (t : Touch) : Bool :=
  !selfMeet t.writes && !mergedMeet (mergeRanges t.reads) (mergeRanges t.writes)

/-- Whether two descriptors or ops of one fence group clash (R368, R529). -/
def Touch.clash (a b : Touch) : Bool :=
  let r (t : Touch) := mergeRanges t.reads
  let w (t : Touch) := mergeRanges t.writes
  mergedMeet (w a) (w b) || mergedMeet (w a) (r b) || mergedMeet (r a) (w b)

/-- Entry `i` of the descriptor table of a core. -/
def Img.desc (im : Img) (e : EngRef) (i : Nat) : Option (BitVec 512) :=
  match im.section 2 e.die.val 0xFF e.core.val with
  | none => none
  | some t => if 64 * i + 64 ≤ t.length then some (BitVec.ofNat 512 (fld im.raw (t.offset + 64 * i) 64)) else none

/-- The descriptors of a table with a reserved encoding, or that break R364 or R368 alone. -/
def Img.tableErr (im : Img) (p : Section × Nat) : Option Nat :=
  if p.1.kind ≠ 2 then none
  else
    let n := p.1.length / 64
    firstErr ((chunks 64 n (slice im.raw p.1.offset (64 * n))).zipIdx.map fun q =>
      let d := BitVec.ofNat 512 (leNat q.1)
      ckAt (descOk d && (descTouch (descOf d)).clean) (imgErr p.2 q.2))

/-- The fence groups of a list of ops: what each op of a group touches, with its op number (R367, R528). -/
def fenceGroups (isFence : Instr → Bool) (touch : Nat → Instr → Option Touch) :
    List (Nat × Instr) → List (Nat × Touch) → List (List (Nat × Touch))
  | [], cur => [cur]
  | (i, o) :: r, cur =>
    if isFence o then cur :: fenceGroups isFence touch r []
    else match touch i o with
      | some t => fenceGroups isFence touch r (cur ++ [(i, t)])
      | none => fenceGroups isFence touch r cur

/-- The first op of a fence group that clashes with one before it. -/
def groupClash (g : List (Nat × Touch)) : Option Nat :=
  match firstClash (fun (a b : Nat × Touch) => a.2.clash b.2) [] 0 g with
  | some k => (g[k]?).map (·.1)
  | none => none

/-- What an ME op touches. -/
def Img.meTouch (im : Img) (e : EngRef) (o : Instr) : Option Touch :=
  match o with
  | .meDesc _ _ didx => (im.desc e didx.toNat).map fun d => descTouch (descOf d)
  | _ => none

/-- The faults of an ME stream: a DIDX beyond the table, or a clash in a fence group (R301, R368). -/
def Img.meErr (im : Img) (t : Strm) : Option Nat :=
  if t.eng.eng ≠ .me then none
  else
    firstErr (t.ops.map fun e => match e.2 with
      | .meDesc _ _ didx => ckAt (im.desc t.eng didx.toNat).isSome (imgErr t.sec e.1)
      | _ => none)
    <|> firstErr ((fenceGroups (fun o => match o with
        | .meFence _ _ => true
        | _ => false) (fun _ => im.meTouch t.eng) t.ops []).map fun g => (groupClash g).map (imgErr t.sec))

/-! ## Update descriptors (R583-R586) -/

/-- Whether an update descriptor carries no reserved encoding. -/
def updOk (b : Bytes) : Bool :=
  let d := updDesc b
  d.kind == 1 && decide (d.group < 16) && decide (d.flags ≤ 1) && zeroAt b 3 1 && fmtOk d.wfmt
  && (fmtOf d.wfmt ≤ 4 || fmtOf d.wfmt == 7) && zeroAt b 6 2
  && ([0x0E, 0x16, 0x1E, 0x26, 0x2E, 0x36] : List Nat).all (fun o => zeroAt b o 2) && zeroAt b 0x3D 3
  && d.count % 64 == 0 && (scaleOf d.wfmt != 0 || d.wscl == 0)

/-- The bytes that a UE_RUN reads and writes. -/
def UpdDesc.touch (d : UpdDesc) : Touch :=
  let st := [(d.master, 4 * d.count), (d.mom1, 4 * d.count), (d.mom2, 4 * d.count)]
  { reads := (d.grad, 2 * d.count) :: st,
    writes := st ++ [(d.work, elemBytes (fmtOf d.wfmt) d.count),
      (d.wscl, if scaleOf d.wfmt = 0 then 0 else d.count / blkOf d.wfmt)] }

/-- The faults of a UE stream. -/
def Img.ueErr (im : Img) (t : Strm) : Option Nat :=
  if t.eng.eng ≠ .ue then none
  else
    firstErr (t.ops.map fun e => match e.2 with
      | .ueRun _ _ a _ => ckAt ((im.constAt a.toNat 64).any updOk) (imgErr t.sec e.1)
      | _ => none)
    <|> (let runs := t.ops.filterMap fun e => match e.2 with
          | .ueRun _ _ a _ => ((im.constAt a.toNat 64).map updDesc).map fun d => (e.1, mergeRanges d.touch.writes)
          | _ => none
         match firstClash (fun (a b : Nat × List (Nat × Nat)) => mergedMeet a.2 b.2) [] 0 runs with
         | some k => (runs[k]?).map fun r => imgErr t.sec r.1
         | none => none)

/-! ## Collective descriptors (R532-R535, R561, R567) -/

/-- Whether a collective descriptor carries no reserved encoding, as far as the image alone shows, and the STAGE region of
an all-to-all holds one block (R532, R533, R567). -/
def collOk (b : Bytes) : Bool :=
  let d := collDesc b
  let noStage := d.stage == 0 && d.stageBufs == 0
  let noPs := d.p1 == 0 && d.p2 == 0
  let blocks (w : BitVec 16) : Bool := scaleOf w == 0 || d.count % blkOf w == 0
  decide (d.group < 64) && fld b 2 1 / 16 == 0 && fld b 3 1 / 128 == 0 && decide (2 ≤ d.vc) && decide (d.vc ≤ 4)
  && d.cls != 0 && ([0x16, 0x1E, 0x26, 0x3E] : List Nat).all (fun o => zeroAt b o 2)
  && (match d.kind with
      | 1 | 2 =>
        fmtOk d.ifmt && scaleOf d.ifmt == 0 && (fmtOf d.ifmt == 3 || fmtOf d.ifmt == 4 || fmtOf d.ifmt == 5) && fmtOk d.ofmt
        && (fmtOf d.ofmt ≤ 5 || fmtOf d.ofmt == 7) && noStage && noPs && d.dropv == 0 && decide (d.rop ≤ 2)
        && (d.comp || d.aux == 0) && (!d.comp || (fmtOf d.ifmt == 3 && d.rop == 0)) && (!d.norm || d.rop == 0)
        && d.count % 32 == 0
      | 3 => fmtOk d.ifmt && d.ifmt == d.ofmt && d.aux == 0 && noStage && noPs && d.dropv == 0 && fld b 2 1 == 0
          && d.count % 32 == 0
      | 4 => fmtOk d.ifmt && d.ifmt == d.ofmt && blocks d.ifmt && d.aux == 0 && noStage && d.p2 == 0 && d.dropv == 0
          && fld b 2 1 == 0
      | 5 => d.ifmt == 0 && d.ofmt == 0 && d.count == 0 && d.src == 0 && d.dst == 0 && d.aux == 0 && noStage && noPs
          && d.dropv == 0 && fld b 2 1 == 0
      | 6 => d.ifmt == 0 && d.ofmt == 0 && d.src == 0 && d.dst == 0 && noPs && d.dropv == 0 && fld b 2 1 == 0
      | 7 | 8 =>
        d.ifmt == 0 && d.ofmt == 0 && fld b 2 1 == 0 && decide (d.p2 < 2 ^ 16) && decide (1 ≤ d.p2) && decide (d.p2 ≤ 1024)
        && (d.kind == 7 || d.dropv == 0) && decide (d.p1 % 65536 * (d.p2 * 64) + 16 ≤ 4096 * d.stageBufs)
      | _ => false)

/-- Whether the entries of a permute table carry no reserved encoding (R568). -/
def permOk (b : Bytes) (n : Nat) : Bool :=
  (chunks 32 n b).all (fun e => zeroAt e 2 2 && zeroAt e 14 2 && zeroAt e 22 2 && zeroAt e 28 4
    && (let l := fld e 24 4
        decide (1 ≤ l) && decide (l ≤ 2 ^ 31)))
  && (let rs := (chunks 32 n b).map fun e => fld e 0 2
      (rs.zip (rs.drop 1)).all fun p => decide (p.1 ≤ p.2))

/-- Whether the entries of a routing table carry no reserved encoding (R562). -/
def routeOk (b : Bytes) (n : Nat) : Bool := (chunks 8 n b).all fun e => zeroAt e 6 2

/-- Whether the table at AUX of a descriptor is in order, where it lies in constant data. -/
def tableOk (im : Img) (d : CollDesc) : Bool :=
  match d.kind with
  | 6 => (im.constAt d.aux (32 * d.count)).all fun t => permOk t d.count
  | 7 | 8 => (im.constAt d.aux (8 * d.count)).all fun t => routeOk t d.count
  | _ => true

/-- Whether the SRC and DST ranges of a descriptor are apart or equal (R535). -/
def srcDstOk (im : Img) (d : CollDesc) (g : Option (Group × Nat)) : Bool :=
  let r := collRanges im d g
  let a := mergeRanges r.1
  let b := mergeRanges r.2.1
  !mergedMeet a b || a == b

/-- The descriptor of a CX_RUN (R526). -/
def Img.collAt (im : Img) (o : Instr) : Option CollDesc :=
  match o with
  | .cxRun _ _ a => (im.constAt a.toNat 64).map collDesc
  | _ => none

/-- Whether a CX op ends a fence group. -/
def isCxFence : Instr → Bool
  | .cxFence _ _ => true
  | _ => false

/-- What a CX_RUN touches; `f` gives the group of a descriptor. -/
def Img.cxTouch (im : Img) (f : Nat → Option (Group × Nat)) (o : Instr) : Option Touch :=
  (im.collAt o).map fun d => collTouch im d (f d.group)

/-- The faults of a CX stream as far as the image alone shows (R526, R529, R533, R535, R561, R562, R567, R568). -/
def Img.cxErr (im : Img) (t : Strm) : Option Nat :=
  if t.eng.eng ≠ .cx then none
  else
    let last := (t.ops.getLast?.map (·.1)).getD 0
    let norms := t.ops.filter fun e => match e.2 with
      | .cxGnorm _ _ _ _ => true
      | _ => false
    firstErr (t.ops.map fun e => match e.2 with
      | .cxRun _ _ a =>
        (match im.constAt a.toNat 64 with
         | none => some (imgErr t.sec e.1)
         | some b =>
           let d := collDesc b
           ckAt (collOk b && srcDstOk im d none && tableOk im d) (imgErr t.sec e.1))
      | _ => none)
    <|> ckAt (norms.length == 1) (imgErr t.sec last)
    <|> firstErr ((fenceGroups isCxFence (fun _ => im.cxTouch fun _ => none) t.ops []).map fun g =>
          (groupClash g).map (imgErr t.sec))

/-! ## Crossings (R304, R408) -/

/-- The X_ARRIVEs of a stream that name a die the part lacks. -/
def arriveDieErr (dies : Nat) (t : Strm) : Option Nat :=
  firstErr (t.ops.map fun e => match e.2 with
    | .xArrive _ _ f => ckAt (decide (1 < f.scope.toNat) || decide (f.die.toNat < dies)) (imgErr t.sec e.1)
    | _ => none)

/-- An op as R408 sees it: its place (stream, op number), its arrivals, its wait and its reset, each by crossing. -/
structure XNode where
  strm : Nat
  op : Nat
  arrive : List (Nat × Nat)
  wait : List (Nat × Nat)
  reset : Option Nat
  deriving DecidableEq, Repr

/-- A crossing's number: its counter key without the bank. -/
def xNum (scope die core index : Nat) : Nat := xKey scope die core index false

/-- An op of a stream as R408 sees it. -/
def xNode (t : Strm) (e : Nat × Instr) : XNode :=
  let d := t.eng.die.val
  let c := t.eng.core.val
  let hd (h : OpHdr) : XNode :=
    { strm := t.sec, op := e.1,
      arrive := if h.aen then [(xNum (hdrScope t.eng) d c h.axc.toNat, 1)] else [],
      wait := if h.wen then [(xNum (hdrScope t.eng) d c h.wxc.toNat, h.wtgt.toNat)] else [], reset := none }
  match e.2 with
  | .nop _ h | .end_ _ h | .meFence _ h | .cxFence _ h => hd h
  | .aeLoad _ h _ _ _ | .aePass _ h _ _ _ | .aePreload _ h _ _ => hd h
  | .vld _ h _ _ | .vop _ h _ _ | .vtr _ h _ _ | .vred _ h _ _ | .vsrb _ h _ => hd h
  | .vst _ h _ _ | .drain _ h _ _ | .spill _ h _ _ | .pdrain _ h _ _ => hd h
  | .meDesc _ h _ | .xAttime _ h _ | .cxRun _ h _ => hd h
  | .ueRun _ h _ _ | .cxGnorm _ h _ _ => hd h
  | .xArrive _ h f =>
    let n := hd h
    if f.scope.toNat = 3 then n
    else { n with arrive := n.arrive ++ [(xNum f.scope.toNat f.die.toNat f.core.toNat f.index.toNat, f.n.toNat)] }
  | .xWait _ h scope index tgt =>
    let n := hd h
    { n with wait := n.wait ++ [(xNum scope.toNat d c index.toNat, tgt.toNat)] }
  | .xReset _ h scope index => { hd h with reset := some (xNum scope.toNat d c index.toNat) }
  | _ => { strm := t.sec, op := e.1, arrive := [], wait := [], reset := none }

/-- What an op adds to a crossing. -/
def XNode.adds (x : XNode) (k : Nat) : Nat := sumNat ((x.arrive.filter fun a => a.1 == k).map (·.2))

/-- Whether an op of a list is ordered before another by links found so far: by its stream, or through a link. -/
def xBefore (links : List (XNode × XNode)) : Nat → XNode → XNode → Bool
  | 0, x, y => x.strm == y.strm && decide (x.op < y.op)
  | k + 1, x, y =>
    xBefore links 0 x y
    || links.any fun l => (l.1 == x || xBefore links 0 x l.1) && (l.2 == y || xBefore links k l.2 y)

/-- Whether the links found so far lead from one op to another. -/
def xOrd (links : List (XNode × XNode)) (x y : XNode) : Bool := xBefore links links.length x y

/-- The links of R408 from an arrival to a wait that the links found so far give. -/
def xStep (ns : List XNode) (links : List (XNode × XNode)) : List (XNode × XNode) :=
  ns.flatMap fun y => y.wait.flatMap fun w =>
    let k := w.1
    let resets := ns.filter fun z => z.reset == some k && xOrd links z y
    let counts (z : XNode) : Bool := !xOrd links y z && !resets.any (fun q => xOrd links z q)
    let arr := ns.filter fun z => z.adds k != 0
    arr.filterMap fun x =>
      let others := sumNat ((arr.filter fun z => z != x && counts z).map fun z => z.adds k)
      if x != y && decide (others < w.2) then some (x, y) else none

/-- The smallest relation of R408; `fuel` bounds the rounds. -/
def xLinks (ns : List XNode) : Nat → List (XNode × XNode) → List (XNode × XNode)
  | 0, links => links
  | k + 1, links =>
    let new := (xStep ns links).filter fun l => !links.contains l
    if new.isEmpty then links else xLinks ns k (links ++ new)

/-- Whether a use of a crossing can pass 65,535: the use that opens after `from_` and closes at `to_`. -/
def useOver (ns : List XNode) (links : List (XNode × XNode)) (k : Nat) (from_ to_ : Option XNode) : Bool :=
  let counts (z : XNode) : Bool :=
    !(from_.any fun q => xOrd links z q) && !(to_.any fun q => xOrd links q z)
  decide (65535 < sumNat ((ns.filter counts).map fun z => z.adds k))

/-- Whether every use of a crossing stays within 65,535 arrivals. -/
def crossingOk (ns : List XNode) (k : Nat) : Bool :=
  if sumNat (ns.map fun z => z.adds k) ≤ 65535 then true
  else
    let links := xLinks ns (ns.length * ns.length) []
    let rs := ns.filter fun z => z.reset == some k
    let ends := rs.map some ++ [none]
    !((none :: rs.map some).zip ends).any fun p => useOver ns links k p.1 p.2

/-- The fault of R408: the first arrival on a crossing that can pass its bound. -/
def arrivalErr (ss : List Strm) : Option Nat :=
  let ns := ss.flatMap fun t => t.ops.map (xNode t)
  let keys := mergeRanges (ns.flatMap fun n => n.arrive.map fun a => (a.1, 1))
  let ks := keys.flatMap fun r => (List.range (r.2 - r.1)).map (r.1 + ·)
  ks.findSome? fun k =>
    if crossingOk ns k then none
    else (ns.find? fun z => z.adds k != 0).map fun z => imgErr z.strm z.op

/-! ## Addresses (R265, R324, R687) -/

/-- What each op and descriptor of an image touches at physical addresses, with the DETAIL that names it; `f` gives
the group of a die and a descriptor. -/
def Img.touches (im : Img) (ss : List Strm) (f : Nat → Nat → Option (Group × Nat)) : List (Nat × Touch) :=
  ss.flatMap fun t => t.ops.filterMap fun e =>
    let at_ := imgErr t.sec e.1
    match t.eng.eng with
    | .me => (im.meTouch t.eng e.2).map fun q => (at_, q)
    | .ue => (match e.2 with
      | .ueRun _ _ a _ => ((im.constAt a.toNat 64).map updDesc).map fun d => (at_, d.touch)
      | _ => none)
    | .cx => (im.cxTouch (f t.eng.die.val) e.2).map fun q => (at_, q)
    | _ =>
      let q := opTouch e.2
      let w := spmWindow t.eng
      if q == .none then none else some (at_, { reads := shiftRanges w q.reads, writes := shiftRanges w q.writes })

/-- Whether a range lies in one store that engines address (R324). -/
def State.inStoreAt (s : State) (r : Nat × Nat) : Bool :=
  r.2 == 0
  || (match s.place r.1 with
      | .hbm => decide (r.1 + r.2 ≤ s.hbmBytes)
      | .sram _ o => decide (o + r.2 ≤ 2 ^ 27)
      | .spm _ _ o => decide (o + r.2 ≤ 0x300000)
      | .market _ o => decide (o + r.2 ≤ 2 ^ 25)
      | _ => false)

/-- Whether a range that lies in HBM lies in a context's region and outside its reserve (R687). -/
def State.regionOk (s : State) (x : CtxSt) (r : Nat × Nat) : Bool :=
  r.2 == 0 || (match s.place r.1 with
    | .hbm => s.inRegion x r.1 r.2
    | _ => true)

/-- The STAGE regions of a collective: physical start and bytes. -/
def CollDesc.stageRange (d : CollDesc) : List (Nat × Nat) :=
  if 6 ≤ d.kind then [(d.stage, 4096 * d.stageBufs)] else []

/-- The STAGE regions of an image's collectives, with the DETAIL that names each. -/
def Img.stages (im : Img) (ss : List Strm) : List (Nat × (Nat × Nat)) :=
  ss.flatMap fun t => t.ops.flatMap fun e =>
    match im.collAt e.2 with
    | some d => d.stageRange.map fun r => (imgErr t.sec e.1, r)
    | none => []

/-- The addresses that the descriptors and ops of an image name, with the DETAIL that names each: they count whatever the
length at them (R324). -/
def Img.named (im : Img) (ss : List Strm) : List (Nat × List Nat) :=
  ss.flatMap fun t => t.ops.filterMap fun e =>
    let at_ := imgErr t.sec e.1
    match e.2 with
    | .ueRun _ _ a _ => ((im.constAt a.toNat 64).map updDesc).map fun d =>
        (at_, [d.grad, d.master, d.mom1, d.mom2, d.work, d.wscl])
    | .cxRun _ _ a => ((im.constAt a.toNat 64).map collDesc).map fun d => (at_, [d.src, d.dst, d.aux, d.dropv])
    | _ => none

/-- The descriptors of a core's table, named by an op or not, with the DETAIL of each. -/
def Img.tableDescs (im : Img) : List (Nat × Desc) :=
  im.sections.zipIdx.flatMap fun p =>
    if p.1.kind ≠ 2 then []
    else
      let n := p.1.length / 64
      (chunks 64 n (slice im.raw p.1.offset (64 * n))).zipIdx.map fun q =>
        (imgErr p.2 q.2, descOf (BitVec.ofNat 512 (leNat q.1)))

/-- The addresses that a descriptor names. -/
def Desc.named (d : Desc) : List Nat :=
  [d.src, d.dst, d.sscl, d.dscl] ++ (if d.kind = 2 then [d.idxAddr] else [])

/-- Whether an address lies in a store that engines address (R324). -/
def State.inStore (s : State) (a : Nat) : Bool := s.inStoreAt (a, 1)

/-- The fault of R324. -/
def State.placeErr (s : State) (im : Img) (ss : List Strm) (ts : List (Nat × Touch)) : Option Nat :=
  firstErr (ts.map fun t => ckAt ((t.2.reads ++ t.2.writes).all s.inStoreAt) t.1)
  <|> firstErr ((im.named ss).map fun e => ckAt (e.2.all s.inStore) e.1)
  <|> firstErr (im.tableDescs.map fun e =>
        let t := descTouch e.2
        ckAt (e.2.named.all s.inStore && (t.reads ++ t.writes).all s.inStoreAt) e.1)

/-- Whether what a collective writes to depends on its group: REDUCE_SCATTER, PERMUTE and A2A_DISPATCH. -/
def CollDesc.writesByGroup (d : CollDesc) : Bool := d.kind == 2 || d.kind == 6 || d.kind == 7

/-- Whether an image alone shows every byte that its ops write (R265, R687). -/
def Img.writesKnown (im : Img) (ss : List Strm) : Bool :=
  ss.all fun t => t.ops.all fun e => (im.collAt e.2).all fun d => !d.writesByGroup

/-- The fault of R265: a byte of scratchpad or die SRAM that is read and never written. -/
def State.readErr (s : State) (ts : List (Nat × Touch)) : Option Nat :=
  let m := mergeRanges (ts.flatMap fun t => t.2.writes)
  let near (r : Nat × Nat) : Bool := match s.place r.1 with
    | .sram _ _ => true
    | .spm _ _ _ => true
    | _ => false
  firstErr (ts.map fun t => ckAt (t.2.reads.all fun r => !near r || holds m r) t.1)

/-- The faults of step 3 of R687: every rule that rejects an image alone. -/
def State.imgErrOf (s : State) (im : Img) (b : Bytes) : Option Nat :=
  imgHeaderErr s.dies b
  <|> setErr s.dies im.sections
  <|> (let qs := im.strms
       let ss := qs.map (·.1)
       firstErr (qs.map (·.2))
       <|> firstErr (im.sections.zipIdx.map im.tableErr)
       <|> firstErr (ss.map (coreErr ss))
       <|> firstErr (ss.map im.meErr)
       <|> firstErr (ss.map im.ueErr)
       <|> firstErr (ss.map im.cxErr)
       <|> firstErr (ss.map (arriveDieErr s.dies))
       <|> arrivalErr ss
       <|> (let ts := im.touches ss fun _ _ => none
            s.placeErr im ss ts
            <|> firstErr ((im.stages ss).map fun e => ckAt (s.inStoreAt e.2 && (match s.place e.2.1 with
                  | .market _ _ => true
                  | _ => e.2.2 == 0)) e.1)
            <|> (if im.writesKnown ss then s.readErr ts else none)))

/-- The faults of step 4 of R687: an address outside the context's region that the image alone fixes. -/
def State.regionErr (s : State) (x : CtxSt) (im : Img) : Option Nat :=
  let ss := im.strms.map (·.1)
  let ts := im.touches ss fun _ _ => none
  firstErr (im.sections.zipIdx.map fun p =>
    ckAt (p.1.kind != 3 || (s.inStoreAt (p.1.dest, p.1.length) && (match s.place p.1.dest with
      | .hbm => s.inRegion x p.1.dest p.1.length
      | _ => p.1.length == 0))) (imgErr p.2 0))
  <|> firstErr (ts.map fun t => ckAt ((t.2.reads ++ t.2.writes).all (s.regionOk x)) t.1)
  <|> firstErr (im.tableDescs.map fun e =>
        let t := descTouch e.2
        ckAt ((t.reads ++ t.writes).all (s.regionOk x)) e.1)

/-- The image that bytes spell. -/
def imgOf (b : Bytes) (area : Bool) : Img :=
  { area := area, hash := BitVec.ofNat 384 (fld b (b.length - 48) 48), seed := BitVec.ofNat 64 (fld b 8 8),
    sections := imgTable b, raw := b }

/-- The code of the package's stepping (R266, R710). -/
def stepCode (f : Fuses) : Nat := if f.stepB then 0xB0 else 0xA0

/-- Mask of the stacks that failed (R313). -/
def State.failedStacks (s : State) : Nat := sumNat (((List.range s.stacks).filter fun k => (s.stackAt k).failed).map (2 ^ ·))

/-- The status and DETAIL with which an image alone is rejected, in the order of R687. -/
def State.imgReject (s : State) (x : CtxSt) (b : Bytes) : Option (Nat × Nat) :=
  let n := b.length
  let im := imgOf b false
  let kind := b2n (fld b 6 1 != kindCode s.fuse.kind) + 2 * b2n (decide (stepCode s.fuse < fld b 7 1))
  if n < 0x40 + 48 ∨ im.hash ≠ sha384 (b.take (n - 48)) then some (0x10, 0)
  else if kind ≠ 0 then some (0x11, kind)
  else if s.failedStacks ≠ 0 then some (0x13, s.failedStacks)
  else ((s.imgErrOf im b) <|> (s.regionErr x im)).map fun d => (0x12, d)

/-! ## Pairs (R690) -/

/-- The group of a CX descriptor and this member's rank in it. -/
def JobCfg.groupAt (g : JobCfg) (die i : Nat) : Option (Group × Nat) :=
  match g.groups[i]? with
  | none => none
  | some q => (q.rankOf g.topo.self die).map fun r => (q, r)

/-- Whether an op sends Avenue messages: a member of its group lies on another package (R530). -/
def Group.leaves (g : Group) (self : Vec3) : Bool := g.members.any fun m => m.vec != self

/-- The VC and CLASS on which a CX_RUN carries messages. -/
def Img.laneOf (im : Img) (cfg : JobCfg) (die : Nat) (o : Instr) : Option (Nat × Nat) :=
  match im.collAt o with
  | none => none
  | some d => (match cfg.groupAt die d.group with
    | some q => if q.1.leaves cfg.topo.self then some (d.vc, d.cls) else none
    | none => none)

/-- The ops of each CX fence group. -/
def cxGroups : List (Nat × Instr) → List (Nat × Instr) → List (List (Nat × Instr))
  | [], cur => [cur]
  | e :: r, cur => if isCxFence e.2 then cur :: cxGroups r [] else cxGroups r (cur ++ [e])

/-- The conditions of R533, R539, R535 and R567 on one CX op. -/
def cxPairOk (im : Img) (cfg : JobCfg) (die : Nat) (o : Instr) : Bool :=
  match o with
  | .cxGnorm _ _ g _ => (cfg.groupAt die g.toNat).isSome
  | .cxRun _ _ _ =>
    (match im.collAt o with
     | none => true
     | some d =>
       match cfg.groupAt die d.group with
       | none => false
       | some q =>
         let p := q.1.p
         srcDstOk im d (some q)
         && (match d.kind with
             | 1 | 2 | 3 => d.count % (32 * p) == 0
             | 4 => decide (d.p1 < p)
             | 7 | 8 => decide (d.p1 / 65536 * p ≤ 65535)
             | _ => true))
  | _ => true

/-- The bytes that member `me` receives in each round of the `k`-th PERMUTE on a group, from the dies of this package,
stay within its STAGE region (R570; assumption log 18). -/
def permStageOk (im : Img) (cfg : JobCfg) (dies die : Nat) (d : CollDesc) (k : Nat) : Bool :=
  match cfg.groupAt die d.group with
  | none => true
  | some q =>
    let bs := permBlocks im dies q.1 cfg.topo.self d.group k q.2
    bs.all fun b =>
      decide (sumNat ((bs.filter fun e => e.2.round == b.2.round && e.1 != q.2).map fun e => e.2.len + 16)
        ≤ 4096 * d.stageBufs)

/-- What a CX op touches in a configuration: for a PERMUTE, with the bytes that the tables of the other dies of the package
have it write. -/
def Img.cxTouchIn (im : Img) (cfg : JobCfg) (dies die : Nat) (ops : List (Nat × Instr)) (i : Nat) (o : Instr) :
    Option Touch :=
  (im.cxTouch (cfg.groupAt die) o).map fun t =>
    match im.collAt o with
    | none => t
    | some d =>
      if d.kind ≠ 6 then t
      else
        let k := (ops.filter fun e => decide (e.1 < i) && (im.collAt e.2).any fun q => q.kind == 6 && q.group == d.group).length
        match cfg.groupAt die d.group with
        | none => t
        | some q =>
          let bs := permBlocks im dies q.1 cfg.topo.self d.group k q.2
          { t with writes := t.writes ++ (bs.filter fun b => b.1 != q.2).map fun b => (b.2.daddr, b.2.len) }

/-- What the CX ops of a package touch in a configuration, with the DETAIL that names each. -/
def Img.cxTouches (im : Img) (cfg : JobCfg) (dies : Nat) (ss : List Strm) : List (Nat × Touch) :=
  (ss.filter fun t => t.eng.eng == .cx).flatMap fun t => t.ops.filterMap fun e =>
    (im.cxTouchIn cfg dies t.eng.die.val t.ops e.1 e.2).map fun q => (imgErr t.sec e.1, q)

/-- Whether a PERMUTE of an image may write what only another package's tables show, or a table that the image does not
hold (R265; assumption log 91). -/
def Img.foreignWrites (im : Img) (cfg : JobCfg) (ss : List Strm) : Bool :=
  ss.any fun t => t.ops.any fun e => (im.collAt e.2).any fun d =>
    d.kind == 6 && ((im.constAt d.aux (32 * d.count)).isNone
      || (cfg.groups[d.group]?).any fun g => g.leaves cfg.topo.self)

/-- The faults of a CX stream against a configuration. -/
def Img.cxPairErr (im : Img) (cfg : JobCfg) (dies : Nat) (t : Strm) : Option Nat :=
  if t.eng.eng ≠ .cx then none
  else
    let die := t.eng.die.val
    let perms := t.ops.filterMap fun e => (im.collAt e.2).bind fun d => if d.kind = 6 then some (e.1, d) else none
    firstErr (t.ops.map fun e => ckAt (cxPairOk im cfg die e.2) (imgErr t.sec e.1))
    <|> firstErr ((fenceGroups isCxFence (im.cxTouchIn cfg dies die t.ops) t.ops []).map fun g =>
          (groupClash g).map (imgErr t.sec))
    <|> firstErr ((cxGroups t.ops []).map fun g =>
          let ls := g.filterMap fun e => (im.laneOf cfg die e.2).map fun l => (e.1, l)
          match firstClash (fun (a b : Nat × Nat × Nat) => a.2 == b.2) [] 0 ls with
          | some k => (ls[k]?).map fun e => imgErr t.sec e.1
          | none => none)
    <|> firstErr (perms.zipIdx.map fun p =>
          let k := ((perms.take p.2).filter fun q => q.2.group == p.1.2.group).length
          ckAt (permStageOk im cfg dies die p.1.2 k) (imgErr t.sec p.1.1))

/-- The fault of R530: CX ops of two dies on one VC and CLASS. -/
def lanePairErr (im : Img) (cfg : JobCfg) (ss : List Strm) : Option Nat :=
  let ls := (ss.filter fun t => t.eng.eng == .cx).flatMap fun t => t.ops.filterMap fun e =>
    (im.laneOf cfg t.eng.die.val e.2).map fun l => (t.eng.die.val, l, imgErr t.sec e.1)
  match firstClash (fun (a b : Nat × (Nat × Nat) × Nat) => a.1 != b.1 && a.2.1 == b.2.1) [] 0 ls with
  | some k => (ls[k]?).map fun e => e.2.2
  | none => none

/-- The faults of crossings against their owners (R406, R453). -/
def ownerErr (cfg : JobCfg) (t : Strm) : Option Nat :=
  let d := t.eng.die.val
  let c := t.eng.core.val
  let dx (i : Nat) : BitVec 8 := cfg.sync.dxOwner.getD (d * 256 + i) 0x7F#8
  let px (i : Nat) : BitVec 16 := cfg.sync.pxOwner.getD i 0xFFFF#16
  firstErr (t.ops.map fun e =>
    let hdr : Bool := match e.2 with
      | .ueRun _ h _ _ | .cxRun _ h _ | .cxGnorm _ h _ _ | .cxFence _ h => !h.wen || !dxFree (dx h.wxc.toNat)
      | .nop n h | .end_ n h => !dieEng n.eng || !h.wen || !dxFree (dx h.wxc.toNat)
      | _ => true
    let x : Bool := match e.2 with
      | .xWait _ _ sc i _ =>
        if sc.toNat = 1 then !dxFree (dx i.toNat) else if sc.toNat = 2 then !pxFree (px i.toNat) else true
      | .xReset _ _ sc i =>
        if sc.toNat = 1 then !dxFree (dx i.toNat) && (dx i.toNat).toNat % 128 == c
        else if sc.toNat = 2 then
          !pxFree (px i.toNat) && (px i.toNat).toNat % 128 == c && bits (px i.toNat).toNat 8 7 == d
        else true
      | _ => true
    ckAt (hdr && x) (imgErr t.sec e.1))

/-- Ranges (start, length) in order, with each that begins where the one before it ends joined to it (R586). -/
def joinRuns : List (Nat × Nat) → List (Nat × Nat)
  | [] => []
  | r :: l =>
    match joinRuns l with
    | [] => [r]
    | q :: m => if r.1 + r.2 = q.1 then (r.1, r.2 + q.2) :: m else r :: q :: m

/-- The fault of R586 and R608 on a die against a configuration. -/
def Img.uePairErr (im : Img) (cfg : JobCfg) (dies : Nat) (t : Strm) : Option Nat :=
  if t.eng.eng ≠ .ue then none
  else
    let d := t.eng.die.val
    let us := im.updates d
    let last := (t.ops.getLast?.map (·.1)).getD 0
    let mine := joinRuns ((cfg.shards.filter fun e => e.die == d).map fun e => (e.master, 4 * e.count))
    let runs := joinRuns (us.map fun u => (u.master, 4 * u.count))
    let named := cfg.shards.any fun e => e.die == d
    let any := (List.range dies).any fun k => !(im.updates k).isEmpty
    let cx := cxJournal im cfg dies d
    firstErr
      [ckAt (us.isEmpty || mine == runs) (imgErr t.sec last),
       ckAt (!named || !any || !us.isEmpty) (imgErr t.sec last),
       ckAt (us.all fun u => (cfg.opt.groups[u.group]?).any (·.used)) (imgErr t.sec last),
       ckAt (decide (cx.1 ≤ cfg.opt.journalLimit * 2 ^ 20)) (imgErr t.sec last),
       ckAt (decide (cx.2 + im.ueJournal d ≤ (cfg.opt.journal d).2)) (imgErr t.sec last)]

/-- The STAGE allotments of a configuration: physical start and bytes (R387). -/
def JobCfg.stageRanges (cfg : JobCfg) (ios : Nat) : List (Nat × Nat) :=
  (List.range ios).flatMap fun io =>
    ((placeMarket io cfg.market).filter (·.stage)).map fun a =>
      (0x100400000000 + io * 2 ^ 32 + 4096 * a.first, 4096 * a.count)

/-- The DETAIL of PAIR_REJECT of an image and a configuration that would run together (R690); none where they fit. -/
def State.pairErr (s : State) (x : CtxSt) (im : Img) (cfg : JobCfg) : Option Nat :=
  let ss := im.strms.map (·.1)
  let stages := cfg.stageRanges s.ios
  let inStage (r : Nat × Nat) : Bool :=
    r.2 == 0 || (match s.place r.1 with
      | .market _ _ => stages.any fun g => decide (g.1 ≤ r.1) && decide (r.1 + r.2 ≤ g.1 + g.2)
      | _ => true)
  firstErr (ss.map (ownerErr cfg))
  <|> firstErr (ss.map (im.cxPairErr cfg s.dies))
  <|> lanePairErr im cfg ss
  <|> firstErr (ss.map (im.uePairErr cfg s.dies))
  <|> (let ts := (im.touches (ss.filter fun t => t.eng.eng != .cx) fun _ _ => none) ++ im.cxTouches cfg s.dies ss
       firstErr (ts.map fun t =>
         ckAt ((t.2.reads ++ t.2.writes).all fun r => s.inStoreAt r && s.regionOk x r && inStage r) t.1)
       <|> firstErr ((im.stages ss).map fun e => ckAt (inStage e.2) e.1)
       <|> (if im.foreignWrites cfg ss then none else s.readErr ts))

end Sys2Proof.Machine
end

