-- ==== Sys2Proof/Machine/Citis.lean ====
section
/-! DEFINITION. Submission rings (R639-R661), the query commands and the package commands of Citis (R662, R702-R711,
R756, R825). -/

namespace Sys2Proof.Machine

/-! ## Packets (R653, R654) -/

/-- The field of `n` bytes at byte offset `off` of a packet. -/
def pf (p : BitVec 512) (off n : Nat) : Nat := bits p.toNat (8 * (off + n) - 1) (8 * off)

/-- The class of a command (R659). -/
inductive CmdClass where
  | query | context | package
  deriving DecidableEq, Repr

/-- The class of an opcode; none where the opcode table lists none (R662). -/
def cmdClass (op : Nat) : Option CmdClass :=
  if [0x01, 0x02, 0x03, 0x04, 0x05].contains op then some .query
  else if [0x10, 0x11, 0x12, 0x13, 0x20, 0x21, 0x22, 0x23, 0x30, 0x31, 0x32, 0x33].contains op then some .context
  else if [0x40, 0x41, 0x42, 0x43, 0x44, 0x45, 0x50].contains op then some .package
  else none

/-- The first field of a packet that is a reserved encoding (R15, R653): `ctxOk` is what CTX may be, `vals` are the
checks of the arguments, and `used` the argument bytes that the opcode uses. -/
def pktBad (p : BitVec 512) (ctxOk : Bool) (vals : List (Bool × Nat)) (used : List (Nat × Nat)) : Option Nat :=
  let hdr : List (Bool × Nat) :=
    [(pf p 2 1 / 2 == 0, 2), (pf p 4 4 != 0xFFFFFFFF, 4), (ctxOk, 8), (pf p 9 7 == 0, 9), (pf p 16 8 % 64 == 0, 16)]
  let idle : List (Bool × Nat) := (List.range 36).map fun i =>
    ((used.any fun u => decide (u.1 ≤ 28 + i) && decide (28 + i < u.1 + u.2)) || pf p (28 + i) 1 == 0, 28 + i)
  ((hdr ++ vals ++ idle).find? fun c => !c.1).map (·.2)

/-! ## Taking an entry (R643, R646, R650, R658) -/

/-- Whether Town Hall may take an entry of ring r. -/
def State.ringReady (s : State) (r : Nat) : Bool :=
  let q := s.ringAt r
  q.en && !q.stopped && q.cur.isNone && !q.full && q.waiting.isEmpty && q.sqTail != q.sqHead

/-- The entry at HEAD; none where host memory does not answer (R640, R650). -/
def State.entryAt (s : State) (r : Nat) : Option (BitVec 512) :=
  let q := s.ringAt r
  let e := 64 * (q.sqHead.toNat % 256)
  if q.sqLoc then some (BitVec.ofNat 512 (leNat (rdBytes s.mem.ringWin (r * 0x4000 + e) 64)))
  else
    let a := q.sqAddr.toNat * 4096 + e
    if s.hostOk a 64 then some (BitVec.ofNat 512 (leNat (s.hostRead a 64))) else none

/-- A ring whose host memory does not answer stops (R650). -/
def State.ringFault (s : State) (r : Nat) : State :=
  s.modRing r fun q => { q with badAddr := true, stopped := true }

/-- The entry at HEAD is taken. -/
def State.takeEntry (s : State) (r : Nat) (p : BitVec 512) : State :=
  s.modRing r fun q => { q with sqHead := q.sqHead + 1, cur := some { pkt := p } }

/-- Entries that spell no command of the table are taken and rejected (R654); `k` bounds their number. -/
def State.pumpRing (s : State) (r : Nat) : Nat → State
  | 0 => s
  | k + 1 =>
    if !s.ringReady r then s
    else
      match s.entryAt r with
      | none => s.ringFault r
      | some p =>
        if (cmdClass (pktOp p)).isSome then s
        else ((s.takeEntry r p).reply r p (if pf p 3 1 = r then 1 else 3) 0 0).pumpRing r k

/-- The status and DETAIL of a lock that a command of another ring holds (R659). -/
def State.lockHeld (s : State) (r : Nat) (cls : CmdClass) (ctx : Nat) : Option (Nat × Nat) :=
  (List.range 8).findSome? fun q =>
    if q = r then none
    else
      match (s.ringAt q).cur with
      | none => none
      | some k =>
        (match cls, cmdClass (pktOp k.pkt) with
         | .context, some .context => if pktCtx k.pkt = ctx then some (5, q) else none
         | .package, some .package => some (6, q)
         | _, _ => none)

/-- How a command row reads its packet; `hbm` says that Town Hall reads or writes the context's region for it. -/
structure CmdForm where
  op : Nat
  ctxOk : Nat → Bool
  used : List (Nat × Nat)
  vals : State → BitVec 512 → List (Bool × Nat)
  accepts : CtxPhase → Bool
  hbm : Bool := false

/-- The reply that a packet gets before its command has any effect, in the order RING, fields, lock, context, state
(R654, R659, R666, R671). -/
def State.cmdReject (s : State) (r : Nat) (f : CmdForm) (p : BitVec 512) : Option (Nat × Nat) :=
  let ctx := pktCtx p
  let cls := (cmdClass f.op).getD .query
  let x := s.ctxAt ctx
  if pf p 3 1 ≠ r then some (3, 0)
  else
    match pktBad p (f.ctxOk ctx) (f.vals s p) f.used with
    | some off => some (2, off)
    | none =>
      (match s.lockHeld r cls ctx with
       | some e => some e
       | none =>
         if decide (ctx < 4) && x.st == .free && f.op != 0x10 then some (4, 0)
         else if cls = .context ∧ !f.accepts x.st then
           (if f.op = 0x10 then some (0x40, 0) else some (7, x.st.code))
         else none)

/-- Whether a command waits at the HEAD: it would run, and a stack of its context's region holds requests (R350). -/
def State.hbmWaits (s : State) (r : Nat) (f : CmdForm) (p : BitVec 512) : Bool :=
  f.hbm && (s.cmdReject r f p).isNone && !s.regionServed (s.ctxAt (pktCtx p))

/-- Town Hall runs the command at the HEAD of ring r when it is this row's (R658): a packet that is rejected has its
reply at once. -/
def runCmd (r : Fin 8) (f : CmdForm) (body : State → BitVec 512 → State) (s : State) : Out :=
  if !s.ringReady r.val then .next s
  else
    match s.entryAt r.val with
    | none => .next (s.ringFault r.val)
    | some p =>
      if pktOp p ≠ f.op ∨ s.hbmWaits r.val f p then .next s
      else
        let t := s.takeEntry r.val p
        let t := match s.cmdReject r.val f p with
          | some e => t.reply r.val p e.1 e.2 0
          | none => body t p
        .next (t.pumpRing r.val 256)

/-- CTX of a command that names no context. -/
def noCtx (c : Nat) : Bool := c == 0xFF

/-- CTX of a command that names one. -/
def oneCtx (c : Nat) : Bool := decide (c < 4)

/-- Any CTX. -/
def anyCtx (c : Nat) : Bool := noCtx c || oneCtx c

/-- The form of a query or package command. -/
def plainForm (op : Nat) (ctxOk : Nat → Bool) (used : List (Nat × Nat)) (vals : State → BitVec 512 → List (Bool × Nat)) :
    CmdForm :=
  { op := op, ctxOk := ctxOk, used := used, vals := vals, accepts := fun _ => true }

/-! ## Host buffers (R657) -/

/-- Whether the host buffer answers for `n` bytes. -/
def State.bufOk (s : State) (p : BitVec 512) (n : Nat) : Bool := n == 0 || s.hostOk (pf p 16 8) n

/-- What keeps an output of `n` bytes from the host buffer: its status and DETAIL. -/
def State.outErr (s : State) (p : BitVec 512) (n : Nat) : Option (Nat × Nat) :=
  if pf p 24 4 < n then some (0xA, n) else if !s.bufOk p n then some (9, 0) else none

/-- An output command writes its bytes and replies. -/
def State.outReply (s : State) (r : Nat) (p : BitVec 512) (bs : Bytes) (status detail : Nat) : State :=
  match s.outErr p bs.length with
  | some e => s.reply r p e.1 e.2 0
  | none => (s.hostWrite (pf p 16 8) bs).reply r p status detail bs.length

/-- The bytes of an input command's buffer. -/
def State.inBuf (s : State) (p : BitVec 512) : Option Bytes :=
  if s.bufOk p (pf p 24 4) then some (s.hostRead (pf p 16 8) (pf p 24 4)) else none

/-! ## Records of the JD (R50, R617-R621) -/

/-- Whether 4,096 bytes are a commit record with the right REC_ID and REC_CRC. -/
def recValid (b : Bytes) : Bool := fld b 0 4 == 0x434D5452 && fld b 0xFF8 8 == (crc64 (b.take 0xFF8)).toNat

/-- STEP of a record. -/
def recStep (b : Bytes) : BitVec 64 := BitVec.ofNat 64 (fld b 8 8)

/-- The newest valid record of a context (R621). -/
def State.newestRec (s : State) (c : Nat) : Option Bytes :=
  let a := s.jdRead (0x8000 + c * 0x2000) 4096
  let b := s.jdRead (0x8000 + c * 0x2000 + 0x1000) 4096
  match recValid a, recValid b with
  | true, true => if (recStep a).toNat < (recStep b).toNat then some b else some a
  | true, false => some a
  | false, true => some b
  | false, false => none

/-- STEP of the newest valid record of a context; zero where there is none. -/
def State.committedOf (s : State) (c : Nat) : Nat := ((s.newestRec c).map fun b => (recStep b).toNat).getD 0

/-- CM_LAST and CM_STATUS.SLOT for the resident context (R627). -/
def State.refreshCm (s : State) : State :=
  let n : BitVec 64 := match s.resident with
    | some c => BitVec.ofNat 64 (s.committedOf c.val)
    | none => 0
  { s with cm := { s.cm with last := n, slot := n.getLsbD 0 } }

/-- The cores of a die that failed screening (R48, R306). -/
def State.screened (s : State) (d : Nat) : Nat := ((List.range 100).filter fun p => s.physState d p == 3).length

/-- The factory record (R50): what the fuses fix, over what assembly wrote in the JD. DESIGN CHOICE (assumption log 89):
SPARE_CORES of a compute die that the package does not have is 0. -/
def State.factoryRecord (s : State) : Bytes :=
  let d := s.jdRead 0 4096
  let per (n : Nat) (on : Nat → Bool) (w : Nat) (off fill : Nat) : Bytes :=
    (List.range n).flatMap fun i => if on i then slice d (off + w * i) w else leBytes w fill
  let die (i : Nat) : Bool := decide (i < s.dies)
  let io (i : Nat) : Bool := decide (i < s.ios)
  let b := leBytes 4 0x46544352 ++ leBytes 2 1 ++ [BitVec.ofNat 8 (kindCode s.fuse.kind), BitVec.ofNat 8 (stepCode s.fuse)]
    ++ leBytes 8 s.fuse.serial.toNat ++ per 4 die 8 0x10 0 ++ per 2 io 8 0x30 0 ++ slice d 0x40 8
    ++ ((List.range 4).map fun i => if die i then BitVec.ofNat 8 (4 - s.screened i) else 0#8) ++ ((List.range 4).map fun i => if die i then (if i = 1 ∨ i = 2 then 1#8 else 0#8) else 0xFF#8) ++ slice d 0x50 12
    ++ per 16 (fun k => decide (k < s.stacks)) 2 0x5C 0xFFFF ++ List.replicate 3964 0#8
  b ++ leBytes 8 (crc64 b).toNat

/-- The regions that JOURNAL_READ reads (R709, R757): offset and bytes. -/
def jdRegions : List (Nat × Nat) :=
  [(0, 0x1000), (0x8000, 0x8000), (0x100000, 0x400), (0x200000, 0x40000), (0x240000, 0x10000), (0x300000, 0x100000)]

/-- Bytes of the JD: the factory record stands in its first 4 KiB (R50). -/
def State.journalBytes (s : State) (off len : Nat) : Bytes :=
  if off < 0x1000 then slice s.factoryRecord off len else s.jdRead off len

/-! ## Query commands (R709-R711, R825, R869) -/

/-- FW_MAJOR, FW_MINOR and FW_PATCH of the running copy. -/
def State.fwBytes (s : State) : Bytes := slice s.sec.running.hdr 8 4

/-- Spare cores of a die. -/
def State.spares (s : State) (d : Nat) : Nat :=
  if d < s.dies then ((List.range 100).filter fun p => s.physState d p == 1).length else 0

/-- The identity block (R710). -/
def State.identityBlock (s : State) : Bytes :=
  leBytes 2 1 ++ [BitVec.ofNat 8 (kindCode s.fuse.kind), BitVec.ofNat 8 (stepCode s.fuse)] ++ s.fwBytes
    ++ leBytes 8 s.fuse.serial.toNat ++ [BitVec.ofNat 8 (2 ^ s.dies - 1), BitVec.ofNat 8 (2 ^ s.ios - 1)]
    ++ leBytes 2 s.failedStacks ++ leBytes 4 (2 ^ s.links - 1) ++ ((List.range 4).map fun d => BitVec.ofNat 8 (s.spares d))
    ++ [4#8, 8#8, 0#8, 0#8] ++ leBytes 8 s.hbmBytes ++ leBytes 8 s.saveBytes ++ List.replicate 208 0#8

/-- IDENTIFY (R662, R710). -/
def execIdentify (r : Fin 8) (s : State) : Out :=
  runCmd r (plainForm 0x01 noCtx [] fun _ _ => []) (fun s p => s.outReply r.val p s.identityBlock 0 0) s

/-- The codes of R55. -/
def StepPhase.code : StepPhase → Nat
  | .idle => 0
  | .running => 1
  | .resolving => 2
  | .restoring => 3
  | .redoing => 4
  | .gated => 5
  | .committing => 6
  | .deferred => 7
  | .committed => 8
  | .aborted => 9

/-- The status block (R711). -/
def State.statusBlock (s : State) (c : Nat) : Bytes :=
  let x := s.ctxAt c
  let pend := pk [(0, b2n x.pendImg.isSome), (1, b2n x.swapAt.isSome), (2, b2n x.haltAfter.isSome), (3, b2n x.verified),
    (4, b2n x.saveSched)]
  let st (i : Nat) : Nat := (x.steps[i]?.map fun t => t.st.code).getD 0
  let no (i : Nat) : Nat := (x.steps[i]?.map fun t => t.no.toNat).getD 0
  [BitVec.ofNat 8 x.st.code, BitVec.ofNat 8 ((s.resident.map (·.val)).getD 0xFF), BitVec.ofNat 8 s.stb.st.code,
   BitVec.ofNat 8 pend, BitVec.ofNat 8 (st 0), BitVec.ofNat 8 (st 1), 0#8, 0#8] ++ leBytes 8 (no 0) ++ leBytes 8 (no 1)
    ++ leBytes 8 (s.committedOf c) ++ leBytes 8 (if x.unbounded then 2 ^ 64 - 1 else x.remain.getD 0)
    ++ leBytes 8 ((x.haltAfter.map (·.toNat)).getD 0) ++ leBytes 8 ((x.swapAt.map (·.toNat)).getD 0)
    ++ leBytes 4 (s.regVal .topo) ++ leBytes 2 x.epoch.toNat ++ leBytes 2 ((x.cfg.map fun g => g.job.toNat).getD 0)
    ++ leBytes 48 ((x.img.map fun i => i.hash.toNat).getD 0) ++ List.replicate 16 0#8

/-- QUERY_STATUS (R662, R711). -/
def execQueryStatus (r : Fin 8) (s : State) : Out :=
  runCmd r (plainForm 0x02 oneCtx [] fun _ _ => []) (fun s p => s.outReply r.val p (s.statusBlock (pktCtx p)) 0 0) s

/-- READ_TELEMETRY (R662, R869-R871). -/
def execReadTelemetry (r : Fin 8) (s : State) : Out :=
  runCmd r (plainForm 0x03 noCtx [(28, 1)] fun s p => [((s.telemetry (pf p 28 1)).isSome, 28)])
    (fun s p => s.outReply r.val p ((s.telemetry (pf p 28 1)).getD []) 0 0) s

/-- JOURNAL_READ (R662, R709, R757). -/
def execJournalRead (r : Fin 8) (s : State) : Out :=
  runCmd r (plainForm 0x04 noCtx [(32, 8)] fun _ p => [(pf p 24 4 % 64 == 0, 24), (pf p 32 8 % 64 == 0, 32)])
    (fun s p =>
      let off := pf p 32 8
      let len := pf p 24 4
      if jdRegions.any fun g => decide (g.1 ≤ off) && decide (off + len ≤ g.1 + g.2) then
        s.outReply r.val p (s.journalBytes off len) 0 0
      else s.reply r.val p 0x60 0 0) s

/-- The attestation report without its signature (R825). -/
def State.attestBody (s : State) (p : BitVec 512) : Bytes :=
  let c := pktCtx p
  let x := s.ctxAt c
  leBytes 4 0x54545441 ++ leBytes 2 1 ++ [BitVec.ofNat 8 (kindCode s.fuse.kind), BitVec.ofNat 8 (stepCode s.fuse)]
    ++ leBytes 8 s.fuse.serial.toNat ++ s.fwBytes ++ leBytes 4 s.fuse.arb
    ++ [BitVec.ofNat 8 c, BitVec.ofNat 8 x.st.code] ++ leBytes 2 s.sec.scope.toNat ++ leBytes 4 0
    ++ leBytes 32 (pf p 28 32) ++ slice s.sec.running.hdr 0x20 48
    ++ leBytes 48 ((x.img.map fun i => i.hash.toNat).getD 0) ++ leBytes 48 ((x.cfg.map fun g => g.hash.toNat).getD 0)
    ++ leBytes 8 s.stbTicks ++ leBytes 8 (if c < 4 then s.committedOf c else 0)
    ++ leBytes 96 (Config.devicePublicKey s.fuse.serial).toNat

/-- ATTEST (R662, R824, R825): the signature's random number is the next draw. -/
def execAttest (r : Fin 8) (s : State) : Out :=
  runCmd r (plainForm 0x05 anyCtx [(28, 32)] fun _ _ => [])
    (fun s p =>
      let b := s.attestBody p
      let sig := Config.deviceSign s.fuse.serial (sha384 b) s.free
      ({ s with free := s.free + 1 }).outReply r.val p (b ++ leBytes 96 sig.toNat) 0 0) s

/-! ## Package commands (R662, R702-R708, R756) -/

/-- The context that is STEPPING, or in another of the states given. -/
def State.ctxIn (s : State) (ps : List CtxPhase) : Option Nat := (List.range 4).find? fun c => ps.contains (s.ctxAt c).st

/-- Bits [7:0] of a WRONG_STATE that concerns no context of the packet: the state of the resident context. -/
def State.residentCode (s : State) : Nat := (s.cur.map fun c => c.2.st.code).getD 0

/-- Whether a step holds the mapping of its cores (R308). -/
def StepPhase.pins : StepPhase → Bool
  | .running | .resolving | .restoring | .redoing | .gated => true
  | .idle | .committing | .deferred | .committed | .aborted => false

/-- REMAP_CORE (R307-R309, R311, R702): what an aborted step has left on the former physical core ends with it. -/
def execRemapCore (r : Fin 8) (s : State) : Out :=
  runCmd r (plainForm 0x40 noCtx [(28, 1), (29, 1), (30, 1)] fun s p =>
      [(decide (pf p 28 1 < s.dies), 28), (decide (pf p 29 1 < 96), 29),
       (decide (pf p 30 1 < 100) || pf p 30 1 == 0x7F, 30)])
    (fun s p =>
      let d := pf p 28 1
      let l := pf p 29 1
      let q := pf p 30 1
      let pinned := match s.cur with
        | some (c, x) => if x.steps.any fun t => t.st.pins then some c.val else none
        | none => none
      match pinned, s.spareOf d with
      | some c, _ => s.reply r.val p 8 c 0
      | none, none => if q ≠ 0x7F ∧ s.physState d q ≠ 1 then s.reply r.val p 7 s.residentCode 0 else s.reply r.val p 0x33 d 0
      | none, some first =>
        let q := if q = 0x7F then first else q
        if s.physState d q ≠ 1 then s.reply r.val p 7 s.residentCode 0
        else
          let old := s.physOf d l
          let s := s.quitCore d l
          let s := if s.physState d old = 0 then s.setPhysState d old 1 else s
          ((s.setPhysState d q 0).setPhys d l q).reply r.val p 0 0 0) s

/-- Whether link m is the last active member of a group that faces a neighbour in the active configuration (R703). -/
def State.lastOfGroup (s : State) (m : Nat) : Bool :=
  match s.topoCfg, s.groupOf m with
  | some t, some g => decide (g < 6) && t.faces g && s.actives g == [m]
  | _, _ => false

/-- LINK_CTRL (R488, R662, R703): re-admission waits for training; a withdrawal waits for the step boundary, and is
made at once when no context is STEPPING. -/
def execLinkCtrl (r : Fin 8) (s : State) : Out :=
  runCmd r (plainForm 0x41 noCtx [(28, 1), (29, 1)] fun s p =>
      [(decide (pf p 28 1 < s.links), 28), (decide (pf p 29 1 ≤ 1), 29)])
    (fun s p =>
      let m := pf p 28 1
      if pf p 29 1 = 0 then
        if (s.memberAt m).st = .active then s.reply r.val p 0 0 0
        else
          let s := s.modMember m fun x => { x with st := .training }
          { s with net := { s.net with linkTrain := s.net.linkTrain ++ [(r, BitVec.ofNat 24 (2 ^ m))] } }
      else if s.lastOfGroup m then s.reply r.val p 7 s.residentCode 0
      else
        let s := if (s.ctxIn [.stepping]).isSome then
            { s with net := { s.net with linkSched := s.net.linkSched ++ [(m, false)] } }
          else s.linkChange (m, false)
        s.reply r.val p 0 0 0) s

/-- The servo as TIME_CTRL leaves it for a new parent. -/
def StbSt.fresh (b : StbSt) (st : ServoSt) : StbSt :=
  { b with rate := 0, meas := none, st := st, parent := none, hops := 0, exch := none, good := 0, stepped := false, corr := 0, lastExch := 0,
           urgent := false, gm := none, follow := none }

/-- TIME_CTRL (R433, R434, R704): FOLLOW replies once the servo is LOCKED. -/
def execTimeCtrl (r : Fin 8) (s : State) : Out :=
  runCmd r (plainForm 0x42 anyCtx [(28, 1), (29, 1), (30, 1), (31, 1), (32, 8)] fun s p =>
      let e : Vec3 := match (s.ctxAt (pktCtx p)).cfg with
        | some g => g.topo.ext
        | none => { x := 256, y := 256, z := 256 }
      let follow := pf p 28 1 == 1
      [(decide (pf p 28 1 ≤ 2), 28), (!follow || oneCtx (pktCtx p), 8), (!follow || decide (pf p 29 1 < e.x), 29),
       (!follow || decide (pf p 30 1 < e.y), 30), (!follow || decide (pf p 31 1 < e.z), 31)])
    (fun s p =>
      match s.ctxIn [.stepping] with
      | some c => s.reply r.val p 8 c 0
      | none =>
        let b := s.stb
        (match pf p 28 1 with
         | 0 =>
           let m := b.fresh .master
           ({ s with stb := if b.st = ServoSt.free then { m with time := pf p 32 8 * 65536, sub := 0 } else m }).reply r.val p 0 0 0
         | 1 =>
           (match (s.ctxAt (pktCtx p)).cfg with
            | none => s.reply r.val p 7 (s.ctxAt (pktCtx p)).st.code 0
            | some g =>
              let v : Vec3 := { x := pf p 29 1, y := pf p 30 1, z := pf p 31 1 }
              let m : Option (Fin 24) := (g.topo.firstDir [0, 1, 2] g.topo.self v).bind fun d =>
                (s.actives d).head?.map (Fin.ofNat 24)
              { s with stb := { b.fresh .acquire with
                  gm := some v, parent := m, hops := g.topo.hops v, follow := some (r, s.stb.ticks) } })
         | _ => ({ s with stb := b.fresh .free }).reply r.val p 0 0 0)) s

/-- TIME_CTRL_TIMEOUT (R704): a FOLLOW that has not reached LOCKED in 10,000,000 ticks replies STB_UNLOCKED. -/
def execTimeCtrlTimeout (s : State) : Out :=
  match s.stb.follow with
  | none => .next s
  | some (r, t0) =>
    if s.stb.ticks < t0 + 10000000 ∨ s.stb.st = .locked then .next s
    else
      let s := { s with stb := { s.stb with follow := none } }
      match (s.ringAt r.val).cur with
      | some q => .next ((s.reply r.val q.pkt 0x30 s.stb.st.code 0).pumpRing r.val 256)
      | none => .next s

/-- SET_POWER_LIMIT (R705): the host's value of one limit. -/
def execSetPowerLimit (r : Fin 8) (s : State) : Out :=
  runCmd r (plainForm 0x43 noCtx [(28, 1), (29, 1), (30, 2), (32, 4)] fun s p =>
      let on := pf p 29 1 == 1
      let win := pf p 28 1 == 0
      [(decide (pf p 28 1 ≤ 1), 28), (decide (pf p 29 1 ≤ 1), 29),
       (!on || (if win then decide (1 ≤ pf p 30 2) && decide (pf p 30 2 ≤ 100) else pf p 30 2 == 0), 30),
       (!on || (if win then decide (100 ≤ pf p 32 4) && decide (pf p 32 4 ≤ maxPower s.fuse.kind)
         else decide (1 ≤ pf p 32 4) && decide (pf p 32 4 ≤ 95)), 32)])
    (fun s p =>
      let l : LimitSt := if pf p 29 1 = 1 then { en := true, limit := pf p 32 4, ms := pf p 30 2 } else .off
      let s := if pf p 28 1 = 0 then { s with pmc := { s.pmc with hostWin := l } }
        else { s with pmc := { s.pmc with hostRail := l } }
      s.reply r.val p 0 0 0) s

/-- The context whose region shares a byte with a range. -/
def State.regionMeets (s : State) (a len : Nat) : Option Nat :=
  (List.range 4).find? fun c => (s.ctxAt c).st != .free && meet (a, len) ((s.ctxAt c).base, (s.ctxAt c).bytes)

/-- RUN_RADISH (R706, R752): the kernels run until they have finished. -/
def execRunRadish (r : Fin 8) (s : State) : Out :=
  runCmd r (plainForm 0x44 noCtx [(28, 4), (32, 1), (40, 8), (48, 8)] fun s p =>
      [(decide (pf p 28 4 < 1024), 28), (decide (pf p 32 1 < 2 ^ s.dies), 32),
       (pf p 48 8 == 0 || decide (pf p 40 8 + pf p 48 8 ≤ s.hbmBytes), 40)])
    (fun s p =>
      match s.ctxIn [.stepping, .saving, .restoring], s.regionMeets (pf p 40 8) (pf p 48 8) with
      | some c, _ => s.reply r.val p 8 c 0
      | none, some c => s.reply r.val p 0x42 c 0
      | none, none => { s with radishRun := some r }) s

/-- The die-scope failures in force after a kernel's result (R755): a failure is added, a pass of that group on that
die removes it. -/
def radishNote (l : List (Nat × Nat)) (k : RadishRes) : List (Nat × Nat) :=
  let e := (k.die.toNat, k.group.toNat)
  if k.phys ≠ 0x7F then l
  else if k.result = 1 then (if l.contains e then l else l ++ [e])
  else if k.result = 0 then l.filter (· != e) else l

/-- A kernel's result takes effect (R754, R755): a failing core is fenced, a failing die is recorded. -/
def State.radishResult (s : State) (k : RadishRes) : State :=
  let s := { s with flt := { s.flt with radishFails := radishNote s.flt.radishFails k } }
  if k.result ≠ 1 then s
  else if k.phys = 0x7F then
    s.report { cls := 0x12, lkind := 11, locus := BitVec.ofNat 32 (k.die.toNat % 8), addr := 0, tags := [], all := false, detail := 0 }
  else
    s.report { cls := 0x12, lkind := 1, locus := coreLocus (k.die.toNat % 8) k.phys.toNat, addr := 0, tags := [], all := false,
               detail := 0 }

/-- The report of a Radish run (R756). -/
def radishReport (stb : Nat) (ks : List RadishRes) : Bytes :=
  leBytes 4 ks.length ++ leBytes 4 (ks.filter fun k => k.result == 1).length ++ leBytes 8 stb
    ++ ks.flatMap fun k => leBytes 2 k.kernel.toNat ++ [k.group, k.die, k.phys, k.result, 0#8, 0#8] ++ leBytes 8 k.crc.toNat

/-- What a Radish run leaves in its HBM range (R706, R752): the kernels that use HBM leave free values there. -/
def State.radishHbm (s : State) (p : BitVec 512) : State :=
  if pf p 28 4 &&& 0x280 = 0 then s
  else
    let bs := (List.range (pf p 48 8)).map fun i => Config.undefByte s.free (pf p 40 8 + i)
    ({ s with free := s.free + 1 }).hbmWrite none (pf p 40 8) bs

/-- RADISH_KERNELS_FINISHED (R706, R754-R756). -/
def execRadishKernelsFinished (results : List RadishRes) (s : State) : Out :=
  match s.radishRun with
  | none => .next s
  | some r =>
    let s := results.foldl (fun (a : State) k => a.radishResult k) { s with radishRun := none }
    let s := { s with free := s.free + 2, mem := { s.mem with spm := .undef s.free, sram := .undef (s.free + 1) } }
    let e := match results.find? fun k => k.result == 1 with
      | some k => (0x61, k.kernel.toNat + 65536 * (k.die.toNat % 4))
      | none => (0, 0)
    match (s.ringAt r.val).cur with
    | some q =>
      .next (((s.radishHbm q.pkt).outReply r.val q.pkt (radishReport s.stbTicks results) e.1 e.2).pumpRing r.val 256)
    | none => .next s

/-- CLEAR_ERRORS (R707, R865-R867): the values are read, written to the host buffer and cleared; a buffer that cannot
take them leaves them as they are. -/
def execClearErrors (r : Fin 8) (s : State) : Out :=
  runCmd r (plainForm 0x45 noCtx [(28, 4)] fun _ p => [(decide (pf p 28 4 < 4096), 28)])
    (fun s p =>
      let regs := maskRegs (pf p 28 4)
      match s.outErr p (16 + 8 * regs.length) with
      | some e => s.reply r.val p e.1 e.2 0
      | none =>
        let bs := s.errorReport (pf p 28 4)
        let s := regs.foldl (fun (a : State) g => if a.hasReg g then a.regClear g true true else a) s
        s.outReply r.val p bs 0 0) s

/-- A firmware image as the host gives it: header, then payload. -/
def fwImage (b : Bytes) : FlashCopy := { hdr := b.take 512, pay := b.drop 512 }

/-- FW_UPDATE (R708, R815, R817): an admissible image is written to the copy that is not running. -/
def execFwUpdate (r : Fin 8) (s : State) : Out :=
  runCmd r (plainForm 0x50 noCtx [] fun _ _ => [])
    (fun s p =>
      match s.inBuf p with
      | none => s.reply r.val p 9 0 0
      | some b =>
        let im := fwImage b
        if !fwAuthentic s.fuse im then s.reply r.val p 0x50 0 0
        else if fwArb im < s.fuse.arb then s.reply r.val p 0x51 s.fuse.arb 0
        else { s with fw := { busy := some r, image := im, toB := !s.sec.copyB } }) s

/-- FLASH_WRITE_COMPLETE (R708): the inactive copy has been written and read back; a copy that does not read back is
left erased, and the command replies FW_AUTH. -/
def execFlashWriteComplete (ok : Bool) (s : State) : Out :=
  match s.fw.busy with
  | none => .next s
  | some r =>
    let c := if ok then s.fw.image else blankFlash
    let m := if s.fw.toB then { s.mem with flashB := c } else { s.mem with flashA := c }
    let s := { s with mem := m, fw := { s.fw with busy := none } }
    match (s.ringAt r.val).cur with
    | some q => .next ((s.reply r.val q.pkt (if ok then 0 else 0x50) 0 0).pumpRing r.val 256)
    | none => .next s

end Sys2Proof.Machine
end

