-- ==== Sys2Proof/Machine/Power.lean ====
section
/-! DEFINITION. Power, clocks and heat (R744-R750, R771-R813): the regulators' samples, the terms of the target
position, droops, over-current, thermal trips and the sensor pairs. -/

namespace Sys2Proof.Machine

/-- The package with a die's terms changed. -/
def State.modDiv (s : State) (d : Nat) (f : DivSt → DivSt) : State :=
  { s with pmc := { s.pmc with div := tmod .reset s.pmc.div d f } }

/-- A die's target position is set; a UE that runs nothing takes it up at once (R774). -/
def State.setTarget (s : State) (d v : Nat) : State :=
  (s.modDiv d fun x => { x with target := v }).modUe d fun u => if u.cur.isNone then { u with pos := v } else u

/-! ## Measurement (R780-R782, R804) -/

/-- The efficiency of a first stage at a current in mA, in thousandths (R781): the fused table in steps of 8 A. -/
def State.etaOf (s : State) (t iib : Nat) : Nat := (tget [] s.fuse.eta t).getD (min 15 (iib / 8000)) 920

/-- A tile's input power in mW, from mV and mA (R781). -/
def State.tilePower (s : State) (t : Nat) (x : TileSample) : Nat := x.vib * x.iib / s.etaOf t x.iib

/-- A tile's hold-up energy in units of 0.01 mJ (R804): C_HU in µF, V_IB in mV, zero below 1.40 V. -/
def State.tileEnergy (s : State) (t vib : Nat) : Nat :=
  if vib < 1400 then 0 else tget 12500 s.fuse.cHu t * (vib * vib - 1400 * 1400) / 2 / 10000000

/-- The samples of a load that has `n` phases. -/
def fitPhases (n : Nat) (xs : List PhaseSample) : List PhaseSample :=
  xs.take n ++ List.replicate (n - xs.length) { mv := 0, ma := 0 }

/-- Whether a tile supplies the JD (R34). -/
def State.suppliesJd (s : State) (t : Nat) : Bool := t == if s.dies = 4 then 2 else 1

/-- A tile's readings after a sample (R34: 64 core, 8 SRAM, 8 HBM and 4 I/O-die phases; one JD phase is a DESIGN CHOICE,
assumption log 90). -/
def State.tileSample (s : State) (t : Nat) (x : TileSample) : TileSt :=
  let p := s.tilePower t x
  let hist := ((p * 1000 / x.vin) :: (s.tileAt t).railHist).take 5
  { pin := p, irail := meanOf hist 5, vin := x.vin, vib := x.vib, iib := x.iib, energy := s.tileEnergy t x.vib,
    core := fitPhases 64 x.core, sram := fitPhases 8 x.sram, hbm := fitPhases 8 x.hbm, io := fitPhases 4 x.io,
    jd := fitPhases (if s.suppliesJd t then 1 else 0) x.jd, railHist := hist }

/-- The readings of every enabled tile after a set of samples. -/
def State.sampled (s : State) (xs : List TileSample) : State :=
  let s := (List.range s.dies).foldl (fun (a : State) t =>
    match xs[t]? with
    | some x => { a with pmc := { a.pmc with tiles := tset .reset a.pmc.tiles t (a.tileSample t x) } }
    | none => a) s
  let ts := (List.range s.dies).map s.tileAt
  { s with pmc := { s.pmc with pHist := (sumNat (ts.map (·.pin)) :: s.pmc.pHist).take 50000,
                               huLow := ts.any fun t => decide (t.energy < 4000) } }

/-! ## The windowed and rail terms (R783-R786) -/

/-- The windowed term after an evaluation (R786): up is cooler. Without a limit in force the term falls to 0. -/
def State.windowTerm (s : State) : Nat × Bool :=
  let t := s.pmc.winTerm
  match s.winLimit with
  | none => (t - 1, false)
  | some l =>
    let mean := meanOf s.pmc.pHist (500 * l.2.1)
    if l.1 * 1000 < mean then (min 4 (t + 1), true)
    else
      let held := match s.pmc.winDown with
        | some at_ => decide (s.stb.ticks < at_ + 100000 * l.2.1)
        | none => false
      (if mean * 10 ≤ l.1 * 9000 ∧ !held then t - 1 else t, false)

/-- WINDOW_TERM_EVAL (R786): a step down starts the time in which no step up follows; a term that leaves 0 is an event of
the sideband (R878). -/
def execWindowTermEval (s : State) : Out :=
  let r := s.windowTerm
  let u := { s with pmc := { s.pmc with winTerm := r.1, winDown := if r.2 then some s.stb.ticks else s.pmc.winDown } }
  .next (if s.pmc.winTerm = 0 ∧ 0 < r.1 then u.latch 2 else u)

/-- A rail term after an evaluation (R786): `mean` and the limit in mA. -/
def DivSt.railEval (d : DivSt) (limit : Option Nat) (mean : Nat) : DivSt :=
  match limit with
  | none => { d with rail := d.rail - 1, railCool := 0 }
  | some l =>
    if l < mean then { d with rail := min 4 (d.rail + 1), railCool := 0 }
    else if mean * 10 ≤ l * 9 then
      let c := min 10 (d.railCool + 1)
      { d with rail := if c = 10 then d.rail - 1 else d.rail, railCool := c }
    else { d with railCool := 0 }

/-- RAIL_TERM_EVAL of a tile (R786). -/
def execRailTermEval (tile : Fin 4) (s : State) : Out :=
  guardUnit (tile.val < s.dies)
    (let t := tile.val
     let u := s.modDiv t (·.railEval (s.railLimit.map fun l => l.1 * 1000) (s.tileAt t).irail)
     .next (if (s.divAt t).rail = 0 ∧ 0 < (u.divAt t).rail then u.latch 2 else u))

/-! ## Heat (R744-R750, R792-R797) -/

/-- The compute dies that the thermal map assigns a pair to (R793). -/
def State.pairDies (s : State) (i : Nat) : List Nat :=
  if i < 32 then [i / 8]
  else if i < 34 then [0, 1]
  else if i < 36 then [2, 3]
  else if i < 52 then [(i - 36) / 4]
  else if i = 52 then [if s.dies = 4 then 2 else 1]
  else
    let b := (s.stackAt (i - 53)).band
    if b == .throttled || b == .shutdown then [(i - 53) / 4] else []

/-- LOCUS of a pair (R762). -/
def pairLocus (i : Nat) : BitVec 32 :=
  let f := fun (die unit idx : Nat) => BitVec.ofNat 32 (die + 8 * unit + 256 * idx)
  if i < 32 then f (i / 8) 0 (i % 8)
  else if i < 36 then f (4 + (i - 32) / 2) 0 (i % 2)
  else if i < 52 then f ((i - 36) / 4) ((i - 36) / 4) (i % 4)
  else if i = 52 then f 6 0 0
  else f 7 (i - 53) 0

/-- T_LIMIT in 1/16 °C (R785): 100 °C without a configuration. -/
def State.tLimit (s : State) : Int :=
  16 * (match s.cur.bind fun c => c.2.cfg with
    | some g => (g.power.tLimit : Int)
    | none => 100)

/-- The pairs that count for a die. -/
def State.diePairs (s : State) (d : Nat) : List Nat :=
  (List.range 69).filter fun i => s.pairOn i && (s.pairDies i).contains d

/-- What a pair counts as in R786 (R794). -/
def State.countedReading (s : State) (i : Nat) : Int := if i < 53 then ctrlReading (s.pairAt i) else s.tLimit

/-- A thermal term after a sample (R786, R796): `held` keeps it at its position while a trip is in force (R802). -/
def DivSt.thermEval (d : DivSt) (hot cool held : Bool) : DivSt :=
  if hot then { d with therm := min 4 (d.therm + 1), thermCool := 0 }
  else if cool then
    let c := min 10 (d.thermCool + 1)
    { d with therm := if c = 10 ∧ !held then d.therm - 1 else d.therm, thermCool := c }
  else { d with thermCool := 0 }

/-- The thermal term of a die after a sample. -/
def State.thermDie (s : State) (d : Nat) : State :=
  let rs := (s.diePairs d).map s.countedReading
  let t := s.tLimit
  s.modDiv d (·.thermEval (rs.any fun r => decide (t ≤ r)) (rs.all fun r => decide (r ≤ t - 80)) s.pmc.tripSince.isSome)

/-- A die's thermal term and target at position 4 (R795, R802). -/
def State.slowest (s : State) (d : Nat) : State :=
  (s.modDiv d fun x => { x with therm := 4, thermCool := 0 }).setTarget d 4

/-- The pairs at or above a limit, stacks left out (R794, R795, R797). -/
def State.pairsOver (s : State) (t : Int) : List Nat :=
  (List.range 53).filter fun i => s.pairOn i && decide (t ≤ ctrlReading (s.pairAt i))

/-- An over-temperature (R795): the report at its onset, and the dies of the pair at position 4. -/
def State.overTempAt (s : State) (i : Nat) : State :=
  let s := (s.pairDies i).foldl (fun (a : State) d => if d < a.dies then a.slowest d else a) s
  if s.pmc.overTemp.contains i then s else s.wire (mkReportAll 8 6 (pairLocus i) 0)

/-- Whether a reading has reached the trip limit (R797). -/
def State.tripReading (s : State) : Bool := !(s.pairsOver 1920).isEmpty

/-- The count of a trip ends once no condition of it holds (R802). -/
def State.endTrip (s : State) : State :=
  if s.pin.ttrip0 && s.pin.ttrip1 && !s.tripReading then { s with pmc := { s.pmc with tripSince := none } } else s

/-- THERMAL_SAMPLE (R745, R746, R786, R792-R796, R802). -/
def execThermalSample (pairs : List PairReading) (s : State) : Out :=
  let rose (a b : State) : Bool := (List.range 4).any fun d => (a.divAt d).therm == 0 && (b.divAt d).therm != 0
  let u := ((List.range (min 69 pairs.length)).zip pairs).foldl (fun (a : State) p => a.setPair p.1 p.2) s
  let u := (List.range u.dies).foldl (fun (a : State) d => a.thermDie d) u
  let hot := u.pairsOver 1760
  let u := hot.foldl (fun (a : State) i => a.overTempAt i) u
  let u := { u with pmc := { u.pmc with overTemp := hot } }
  let u := u.endTrip
  .next (if rose s u then u.latch 1 else u)

/-- The target position that the terms of a die ask for (R787). -/
def State.wanted (s : State) (d : Nat) : Nat :=
  let x := s.divAt d
  let fast := match s.cur.bind fun c => c.2.cfg with
    | some g => g.power.fastPos
    | none => 0
  max (max fast s.pmc.winTerm) (max x.rail x.therm)

/-- TARGET_MOVE (R787, R788): at a boundary of 1,000 ticks each target moves by at most one position. -/
def execTargetMove (s : State) : Out :=
  .next ((List.range s.dies).foldl (fun (a : State) d =>
    let t := (a.divAt d).target
    let w := a.wanted d
    if t < w then a.setTarget d (t + 1) else if w < t then a.setTarget d (t - 1) else a) s)

/-! ## Droops (R776-R778, R813) -/

/-- DROOP_START (R776). -/
def execDroopStart (die : Fin 4) (s : State) : Out :=
  guardUnit (die.val < s.dies) (.next { s with pmc := { s.pmc with droop := insNat die.val s.pmc.droop } })

/-- DROOP_END (R777, R813): `skipped` pulses were skipped since the start or since an earlier end. -/
def execDroopEnd (die : Fin 4) (skipped : BitVec 32) (s : State) : Out :=
  guardUnit (die.val < s.dies)
    (if s.pmc.droop.contains die.val then
       .next { s with pmc := { s.pmc with droop := s.pmc.droop.filter (· != die.val),
                                          skip := tmod 0 s.pmc.skip die.val fun c => satAdd32 c skipped.toNat } }
     else .next s)

/-! ## Over-current and trips (R734, R749, R800-R803) -/

/-- RAIL_OVER_CURRENT of a tile (R734, R800, R801). -/
def execRailOverCurrent (tile : Fin 4) (s : State) : Out :=
  guardUnit (tile.val < s.dies)
    (let s := { s with pmc := { s.pmc with oc := true, dieOff := insNat tile.val s.pmc.dieOff } }
     .next ((s.latch 3).report (mkReportAll 9 10 (BitVec.ofNat 32 tile.val) 0)))

/-- The trip inputs as levels; their disagreement is followed (R750). -/
def State.setTrips (s : State) (n0 n1 : Bool) : State :=
  let s := { s with pin := { s.pin with ttrip0 := n0, ttrip1 := n1 } }
  s.track 69 (n0 != n1)

/-- The pair report of a trip by a reading names the hottest pair that reached the limit (R762). -/
def State.tripLocus (s : State) : BitVec 32 :=
  match s.pairsOver 1920 with
  | [] => 0
  | i :: rest =>
    pairLocus (rest.foldl (fun b j => if ctrlReading (s.pairAt b) < ctrlReading (s.pairAt j) then j else b) i)

/-- A thermal trip takes effect (R734, R749, R802). -/
def State.trip (s : State) (r : FaultReport) : State :=
  let s := { s with pmc := { s.pmc with tripSince := some (s.pmc.tripSince.getD s.stb.ticks) } }
  let s := (List.range s.dies).foldl (fun (a : State) d => a.slowest d) s
  (s.latch 1).report r

/-- THERMAL_TRIP (R749, R797, R802): an input that is low, or a reading at the trip limit. -/
def execThermalTrip (src : TripSource) (s : State) : Out :=
  match src with
  | .pin0 => .next ((s.setTrips false s.pin.ttrip1).trip (mkReportAll 0x0E 7 0 0))
  | .pin1 => .next ((s.setTrips s.pin.ttrip0 false).trip (mkReportAll 0x0E 7 0 0))
  | .reading => .next (if s.tripReading then s.trip (mkReportAll 0x0E 6 s.tripLocus 0) else s)

/-- TRIP_CONDITION_RELEASE (R802): the inputs are high; the count ends unless a reading still holds the trip. -/
def execTripConditionRelease (s : State) : Out :=
  .next (s.setTrips true true).endTrip

/-- TRIP_SHUTDOWN (R319, R802, R803): a trip that has held for 10 ms. The requests that the controllers have accepted
complete before their stacks enter self-refresh. -/
def execTripShutdown (s : State) : Out :=
  match s.pmc.tripSince with
  | some t =>
    .next (if t + 1000000 ≤ s.stb.ticks then
        let s := (List.range s.stacks).foldl (fun (a : State) k => if a.serves k then a.drainReqs k else a) s
        { s with pmc := { s.pmc with dieOff := List.range s.dies, selfRefresh := true } }
      else s)
  | none => .next s

/-- SENSOR_DISAGREE (R747, R748, R750): a disagreement of more than 200,000 ticks is recorded once. -/
def execSensorDisagree (p : PairRef) (s : State) : Out :=
  let k := match p with
    | .sensor i => i.val
    | .trip => 69
  match tget none s.pmc.disSince k with
  | none => .next s
  | some t =>
    if s.stb.ticks ≤ t + 200000 ∨ s.flt.disagree.contains k then .next s
    else
      let s := { s with flt := { s.flt with sensDis := true, disagree := insNat k s.flt.disagree } }
      let r : FaultReport :=
        { cls := 0x0F, lkind := if k = 69 then 7 else 6, locus := if k = 69 then 0 else pairLocus k, addr := 0, tags := [],
          all := false, detail := 0 }
      .next (s.report r)

end Sys2Proof.Machine
end

