-- ==== Sys2Proof/Machine/Boot.lean ====
section
/-! DEFINITION. Power loss, resets and boot (R341-R343, R770, R806-R807, R814-R823, R893-R902), and the commit record
that a pending reset or a power loss waits for (R619, R620). -/

namespace Sys2Proof.Machine

/-! ## What a reset leaves (R307, R309, R821) -/

/-- The package with every register, store and context at its reset value, and what every reset keeps: fuses, JD, flash,
host memory, the sideband, and the levels of the inputs. `vaux` says that VAUX was applied (R873). -/
def State.cleared (s : State) (vaux : Bool) : State :=
  let base : PmcSt := .reset
  let flt : FltSt := .reset
  { State.reset with
    pending := s.pending, free := s.free + 2, fuse := s.fuse,
    mem := { State.reset.mem with
      spm := .undef s.free, sram := .undef (s.free + 1), jd := s.mem.jd, host := s.mem.host,
      hostHoles := s.mem.hostHoles, flashA := s.mem.flashA, flashB := s.mem.flashB },
    remap := { s.remap with phys := s.remap.jdPhys, state := s.remap.jdState },
    flt := { flt with
      next := s.flt.next, lftUsed := s.flt.lftUsed, lftFull := s.flt.lftFull, crashNext := s.flt.crashNext,
      seq := s.flt.seq, radishFails := s.flt.radishFails },
    pmc := { base with
      sbWin := if vaux then .off else s.pmc.sbWin, sbRail := if vaux then .off else s.pmc.sbRail },
    sec := { SecSt.reset with challengeNo := s.sec.challengeNo + 1 },
    sb := if vaux then .reset else s.sb,
    pin := { s.pin with faultN := true } }

/-- A cold reset makes a fenced core a spare (R309), but for one that a logical core without a spare still names
(R310). -/
def State.unfence (s : State) : State :=
  (List.range s.dies).foldl (fun (a : State) d =>
    (List.range 100).foldl (fun (a : State) p =>
      if a.physState d p = 2 ∧ (List.range 96).all (fun l => a.physOf d l != p) then a.setPhysState d p 1 else a) a) s

/-! ## Boot (R814-R820) -/

/-- Whether a copy is a firmware copy for another part or a later stepping (R815, R845). -/
def fwMisfit (f : Fuses) (c : FlashCopy) : Bool :=
  fld c.hdr 0 4 == 0x57465154
  && !(fld c.hdr 6 1 == kindCode f.kind && decide (fld c.hdr 7 1 ≤ (if f.stepB then 0xB0 else 0xA0)))

/-- SEC_BOOT_STATUS.FAIL where no copy is admissible (R845). -/
def bootFail (f : Fuses) (a b : FlashCopy) : BitVec 8 :=
  if fwAuthentic f a || fwAuthentic f b then 2 else if fwMisfit f a && fwMisfit f b then 3 else 1

/-- Boot stops with a code (R816, R845). -/
def State.bootStop (s : State) (code : BitVec 8) : State := { s with sec := { s.sec with stage := 15, fail := code } }

/-- Stage 2 (R621, R881): the FRU record and the newest valid records. -/
def State.stage2 (s : State) : State :=
  let rec_ := s.fruStored
  let data := slice rec_ 8 240
  let torn := (List.range 8).any fun i =>
    let b := s.jdRead (0x8000 + i * 0x1000) 4096
    fld b 0xFF8 8 != (crc64 (b.take 0xFF8)).toNat
  let s := { s with fru := { FruSt.reset with
    hostStage := data, sbStage := data, hostSnap := rec_, sbSnap := rec_, committed := rec_ } }
  let s := s.refreshCm
  { s with cm := { s.cm with torn := torn } }

/-- The lanes that a training leaves repaired, as LANE_MAP holds them (R343): at most 24, the reserved bits zero. -/
def laneMap (t : StackTrain) : List (BitVec 16) := (t.lanes.map (· &&& 0x8FFF#16)).take 24

/-- A training record (R343): `old` holds the lanes in use after the previous training. -/
def trainRecord (seq : Nat) (result : BitVec 8) (t : StackTrain) (old : List (BitVec 16)) : Bytes :=
  let lanes := laneMap t
  let fresh := lanes.filter fun l => !old.contains l
  leBytes 4 seq ++ [result, 100#8] ++ leBytes 2 lanes.length ++ leBytes 2 fresh.length
    ++ ((lanes ++ List.replicate (24 - lanes.length) 0xFFFF#16).flatMap fun l => leBytes 2 l.toNat)
    ++ List.replicate 6 0#8

/-- The lanes in use after the previous training, as the JD's record of stack `k` has them (R343). -/
def State.lanesInUse (s : State) (k : Nat) : List (BitVec 16) :=
  let r := s.jdRead (0x100000 + 64 * k) 64
  if fld r 0 4 = 0 then []
  else ((List.range 24).map fun i => (BitVec.ofNat 16 (fld r (0x0A + 2 * i) 2))).filter (· != 0xFFFF#16)

/-- One stack trains (R313, R342, R343): the record goes to the JD. -/
def State.trainStack (s : State) (b : BootEnv) (k : Nat) : State :=
  let none_ : StackTrain := { fail := false, lanes := [] }
  let t := b.train.getD k none_
  let seq := fld (s.jdRead (0x100000 + 64 * k) 4) 0 4
  if s.stacks ≤ k then s.jdWrite (0x100000 + 64 * k) (trainRecord seq 0xFF none_ [])
  else
    (s.jdWrite (0x100000 + 64 * k) (trainRecord (seq + 1) (if t.fail then 1 else 0) t (s.lanesInUse k))).modStack k
      fun x => { x with failed := t.fail }

/-- One die link trains (R505). -/
def State.trainLink (s : State) (b : BootEnv) (i : Nat) : State :=
  let m := 24 + i
  if !s.hasMember m then s
  else
    let s := s.modMember m fun x => { x with spares := b.spares.getD i 0 }
    if b.linkDown.getLsbD i then s else s.bringUp m

/-- Stage 3 (R341-R343, R505-R508): the stores of every stack are zero already. -/
def State.stage3 (s : State) (b : BootEnv) : State :=
  let s := (List.range 16).foldl (fun (a : State) k => a.trainStack b k) s
  let s := (List.range 8).foldl (fun (a : State) i => a.trainLink b i) s
  (List.range 8).foldl (fun (a : State) i =>
    if a.hasMember (24 + i) && b.linkDown.getLsbD i then a.dieLinkDown (24 + i) else a) s

/-- Boot from stage 0 to stage 5 or to a failure (R816-R818). -/
def State.boot (s : State) (b : BootEnv) : State :=
  let mem := match b.flash with
    | some f => { s.mem with flashA := f.1, flashB := f.2 }
    | none => s.mem
  let s := { s with mem := mem }
  match fwChoice s.fuse mem.flashA mem.flashB with
  | none => s.bootStop (bootFail s.fuse mem.flashA mem.flashB)
  | some (fw, copyB) =>
    let s := { s with sec := { s.sec with copyB := copyB, running := fw } }
    if !b.lockstepOk then s.bootStop 4
    else
      let s := (s.stage2).stage3 b
      let s := b.radish.foldl (fun (a : State) k => a.radishResult k) s
      let s := { s with sec := { s.sec with stage := 5 }, fuse := { s.fuse with arb := max s.fuse.arb (fwArb fw) } }
      s.latch 5

/-! ## Resets (R770, R807, R821-R823, R901, R902) -/

/-- The package after a reset: boot starts at once, or waits for PKG_RST_N (R901). -/
def State.resetNow (s : State) (cold vaux : Bool) (b : Option BootEnv) : State :=
  let s := s.cleared vaux
  let s := if cold then s.unfence else s
  match b with
  | some e => if s.pin.pkgRstN then s.boot e else s
  | none => s

/-- Whether a commit is in progress (R619, R822). -/
def State.committing (s : State) : Bool :=
  match s.cur with
  | some (_, x) => x.steps.any StepSt.held
  | none => false

/-- A warm reset is requested (R822, R902): a power loss prevails, and a commit in progress defers it. -/
def State.warmReset (s : State) (b : Option BootEnv) : State :=
  if s.pmc.powerLost then s
  else
    match s.resetDue with
    | some (t, e) => { s with resetDue := some (t, e.orElse fun _ => b) }
    | none => if s.committing then { s with resetDue := some (0, b) } else s.resetNow false false b

/-- The reset that waits takes effect (R822). -/
def State.dueReset (s : State) : State :=
  match s.resetDue with
  | some (_, b) => s.resetNow false false b
  | none => s

/-- Every regulator is off (R807): what is not kept is gone. -/
def State.powerOff (s : State) (vaux : Bool) : State :=
  let s := s.cleared vaux
  { s with pmc := { s.pmc with powerLost := true, dieOff := List.range s.dies } }

/-- COLD_RESET (R818, R821): VAUX and VIN are applied. -/
def execColdReset (b : BootEnv) (s : State) : Out := .next (s.resetNow true true (some b))

/-- WARM_RESET (R901): PKG_RST_N is low. -/
def execWarmReset (s : State) : Out := .next ({ s with pin := { s.pin with pkgRstN := false } }.warmReset none)

/-- PKG_RST_N_RELEASE (R901): boot starts, or starts when a deferred reset takes effect. -/
def execPkgRstNRelease (b : BootEnv) (s : State) : Out :=
  if s.pin.pkgRstN then .next s
  else
    let u := { s with pin := { s.pin with pkgRstN := true } }
    if u.pmc.powerLost then .next u
    else if u.resetDue.isSome then .next (u.warmReset (some b))
    else .next (u.boot b)

/-- PLL_LOCK_LOSS (R770). -/
def execPllLockLoss (b : BootEnv) (s : State) : Out := .next (s.warmReset (some b))

/-- LOCKSTEP_MISMATCH (R823). -/
def execLockstepMismatch (b : BootEnv) (s : State) : Out :=
  if s.pmc.powerLost then .next s
  else
    let s := { s with pin := { s.pin with faultN := false } }
    .next (((s.latch 0).crashSlot (s.haltPayload 0)).warmReset (some b))

/-! ## Power loss (R806, R807, R899) -/

/-- The engines stop and no step but a commit in progress goes on (R807). -/
def State.loseSteps (s : State) : State :=
  match s.cur with
  | none => s
  | some (c, x) =>
    let s := x.steps.foldl (fun (a : State) t => if t.held then a else a.stopStep t.no) s
    s.modCtx c.val fun x =>
      { x with next := none, steps := x.steps.map fun t =>
          if t.held then t else { t with st := .aborted, restoring := false, restored := false } }

/-- POWER_LOSS (R806, R807, R899): `vaux` says that VAUX is lost as well. -/
def execPowerLoss (vaux : Bool) (s : State) : Out :=
  if s.pmc.powerLost then
    .next (if vaux then { s with sb := .reset, pmc := { s.pmc with sbWin := .off, sbRail := .off } } else s)
  else
    let s := if vaux then { s with sb := .reset, pmc := { s.pmc with sbWin := .off, sbRail := .off } } else s
    let s := { s.loseSteps with resetDue := none }
    let s := { s with pmc := { s.pmc with powerLost := true, dieOff := List.range s.dies } }
    .next (if s.committing then s else s.powerOff false)

/-- POWER_RESTORE (R807): a cold reset. -/
def execPowerRestore (b : BootEnv) (s : State) : Out :=
  .next (if s.pmc.powerLost then s.resetNow true false (some b) else s)

/-- REGULATOR_SAMPLE (R780-R782, R804, R807): after a power loss an intermediate bus at 1.40 V ends a commit in
progress. -/
def execRegulatorSample (tiles : List TileSample) (s : State) : Out :=
  let u := s.sampled tiles
  let flat := (List.range u.dies).any fun t => decide ((u.tileAt t).vib ≤ 1400)
  .next (if u.pmc.powerLost ∧ flat then u.powerOff false else u)

/-- COMMIT_RECORD_WRITTEN (R619, R620, R807, R822): the record's write and read-back, and what waits for its end. -/
def execCommitRecordWritten (c : Fin 4) (ok : Bool) (s : State) : Out :=
  if s.resident ≠ some c ∨ !s.committing then .next s
  else
    let u := s.commitWritten c.val ok
    .next (if u.pmc.powerLost then (if u.committing then u else u.powerOff false)
      else if ok then u.dueReset else u)

end Sys2Proof.Machine
end

