-- ==== Sys2Proof/Machine/Manage.lean ====
section
/-! DEFINITION. The FRU record (R879-R888) and the I3C sideband target (R872-R878, R889). -/

namespace Sys2Proof.Machine

/-! ## FRU commits (R881-R884) -/

/-- The sideband's staging buffer. -/
def State.fruSbStage (s : State) : Bytes := if s.fru.sbStage.isEmpty then slice s.fruStored 8 240 else s.fru.sbStage

/-- The package with its FRU logic changed. -/
def State.modFru (s : State) (f : FruSt → FruSt) : State := { s with fru := f s.fru }

/-- A commit starts: it takes its side's staging buffer and the next GEN (R882). -/
def State.startFru (s : State) (side : FruSide) : State :=
  let data := match side with
    | .host => s.fruHostStage
    | .sideband => s.fruSbStage
  let b := fruRecord ((fld s.fruCommitted 4 2 + 1) % 65536) data
  s.modFru fun f => { f with running := some (side, b) }

/-- A commit is requested: it starts, or waits while another runs (R883). -/
def State.askFru (s : State) (side : FruSide) : State :=
  if s.fru.running.isNone then s.startFru side
  else s.modFru fun f => { f with queued := if f.queued.contains side then f.queued else f.queued ++ [side] }

/-- The host's staging buffer is reloaded from the committed record (R881). -/
def State.discardHost (s : State) : State := s.modFru fun f => { f with hostStage := slice s.fruCommitted 8 240 }

/-- The host takes a snapshot of the committed record (R884). -/
def State.snapHost (s : State) : State := s.modFru fun f => { f with hostSnap := s.fruCommitted }

/-- Whether the registers of BAR0 respond in full (R819). -/
def State.ready (s : State) : Bool := s.sec.stage == 5

/-- HOST_FRU_COMMIT (R882, R883, R887). -/
def execHostFruCommit (s : State) : Out := .next (if s.ready then s.askFru .host else s)

/-- HOST_FRU_DISCARD (R881, R887). -/
def execHostFruDiscard (s : State) : Out := .next (if s.ready then s.discardHost else s)

/-- FRU_SNAPSHOT_READ (R884): the host reads word 0 of its new snapshot. -/
def execFruSnapshotRead (s : State) : Out :=
  if !s.ready then .next s
  else
    let s := s.snapHost
    .next { s with bus := tmod .reset s.bus 3 fun b => { b with data := BitVec.ofNat 64 (s.regVal (.fruData 0)) } }

/-- The sideband's response, where no later command has one (R874). -/
def State.respond? (s : State) (bs : Bytes) : State :=
  if s.sb.resp.isNone then { s with sb := { s.sb with resp := some bs } } else s

/-- FRU_COMMIT_COMPLETE (R878, R882, R883): the record is written and read back, once more where the first read-back
fails; a queued commit follows. -/
def execFruCommitComplete (first second : Bool) (s : State) : Out :=
  match s.fru.running with
  | none => .next s
  | some (side, b) =>
    let ok := first || second
    let gen := fld b 4 2
    let torn := b.set 0xF8 (b.getD 0xF8 0#8 ^^^ 1#8)
    let s := s.jdWrite (0x2000 + 0x100 * (gen % 2)) (if ok then b else torn)
    let s := s.modFru fun f => { f with running := none, committed := if ok then b else s.fruCommitted }
    let s := match side with
      | .host =>
        let s := s.modFru fun f => { f with done := f.done || ok, fail := f.fail || !ok }
        if ok then s.latch 4 else s
      | .sideband => s.respond? (if ok then 0#8 :: leBytes 2 gen else [2#8])
    match s.fru.queued with
    | [] => .next s
    | q :: rest => .next ((s.modFru fun f => { f with queued := rest }).startFru q)

/-! ## Sideband commands (R874-R878) -/

/-- The response to a sideband command. -/
def State.sbAnswer (s : State) (bs : Bytes) : State := { s with sb := { s.sb with resp := some bs } }

/-- BAD_ARG. -/
def State.sbBadArg (s : State) : State := s.sbAnswer [2#8]

/-- Whether boot has reached stage 2 (R876). -/
def State.sbOn (s : State) : Bool := decide (2 ≤ s.sec.stage) && decide (s.sec.stage ≤ 5)

/-- A command that needs stage 2: NOT_READY before it. -/
def State.sbReady (s : State) (f : State → State) : Out := .next (if s.sbOn then f s else s.sbAnswer [3#8])

/-- DYNAMIC_ADDRESS_ASSIGN (R872, R889). -/
def execDynamicAddressAssign (addr : BitVec 7) (s : State) : Out :=
  .next { s with sb := { s.sb with daddr := addr, daValid := true } }

/-- Whether a commit of the sideband has not ended. -/
def State.sbCommitting (s : State) : Bool :=
  (match s.fru.running with
   | some (.sideband, _) => true
   | _ => false)
  || s.fru.queued.contains .sideband

/-- SIDEBAND_READ (R874): the response, BAD_CMD where no command was written, or a NACK while a commit runs. -/
def execSidebandRead (s : State) : Out :=
  match s.sb.resp with
  | some b => .next { s with sb := { s.sb with resp := none, read := b } }
  | none => .next (if s.sbCommitting then s else { s with sb := { s.sb with read := [1#8] } })

/-- GET_ID (R876). -/
def execGetId (s : State) : Out :=
  let fw := if s.sbOn then s.fwBytes else List.replicate 4 0#8
  .next (s.sbAnswer ([0#8, BitVec.ofNat 8 (kindCode s.fuse.kind), BitVec.ofNat 8 (stepCode s.fuse)] ++ fw
    ++ leBytes 8 s.fuse.serial.toNat))

/-- GET_STATUS (R876). -/
def execGetStatus (s : State) : Out :=
  .next (s.sbAnswer (0#8 :: (leBytes 4 (s.regVal .bootStatus) ++ leBytes 4 (s.regVal .fltStatus)
    ++ leBytes 4 (s.regVal .pmcStatus) ++ s.residentBytes)))

/-- READ_TELEM (R869-R871, R876): OFFSET 0 takes the set whole. -/
def execReadTelem (set : BitVec 8) (off : BitVec 16) (s : State) : Out :=
  s.sbReady fun s =>
    match s.telemetry set.toNat with
    | none => s.sbBadArg
    | some b =>
      let t := if off = 0 then b else s.sb.telem
      if t.length ≤ off.toNat then s.sbBadArg
      else ({ s with sb := { s.sb with telem := t } }).sbAnswer (0#8 :: (t.drop off.toNat).take 64)

/-- SET_PWIN (R705, R784, R876, R877). -/
def execSetPwin (limit : BitVec 16) (ms en : BitVec 8) (s : State) : Out :=
  s.sbReady fun s =>
    let ok := en == 0 || (en == 1 && decide (100 ≤ limit.toNat) && decide (limit.toNat ≤ maxPower s.fuse.kind)
      && decide (1 ≤ ms.toNat) && decide (ms.toNat ≤ 100))
    if !ok then s.sbBadArg
    else
      let l : LimitSt := if en = 1 then { en := true, limit := limit.toNat, ms := ms.toNat } else .off
      ({ s with pmc := { s.pmc with sbWin := l } }).sbAnswer [0#8]

/-- SET_PRAIL (R705, R784, R876, R877). -/
def execSetPrail (limit en : BitVec 8) (s : State) : Out :=
  s.sbReady fun s =>
    let ok := en == 0 || (en == 1 && decide (1 ≤ limit.toNat) && decide (limit.toNat ≤ 95))
    if !ok then s.sbBadArg
    else
      let l : LimitSt := if en = 1 then { en := true, limit := limit.toNat, ms := 0 } else .off
      ({ s with pmc := { s.pmc with sbRail := l } }).sbAnswer [0#8]

/-- GET_LIMITS (R876). -/
def execGetLimits (s : State) : Out :=
  s.sbReady fun s => s.sbAnswer (0#8 :: (leBytes 4 (s.regVal .plwin) ++ leBytes 4 (s.regVal .plrail)))

/-- FRU_READ (R876, R884): OFFSET 0 takes the sideband's snapshot. -/
def execFruRead (off : BitVec 8) (s : State) : Out :=
  s.sbReady fun s =>
    if off.toNat % 64 ≠ 0 then s.sbBadArg
    else
      let s := if off = 0 then s.modFru fun f => { f with sbSnap := s.fruCommitted } else s
      let b := if s.fru.sbSnap.isEmpty then s.fruStored else s.fru.sbSnap
      s.sbAnswer (0#8 :: slice b off.toNat 64)

/-- FRU_STAGE (R876, R881). -/
def execFruStage (off : BitVec 8) (data : Bytes) (s : State) : Out :=
  s.sbReady fun s =>
    if off.toNat < 8 ∨ data.length = 0 ∨ 32 < data.length ∨ 0xF8 < off.toNat + data.length then s.sbBadArg
    else (s.modFru fun f => { f with sbStage := splice s.fruSbStage (off.toNat - 8) data }).sbAnswer [0#8]

/-- FRU_COMMIT (R874, R876, R882): the response follows the commit. -/
def execFruCommit (s : State) : Out :=
  s.sbReady fun s => ({ s with sb := { s.sb with resp := none } }).askFru .sideband

/-- FRU_DISCARD (R876, R881). -/
def execFruDiscard (s : State) : Out :=
  s.sbReady fun s => (s.modFru fun f => { f with sbStage := slice s.fruCommitted 8 240 }).sbAnswer [0#8]

/-- SET_IBI_MASK (R876, R878): a set bit of MASK masks its event. -/
def execSetIbiMask (m : BitVec 8) (s : State) : Out :=
  let ibi := match s.sb.ibi with
    | some b => some b
    | none => if s.sb.events &&& ~~~m = 0 then none else some s.sb.events
  .next (({ s with sb := { s.sb with mask := m, ibi := ibi } }).sbAnswer [0#8])

/-- READ_EVENTS (R876, R878). -/
def execReadEvents (s : State) : Out :=
  .next (({ s with sb := { s.sb with events := 0, ibi := none } }).sbAnswer [0#8, s.sb.events])

end Sys2Proof.Machine
end

