-- ==== Sys2Proof/Machine/Bus.lean ====
section
/-! DEFINITION. Accesses to the registers (R10-R16, R819, R852-R859): decoding, reads, writes under their access codes,
keyed sequences and locks (R836-R840, R847-R851, R913, R914), the ring registers (R641-R652), and the debug path
(R842-R844). -/

namespace Sys2Proof.Machine

/-- The order of R837. -/
def agentNo : Agent → Nat
  | .debug => 0
  | .control => 1
  | .service => 2
  | .host => 3

/-- The package with its SEC registers changed. -/
def State.modSec (s : State) (f : SecSt → SecSt) : State := { s with sec := f s.sec }

/-- SEC_STATUS.SEQ_FAIL is set. -/
def State.seqFail (s : State) : State := s.modSec fun c => { c with seqFail := true }

/-- An agent's bit of SEC_STATUS.LOCK_BUSY is set. -/
def State.lockBusy (s : State) (a : Agent) : State :=
  s.modSec fun c => { c with lockBusy := c.lockBusy ||| BitVec.ofNat 4 (2 ^ agentNo a) }

/-! ## Rings (R641-R652) -/

/-- The host software writes its own memory. -/
def State.hostWrites (s : State) (ws : List HostWrite) : State :=
  ws.foldl (fun (a : State) w => a.hostWrite w.addr.toNat w.data) s

/-- A write of CIT_SQ_PTR.TAIL (R642, R644). -/
def State.ringTail (s : State) (r : Nat) (tail : BitVec 16) : State :=
  let s := s.modRing r fun q =>
    if 256 < (tail - q.sqHead).toNat then { q with sqTail := tail, overrun := true, stopped := true }
    else { q with sqTail := tail }
  s.pumpRing r 256

/-- A write of CIT_CQ_PTR.HEAD (R646, R647). -/
def State.ringHead (s : State) (r : Nat) (head : BitVec 16) : State :=
  let q := s.ringAt r
  if 256 < (q.cqTail - head).toNat then s
  else ((s.modRing r fun q => { q with cqHead := head }).drainWait r 512).pumpRing r 256

/-- A write of CIT_CTL (R648). -/
def State.ringCtl (s : State) (r : Nat) (en irqEn : Bool) : State :=
  s.modRing r fun q =>
    if en then
      { q with en := true, irqEn := irqEn, sqTail := 0, sqHead := 0, cqHead := 0, cqTail := 0, stopped := false }
    else { q with en := false, irqEn := irqEn, stopped := true }

/-- DOORBELL (R641-R644). -/
def execDoorbell (r : Fin 8) (writes : List HostWrite) (tail : BitVec 16) (s : State) : Out :=
  let s := s.hostWrites writes
  .next (if s.ready then s.ringTail r.val tail else s)

/-- RING_ENABLE (R648, R649, R819). -/
def execRingEnable (r : Fin 8) (writes : List HostWrite) (irqEn : Bool) (s : State) : Out :=
  let s := s.hostWrites writes
  .next (if s.ready then s.ringCtl r.val true irqEn else s)

/-- RING_DISABLE (R648). -/
def execRingDisable (r : Fin 8) (irqEn : Bool) (s : State) : Out :=
  .next (if s.ready then s.ringCtl r.val false irqEn else s)

/-- COMPLETION_HEAD_WRITE (R646, R647, R665). -/
def execCompletionHeadWrite (r : Fin 8) (head : BitVec 16) (s : State) : Out :=
  .next (if s.ready then s.ringHead r.val head else s)

/-- PCIE_HOT_RESET (R651, R821): every ring is disabled, and commands in progress complete without a reply. -/
def execPcieHotReset (s : State) : Out :=
  .next { s with rings := tmapAll .reset s.rings fun q =>
    { q with en := false, stopped := true, mute := q.cur.isSome, waiting := [] } }

/-! ## Keyed sequences (R837-R840, R847, R848, R913, R914) -/

/-- Whether the window of a sequence is open (R839). -/
def KeySeq.live (k : KeySeq) : Bool := decide (k.count ≤ 64)

/-- Whether a register takes a keyed write (R914). -/
def Reg.keyed : Reg → Bool
  | .memLock _ | .linkLock _ | .lsecLock | .lsecCtl _ => true
  | _ => false

/-- A write of SEC_KEYSEQ (R848, R913). -/
def State.keyWrite (s : State) (a : Agent) (v : Nat) : State :=
  let unit := bits v 23 21
  let target := 4 * bits v 20 0
  let taken := match s.sec.seq with
    | some k => k.live && k.agent != a
    | none => false
  if taken then s.lockBusy a
  else
    let s := s.modSec fun c => { c with seq := none }
    if bits v 31 24 = 0xA5 ∧ (s.regAt unit target).any Reg.keyed then
      s.modSec fun c => { c with seq := some { agent := a, unit := unit, target := target, count := 0 } }
    else s.seqFail

/-- Whether another agent's open sequence names a register (R838). -/
def State.keyedAway (s : State) (a : Agent) (u off : Nat) : Bool :=
  match s.sec.seq with
  | some k => k.live && k.agent != a && k.unit == u && k.target == off
  | none => false

/-- How a write to a register stands to the keyed sequence. -/
inductive KeyUse where
  | plain | keyed | late
  deriving DecidableEq, Repr

/-- The standing of a write by an agent (R839). -/
def State.keyUse (s : State) (a : Agent) (u off : Nat) : KeyUse :=
  match s.sec.seq with
  | some k => if k.agent = a ∧ k.unit = u ∧ k.target = off then (if k.live then .keyed else .late) else .plain
  | none => .plain

/-! ## Writes (R10, R16) -/

/-- A lock register after a write (R836, R849, R914); the second part says whether SEQ_FAIL is set. -/
def LockSt.write (l : LockSt) (keyed : Bool) (v : Nat) : LockSt × Bool :=
  let viol := (l.viol && !bitOf v 1) || (l.lock && !bitOf v 0)
  ({ lock := l.lock || (bitOf v 0 && keyed), viol := viol }, bitOf v 0 && !l.lock && !keyed)

/-- A field of a register after a write: the new bits where they are allowed and lie in the written bits. -/
def fieldWrite (old v mask hi lo : Nat) (ok : Nat → Bool) : Nat :=
  let w := (2 ^ (hi + 1 - lo) - 1) * 2 ^ lo
  let merged := (old &&& (w ^^^ (w &&& mask))) ||| (v &&& mask &&& w)
  if ok (merged / 2 ^ lo) then merged else old &&& w

/-- LINK_BKT_CFG after a write (R522). -/
def bktWrite (old v mask : Nat) : Nat :=
  let any (_ : Nat) : Bool := true
  let limit (x : Nat) : Bool := x != 0
  fieldWrite old v mask 7 0 any + fieldWrite old v mask 15 8 any + fieldWrite old v mask 23 16 any
    + fieldWrite old v mask 47 32 limit + fieldWrite old v mask 55 48 limit + fieldWrite old v mask 63 56 limit

/-- The staged key as one number, word 0 least significant (R832). -/
def stagedKey (ws : List (BitVec 32)) : BitVec 256 := BitVec.ofNat 256 (leNat (ws.flatMap fun w => leBytes 4 w.toNat))

/-- The staged key moves into a context (R832, R833). -/
def State.loadKey (s : State) (c : Nat) : State :=
  let x := s.ctxAt c
  let k := stagedKey s.sec.stageKey
  let j := s.sec.stageJob
  let zero (a : State) : State := a.modSec fun e => { e with stageKey := List.replicate 8 0#32 }
  if x.st ≠ .stepping then
    zero (s.modCtx c fun x => { x with lsec := { x.lsec with key := k, keyJob := j, valid := true } })
  else if x.swapAt.isSome then zero (s.modCtx c fun x => { x with lsec := { x.lsec with pend := some (k, j) } })
  else s.seqFail

/-- A write of LSEC_CTL (R832, R833, R849, R850, R914). -/
def State.lsecWrite (s : State) (c : Nat) (keyed : Bool) (v : Nat) : State :=
  let l := (s.ctxAt c).lsec
  let load := bitOf v 2
  let s := if load && !keyed then s.seqFail else s
  if s.lsecLock.lock then
    if l.en != bitOf v 0 || l.hs != bitOf v 1 || (load && keyed) then
      { s with lsecLock := { s.lsecLock with viol := true } }
    else s
  else
    let s := s.modCtx c fun x => { x with lsec := { x.lsec with en := bitOf v 0, hs := bitOf v 1 } }
    if load && keyed then s.loadKey c else s

/-- The reserved bits of a register take what is written to them (R10). -/
def State.rsvWrite (s : State) (u off : Nat) (r : Reg) (v mask : Nat) : State :=
  let m : BitVec 64 := BitVec.ofNat 64 (r.rsvMask &&& mask)
  if m = 0 then s
  else { s with rsv := tmod 0#64 s.rsv (rsvKey u off) fun o => (o &&& ~~~m) ||| (BitVec.ofNat 64 v &&& m) }

/-- A write takes effect: `mask` are the bits written. Read-only registers keep their value. -/
def State.regWrite (s : State) (a : Agent) (r : Reg) (keyed : Bool) (v mask : Nat) : State :=
  match r with
  | .scrubCfg d =>
    let n := bits v 24 0
    let old := (tget 0x3EBE8#32 s.scrub d).toNat
    if n < 1000 ∨ 257000 < n ∨ n = old then s
    else if (tget LockSt.reset s.memLock d).lock then
      { s with memLock := tmod .reset s.memLock d fun l => { l with viol := true } }
    else { s with scrub := tset 0x3EBE8#32 s.scrub d (BitVec.ofNat 32 n) }
  | .memLock d =>
    let q := (tget LockSt.reset s.memLock d).write keyed v
    let s := { s with memLock := tset .reset s.memLock d q.1 }
    if q.2 then s.seqFail else s
  | .linkLock io =>
    let q := (tget LockSt.reset s.linkLock io).write keyed v
    let s := { s with linkLock := tset .reset s.linkLock io q.1 }
    if q.2 then s.seqFail else s
  | .lsecLock =>
    let q := s.lsecLock.write keyed v
    let s := { s with lsecLock := q.1 }
    if q.2 then s.seqFail else s
  | .lsecCtl c => s.lsecWrite c keyed v
  | .lsecKey w => s.modSec fun c => { c with stageKey := c.stageKey.set w (BitVec.ofNat 32 v) }
  | .lsecJob => s.modSec fun c => { c with stageJob := BitVec.ofNat 16 v }
  | .keySeq => s.keyWrite a v
  | .sqBase q =>
    s.modRing q fun t =>
      if t.en then t
      else
        let o := b2n t.sqLoc + 4096 * t.sqAddr.toNat
        let n := fieldWrite o v mask 0 0 (fun _ => true) + fieldWrite o v mask 63 12 (fun _ => true)
        { t with sqLoc := bitOf n 0, sqAddr := BitVec.ofNat 52 (n / 4096) }
  | .cqBase q =>
    s.modRing q fun t =>
      if t.en then t
      else { t with cqAddr := BitVec.ofNat 52 (fieldWrite (4096 * t.cqAddr.toNat) v mask 63 12 (fun _ => true) / 4096) }
  | .citCtl q => if s.ready then s.ringCtl q (bitOf v 0) (bitOf v 1) else s
  | .sqPtr q => s.ringTail q (BitVec.ofNat 16 v)
  | .cqPtr q => s.ringHead q (BitVec.ofNat 16 v)
  | .bktCfg io =>
    let old := (tget 0xC8C803E800040410#64 s.net.bktCfg io).toNat
    let n := bktWrite old v mask
    if n = old then s
    else if (tget LockSt.reset s.linkLock io).lock then
      { s with linkLock := tmod .reset s.linkLock io fun l => { l with viol := true } }
    else { s with net := { s.net with bktCfg := tset 0xC8C803E800040410#64 s.net.bktCfg io (BitVec.ofNat 64 n) } }
  | .fruCtl =>
    (match bitOf v 0, bitOf v 1 with
     | true, false => s.askFru .host
     | false, true => s.discardHost
     | _, _ => s)
  | .fruStage w => s.modFru fun f => { f with hostStage := splice s.fruHostStage (4 * w) (leBytes 4 v) }
  | _ => s

/-- A write of some bits of a register by an agent, with its keyed sequence (R838, R839). -/
def State.accessWrite (s : State) (a : Agent) (u off : Nat) (r : Reg) (v mask : Nat) : State :=
  if s.keyedAway a u off then s.lockBusy a
  else
    match s.keyUse a u off with
    | .late => (s.modSec fun c => { c with seq := none }).seqFail
    | .keyed => ((s.modSec fun c => { c with seq := none }).rsvWrite u off r v mask).regWrite a r true v mask
    | .plain => (s.rsvWrite u off r v mask).regWrite a r false v mask

/-! ## Bus accesses (R852-R859) -/

/-- The package with an agent's bus state changed. -/
def State.modBus (s : State) (a : Agent) (f : BusSt → BusSt) : State :=
  { s with bus := tmod .reset s.bus (agentNo a) f }

/-- What an address names for an agent. -/
inductive BusPlace where
  | reg (u off : Nat) (peek : Bool)
  | ring (off : Nat)
  | msix (off : Nat)
  | pba (off : Nat)
  | store (a : Nat)
  | none
  deriving DecidableEq, Repr

/-- Where BAR0 leads (R852, R854). -/
def barPlace (off : Nat) : BusPlace :=
  if off < 0x00800000 then .reg 4 off false
  else if off < 0x01000000 then .reg 5 (off - 0x00800000) false
  else if off < 0x03000000 then .reg ((off - 0x01000000) / 0x800000) ((off - 0x01000000) % 0x800000) false
  else if off < 0x03020000 then .ring (off - 0x03000000)
  else if off < 0x03020080 then .msix (off - 0x03020000)
  else if 0x03021000 ≤ off ∧ off < 0x03021008 then .pba (off - 0x03021000)
  else .none

/-- Whether a register answers before stage 5 (R819). -/
def earlyReg : Reg → Bool
  | .bootStatus | .secStatus | .keySeq => true
  | _ => false

/-- What an address names: the host reaches BAR0; Town Hall's cores reach the register windows and the JD window (R325);
the open debug path reaches those, HBM and every SRAM (scratchpads and Markets among them: DEDUCED) (R842). -/
def State.busPlace (s : State) (a : Agent) (addr : BusAddr) : BusPlace :=
  match a, addr with
  | .host, .bar0 off =>
    (match barPlace off.toNat with
     | .reg u o p => if s.ready || (s.regAt u o).any earlyReg then .reg u o p else .none
     | q => if s.ready then q else .none)
  | .host, .phys _ => .none
  | _, .bar0 _ => .none
  | a, .phys p =>
    (match s.place p.toNat with
     | .reg u o =>
       if a = .debug ∧ !s.sec.scope.getLsbD 1 then .none
       else if o < 0x800000 then .reg u o false else .reg u (o - 0x800000) true
     | .jd _ => .store p.toNat
     | .hbm | .sram _ _ | .spm _ _ _ | .market _ _ => if a = .debug then .store p.toNat else .none
     | .none => .none)

/-- Whether an agent may read or write stores: the debug path under its scope (R842). -/
def State.mayStore (s : State) (a : Agent) (bit : Nat) : Bool := a != .debug || s.sec.scope.getLsbD bit

/-- Whether an access is aligned (R855). -/
def busAligned (addr : BusAddr) (wide : Bool) : Bool :=
  let v := match addr with
    | .bar0 o => o.toNat
    | .phys p => p.toNat
  v % (if wide then 8 else 4) == 0

/-- The high half of a 64-bit register is latched for an agent's next read of it (R857). -/
def State.latchHigh (s : State) (a : Agent) (u off : Nat) (h : BitVec 32) : State :=
  s.modBus a fun b => { b with latch := tset none b.latch (rsvKey u off) (some h) }

/-- A read of one 32-bit half or register (R857); the package after what it clears and latches. -/
def State.read32 (s : State) (a : Agent) (u off : Nat) (peek : Bool) : State × Nat :=
  match s.regAt u off with
  | some r =>
    if !peek && s.keyedAway a u off then (s.lockBusy a, 0)
    else
      let s := if r = .fruData 0 ∧ a = .host then s.snapHost else s
      let v := (s.regRead u off r).toNat
      if peek then (s, v % 2 ^ 32)
      else
        let s := if r.wide then s.latchHigh a u off (BitVec.ofNat 32 (v / 2 ^ 32)) else s
        (s.regClear r true r.wide, v % 2 ^ 32)
  | none =>
    if off < 4 then (s, 0)
    else
      match s.regAt u (off - 4) with
      | some r =>
        if !r.wide then (s, 0)
        else
          let v := (s.regRead u (off - 4) r).toNat / 2 ^ 32
          if peek then (s, v)
          else
            (match tget none (tget BusSt.reset s.bus (agentNo a)).latch (rsvKey u (off - 4)) with
             | some h => (s.modBus a fun b => { b with latch := tset none b.latch (rsvKey u (off - 4)) none }, h.toNat)
             | none => (s.regClear r false true, v))
      | none => (s, 0)

/-- A read of a register window (R856, R859): what the test-only range returns is left open. -/
def State.readReg (s : State) (a : Agent) (u off : Nat) (wide peek : Bool) : State × BitVec 64 :=
  if 0x400000 ≤ off then
    let v := Config.testRead s.free
    ({ s with free := s.free + 1 }, if wide then v else BitVec.ofNat 64 (v.toNat % 2 ^ 32))
  else if !wide then
    let q := s.read32 a u off peek
    (q.1, BitVec.ofNat 64 q.2)
  else
    match s.regAt u off with
    | some r =>
      if r.wide then
        let v := s.regRead u off r
        (if peek then s else s.regClear r true true, v)
      else
        let l := s.read32 a u off peek
        let h := l.1.read32 a u (off + 4) peek
        (h.1, BitVec.ofNat 64 (l.2 + 2 ^ 32 * h.2))
    | none =>
      let h := s.read32 a u (off + 4) peek
      (h.1, BitVec.ofNat 64 (2 ^ 32 * h.2))

/-- A read by an agent; the debug path reads memory under its scope (R842). -/
def State.busRead (s : State) (a : Agent) (addr : BusAddr) (wide : Bool) : State × BitVec 64 :=
  let n := if wide then 8 else 4
  if !busAligned addr wide then (s, 0)
  else
    match s.busPlace a addr with
    | .reg u off peek => s.readReg a u off wide peek
    | .ring off => (s, BitVec.ofNat 64 (leNat (rdBytes s.mem.ringWin off n)))
    | .msix off => (s, BitVec.ofNat 64 (leNat (rdBytes s.msix.table off n)))
    | .pba off => (s, BitVec.ofNat 64 (if off = 0 then s.msix.pend.toNat else 0))
    | .store p =>
      if !s.mayStore a 2 then (s, 0)
      else
        (match s.place p with
         | .jd o => (s, BitVec.ofNat 64 (leNat (s.journalBytes o n)))
         | _ => let q := s.memRead none none p n; (q.1, BitVec.ofNat 64 (leNat q.2)))
    | .none => (s, 0)

/-- A 32-bit write into a register window (R858). -/
def State.write32 (s : State) (a : Agent) (u off v : Nat) : State :=
  match s.regAt u off with
  | some r =>
    if s.keyedAway a u off then s.lockBusy a
    else if r.wide then s.modBus a fun b => { b with held := tset none b.held (rsvKey u off) (some (BitVec.ofNat 32 v)) }
    else s.accessWrite a u off r (v % 2 ^ 32) (2 ^ 32 - 1)
  | none =>
    if off < 4 then s
    else
      match s.regAt u (off - 4) with
      | some r =>
        if !r.wide then s
        else
          let top := 2 ^ 32 * (v % 2 ^ 32)
          (match tget none (tget BusSt.reset s.bus (agentNo a)).held (rsvKey u (off - 4)) with
           | some l =>
             (s.modBus a fun b => { b with held := tset none b.held (rsvKey u (off - 4)) none }).accessWrite a u (off - 4) r
               (top + l.toNat) (2 ^ 64 - 1)
           | none => s.accessWrite a u (off - 4) r top ((2 ^ 32 - 1) * 2 ^ 32))
      | none => s

/-- Pending vectors that are no longer masked are raised (R652, R852). -/
def State.msixUnmask (s : State) : State :=
  (List.range 8).foldl (fun (a : State) i =>
    if a.msix.pend.getLsbD i && !bitOf (fld (rdBytes a.msix.table (16 * i) 16) 12 4) 0 then
      ({ a with msix := { a.msix with pend := a.msix.pend &&& ~~~(BitVec.ofNat 8 (2 ^ i)) } }).raise i
    else a) s

/-- A write by an agent. -/
def State.busWrite (s : State) (a : Agent) (addr : BusAddr) (wide : Bool) (v : BitVec 64) : State :=
  let n := if wide then 8 else 4
  if !busAligned addr wide then s
  else
    match s.busPlace a addr with
    | .reg u off peek =>
      if peek || decide (0x400000 ≤ off) then s
      else if !wide then s.write32 a u off v.toNat
      else
        (match s.regAt u off with
         | some r =>
           if r.wide then s.accessWrite a u off r v.toNat (2 ^ 64 - 1)
           else (s.write32 a u off (v.toNat % 2 ^ 32)).write32 a u (off + 4) (v.toNat / 2 ^ 32)
         | none => s.write32 a u (off + 4) (v.toNat / 2 ^ 32))
    | .ring off => { s with mem := { s.mem with ringWin := wrBytes s.mem.ringWin off (leBytes n v.toNat) } }
    | .msix off => ({ s with msix := { s.msix with table := wrBytes s.msix.table off (leBytes n v.toNat) } }).msixUnmask
    | .pba _ => s
    | .store p =>
      if !s.mayStore a 3 then s
      else
        (match s.place p with
         | .jd o => if o < 0x1000 then s else s.jdWrite o (leBytes n v.toNat)
         | _ => s.memWrite none p (leBytes n v.toNat))
    | .none => s

/-- The package after an agent has read a value. -/
def State.returned (s : State) (a : Agent) (v : BitVec 64) : State := s.modBus a fun b => { b with data := v }

/-- REGISTER_WRITE (R10, R13, R16, R29, R819, R855-R860). -/
def execRegisterWrite (a : Agent) (addr : BusAddr) (wide : Bool) (v : BitVec 64) (s : State) : Out :=
  .next (s.busWrite a addr wide v)

/-- CLEARING_READ (R10-R12, R819, R853-R857, R859). -/
def execClearingRead (a : Agent) (addr : BusAddr) (wide : Bool) (s : State) : Out :=
  let q := s.busRead a addr wide
  .next (q.1.returned a q.2)

/-- The place of a register of Town Hall's die for an agent. -/
def townAddr (a : Agent) (off : Nat) : BusAddr :=
  match a with
  | .host => .bar0 (BitVec.ofNat 26 off)
  | _ => .phys (BitVec.ofNat 48 (0x1004C0000000 + off))

/-- STB_TIME_LOW_READ (R456, R857): bits [63:32] are latched for the agent's next read. -/
def execStbTimeLowRead (a : Agent) (s : State) : Out :=
  let q := s.busRead a (townAddr a 0x2050) false
  .next (q.1.returned a q.2)

/-- KEY_WRITE (R837, R840, R847, R848, R913). -/
def execKeyWrite (a : Agent) (v : BitVec 32) (s : State) : Out :=
  .next (s.busWrite a (townAddr a 0x0008) false (BitVec.ofNat 64 v.toNat))

/-- The place of a lock register for an agent (R836, R862, R864). -/
def lockAddr (a : Agent) (b : LockBlk) : BusAddr :=
  let w := match b with
    | .mem d => (d.val, 0x2054)
    | .link io => (4 + io.val, 0x30A8)
    | .lsec => (4, 0x0148)
  match a with
  | .host => .bar0 (BitVec.ofNat 26 ((if w.1 < 4 then 0x1000000 + w.1 * 0x800000 else (w.1 - 4) * 0x800000) + w.2))
  | _ => .phys (BitVec.ofNat 48 (0x1000C0000000 + w.1 * 2 ^ 32 + w.2))

/-- KEYED_LOCK_WRITE (R836-R839, R849, R914). -/
def execKeyedLockWrite (a : Agent) (blk : LockBlk) (v : BitVec 32) (s : State) : Out :=
  .next (s.busWrite a (lockAddr a blk) false (BitVec.ofNat 64 v.toNat))

/-- LSEC_LOAD (R832, R833, R837-R839, R850, R914). -/
def execLsecLoad (a : Agent) (c : Fin 4) (v : BitVec 32) (s : State) : Out :=
  .next (s.busWrite a (townAddr a (0x0100 + 4 * c.val)) false (BitVec.ofNat 64 v.toNat))

/-- KEYED_WINDOW_EXPIRE (R837-R839): the 64 counted cycles are over; a write of the holder now comes late. -/
def execKeyedWindowExpire (s : State) : Out :=
  match s.sec.seq with
  | none => .next s
  | some k =>
    if k.count < 64 ∨ s.sec.haltedAgents.contains k.agent then .next s
    else .next (s.modSec fun c => { c with seq := some { k with count := max k.count 65 } })

/-- TARGET_REGISTER_READ (R838): a read of the target of another agent's open sequence. -/
def execTargetRegisterRead (a : Agent) (s : State) : Out :=
  match s.sec.seq with
  | none => .next s
  | some k =>
    let away := match a with
      | .host => !s.ready
      | .debug => !s.sec.scope.getLsbD 1
      | .control | .service => false
    let q := if away then (s, 0) else s.read32 a k.unit k.target false
    .next (q.1.returned a (BitVec.ofNat 64 q.2))

/-! ## Debug (R842-R844) -/

/-- DEBUG_AGENT_HALT (R837, R842): the debug path halts or releases a core of Town Hall. -/
def execDebugAgentHalt (a : Agent) (halted : Bool) (s : State) : Out :=
  if !s.sec.scope.getLsbD 0 || a == .debug || a == .host then .next s
  else
    .next (s.modSec fun c =>
      { c with haltedAgents := if halted then (if c.haltedAgents.contains a then c.haltedAgents else c.haltedAgents ++ [a])
                               else c.haltedAgents.filter (· != a) })

/-- Whether a token opens the package (R842, R843). -/
def State.tokenOk (s : State) (t : Bytes) : Bool :=
  t.length == 224 && fld t 0 4 == 0x4E4B4F54 && fld t 4 2 == 1 && decide (fld t 6 2 < 16)
  && fld t 8 8 == s.fuse.serial.toNat && (BitVec.ofNat 128 (fld t 0x10 16) == Config.challenge s.sec.challengeNo)
  && (sha384 (slice t 0x20 96) == s.fuse.dbgKeyHash) && sigOk (slice t 0x20 96) (slice t 0x80 96) (slice t 0 0x80)

/-- DBG_TOKEN (R842-R844): a new challenge is drawn after each token; the third failure disables the path. -/
def execDbgToken (tok : Bytes) (s : State) : Out :=
  if s.sec.dbgDisabled then .next s
  else
    let ok := s.tokenOk tok
    let fails := s.sec.dbgFails + (if ok then 0 else 1)
    .next (s.modSec fun c =>
      { c with challengeNo := c.challengeNo + 1, dbgFails := fails, dbgDisabled := decide (3 ≤ fails),
               scope := if ok then c.scope ||| BitVec.ofNat 16 (fld tok 6 2) else c.scope })

/-- DBG_RELOCK (R844). -/
def execDbgRelock (s : State) : Out := .next (s.modSec fun c => { c with scope := 0 })

end Sys2Proof.Machine
end

