-- ==== Sys2Proof/Machine/Context.lean ====
section
/-! DEFINITION. Contexts, images, configurations and the step commands (R662, R666-R701), and the completion of saves,
restores, scrubs and member training. -/

namespace Sys2Proof.Machine

/-- The form of a context command. -/
def ctxForm (op : Nat) (used : List (Nat × Nat)) (vals : State → BitVec 512 → List (Bool × Nat)) (accepts : List CtxPhase) :
    CmdForm :=
  { op := op, ctxOk := oneCtx, used := used, vals := vals, accepts := accepts.contains }

/-- A WRONG_STATE reply with the step concerned. -/
def State.wrongState (s : State) (r : Nat) (p : BitVec 512) (step : Nat) : State :=
  s.reply r p 7 ((s.ctxAt (pktCtx p)).st.code + 256 * step) 0

/-- The engines and journals between steps of one context and steps of another: what the engines have issued runs on, and
no record of a step that is discarded stays (R53). -/
def State.parkEngines (s : State) : State :=
  { s.dropJournal with eng := tmapAll EngSt.reset s.eng fun r => { EngSt.reset with issued := r.issued } }

/-- The end of a halt of a context (R741): FAULT_N rises once no context of the package is halted with it. -/
def State.release (s : State) (c : Nat) : State :=
  let s := s.modCtx c fun x => { x with halted := false, haltRec := false }
  if (List.range 4).any fun k => (s.ctxAt k).halted && !(s.ctxAt k).haltRec then s
  else { s with flt := { s.flt with halted := false }, pin := { s.pin with faultN := true } }

/-! ## Create (R667-R670) -/

/-- What keeps a region from being created, once its context is FREE: status and DETAIL (R667-R669). -/
def State.createErr (s : State) (base bytes img cfg il : Nat) : Option (Nat × Nat) :=
  let gib := 2 ^ 30
  let reserve := s.saveBytes + 2 * (img + cfg) * 2 ^ 20
  let free := (List.range 4).all fun c => (s.ctxAt c).st == .free
  if base % gib ≠ 0 ∨ s.hbmBytes ≤ base then some (2, 32)
  else if bytes % gib ≠ 0 ∨ bytes = 0 ∨ s.hbmBytes < base + bytes then some (2, 40)
  else
    match s.regionMeets base bytes with
    | some c => some (0x42, c)
    | none =>
      if bytes < reserve then some (2, 48)
      else if !free && decide (il ≠ b2n s.globalIl) then some (0x22, b2n s.globalIl)
      else none

/-- CONTEXT_CREATE (R662, R666-R670). -/
def execContextCreate (r : Fin 8) (s : State) : Out :=
  runCmd r
    { op := 0x10, ctxOk := oneCtx, used := [(32, 28)],
      vals := fun _ p => [(decide (pf p 56 1 ≤ 1), 56), (decide (pf p 57 1 < 8) || pf p 57 1 == 0xFF, 57)],
      accepts := fun st => st == .free }
    (fun s p =>
      let c := pktCtx p
      let il := pf p 56 1
      match s.createErr (pf p 32 8) (pf p 40 8) (pf p 48 4) (pf p 52 4) il with
      | some e => s.reply r.val p e.1 e.2 0
      | none =>
        let first := (List.range 4).all fun k => (s.ctxAt k).st == .free
        let home := s.resident.isNone
        let ring : Option (Fin 8) := if pf p 57 1 < 8 then some (Fin.ofNat 8 (pf p 57 1)) else none
        let s := s.modCtx c fun x =>
          { CtxSt.reset with
            st := if home then .idle else .saved, base := pf p 32 8, bytes := pf p 40 8, imgMib := pf p 48 4,
            cfgMib := pf p 52 4, evtRing := ring, evtEvery := pf p 58 2, lsec := x.lsec }
        let s := if first then { s with globalIl := il == 1 } else s
        let s := if home then ({ s with resident := some (Fin.ofNat 4 c) }).refreshCm else s
        s.reply r.val p 0 0 0) s

/-! ## Save, restore, destroy (R672-R676, R742) -/

/-- A context begins its restore (R675): it is resident, and its configuration is activated as a Market swap. -/
def State.beginRestore (s : State) (c : Nat) : State :=
  let s := (s.modCtx c fun x => { x with st := .restoring, restoreWait := false }).parkEngines
  let s := ({ s with resident := some (Fin.ofNat 4 c) }).refreshCm
  match (s.ctxAt c).cfg with
  | some g => (s.applyLinks g).pendMarket g
  | none => s

/-- What a CONTEXT_RESTORE finds (R674). -/
inductive RestoreGate where
  | free
  | wait
  | other (c : Nat)
  deriving DecidableEq, Repr

/-- Whether a restore may begin: `waiting` where it has waited for a save. -/
def State.restoreGate (s : State) (waiting : Bool) : RestoreGate :=
  match s.cur with
  | none => .free
  | some (o, x) =>
    if x.st = .saving ∨ x.saveSched ∨ (waiting ∧ (x.st = .destroying ∨ x.destroyWait)) then .wait else .other o.val

/-- Restores that wait go on, or reply CTX_RESIDENT (R674). -/
def State.wakeRestores (s : State) : State :=
  (List.range 4).foldl (fun (a : State) c =>
    if (a.ctxAt c).restoreWait then
      (match a.restoreGate true with
       | .free => a.beginRestore c
       | .wait => a
       | .other o => (a.modCtx c fun x => { x with restoreWait := false }).replyWaiting [0x12] c 0x41 o)
    else a) s

/-- The scrub of a context starts (R676): its uncommitted steps are discarded and its engines stop. -/
def State.beginDestroy (s : State) (c : Nat) : State :=
  let x := s.ctxAt c
  let s := if s.resident.any (fun k => k.val == c) then
      (x.steps.foldl (fun (a : State) t => a.stopStep t.no) s).parkEngines else s
  (s.modCtx c fun x =>
    { x with st := .destroying, destroyWait := false, saveSched := false, steps := [], next := none, remain := none,
             unbounded := false, haltAfter := none, haltTo := none }).release c

/-- CONTEXT_SAVE (R662, R672): an IDLE context, or one that has no uncommitted step, is saved at once. -/
def execContextSave (r : Fin 8) (s : State) : Out :=
  runCmd r (ctxForm 0x11 [] (fun _ _ => []) [.idle, .stepping])
    (fun s p =>
      let c := pktCtx p
      let s := if (s.ctxAt c).steps.isEmpty then s.startSave c else s.modCtx c fun x => { x with saveSched := true }
      s.reply r.val p 0 0 0) s

/-- SAVE_COMPLETE (R673): the stores and the crossings are in the save area, and the context is SAVED. -/
def execSaveComplete (c : Fin 4) (s : State) : Out :=
  let x := s.ctxAt c.val
  if x.st ≠ .saving ∨ !s.regionServed x then .next s
  else
    let s := s.modCtx c.val fun x =>
      { x with st := .saved, savedX := s.sync.xcnt, savedSpm := some s.mem.spm, savedSram := some s.mem.sram }
    let s := ({ s with resident := none }).parkEngines
    let s := s.event c.val 0x8005 s.cm.last.toNat
    let s := s.refreshCm
    let s := if x.destroyWait then s.beginDestroy c.val else s
    .next s.wakeRestores

/-- CONTEXT_RESTORE (R662, R674, R675). -/
def execContextRestore (r : Fin 8) (s : State) : Out :=
  runCmd r (ctxForm 0x12 [] (fun _ _ => []) [.saved])
    (fun s p =>
      let c := pktCtx p
      match s.restoreGate false with
      | .free => s.beginRestore c
      | .wait => s.modCtx c fun x => { x with restoreWait := true }
      | .other o => s.reply r.val p 0x41 o 0) s

/-- CONTEXT_RESTORE_COMPLETE (R675, R742): the save area is copied back; a halt recorded meanwhile discards the
scheduled steps. -/
def execContextRestoreComplete (c : Fin 4) (s : State) : Out :=
  let x := s.ctxAt c.val
  if x.st ≠ .restoring ∨ (s.mktAt 0).pendCfg.isSome ∨ (s.mktAt 1).pendCfg.isSome ∨ !s.regionServed x then .next s
  else
    let s := { s with sync := { s.sync with xcnt := x.savedX },
                      mem := { s.mem with spm := x.savedSpm.getD s.mem.spm, sram := x.savedSram.getD s.mem.sram } }
    let more := x.unbounded || decide (0 < x.remain.getD 0)
    let s := s.modCtx c.val fun x =>
      { x with st := if more && !x.haltRec then .stepping else .idle, savedX := [], savedSpm := none, savedSram := none }
    let s := if x.haltRec then
        (s.modCtx c.val fun x => { x with haltRec := false, next := none, remain := none, unbounded := false,
                                          haltAfter := none }).event c.val 0x8004 s.cm.last.toNat
      else s
    let s := s.replyWaiting [0x12] c.val 0 0
    .next (if x.destroyWait then s.beginDestroy c.val else s)

/-- CONTEXT_DESTROY (R662, R676): it waits for a save or a restore in progress. -/
def execContextDestroy (r : Fin 8) (s : State) : Out :=
  runCmd r (ctxForm 0x13 [] (fun _ _ => []) [.idle, .stepping, .saving, .saved, .restoring, .faulted])
    (fun s p =>
      let c := pktCtx p
      let x := s.ctxAt c
      if x.st = .saving ∨ x.st = .restoring then s.modCtx c fun x => { x with destroyWait := true }
      else s.beginDestroy c) s

/-- The Market bytes of address ranges become zero, with their parity (R721). -/
def State.zeroMarket (s : State) (rs : List (Nat × Nat)) : State :=
  let inRange (k : Nat) : Bool := rs.any fun r =>
    let a := (r.1 - 0x100400000000) / 2 ^ 32 * 2 ^ 25 + r.1 % 2 ^ 32
    decide (a ≤ k) && decide (k < a + r.2)
  { s with mem := { s.mem with market := s.mem.market.filter fun e => !inRange e.1,
                               par := s.mem.par.filter fun e => decide (e.1 < parMarket 0 0) || !inRange (e.1 - parMarket 0 0) } }

/-- The stores of the resident context become zero (R676), with the parity of what is written (R721). -/
def State.clearResident (s : State) (x : CtxSt) : State :=
  let zero : Store := { gen := none, cells := [] }
  let s := { s with mem := { s.mem with spm := zero, sram := zero,
                                         par := s.mem.par.filter fun e => decide (parMarket 0 0 ≤ e.1) },
                    sync := { s.sync with xcnt := [] }, resident := none }
  let s := match x.cfg with
    | some g => s.zeroMarket (g.stageRanges s.ios)
    | none => s
  s.refreshCm

/-- CONTEXT_SCRUB_COMPLETE (R676): the region is zero data with matching check bytes, and the context is FREE. -/
def execContextScrubComplete (c : Fin 4) (s : State) : Out :=
  let x := s.ctxAt c.val
  if x.st ≠ .destroying ∨ !s.regionServed x then .next s
  else
    let out (a : Nat) : Bool := decide (a < x.base) || decide (x.base + x.bytes ≤ a)
    let s := { s with mem := { s.mem with hbm := s.mem.hbm.filter fun e => out e.1,
                                          ecc := s.mem.ecc.filter fun e => out (64 * (e.1 / 68)) } }
    let s := if s.resident = some c then s.clearResident x else s
    let s := s.jdWrite (0x8000 + c.val * 0x2000) (List.replicate 0x2000 0#8)
    let s := (s.clearStreams c.val).modCtx c.val fun x => { CtxSt.reset with lsec := x.lsec }
    .next (s.replyWaiting [0x13] c.val 0 0).wakeRestores

/-! ## Images and configurations (R678-R691) -/

/-- Address of a context's image area (R669). -/
def State.imgArea (s : State) (x : CtxSt) (area : Bool) : Nat :=
  x.base + x.bytes - s.reserveBytes x + s.saveBytes + b2n area * x.imgMib * 2 ^ 20

/-- Address of a context's configuration area (R669). -/
def State.cfgAreaOf (s : State) (x : CtxSt) (area : Bool) : Nat :=
  x.base + x.bytes - s.reserveBytes x + s.saveBytes + 2 * x.imgMib * 2 ^ 20 + b2n area * x.cfgMib * 2 ^ 20

/-- The highest step of a context that has entered RUNNING. -/
def CtxSt.highest (x : CtxSt) : BitVec 64 :=
  match x.steps.getLast? with
  | some t => t.no
  | none => (match x.next with
    | some n => if n = 0 then 0 else n - 1
    | none => 0)

/-- Whether step `e` is scheduled to run (R691). -/
def CtxSt.scheduled (x : CtxSt) (e : Nat) : Bool :=
  let first := match x.steps with
    | t :: _ => some t.no
    | [] => x.next
  match first with
  | none => false
  | some f =>
    (x.unbounded || (match x.remain with
      | some k => decide (e < f.toNat + k)
      | none => false))
    && (match x.haltAfter with
      | some h => decide (e ≤ h.toNat)
      | none => true)

/-- The step after the boundary at which a change made now takes effect. -/
def CtxSt.nextNo (x : CtxSt) : Nat := (x.next.map (·.toNat)).getD 0

/-- The pair check of an image and a configuration that run step `e` (R690, R691). -/
def State.pairCheck (s : State) (x : CtxSt) (im : Option Img) (cfg : Option JobCfg) (e : Nat) : Option Nat :=
  match im, cfg with
  | some im, some g => if x.scheduled e then s.pairErr x im g else none
  | _, _ => none

/-- LOAD_IMAGE (R662, R687-R691). -/
def execLoadImage (r : Fin 8) (s : State) : Out :=
  runCmd r { ctxForm 0x20 [] (fun _ _ => []) [.idle, .stepping, .saved] with hbm := true }
    (fun s p =>
      let c := pktCtx p
      let x := s.ctxAt c
      let len := pf p 24 4
      if x.pendImg.isSome then s.wrongState r.val p 0
      else if x.imgMib * 2 ^ 20 < len then s.reply r.val p 0x14 len 0
      else
        match s.inBuf p with
        | none => s.reply r.val p 9 0 0
        | some b =>
          let area := match x.img with
            | some i => !i.area
            | none => false
          let s := s.hbmWrite none (s.imgArea x area) b
          (match s.imgReject x b with
           | some e => s.reply r.val p e.1 e.2 0
           | none =>
             let im := imgOf b area
             let cfg := if x.swapsAt x.highest true then x.shadow else x.cfg
             (match s.pairCheck x (some im) cfg x.nextNo with
              | some d => s.reply r.val p 0x26 d 0
              | none =>
                let s := if x.steps.isEmpty then s.applyImage c im else s.modCtx c fun x => { x with pendImg := some im }
                s.reply r.val p 0 0 0))) s

/-- The shadow of a context emptied. -/
def State.dropShadow (s : State) (c : Nat) : State := s.modCtx c fun x => { x with shadow := none, verified := false }

/-- LOAD_CONFIG (R662, R680-R682). -/
def execLoadConfig (r : Fin 8) (s : State) : Out :=
  runCmd r { ctxForm 0x21 [] (fun _ _ => []) [.idle, .stepping, .saved] with hbm := true }
    (fun s p =>
      let c := pktCtx p
      let x := s.ctxAt c
      let len := pf p 24 4
      match x.swapAt with
      | some k => s.reply r.val p 0x24 k.toNat 0
      | none =>
        if x.cfgMib * 2 ^ 20 < len then s.reply r.val p 0x14 len 0
        else
          match s.inBuf p with
          | none => s.reply r.val p 9 0 0
          | some b =>
            let s := s.hbmWrite none (s.cfgAreaOf x !x.cfgArea) b
            (match s.readCfg c b with
             | .inl e => (s.dropShadow c).reply r.val p e.1 e.2 0
             | .inr g => (s.modCtx c fun x => { x with shadow := some g, verified := false }).reply r.val p 0 0 0)) s

/-- VERIFY_CONFIG's checks once every member is trained (R683, R690). -/
def State.finishVerify (s : State) (r : Nat) (p : BitVec 512) : State :=
  let c := pktCtx p
  let x := s.ctxAt c
  match x.shadow with
  | none => s.reply r p 0x23 0 0
  | some g =>
    (match s.pairCheck x (x.pendImg <|> x.img) (some g) x.nextNo with
     | some d => (s.dropShadow c).reply r p 0x26 d 0
     | none => (s.modCtx c fun x => { x with verified := true }).reply r p 0 0 0)

/-- VERIFY_CONFIG (R662, R683): members that are enabled and not active train; a withdrawn one stays withdrawn (R488). -/
def execVerifyConfig (r : Fin 8) (s : State) : Out :=
  runCmd r (ctxForm 0x22 [] (fun _ _ => []) [.idle, .stepping])
    (fun s p =>
      let c := pktCtx p
      match (s.ctxAt c).shadow with
      | none => s.reply r.val p 0x23 0 0
      | some g =>
        (match s.readCfg c g.raw with
         | .inl e => (s.dropShadow c).reply r.val p e.1 e.2 0
         | .inr g =>
           let ms := (List.range s.links).filter fun j => g.topo.memberEn.getLsbD j
             && ((s.memberAt j).st == .disabled || (s.memberAt j).st == .withdrawn)
           if ms.isEmpty then s.finishVerify r.val p
           else
             let s := ms.foldl (fun (a : State) j => a.modMember j fun m =>
               if m.st = .disabled then { m with st := .training } else m) s
             let mask : BitVec 24 := BitVec.ofNat 24 (sumNat (ms.map (2 ^ ·)))
             { s with net := { s.net with linkTrain := s.net.linkTrain ++ [(r, mask)] } })) s

/-- A member leaves training: it comes into service, or withdraws (R485). -/
def State.trained (s : State) (ok : Bool) (m : Nat) : State :=
  if (s.memberAt m).st ≠ .training then s
  else if ok then s.bringUp m
  else s.modMember m fun x => { x with st := .withdrawn }

/-- MEMBER_TRAINING_COMPLETE (R683, R703): the oldest training of LINK_CTRL or VERIFY_CONFIG ends; `failed` names the
members that failed. -/
def execMemberTrainingComplete (failed : BitVec 24) (s : State) : Out :=
  match s.net.linkTrain with
  | [] => .next s
  | (r, mask) :: rest =>
    let bad := mask &&& failed
    let s := { s with net := { s.net with linkTrain := rest } }
    let ms := (List.range 24).filter fun j => mask.getLsbD j
    match (s.ringAt r.val).cur with
    | none => .next s
    | some q =>
      let ofLink := pktOp q.pkt == 0x41
      let later := ofLink && (s.ctxIn [.stepping]).isSome && bad == 0
      let s := if later then { s with net := { s.net with linkSched := s.net.linkSched ++ ms.map fun m => (m, true) } }
        else ms.foldl (fun (a : State) m => a.trained (!bad.getLsbD m) m) s
      let s :=
        if bad ≠ 0 then
          (if ofLink then s else s.dropShadow (pktCtx q.pkt)).reply r.val q.pkt 0x25 bad.toNat 0
        else if ofLink then s.reply r.val q.pkt 0 0 0
        else s.finishVerify r.val q.pkt
      .next (s.pumpRing r.val 256)

/-- Whether the key that would be in force is for another JOB (R834). -/
def LsecSt.wrongJob (l : LsecSt) (swap : Bool) (job : BitVec 16) : Bool :=
  let l := if swap then l.arm else l
  l.en && l.keyJob != job

/-- SWAP_CONFIG (R662, R684-R686, R690, R834). -/
def execSwapConfig (r : Fin 8) (s : State) : Out :=
  runCmd r (ctxForm 0x23 [(32, 8)] (fun _ _ => []) [.idle, .stepping])
    (fun s p =>
      let c := pktCtx p
      let x := s.ctxAt c
      let at_ : BitVec 64 := BitVec.ofNat 64 (pf p 32 8)
      match x.shadow with
      | none => s.reply r.val p 0x23 0 0
      | some g =>
        if !x.verified then s.reply r.val p 0x23 0 0
        else if x.st = .stepping ∧ at_ ≠ 0 ∧ at_.toNat < x.highest.toNat then s.wrongState r.val p x.highest.toNat
        else if x.lsec.wrongJob true g.job then s.wrongState r.val p 0
        else
          (match s.pairCheck x (x.pendImg <|> x.img) (some g) (if at_ = 0 then x.nextNo else at_.toNat + 1) with
           | some d => s.reply r.val p 0x26 d 0
           | none =>
             let now := x.st == CtxPhase.idle || (x.steps.isEmpty && at_ != 0 && at_ == x.highest)
             let s := if now then s.applySwap c else s.modCtx c fun x => { x with swapAt := some at_ }
             s.reply r.val p 0 0 0)) s

/-! ## Step commands (R692-R701) -/

/-- The training state that a commit record holds (R617). -/
def trainOf (b : Bytes) : TrainSt :=
  { lsExp := asInt 8 (fld b 0x14 1), clean := fld b 0x16 2, optT := BitVec.ofNat 64 (fld b 0x18 8),
    prod := (List.range 16).map fun g => (BitVec.ofNat 48 (fld b (0xC0 + 16 * g) 8), BitVec.ofNat 48 (fld b (0xC8 + 16 * g) 8)),
    dieDigest := (List.range 4).map fun d => BitVec.ofNat 64 (fld b (0x38 + 8 * d) 8),
    pkgDigest := BitVec.ofNat 64 (fld b 0x30 8) }

/-- The training state of SRC 0 (R693). -/
def trainFresh (ls : Int) : TrainSt :=
  { lsExp := ls, clean := 0, optT := 0, prod := List.replicate 16 (w48One, w48One), dieDigest := [], pkgDigest := 0 }

/-- Whether no step of a job may run on the package (R310, R508, R755). -/
def State.jobBarred (s : State) : Bool :=
  s.stepsBarred || !s.flt.radishFails.isEmpty

/-- The dies whose digest of the master copy differs from a record's (R695). -/
def State.digestDiff (s : State) (cfg : JobCfg) (fin : TrainSt) : State × Nat :=
  (List.range s.dies).foldl (fun (a : State × Nat) d =>
    let q := a.1.shardDigest none cfg d
    (q.1, if q.2 = fin.dieDigest.getD d 0 then a.2 else a.2 + 2 ^ d)) (s, 0)

/-- The steps are scheduled (R692-R694, R697); the command replies once the first has entered RUNNING. -/
def State.beginSteps (s : State) (c : Nat) (step0 : BitVec 64) (nsteps : Nat) (fin : TrainSt) : State :=
  ((s.release c).parkEngines).modCtx c fun x =>
    { x with st := .stepping, steps := [], next := some step0, remain := if nsteps = 0 then none else some nsteps,
             unbounded := nsteps == 0, haltAfter := none, saveSched := false, haltTo := none, cause := 0, fin := fin }

/-- What START_STEPS and RESUME check before the record: status and DETAIL (R310, R439, R508, R677, R692, R755, R834). -/
def State.startErr (s : State) (x : CtxSt) (src : Nat) : Option (Nat × Nat) :=
  if x.st = .faulted ∧ ¬(src = 2 ∧ x.cause = 0x0C) then some (0x32, 0)
  else
    match x.img, x.cfg with
    | some _, some g =>
      if s.jobBarred then some (0x32, 0)
      else if s.stb.st = .free ∨ s.stb.st = .acquire then some (0x30, s.stb.st.code)
      else if x.lsec.wrongJob false g.job then some (7, x.st.code)
      else none
    | _, _ => some (7, x.st.code)

/-- The record of SRC 1 or SRC 2 is followed (R693-R696): `b` is none where there is no valid one, `jd` where it goes to
the JD. -/
def State.startFrom (s : State) (r : Nat) (p : BitVec 512) (b : Option Bytes) (jd verify : Bool) (step0 : Option (BitVec 64))
    (nsteps : Nat) : State :=
  let c := pktCtx p
  let x := s.ctxAt c
  match b, x.img, x.cfg with
  | some b, some im, some g =>
    let n := recStep b + 1
    let fin := trainOf b
    if !recValid b || (match step0 with
        | some k => k != n
        | none => false) then s.reply r p 0x31 (fld b 8 8) 0
    else
      (match s.pairErr x im g with
       | some d => s.reply r p 0x26 d 0
       | none =>
         let v := if verify then s.digestDiff g fin else (s, 0)
         if v.2 ≠ 0 then v.1.reply r p 0x31 (2 ^ 63 + v.2) 0
         else
           let s := if jd then (v.1.jdWrite (recSlot c (n - 1)) b).refreshCm else v.1
           s.beginSteps c n nsteps fin)
  | _, _, _ => s.reply r p 0x31 0 0

/-- START_STEPS (R662, R677, R692-R696). -/
def execStartSteps (r : Fin 8) (s : State) : Out :=
  runCmd r { ctxForm 0x30 [(28, 3), (32, 24)] (fun _ p => [(decide (pf p 28 1 ≤ 2), 28), (decide (pf p 29 1 ≤ 1), 29)])
      [.idle, .faulted] with hbm := true }
    (fun s p =>
      let c := pktCtx p
      let x := s.ctxAt c
      let src := pf p 28 1
      let step0 : BitVec 64 := BitVec.ofNat 64 (pf p 32 8)
      let nsteps := pf p 40 8
      match s.startErr x src, x.img, x.cfg with
      | none, some im, some g =>
        if src = 0 then
          let ls := asInt 8 (pf p 30 1)
          if ls < g.opt.lsMin ∨ g.opt.lsMax < ls then s.reply r.val p 2 30 0
          else
            (match s.pairErr x im g with
             | some d => s.reply r.val p 0x26 d 0
             | none => s.beginSteps c step0 nsteps (trainFresh ls))
        else if src = 1 then s.startFrom r.val p (s.newestRec c) false (pf p 29 1 == 1) (some step0) nsteps
        else if !s.inRegion x (pf p 48 8) 4096 then s.reply r.val p 2 48 0
        else
          let q := s.physRead (.command (Fin.ofNat 4 c)) none (pf p 48 8) 4096
          q.1.startFrom r.val p (some q.2) true (pf p 29 1 == 1) (some step0) nsteps
      | some e, _, _ => s.reply r.val p e.1 e.2 0
      | none, _, _ => s.wrongState r.val p 0) s

/-- RESUME (R662, R700). -/
def execResume (r : Fin 8) (s : State) : Out :=
  runCmd r (ctxForm 0x32 [(40, 8)] (fun _ _ => []) [.idle])
    (fun s p =>
      let c := pktCtx p
      match s.startErr (s.ctxAt c) 1 with
      | some e => s.reply r.val p e.1 e.2 0
      | none => s.startFrom r.val p (s.newestRec c) false false none (pf p 40 8)) s

/-- HALT (R662, R697-R699). -/
def execHalt (r : Fin 8) (s : State) : Out :=
  runCmd r (ctxForm 0x31 [(32, 8)] (fun _ _ => []) [.stepping])
    (fun s p =>
      let c := pktCtx p
      let x := s.ctxAt c
      let h := x.highest
      let a : BitVec 64 := BitVec.ofNat 64 (pf p 32 8)
      if a ≠ 0 ∧ a.toNat < h.toNat then s.wrongState r.val p h.toNat
      else
        let k := if a = 0 then h else a
        let s := (s.modCtx c fun x => { x with haltAfter := some k }).reply r.val p 0 0 0
        if x.steps.isEmpty ∧ k = h then s.stopSteps c else s) s

/-- ABORT_STEP (R56, R60, R662, R701). -/
def execAbortStep (r : Fin 8) (s : State) : Out :=
  runCmd r (ctxForm 0x33 [] (fun _ _ => []) [.stepping])
    (fun s p =>
      let c := pktCtx p
      let x := s.ctxAt c
      let hot := x.steps.filter fun t => t.abortable && t.st != .committing
      if hot.isEmpty then s.wrongState r.val p 0
      else (s.abortSteps c (hot.map (·.no)) true).reply r.val p 0 0 0) s

end Sys2Proof.Machine
end

