-- ==== Sys2Proof/Machine/Dispatch.lean ====
section
/-! DEFINITION. One arm per command: each calls that command's meaning. -/

namespace Sys2Proof.Machine

/-- The effect of a command on everything but the queue. -/
def exec (i : Instr) (s : State) : Host.Outcome State Fault Refusal :=
  match i with
  | .identify r => Sys2Proof.Machine.execIdentify r s
  | .queryStatus r => Sys2Proof.Machine.execQueryStatus r s
  | .readTelemetry r => Sys2Proof.Machine.execReadTelemetry r s
  | .journalRead r => Sys2Proof.Machine.execJournalRead r s
  | .attest r => Sys2Proof.Machine.execAttest r s
  | .contextCreate r => Sys2Proof.Machine.execContextCreate r s
  | .contextSave r => Sys2Proof.Machine.execContextSave r s
  | .contextRestore r => Sys2Proof.Machine.execContextRestore r s
  | .contextDestroy r => Sys2Proof.Machine.execContextDestroy r s
  | .loadImage r => Sys2Proof.Machine.execLoadImage r s
  | .loadConfig r => Sys2Proof.Machine.execLoadConfig r s
  | .verifyConfig r => Sys2Proof.Machine.execVerifyConfig r s
  | .swapConfig r => Sys2Proof.Machine.execSwapConfig r s
  | .startSteps r => Sys2Proof.Machine.execStartSteps r s
  | .halt r => Sys2Proof.Machine.execHalt r s
  | .resume r => Sys2Proof.Machine.execResume r s
  | .abortStep r => Sys2Proof.Machine.execAbortStep r s
  | .remapCore r => Sys2Proof.Machine.execRemapCore r s
  | .linkCtrl r => Sys2Proof.Machine.execLinkCtrl r s
  | .timeCtrl r => Sys2Proof.Machine.execTimeCtrl r s
  | .timeCtrlTimeout => Sys2Proof.Machine.execTimeCtrlTimeout s
  | .setPowerLimit r => Sys2Proof.Machine.execSetPowerLimit r s
  | .runRadish r => Sys2Proof.Machine.execRunRadish r s
  | .clearErrors r => Sys2Proof.Machine.execClearErrors r s
  | .fwUpdate r => Sys2Proof.Machine.execFwUpdate r s
  | .saveComplete c => Sys2Proof.Machine.execSaveComplete c s
  | .contextRestoreComplete c => Sys2Proof.Machine.execContextRestoreComplete c s
  | .contextScrubComplete c => Sys2Proof.Machine.execContextScrubComplete c s
  | .doorbell r writes tail => Sys2Proof.Machine.execDoorbell r writes tail s
  | .ringEnable r writes irqEn => Sys2Proof.Machine.execRingEnable r writes irqEn s
  | .ringDisable r irqEn => Sys2Proof.Machine.execRingDisable r irqEn s
  | .completionHeadWrite r head => Sys2Proof.Machine.execCompletionHeadWrite r head s
  | .pcieHotReset => Sys2Proof.Machine.execPcieHotReset s
  | .registerWrite a addr wide v => Sys2Proof.Machine.execRegisterWrite a addr wide v s
  | .clearingRead a addr wide => Sys2Proof.Machine.execClearingRead a addr wide s
  | .stbTimeLowRead a => Sys2Proof.Machine.execStbTimeLowRead a s
  | .keyWrite a v => Sys2Proof.Machine.execKeyWrite a v s
  | .keyedLockWrite a blk v => Sys2Proof.Machine.execKeyedLockWrite a blk v s
  | .lsecLoad a c v => Sys2Proof.Machine.execLsecLoad a c v s
  | .keyedWindowExpire => Sys2Proof.Machine.execKeyedWindowExpire s
  | .debugAgentHalt a halted => Sys2Proof.Machine.execDebugAgentHalt a halted s
  | .dbgToken tok => Sys2Proof.Machine.execDbgToken tok s
  | .dbgRelock => Sys2Proof.Machine.execDbgRelock s
  | .hostFruCommit => Sys2Proof.Machine.execHostFruCommit s
  | .hostFruDiscard => Sys2Proof.Machine.execHostFruDiscard s
  | .fruSnapshotRead => Sys2Proof.Machine.execFruSnapshotRead s
  | .fruCommitComplete first second => Sys2Proof.Machine.execFruCommitComplete first second s
  | .dynamicAddressAssign addr => Sys2Proof.Machine.execDynamicAddressAssign addr s
  | .sidebandRead => Sys2Proof.Machine.execSidebandRead s
  | .getId => Sys2Proof.Machine.execGetId s
  | .getStatus => Sys2Proof.Machine.execGetStatus s
  | .readTelem set off => Sys2Proof.Machine.execReadTelem set off s
  | .setPwin limit ms en => Sys2Proof.Machine.execSetPwin limit ms en s
  | .setPrail limit en => Sys2Proof.Machine.execSetPrail limit en s
  | .getLimits => Sys2Proof.Machine.execGetLimits s
  | .fruRead off => Sys2Proof.Machine.execFruRead off s
  | .fruStage off data => Sys2Proof.Machine.execFruStage off data s
  | .fruCommit => Sys2Proof.Machine.execFruCommit s
  | .fruDiscard => Sys2Proof.Machine.execFruDiscard s
  | .setIbiMask m => Sys2Proof.Machine.execSetIbiMask m s
  | .readEvents => Sys2Proof.Machine.execReadEvents s
  | .nop e h => Sys2Proof.Machine.execNop e h s
  | .end_ e h => Sys2Proof.Machine.execEnd e h s
  | .aeLoad c h wfmt wline rs => Sys2Proof.Machine.execAeLoad c h wfmt wline rs s
  | .loadRowWrite c rs o => Sys2Proof.Machine.execLoadRowWrite c rs o s
  | .aePass c h p rs o => Sys2Proof.Machine.execAePass c h p rs o s
  | .passStart c rs => Sys2Proof.Machine.execPassStart c rs s
  | .currentLevelStep c feeder drain => Sys2Proof.Machine.execCurrentLevelStep c feeder drain s
  | .checksumCheck c observed => Sys2Proof.Machine.execChecksumCheck c observed s
  | .aePreload c h p o => Sys2Proof.Machine.execAePreload c h p o s
  | .bankHandover c bank => Sys2Proof.Machine.execBankHandover c bank s
  | .vld c h f o => Sys2Proof.Machine.execVld c h f o s
  | .vst c h f o => Sys2Proof.Machine.execVst c h f o s
  | .vop c h f o => Sys2Proof.Machine.execVop c h f o s
  | .vtr c h f o => Sys2Proof.Machine.execVtr c h f o s
  | .vred c h f o => Sys2Proof.Machine.execVred c h f o s
  | .drain c h f o => Sys2Proof.Machine.execDrain c h f o s
  | .spill c h f o => Sys2Proof.Machine.execSpill c h f o s
  | .pdrain c h f o => Sys2Proof.Machine.execPdrain c h f o s
  | .vsrb c h v => Sys2Proof.Machine.execVsrb c h v s
  | .meDesc c h didx => Sys2Proof.Machine.execMeDesc c h didx s
  | .copy c slot o => Sys2Proof.Machine.execCopy c slot o s
  | .gather c slot o => Sys2Proof.Machine.execGather c slot o s
  | .xpEnc c slot o => Sys2Proof.Machine.execXpEnc c slot o s
  | .xpDec c slot o => Sys2Proof.Machine.execXpDec c slot o s
  | .meFence c h => Sys2Proof.Machine.execMeFence c h s
  | .xArrive c h f => Sys2Proof.Machine.execXArrive c h f s
  | .xWait c h scope index target => Sys2Proof.Machine.execXWait c h scope index target s
  | .xReset c h scope index => Sys2Proof.Machine.execXReset c h scope index s
  | .xAttime c h stb => Sys2Proof.Machine.execXAttime c h stb s
  | .stbTimeReached c => Sys2Proof.Machine.execStbTimeReached c s
  | .waiterWake e => Sys2Proof.Machine.execWaiterWake e s
  | .opComplete e => Sys2Proof.Machine.execOpComplete e s
  | .ueRun die h uaddr o => Sys2Proof.Machine.execUeRun die h uaddr o s
  | .cxRun die h caddr => Sys2Proof.Machine.execCxRun die h caddr s
  | .allReduce die slot o => Sys2Proof.Machine.execAllReduce die slot o s
  | .reduceScatter die slot o => Sys2Proof.Machine.execReduceScatter die slot o s
  | .allGather die slot o => Sys2Proof.Machine.execAllGather die slot o s
  | .broadcast die slot o => Sys2Proof.Machine.execBroadcast die slot o s
  | .barrier die slot issued => Sys2Proof.Machine.execBarrier die slot issued s
  | .permute die slot remote o => Sys2Proof.Machine.execPermute die slot remote o s
  | .a2aDispatch die slot o => Sys2Proof.Machine.execA2aDispatch die slot o s
  | .a2aCombine die slot o => Sys2Proof.Machine.execA2aCombine die slot o s
  | .cxGnorm die h group remote => Sys2Proof.Machine.execCxGnorm die h group remote s
  | .cxFence die h => Sys2Proof.Machine.execCxFence die h s
  | .collectiveTimeout die slot => Sys2Proof.Machine.execCollectiveTimeout die slot s
  | .portPriorityAging site port requesters => Sys2Proof.Machine.execPortPriorityAging site port requesters s
  | .boundedResourceRelease k => Sys2Proof.Machine.execBoundedResourceRelease k s
  | .hbmRequest req => Sys2Proof.Machine.execHbmRequest req s
  | .prefetchAging stack => Sys2Proof.Machine.execPrefetchAging stack s
  | .scrubChunk stack err => Sys2Proof.Machine.execScrubChunk stack err s
  | .scrubYieldExpire stack err => Sys2Proof.Machine.execScrubYieldExpire stack err s
  | .stackTempSample stack p => Sys2Proof.Machine.execStackTempSample stack p s
  | .stackBandChange stack => Sys2Proof.Machine.execStackBandChange stack s
  | .marketPartitionSwap io => Sys2Proof.Machine.execMarketPartitionSwap io s
  | .flitSlot m stalled => Sys2Proof.Machine.execFlitSlot m stalled s
  | .flitReceive m wire => Sys2Proof.Machine.execFlitReceive m wire s
  | .ackDue m => Sys2Proof.Machine.execAckDue m s
  | .ack m seq => Sys2Proof.Machine.execAck m seq s
  | .nak m seq => Sys2Proof.Machine.execNak m seq s
  | .credit m vc cls granted => Sys2Proof.Machine.execCredit m vc cls granted s
  | .state m v => Sys2Proof.Machine.execState m v s
  | .t0 m num => Sys2Proof.Machine.execT0 m num s
  | .t1 m num t2 => Sys2Proof.Machine.execT1 m num t2 s
  | .t1f m num t1 => Sys2Proof.Machine.execT1f m num t1 s
  | .t3 m num t4 => Sys2Proof.Machine.execT3 m num t4 s
  | .t4 m num t4 => Sys2Proof.Machine.execT4 m num t4 s
  | .timeExchange => Sys2Proof.Machine.execTimeExchange s
  | .retrainComplete m => Sys2Proof.Machine.execRetrainComplete m s
  | .retrainTimeout m => Sys2Proof.Machine.execRetrainTimeout m s
  | .parentReselect => Sys2Proof.Machine.execParentReselect s
  | .bucketLeak => Sys2Proof.Machine.execBucketLeak s
  | .messageReceive m => Sys2Proof.Machine.execMessageReceive m s
  | .incrementRecord rec => Sys2Proof.Machine.execIncrementRecord rec s
  | .heldRecordApply => Sys2Proof.Machine.execHeldRecordApply s
  | .abortMessage job epoch step => Sys2Proof.Machine.execAbortMessage job epoch step s
  | .haltMessage m payload => Sys2Proof.Machine.execHaltMessage m payload s
  | .pace m => Sys2Proof.Machine.execPace m s
  | .ready m phase => Sys2Proof.Machine.execReady m phase s
  | .readyDue m phase => Sys2Proof.Machine.execReadyDue m phase s
  | .anchorResult c => Sys2Proof.Machine.execAnchorResult c s
  | .launchEntry n => Sys2Proof.Machine.execLaunchEntry n s
  | .watchdogExpire e => Sys2Proof.Machine.execWatchdogExpire e s
  | .stepEnterRunning c => Sys2Proof.Machine.execStepEnterRunning c s
  | .globalNormArrive c => Sys2Proof.Machine.execGlobalNormArrive c s
  | .journalRestoreComplete c => Sys2Proof.Machine.execJournalRestoreComplete c s
  | .checkDone unit step => Sys2Proof.Machine.execCheckDone unit step s
  | .digestExchange c step => Sys2Proof.Machine.execDigestExchange c step s
  | .holdupThresholdMet c => Sys2Proof.Machine.execHoldupThresholdMet c s
  | .commitRecordWritten c ok => Sys2Proof.Machine.execCommitRecordWritten c ok s
  | .faultReport rep => Sys2Proof.Machine.execFaultReport rep s
  | .regulatorSample tiles => Sys2Proof.Machine.execRegulatorSample tiles s
  | .windowTermEval => Sys2Proof.Machine.execWindowTermEval s
  | .railTermEval tile => Sys2Proof.Machine.execRailTermEval tile s
  | .thermalSample pairs => Sys2Proof.Machine.execThermalSample pairs s
  | .targetMove => Sys2Proof.Machine.execTargetMove s
  | .droopStart die => Sys2Proof.Machine.execDroopStart die s
  | .droopEnd die skipped => Sys2Proof.Machine.execDroopEnd die skipped s
  | .railOverCurrent tile => Sys2Proof.Machine.execRailOverCurrent tile s
  | .thermalTrip src => Sys2Proof.Machine.execThermalTrip src s
  | .tripShutdown => Sys2Proof.Machine.execTripShutdown s
  | .sensorDisagree p => Sys2Proof.Machine.execSensorDisagree p s
  | .powerLoss vaux => Sys2Proof.Machine.execPowerLoss vaux s
  | .powerRestore b => Sys2Proof.Machine.execPowerRestore b s
  | .pllLockLoss b => Sys2Proof.Machine.execPllLockLoss b s
  | .coldReset b => Sys2Proof.Machine.execColdReset b s
  | .warmReset => Sys2Proof.Machine.execWarmReset s
  | .lockstepMismatch b => Sys2Proof.Machine.execLockstepMismatch b s
  | .pkgRstNRelease b => Sys2Proof.Machine.execPkgRstNRelease b s
  | .tripConditionRelease => Sys2Proof.Machine.execTripConditionRelease s
  | .radishKernelsFinished results => Sys2Proof.Machine.execRadishKernelsFinished results s
  | .memberTrainingComplete failed => Sys2Proof.Machine.execMemberTrainingComplete failed s
  | .flashWriteComplete ok => Sys2Proof.Machine.execFlashWriteComplete ok s
  | .targetRegisterRead a => Sys2Proof.Machine.execTargetRegisterRead a s

end Sys2Proof.Machine
end

