-- ==== Sys2Proof/Machine/Tick.lean ====
section
/-! DEFINITION. One tick of TBCLK: what step does on an empty queue (assumption log 1). Time-driven effects that a
command of the table names happen at that command; what only time does happens here. -/

namespace Sys2Proof.Machine

/-- The STB after a tick (R430, R432): one nominal tick and what the measured frequency of the parent adds, with the
phase that remains slewed by at most 100 ppm. -/
def StbSt.tick (b : StbSt) : StbSt :=
  let d : Int := max (-429496) (min 429496 b.corr)
  let t := (2 ^ 16 * b.time + b.sub : Int) + max 0 (2 ^ 32 + b.rate + d)
  { b with ticks := b.ticks + 1, time := (t / 2 ^ 16).toNat, sub := (t % 2 ^ 16).toNat, corr := b.corr - d }

/-- A wait after a tick (R422, R423): its total counts always, its watchdog not while a member replays or retrains. -/
def WaitSt.tick (paused : Bool) (w : WaitSt) : WaitSt :=
  { w with ticks := if paused then w.ticks else w.ticks + 1, total := w.total + 1 }

/-- An engine after a tick. -/
def EngSt.tick (paused : Bool) (r : EngSt) : EngSt :=
  { r with wait := r.wait.map fun w => if w.kind = .attime ∨ w.ok then w else w.tick paused }

/-- Whether a member of the package is replaying or retraining (R491). -/
def State.anyBusy (s : State) : Bool := s.net.member.any fun e => e.2.busy

/-- The members of the package whose traffic an op of die d sends to or takes from a ring neighbour uses: the Avenue links
toward it with the way to their I/O dies, or the way between the two dies (R504, R573). -/
def State.opMembers (s : State) (t : TopoCfg) (d : Nat) (v : GrpMember) : List Nat :=
  if ({ x := v.x, y := v.y, z := v.z } : Vec3) = t.self then s.innerRoute d v.die
  else match t.dirTo { x := v.x, y := v.y, z := v.z } with
    | none => []
    | some g => (s.members g).flatMap fun j => j :: s.innerRoute d (4 + j / 12)

/-- Whether a link that carries an op's messages, or a link of the package on a way that it uses, replays or retrains
(R573). -/
def State.slotPaused (s : State) (cfg : JobCfg) (d : Nat) (k : CxSlot) : Bool :=
  match cfg.groups[k.group]? with
  | none => false
  | some g =>
    match g.rankOf cfg.topo.self d with
    | none => false
    | some me =>
      let near := ([1, 2, 3].filter fun i => decide (1 < g.level i)).flatMap fun i =>
        let p := digit (g.digits me) i
        [g.ringMember me i (p + 1), g.ringMember me i (p + g.level i - 1)]
      near.any fun r => (g.members[r]?).any fun v => (s.opMembers cfg.topo d v).any fun m => (s.memberAt m).busy

/-- The timers of a Collective Engine after a tick (R572, R573). -/
def State.cxTick (s : State) (d : Nat) : State :=
  match s.cur.bind fun c => c.2.cfg with
  | none => s
  | some cfg =>
    s.modCx d fun x =>
      { x with slots := x.slots.map fun e => (e.1, e.2.map fun k =>
          if k.done then k
          else { k with ticks := if s.slotPaused cfg d k then k.ticks else k.ticks + 1, total := k.total + 1 }) }

/-- The divisor of a position (R771). -/
def divisorOf (pos : Nat) : Nat := ([6, 7, 8, 10, 12] : List Nat).getD pos 12

/-- The ACLK cycles at a position in the tick that follows tick `t` (R768, R771). -/
def aclkCycles (pos t : Nat) : Nat := 96 * (t + 1) / divisorOf pos - 96 * t / divisorOf pos

/-- UE_CNT_JSTALL of a die after a tick (R626). -/
def State.ueTick (s : State) (t d : Nat) : State :=
  if s.pmc.dieOff.contains d then s
  else (s.modUe d fun u =>
    if u.jstall then { u with jstallCnt := satAdd32 u.jstallCnt (aclkCycles u.pos t) } else u).pumpDie d

/-- ME_CNT_STALL of a core after a tick (R399). -/
def CoreSt.tick (t : Nat) (k : CoreSt) : CoreSt :=
  if k.meStallNow then { k with meStall := satAdd32 k.meStall (aclkCycles k.pos t) } else k

/-- The cores after a tick; those of a die that is turned off stand still. -/
def State.coreTick (s : State) (t : Nat) : State :=
  { s with core := s.core.map fun (e : Nat × CoreSt) => if s.pmc.dieOff.contains (e.1 / 128) then e else (e.1, e.2.tick t) }

/-- The keyed sequence after a tick (R837): 8 CCLK cycles, not counted while its agent is halted. -/
def SecSt.tick (c : SecSt) : SecSt :=
  { c with seq := c.seq.map fun k =>
      if k.live && !c.haltedAgents.contains k.agent then { k with count := k.count + 8 } else k }

/-- A stack controller with no command before it: the requests in its slots and at its ports go on, and a chunk that is
due is read (R337, R382). -/
def State.stackTick (s : State) (k : Nat) : State :=
  if !s.serves k then s
  else
    let t := s.stackAt k
    let s := if t.queue.isEmpty && t.ports.isEmpty then s else (s.drainReqs k).refill k
    if (s.stackAt k).scrubNext ≤ s.stb.ticks then s.scrubNow k [] else s

/-- A ring with no command before it: entries that wait are written, and malformed heads are rejected (R646, R654). -/
def State.ringTick (s : State) (r : Nat) : State := (s.drainWait r 512).pumpRing r 256

/-- The deferred reset after a tick (R822): 25 µs after the request it takes effect. -/
def State.resetTick (s : State) : State :=
  match s.resetDue with
  | none => s
  | some (t, b) => if 2500 ≤ t + 1 then s.dueReset else { s with resetDue := some (t + 1, b) }

/-- The package after one TBCLK tick with no command (R430). -/
def tick (s : State) : State :=
  let t := s.stb.ticks
  let busy := s.anyBusy
  let s := { s with stb := s.stb.tick, sec := s.sec.tick, eng := s.eng.map fun (e : Nat × EngSt) => (e.1, e.2.tick busy) }
  let s := s.coreTick t
  let s := (List.range s.dies).foldl (fun (a : State) d => (a.cxTick d).ueTick t d) s
  let s := (List.range s.stacks).foldl (fun (a : State) k => a.stackTick k) s
  let s := s.wakeRestores
  let s := (List.range 8).foldl (fun (a : State) r => a.ringTick r) s
  s.resetTick

end Sys2Proof.Machine
end

