-- ==== Sys2Proof/Safety.lean ====
section
/-! DEFINITION. The terms in which the statements about the package are written. -/

namespace Sys2Proof.Machine

/-- Whether the stores that a saved context holds are in canonical form. -/
def CtxSt.savedOk (x : CtxSt) : Bool := x.savedSpm.all Store.wf && x.savedSram.all Store.wf

/-- Whether every memory of the package is in canonical form, the saved copies of scratchpad and SRAM among them. -/
def State.memOk (s : State) : Bool := Memory.wf s.mem && s.ctx.all fun e => e.2.savedOk

/-- The fuses `g` are the fuses `f` but for the anti-rollback count, which only rises (R815). -/
structure FuseKept (f g : Fuses) : Prop where
  same : g = { f with arb := g.arb }
  arb : f.arb ≤ g.arb

/-- Every lock register that is locked in `s` is locked in `t` (R849). -/
structure LocksKept (s t : State) : Prop where
  mem : ∀ d, (tget .reset s.memLock d).lock = true → (tget .reset t.memLock d).lock = true
  link : ∀ i, (tget .reset s.linkLock i).lock = true → (tget .reset t.linkLock i).lock = true
  lsec : s.lsecLock.lock = true → t.lsecLock.lock = true

/-! ## Commands that complete -/

/-- `c` completes in `s`, in a next state of which `P` holds. -/
def Does (c : Instr) (s : State) (P : State → Prop) : Prop := ∃ t, exec c s = .next t ∧ P t

/-- Engine `e` may issue the op `i`, with header `h`, in state `s`, and the op belongs to step `n` (R272, R273, R276):
the part has the die and it is powered, the engine runs that step, no earlier op holds it, the op is the next of its
stream, and the header wait is met. -/
structure MayIssue (s : State) (e : EngRef) (i : Instr) (h : OpHdr) (n : BitVec 64) : Prop where
  present : e.die.val < s.dies
  powered : s.pmc.dieOff.contains e.die.val = false
  step : (s.engAt e).step = some n
  live : (s.engAt e).live = true
  running : (s.engAt e).ended = false
  free : blocked (s.engAt e) = false
  next : s.nextOp e (s.engAt e) = some i
  header : hdrMet s e (s.engAt e) h = true

/-- The package `u` after engine `e`, with registers `r`, has issued `op`, an op `i` of the stream that its detectors
have nothing to report of. -/
def State.issued (u : State) (e : EngRef) (i : Instr) (r : EngSt) (op : IssuedOp) : State :=
  u.setEng e (r.push (opWords i) op)

/-- The bytes that the op `i` reads at its issue and whose parity fails (R722). -/
def State.opBad (v : State) (e : EngRef) (i : Instr) : List Nat :=
  if readsAtIssue i then v.parBad (v.opKeys { die := e.die, core := e.core } i) else []

/-- The package after engine `e` of step `n` has issued `i` with an effect that leaves `u`, registers `r` and the issued
op `op`; `v` is the package that the op met, struck as `o` says, and its detectors report what they find (R722-R724). -/
def State.issuedSeen (u v : State) (e : EngRef) (i : Instr) (n : BitVec 64) (o : HwObs) (r : EngSt) (op : IssuedOp) :
    State :=
  (u.observe e n (v.opBad e i) (o.residue && e.eng != .ae)).issued e i r op

/-- No core but `c` differs between two states. -/
def OtherCores (s t : State) (c : CoreRef) : Prop := ∀ k, k ≠ s.coreKey c → tget .reset t.core k = tget .reset s.core k

/-- Scratchpad bytes of one state read as in another outside the places `p` of core `c`. -/
def SpmKept (s t : State) (c : CoreRef) (p : Nat → Prop) : Prop :=
  ∀ k, (∀ a, p a → k ≠ s.coreKey c * 2 ^ 22 + a) → t.mem.spm.get 0 k = s.mem.spm.get 0 k

/-- What element `i` of a VLD reads in the package `s` (R288). -/
def vldElem (s : State) (c : CoreRef) (f : VldF) (i : Nat) : Val :=
  readElem f.fmt (unpackElem (fmtOf f.fmt) (s.spmRead c (64 * f.line.toNat) (elemBytes (fmtOf f.fmt) (vldLen f))) i)
    (fld (if scaleOf f.fmt = 0 then [] else s.spmRead c f.sbyte.toNat (vldLen f / blkOf f.fmt)) (i / blkOf f.fmt) 1)

/-- Between `s` and `u` vector register `vd` of core `c` takes `lane i` in each lane `i`, and nothing else changes. -/
structure WritesRegister (s u : State) (c : CoreRef) (vd : BitVec 6) (lane : Nat → BitVec 32) : Prop where
  value : ∀ i, i < 128 → u.lane c vd i = lane i
  others : ∀ (d : CoreRef) (v : BitVec 6) (i : Nat), i < 128 → (s.coreKey d ≠ s.coreKey c ∨ v ≠ vd) →
    u.lane d v i = s.lane d v i
  frame : u = { s with mem := { s.mem with vreg := u.mem.vreg, par := u.mem.par } }

/-- The scratchpad places of `rows` element rows of `width` elements from a line, and of their scale bytes from a byte
offset where the format has block scales (R220, R290). -/
def inRows (fmt line : BitVec 16) (sbyte : BitVec 22) (rows width : Nat) (a : Nat) : Prop :=
  ∃ i, i < rows ∧
    ((64 * (line.toNat + i * rowLines fmt width) ≤ a
        ∧ a < 64 * (line.toNat + i * rowLines fmt width) + elemBytes (fmtOf fmt) width)
     ∨ (scaleOf fmt ≠ 0 ∧ sbyte.toNat + i * (width / blkOf fmt) ≤ a ∧ a < sbyte.toNat + (i + 1) * (width / blkOf fmt)))

/-- A core after a VE op has read the `places` of a bank: they hold 0 of their kind where it clears, the hand-over to
the AE is due where it releases, and all else of the core stays (R217, R221). -/
structure RegionRead (k k' : CoreSt) (b : Bool) (places : List Nat) (clear release : Bool) : Prop where
  inside : ∀ p, p ∈ places → tget .zero (k'.bank b) p =
    if clear then { tget .zero (k.bank b) p with code := 0 } else tget .zero (k.bank b) p
  outside : ∀ p, p ∉ places → tget .zero (k'.bank b) p = tget .zero (k.bank b) p
  hand : k'.hand b = if release then some false else k.hand b
  frame : k' = (k.setBank b (k'.bank b)).setHand b (k'.hand b)

/-- Between `s` and `t` the descriptor `m` in slot `i` of a core's ME has moved its data: its slot is free, its op waits
for OP_COMPLETE with flags of which `P` holds with the core, and besides the stores only what the engine's earlier
requests and its reads count and report has changed (R318, R360-R379, R395). -/
def DescRan (s : State) (c : CoreRef) (i : Nat) (m : MeDescSt) (P : CoreSt → BitVec 4 → Prop) (t : State) : Prop :=
  ∃ f, (t.coreAt c).slot i = none ∧ P (t.coreAt c) f
    ∧ (t.engRaw (engOf c .me)).issued = (s.engRaw (engOf c .me)).issued.map (fun op =>
        if op.slot = some i ∧ op.code = 0x30#8 ∧ !op.done then
          { op with done := true, flags := [(m.fslot.toNat, f)] } else op)
    ∧ (∀ j, j ≠ i → (t.coreAt c).slot j = (s.coreAt c).slot j)
    ∧ t = { s with mem := t.mem, core := t.core, eng := t.eng, stack := t.stack, flt := t.flt, sec := t.sec }

/-- The package that a descriptor's data move meets: the engine's requests that wait have taken effect, and the stores
are struck as `o` says (R318, R722). -/
def State.metBy (s : State) (c : CoreRef) (o : HwObs) : State := (s.settleEngine (.engine (engOf c .me))).strikes o

/-! ## Citis commands (R653, R654, R658, R662) -/

/-- The ring of a Citis command and how its packet is read (R662). -/
def citisForm : Instr → Option (Fin 8 × CmdForm)
  | .identify r => some (r, plainForm 0x01 noCtx [] fun _ _ => [])
  | .queryStatus r => some (r, plainForm 0x02 oneCtx [] fun _ _ => [])
  | .readTelemetry r => some (r, plainForm 0x03 noCtx [(28, 1)] fun s p => [((s.telemetry (pf p 28 1)).isSome, 28)])
  | .journalRead r =>
    some (r, plainForm 0x04 noCtx [(32, 8)] fun _ p => [(pf p 24 4 % 64 == 0, 24), (pf p 32 8 % 64 == 0, 32)])
  | .attest r => some (r, plainForm 0x05 anyCtx [(28, 32)] fun _ _ => [])
  | .contextCreate r =>
    some (r, { op := 0x10, ctxOk := oneCtx, used := [(32, 28)],
               vals := fun _ p => [(decide (pf p 56 1 ≤ 1), 56), (decide (pf p 57 1 < 8) || pf p 57 1 == 0xFF, 57)],
               accepts := fun st => st == .free })
  | .contextSave r => some (r, ctxForm 0x11 [] (fun _ _ => []) [.idle, .stepping])
  | .contextRestore r => some (r, ctxForm 0x12 [] (fun _ _ => []) [.saved])
  | .contextDestroy r =>
    some (r, ctxForm 0x13 [] (fun _ _ => []) [.idle, .stepping, .saving, .saved, .restoring, .faulted])
  | .loadImage r => some (r, { ctxForm 0x20 [] (fun _ _ => []) [.idle, .stepping, .saved] with hbm := true })
  | .loadConfig r => some (r, { ctxForm 0x21 [] (fun _ _ => []) [.idle, .stepping, .saved] with hbm := true })
  | .verifyConfig r => some (r, ctxForm 0x22 [] (fun _ _ => []) [.idle, .stepping])
  | .swapConfig r => some (r, ctxForm 0x23 [(32, 8)] (fun _ _ => []) [.idle, .stepping])
  | .startSteps r =>
    some (r, { ctxForm 0x30 [(28, 3), (32, 24)]
      (fun _ p => [(decide (pf p 28 1 ≤ 2), 28), (decide (pf p 29 1 ≤ 1), 29)]) [.idle, .faulted] with hbm := true })
  | .halt r => some (r, ctxForm 0x31 [(32, 8)] (fun _ _ => []) [.stepping])
  | .resume r => some (r, ctxForm 0x32 [(40, 8)] (fun _ _ => []) [.idle])
  | .abortStep r => some (r, ctxForm 0x33 [] (fun _ _ => []) [.stepping])
  | .remapCore r =>
    some (r, plainForm 0x40 noCtx [(28, 1), (29, 1), (30, 1)] fun s p =>
      [(decide (pf p 28 1 < s.dies), 28), (decide (pf p 29 1 < 96), 29),
       (decide (pf p 30 1 < 100) || pf p 30 1 == 0x7F, 30)])
  | .linkCtrl r =>
    some (r, plainForm 0x41 noCtx [(28, 1), (29, 1)] fun s p =>
      [(decide (pf p 28 1 < s.links), 28), (decide (pf p 29 1 ≤ 1), 29)])
  | .timeCtrl r =>
    some (r, plainForm 0x42 anyCtx [(28, 1), (29, 1), (30, 1), (31, 1), (32, 8)] fun s p =>
      let e : Vec3 := match (s.ctxAt (pktCtx p)).cfg with
        | some g => g.topo.ext
        | none => { x := 256, y := 256, z := 256 }
      let follow := pf p 28 1 == 1
      [(decide (pf p 28 1 ≤ 2), 28), (!follow || oneCtx (pktCtx p), 8), (!follow || decide (pf p 29 1 < e.x), 29),
       (!follow || decide (pf p 30 1 < e.y), 30), (!follow || decide (pf p 31 1 < e.z), 31)])
  | .setPowerLimit r =>
    some (r, plainForm 0x43 noCtx [(28, 1), (29, 1), (30, 2), (32, 4)] fun s p =>
      let on := pf p 29 1 == 1
      let win := pf p 28 1 == 0
      [(decide (pf p 28 1 ≤ 1), 28), (decide (pf p 29 1 ≤ 1), 29),
       (!on || (if win then decide (1 ≤ pf p 30 2) && decide (pf p 30 2 ≤ 100) else pf p 30 2 == 0), 30),
       (!on || (if win then decide (100 ≤ pf p 32 4) && decide (pf p 32 4 ≤ maxPower s.fuse.kind)
         else decide (1 ≤ pf p 32 4) && decide (pf p 32 4 ≤ 95)), 32)])
  | .runRadish r =>
    some (r, plainForm 0x44 noCtx [(28, 4), (32, 1), (40, 8), (48, 8)] fun s p =>
      [(decide (pf p 28 4 < 1024), 28), (decide (pf p 32 1 < 2 ^ s.dies), 32),
       (pf p 48 8 == 0 || decide (pf p 40 8 + pf p 48 8 ≤ s.hbmBytes), 40)])
  | .clearErrors r => some (r, plainForm 0x45 noCtx [(28, 4)] fun _ p => [(decide (pf p 28 4 < 4096), 28)])
  | .fwUpdate r => some (r, plainForm 0x50 noCtx [] fun _ _ => [])
  | _ => none

/-- Town Hall takes the packet `p` for the Citis command `c` on ring `r` and gives it no reject; where the command needs
its context's region, every stack of it serves (R350). -/
structure Accepted (c : Instr) (s : State) (r : Fin 8) (p : BitVec 512) : Prop where
  ready : s.ringReady r.val = true
  entry : s.entryAt r.val = some p
  form : ∃ f, citisForm c = some (r, f) ∧ pktOp p = f.op ∧ s.cmdReject r.val f p = none ∧ s.hbmWaits r.val f p = false

/-- The outcome in which Town Hall goes on to the next entries of ring `r`. -/
def served (r : Fin 8) (u : State) : Out := .next (u.pumpRing r.val 256)

/-- The command with packet `p` on ring `r` replies with a status, a DETAIL and no output. -/
def replies (r : Fin 8) (p : BitVec 512) (u : State) (status detail : Nat) : Out :=
  served r (u.reply r.val p status detail 0)

/-- The command with packet `p` on ring `r` writes `bs` to its host buffer and replies. -/
def outputs (r : Fin 8) (p : BitVec 512) (u : State) (bs : Bytes) (status detail : Nat) : Out :=
  served r ((u.hostWrite (pf p 16 8) bs).reply r.val p status detail bs.length)

/-- No context but `c` differs between two states. -/
def OtherContexts (s t : State) (c : Nat) : Prop := ∀ k, k ≠ c → t.ctxAt k = s.ctxAt k

/-! ## The 128-bit words of ops (R269, R274, R279-R304, R525, R583) -/

/-- The sum of fields at their lowest bits. -/
def fieldsOf : List (Nat × Nat) → Nat
  | [] => 0
  | (lo, v) :: r => v * 2 ^ lo + fieldsOf r

/-- The fields of an op's header. -/
def hdrFields (opc : Nat) (h : OpHdr) : List (Nat × Nat) :=
  [(0, opc), (8, b2n h.wen), (9, h.wxc.toNat), (15, b2n h.aen), (16, h.axc.toNat), (24, h.fslot.toNat), (32, h.wtgt.toNat)]

/-- An op word from its opcode, header and further fields. -/
def wordOf (opc : Nat) (h : OpHdr) (fs : List (Nat × Nat)) : Nat := fieldsOf (hdrFields opc h ++ fs)

/-- The EXT word of a packed pass (R284). -/
def extWord (e : ExtFields) : Nat :=
  fieldsOf [(0, 0xFE), (16, e.soff0.toNat), (32, e.soff1.toNat), (48, e.soff2.toNat), (64, e.soff3.toNat), (80, e.m0.toNat),
            (89, e.m1.toNat), (98, e.m2.toNat), (107, e.m3.toNat)]

/-- The fields of VLD and VST at their places (R288). -/
def vldPlaces (f : VldF) : List (Nat × Nat) :=
  [(48, f.vr.toNat), (54, f.fmt.toNat), (70, f.line.toNat), (86, f.sbyte.toNat), (108, f.len.toNat)]

/-- The stream, the word and the word after it (0 where none belongs to it) of an op as a schedule image holds it; none
for a command that is not an op of a stream, or that carries what no word holds: cycles, observations. -/
def opWord : Instr → Option (EngRef × Nat × Nat)
  | .nop e h => some (e, wordOf 0x00 h [], 0)
  | .end_ e h => some (e, wordOf 0x01 h [], 0)
  | .aeLoad c h f l [] => some (engOf c .ae, wordOf 0x10 h [(64, f.toNat), (80, l.toNat)], 0)
  | .aePass c h p [] ⟨[], false⟩ =>
    some (engOf c .ae,
      wordOf 0x11 h [(48, b2n p.orient), (49, p.pack.toNat), (51, b2n p.swap), (52, b2n p.sealB), (53, b2n p.exactM),
        (54, b2n p.opn), (55, b2n p.cls), (56, b2n p.acc), (57, b2n p.bank), (64, p.sfmt.toNat), (80, p.soff.toNat),
        (96, p.m.toNat), (105, p.mimg.toNat)],
      match p.ext with
      | none => 0
      | some e => extWord e)
  | .aePreload c h p ⟨[], false⟩ =>
    some (engOf c .ae, wordOf 0x12 h [(48, b2n p.bank), (49, p.row0.toNat), (57, p.nrows.toNat), (66, b2n p.col0),
      (67, b2n p.wide), (68, p.src.toNat), (70, p.pfmt.toNat), (86, p.pline.toNat)], 0)
  | .vld c h f ⟨[], false⟩ => some (engOf c .ve, wordOf 0x20 h (vldPlaces f), 0)
  | .vst c h f ⟨[], false⟩ => some (engOf c .ve, wordOf 0x21 h (vldPlaces f), 0)
  | .vop c h f ⟨[], false⟩ =>
    some (engOf c .ve, wordOf 0x22 h [(48, f.func.toNat), (56, f.vd.toNat), (62, f.va.toNat), (68, f.vb.toNat),
      (74, f.vc.toNat), (80, b2n f.isel), (81, f.imm.toNat)], 0)
  | .vtr c h f ⟨[], false⟩ =>
    some (engOf c .ve, wordOf 0x23 h [(48, f.func.toNat), (56, f.vd.toNat), (62, f.va.toNat)], 0)
  | .vred c h f ⟨[], false⟩ =>
    some (engOf c .ve, wordOf 0x24 h [(48, f.func.toNat), (56, f.vd.toNat), (62, f.va.toNat)], 0)
  | .drain c h f ⟨[], false⟩ =>
    some (engOf c .ve, wordOf 0x25 h [(48, b2n f.bank), (49, f.row0.toNat), (57, f.nrows.toNat), (66, b2n f.col0),
      (67, b2n f.wide), (68, b2n f.clear), (69, b2n f.release), (70, f.fmt.toNat), (86, f.line.toNat),
      (102, f.sbyte.toNat)], 0)
  | .spill c h f ⟨[], false⟩ =>
    some (engOf c .ve, wordOf 0x26 h [(48, b2n f.bank), (49, f.row0.toNat), (57, f.nrows.toNat), (66, b2n f.col0),
      (67, b2n f.wide), (68, b2n f.init), (69, b2n f.release), (70, f.pline.toNat)], 0)
  | .pdrain c h f ⟨[], false⟩ =>
    some (engOf c .ve, wordOf 0x27 h [(48, f.nrows.toNat), (57, b2n f.wide), (58, f.fmt.toNat), (74, f.pline.toNat),
      (90, f.line.toNat), (106, f.sbyte.toNat)], 0)
  | .vsrb c h v => some (engOf c .ve, wordOf 0x28 h [(48, v.toNat)], 0)
  | .meDesc c h d => some (engOf c .me, wordOf 0x30 h [(48, d.toNat)], 0)
  | .meFence c h => some (engOf c .me, wordOf 0x31 h [], 0)
  | .xArrive c h f =>
    some (engOf c .sync, wordOf 0x40 h [(48, f.scope.toNat), (50, f.die.toNat), (52, f.core.toNat), (59, f.index.toNat),
      (67, f.n.toNat), (83, f.x.toNat), (88, f.y.toNat), (93, f.z.toNat)], 0)
  | .xWait c h scope index target =>
    some (engOf c .sync, wordOf 0x41 h [(48, scope.toNat), (50, index.toNat), (58, target.toNat)], 0)
  | .xReset c h scope index => some (engOf c .sync, wordOf 0x42 h [(48, scope.toNat), (50, index.toNat)], 0)
  | .xAttime c h t => some (engOf c .sync, wordOf 0x43 h [(48, t.toNat)], 0)
  | .ueRun die h a ⟨[], false⟩ => some (dieEngOf die .ue, wordOf 0x50 h [(48, a.toNat)], 0)
  | .cxRun die h a => some (dieEngOf die .cx, wordOf 0x60 h [(48, a.toNat)], 0)
  | .cxGnorm die h g [] => some (dieEngOf die .cx, wordOf 0x61 h [(48, g.toNat)], 0)
  | .cxFence die h => some (dieEngOf die .cx, wordOf 0x62 h [], 0)
  | _ => none

end Sys2Proof.Machine

namespace Sys2Proof

/-- Whether a command may reset the package: the resets, the loss and the return of power, and the events that a pending
reset or a loss of power waits for (R806, R822, R901). -/
def Instr.mayReset : Instr → Bool
  | .coldReset _ | .warmReset | .pllLockLoss _ | .lockstepMismatch _ | .pkgRstNRelease _ | .powerLoss _ | .powerRestore _
  | .regulatorSample _ | .commitRecordWritten _ _ => true
  | _ => false

end Sys2Proof
end

