-- ==== Sys2Proof/Certificates/Slice0/Obligations.lean ====
section
/-! DEFINITION. The statements about the package. -/

open Sys2Proof Sys2Proof.Machine

/-- For every command c and state s, a step of s with c put at the front of its queue is the effect of c on s with the
rest of the queue. The model's choice (assumption log 1): with no command waiting a step answers the state after one
tick of the timebase, and no command has come from it. (assumption log 1, 09_synchronisation_and_time) -/
def Obligations.StepRunsFrontCommandElseTicks : Prop :=
  (∀ (c : Instr) (s : State), step { s with pending := c :: s.pending } = exec c s)
  ∧ (∀ s : State, s.pending = [] → step s = .next (tick s) ∧ (tick s).pending = [])

/-- Right after reset no command waits, the memories are in canonical form, every context is FREE with no resident
context, every ring pair is stopped and disabled, boot has not passed stage 0, the servo is FREE, no fault is
reported, no member of a link is in service, and no lock register is locked. (R821, R666, R712, R845, R433,
18_registers_and_management) -/
def Obligations.ResetState : Prop :=
  State.reset.pending = [] ∧ State.reset.memOk = true ∧ State.reset.resident = none
  ∧ (∀ c, (State.reset.ctxAt c).st = .free)
  ∧ (∀ r, (State.reset.ringAt r).en = false ∧ (State.reset.ringAt r).stopped = true ∧ (State.reset.ringAt r).cur = none)
  ∧ State.reset.sec.stage = 0 ∧ State.reset.stb.st = .free ∧ State.reset.flt.wires = [] ∧ State.reset.flt.halted = false
  ∧ (∀ m, (State.reset.memberAt m).st = .disabled)
  ∧ (∀ d, (tget .reset State.reset.memLock d).lock = false ∧ (tget .reset State.reset.linkLock d).lock = false)
  ∧ State.reset.lsecLock.lock = false

/-- For every command and every state, where the command has a next state, the waiting commands are as they were and
the fuses too, except that the anti-rollback count may have risen. (17_security_and_boot, 01_package_anatomy) -/
def Obligations.EffectsKeepQueueAndFuses : Prop :=
  ∀ (c : Instr) (s t : State), exec c s = .next t → t.pending = s.pending ∧ FuseKept s.fuse t.fuse

/-- From every state whose memories (HBM with its error pattern, scratchpads, die SRAM, Markets, JD, host memory, ring
windows and the saved copies of a context) are in canonical form, a step with a next state leads to such a state.
(07_memory_system, 14_command_interface) -/
def Obligations.StepKeepsMemoryCanonical : Prop :=
  ∀ s t : State, s.memOk = true → step s = .next t → t.memOk = true

/-- Every command that is not a reset, the end of power, or an event that a pending reset waits for leaves every LOCK
bit that is set in MEM_LOCK, LINK_LOCK and LSEC_LOCK set. (18_registers_and_management, 17_security_and_boot,
00_scope) -/
def Obligations.LocksClearOnlyByReset : Prop :=
  ∀ (c : Instr) (s t : State), c.mayReset = false → exec c s = .next t → LocksKept s t

/-- For every op of a stream that carries no reserved encoding and names only bytes that exist, the 128-bit word (with
its EXT) that the encoding tables give it decodes, in the stream of its engine, to that op with every field as it was.
(06_tensor_core_program, 11_collectives, 12_optimizer_and_update) -/
def Obligations.OpWordsDecode : Prop :=
  ∀ (i : Instr) (e : EngRef) (w x : Nat), opWord i = some (e, w, x) → i.wf = true → i.inStore = true →
    decodeOp e w x = some i

/-- Every command in every state has a next state, but for one on a TQ4H that names a unit it does not have, which stops
with absentUnit. On the TQ4H dies 2 and 3, I/O die 1, stacks 8 to 15 and links 12 to 23 do not exist: commands that name
them stop. An engine never comes to an op that carries a reserved encoding or names a scratchpad byte that does not
exist, and an op that its engine does not come to next changes nothing. (R14, R15, R255, R280, R1, R38, R41, R272) -/
def Obligations.CommandsStopByName : Prop :=
  (∀ (i : Instr) (s : State), (∃ t, exec i s = .next t) ∨ (s.fuse.kind = .tq4h ∧ exec i s = .fault .absentUnit))
  ∧ (∀ s : State, s.fuse.kind = .tq4h →
    (∀ (d : Fin 4) (o : HwObs) (q : Fin 4), 2 ≤ d.val → exec (.allReduce d q o) s = .fault .absentUnit
      ∧ exec (.collectiveTimeout d q) s = .fault .absentUnit ∧ exec (.droopStart d) s = .fault .absentUnit
      ∧ exec (.railTermEval d) s = .fault .absentUnit)
    ∧ (∀ (c : CoreRef) (h : OpHdr), 2 ≤ c.die.val → exec (.meFence c h) s = .fault .absentUnit)
    ∧ (∀ k : Fin 16, 8 ≤ k.val → exec (.prefetchAging k) s = .fault .absentUnit)
    ∧ (∀ m : Fin 24, 12 ≤ m.val → exec (.messageReceive m) s = .fault .absentUnit)
    ∧ (∀ io : Fin 2, 1 ≤ io.val → exec (.marketPartitionSwap io) s = .fault .absentUnit))
  ∧ (∀ (s : State) (e : EngRef) (r : EngSt) (i : Instr), s.nextOp e r = some i → i.wf = true ∧ i.inStore = true)
  ∧ (∀ (s : State) (i : Instr) (e : EngRef) (w x : Nat), opWord i = some (e, w, x) → e.die.val < s.dies →
    s.isNext e i = false → (∀ c h f, i = .xArrive c h f → f.scope.toNat ≤ 1 → f.die.toNat < s.dies) →
    (∀ d h g r, i = .cxGnorm d h g r → s.gnormSlot d.val = none) →
    Does i s fun t => t = { s with core := t.core } ∧ ∀ d, t.coreAt d = s.coreAt d)

/-- An engine that may issue such an op has a next state: the op joins the issued ops of that engine, its op number
advances by one and its place in its stream by one word, VSRB sets the stochastic-rounding base, and nothing else of the
package changes. Where everything but the header wait of a NOP is met and the engine holds no wait yet, the engine keeps
its op number and issued ops, and a header wait on crossing WXC for WTGT with its watchdog at 0 starts; nothing else
changes. (R272, R279, R303, 06_tensor_core_program, 11_collectives, R276, R421, R404) -/
def Obligations.OpsIssueOrWait : Prop :=
  (∀ (s : State) (h : OpHdr) (n : BitVec 64),
    (∀ e, MayIssue s e (.nop e h) h n →
      exec (.nop e h) s = .next (s.setEng e ((s.engAt e).push 1 (issuedOp 0x00 h n))))
    ∧ (∀ e, MayIssue s e (.end_ e h) h n →
      exec (.end_ e h) s = .next (s.setEng e ((s.engAt e).push 1 (issuedOp 0x01 h n))))
    ∧ (∀ c v, MayIssue s (engOf c .ve) (.vsrb c h v) h n →
      exec (.vsrb c h v) s = .next (s.setEng (engOf c .ve)
        (({ s.engAt (engOf c .ve) with srb := v } : EngSt).push 1 (issuedOp 0x28 h n))))
    ∧ (∀ c, MayIssue s (engOf c .me) (.meFence c h) h n →
      exec (.meFence c h) s = .next (s.setEng (engOf c .me) ((s.engAt (engOf c .me)).push 1 (issuedOp 0x31 h n))))
    ∧ (∀ die, MayIssue s (dieEngOf die .cx) (.cxFence die h) h n →
      exec (.cxFence die h) s
        = .next (s.setEng (dieEngOf die .cx) ((s.engAt (dieEngOf die .cx)).push 1 (issuedOp 0x62 h n)))))
  ∧ (∀ (s : State) (e : EngRef) (h : OpHdr) (n : BitVec 64), e.die.val < s.dies → s.isNext e (.nop e h) = true →
    (s.engAt e).step = some n → hdrMet s e (s.engAt e) h = false → (s.engAt e).wait = none →
    ∃ w : WaitSt, exec (.nop e h) s = .next (s.setEng e { s.engAt e with wait := some w })
      ∧ w.kind = .header ∧ w.index = h.wxc.toNat ∧ w.target = h.wtgt ∧ w.bank = bankOf n ∧ w.ticks = 0 ∧ w.total = 0
      ∧ w.ok = false)

/-- After the array's cycles have passed: AE_LOAD, with no load under way and no pass that swaps still to start, makes
a load of row 0 of the plane that is not active, whose written rows become 0 and whose format is WFMT; AE_PASS, with
every earlier pass started, appends the pass, on the plane it will use, to the core's passes. Only this core and its
AE change, and neither plane nor bank does, but for what strikes leave. (R152, R157, R282, R283, R156,
04_matrix_array) -/
def Obligations.AeLoadAndPassIssue : Prop :=
  ∀ (s : State) (c : CoreRef) (h : OpHdr) (n : BitVec 64) (rs : List CycleRun) (u : State), u = s.clock c rs →
    (∀ wfmt wline, MayIssue u (engOf c .ae) (.aeLoad c h wfmt wline []) h n → (u.coreAt c).ae.load = none →
      (∀ p ∈ (u.coreAt c).ae.passes, p.started = false → p.f.swap = false) →
      Does (.aeLoad c h wfmt wline rs) s fun t =>
        (t.coreAt c).ae.load = some { fmt := wfmt, line := wline, row := 0, plane := !(u.coreAt c).ae.active,
                                      tok := (u.coreAt c).ae.token }
        ∧ (t.coreAt c).ae.rows (!(u.coreAt c).ae.active) = 0 ∧ (t.coreAt c).ae.fmt (!(u.coreAt c).ae.active) = wfmt
        ∧ (∀ b, (t.coreAt c).bank b = (u.coreAt c).bank b ∧ (t.coreAt c).ae.plane b = (u.coreAt c).ae.plane b)
        ∧ (t.coreAt c).ae.active = (u.coreAt c).ae.active ∧ (t.coreAt c).ae.passes = (u.coreAt c).ae.passes
        ∧ OtherCores u t c ∧ t = { u with core := t.core, eng := t.eng }
        ∧ t.eng = (u.setEng (engOf c .ae) ((u.engAt (engOf c .ae)).push 1 { issuedOp 0x10 h n with done := false })).eng)
    ∧ (∀ f o, MayIssue u (engOf c .ae) (.aePass c h f [] noObs) h n →
      (∀ p ∈ (u.coreAt c).ae.passes, p.started = true) →
      let v := u.strikes o
      ∃ w : State, exec (.aePass c h f rs o) s = .next (w.issued (engOf c .ae) (.aePass c h f [] noObs)
          { u.engAt (engOf c .ae) with passNo := (u.engAt (engOf c .ae)).passNo + 1 }
          { issuedOp 0x11 h n with done := false, slot := some (u.engAt (engOf c .ae)).passNo })
        ∧ (w.coreAt c).ae = { (v.coreAt c).ae with passes := (v.coreAt c).ae.passes ++
            [{ hdr := h, f := f, step := n, seq := (u.engAt (engOf c .ae)).passNo, started := false, b0 := 0,
               plane := f.swap != (u.coreAt c).ae.active, mrw := o.residue }] }
        ∧ w = v.modCore c fun k => { k with ae := (w.coreAt c).ae })

/-- With the bank the AE's, no hand-over due and no pass on it: AE_PRELOAD issues, every entry of the region holds
what SRC says (zeros for SRC 0), every other entry and the other bank are as they were, and nothing changes but this
core, its AE and the parity of what it wrote. SRC 0 also leaves the kind of the entries. (R212, R213, R215, R287,
05_accumulation_and_exact_mode) -/
def Obligations.PreloadWritesOnlyItsRegion : Prop :=
  ∀ (s : State) (c : CoreRef) (h : OpHdr) (p : PreF) (o : HwObs) (n : BitVec 64) (v : State), v = s.strikes o →
    MayIssue s (engOf c .ae) (.aePreload c h p noObs) h n →
    (s.coreAt c).veOwns p.bank = false → (s.coreAt c).hand p.bank = none →
    (∀ q ∈ (s.coreAt c).ae.passes, q.f.bank ≠ p.bank) →
    ∃ (u : State) (fl : BitVec 4),
      exec (.aePreload c h p o) s = .next (u.issuedSeen v (engOf c .ae) (.aePreload c h p noObs) n o
        (s.engAt (engOf c .ae)) { issuedOp 0x12 h n with flags := [(h.fslot.toNat, fl)] })
      ∧ u = { v with core := u.core, mem := { v.mem with par := u.mem.par } } ∧ OtherCores v u c
      ∧ u.coreAt c = (v.coreAt c).setBank p.bank ((u.coreAt c).bank p.bank)
      ∧ (∀ i j, i < p.nrows.toNat → j < regionW p.wide →
          tget .zero ((u.coreAt c).bank p.bank) ((p.row0.toNat + i) * 128 + (b2n p.col0 * 64 + j))
            = { code := BitVec.ofNat 32 ((preRow v c p i).getD j (0, 0#4)).1,
                int := if p.src = 0 then
                    (tget .zero ((v.coreAt c).bank p.bank) ((p.row0.toNat + i) * 128 + (b2n p.col0 * 64 + j))).int
                  else fmtOf p.pfmt == 12 })
      ∧ (∀ k, (∀ i j, i < p.nrows.toNat → j < regionW p.wide → k ≠ (p.row0.toNat + i) * 128 + (b2n p.col0 * 64 + j)) →
          tget .zero ((u.coreAt c).bank p.bank) k = tget .zero ((v.coreAt c).bank p.bank) k)
      ∧ (p.src = 0 → ∀ i j, i < p.nrows.toNat → j < regionW p.wide →
          (tget .zero ((u.coreAt c).bank p.bank) ((p.row0.toNat + i) * 128 + (b2n p.col0 * 64 + j))).code = 0#32)

/-- LOAD_ROW_WRITE in a cycle in which a row is written already, or before the beat that the load-row rule asks for,
only lets the cycles pass; otherwise the row enters the plane of the load, and the load goes on to the next row, or
after row 127 ends, with its op complete. PASS_START on a pass that is ready, with no freeze and the level able to
reach 4, marks it started, swaps the planes where SWAP is 1, sets its beats and adopts the ACLK target of the die; on one
that is not ready, only time passes. (R157, R163, R161, R165, R166, R167, R185, R773, 04_matrix_array) -/
def Obligations.LoadRowsAndPassStart : Prop :=
  ∀ (s : State) (c : CoreRef) (rs : List CycleRun) (u : State), c.die.val < s.dies → u = s.clock c rs →
    (∀ o, (u.coreAt c).ae.load = none → exec (.loadRowWrite c rs o) s = .next u)
    ∧ (∀ (o : HwObs) (l : LoadSt), (u.coreAt c).ae.load = some l →
      ((u.coreAt c).ae.wrote ≠ none ∨ (u.coreAt c).ae.beat < l.need → exec (.loadRowWrite c rs o) s = .next u)
      ∧ ((u.coreAt c).ae.wrote = none → l.need ≤ (u.coreAt c).ae.beat →
        let v := u.strikes o
        ∃ (w : State) (n : BitVec 64),
        exec (.loadRowWrite c rs o) s = .next (runReady (w.observe (engOf c .ae) n
          (v.parBad (v.spmKeys c (rowRanges l.fmt l.line.toNat l.row))) false) c)
        ∧ w = { v.modCore c (fun _ => w.coreAt c) with eng := w.eng }
        ∧ (w.coreAt c).ae.load = (if l.row = 127 then none else some { l with row := l.row + 1 })
        ∧ (w.coreAt c).ae.rows l.plane = l.row + 1 ∧ (w.coreAt c).ae.wrote = some l.plane
        ∧ (w.engRaw (engOf c .ae)).issued = (if l.row = 127 then
            (v.engRaw (engOf c .ae)).issued.map fun op => if op.code = 0x10#8 then { op with done := true } else op
          else (v.engRaw (engOf c .ae)).issued)
        ∧ (∀ j, j < 128 → (w.coreAt c).ae.entry l.plane l.row j
            = (tensorRow v c l.fmt l.line.toNat 128 128 l.row).getD j { code := 0#16, scale := 0#8 })
        ∧ (∀ k j, j < 128 → k ≠ l.row → (w.coreAt c).ae.entry l.plane k j = (v.coreAt c).ae.entry l.plane k j)
        ∧ (w.coreAt c).ae.plane (!l.plane) = (v.coreAt c).ae.plane (!l.plane)
        ∧ (∀ b, (w.coreAt c).bank b = (v.coreAt c).bank b)))
    ∧ ((u.coreAt c).ae.waiting = none → exec (.passStart c rs) s = .next u)
    ∧ (∀ p : PassSt, (u.coreAt c).ae.waiting = some p →
      let a := (u.coreAt c).ae
      ((passReady (u.coreAt c) p = false ∨ a.tokenStop = true ∨ a.rise < 4) → exec (.passStart c rs) s = .next u)
      ∧ (passReady (u.coreAt c) p = true → a.tokenStop = false → 4 ≤ a.rise → ∃ w : State,
        exec (.passStart c rs) s = .next (runReady w c) ∧ w = u.modCore c (fun _ => w.coreAt c)
        ∧ (∀ q ∈ (w.coreAt c).ae.passes, q.started = true) ∧ (w.coreAt c).ae.passes.length = a.passes.length
        ∧ (w.coreAt c).ae.active = (if p.f.swap then p.plane else a.active)
        ∧ (w.coreAt c).ae.token = (if p.f.swap then some a.beat else a.token)
        ∧ (p.f.swap = true → (w.coreAt c).ae.rows (!p.plane) = 0)
        ∧ (w.coreAt c).ae.beatLen = beatCycles p.f.exactM (a.passCls p)
        ∧ (w.coreAt c).ae.injEnd = a.beat + (passM p.f + rowsPerBeat p.f.exactM (a.passCls p) - 1)
            / rowsPerBeat p.f.exactM (a.passCls p)
        ∧ (w.coreAt c).ae.lastEnd = (w.coreAt c).ae.injEnd + 255 ∧ (w.coreAt c).pos = u.target c.die.val
        ∧ (∀ b, (w.coreAt c).bank b = (u.coreAt c).bank b ∧ (w.coreAt c).ae.plane b = a.plane b)))

/-- CURRENT_LEVEL_STEP has a next state on every core of an enabled die. Its 64 cycles add at most 64 to the frozen, gap
and ramp counters together, none of which falls. While a drain does not take the sums that are due, all 64 are frozen
and the beat stands; where the array has nothing to inject and nothing to freeze, all 64 are gap cycles, and the level
falls with the length of the interval. No other core, no bank and no plane changes. (R177, R183, R185, R200,
04_matrix_array) -/
def Obligations.IdleTimeCountsOnce : Prop :=
  ∀ (s : State) (c : CoreRef) (feeder drain : Bool), c.die.val < s.dies →
    Does (.currentLevelStep c feeder drain) s fun t =>
      let k := s.coreAt c
      let k' := t.coreAt c
      t = s.modCore c (fun _ => k')
      ∧ k' = { k with ae := k'.ae, frozen := k'.frozen, cntFrz := k'.cntFrz, cntGap := k'.cntGap, cntRamp := k'.cntRamp,
                      cntLdw := k'.cntLdw, pos := k'.pos }
      ∧ k.cntFrz.toNat ≤ k'.cntFrz.toNat ∧ k.cntGap.toNat ≤ k'.cntGap.toNat ∧ k.cntRamp.toNat ≤ k'.cntRamp.toNat
      ∧ k'.cntFrz.toNat + k'.cntGap.toNat + k'.cntRamp.toNat
          ≤ k.cntFrz.toNat + k.cntGap.toNat + k.cntRamp.toNat + 64
      ∧ (drain = true → k.ae.beat < k.ae.lastEnd → k'.cntFrz = satAdd32 k.cntFrz 64 ∧ k'.frozen = true
          ∧ k'.cntGap = k.cntGap ∧ k'.cntRamp = k.cntRamp ∧ k'.ae.beat = k.ae.beat)
      ∧ (k.ae.waiting = none → k.ae.token = none → k.ae.injEnd ≤ k.ae.beat → k.ae.lastEnd ≤ k.ae.beat → k.frozen = false →
          k.ae.up = none → k'.cntGap = satAdd32 k.cntGap 64 ∧ k'.cntFrz = k.cntFrz ∧ k'.cntRamp = k.cntRamp
          ∧ k'.ae.level = min k.ae.level (levelAfter (k.ae.idle + 63)))
      ∧ (∀ b, k'.ae.plane b = k.ae.plane b) ∧ k'.ae.passes = k.ae.passes
      ∧ k'.ae.load = k.ae.load ∧ k.ae.beat ≤ k'.ae.beat ∧ (∀ d : CoreRef, s.coreKey d ≠ s.coreKey c → t.coreAt d = s.coreAt d)

/-- CHECKSUM_CHECK judges the oldest row that waits; with none waiting nothing changes. Where it passes, only that row
goes. Where it fails, ABFT_ERR is set, the log is taken unless one is held, and a report of class 1 with the core's locus
and the row's step joins the fault wires. BANK_HANDOVER with a hand-over due makes the bank the VE's or the AE's as it
says and ends it; with none due nothing changes. The other bank's owner, the entries of both banks and every other core
stay. (R190, R195, R196, R197, R761, 04_matrix_array, R216, R217, R218) -/
def Obligations.ChecksumVerdictsAndHandovers : Prop :=
  (∀ (s : State) (c : CoreRef) (obs : Option (BitVec 48)), c.die.val < s.dies → (s.coreAt c).ae.checks = [] →
    exec (.checksumCheck c obs) s = .next s)
  ∧ (∀ (s : State) (c : CoreRef) (q p : RowChk) (rest : List RowChk) (obs : Option (BitVec 48)),
    c.die.val < s.dies → (s.coreAt c).ae.checks = p :: rest →
    q = (match obs with
      | none => p
      | some v => if p.isInt then { p with obsI := v.toInt } else { p with obs := v }) →
    let ok := s.modCore c fun k => { k with ae := { k.ae with checks := rest } }
    ((checkFails q).1 = false → exec (.checksumCheck c obs) s = .next ok)
    ∧ ((checkFails q).1 = true → Does (.checksumCheck c obs) s fun t =>
        (t.coreAt c).ae.checks = rest ∧ (t.coreAt c).abftErr = true
        ∧ (t.coreAt c).abftLog = (if (s.coreAt c).abftErr then (s.coreAt c).abftLog else abftLogOf q (checkFails q).2)
        ∧ t.flt.wires = s.flt.wires ++ [mkReport 1 1 (coreLocus c.die.val (s.physOf c.die.val c.core.val)) q.step
            (t.coreAt c).abftLog]
        ∧ t = { s with core := t.core, flt := t.flt } ∧ t.flt = { s.flt with wires := t.flt.wires } ∧ OtherCores s t c))
  ∧ (∀ (s : State) (c : CoreRef) (b : Bool), c.die.val < s.dies →
    ((s.coreAt c).hand b = none → Does (.bankHandover c b) s fun t => t.coreAt c = s.coreAt c ∧ OtherCores s t c
      ∧ t = { s with core := t.core })
    ∧ (∀ ve, (s.coreAt c).hand b = some ve → Does (.bankHandover c b) s fun t =>
        (t.coreAt c).veOwns b = ve ∧ (t.coreAt c).hand b = none
        ∧ (t.coreAt c).veOwns (!b) = (s.coreAt c).veOwns (!b) ∧ (t.coreAt c).hand (!b) = (s.coreAt c).hand (!b)
        ∧ (∀ b, (t.coreAt c).bank b = (s.coreAt c).bank b) ∧ (t.coreAt c).ae = (s.coreAt c).ae
        ∧ OtherCores s t c ∧ t = { s with core := t.core }))

/-- Each op issues, and afterwards lane i of the destination register holds what its rule gives lane i from the
registers and the scratchpad as it met them (VLD: 0 past LEN; VRED: the result in lane 0 and 0 in the others), also
where the destination is a source; every other lane of every core, the scratchpads and everything else of the package
but the VE, what its detectors report and the parity of what it wrote stay. (R288, R291, R294, R296, R254, R721,
06_tensor_core_program) -/
def Obligations.VectorOpsWriteOneRegister : Prop :=
  ∀ (s : State) (c : CoreRef) (h : OpHdr) (o : HwObs) (n : BitVec 64) (v : State), v = s.strikes o →
    let done := fun (i j : Instr) (code : Nat) (vd : BitVec 6) (lane : Nat → BitVec 32) =>
      MayIssue s (engOf c .ve) j h n → ∃ (u : State) (fl : BitVec 4),
        exec i s = .next (u.issuedSeen v (engOf c .ve) j n o (s.engAt (engOf c .ve)) (veOp code h n fl))
        ∧ WritesRegister v u c vd lane
    (∀ f : VldF, done (.vld c h f o) (.vld c h f noObs) 0x20 f.vr fun i =>
      if i < vldLen f then BitVec.ofNat 32 (convElem 5#16 .rne (vldElem v c f i)).1 else 0#32)
    ∧ (∀ f : VopF, done (.vop c h f o) (.vop c h f noObs) 0x22 f.vd fun i =>
        (vopLane f.func.toNat (v.lane c f.va i) (if f.isel then f.imm else v.lane c f.vb i) (v.lane c f.vc i)).1)
    ∧ (∀ f : VtrF, done (.vtr c h f o) (.vtr c h f noObs) 0x23 f.vd fun i =>
        (vtrLane f.func.toNat (v.lane c f.va i)).1)
    ∧ (∀ f : VtrF, done (.vred c h f o) (.vred c h f noObs) 0x24 f.vd fun i =>
        if i = 0 then (vredLanes f.func.toNat (v.vregRead c f.va)).1 else 0#32)

/-- Each op issues with the stores its rule computes, and every scratchpad byte of every core outside the element rows
and scale bytes (SPILL: the partial elements) that its fields name reads as before. VST and PDRAIN change nothing else
but the VE's rounding base; DRAIN and SPILL also change this core: the region they read is zeroed where they clear it,
and the bank's hand-over to the AE falls due where RELEASE is 1. (R290, R217, R220, R221, R225, R297, R298, R299,
R300, R229, R721) -/
def Obligations.VectorStoresKeepOtherBytes : Prop :=
  ∀ (s : State) (c : CoreRef) (h : OpHdr) (o : HwObs) (n : BitVec 64) (v : State), v = s.strikes o →
    let r := s.engAt (engOf c .ve)
    let k := v.coreAt c
    (∀ f : VldF, MayIssue s (engOf c .ve) (.vst c h f noObs) h n → ∃ (u : State) (op : IssuedOp),
      exec (.vst c h f o) s = .next (u.issuedSeen v (engOf c .ve) (.vst c h f noObs) n o
        { r with srb := r.srb + BitVec.ofNat 64 (vldLen f) } op)
      ∧ u = { v with mem := { v.mem with spm := u.mem.spm, par := u.mem.par } }
      ∧ SpmKept v u c (inRows f.fmt f.line f.sbyte 1 (vldLen f)))
    ∧ (∀ f : DrainF, MayIssue s (engOf c .ve) (.drain c h f noObs) h n →
      (s.coreAt c).veOwns f.bank = true → (s.coreAt c).hand f.bank = none → ∃ (u : State) (op : IssuedOp),
      exec (.drain c h f o) s = .next (u.issuedSeen v (engOf c .ve) (.drain c h f noObs) n o
        { r with srb := r.srb + BitVec.ofNat 64 (f.nrows.toNat * regionW f.wide) } op)
      ∧ u = { v with mem := { v.mem with spm := u.mem.spm, par := u.mem.par }, core := u.core } ∧ OtherCores v u c
      ∧ SpmKept v u c (inRows f.fmt f.line f.sbyte f.nrows.toNat (regionW f.wide))
      ∧ RegionRead k (u.coreAt c) f.bank ((List.range f.nrows.toNat).flatMap (regionRow f.row0 f.col0 f.wide)) f.clear
          f.release)
    ∧ (∀ f : SpillF, MayIssue s (engOf c .ve) (.spill c h f noObs) h n →
      (s.coreAt c).veOwns f.bank = true → (s.coreAt c).hand f.bank = none → ∃ (u : State) (op : IssuedOp),
      exec (.spill c h f o) s = .next (u.issuedSeen v (engOf c .ve) (.spill c h f noObs) n o r op)
      ∧ u = { v with mem := { v.mem with spm := u.mem.spm, par := u.mem.par }, core := u.core } ∧ OtherCores v u c
      ∧ SpmKept v u c (fun a => 64 * f.pline.toNat ≤ a
          ∧ a < 64 * f.pline.toNat + 8 * (f.nrows.toNat * regionW f.wide))
      ∧ RegionRead { k with partInt := (u.coreAt c).partInt } (u.coreAt c) f.bank
          ((List.range f.nrows.toNat).flatMap (regionRow f.row0 f.col0 f.wide)) true f.release)
    ∧ (∀ f : PdrainF, MayIssue s (engOf c .ve) (.pdrain c h f noObs) h n → ∃ (u : State) (op : IssuedOp),
      exec (.pdrain c h f o) s = .next (u.issuedSeen v (engOf c .ve) (.pdrain c h f noObs) n o
        { r with srb := r.srb + BitVec.ofNat 64 (f.nrows.toNat * regionW f.wide) } op)
      ∧ u = { v with mem := { v.mem with spm := u.mem.spm, par := u.mem.par } }
      ∧ SpmKept v u c (inRows f.fmt f.line f.sbyte f.nrows.toNat (regionW f.wide)))

/-- ME_DESC, with fewer than 32 descriptors outstanding, puts the entry of its core's table that DIDX names into a slot
that was free, raises SRB by the descriptor's element count and issues; every other slot stays. With 32 outstanding it
waits: the stall bit, under which ME_CNT_STALL counts, is set, nothing else. A place that becomes free reaches an
ME_DESC that stalls, and none other. (R301, R302, R366, R398, R395, 08_data_movement) -/
def Obligations.MeDescBecomesOutstanding : Prop :=
  ∀ (s : State) (c : CoreRef) (h : OpHdr) (didx : BitVec 24) (n : BitVec 64) (d : BitVec 512),
    MayIssue s (engOf c .me) (.meDesc c h didx) h n → s.descAt c didx.toNat = some d →
    ((s.coreAt c).outstanding < 32 → ∃ (u : State) (i : Nat), i < 32 ∧ (s.coreAt c).slot i = none
      ∧ exec (.meDesc c h didx) s = .next (u.setEng (engOf c .me)
          (({ s.engAt (engOf c .me) with
              srb := (s.engAt (engOf c .me)).srb + BitVec.ofNat 64 (descOf d).count } : EngSt).push 1
            { issuedOp 0x30 h n with done := false, slot := some i }))
      ∧ (u.coreAt c).slot i = some { didx := didx.toNat, desc := d, srb := (s.engAt (engOf c .me)).srb, step := n,
                                     fslot := h.fslot }
      ∧ (∀ j, j ≠ i → (u.coreAt c).slot j = (s.coreAt c).slot j)
      ∧ u.coreAt c = { s.coreAt c with meStallNow := false, meDescs := (u.coreAt c).meDescs }
      ∧ OtherCores s u c ∧ u = { s with core := u.core })
    ∧ (32 ≤ (s.coreAt c).outstanding →
        exec (.meDesc c h didx) s = .next (s.modCore c fun k => { k with meStallNow := true }))
    ∧ exec (.boundedResourceRelease (.meDescriptor c)) s
        = if (s.coreAt c).meStallNow then exec (.meDesc c h didx) s else .next s

/-- COPY, GATHER, XP_ENC and XP_DEC on a slot that holds a descriptor of their kind, with the stacks it touches in
service and taking requests: afterwards the slot is free and its op waits for OP_COMPLETE with the flags at its flag
slot; other slots, and all but the stores and what the reads count and report, stay. A GATHER with an index out of range
sets its status bit; an XP_DEC of a malformed stream sets its status bit and gives the NaN flag. (R360, R363, R370,
R373, R374, R379, R140, R395, 08_data_movement) -/
def Obligations.MoveDescriptorsRun : Prop :=
  ∀ (s : State) (c : CoreRef) (i : Fin 32) (m : MeDescSt) (o : HwObs), c.die.val < s.dies →
    (s.coreAt c).slot i.val = some m → s.pmc.dieOff.contains c.die.val = false → descUp s m.desc = true →
    let v := s.metBy c o
    ((descOf m.desc).kind = 1 → Does (.copy c i o) s (DescRan s c i.val m (fun _ _ => True)))
    ∧ ((descOf m.desc).kind = 2 → Does (.gather c i o) s
        (DescRan s c i.val m fun k _ => k.idxOor = ((s.coreAt c).idxOor || (runGather v c m).2.2)))
    ∧ ((descOf m.desc).kind = 3 → Does (.xpEnc c i o) s (DescRan s c i.val m fun _ f => f = 0))
    ∧ ((descOf m.desc).kind = 4 → Does (.xpDec c i o) s
        (DescRan s c i.val m fun k f => k.codecErr = ((s.coreAt c).codecErr || (runXpDec v c m).2)
          ∧ f = if (runXpDec v c m).2 then nanSeen else 0#4))

/-- For scopes core, die and package on a unit the part has: the crossing of the step's bank gains N where the sum
fits 16 bits; otherwise it holds 65,535, its holder sets OVF and a report of class 6 with the step of the op joins the
wires. No other crossing changes. For SCOPE 3 the record leaves or is judged when its first link has room, and the op
waits when it has none. (R402, R404, R407, R304, R415, 09_synchronisation_and_time) -/
def Obligations.ArriveCountsAndSaturates : Prop :=
  ∀ (s : State) (c : CoreRef) (h : OpHdr) (f : ArriveF) (n : BitVec 64),
    MayIssue s (engOf c .sync) (.xArrive c h f) h n →
    let k := xKey f.scope.toNat f.die.toNat f.core.toNat f.index.toNat (bankOf n)
    let goes := fun (u : State) => exec (.xArrive c h f) s
      = .next (u.setEng (engOf c .sync) ((s.engAt (engOf c .sync)).push 1 (issuedOp 0x40 h n)))
    (f.scope ≠ 3 → (f.scope.toNat ≤ 1 → f.die.toNat < s.dies) → ∃ u : State, goes u
      ∧ (tget 0#16 u.sync.xcnt k).toNat = min 65535 ((tget 0#16 s.sync.xcnt k).toNat + f.n.toNat)
      ∧ (∀ j, j ≠ k → tget 0#16 u.sync.xcnt j = tget 0#16 s.sync.xcnt j)
      ∧ ((tget 0#16 s.sync.xcnt k).toNat + f.n.toNat ≤ 65535 →
          u = { s with sync := { s.sync with xcnt := u.sync.xcnt } })
      ∧ (65535 < (tget 0#16 s.sync.xcnt k).toNat + f.n.toNat →
          (u.xsAt (if f.scope.toNat ≤ 1 then f.die.toNat else 4)).ovf = true
          ∧ u.flt.wires = s.flt.wires ++ [mkReport 6 8 (xLocus f.scope.toNat f.die.toNat f.core.toNat f.index.toNat) n 0]
          ∧ u = { s with sync := { s.sync with xcnt := u.sync.xcnt, xs := u.sync.xs },
                         flt := { s.flt with wires := u.flt.wires } }))
    ∧ (f.scope = 3 →
        (s.recRoom ⟨f.x.toNat, f.y.toNat, f.z.toNat⟩ = true → goes (s.sendRec f n))
        ∧ (s.recRoom ⟨f.x.toNat, f.y.toNat, f.z.toNat⟩ = false → exec (.xArrive c h f) s = .next s))

/-- X_WAIT issues, and is done, where the crossing has reached TARGET, and otherwise makes its engine wait for that
crossing without having issued; X_ATTIME issues and is done once the STB has reached its time; X_RESET makes the crossing
of the step's bank read 0 and changes no other crossing. Nothing but the engine changes otherwise. WAITER_WAKE on an
engine whose waited crossing has reached the target wakes it; STB_TIME_REACHED ends an X_ATTIME whose time has come.
Before that, and where the engine does not wait, neither changes anything, and neither changes anything but the engine.
(R304, R402, R404, R421, R276, R410) -/
def Obligations.CrossingWaitsAndWakes : Prop :=
  (∀ (s : State) (c : CoreRef) (h : OpHdr) (n : BitVec 64),
    let e := engOf c .sync
    let r := s.engAt e
    (∀ sc ix tg, MayIssue s e (.xWait c h sc ix tg) h n →
      (tg.toNat ≤ (s.xVal sc.toNat c.die.val c.core.val ix.toNat n).toNat →
        exec (.xWait c h sc ix tg) s = .next (s.setEng e (r.push 1 (issuedOp 0x41 h n))))
      ∧ ((s.xVal sc.toNat c.die.val c.core.val ix.toNat n).toNat < tg.toNat →
        (∀ w, r.wait = some w → w.kind ≠ .xwait) →
        exec (.xWait c h sc ix tg) s = .next (s.setEng e { r with wait := some (xWait c n sc ix tg) })))
    ∧ (∀ t, MayIssue s e (.xAttime c h t) h n →
      (t.toNat ≤ s.stbTicks →
        exec (.xAttime c h t) s = .next (s.setEng e (({ r with wait := none } : EngSt).push 1 (issuedOp 0x43 h n))))
      ∧ (s.stbTicks < t.toNat → exec (.xAttime c h t) s = .next (s.setEng e
          (({ r with wait := some (timeWait c n t) } : EngSt).push 1 { issuedOp 0x43 h n with done := false }))))
    ∧ (∀ sc ix, MayIssue s e (.xReset c h sc ix) h n → ∃ u : State,
        exec (.xReset c h sc ix) s = .next (u.setEng e (r.push 1 (issuedOp 0x42 h n)))
        ∧ u.xVal sc.toNat c.die.val c.core.val ix.toNat n = 0
        ∧ (∀ j, j ≠ xKey sc.toNat c.die.val c.core.val ix.toNat (bankOf n) →
            tget 0#16 u.sync.xcnt j = tget 0#16 s.sync.xcnt j)
        ∧ u = { s with sync := { s.sync with xcnt := u.sync.xcnt } }))
  ∧ (∀ (s : State) (e : EngRef) (w : WaitSt), (s.engRaw e).wait = some w →
    ((w.kind = .attime ∨ s.waitMet w = false) → exec (.waiterWake e) s = .next s)
    ∧ (w.kind ≠ .attime → s.waitMet w = true →
        exec (.waiterWake e) s = .next (s.setEng e { s.engRaw e with wait := some { w with ok := true } }))
    ∧ (∀ c, e = engOf c .sync →
        (w.kind = .attime → s.reached w.stb = true →
          exec (.stbTimeReached c) s = .next (s.setEng e (s.engRaw e).timeDone))
        ∧ (w.kind = .attime → s.reached w.stb = false → exec (.stbTimeReached c) s = .next s)))
  ∧ (∀ (s : State) (e : EngRef), (s.engRaw e).wait = none → exec (.waiterWake e) s = .next s)

/-- Where the oldest issued op of an engine has its effect and no hand-over of it is due: it leaves the issued ops and
its flag words are ORed into their slots. Where it belongs to the engine's step, with AEN, its crossing gains 1 unless
the op has arrived before; a CX_GNORM is then noted for its die. The arrival of an op of another step is discarded. An op
whose effect is not finished stays. (R140, R277, R278, R273, R407, 06_tensor_core_program) -/
def Obligations.OpsCompleteInOrder : Prop :=
  ∀ (s : State) (e : EngRef) (op : IssuedOp) (rest : List IssuedOp), (s.engRaw e).issued = op :: rest →
    let r := s.engRaw e
    let idx := r.opIdx - r.issued.length
    let flagged := fun (u : State) =>
      (∀ b, (tget 0#4 s.sync.tflag b) ||| (tget 0#4 u.sync.tflag b) = tget 0#4 u.sync.tflag b)
      ∧ (∀ f ∈ op.flags, f.2 ||| tget 0#4 u.sync.tflag (flagKey e.die.val op.step f.1)
          = tget 0#4 u.sync.tflag (flagKey e.die.val op.step f.1))
    ((op.done = false ∨ s.handDue e op = true) → exec (.opComplete e) s = .next s)
    ∧ (op.done = true → s.handDue e op = false → r.step ≠ some op.step → ∃ u : State,
        exec (.opComplete e) s = .next u ∧ (u.engRaw e).issued = rest ∧ (u.engRaw e).arrived = r.arrived ∧ flagged u
        ∧ u = { s with eng := u.eng, cx := u.cx, sync := { s.sync with tflag := u.sync.tflag } })
    ∧ (op.done = true → s.handDue e op = false → r.step = some op.step → ∃ u : State,
        exec (.opComplete e) s = .next u.settleNow ∧ (u.engRaw e).issued = rest ∧ idx < (u.engRaw e).arrived ∧ flagged u
        ∧ (op.hdr.aen = false ∨ idx < r.arrived → u.sync.xcnt = s.sync.xcnt)
        ∧ (op.hdr.aen = true → r.arrived ≤ idx →
            (u.xVal (hdrScope e) e.die.val e.core.val op.hdr.axc.toNat op.step).toNat
              = min 65535 ((s.xVal (hdrScope e) e.die.val e.core.val op.hdr.axc.toNat op.step).toNat + 1))
        ∧ u.ctx = (if op.code = 0x61#8 then
            (s.modStep op.step fun t => { t with gnDone := insNat e.die.val t.gnDone }).ctx else s.ctx)
        ∧ u = { s with ctx := u.ctx, eng := u.eng, cx := u.cx, sync := u.sync, flt := u.flt })

/-- WATCHDOG_EXPIRE on a wait whose watchdog has run out and whose crossing has not reached its target sets HANG,
takes the log unless one is held, and puts a report of class 6 tagged with every uncommitted step on the wires; the
timer starts again (the model's choice). COLLECTIVE_TIMEOUT does the same for an op slot with class 7. (R421, R423,
R424, R425, R455, R574, 09_synchronisation_and_time, 11_collectives) -/
def Obligations.WatchdogsAndTimersReport : Prop :=
  ∀ (s : State) (cfg : JobCfg), s.cur.bind (fun c => c.2.cfg) = some cfg →
    (∀ (e : EngRef) (w : WaitSt), e.die.val < s.dies → (s.engRaw e).wait = some w → w.kind ≠ .attime → w.ok = false →
      s.waitMet w = false → cfg.sync.expired w = true →
      let log := hangLog e w (tget 0#16 s.sync.xcnt (xKey w.scope w.die w.core w.index w.bank))
      Does (.watchdogExpire e) s fun t =>
        (t.xsAt e.die.val).hang = true ∧ (w.scope = 2 → (t.xsAt 4).hang = true)
        ∧ (t.xsAt e.die.val).log = (if (s.xsAt e.die.val).log.getLsbD 53 then (s.xsAt e.die.val).log else log)
        ∧ (w.scope = 2 → (t.xsAt 4).log = if (s.xsAt 4).log.getLsbD 53 then (s.xsAt 4).log else log)
        ∧ t.flt.wires = s.flt.wires ++ [mkReportAll 6 8 (xLocus w.scope w.die w.core w.index) 0]
        ∧ (t.engRaw e).wait = some { w with ticks := 0, total := 0 }
        ∧ t = { s with sync := { s.sync with xs := t.sync.xs }, eng := t.eng, flt := { s.flt with wires := t.flt.wires } })
    ∧ (∀ (die slot : Fin 4) (k : CxSlot), die.val < s.dies → s.cxSlot die.val slot.val = some k → k.done = false →
      (cfg.cto ≤ k.ticks ∨ 4 * cfg.cto ≤ k.total) →
      Does (.collectiveTimeout die slot) s fun t =>
        (t.cxAt die.val).timeout = true
        ∧ (t.cxAt die.val).toLog = (if (s.cxAt die.val).toLog.getLsbD 63 then (s.cxAt die.val).toLog else toLogOf k)
        ∧ t.flt.wires = s.flt.wires ++ [mkReportAll 7 2 (unitLocus die.val 1) 0]
        ∧ t.cxSlot die.val slot.val = some { k with ticks := 0, total := 0 }
        ∧ t = { s with cx := t.cx, flt := { s.flt with wires := t.flt.wires } })

/-- UE_RUN on an idle UE at the oldest uncommitted step, with its descriptor's stack in service, issues and raises SRB by
COUNT. CX_RUN with a free op slot and its descriptor's stack in service takes the lowest free slot with its descriptor
and raises SRB by COUNT. CX_GNORM takes a slot once every earlier CX op has completed. Each advances its engine's op
number by one; the contexts stay. (R584, R525, R527, R559, R551, 11_collectives, 12_optimizer_and_update) -/
def Obligations.UpdateAndCollectiveOpsIssue : Prop :=
  ∀ (s : State) (die : Fin 4) (h : OpHdr) (n : BitVec 64),
    (∀ (a : BitVec 48) (o : HwObs), MayIssue s (dieEngOf die .ue) (.ueRun die h a noObs) h n → ueMay s die.val n = true →
      s.rangeUp a.toNat 64 = true →
      Does (.ueRun die h a o) s fun t =>
        (t.engRaw (dieEngOf die .ue)).opIdx = (s.engAt (dieEngOf die .ue)).opIdx + 1
        ∧ (t.engRaw (dieEngOf die .ue)).srb
            = (s.engAt (dieEngOf die .ue)).srb + BitVec.ofNat 64 (s.updAt a).count
        ∧ (t.engRaw (dieEngOf die .ue)).issued.length = (s.engAt (dieEngOf die .ue)).issued.length + 1
        ∧ t = { s with mem := t.mem, eng := t.eng, core := t.core, ue := t.ue, stack := t.stack, flt := t.flt,
                       sec := t.sec })
    ∧ (∀ (a : BitVec 48) (i : Nat), MayIssue s (dieEngOf die .cx) (.cxRun die h a) h n → s.freeCx die.val = some i →
      s.rangeUp a.toNat 64 = true →
      let bs := (s.physRead (.engine (dieEngOf die .cx)) (some n) a.toNat 64).2
      Does (.cxRun die h a) s fun t =>
        (t.engRaw (dieEngOf die .cx)).opIdx = (s.engAt (dieEngOf die .cx)).opIdx + 1
        ∧ (t.engRaw (dieEngOf die .cx)).srb
            = (s.engAt (dieEngOf die .cx)).srb + BitVec.ofNat 64 (collDesc bs).count
        ∧ (∃ k, t.cxSlot die.val i = some k ∧ k.step = n ∧ k.done = false ∧ k.gnorm = false ∧ k.hop = 0
            ∧ k.desc = BitVec.ofNat 512 (leNat bs) ∧ k.opSeq = (s.engAt (dieEngOf die .cx)).opIdx)
        ∧ (∀ j, j ≠ i → t.cxSlot die.val j = s.cxSlot die.val j)
        ∧ t = { s with mem := t.mem, eng := t.eng, core := t.core, cx := t.cx, stack := t.stack, flt := t.flt,
                       sec := t.sec })
    ∧ (∀ (g : BitVec 6) (rs : List (BitVec 48)) (i : Nat), MayIssue s (dieEngOf die .cx) (.cxGnorm die h g []) h n →
      s.gnormSlot die.val = none → (s.engAt (dieEngOf die .cx)).issued = [] → s.freeCx die.val = some i →
      Does (.cxGnorm die h g rs) s fun t =>
        (t.engRaw (dieEngOf die .cx)).opIdx = (s.engAt (dieEngOf die .cx)).opIdx + 1
        ∧ (∃ k, t.cxSlot die.val i = some k ∧ k.gnorm = true ∧ k.step = n ∧ k.group = g.toNat)
        ∧ t = { s with eng := t.eng, cx := t.cx })

/-- ALL_REDUCE, REDUCE_SCATTER, ALL_GATHER, BROADCAST, PERMUTE, A2A_DISPATCH and A2A_COMBINE on an op slot of their
kind that is not done, whose journal is free and whose stacks serve: the slot still holds that op, and all but the
stores, the UEs' journals, the CXs, the links, and what the reads count and report stays. With every member of the group
known to have issued it, by what its slot notes or, on another package, over the links, the BARRIER of a slot is done
afterwards; while a member of the group is missing
from what is known of every die's slots, it is not. (R527, R547, R553, R562, R568, R350, 11_collectives) -/
def Obligations.CollectivesRun : Prop :=
  (∀ (s : State) (die slot : Fin 4) (o : HwObs) (c : Coll), die.val < s.dies → s.coll die.val slot.val = some c →
    c.k.gnorm = false → c.k.done = false → s.journalFree c = true → s.collUp c = true →
    let runs := fun (i : Instr) => Does i s fun t =>
      (∃ k, t.cxSlot die.val slot.val = some k ∧ k.desc = c.k.desc ∧ k.step = c.k.step ∧ k.opSeq = c.k.opSeq)
      ∧ t = { s with mem := t.mem, eng := t.eng, core := t.core, ue := t.ue, cx := t.cx, net := t.net, stack := t.stack,
                     flt := t.flt, sec := t.sec }
    (c.d.kind = 1 → runs (.allReduce die slot o)) ∧ (c.d.kind = 2 → runs (.reduceScatter die slot o))
    ∧ (c.d.kind = 3 → runs (.allGather die slot o)) ∧ (c.d.kind = 4 → runs (.broadcast die slot o))
    ∧ (c.d.kind = 6 → ∀ remote, runs (.permute die slot remote o)) ∧ (c.d.kind = 7 → runs (.a2aDispatch die slot o))
    ∧ (c.d.kind = 8 → runs (.a2aCombine die slot o)))
  ∧ (∀ (s : State) (die slot : Fin 4) (issued : List Nat) (c : Coll), die.val < s.dies → s.coll die.val slot.val = some c →
    c.k.gnorm = false → c.k.done = false → c.d.kind = 5 →
    ((∀ r, r < c.g.p → r = c.me ∨ (r ∈ issued ∧ c.g.vecOf r ≠ c.topo.self) ∨ r ∈ c.k.seenRanks) →
      Does (.barrier die slot issued) s fun t => ∃ k, t.cxSlot die.val slot.val = some k ∧ k.done = true
        ∧ t = { s with cx := t.cx, eng := t.eng })
    ∧ (∀ r, r < c.g.p → r ≠ c.me → (r ∈ issued → c.g.vecOf r = c.topo.self) → r ∉ c.k.seenRanks →
        (∀ d i e, s.coll d i = some e → e.d.kind = 5 → e.d.group = c.d.group → e.me ≠ r) →
      Does (.barrier die slot issued) s fun t => ∃ k, t.cxSlot die.val slot.val = some k ∧ k.done = false))

/-- PORT_PRIORITY_AGING for a port that its place has grants a port: one that requests and has priority 0, and no
lower-numbered such port waits; the granted port's age is over, the other aged ports keep theirs, and nothing else
changes. BOUNDED_RESOURCE_RELEASE of a Market buffer makes a CREDIT record of its allotment due with the count that
stands granted, and frees nothing. MARKET_PARTITION_SWAP does nothing where no partition waits or a LINK or STAGE buffer
is in use; otherwise the waiting partition is in force and none waits, and what the partners have granted stays. (R257,
R258, R263, R390, R391, R393, R395, R477, 08_data_movement) -/
def Obligations.PortsAndMarketBuffers : Prop :=
  (∀ (s : State) (site : PortSite) (p : Fin 6) (rs : List (Fin 6)), siteDie site < s.dies →
    (sitePorts site ≤ p.val → exec (.portPriorityAging site p rs) s = .next s)
    ∧ (p.val < sitePorts site →
      Does (.portPriorityAging site p rs) s fun t => ∃ q, t.ports.granted = some (siteKey site, q) ∧ q ≤ p.val
        ∧ (q = p.val ∨ ∃ x ∈ rs, x.val = q) ∧ (q = p.val ∨ (siteKey site, q) ∈ s.ports.aged)
        ∧ (siteKey site, q) ∉ t.ports.aged
        ∧ (∀ e, e ≠ (siteKey site, q) → (e ∈ t.ports.aged ↔ e ∈ s.ports.aged ∨ e = (siteKey site, p.val)))
        ∧ (∀ x ∈ rs, x.val < q → (siteKey site, x.val) ∉ s.ports.aged)
        ∧ t = { s with ports := t.ports }))
  ∧ (∀ (s : State) (io : Fin 2), io.val < s.ios →
    (∀ (j : Fin 12) (vc : Fin 6) (cls : BitVec 4) (a : Alloc),
      let m := 12 * io.val + j.val
      (s.mktAt io.val).allotFor j.val vc.val cls.toNat = some a →
        let g := tget 0 (s.memberAt m).granted (credKey vc.val a.cls) % 2 ^ 32
        Does (.boundedResourceRelease (.marketBuffer io j vc cls)) s fun t =>
          (t.memberAt m).ctrl.getLast? = some (BitVec.ofNat 128 (3 + 2 ^ 8 * vc.val + 2 ^ 16 * a.cls + 2 ^ 32 * g))
          ∧ tget 0 (t.memberAt m).granted (credKey vc.val a.cls) = g
          ∧ t.memberAt m = { s.memberAt m with granted := (t.memberAt m).granted, ctrl := (t.memberAt m).ctrl }
          ∧ (∀ k, k ≠ m → t.memberAt k = s.memberAt k)
          ∧ t = { s with net := { s.net with member := t.net.member } })
    ∧ ((s.mktAt io.val).pendCfg = none → exec (.marketPartitionSwap io) s = .next s)
    ∧ (∀ b, b ∈ (s.mktAt io.val).busy → 1344 ≤ b → exec (.marketPartitionSwap io) s = .next s)
    ∧ (∀ es, (s.mktAt io.val).pendCfg = some es → (∀ b ∈ (s.mktAt io.val).busy, b < 1344) →
      Does (.marketPartitionSwap io) s fun t => t.mktAt io.val = (s.mktAt io.val).activate io.val es
        ∧ (t.mktAt io.val).pendCfg = none ∧ (∀ k, k ≠ io.val → t.mktAt k = s.mktAt k)
        ∧ (∀ k, t.memberAt k = { s.memberAt k with granted := (t.memberAt k).granted, ctrl := (t.memberAt k).ctrl })
        ∧ t = { s with net := { s.net with mkt := t.net.mkt, member := t.net.member } }))

/-- A request that finds no slot, or whose engine has one before it at the port, waits at the port; a prefetch request,
and any request to a stack that is shut down, waits in its slot; a demand request takes effect, after those of its engine
that wait where one of them touches its lines. With every stored line whole a write stores exactly its bytes and changes
no other byte, and a read gives the bytes stored. A request that leaves its granule, HBM or its context's region touches
no store and sets the region-violation bit. (R315, R317, R318, R336, R350, R381, R395, R826, 07_memory_system) -/
def Obligations.HbmRequestServedOrRefused : Prop :=
  ∀ (s : State) (r : HbmReq),
    let a := r.addr.toNat
    let k := (s.stackOf a).1
    let q : QueuedReq := { req := r, pf := s.isPrefetch r }
    let ok := reqInGranule r = true ∧ s.place a = .hbm ∧ s.allowed r.issuer a r.len = true
    let mine := (s.stackAt k).queue.filter fun x => x.req.issuer == r.issuer
    (¬ ok → Does (.hbmRequest r) s fun t => t.mem = s.mem ∧ t.sec = { s.sec with regionViol := true }
        ∧ t = { s with sec := t.sec, flt := { s.flt with wires := t.flt.wires } })
    ∧ (ok → ((s.stackAt k).full q.pf = true ∨ ∃ x ∈ (s.stackAt k).ports, x.req.issuer = r.issuer) →
        exec (.hbmRequest r) s = .next (s.modStack k fun t => { t with ports := t.ports ++ [q] }))
    ∧ (ok → (s.stackAt k).full q.pf = false → (∀ x ∈ (s.stackAt k).ports, x.req.issuer ≠ r.issuer) →
      ((s.serves k = false ∨ q.pf = true) →
        exec (.hbmRequest r) s = .next (s.modStack k fun t => { t with queue := t.queue ++ [q] }))
      ∧ (s.serves k = true → q.pf = false → (∃ x ∈ mine, sharesLine x.req r = true) →
        exec (.hbmRequest r) s = .next (((s.modStack k fun t =>
          { t with queue := t.queue.filter fun x => !(x.req.issuer == r.issuer) }).perform k mine).doReq k r))
      ∧ (s.serves k = true → q.pf = false → (∀ x ∈ mine, sharesLine x.req r = false) → s.mem.ecc = [] → r.err = [] →
          (∀ w, r.write = some w → Does (.hbmRequest r) s fun t =>
            rdBytes t.mem.hbm a w.length = w ∧ (∀ b, b < a ∨ a + w.length ≤ b → tget 0 t.mem.hbm b = tget 0 s.mem.hbm b)
            ∧ t = { s with mem := { s.mem with hbm := t.mem.hbm, errLane := t.mem.errLane } })
          ∧ (r.write = none → exec (.hbmRequest r) s = .next (s.modStack k fun t =>
            { t with readData := rdBytes s.mem.hbm a r.len }))))

/-- PREFETCH_AGING and the release of a request slot serve the oldest request that waits at a stack that serves, and
then those at the ports; where none waits, or the stack is shut down, nothing happens. SCRUB_CHUNK before its tick does
nothing; after it, with requests waiting, it makes the chunk due; with none waiting and every stored line whole it moves on
to the next chunk, due one interval later, as SCRUB_YIELD_EXPIRE does for a chunk that is due. A sample stores its pair's
controlling reading, leaves the band, and makes a rise due exactly where its band lies above the band in force.
STACK_BAND_CHANGE with a rise due puts the band in force; entering shutdown performs the requests in the slots first and
puts a report of class 8 on the wires. (R382, R337, R338, R340, R395, 07_memory_system, R346, R347, R348, R350, R356,
R745) -/
def Obligations.StackMaintenance : Prop :=
  (∀ (s : State) (k : Fin 16), k.val < s.stacks →
    exec (.boundedResourceRelease (.stackRequest k)) s = exec (.prefetchAging k) s
    ∧ (((s.stackAt k.val).queue = [] ∨ s.serves k.val = false) → exec (.prefetchAging k) s = .next s)
    ∧ (∀ q rest, (s.stackAt k.val).queue = q :: rest → s.serves k.val = true →
        exec (.prefetchAging k) s
          = .next (((s.modStack k.val fun t => { t with queue := rest }).doReq k.val q.req).refill k.val))
    ∧ (∀ es, (s.serves k.val = false ∨ s.stb.ticks < (s.stackAt k.val).scrubNext) →
        exec (.scrubChunk k es) s = .next s)
    ∧ (∀ es, s.serves k.val = true → (s.stackAt k.val).scrubNext ≤ s.stb.ticks → (s.stackAt k.val).queue ≠ [] →
        exec (.scrubChunk k es) s = .next (s.modStack k.val fun t => { t with scrubDue := true }))
    ∧ (∀ es, (s.serves k.val = false ∨ (s.stackAt k.val).scrubDue = false) → exec (.scrubYieldExpire k es) s = .next s)
    ∧ (s.serves k.val = true → s.mem.ecc = [] →
        let moved := s.modStack k.val fun t =>
          { t with chunk := t.chunk + 1, scrubDue := false,
                   scrubNext := max (t.scrubNext + s.scrubInterval k.val) s.stb.ticks,
                   passes := if t.chunk = BitVec.allOnes 25 then t.passes + 1 else t.passes }
        ((s.stackAt k.val).scrubNext ≤ s.stb.ticks → (s.stackAt k.val).queue = [] →
          exec (.scrubChunk k []) s = .next moved)
        ∧ ((s.stackAt k.val).scrubDue = true → exec (.scrubYieldExpire k []) s = .next moved)))
  ∧ (∀ (s : State) (k : Fin 16), k.val < s.stacks →
    (∀ p : PairReading, Does (.stackTempSample k p) s fun t =>
      (t.stackAt k.val).temp = ctrlReading p ∧ (t.stackAt k.val).band = (s.stackAt k.val).band
      ∧ t.pairAt (53 + k.val) = p
      ∧ ((s.stackAt k.val).due = none → ((t.stackAt k.val).due.isSome ↔
          (s.stackAt k.val).band.rank < (bandOf (ctrlReading p)).rank))
      ∧ t = { s with stack := t.stack, pmc := t.pmc, flt := t.flt })
    ∧ (∀ b since, (s.stackAt k.val).due = some (b, since) → Does (.stackBandChange k) s fun t =>
      (t.stackAt k.val).band = b ∧ (t.stackAt k.val).due = none
      ∧ (b = .shutdown → ((s.stackAt k.val).ports = [] → (t.stackAt k.val).queue = [] ∧ t.mem = (s.drainReqs k.val).mem)
          ∧ (mkReportAll 8 3 (BitVec.ofNat 32 (k.val + 16 * 0xFFF)) 0) ∈ t.flt.wires))
    ∧ (∀ c, (s.stackAt k.val).due = none → (s.stackAt k.val).coolSince = some c → c + 1000000 ≤ s.stb.ticks →
      Does (.stackBandChange k) s fun t => (t.stackAt k.val).band = (s.stackAt k.val).band.fall.2)
    ∧ ((s.stackAt k.val).due = none → (s.stackAt k.val).coolSince = none → exec (.stackBandChange k) s = .next s))

/-- Where the context may run, its region is served, and step n is the one to enter with no op of an earlier run of it
left: afterwards the context holds step n in RUNNING, starting from the final state of the step before it, with no anchor
and no check closed; the crossings of its bank read 0 and those of the other bank stay; a step that is not a replay
advances the next step number; the banks are the AEs' where no other step runs or the step is a replay; the other contexts
stay. Otherwise nothing changes. (R51, R52, R67, R142, R214, R273, R350, R405, R440, 02_step_and_commit) -/
def Obligations.StepEntersRunning : Prop :=
  ∀ (s : State) (c : Fin 4) (n : BitVec 64) (cfg : JobCfg), (s.ctxAt c.val).entrant = some n → (s.ctxAt c.val).cfg = some cfg →
    let x := s.ctxAt c.val
    ((s.mayRun c.val x = false ∨ s.opsGone n = false ∨ s.regionServed x = false) →
      exec (.stepEnterRunning c) s = .next s)
    ∧ (s.mayRun c.val x = true → s.opsGone n = true → s.regionServed x = true → Does (.stepEnterRunning c) s fun t =>
        (∃ u, (t.ctxAt c.val).stepAt n = some u ∧ u.st = .running ∧ u.start = x.before n ∧ u.anchor = none
          ∧ u.checkDone = [] ∧ u.outcome = none ∧ u.entered = s.stbTicks)
        ∧ (∀ k, tget 0#16 t.sync.xcnt k = if k % 2 = b2n (bankOf n) then 0#16 else tget 0#16 s.sync.xcnt k)
        ∧ (x.stepAt n = none → (t.ctxAt c.val).next = some (n + 1))
        ∧ (x.stepAt n = none → x.steps ≠ [] → t.core = s.core)
        ∧ ((x.stepAt n ≠ none ∨ x.steps = []) → ∀ c b, (t.coreAt c).veOwns b = false ∧ (t.coreAt c).hand b = none)
        ∧ (x.stepAt n ≠ none → (t.ctxAt c.val).next = x.next)
        ∧ OtherContexts s t c.val ∧ t.resident = s.resident)

/-- With CX_GNORM complete on every die for a RUNNING step: with an image that updates, the step has the outcome and the
clip factor that resolving G gives; normal goes to RESOLVING, clipped and skipped to RESTORING with a restore due; with
one that updates nothing the outcome is empty and the step goes to RESOLVING. No UE runs ahead any more. Before that
nothing changes. (R56, R599, R600, R612, R613, 12_optimizer_and_update) -/
def Obligations.NormDecidesTheStep : Prop :=
  ∀ (s : State) (c : Fin 4),
    ((s.ctxAt c.val).steps.find? (fun t => t.st == .running && (List.range s.dies).all t.gnDone.contains) = none →
      exec (.globalNormArrive c) s = .next s)
    ∧ (∀ (t : StepSt) (im : Img) (cfg : JobCfg),
      (s.ctxAt c.val).steps.find? (fun t => t.st == .running && (List.range s.dies).all t.gnDone.contains) = some t →
      (s.ctxAt c.val).img = some im → (s.ctxAt c.val).cfg = some cfg →
      let g := if bankOf t.no then (s.cxAt 0).gnorm1 else (s.cxAt 0).gnorm0
      let o := resolveNorm g t.start.lsExp cfg.opt.tau
      ∃ v : State, exec (.globalNormArrive c) s = .next (v.settle c.val)
        ∧ (∃ u, (v.ctxAt c.val).stepAt t.no = some u ∧ u.g = g
          ∧ (im.updatesAny s.dies = true → u.outcome = some o.1 ∧ u.clip = o.2)
          ∧ (im.updatesAny s.dies = false → u.outcome = some .empty ∧ u.clip = 0x3F800000#32)
          ∧ ((u.st = .resolving ∧ u.restoring = false ∧ (u.outcome = some .normal ∨ u.outcome = some .empty))
            ∨ (u.st = .restoring ∧ u.restoring = true ∧ (u.outcome = some .clipped ∨ u.outcome = some .skipped))))
        ∧ (∀ d, d < s.dies → (v.ueAt d).spec = false) ∧ v.cx = s.cx ∧ (∀ d, v.coreAt d = s.coreAt d)
        ∧ OtherContexts s v c.val)

/-- For the step whose restore is due, once its region is served: a record that fails leaves it ABORTED and not restored.
Otherwise an aborted step is restored; a clipped one is in REDOING with its UEs at op 0; the UEs of a skipped one issue
nothing more of it, and once every op of the step is over and its digests are those of the step before it, it is in GATED,
with nothing to agree in a replica group of one. (R56, R75, R142, R350, R587, R609, R610, R613, 12_optimizer_and_update) -/
def Obligations.RestoreCompletes : Prop :=
  ∀ (s : State) (c : Fin 4) (t : StepSt) (cfg : JobCfg), (s.ctxAt c.val).steps.find? (fun t => t.restoring) = some t →
    (s.ctxAt c.val).cfg = some cfg →
    let clip := t.st == .restoring && !t.skipped
    let r := if (s.ctxAt c.val).steps.head?.any (fun u => u.no == t.no) then s.restoreAll (!clip) else (s, true)
    let ends := fun (f : State → State) (p : State → Prop) =>
      ∃ v : State, exec (.journalRestoreComplete c) s = .next (f v) ∧ p v
    (s.regionServed (s.ctxAt c.val) = false → exec (.journalRestoreComplete c) s = .next s)
    ∧ (s.regionServed (s.ctxAt c.val) = true →
      (r.2 = false → ends (·.haltDone c.val) fun v =>
        ∃ u, (v.ctxAt c.val).stepAt t.no = some u ∧ u.st = .aborted ∧ u.restored = false ∧ u.restoring = false)
      ∧ (r.2 = true → t.st = .aborted → ends (·.haltDone c.val) fun v =>
        ∃ u, (v.ctxAt c.val).stepAt t.no = some u ∧ u.restored = true ∧ u.restoring = false)
      ∧ (r.2 = true → t.st = .restoring → t.skipped = false → ends (·.settle c.val) fun v =>
        (∃ u, (v.ctxAt c.val).stepAt t.no = some u ∧ u.st = .redoing ∧ u.restoring = false)
        ∧ (∀ d : Fin 4, d.val < s.dies → (s.engRaw (dieEngOf d .ue)).step = some t.no →
            (v.engRaw (dieEngOf d .ue)).opIdx = 0 ∧ (v.engRaw (dieEngOf d .ue)).issued = []
            ∧ (v.engRaw (dieEngOf d .ue)).live = true ∧ (v.ueAt d.val).clipNow = t.clip))
      ∧ (r.2 = true → t.st = .restoring → t.skipped = true → ends (·.settle c.val) fun v =>
        (∃ u, (v.ctxAt c.val).stepAt t.no = some u ∧ u.st = .restoring ∧ u.restoring = false)
        ∧ (∀ d : Fin 4, d.val < s.dies → (s.engRaw (dieEngOf d .ue)).step = some t.no →
            (v.engRaw (dieEngOf d .ue)).ended = true ∧ (v.engRaw (dieEngOf d .ue)).issued = []))
      ∧ (r.2 = true → t.st = .restoring → t.skipped = true → t.start.dieDigest ≠ [] →
        (s.ctxAt c.val).steps.head? = some t → (s.ctxAt c.val).img ≠ none → s.quiet t.no = true →
        ends (·.tryCommit c.val) fun v => ∃ u, (v.ctxAt c.val).stepAt t.no = some u ∧ u.st = .gated ∧ u.restoring = false
          ∧ u.fin.dieDigest = t.start.dieDigest ∧ (u.agree = true ↔ cfg.replicas = [])))

/-- For the oldest step in GATED, with no report of it under way, no halt and no power loss: the check report that is
the last to close, or the digests of all replicas equal to its own, put it into COMMITTING where every tile holds the
threshold, and otherwise into DEFERRED with CM_STATUS.DEFER set; HOLDUP_THRESHOLD_MET then puts a deferred step
into COMMITTING. While the digest of a replica has not come, nothing changes; one that differs in a step's first run
aborts it. A check report of a step that is not GATED changes nothing. (R56, R61, R62, R66, R76, R77, R616,
02_step_and_commit) -/
def Obligations.StepLeavesGated : Prop :=
  ∀ (s : State) (c : Fin 4) (t : StepSt) (rest : List StepSt) (cfg : JobCfg), s.resident = some c →
    (s.ctxAt c.val).steps = t :: rest → (s.ctxAt c.val).cfg = some cfg →
    let left := fun (v : State) => ∃ u, (v.ctxAt c.val).steps.head? = some u ∧ u.no = t.no
      ∧ (s.holdup = true → u.st = .committing ∧ u.commitTime = s.stbTicks)
      ∧ (s.holdup = false → u.st = .deferred ∧ v.cm.defer = true)
    (∀ unit : Fin 6, unit.val ∈ s.checkUnits → (∀ u ∈ (s.ctxAt c.val).steps, u.no = t.no → u.st ≠ .gated) →
      exec (.checkDone unit t.no) s = .next s)
    ∧ ((s.ctxAt c.val).halted = false → s.pmc.powerLost = false → s.reportDue t.no = false →
      (∀ unit : Fin 6, unit.val ∈ s.checkUnits → t.st = .gated → t.agree = true →
        (∀ d, (if unit.val < 4 then d = unit.val else d < s.dies) → s.dieDone d t.no = true) →
        (∀ u ∈ s.checkUnits, u = unit.val ∨ u ∈ t.checkDone) → Does (.checkDone unit t.no) s left)
      ∧ (t.st = .gated → t.agree = false → (∀ u ∈ s.checkUnits, u ∈ t.checkDone) →
        (∀ v ∈ cfg.replicas, s.heardFrom tagDigest t.no v = some t.fin.pkgDigest) → Does (.digestExchange c t.no) s left)
      ∧ (t.st = .deferred → s.holdup = true → Does (.holdupThresholdMet c) s left)
      ∧ (t.st = .deferred → s.holdup = false → exec (.holdupThresholdMet c) s = .next s))
    ∧ (t.st = .gated → t.agree = false →
      ((∀ v ∈ cfg.replicas, ∀ d, s.heardFrom tagDigest t.no v = some d → d = t.fin.pkgDigest) →
        (∃ v ∈ cfg.replicas, s.heardFrom tagDigest t.no v = none) → exec (.digestExchange c t.no) s = .next s)
      ∧ (t.aborts = 0 → (∃ v ∈ cfg.replicas, ∃ d, s.heardFrom tagDigest t.no v = some d ∧ d ≠ t.fin.pkgDigest) →
        exec (.digestExchange c t.no) s
          = .next ((s.consume fun r => r.tagged tagDigest t.no).abortSteps c.val [t.no] true)))

/-- For the one uncommitted step, in COMMITTING, whose record reads back, with no event, fault, halt, change or reset
due: the JD slot of the step's parity takes the commit record, the context's final state is the step's, no uncommitted
step is left, CM_LAST and SLOT follow, the journals are empty, and nothing else of the package changes. The first
failed read-back of a step in COMMITTING, above the hold-up threshold and with no halt in force, counts on the step
and leaves it in COMMITTING; the second abandons the commit and puts a report of class 0x0D on the wires. (R57, R611,
R617, R618, R619, R627, 02_step_and_commit, R620, R761) -/
def Obligations.CommitRecordOutcomes : Prop :=
  (∀ (s : State) (c : Fin 4) (t : StepSt) (im : Img) (cfg : JobCfg), s.resident = some c →
    let x := s.ctxAt c.val
    x.steps = [t] → x.img = some im → x.cfg = some cfg → t.st = .committing → t.abandonedCommit = false →
    s.pmc.powerLost = false → s.resetDue = none → x.evtEvery = 0 → x.haltTo = none → t.faults = [] → t.faultsRun = [] →
    s.net.linkSched = [] → x.swapAt = none → x.pendImg = none → x.saveSched = false → x.haltAfter = none →
    (x.unbounded = true ∨ ∃ k, x.remain = some (k + 2)) →
    ∃ u : State, exec (.commitRecordWritten c true) s = .next u
      ∧ (u.ctxAt c.val) = { x with fin := t.fin, steps := [], remain := x.remain.map (· - 1) }
      ∧ (∀ d, d ≠ c.val → u.ctxAt d = s.ctxAt d)
      ∧ u.jdRead (recSlot c.val t.no) 4096 = commitRecord c.val x t im cfg
      ∧ (∀ a, a < recSlot c.val t.no ∨ recSlot c.val t.no + 4096 ≤ a → tget 0 u.mem.jd a = tget 0 s.mem.jd a)
      ∧ u.cm = { s.cm with last := t.no, slot := t.no.getLsbD 0 }
      ∧ u = { s.dropJournal with ctx := u.ctx, cm := u.cm, mem := { s.mem with jd := u.mem.jd } })
  ∧ (∀ (s : State) (c : Fin 4) (t : StepSt) (rest : List StepSt) (im : Img) (cfg : JobCfg), s.resident = some c →
    (s.ctxAt c.val).steps = t :: rest → (s.ctxAt c.val).img = some im → (s.ctxAt c.val).cfg = some cfg →
    t.st = .committing → t.abandonedCommit = false → s.pmc.powerLost = false → s.holdup = true →
    (s.ctxAt c.val).haltTo = none →
    Does (.commitRecordWritten c false) s fun v => ∃ u, (v.ctxAt c.val).steps.head? = some u ∧ u.no = t.no
      ∧ u.recFails = t.recFails + 1 ∧ u.st = .committing ∧ (u.abandonedCommit = true ↔ 1 ≤ t.recFails)
      ∧ v.flt.wires = s.flt.wires ++ (if 1 ≤ t.recFails then [mkReport 0x0D 2 (unitLocus 6 9) t.no 0] else []))

/-- A FAULT_REPORT always has a next state, after which what follows a step event is done. With no context resident, a
report that is neither born lasting nor of a sensor or a data lane makes one fault record at the next place of the
log, with sequence number, class and locus as reported; nothing else changes but the counts of the log and the wires.
For the one uncommitted step of the resident context, not in COMMITTING, aborted fewer than three times and with no
fault noted, at an epoch below 0xFFFF: a report that tags it, not born lasting, leaves it ABORTED with a restore due
and one more abort, notes the fault with it, and raises the epoch by one. (R725, R726, R757, R760,
15_reliability_and_safety, R63, R60, R71, R416, 02_step_and_commit) -/
def Obligations.FaultReportsAreLoggedAndAbort : Prop :=
  (∀ (s : State) (r : FaultReport),
    exec (.faultReport r) s = .next (({ s with flt := { s.flt with wires := s.flt.wires.erase r } }.report r).settleNow)
    ∧ (s.resident = none → bornLasting r.cls = false → r.cls ≠ 0x0F → r.cls ≠ 0x10 →
      Does (.faultReport r) s fun t =>
        t.flt = { s.flt with wires := s.flt.wires.erase r, seq := s.flt.seq + 1, next := s.flt.next + 1 }
        ∧ t.jdRead (0x200000 + 64 * s.flt.next.toNat) 64
            = faultRecord s.flt.seq.toNat r s.stbTicks ((r.tags).headD (BitVec.allOnes 64)) 0 0 (0, 0)
        ∧ (∀ a, a < 0x200000 + 64 * s.flt.next.toNat ∨ 0x200000 + 64 * s.flt.next.toNat + 64 ≤ a →
            tget 0 t.mem.jd a = tget 0 s.mem.jd a)
        ∧ t = { s with flt := t.flt, mem := { s.mem with jd := t.mem.jd } }))
  ∧ (∀ (s : State) (c : Fin 4) (t : StepSt) (r : FaultReport), s.resident = some c → (s.ctxAt c.val).steps = [t] →
    (t.st = .running ∨ t.st = .gated) → t.aborts < 3 → t.faults = [] → t.faultsRun = [] →
    (s.ctxAt c.val).epoch ≠ 0xFFFF →
    r.tags = [t.no] → bornLasting r.cls = false → r.cls ≠ 0x0F → r.cls ≠ 0x10 →
    Does (.faultReport r) s fun v => ∃ u, (v.ctxAt c.val).steps = [u] ∧ u.no = t.no ∧ u.st = .aborted
      ∧ u.restoring = true ∧ u.aborts = t.aborts + 1 ∧ u.faultsRun.map (·.rep) = [r]
      ∧ (v.ctxAt c.val).epoch = (s.ctxAt c.val).epoch + 1)

/-- For a record that no delivered message carries: where it is to apply, the package crossing it names gains its n
(to at most 65,535); where it is to wait it joins the held records; a stray sets STRAY; one of an old step or epoch
changes nothing. With no abort message held, HELD_RECORD_APPLY does the same for the oldest held record that need wait no
more and takes it out of the held records; where none may go, nothing changes. (R413, R418, R419,
09_synchronisation_and_time) -/
def Obligations.IncrementRecordsAreJudged : Prop :=
  ∀ (s : State) (b : BitVec 128),
    let r := incRec b
    let settles := fun (i : Instr) (s0 : State) =>
      (s.judgeRec r = .apply → Does i s fun t =>
        (t.xVal 2 0 0 r.index r.step).toNat = min 65535 ((s.xVal 2 0 0 r.index r.step).toNat + r.n)
        ∧ t.sync.held = s0.sync.held ∧ t.mem = s.mem ∧ t.ctx = s.ctx)
      ∧ (s.judgeRec r = .stray → Does i s fun t => (t.xsAt 4).stray = true ∧ t.sync.xcnt = s.sync.xcnt
        ∧ t.sync.held = s0.sync.held)
      ∧ (s.judgeRec r = .discard → Does i s fun t => t.sync.xcnt = s.sync.xcnt ∧ t.sync.held = s0.sync.held)
    (s.net.delivered.find? (fun d => d.vc == 1 && BitVec.ofNat 128 (fld d.payload 0 16) == b) = none →
      settles (.incrementRecord b) s
      ∧ (s.judgeRec r = .hold → exec (.incrementRecord b) s
          = .next { s with sync := { s.sync with held := s.sync.held ++ [{ record := b, link := 0, buf := none }] } }))
    ∧ ((∀ q ∈ s.net.delivered, q.link ≠ 24) →
      (∀ h, s.sync.held.find? (fun h => s.judgeRec (incRec h.record) != .hold) = some h → h.record = b → h.buf = none →
        settles .heldRecordApply { s with sync := { s.sync with held := s.sync.held.erase h } })
      ∧ (s.sync.held.find? (fun h => s.judgeRec (incRec h.record) != .hold) = none → exec .heldRecordApply s = .next s))

/-- ANCHOR_RESULT, once the times of every other package of the job have come, gives the running step that has no anchor
the latest of them and its own plus ANCHOR_LEAD and ends pacing on every link; before that nothing changes. LAUNCH_ENTRY of a valid entry whose time has come for a running step adds 1 to the entry's package crossing and
notes it, so that a second one for that step does nothing. PACE marks the link paced and forgets the phases that were
ready; READY of a phase adds it to those of a paced link, once. READY_DUE sends READY for a phase whose window has
opened in the newest step that runs, on a link under handshake, once; the slots of other links stay. (R440, R441, R442, R443, R451,
09_synchronisation_and_time, R449, R450) -/
def Obligations.AnchorsLaunchesAndPacing : Prop :=
  ((∀ (s : State) (c : Fin 4) (t : StepSt) (cfg : JobCfg), s.resident = some c →
    (s.ctxAt c.val).steps.find? (fun t => t.st.runs && t.anchor.isNone) = some t → (s.ctxAt c.val).cfg = some cfg →
    ((∃ v ∈ cfg.topo.others, s.heardFrom tagAnchor t.no v = none) → exec (.anchorResult c) s = .next s)
    ∧ ((∀ v ∈ cfg.topo.others, s.heardFrom tagAnchor t.no v ≠ none) → Does (.anchorResult c) s fun v =>
      (∃ (u : StepSt) (m : Nat), (v.ctxAt c.val).stepAt t.no = some u ∧ u.anchor = some (m + cfg.sync.anchorLead)
        ∧ u.anchorAt = s.stbTicks ∧ t.entered ≤ m
        ∧ (∀ p ∈ cfg.topo.others, ∀ w, s.heardFrom tagAnchor t.no p = some w → w.toNat ≤ m)
        ∧ (m = t.entered ∨ ∃ p ∈ cfg.topo.others, ∃ w, s.heardFrom tagAnchor t.no p = some w ∧ m = w.toNat))
      ∧ (∀ j, (v.slotAt j).paced = false)
      ∧ ((∀ e ∈ s.sync.slot, ∀ p ∈ e.2.stamps, p.step ≠ t.no) → ∀ j, (v.slotAt j).hsk = false)
      ∧ v.mem = s.mem ∧ v.core = s.core ∧ v.eng = s.eng ∧ v.sync.xcnt = s.sync.xcnt))
  ∧ (∀ (s : State) (c : Fin 4) (x : CtxSt) (cfg : JobCfg) (i : Fin 64) (e : LaunchEnt) (t : StepSt) (a : Nat),
    s.resident = some c → s.ctxAt c.val = x → x.cfg = some cfg → cfg.sync.launch[i.val]? = some e → e.valid = true →
    x.steps = [t] → t.st.runs = true → t.anchor = some a → a + e.offset ≤ s.stbTicks →
    (s.sync.launch.did (bankOf t.no) i.val = false → Does (.launchEntry i) s fun v =>
      (v.xVal 2 0 0 e.px t.no).toNat = min 65535 ((s.xVal 2 0 0 e.px t.no).toNat + 1)
      ∧ v.sync.launch.did (bankOf t.no) i.val = true
      ∧ (a + e.offset < t.anchorAt → (v.xsAt 4).late = true) ∧ v.ctx = s.ctx ∧ v.eng = s.eng)
    ∧ (s.sync.launch.did (bankOf t.no) i.val = true → exec (.launchEntry i) s = .next s)))
  ∧ (∀ (s : State) (m : Fin 24) (p : BitVec 8), m.val < s.links →
    (Does (.pace m) s fun t => (t.slotAt m.val).paced = true ∧ (t.slotAt m.val).readyIn = []
      ∧ (∀ j, j ≠ m.val → t.slotAt j = s.slotAt j)
      ∧ t = { s with sync := { s.sync with slot := t.sync.slot }, net := { s.net with delivered := t.net.delivered } })
    ∧ (Does (.ready m p) s fun t =>
      ((s.slotAt m.val).paced = true → p ∈ (t.slotAt m.val).readyIn)
      ∧ ((s.slotAt m.val).paced = false → t.slotAt m.val = s.slotAt m.val)
      ∧ (p ∈ (s.slotAt m.val).readyIn → t.slotAt m.val = s.slotAt m.val)
      ∧ (∀ j, j ≠ m.val → t.slotAt j = s.slotAt j)
      ∧ t = { s with sync := { s.sync with slot := t.sync.slot }, net := { s.net with delivered := t.net.delivered } })
    ∧ (∀ (c : Fin 4) (x : CtxSt) (w : WinEnt) (st : StepSt) (a : Nat), s.resident = some c → s.ctxAt c.val = x →
      x.cfg.bind (fun g => g.sync.window.find? fun w => w.link == m.val && w.phase == p) = some w →
      x.steps.reverse.find? (fun t => t.st.runs) = some st → st.anchor = some a → a + w.wopen ≤ s.stbTicks →
      (s.slotAt m.val).hsk = true →
      (p ∈ (s.slotAt m.val).readyOut → exec (.readyDue m p) s = .next s)
      ∧ (p ∉ (s.slotAt m.val).readyOut → exec (.readyDue m p) s = .next
          ((s.modSlot m.val fun k => { k with readyOut := k.readyOut ++ [p] }).sendPacing m.val tagReady p))))

/-- ABORT_MESSAGE for the resident context's job with a higher epoch leaves the context at that epoch, and a step it
names that an abort reaches ABORTED, without a fault of this package; one of a lower epoch only leaves the arrivals; one
for a job of a context that is not resident is held, and HELD_RECORD_APPLY gives it its effect once that context is
resident; one of a job that no context holds sets STRAY. HALT_MESSAGE for a context that is not halted halts it; for one
that is, or for no context's job, it only leaves the arrivals. (R60, R416, R418, R738, R739, 02_step_and_commit,
15_reliability_and_safety) -/
def Obligations.AbortAndHaltMessages : Prop :=
  ∀ s : State,
    (∀ (c : Fin 4) (t : StepSt) (cfg : JobCfg) (ep : BitVec 16), s.resident = some c → (s.ctxAt c.val).cfg = some cfg →
      (s.ctxAt c.val).steps = [t] → (t.st = .running ∨ t.st = .gated) → (s.ctxAt c.val).epoch.toNat < ep.toNat →
      Does (.abortMessage cfg.job ep t.no) s fun v => (v.ctxAt c.val).epoch = ep
        ∧ (∃ u, (v.ctxAt c.val).steps = [u] ∧ u.no = t.no ∧ u.st = .aborted ∧ u.aborts = t.aborts + 1)
        ∧ v.flt = s.flt)
    ∧ (∀ (c : Fin 4) (cfg : JobCfg) (ep : BitVec 16) (n : BitVec 64), s.resident = some c →
      (s.ctxAt c.val).cfg = some cfg → ep.toNat < (s.ctxAt c.val).epoch.toNat →
      exec (.abortMessage cfg.job ep n) s = .next (s.consume fun r => r.aborts cfg.job ep n))
    ∧ (∀ (job ep : BitVec 16) (n : BitVec 64),
      (∀ c, s.resident = some c → (s.ctxAt c.val).cfg.any (fun g => g.job == job) = false) →
      (s.holdsJob job = true → Does (.abortMessage job ep n) s fun v => (∃ r ∈ v.net.delivered, r.aborts job ep n = true)
        ∧ (∀ r ∈ s.net.delivered, r ∈ v.net.delivered)
        ∧ v = { s with net := { s.net with delivered := v.net.delivered } })
      ∧ (s.holdsJob job = false → Does (.abortMessage job ep n) s fun v => (v.xsAt 4).stray = true
        ∧ v = { s with sync := { s.sync with xs := v.sync.xs }, net := { s.net with delivered := v.net.delivered } }))
    ∧ (∀ (c : Fin 4) (cfg : JobCfg) (r : RxMsg), s.resident = some c → (s.ctxAt c.val).cfg = some cfg → s.sync.held = [] →
      s.net.delivered.filter (fun q => q.link == 24) = [r] → BitVec.ofNat 16 (msgHdr r.hdr).job = cfg.job →
      exec .heldRecordApply s = .next (s.takeAbort c.val cfg.job (BitVec.ofNat 16 (msgHdr r.hdr).epoch)
        (BitVec.ofNat 64 (fld r.payload 8 8))))
    ∧ (∀ (m : Fin 24) (p : Bytes), m.val < s.links →
      (s.ctxOfJob (fld p 0 2) = none → Does (.haltMessage m p) s fun v =>
        v = { s with net := { s.net with delivered := v.net.delivered } })
      ∧ (∀ c, s.ctxOfJob (fld p 0 2) = some c → (s.ctxAt c.val).halted = true → Does (.haltMessage m p) s fun v =>
        v = { s with net := { s.net with delivered := v.net.delivered } })
      ∧ (∀ c, s.ctxOfJob (fld p 0 2) = some c → (s.ctxAt c.val).halted = false → Does (.haltMessage m p) s fun v =>
        (v.ctxAt c.val).halted = true ∧ (s.resident = some c → v.flt.halted = true ∧ v.pin.faultN = false)))

/-- FLIT_SLOT on a member with flit slots uses one: control takes up to 15 records; replay the oldest flit to be sent
again; a VC its next flit, kept until acknowledged, with the next sequence number; otherwise an idle flit. Nothing new
leaves while a flit is to be sent again, or 512 are unacknowledged. Other members stay; the count of cycles that the
partner reports joins MKT_STALL. On a member without flit slots nothing else happens. The release of a queued increment
record is a slot of VC1, and nothing where VC1 has no slot. (R461, R466, R471, R481, R493, R477, R396, R401,
10_links_and_topology) -/
def Obligations.FlitSlotSendsOneFlit : Prop :=
  ∀ (s : State) (m : Fin 32) (k : BitVec 32), s.hasMember m.val = true →
    let x := s.memberAt m.val
    let v := if m.val < 24 then s.noteStall m.val k else s
    (x.hasSlots = false → exec (.flitSlot m k) s = .next v)
    ∧ (x.hasSlots = true → Does (.flitSlot m k) s fun t =>
      let y := t.memberAt m.val
      y.slotNo = x.slotNo + 1 ∧ (∀ j, j ≠ m.val → t.memberAt j = s.memberAt j)
      ∧ t = { s with net := { s.net with member := t.net.member, mkt := v.net.mkt }, stb := t.stb,
                     sync := { s.sync with slot := t.sync.slot } }
      ∧ (s.slotPick m.val = .ctrl → y.slotHist.head? = some 6 ∧ y.wire = wireOf m.val (ctrlFlit (x.ctrl.take 15))
          ∧ ∃ l, y.ctrl = x.ctrl.drop 15 ++ l)
      ∧ (s.slotPick m.val = .replay → ∃ f r, x.resend = f :: r ∧ y.resend = r ∧ y.wire = wireOf m.val f
          ∧ y.unacked = x.unacked ∧ y.slotHist.head? = some 8)
      ∧ (∀ v, s.slotPick m.val = .vc v → ∃ f, y.unacked = x.unacked ++ [f] ∧ f.vc = v ∧ f.seq = x.txSeq
          ∧ y.txSeq = (x.txSeq + 1) % 1024 ∧ y.wire = wireOf m.val f ∧ y.slotHist.head? = some v)
      ∧ (s.slotPick m.val = .idle → y = { x with wire := wireOf m.val idleFlit, slotHist := (7 :: x.slotHist).take 64,
                                                 slotNo := x.slotNo + 1 }))
    ∧ (x.inService = true → x.resend ≠ [] → s.slotPick m.val = .ctrl ∨ s.slotPick m.val = .replay)
    ∧ (512 ≤ x.unacked.length → ∀ v, s.slotPick m.val ≠ .vc v)
    ∧ (∀ j : Fin 24, j.val = m.val →
      (x.hasSlots = true → s.slotPick m.val = .vc 1 →
        exec (.boundedResourceRelease (.incrementSent j)) s = exec (.flitSlot m 0) s)
      ∧ ((x.hasSlots = false ∨ s.slotPick m.val ≠ .vc 1) →
        exec (.boundedResourceRelease (.incrementSent j)) s = .next s))
    ∧ (m.val < 24 → ∀ j, j < 12 →
      (tget 0#32 (v.mktAt (m.val / 12)).stalls j).toNat
        = if j = m.val % 12 then min ((tget 0#32 (s.mktAt (m.val / 12)).stalls j).toNat + k.toNat) 0xFFFFFFFF
          else (tget 0#32 (s.mktAt (m.val / 12)).stalls j).toNat)

/-- For every flit with a sequence number below 1,024, a VC code below 8 and a body of 250 bytes, the 256 bytes it
makes carry a check sequence that holds and read back as that flit; with its 32 bytes of parity bits it reads back with
the bytes whose parity fails. For every message header with each field in its width, the 128 bits read back as that
header. For every increment record with n of 16 bits and an index of 6, the 128 bits read back as that record. For every
256 sixteen-bit codes: the frame has 258 + 32w bytes, where w is the width its header gives, w is at most 8, and decoding
each element from the frame's bytes gives that code. (10_links_and_topology, 09_synchronisation_and_time, R375, R376,
R377, 08_data_movement, R720) -/
def Obligations.FormatsReadBack : Prop :=
  ((∀ f : Flit, f.seq < 1024 → f.vc < 8 → f.body.length = 250 →
    (flitBytes f).length = 256 ∧ crcOk (flitBytes f) = true ∧ flitOf (flitBytes f) = { f with par := [] }
    ∧ innerFlit (wireOf 24 f) = { f with par := (List.range 250).filter f.par.contains })
  ∧ (∀ h : MsgHdr, h.dst.x < 32 → h.dst.y < 32 → h.dst.z < 32 → h.cls < 16 → h.len < 8192 → h.phase < 256 →
    h.job < 65536 → h.seq < 65536 → h.epoch < 65536 → msgHdr h.pack = h)
  ∧ (∀ r : IncRec, r.n < 65536 → r.index < 64 → incRec r.pack = r))
  ∧ (∀ codes : List Nat, codes.length = 256 → (∀ v ∈ codes, v < 65536) →
    let fr := encodeFrame codes
    let w := fld fr 0 2 / 256 % 16
    w ≤ 8 ∧ fr.length = 258 + 32 * w
    ∧ ∀ i, i < 256 → decodeElem (fld fr 0 2) (slice fr 2 256) (slice fr 258 (32 * w)) i = codes[i]?)

/-- ACK_DUE makes one ACK due for what was accepted and not acknowledged. ACK drops every kept flit up to the one it
names. NAK on an active member, within the replay bounds, makes every kept flit from the one it names be sent again.
CREDIT sets the count granted. STATE notes the partner's state; from 2 on this end is out of service as well. An ACK
or NAK that names no kept flit changes nothing of the member. RETRAIN_COMPLETE makes a retraining member active with
every unacknowledged flit to be sent again, within 5 ms (200 us on the package's own links); RETRAIN_TIMEOUT makes it
withdraw once they have passed, and not before. BUCKET_LEAK lowers each bucket of every
member by its leak and not below 0. PARENT_RESELECT in holdover without a parent takes the link toward the grandmaster
by the order Z, Y, X. (R477, R478, R481, R483, R484, R488, 10_links_and_topology, R485, R489, R438) -/
def Obligations.LinkStateRecordsAndRetraining : Prop :=
  (∀ (s : State) (m : Fin 32), s.hasMember m.val = true →
    let x := s.memberAt m.val
    let only := fun (t : State) => (∀ j, j ≠ m.val → t.memberAt j = s.memberAt j)
      ∧ t = { s with net := { s.net with member := t.net.member } }
    (Does (.ackDue m) s fun t => only t ∧ (t.memberAt m.val).rxUnacked = 0
      ∧ (t.memberAt m.val).ctrl = x.ctrl ++ (if x.rxUnacked = 0 then [] else [ackRecord ((x.rxSeq + 1023) % 1024)]))
    ∧ (∀ (seq : BitVec 16), (∀ (a b : List Flit) (f : Flit), x.unacked = a ++ f :: b → f.seq = seq.toNat →
        (∀ g ∈ a, g.seq ≠ seq.toNat) →
        (Does (.ack m seq) s fun t => only t ∧ (t.memberAt m.val).unacked = b ∧ (t.memberAt m.val).ctrl = x.ctrl)
        ∧ (x.st = .active → (x.replayTimes.filter fun t => decide (s.stb.ticks - t < 2000)).length < 16 →
          x.replayB + 1 < bits (s.bktOf m.val) 55 48 →
          Does (.nak m seq) s fun t => only t ∧ (t.memberAt m.val).resend = f :: b ∧ (t.memberAt m.val).unacked = x.unacked
            ∧ (t.memberAt m.val).replayB = x.replayB + 1 ∧ (t.memberAt m.val).replayCnt = satInc x.replayCnt))
      ∧ ((∀ g ∈ x.unacked, g.seq ≠ seq.toNat) →
        (Does (.ack m seq) s fun t => only t ∧ t.memberAt m.val = x) ∧ exec (.nak m seq) s = .next s))
    ∧ (∀ (vc cls : BitVec 8) (g : BitVec 32), Does (.credit m vc cls g) s fun t => only t
      ∧ (tget (0, 0) (t.memberAt m.val).credit (credKey vc.toNat cls.toNat))
          = (g.toNat, (tget (0, 0) x.credit (credKey vc.toNat cls.toNat)).2)
      ∧ (∀ k, k ≠ credKey vc.toNat cls.toNat → tget (0, 0) (t.memberAt m.val).credit k = tget (0, 0) x.credit k))
    ∧ (∀ v : BitVec 8, (v.toNat < 2 → Does (.state m v) s fun t => only t
        ∧ t.memberAt m.val = { x with peer := v, busy := (t.memberAt m.val).busy,
                                      resend := if v = 0 ∧ x.peer = 1 ∧ x.st = .active then x.unacked else x.resend })
      ∧ (2 ≤ v.toNat → Does (.state m v) s fun t =>
        (t.memberAt m.val).st = .withdrawn ∨ (x.st = .disabled ∧ (t.memberAt m.val).st = .disabled))))
  ∧ (∀ s : State,
    (∀ m : Fin 32, s.hasMember m.val = true →
      let x := s.memberAt m.val
      let last := x.retrainStart + retrainBound m.val
      (x.st = .retraining →
        (s.stb.ticks ≤ last → Does (.retrainComplete m) s fun t => (t.memberAt m.val).st = .active
          ∧ (t.memberAt m.val).resend = x.unacked ∧ (t.memberAt m.val).ctrl = x.ctrl ++ [stateRecord 0]
          ∧ (∀ j, j ≠ m.val → t.memberAt j = s.memberAt j) ∧ t = { s with net := { s.net with member := t.net.member } })
        ∧ (last ≤ s.stb.ticks → Does (.retrainTimeout m) s fun t => (t.memberAt m.val).st = .withdrawn))
      ∧ ((x.st ≠ .retraining ∨ last < s.stb.ticks) → Does (.retrainComplete m) s fun t => (∀ j, t.memberAt j = s.memberAt j)
        ∧ t = { s with net := { s.net with member := t.net.member } })
      ∧ ((x.st ≠ .retraining ∨ s.stb.ticks < last) → exec (.retrainTimeout m) s = .next s))
    ∧ (Does .bucketLeak s fun t => (∀ m, m < 32 →
        t.memberAt m = { s.memberAt m with
          margin := (s.memberAt m).margin - bits (s.bktOf m) 7 0, replayB := (s.memberAt m).replayB - bits (s.bktOf m) 15 8,
          uncorrB := (s.memberAt m).uncorrB - bits (s.bktOf m) 23 16 })
      ∧ t = { s with net := { s.net with member := t.net.member } })
    ∧ (∀ (v : Vec3) (g : TopoCfg) (p : Fin 24), s.stb.st = .holdover → s.stb.parent = none → s.stb.gm = some v →
      s.topoCfg = some g → s.parentToward [2, 1, 0] v = some p → Does .parentReselect s fun t =>
        t.stb.parent = some p ∧ t.stb.st = .holdover ∧ t = { s with stb := t.stb }))

/-- TIME_EXCHANGE that is due makes a T0 with a new number due on the parent link. T0 and T3 make the answer due. T1
notes t2, T1F notes t1 and makes T3 due, and T4, with the four stamps of the exchange at hand, ends the exchange and
gives the servo half of (t2 - t1) - (t4 - t3). A record of another number or link changes nothing. In every state of
the servo but ACQUIRE a measured offset leaves the STB where it is, and only its correction and the measured frequency
are set; the frequency follows from the times of two measurements. In ACQUIRE: the
fourth near offset in a row locks without a step; a far offset steps the STB by minus the offset once and never again;
FREE and MASTER take no correction. (R432, R435, R436, R479, 09_synchronisation_and_time, R433, R437) -/
def Obligations.TimeExchangesDriveTheServo : Prop :=
  (∀ (s : State) (m : Fin 24) (num : BitVec 8), m.val < s.links →
    (∀ v : BitVec 64, (Does (.t0 m num) s fun t => t = s.modMember m.val (·.due (tRecord 0x11 num 0)))
      ∧ (Does (.t3 m num v) s fun t => t = s.modMember m.val (·.due (tRecord 0x14 num v.toNat))))
    ∧ ((s.stb.exch = none ∨ s.stb.parent ≠ some m ∨ ∃ e, s.stb.exch = some e ∧ e.num ≠ num) → ∀ v : BitVec 64,
      exec (.t1 m num v) s = .next s ∧ exec (.t1f m num v) s = .next s ∧ exec (.t4 m num v) s = .next s)
    ∧ (∀ (e : ExchSt) (v : BitVec 64), s.stb.exch = some e → s.stb.parent = some m → e.num = num →
      exec (.t1 m num v) s = .next { s with stb := { s.stb with exch := some { e with t2 := some (v.toNat : Int) } } }
      ∧ (e.t2.isSome = true → Does (.t1f m num v) s fun t =>
        t.stb = { s.stb with exch := some { e with t1 := some (v.toNat : Int) } }
        ∧ (t.memberAt m.val).ctrl = (s.memberAt m.val).ctrl ++ [tRecord 0x13 num 0]
        ∧ t = { s with stb := t.stb, net := { s.net with member := t.net.member } })
      ∧ (∀ a b c : BitVec 64, e.t1 = some (a.toNat : Int) → e.t2 = some (b.toNat : Int) → e.t3 = some (c.toNat : Int) →
        s.stb.follow = none →
        exec (.t4 m num v) s = .next { s with stb := s.stb.measured (((b - a).toInt - (v - c).toInt) / 2) }))
    ∧ (s.stb.parent = some m → (s.stb.st = .acquire ∨ s.stb.st = .locked ∨ s.stb.st = .holdover) →
      ((s.stb.urgent = true ∨ s.stb.lastExch + 10000 ≤ s.stb.ticks) → Does .timeExchange s fun t =>
        t.stb = { s.stb with exchNo := s.stb.exchNo + 1, urgent := false,
                             lastExch := if s.stb.urgent then s.stb.lastExch else s.stb.ticks,
                             exch := some { num := s.stb.exchNo + 1, t1 := none, t2 := none, t3 := none } }
        ∧ (t.memberAt m.val).ctrl = (s.memberAt m.val).ctrl ++ [tRecord 0x10 (s.stb.exchNo + 1) 0]
        ∧ t = { s with stb := t.stb, net := { s.net with member := t.net.member } })
      ∧ (s.stb.urgent = false → s.stb.ticks < s.stb.lastExch + 10000 → exec .timeExchange s = .next s)))
  ∧ (∀ (b : StbSt) (off : Int),
    let near := off.natAbs ≤ 9830
    let b' := b.measured off
    (b.st ≠ .acquire → b'.time = b.time ∧ b'.stepped = b.stepped)
    ∧ (b.st = .acquire → near → b.good = 3 → b'.st = .locked ∧ b'.time = b.time ∧ b'.corr = -off * 65536)
    ∧ (b.st = .acquire → near → b.good < 3 → b'.st = .acquire ∧ b'.time = b.time ∧ b'.good = b.good + 1)
    ∧ (b.st = .acquire → ¬ near → b.stepped = false → b'.time = ((b.time : Int) - off).toNat ∧ b'.stepped = true
        ∧ b'.corr = 0 ∧ b'.good = 0)
    ∧ (b.st = .acquire → ¬ near → b.stepped = true → b'.time = b.time ∧ b'.stepped = true ∧ b'.corr = -off * 65536)
    ∧ (b.stepped = true → b'.time = b.time)
    ∧ b'.meas = some (b.ticks, (b.time : Int) - off)
    ∧ (∀ t p, b.meas = some (t, p) → t < b.ticks →
        b'.rate = ((b.time : Int) - off - p) * 65536 / ((b.ticks - t : Nat) : Int) - 2 ^ 32)
    ∧ ((b.st = .free ∨ b.st = .master) → b'.corr = b.corr ∧ b'.st = b.st) ∧ b'.parent = b.parent ∧ b'.exchNo = b.exchNo)

/-- On a member in service: a wire unit whose check fails counts as uncorrectable; with a check that holds, a data
flit with the expected sequence number advances it and one with another does not; and where a flit is refused a NAK of
the expected number is due, once until a flit is accepted. On a member not in service nothing happens. (R464, R465,
R468, R480, 10_links_and_topology) -/
def Obligations.FlitReceiveAcceptsInSequence : Prop :=
  ∀ (s : State) (m : Fin 32) (w : Bytes), s.hasMember m.val = true →
    let x := s.memberAt m.val
    let body := if m.val < 24 then (fecDecode w).map (·.1) else some w
    let refused := fun (y : MemberSt) => y.nakSent = true ∧ y.rxSeq = x.rxSeq
      ∧ y.ctrl = x.ctrl ++ (if x.nakSent then [] else [nakRecord x.rxSeq])
    (x.st ≠ .active → x.st ≠ .retraining → exec (.flitReceive m w) s = .next s)
    ∧ (x.st = .active ∨ x.st = .retraining →
      ((∀ b, body = some b → crcOk b = false) → x.uncorrB + 1 < bits (s.bktOf m.val) 63 56 →
        Does (.flitReceive m w) s fun t => refused (t.memberAt m.val)
          ∧ (t.memberAt m.val).uncorrCnt = satInc x.uncorrCnt ∧ (∀ j, j ≠ m.val → t.memberAt j = s.memberAt j))
      ∧ (∀ b, body = some b → crcOk b = true → (flitOf b).vc < 6 → (flitOf b).seq ≠ x.rxSeq →
        Does (.flitReceive m w) s fun t => refused (t.memberAt m.val) ∧ (t.memberAt m.val).inbox = x.inbox)
      ∧ (∀ b, body = some b → crcOk b = true → (flitOf b).vc < 6 → (flitOf b).seq = x.rxSeq →
        Does (.flitReceive m w) s fun t => (t.memberAt m.val).rxSeq = (x.rxSeq + 1) % 1024
          ∧ (t.memberAt m.val).nakSent = false ∧ (t.memberAt m.val).rxUnacked = x.rxUnacked + 1)
      ∧ (∀ b, body = some b → crcOk b = true → (flitOf b).vc = 7 → Does (.flitReceive m w) s fun t =>
        (t.memberAt m.val).rxSeq = x.rxSeq ∧ (t.memberAt m.val).ctrl = x.ctrl))

/-- MESSAGE_RECEIVE with nothing on the link does nothing. A message of VC2 to VC5 in the clear, of the resident job
and epoch, for this package and next in its stream, joins the data its link group delivers, where its Market buffer holds
it, and the stream expects the next number. A message of a job no context holds sets STRAY and is gone. A halt message of
a context's job reaches the arrivals, unless it repeats one of its epoch. (R472, R473, R474, R418, R389, R738, R739,
10_links_and_topology) -/
def Obligations.MessagesAreReceivedInOrder : Prop :=
  ∀ (s : State) (m : Fin 24), m.val < s.links →
    ((s.memberAt m.val).inbox = [] → exec (.messageReceive m) s = .next s)
    ∧ (∀ (r : RxMsg) (rest : List RxMsg), (s.memberAt m.val).inbox = r :: rest →
      let h := msgHdr r.hdr
      (s.judgeJob (BitVec.ofNat 16 h.job) (BitVec.ofNat 16 h.epoch) = .stray → r.isHalt = false →
        Does (.messageReceive m) s fun t => (t.xsAt 4).stray = true ∧ (t.memberAt m.val).inbox = rest
          ∧ t.net.rx = s.net.rx ∧ t.net.delivered = s.net.delivered)
      ∧ (r.isHalt = true →
        (s.ctxOfJob h.job = none → Does (.messageReceive m) s fun t => (t.xsAt 4).stray = true
          ∧ (t.memberAt m.val).inbox = rest ∧ t.net.delivered = s.net.delivered)
        ∧ (∀ c, s.ctxOfJob h.job = some c →
          ((s.ctxAt c.val).epoch.toNat ≠ h.epoch
            ∨ ∀ g, s.groupOf m.val = some g → ((s.streamAt (streamKey c.val g 0 h.cls)).fresh h.seq).isSome = true) →
          Does (.messageReceive m) s fun t =>
            t.net.delivered = s.net.delivered ++ [{ r with buf := none }] ∧ (t.memberAt m.val).inbox = rest)
        ∧ (∀ c g, s.ctxOfJob h.job = some c → (s.ctxAt c.val).epoch.toNat = h.epoch → s.groupOf m.val = some g →
          (s.streamAt (streamKey c.val g 0 h.cls)).fresh h.seq = none →
          Does (.messageReceive m) s fun t => t.net.delivered = s.net.delivered ∧ (t.memberAt m.val).inbox = rest))
      ∧ (∀ (c : Fin 4) (cfg : JobCfg) (g : Nat), 2 ≤ r.vc → s.resident = some c → (s.ctxAt c.val).cfg = some cfg →
        s.groupOf m.val = some g → s.judgeJob (BitVec.ofNat 16 h.job) (BitVec.ofNat 16 h.epoch) = .apply →
        h.dst = cfg.topo.self → h.enc = false → (s.ctxAt c.val).lsec.covers r.vc = false →
        (s.streamAt (streamKey c.val g r.vc h.cls)).expect % 65536 = h.seq →
        (s.streamAt (streamKey c.val g r.vc h.cls)).held = [] →
        Does (.messageReceive m) s fun t => (t.memberAt m.val).inbox = rest
          ∧ tget [] t.net.rx (rxKey g r.vc h.cls) = tget [] s.net.rx (rxKey g r.vc h.cls)
              ++ [{ data := if r.buf.isSome then [] else r.payload, at_ := 0, len := r.payload.length, link := r.link,
                    vc := r.vc, buf := r.buf }]
          ∧ (t.streamAt (streamKey c.val g r.vc h.cls)).expect
              = (s.streamAt (streamKey c.val g r.vc h.cls)).expect + 1
          ∧ t = { s with net := t.net }))

/-- An accepted query whose buffer is large enough and answers writes its block to the buffer and replies OK with the
block's length; the package is otherwise as it was (ATTEST draws one random number). The identity block has 256 bytes
with the kind, the serial and the HBM size; the status block 128 with the context's state, the resident context and
the last committed step; the report of ATTEST 416. JOURNAL_READ outside every region replies JD_RANGE. A buffer that
is too small or does not answer gets nothing: BUF_SMALL with the length needed, or HOST_DMA. (R710, R711, R869, R709,
R825, R657, 14_command_interface) -/
def Obligations.CitisQueriesWriteTheirBlocks : Prop :=
  ∀ (s : State) (r : Fin 8) (p : BitVec 512),
    let t := s.takeEntry r.val p
    let c := pktCtx p
    (Accepted (.identify r) s r p →
      t.identityBlock.length = 256 ∧ fld t.identityBlock 2 1 = kindCode s.fuse.kind
      ∧ fld t.identityBlock 8 8 = s.fuse.serial.toNat ∧ fld t.identityBlock 32 8 = s.hbmBytes
      ∧ (t.outErr p 256 = none → exec (.identify r) s = outputs r p t t.identityBlock 0 0)
      ∧ (∀ e, t.outErr p 256 = some e → exec (.identify r) s = replies r p t e.1 e.2))
    ∧ (Accepted (.queryStatus r) s r p →
      (t.statusBlock c).length = 128 ∧ fld (t.statusBlock c) 0 1 = (s.ctxAt c).st.code
      ∧ fld (t.statusBlock c) 1 1 = (s.resident.map (·.val)).getD 0xFF ∧ fld (t.statusBlock c) 24 8 = s.committedOf c
      ∧ (t.outErr p 128 = none → exec (.queryStatus r) s = outputs r p t (t.statusBlock c) 0 0)
      ∧ (∀ e, t.outErr p 128 = some e → exec (.queryStatus r) s = replies r p t e.1 e.2))
    ∧ (Accepted (.readTelemetry r) s r p → ∃ b, t.telemetry (pf p 28 1) = some b
      ∧ (t.outErr p b.length = none → exec (.readTelemetry r) s = outputs r p t b 0 0)
      ∧ (∀ e, t.outErr p b.length = some e → exec (.readTelemetry r) s = replies r p t e.1 e.2))
    ∧ (Accepted (.journalRead r) s r p →
      ((∃ g, g ∈ jdRegions ∧ g.1 ≤ pf p 32 8 ∧ pf p 32 8 + pf p 24 4 ≤ g.1 + g.2) →
        (s.journalBytes (pf p 32 8) (pf p 24 4)).length = pf p 24 4
        ∧ (t.outErr p (pf p 24 4) = none →
          exec (.journalRead r) s = outputs r p t (s.journalBytes (pf p 32 8) (pf p 24 4)) 0 0))
      ∧ ((∀ g, g ∈ jdRegions → ¬(g.1 ≤ pf p 32 8 ∧ pf p 32 8 + pf p 24 4 ≤ g.1 + g.2)) →
        exec (.journalRead r) s = replies r p t 0x60 0))
    ∧ (Accepted (.attest r) s r p →
      let b := t.attestBody p ++ leBytes 96 (Config.deviceSign s.fuse.serial (sha384 (t.attestBody p)) s.free).toNat
      b.length = 416 ∧ (t.outErr p 416 = none → exec (.attest r) s = outputs r p { t with free := s.free + 1 } b 0 0))

/-- REMAP_CORE with no step pinning its cores maps the logical core to the spare named, or to the lowest-numbered one;
the old core becomes a spare, and what it still had in hand ends. LINK_CTRL admits an active link at once, trains
another, refuses to withdraw the last of a group that a neighbour needs, and else withdraws it, at the next boundary
where a context is STEPPING. TIME_CTRL makes the servo MASTER, ACQUIRE or FREE. SET_POWER_LIMIT sets the host's limit.
RUN_RADISH starts. CLEAR_ERRORS writes its header and the values, and clears the registers. FW_UPDATE starts the write of an admissible image; FW_AUTH or FW_ROLLBACK refuse
others. (R307, R309, R311, R702, R703, R704, R705, R706, R707, R708, R866,
14_command_interface) -/
def Obligations.PackageCommandsTakeEffect : Prop :=
  ∀ (s : State) (r : Fin 8) (p : BitVec 512),
    let t := s.takeEntry r.val p
    let a := pf p 28 1
    let b := pf p 29 1
    (Accepted (.remapCore r) s r p → (∀ c x, s.cur = some (c, x) → x.steps.any (fun k => k.st.pins) = false) →
      ∀ first, s.spareOf a = some first →
      let q := if pf p 30 1 = 0x7F then first else pf p 30 1
      let old := s.physOf a b
      s.physState a q = 1 → ∃ u, exec (.remapCore r) s = replies r p u 0 0
        ∧ u.physOf a b = q ∧ u.physState a q = 0 ∧ (old ≠ q → s.physState a old = 0 → u.physState a old = 1)
        ∧ (∀ d l, d * 96 + l ≠ a * 96 + b → u.physOf d l = s.physOf d l)
        ∧ u = { t.quitCore a b with remap := u.remap })
    ∧ (Accepted (.linkCtrl r) s r p →
      (b = 0 → (s.memberAt a).st = .active → exec (.linkCtrl r) s = replies r p t 0 0)
      ∧ (b = 0 → (s.memberAt a).st ≠ .active → ∃ u, exec (.linkCtrl r) s = served r u ∧ (u.memberAt a).st = .training
        ∧ u.net.linkTrain = s.net.linkTrain ++ [(r, BitVec.ofNat 24 (2 ^ a))]
        ∧ (∀ m, m ≠ a → u.memberAt m = s.memberAt m) ∧ u = { t with net := u.net })
      ∧ (b ≠ 0 → s.lastOfGroup a = true → exec (.linkCtrl r) s = replies r p t 7 s.residentCode)
      ∧ (b ≠ 0 → s.lastOfGroup a = false → s.ctxIn [.stepping] ≠ none →
        exec (.linkCtrl r) s = replies r p { t with net := { s.net with linkSched := s.net.linkSched ++ [(a, false)] } } 0 0)
      ∧ (b ≠ 0 → s.lastOfGroup a = false → s.ctxIn [.stepping] = none →
        exec (.linkCtrl r) s = replies r p (t.linkChange (a, false)) 0 0))
    ∧ (Accepted (.timeCtrl r) s r p → s.ctxIn [.stepping] = none →
      (a = 0 → ∃ u, exec (.timeCtrl r) s = replies r p u 0 0 ∧ u.stb.st = .master ∧ u = { t with stb := u.stb }
        ∧ u.stb.time = if s.stb.st = .free then pf p 32 8 * 65536 else s.stb.time)
      ∧ (a = 1 → ∀ g, (s.ctxAt (pktCtx p)).cfg = some g → ∃ u, exec (.timeCtrl r) s = served r u ∧ u.stb.st = .acquire
        ∧ u.stb.gm = some { x := b, y := pf p 30 1, z := pf p 31 1 } ∧ u.stb.follow = some (r, s.stb.ticks)
        ∧ u.stb.time = s.stb.time ∧ u = { t with stb := u.stb })
      ∧ (a = 2 → ∃ u, exec (.timeCtrl r) s = replies r p u 0 0 ∧ u.stb.st = .free ∧ u.stb.time = s.stb.time
        ∧ u = { t with stb := u.stb }))
    ∧ (Accepted (.setPowerLimit r) s r p →
      let l : LimitSt := if b = 1 then { en := true, limit := pf p 32 4, ms := pf p 30 2 } else .off
      exec (.setPowerLimit r) s = replies r p { t with pmc := if a = 0 then { s.pmc with hostWin := l } else { s.pmc with hostRail := l } } 0 0)
    ∧ (Accepted (.runRadish r) s r p → s.ctxIn [.stepping, .saving, .restoring] = none →
      s.regionMeets (pf p 40 8) (pf p 48 8) = none → exec (.runRadish r) s = served r { t with radishRun := some r })
    ∧ (Accepted (.clearErrors r) s r p →
      let gs := maskRegs (pf p 28 4)
      t.outErr p (16 + 8 * gs.length) = none → exec (.clearErrors r) s =
        outputs r p (gs.foldl (fun (v : State) g => if v.hasReg g then v.regClear g true true else v) t)
          (leBytes 4 (pf p 28 4) ++ leBytes 4 gs.length ++ leBytes 8 t.stbTicks ++ gs.flatMap fun g => leBytes 8 (t.peek g))
          0 0)
    ∧ (Accepted (.fwUpdate r) s r p → ∀ im, t.inBuf p = some im →
      (fwAuthentic s.fuse (fwImage im) = false → exec (.fwUpdate r) s = replies r p t 0x50 0)
      ∧ (fwAuthentic s.fuse (fwImage im) = true → fwArb (fwImage im) < s.fuse.arb →
        exec (.fwUpdate r) s = replies r p t 0x51 s.fuse.arb)
      ∧ (fwAuthentic s.fuse (fwImage im) = true → s.fuse.arb ≤ fwArb (fwImage im) → exec (.fwUpdate r) s =
        served r { t with fw := { busy := some r, image := fwImage im, toB := !s.sec.copyB } }))

/-- A FOLLOW of 10,000,000 ticks that is not LOCKED replies STB_UNLOCKED with the state. A Radish run whose kernels
all pass leaves scratchpads, SRAM and the HBM range of its kernels undefined and writes its report with OK; one with a failing kernel has the effect
of each result and replies RADISH_FAIL with the first failing kernel and its die. A firmware write leaves the image in
its copy, or erased and FW_AUTH. A training with failed members replies LINK_TRAIN with them; one of LINK_CTRL that
succeeds replies OK; one of VERIFY_CONFIG goes on with its checks. (R704, R706, R754, R756, R708, R683, R703, R485,
14_command_interface) -/
def Obligations.PackageOperationsFinish : Prop :=
  ∀ (s : State) (r : Fin 8) (q : CurCmd), (s.ringAt r.val).cur = some q →
    (∀ t0, s.stb.follow = some (r, t0) → t0 + 10000000 ≤ s.stb.ticks → s.stb.st ≠ .locked → exec .timeCtrlTimeout s =
      replies r q.pkt { s with stb := { s.stb with follow := none } } 0x30 s.stb.st.code)
    ∧ (∀ ks : List RadishRes, s.radishRun = some r →
      let u := ks.foldl (fun (a : State) k => a.radishResult k) { s with radishRun := none }
      let v := ({ u with free := u.free + 2, mem := { u.mem with spm := .undef u.free, sram := .undef (u.free + 1) } } :
        State).radishHbm q.pkt
      (u.ringAt r.val).cur = some q → v.outErr q.pkt (16 + 16 * ks.length) = none →
      (radishReport s.stbTicks ks).length = 16 + 16 * ks.length
      ∧ ((∀ k, k ∈ ks → k.result ≠ 1) → exec (.radishKernelsFinished ks) s =
        outputs r q.pkt v (radishReport v.stbTicks ks) 0 0)
      ∧ (∀ a k b, ks = a ++ k :: b → k.result = 1 → (∀ j, j ∈ a → j.result ≠ 1) → exec (.radishKernelsFinished ks) s =
        outputs r q.pkt v (radishReport v.stbTicks ks) 0x61 (k.kernel.toNat + 65536 * (k.die.toNat % 4))))
    ∧ (∀ ok : Bool, s.fw.busy = some r →
      let c := if ok then s.fw.image else blankFlash
      exec (.flashWriteComplete ok) s =
        replies r q.pkt { s with fw := { s.fw with busy := none },
                                 mem := if s.fw.toB then { s.mem with flashB := c } else { s.mem with flashA := c } }
          (if ok then 0 else 0x50) 0)
    ∧ (∀ (mask failed : BitVec 24) (rest : List (Fin 8 × BitVec 24)), s.net.linkTrain = (r, mask) :: rest →
      let t := { s with net := { s.net with linkTrain := rest } }
      let ms := (List.range 24).filter fun j => mask.getLsbD j
      let done := ms.foldl (fun (a : State) m => a.trained (!(mask &&& failed).getLsbD m) m) t
      (∀ m, m < 24 → mask.getLsbD m = true → (s.memberAt m).st = .training →
        (done.memberAt m).st = if failed.getLsbD m then .withdrawn else .active)
      ∧ (mask &&& failed ≠ 0 → exec (.memberTrainingComplete failed) s =
        replies r q.pkt (if pktOp q.pkt = 0x41 then done else done.dropShadow (pktCtx q.pkt)) 0x25 (mask &&& failed).toNat)
      ∧ (mask &&& failed = 0 → pktOp q.pkt = 0x41 → s.ctxIn [.stepping] = none →
        exec (.memberTrainingComplete failed) s = replies r q.pkt done 0 0)
      ∧ (mask &&& failed = 0 → pktOp q.pkt = 0x41 → s.ctxIn [.stepping] ≠ none →
        exec (.memberTrainingComplete failed) s =
          replies r q.pkt { t with net := { t.net with linkSched := s.net.linkSched ++ ms.map fun m => (m, true) } } 0 0)
      ∧ (mask &&& failed = 0 → pktOp q.pkt ≠ 0x41 →
        exec (.memberTrainingComplete failed) s = served r (done.finishVerify r.val q.pkt)))

/-- CREATE of a region of whole GiB in the HBM that meets no other, holds its reserve and agrees with the interleave
in force makes the context IDLE where none is resident, and it is resident then, else SAVED; the first context of all
sets the interleave. SAVE starts at once without uncommitted steps and else waits for a boundary. RESTORE begins where
no context is resident, waits for a save, else replies CTX_RESIDENT. DESTROY discards the steps and starts the scrub,
or waits for a save or a restore. Other contexts keep their state. (R667, R668, R669, R670, R672, R674, R676,
14_command_interface) -/
def Obligations.ContextCommandsTakeEffect : Prop :=
  ∀ (s : State) (r : Fin 8) (p : BitVec 512),
    let t := s.takeEntry r.val p
    let c := pktCtx p
    let x := s.ctxAt c
    (Accepted (.contextCreate r) s r p →
      let base := pf p 32 8
      let bytes := pf p 40 8
      base % 2 ^ 30 = 0 → base < s.hbmBytes → bytes % 2 ^ 30 = 0 → bytes ≠ 0 → base + bytes ≤ s.hbmBytes →
      s.regionMeets base bytes = none → s.saveBytes + 2 * (pf p 48 4 + pf p 52 4) * 2 ^ 20 ≤ bytes →
      ((∀ k, k < 4 → (s.ctxAt k).st = .free) ∨ pf p 56 1 = b2n s.globalIl) →
      ∃ u, exec (.contextCreate r) s = replies r p u 0 0 ∧ OtherContexts s u c
        ∧ u = { t with ctx := u.ctx, resident := u.resident, globalIl := u.globalIl, cm := u.cm }
        ∧ u.ctxAt c = { CtxSt.reset with
            st := if s.resident.isNone then .idle else .saved, base := base, bytes := bytes, imgMib := pf p 48 4,
            cfgMib := pf p 52 4, evtEvery := pf p 58 2, lsec := x.lsec,
            evtRing := if pf p 57 1 < 8 then some (Fin.ofNat 8 (pf p 57 1)) else none }
        ∧ u.resident = (if s.resident.isNone then some (Fin.ofNat 4 c) else s.resident)
        ∧ ((∀ k, k < 4 → (s.ctxAt k).st = .free) → u.globalIl = (pf p 56 1 == 1))
        ∧ ((∃ k, k < 4 ∧ (s.ctxAt k).st ≠ .free) → u.globalIl = s.globalIl))
    ∧ (Accepted (.contextSave r) s r p →
      (x.steps = [] → exec (.contextSave r) s =
        replies r p (t.modCtx c fun x => { x with st := .saving, saveSched := false }) 0 0)
      ∧ (x.steps ≠ [] → exec (.contextSave r) s = replies r p (t.modCtx c fun x => { x with saveSched := true }) 0 0))
    ∧ (Accepted (.contextRestore r) s r p →
      (s.resident = none → ∃ u, exec (.contextRestore r) s = served r u ∧ OtherContexts s u c
        ∧ u.ctxAt c = { x with st := .restoring, restoreWait := false } ∧ u.resident = some (Fin.ofNat 4 c)
        ∧ (∀ g i, x.cfg = some g → i < s.ios → (u.mktAt i).pendCfg = some g.market))
      ∧ (∀ o y, s.cur = some (o, y) → (y.st = .saving ∨ y.saveSched = true) →
        exec (.contextRestore r) s = served r (t.modCtx c fun x => { x with restoreWait := true }))
      ∧ (∀ o y, s.cur = some (o, y) → y.st ≠ .saving → y.saveSched = false →
        exec (.contextRestore r) s = replies r p t 0x41 o.val))
    ∧ (Accepted (.contextDestroy r) s r p →
      ((x.st = .saving ∨ x.st = .restoring) →
        exec (.contextDestroy r) s = served r (t.modCtx c fun x => { x with destroyWait := true }))
      ∧ (x.st ≠ .saving → x.st ≠ .restoring → ∃ u, exec (.contextDestroy r) s = served r u ∧ OtherContexts s u c
        ∧ u.ctxAt c = { x with
            st := .destroying, destroyWait := false, saveSched := false, steps := [], next := none, remain := none,
            unbounded := false, haltAfter := none, haltTo := none, halted := false, haltRec := false }))

/-- LOAD_IMAGE with one pending replies WRONG_STATE, one larger than its area AREA_SMALL, one that a check rejects
that check's status; an image that passes, alone and against the configuration of the next step, is active at once
where no step is uncommitted and else pending. LOAD_CONFIG with a swap pending replies SWAP_PENDING; a configuration
that reads becomes the unverified shadow, another empties it. VERIFY_CONFIG without a shadow replies CFG_NOT_VERIFIED.
SWAP_CONFIG of a verified shadow exchanges the two at once in IDLE and at the boundary it names, else it waits for it. (R687, R688,
R689, R690, R680, R681, R683, R684, R685, 14_command_interface) -/
def Obligations.ImagesAndConfigurationsLoad : Prop :=
  ∀ (s : State) (r : Fin 8) (p : BitVec 512),
    let t := s.takeEntry r.val p
    let c := pktCtx p
    let x := s.ctxAt c
    let len := pf p 24 4
    (Accepted (.loadImage r) s r p →
      (x.pendImg ≠ none → exec (.loadImage r) s = replies r p t 7 x.st.code)
      ∧ (x.pendImg = none → x.imgMib * 2 ^ 20 < len → exec (.loadImage r) s = replies r p t 0x14 len)
      ∧ (x.pendImg = none → len ≤ x.imgMib * 2 ^ 20 → t.inBuf p = none → exec (.loadImage r) s = replies r p t 9 0)
      ∧ (∀ b, x.pendImg = none → len ≤ x.imgMib * 2 ^ 20 → t.inBuf p = some b →
        let area := x.img.any fun i => !i.area
        let v := t.hbmWrite none (s.imgArea x area) b
        let cfg := if x.swapsAt x.highest true then x.shadow else x.cfg
        (∀ e, v.imgReject x b = some e → exec (.loadImage r) s = replies r p v e.1 e.2)
        ∧ (∀ d, v.imgReject x b = none → v.pairCheck x (some (imgOf b area)) cfg x.nextNo = some d →
          exec (.loadImage r) s = replies r p v 0x26 d)
        ∧ (v.imgReject x b = none → v.pairCheck x (some (imgOf b area)) cfg x.nextNo = none → x.steps = [] →
          exec (.loadImage r) s = replies r p (v.applyImage c (imgOf b area)) 0 0)
        ∧ (v.imgReject x b = none → v.pairCheck x (some (imgOf b area)) cfg x.nextNo = none → x.steps ≠ [] →
          exec (.loadImage r) s = replies r p (v.modCtx c fun x => { x with pendImg := some (imgOf b area) }) 0 0)))
    ∧ (Accepted (.loadConfig r) s r p →
      (∀ k, x.swapAt = some k → exec (.loadConfig r) s = replies r p t 0x24 k.toNat)
      ∧ (x.swapAt = none → x.cfgMib * 2 ^ 20 < len → exec (.loadConfig r) s = replies r p t 0x14 len)
      ∧ (∀ b, x.swapAt = none → len ≤ x.cfgMib * 2 ^ 20 → t.inBuf p = some b →
        let v := t.hbmWrite none (s.cfgAreaOf x !x.cfgArea) b
        (∀ e, v.readCfg c b = .inl e → exec (.loadConfig r) s =
          replies r p (v.modCtx c fun x => { x with shadow := none, verified := false }) e.1 e.2)
        ∧ (∀ g, v.readCfg c b = .inr g → exec (.loadConfig r) s =
          replies r p (v.modCtx c fun x => { x with shadow := some g, verified := false }) 0 0)))
    ∧ (Accepted (.verifyConfig r) s r p →
      (x.shadow = none → exec (.verifyConfig r) s = replies r p t 0x23 0)
      ∧ (∀ g e, x.shadow = some g → t.readCfg c g.raw = .inl e → exec (.verifyConfig r) s =
          replies r p (t.modCtx c fun x => { x with shadow := none, verified := false }) e.1 e.2)
      ∧ (∀ g h, x.shadow = some g → t.readCfg c g.raw = .inr h →
        (∀ j, j < s.links → h.topo.memberEn.getLsbD j = true →
          (s.memberAt j).st ≠ .disabled ∧ (s.memberAt j).st ≠ .withdrawn) →
        t.pairCheck x (x.pendImg <|> x.img) (some g) x.nextNo = none →
        exec (.verifyConfig r) s = replies r p (t.modCtx c fun x => { x with verified := true }) 0 0))
    ∧ (Accepted (.swapConfig r) s r p →
      ((x.shadow = none ∨ x.verified = false) → exec (.swapConfig r) s = replies r p t 0x23 0)
      ∧ (∀ g, x.shadow = some g → x.verified = true → x.lsec.wrongJob true g.job = false →
        let at_ : BitVec 64 := BitVec.ofNat 64 (pf p 32 8)
        t.pairCheck x (x.pendImg <|> x.img) (some g) (if at_ = 0 then x.nextNo else at_.toNat + 1) = none →
        (x.st = .idle ∨ (x.st = .stepping ∧ x.steps = [] ∧ at_ ≠ 0 ∧ at_ = x.highest) →
          ∃ u, exec (.swapConfig r) s = replies r p u 0 0 ∧ OtherContexts s u c ∧ (u.ctxAt c).cfg = some g ∧ (u.ctxAt c).shadow = x.cfg ∧ (u.ctxAt c).verified = false
          ∧ (u.ctxAt c).cfgArea = !x.cfgArea ∧ (u.ctxAt c).swapAt = none)
        ∧ (x.st = .stepping → x.highest < at_ ∨ at_ = 0 ∨ (at_ = x.highest ∧ x.steps ≠ []) → exec (.swapConfig r) s =
          replies r p (t.modCtx c fun x => { x with swapAt := some at_ }) 0 0)))

/-- START_STEPS with SRC 0, an LS_EXP in its bounds, what it checks in order and a pair that agrees makes the context
STEPPING at STEP0 with NSTEPS steps to run, 0 for no limit; SRC 1 takes the newest record, whose step must be STEP0 -
1, and RESUME the same without a STEP0. A check that fails replies its status and changes nothing. HALT sets the last
step, refuses one already passed, and at the step in hand with none uncommitted makes the context IDLE with event
HALTED. ABORT_STEP aborts every uncommitted step that is not being written, and replies WRONG_STATE where there is
none. (R692, R693, R694, R697, R698, R699, R700, R701, 14_command_interface) -/
def Obligations.StepCommandsTakeEffect : Prop :=
  ∀ (s : State) (r : Fin 8) (p : BitVec 512),
    let t := s.takeEntry r.val p
    let c := pktCtx p
    let x := s.ctxAt c
    let begun := fun (u : State) (step0 : BitVec 64) (n : Nat) (fin : TrainSt) => OtherContexts s u c
      ∧ u.ctxAt c = { x with
          st := .stepping, steps := [], next := some step0, unbounded := n == 0,
          remain := if n = 0 then none else some n, haltAfter := none, saveSched := false, haltTo := none, cause := 0,
          fin := fin, halted := false, haltRec := false }
    (Accepted (.startSteps r) s r p →
      (∀ e, t.startErr x (pf p 28 1) = some e → exec (.startSteps r) s = replies r p t e.1 e.2)
      ∧ (∀ im g, x.img = some im → x.cfg = some g → t.startErr x (pf p 28 1) = none →
        (pf p 28 1 = 0 →
          let ls := asInt 8 (pf p 30 1)
          ((ls < g.opt.lsMin ∨ g.opt.lsMax < ls) → exec (.startSteps r) s = replies r p t 2 30)
          ∧ (g.opt.lsMin ≤ ls → ls ≤ g.opt.lsMax → t.pairErr x im g = none → ∃ u, exec (.startSteps r) s = served r u
            ∧ begun u (BitVec.ofNat 64 (pf p 32 8)) (pf p 40 8) (trainFresh ls)))
        ∧ (pf p 28 1 = 1 → ∀ b, s.newestRec c = some b →
          (recStep b + 1 ≠ BitVec.ofNat 64 (pf p 32 8) → exec (.startSteps r) s = replies r p t 0x31 (fld b 8 8))
          ∧ (recStep b + 1 = BitVec.ofNat 64 (pf p 32 8) → t.pairErr x im g = none → pf p 29 1 = 0 →
            ∃ u, exec (.startSteps r) s = served r u ∧ begun u (recStep b + 1) (pf p 40 8) (trainOf b)))
        ∧ (pf p 28 1 = 2 → t.inRegion x (pf p 48 8) 4096 = false → exec (.startSteps r) s = replies r p t 2 48)
        ∧ (pf p 28 1 = 2 → t.inRegion x (pf p 48 8) 4096 = true →
          let q := t.physRead (.command (Fin.ofNat 4 c)) none (pf p 48 8) 4096
          recValid q.2 = true → recStep q.2 + 1 = BitVec.ofNat 64 (pf p 32 8) → q.1.pairErr x im g = none →
          pf p 29 1 = 0 → ∃ u, exec (.startSteps r) s = served r u
            ∧ begun u (recStep q.2 + 1) (pf p 40 8) (trainOf q.2) ∧ u.jdRead (recSlot c (recStep q.2)) 4096 = q.2)))
    ∧ (Accepted (.resume r) s r p →
      (∀ e, t.startErr x 1 = some e → exec (.resume r) s = replies r p t e.1 e.2)
      ∧ (∀ im g b, x.img = some im → x.cfg = some g → t.startErr x 1 = none → s.newestRec c = some b →
        t.pairErr x im g = none →
        ∃ u, exec (.resume r) s = served r u ∧ begun u (recStep b + 1) (pf p 40 8) (trainOf b)))
    ∧ (Accepted (.halt r) s r p →
      let a : BitVec 64 := BitVec.ofNat 64 (pf p 32 8)
      let k := if a = 0 then x.highest else a
      let v := (t.modCtx c fun x => { x with haltAfter := some k }).reply r.val p 0 0 0
      (a ≠ 0 → a < x.highest → exec (.halt r) s = replies r p t 7 (x.st.code + 256 * x.highest.toNat))
      ∧ (x.highest ≤ k → (x.steps ≠ [] ∨ k ≠ x.highest) → exec (.halt r) s = served r v)
      ∧ (x.steps = [] → k = x.highest → exec (.halt r) s = served r ((v.modCtx c fun x =>
          { x with st := .idle, haltAfter := none, remain := none, unbounded := false, next := none }).event c 0x8003
            s.cm.last.toNat)))
    ∧ (Accepted (.abortStep r) s r p →
      let hot := x.steps.filter fun k => k.abortable && k.st != .committing
      (hot = [] → exec (.abortStep r) s = replies r p t 7 x.st.code)
      ∧ (hot ≠ [] → exec (.abortStep r) s = replies r p (t.abortSteps c (hot.map (·.no)) true) 0 0))

/-- While the region's stacks serve, with no destroy waiting: SAVE_COMPLETE leaves the context SAVED with its stores and crossings held,
no context resident, and event SAVED; a restore that waits alone then begins. CONTEXT_RESTORE_COMPLETE, once the
Markets have swapped, copies stores and crossings back, makes the context STEPPING where steps remain and else IDLE,
and replies; a halt recorded meanwhile discards the steps. CONTEXT_SCRUB_COMPLETE makes the region of HBM and the
record slots read zero, the context FREE, and replies; HBM outside the region keeps its bytes. (R673, R674, R675,
R676, R742, R350, 14_command_interface) -/
def Obligations.SavesRestoresAndScrubsFinish : Prop :=
  ∀ (s : State) (c : Fin 4),
    let x := s.ctxAt c.val
    (s.regionServed x = false → (x.st = .saving → exec (.saveComplete c) s = .next s)
      ∧ (x.st = .restoring → exec (.contextRestoreComplete c) s = .next s)
      ∧ (x.st = .destroying → exec (.contextScrubComplete c) s = .next s))
    ∧ (s.regionServed x = true → x.st = .saving → x.destroyWait = false →
      ∃ u, (∃ v, v.resident = none ∧ v.ctxAt c.val = { x with
                st := .saved, savedX := s.sync.xcnt, savedSpm := some s.mem.spm, savedSram := some s.mem.sram }
            ∧ OtherContexts s v c.val ∧ v = { s with ctx := v.ctx, resident := v.resident, eng := v.eng, ue := v.ue }
            ∧ u = (v.event c.val 0x8005 s.cm.last.toNat).refreshCm)
        ∧ ((∀ k, k < 4 → (s.ctxAt k).restoreWait = false) → exec (.saveComplete c) s = .next u)
        ∧ (∀ k, k < 4 → k ≠ c.val → (s.ctxAt k).restoreWait = true →
            (∀ j, j < 4 → j ≠ k → (s.ctxAt j).restoreWait = false) →
            exec (.saveComplete c) s = .next (u.beginRestore k)))
    ∧ (s.regionServed x = true → x.st = .restoring → (s.mktAt 0).pendCfg = none → (s.mktAt 1).pendCfg = none → x.destroyWait = false →
      ∃ u, u.sync = { s.sync with xcnt := x.savedX } ∧ OtherContexts s u c.val
        ∧ u.mem = { s.mem with spm := x.savedSpm.getD s.mem.spm, sram := x.savedSram.getD s.mem.sram }
        ∧ u = { s with sync := u.sync, mem := u.mem, ctx := u.ctx }
        ∧ (x.haltRec = false → u.ctxAt c.val = { x with
              st := if x.unbounded || decide (0 < x.remain.getD 0) then .stepping else .idle, savedX := [],
              savedSpm := none, savedSram := none }
            ∧ exec (.contextRestoreComplete c) s = .next (u.replyWaiting [0x12] c.val 0 0))
        ∧ (x.haltRec = true → u.ctxAt c.val = { x with
              st := .idle, savedX := [], savedSpm := none, savedSram := none, haltRec := false, next := none,
              remain := none, unbounded := false, haltAfter := none }
            ∧ exec (.contextRestoreComplete c) s =
              .next ((u.event c.val 0x8004 s.cm.last.toNat).replyWaiting [0x12] c.val 0 0)))
    ∧ (s.regionServed x = true → x.st = .destroying → (∀ k, k < 4 → k ≠ c.val → (s.ctxAt k).restoreWait = false) →
      ∃ u, exec (.contextScrubComplete c) s = .next (u.replyWaiting [0x13] c.val 0 0)
        ∧ u.ctxAt c.val = { CtxSt.reset with lsec := x.lsec } ∧ OtherContexts s u c.val
        ∧ (∀ a, x.base ≤ a → a < x.base + x.bytes → tget 0#8 u.mem.hbm a = 0)
        ∧ (∀ a, a < x.base ∨ x.base + x.bytes ≤ a → tget 0#8 u.mem.hbm a = tget 0#8 s.mem.hbm a)
        ∧ u.jdRead (0x8000 + c.val * 0x2000) 0x2000 = List.replicate 0x2000 0#8
        ∧ (s.resident = some c → u.resident = none ∧ u.mem.spm.gen = none ∧ u.mem.spm.cells = []
            ∧ u.mem.sram.cells = [] ∧ u.sync.xcnt = [])
        ∧ (s.resident ≠ some c → u.resident = s.resident ∧ u.mem.spm = s.mem.spm ∧ u.mem.sram = s.mem.sram))

/-- For every Citis command: a packet that is rejected has its reply and no other effect, in the order RING, fields,
lock, context, state. A ring that may not take an entry, or whose entry is of another command or waits for a stack
of its region, leaves the package as it was; a queue in host memory that does not answer stops its ring. A reply is 32 bytes at the completion TAIL with
TAG, STATUS, RING, PHASE, DETAIL, STB and length; TAIL rises and a wanted interrupt follows. A full ring keeps it
waiting; after a hot reset there is none. (R350, R654, R659, R643, R650, R655, R646, R651, R652, 14_command_interface) -/
def Obligations.RingsRejectAndReply : Prop :=
  (∀ (s : State) (c : Instr) (r : Fin 8) (f : CmdForm), citisForm c = some (r, f) →
    (s.ringReady r.val = false → exec c s = .next s)
    ∧ (s.ringReady r.val = true → s.entryAt r.val = none → exec c s = .next (s.ringFault r.val))
    ∧ (∀ p, s.ringReady r.val = true → s.entryAt r.val = some p →
      (pktOp p ≠ f.op ∨ s.hbmWaits r.val f p = true → exec c s = .next s)
      ∧ (pktOp p = f.op → ∀ e, s.cmdReject r.val f p = some e → exec c s = replies r p (s.takeEntry r.val p) e.1 e.2)
      ∧ (pf p 3 1 ≠ r.val → s.cmdReject r.val f p = some (3, 0))
      ∧ (pf p 3 1 = r.val → ∀ off, pktBad p (f.ctxOk (pktCtx p)) (f.vals s p) f.used = some off →
          s.cmdReject r.val f p = some (2, off))
      ∧ (pf p 3 1 = r.val → pktBad p (f.ctxOk (pktCtx p)) (f.vals s p) f.used = none → cmdClass f.op = some .context →
          (∀ q k, q < 8 → q ≠ r.val → (s.ringAt q).cur = some k → cmdClass (pktOp k.pkt) = some .context →
            pktCtx k.pkt = pktCtx p → ∃ d, s.cmdReject r.val f p = some (5, d))
          ∧ (s.lockHeld r.val .context (pktCtx p) = none →
            ((s.ctxAt (pktCtx p)).st = .free → f.op ≠ 0x10 → s.cmdReject r.val f p = some (4, 0))
            ∧ ((s.ctxAt (pktCtx p)).st ≠ .free → f.op ≠ 0x10 → f.accepts (s.ctxAt (pktCtx p)).st = false →
              s.cmdReject r.val f p = some (7, (s.ctxAt (pktCtx p)).st.code))))))
  ∧ (∀ (s : State) (r : Fin 8) (p : BitVec 512) (st d n : Nat),
    let q := s.ringAt r.val
    let a := q.cqAddr.toNat * 4096 + 32 * (q.cqTail.toNat % 256)
    let u := s.reply r.val p st d n
    (q.mute = true → u = s.modRing r.val fun q => { q with cur := none, mute := false })
    ∧ (q.mute = false → q.full = true ∨ q.waiting ≠ [] → (u.ringAt r.val).cur = none
      ∧ (u.ringAt r.val).waiting.length = q.waiting.length + 1 ∧ u.mem = s.mem ∧ u.msix = s.msix)
    ∧ (q.mute = false → q.full = false → q.waiting = [] → s.hostOk a 32 = false → u.mem = s.mem
      ∧ (u.ringAt r.val).stopped = true ∧ (u.ringAt r.val).badAddr = true)
    ∧ (q.mute = false → q.full = false → q.waiting = [] → s.hostOk a 32 = true → s.stbTicks < 2 ^ 64 →
      let b := u.hostRead a 32
      fld b 0 4 = bits p.toNat 63 32 ∧ fld b 4 2 = st % 2 ^ 16 ∧ fld b 6 1 = r.val
      ∧ fld b 7 1 = 1 - q.cqTail.toNat / 256 % 2 ∧ fld b 8 8 = d % 2 ^ 64 ∧ fld b 16 8 = s.stbTicks
      ∧ fld b 24 4 = n % 2 ^ 32 ∧ fld b 28 4 = 0
      ∧ (∀ j, j < a ∨ a + 32 ≤ j → tget 0#8 u.mem.host j = tget 0#8 s.mem.host j)
      ∧ u.ringAt r.val = { q with cur := none, mute := false, cqTail := q.cqTail + 1 }
      ∧ (∀ j, j ≠ r.val → u.ringAt j = s.ringAt j)
      ∧ u.msix = if q.irqEn && bitOf p.toNat 16 then (s.raise r.val).msix else s.msix))

/-- Before stage 5 only the host's own writes to its memory take effect. DOORBELL sets TAIL and the ring is served; a
TAIL more than 256 past HEAD stops it with RING_OVERRUN. RING_ENABLE sets all four pointers to 0 and clears the stop;
RING_DISABLE stops the ring and keeps its pointers. COMPLETION_HEAD_WRITE sets HEAD, writes what waited and serves the
ring; a HEAD that more than 256 entries would follow is ignored. (R642, R644, R646, R647, R648, R819,
14_command_interface) -/
def Obligations.RingRegistersAct : Prop :=
  ∀ (s : State) (r : Fin 8) (ws : List HostWrite),
    let h := s.hostWrites ws
    let q := s.ringAt r.val
    (s.ready = false → ∀ (v : BitVec 16) (b : Bool), exec (.doorbell r ws v) s = .next h
      ∧ exec (.ringEnable r ws b) s = .next h ∧ exec (.ringDisable r b) s = .next s
      ∧ exec (.completionHeadWrite r v) s = .next s)
    ∧ (s.ready = true → ∀ (v : BitVec 16) (b : Bool),
      ((v - q.sqHead).toNat ≤ 256 →
        exec (.doorbell r ws v) s = .next ((h.modRing r.val fun q => { q with sqTail := v }).pumpRing r.val 256))
      ∧ (256 < (v - q.sqHead).toNat → Does (.doorbell r ws v) s fun t =>
        t = h.modRing r.val fun q => { q with sqTail := v, overrun := true, stopped := true })
      ∧ exec (.ringEnable r ws b) s = .next (h.modRing r.val fun q =>
          { q with en := true, irqEn := b, sqTail := 0, sqHead := 0, cqHead := 0, cqTail := 0, stopped := false })
      ∧ exec (.ringDisable r b) s = .next (s.modRing r.val fun q => { q with en := false, irqEn := b, stopped := true })
      ∧ ((q.cqTail - v).toNat ≤ 256 → ∃ u : State, exec (.completionHeadWrite r v) s = .next (u.pumpRing r.val 256)
        ∧ (u.ringAt r.val).cqHead = v ∧ (u.ringAt r.val).sqTail = q.sqTail ∧ (u.ringAt r.val).sqHead = q.sqHead
        ∧ (q.waiting = [] → u = s.modRing r.val fun q => { q with cqHead := v })
        ∧ u = { s with rings := u.rings, mem := { s.mem with host := u.mem.host }, msix := u.msix })
      ∧ (256 < (q.cqTail - v).toNat → exec (.completionHeadWrite r v) s = .next s))

/-- An access that is not aligned returns zero and changes nothing else. An aligned 32-bit read of a register by an
agent that no other's sequence keeps away returns its low half, clears its RC fields, and for a 64-bit one latches the
high half, which the next read of that half returns. A read of the target of another agent's open sequence returns
zero and sets its LOCK_BUSY bit. The STB is read whole in two halves. Between its bounds MEM_SCRUB_CFG takes what is
written, or is locked and LOCK_VIOL is set; outside them it keeps its value. (R10, R12, R838, R855, R857, R456, R356,
18_registers_and_management, 00_scope) -/
def Obligations.RegistersReadAndWrite : Prop :=
  ∀ (s : State) (a : Agent) (addr : BusAddr),
    let ret : State → BitVec 64 → Out := fun u v => .next (u.modBus a fun b => { b with data := v })
    (∀ wide v, busAligned addr wide = false →
      exec (.clearingRead a addr wide) s = ret s 0 ∧ exec (.registerWrite a addr wide v) s = .next s)
    ∧ (∀ u off g, busAligned addr false = true → s.busPlace a addr = .reg u off false → off < 0x400000 →
      s.regAt u off = some g →
      (s.keyedAway a u off = true → exec (.clearingRead a addr false) s = ret (s.lockBusy a) 0)
      ∧ (s.keyedAway a u off = false → (a ≠ .host ∨ g ≠ .fruData 0) →
        let v := s.regRead u off g
        let l := if g.wide then s.latchHigh a u off (BitVec.ofNat 32 (v.toNat / 2 ^ 32)) else s
        exec (.clearingRead a addr false) s = ret (l.regClear g true g.wide) (BitVec.ofNat 64 (v.toNat % 2 ^ 32))))
    ∧ (∀ u off g (h : BitVec 32), busAligned addr false = true → s.busPlace a addr = .reg u (off + 4) false →
      off + 4 < 0x400000 → s.regAt u (off + 4) = none → s.regAt u off = some g → g.wide = true →
      tget none (tget .reset s.bus (agentNo a)).latch (rsvKey u off) = some h →
      exec (.clearingRead a addr false) s =
        ret (s.modBus a fun b => { b with latch := tset none b.latch (rsvKey u off) none }) (BitVec.ofNat 64 h.toNat))
    ∧ (∀ k, s.sec.seq = some k → k.live = true → k.agent ≠ a → (s.regAt k.unit k.target).isSome = true →
      (a = .host → s.ready = true) → (a = .debug → s.sec.scope.getLsbD 1 = true) →
      exec (.targetRegisterRead a) s = ret (s.lockBusy a) 0)
    ∧ ((a = .host → s.ready = true) → (a = .debug → s.sec.scope.getLsbD 1 = true) → s.keyedAway a 4 0x2050 = false →
      Does (.stbTimeLowRead a) s fun t => (tget .reset t.bus (agentNo a)).data = BitVec.ofNat 64 (s.stbTicks % 2 ^ 32)
        ∧ tget none (tget .reset t.bus (agentNo a)).latch (rsvKey 4 0x2050) = some (BitVec.ofNat 32 (s.stbTicks / 2 ^ 32))
        ∧ t = { s with bus := t.bus })
    ∧ (∀ u off (d : Nat) (v : BitVec 64), busAligned addr false = true → s.busPlace a addr = .reg u off false →
      off < 0x400000 → s.regAt u off = some (.scrubCfg d) → v.toNat < 2 ^ 25 → s.sec.seq = none →
      let old := tget 0x3EBE8#32 s.scrub d
      let n := BitVec.ofNat 32 v.toNat
      Does (.registerWrite a addr false v) s fun t =>
        ((1000 ≤ n.toNat ∧ n.toNat ≤ 257000 ∧ (tget .reset s.memLock d).lock = false) → tget 0x3EBE8#32 t.scrub d = n)
        ∧ ((n.toNat < 1000 ∨ 257000 < n.toNat ∨ (tget .reset s.memLock d).lock = true) → t.scrub = s.scrub)
        ∧ (1000 ≤ n.toNat → n.toNat ≤ 257000 → n ≠ old → (tget .reset s.memLock d).lock = true →
          (tget .reset t.memLock d).viol = true)
        ∧ t = { s with scrub := t.scrub, memLock := t.memLock, rsv := t.rsv })

/-- PCIE_HOT_RESET has a next state in which every ring is disabled and stopped, and nothing but the rings has
changed: contexts and steps go on. On rings in canonical form a command in progress stays in progress, and it then
writes no reply: the reply of such a command writes no entry, moves no TAIL and raises no interrupt. (R651) -/
def Obligations.HotResetSilencesEveryRing : Prop :=
  ∀ s : State,
    (Does .pcieHotReset s fun t => t = { s with rings := t.rings } ∧ ∀ r,
      (t.ringAt r).en = false ∧ (t.ringAt r).stopped = true
      ∧ (canon RingSt.reset s.rings = true →
        (t.ringAt r).cur = (s.ringAt r).cur ∧ (t.ringAt r).mute = (s.ringAt r).cur.isSome
        ∧ (∀ (u : State) p st d n, u.ringAt r = t.ringAt r → (s.ringAt r).cur ≠ none →
          u.reply r p st d n = u.modRing r fun q => { q with cur := none, mute := false })))

/-- A write of the key with the code of a register that takes a keyed write, while no other agent's sequence is open,
opens a window for it; a wrong key sets SEQ_FAIL; another's open window sets LOCK_BUSY. A lock register written 1 with
its keyed write becomes locked; without one it stays and SEQ_FAIL is set. LSEC_CTL with LOAD and its keyed write takes
the staged key into a context that is not STEPPING and clears the staging. The window ends after 64 cycles. A right
token adds its scope; each token draws a new challenge; three failures disable the path. DBG_RELOCK closes it. (R837,
R839, R840, R848, R849, R832, R833, R842, R843, R844, 17_security_and_boot) -/
def Obligations.KeyedWritesAndDebug : Prop :=
  ∀ (s : State) (a : Agent), (a = .host → s.ready = true) → (a = .debug → s.sec.scope.getLsbD 1 = true) →
    (∀ (v : BitVec 32) (u off : Nat), u = bits v.toNat 23 21 → off = 4 * bits v.toNat 20 0 → s.keyedAway a 4 8 = false →
      s.keyUse a 4 8 = .plain →
      let busy := ∃ k, s.sec.seq = some k ∧ k.live = true ∧ k.agent ≠ a
      (busy → exec (.keyWrite a v) s = .next (s.lockBusy a))
      ∧ (¬busy → bits v.toNat 31 24 = 0xA5 → (s.regAt u off).any Reg.keyed = true → exec (.keyWrite a v) s =
          .next (s.modSec fun c => { c with seq := some { agent := a, unit := u, target := off, count := 0 } }))
      ∧ (¬busy → ¬(bits v.toNat 31 24 = 0xA5 ∧ (s.regAt u off).any Reg.keyed = true) → exec (.keyWrite a v) s =
          .next (s.modSec fun c => { c with seq := none, seqFail := true })))
    ∧ (∀ (v : BitVec 32), v.getLsbD 0 = true → s.lsecLock.lock = false →
      (∀ k, s.sec.seq = some k → k.agent = a → k.unit = 4 → k.target = 0x0148 → k.live = true →
        Does (.keyedLockWrite a .lsec v) s fun t => t.lsecLock.lock = true ∧ t.sec = { s.sec with seq := none }
          ∧ t = { s with lsecLock := t.lsecLock, sec := t.sec, rsv := t.rsv })
      ∧ (s.sec.seq = none → Does (.keyedLockWrite a .lsec v) s fun t => t.lsecLock.lock = false
          ∧ t.sec = { s.sec with seqFail := true } ∧ t = { s with lsecLock := t.lsecLock, sec := t.sec, rsv := t.rsv }))
    ∧ (∀ (c : Fin 4) (v : BitVec 32) (k : KeySeq), v.getLsbD 2 = true → s.lsecLock.lock = false → s.sec.seq = some k →
      k.agent = a → k.unit = 4 → k.target = 0x0100 + 4 * c.val → k.live = true → (s.ctxAt c.val).st ≠ .stepping →
      Does (.lsecLoad a c v) s fun t =>
        (t.ctxAt c.val) = { s.ctxAt c.val with lsec := { (s.ctxAt c.val).lsec with
            en := v.getLsbD 0, hs := v.getLsbD 1, key := stagedKey s.sec.stageKey, keyJob := s.sec.stageJob, valid := true } }
        ∧ t.sec = { s.sec with seq := none, stageKey := List.replicate 8 0#32 } ∧ OtherContexts s t c.val
        ∧ t = { s with ctx := t.ctx, sec := t.sec, rsv := t.rsv })
    ∧ (∀ k, s.sec.seq = some k → 64 ≤ k.count → k.agent ∉ s.sec.haltedAgents → Does .keyedWindowExpire s fun t =>
        t = s.modSec fun c => { c with seq := some { k with count := max k.count 65 } })
    ∧ (s.sec.scope.getLsbD 0 = true → a ≠ .debug → a ≠ .host → ∀ h, Does (.debugAgentHalt a h) s fun t =>
        (a ∈ t.sec.haltedAgents ↔ h = true) ∧ (∀ b, b ≠ a → (b ∈ t.sec.haltedAgents ↔ b ∈ s.sec.haltedAgents))
        ∧ t = { s with sec := { s.sec with haltedAgents := t.sec.haltedAgents } })
    ∧ (∀ tok, s.sec.dbgDisabled = false → Does (.dbgToken tok) s fun t =>
        t.sec.challengeNo = s.sec.challengeNo + 1
        ∧ (s.tokenOk tok = true → t.sec.scope = s.sec.scope ||| BitVec.ofNat 16 (fld tok 6 2)
          ∧ t.sec.dbgFails = s.sec.dbgFails)
        ∧ (s.tokenOk tok = false → t.sec.scope = s.sec.scope ∧ t.sec.dbgFails = s.sec.dbgFails + 1)
        ∧ (t.sec.dbgDisabled = true ↔ 3 ≤ t.sec.dbgFails) ∧ t = { s with sec := t.sec })
    ∧ (∀ tok, s.sec.dbgDisabled = true → exec (.dbgToken tok) s = .next s)
    ∧ Does .dbgRelock s fun t => t = { s with sec := { s.sec with scope := 0 } }

/-- A commit takes its side's staging buffer with GEN one above the committed record's; while one runs another side's
waits, once. It ends with the record in the slot of its GEN when a read-back succeeds, with DONE and event 4 or the
sideband's answer OK and GEN; else the committed record stays, with FAIL or the answer 2. A waiting commit then
starts. Discard reloads the staging buffer. FRU_READ at offset 0 takes the sideband's snapshot; FRU_STAGE takes 1 to
32 bytes at offsets 8 to 0xF7; offsets outside answer BAD_ARG. Before stage 2 the sideband answers NOT_READY. (R881,
R882, R883, R884, R876, R878, 18_registers_and_management) -/
def Obligations.FruCommitsAndSnapshots : Prop :=
  ∀ (s : State),
    let rec_ := fun (d : Bytes) => fruRecord ((fld s.fruCommitted 4 2 + 1) % 65536) d
    (s.ready = true →
      (s.fru.running = none → Does .hostFruCommit s fun t =>
        t = s.modFru fun f => { f with running := some (.host, rec_ s.fruHostStage) })
      ∧ (s.fru.running ≠ none → Does .hostFruCommit s fun t => t.fru.running = s.fru.running ∧ .host ∈ t.fru.queued
          ∧ t = { s with fru := { s.fru with queued := t.fru.queued } })
      ∧ (Does .hostFruDiscard s fun t => t = s.modFru fun f => { f with hostStage := slice s.fruCommitted 8 240 })
      ∧ (Does .fruSnapshotRead s fun t => t.fru = { s.fru with hostSnap := s.fruCommitted }
          ∧ t = { s with fru := t.fru, bus := t.bus }
          ∧ (s.fruCommitted ≠ [] → (tget .reset t.bus 3).data = BitVec.ofNat 64 (fld s.fruCommitted 0 4))))
    ∧ (∀ side b (x y : Bool), s.fru.running = some (side, b) → s.fru.queued = [] → b.length = 256 →
      let slot := 0x2000 + 0x100 * (fld b 4 2 % 2)
      Does (.fruCommitComplete x y) s fun t => t.fru.running = none
        ∧ t = { s with mem := { s.mem with jd := t.mem.jd }, fru := t.fru, sb := t.sb }
        ∧ ((x || y) = true → t.jdRead slot 256 = b ∧ t.fru.committed = b
            ∧ (side = .host → t.fru.done = true ∧ t.fru.fail = s.fru.fail ∧ t.sb.events = s.sb.events ||| 0x10#8)
            ∧ (side = .sideband → s.sb.resp = none → t.sb.resp = some (0#8 :: leBytes 2 (fld b 4 2))))
        ∧ ((x || y) = false → (side = .host → t.fru.fail = true ∧ t.fru.done = s.fru.done ∧ t.sb = s.sb)
            ∧ (side = .sideband → s.sb.resp = none → t.sb.resp = some [2#8])))
    ∧ (∀ side b q l (x y : Bool), s.fru.running = some (side, b) → s.fru.queued = q :: l →
      Does (.fruCommitComplete x y) s fun t => t.fru.queued = l ∧ ∃ b', t.fru.running = some (q, b'))
    ∧ (s.sbOn = false → ∀ off data,
      exec (.fruRead off) s = .next (s.sbAnswer [3#8]) ∧ exec (.fruStage off data) s = .next (s.sbAnswer [3#8])
      ∧ exec .fruCommit s = .next (s.sbAnswer [3#8]) ∧ exec .fruDiscard s = .next (s.sbAnswer [3#8]))
    ∧ (s.sbOn = true → ∀ (off : BitVec 8) data,
      (exec (.fruRead 0) s = .next ((s.modFru fun f => { f with sbSnap := s.fruCommitted }).sbAnswer (0#8 ::
          slice (if s.fruCommitted = [] then s.fruStored else s.fruCommitted) 0 64)))
      ∧ (off ≠ 0 → off.toNat % 64 = 0 → exec (.fruRead off) s = .next (s.sbAnswer (0#8 ::
          slice (if s.fru.sbSnap = [] then s.fruStored else s.fru.sbSnap) off.toNat 64)))
      ∧ (off.toNat % 64 ≠ 0 → exec (.fruRead off) s = .next (s.sbAnswer [2#8]))
      ∧ ((8 ≤ off.toNat ∧ 1 ≤ data.length ∧ data.length ≤ 32 ∧ off.toNat + data.length ≤ 0xF8) →
          exec (.fruStage off data) s = .next ((s.modFru fun f =>
            { f with sbStage := splice s.fruSbStage (off.toNat - 8) data }).sbAnswer [0#8]))
      ∧ (¬(8 ≤ off.toNat ∧ 1 ≤ data.length ∧ data.length ≤ 32 ∧ off.toNat + data.length ≤ 0xF8) →
          exec (.fruStage off data) s = .next (s.sbAnswer [2#8]))
      ∧ (s.fru.running = none → Does .fruCommit s fun t =>
          t.fru = { s.fru with running := some (.sideband, rec_ s.fruSbStage) } ∧ t.sb = { s.sb with resp := none }
          ∧ t = { s with fru := t.fru, sb := t.sb })
      ∧ (s.fru.running ≠ none → Does .fruCommit s fun t => t.fru.running = s.fru.running ∧ .sideband ∈ t.fru.queued
          ∧ t.sb = { s.sb with resp := none } ∧ t = { s with fru := t.fru, sb := t.sb })
      ∧ exec .fruDiscard s = .next ((s.modFru fun f => { f with sbStage := slice s.fruCommitted 8 240 }).sbAnswer [0#8]))

/-- An address assignment makes the address valid. A read takes the response that waits; without one it reads BAD_CMD,
or nothing while a commit of the sideband runs. GET_ID and GET_STATUS answer at every stage; READ_TELEM, GET_LIMITS,
SET_PWIN and SET_PRAIL from stage 2 on and NOT_READY before. READ_TELEM at offset 0 takes the set whole and answers up
to 64 bytes. SET_IBI_MASK raises one interrupt where an unmasked event is latched and none is outstanding; READ_EVENTS
answers and clears the events. (R872, R874, R876, R878, R869, 18_registers_and_management) -/
def Obligations.SidebandAnswers : Prop :=
  ∀ (s : State),
    (∀ d : BitVec 7, Does (.dynamicAddressAssign d) s fun t => t = { s with sb := { s.sb with daddr := d, daValid := true } })
    ∧ (∀ b, s.sb.resp = some b → Does .sidebandRead s fun t => t = { s with sb := { s.sb with resp := none, read := b } })
    ∧ (s.sb.resp = none → s.sbCommitting = false → Does .sidebandRead s fun t =>
        t = { s with sb := { s.sb with read := [1#8] } })
    ∧ (s.sb.resp = none → s.sbCommitting = true → exec .sidebandRead s = .next s)
    ∧ (∃ b, exec .getId s = .next (s.sbAnswer b) ∧ b.length = 15 ∧ fld b 0 1 = 0 ∧ fld b 1 1 = kindCode s.fuse.kind
        ∧ fld b 7 8 = s.fuse.serial.toNat ∧ (s.sbOn = true → slice b 3 4 = s.fwBytes) ∧ (s.sbOn = false → fld b 3 4 = 0))
    ∧ (∃ b, exec .getStatus s = .next (s.sbAnswer b) ∧ b.length = 15 ∧ fld b 0 1 = 0
        ∧ fld b 1 4 = s.regVal .bootStatus % 2 ^ 32 ∧ fld b 5 4 = s.regVal .fltStatus % 2 ^ 32
        ∧ fld b 9 4 = s.regVal .pmcStatus % 2 ^ 32 ∧ fld b 13 1 = (s.resident.map (·.val)).getD 0xFF)
    ∧ (s.sbOn = false → ∀ (x : BitVec 8) (off l : BitVec 16), exec (.readTelem x off) s = .next (s.sbAnswer [3#8])
        ∧ exec .getLimits s = .next (s.sbAnswer [3#8]) ∧ exec (.setPwin l x x) s = .next (s.sbAnswer [3#8])
        ∧ exec (.setPrail x x) s = .next (s.sbAnswer [3#8]))
    ∧ (s.sbOn = true →
      (∃ b, exec .getLimits s = .next (s.sbAnswer b) ∧ b.length = 9 ∧ fld b 0 1 = 0
        ∧ fld b 1 4 = s.regVal .plwin % 2 ^ 32 ∧ fld b 5 4 = s.regVal .plrail % 2 ^ 32)
      ∧ (∀ (x : BitVec 8) (off : BitVec 16), s.telemetry x.toNat = none →
          exec (.readTelem x off) s = .next (s.sbAnswer [2#8]))
      ∧ (∀ (x : BitVec 8) (off : BitVec 16) b, s.telemetry x.toNat = some b →
        let t := if off = 0 then b else s.sb.telem
        (t.length ≤ off.toNat → exec (.readTelem x off) s = .next (s.sbAnswer [2#8]))
        ∧ (off.toNat < t.length → exec (.readTelem x off) s =
            .next (({ s with sb := { s.sb with telem := t } }).sbAnswer (0#8 :: (t.drop off.toNat).take 64)))))
    ∧ (∀ m : BitVec 8, Does (.setIbiMask m) s fun t => t.sb.mask = m ∧ t.sb.resp = some [0#8]
        ∧ t.sb.ibi = (if s.sb.ibi = none ∧ s.sb.events &&& ~~~m ≠ 0 then some s.sb.events else s.sb.ibi)
        ∧ t = { s with sb := { s.sb with mask := m, resp := t.sb.resp, ibi := t.sb.ibi } })
    ∧ Does .readEvents s fun t => t = { s with sb := { s.sb with events := 0, ibi := none, resp := some [0#8, s.sb.events] } }

/-- From stage 2 on: SET_PWIN with EN 1, a LIMIT from 100 W to the maximum of the part and a window of 1 to 100 ms
sets the sideband's windowed limit, and SET_PRAIL with EN 1 and a LIMIT of 1 to 95 A its rail limit, both answering
OK; EN 0 disables the limit; every other argument answers BAD_ARG and changes no limit. (R877) -/
def Obligations.SidebandLimitsKeepTheirRanges : Prop :=
  ∀ s : State, s.sbOn = true →
    (∀ (l : BitVec 16) (ms en : BitVec 8),
        let ok := en = 1 ∧ 100 ≤ l.toNat ∧ l.toNat ≤ maxPower s.fuse.kind ∧ 1 ≤ ms.toNat ∧ ms.toNat ≤ 100
        (ok → exec (.setPwin l ms en) s =
          .next (({ s with pmc := { s.pmc with sbWin := { en := true, limit := l.toNat, ms := ms.toNat } } }).sbAnswer [0#8]))
        ∧ (en = 0 → exec (.setPwin l ms en) s = .next (({ s with pmc := { s.pmc with sbWin := .off } }).sbAnswer [0#8]))
        ∧ (¬ok → en ≠ 0 → exec (.setPwin l ms en) s = .next (s.sbAnswer [2#8])))
      ∧ (∀ (l en : BitVec 8),
        let ok := en = 1 ∧ 1 ≤ l.toNat ∧ l.toNat ≤ 95
        (ok → exec (.setPrail l en) s =
          .next (({ s with pmc := { s.pmc with sbRail := { en := true, limit := l.toNat, ms := 0 } } }).sbAnswer [0#8]))
        ∧ (en = 0 → exec (.setPrail l en) s = .next (({ s with pmc := { s.pmc with sbRail := .off } }).sbAnswer [0#8]))
        ∧ (¬ok → en ≠ 0 → exec (.setPrail l en) s = .next (s.sbAnswer [2#8])))

/-- A sample set gives each tile its input power, V_IB times I_IB over the efficiency, and its voltages and phases, and
the package the sum as its newest sample. WINDOW_TERM_EVAL moves the windowed term one slower where the mean is above the
limit, to at most 4, one faster where it is at or below 90% and no step slower came within the window, and else leaves
it. RAIL_TERM_EVAL likewise for a tile's die, faster after ten evaluations in a row. TARGET_MOVE moves each target one
position at most towards the slowest term. DROOP_START and DROOP_END mark a droop and add the skipped pulses.
Over-current switches the die off and reports it. (R780, R781, R784, R786, R787, R788, R776, R777, R800, R801,
16_power_clocks_thermal) -/
def Obligations.PowerTermsAndDroops : Prop :=
  ∀ s : State,
    (∀ xs : List TileSample, s.pmc.powerLost = false → Does (.regulatorSample xs) s fun t =>
      (∀ i x, i < s.dies → xs[i]? = some x → (t.tileAt i).pin = x.vib * x.iib / s.etaOf i x.iib
        ∧ (t.tileAt i).vib = x.vib ∧ (t.tileAt i).iib = x.iib ∧ (t.tileAt i).vin = x.vin
        ∧ (t.tileAt i).energy = s.tileEnergy i x.vib ∧ (t.tileAt i).core = fitPhases 64 x.core
        ∧ (t.tileAt i).sram = fitPhases 8 x.sram ∧ (t.tileAt i).hbm = fitPhases 8 x.hbm
        ∧ (t.tileAt i).io = fitPhases 4 x.io
        ∧ (t.tileAt i).railHist = ((t.tileAt i).pin * 1000 / x.vin :: (s.tileAt i).railHist).take 5
        ∧ (t.tileAt i).irail = meanOf (t.tileAt i).railHist 5)
      ∧ (∀ i, xs[i]? = none → t.tileAt i = s.tileAt i)
      ∧ t.pmc.pHist.head? = some (sumNat ((List.range s.dies).map fun i => (t.tileAt i).pin))
      ∧ t = { s with pmc := { s.pmc with tiles := t.pmc.tiles, pHist := t.pmc.pHist, huLow := t.pmc.huLow } })
    ∧ (Does .windowTermEval s fun t =>
      (s.winLimit = none → t.pmc.winTerm = s.pmc.winTerm - 1)
      ∧ (∀ l, s.winLimit = some l →
        let mean := meanOf s.pmc.pHist (500 * l.2.1)
        (l.1 * 1000 < mean → t.pmc.winTerm = min 4 (s.pmc.winTerm + 1) ∧ t.pmc.winDown = some s.stb.ticks)
        ∧ (mean ≤ l.1 * 1000 → t.pmc.winDown = s.pmc.winDown)
        ∧ (mean * 10 ≤ l.1 * 9000 → (∀ d, s.pmc.winDown = some d → d + 100000 * l.2.1 ≤ s.stb.ticks) →
          t.pmc.winTerm = s.pmc.winTerm - 1)
        ∧ (l.1 * 9000 < mean * 10 → mean ≤ l.1 * 1000 → t.pmc.winTerm = s.pmc.winTerm)
        ∧ (∀ d, s.pmc.winDown = some d → s.stb.ticks < d + 100000 * l.2.1 → mean ≤ l.1 * 1000 →
          t.pmc.winTerm = s.pmc.winTerm))
      ∧ t = { s with pmc := { s.pmc with winTerm := t.pmc.winTerm, winDown := t.pmc.winDown }, sb := t.sb })
    ∧ (∀ i : Fin 4, i.val < s.dies → Does (.railTermEval i) s fun t =>
      let x := s.divAt i.val
      let y := t.divAt i.val
      let mean := (s.tileAt i.val).irail
      (s.railLimit = none → y = { x with rail := x.rail - 1, railCool := 0 })
      ∧ (∀ l, s.railLimit = some l →
        (l.1 * 1000 < mean → y = { x with rail := min 4 (x.rail + 1), railCool := 0 })
        ∧ (mean * 10 ≤ l.1 * 9000 → y = { x with rail := if 9 ≤ x.railCool then x.rail - 1 else x.rail,
                                                 railCool := min 10 (x.railCool + 1) })
        ∧ (l.1 * 9000 < mean * 10 → mean ≤ l.1 * 1000 → y = { x with railCool := 0 }))
      ∧ (∀ j, j ≠ i.val → t.divAt j = s.divAt j) ∧ t = { s with pmc := { s.pmc with div := t.pmc.div }, sb := t.sb })
    ∧ (Does .targetMove s fun t => ∀ d, d < s.dies →
      let x := s.divAt d
      t.divAt d = { x with target := if x.target < s.wanted d then x.target + 1
                                     else if s.wanted d < x.target then x.target - 1 else x.target }
      ∧ (x.target ≠ s.wanted d → (s.ueAt d).cur = none → (t.ueAt d).pos = (t.divAt d).target)
      ∧ t = { s with pmc := { s.pmc with div := t.pmc.div }, ue := t.ue })
    ∧ (∀ d : Fin 4, d.val < s.dies →
      (Does (.droopStart d) s fun t => (∀ e, e ∈ t.pmc.droop ↔ e = d.val ∨ e ∈ s.pmc.droop)
        ∧ t = { s with pmc := { s.pmc with droop := t.pmc.droop } })
      ∧ (∀ n : BitVec 32, d.val ∉ s.pmc.droop → exec (.droopEnd d n) s = .next s)
      ∧ (∀ n : BitVec 32, d.val ∈ s.pmc.droop → Does (.droopEnd d n) s fun t =>
        (∀ e, e ∈ t.pmc.droop ↔ e ≠ d.val ∧ e ∈ s.pmc.droop)
        ∧ (tget 0#32 t.pmc.skip d.val).toNat = min ((tget 0#32 s.pmc.skip d.val).toNat + n.toNat) 0xFFFFFFFF
        ∧ (∀ e, e ≠ d.val → tget 0#32 t.pmc.skip e = tget 0#32 s.pmc.skip e)
        ∧ t = { s with pmc := { s.pmc with droop := t.pmc.droop, skip := t.pmc.skip } })
      ∧ (∃ u : State, exec (.railOverCurrent d) s = .next (u.report (mkReportAll 9 10 (BitVec.ofNat 32 d.val) 0))
        ∧ u.pmc.oc = true ∧ (∀ e, e ∈ u.pmc.dieOff ↔ e = d.val ∨ e ∈ s.pmc.dieOff) ∧ u.sb.events = s.sb.events ||| 8#8
        ∧ u = { s with pmc := { s.pmc with oc := true, dieOff := u.pmc.dieOff }, sb := u.sb }))

/-- THERMAL_SAMPLE stores the readings. A die with a pair at 110 degrees goes to position 4, and each such pair not
known before is reported; else its thermal term moves one slower where a pair is at T_LIMIT, and one faster after ten
samples in a row with all pairs 5 degrees below, but not during a trip. A trip by a low input, or by a reading at 120
degrees, puts every die to position 4, starts its time once, and reports. Released inputs end it unless a reading
holds it. After 1,000,000 ticks the requests that are accepted complete, every die is off and the stacks refresh
themselves. A disagreement of more than
200,000 ticks is recorded and reported once. (R792, R793, R794, R795, R796, R797, R802, R803, R747, R748, R750,
16_power_clocks_thermal) -/
def Obligations.HeatAndTrips : Prop :=
  ∀ s : State,
    (∀ ps : List PairReading, Does (.thermalSample ps) s fun t =>
      (∀ i p, i < 69 → ps[i]? = some p → t.pairAt i = p)
      ∧ (∀ d, d < s.dies →
        let x := s.divAt d
        let y := t.divAt d
        let rs := (t.diePairs d).map t.countedReading
        let hot := ∃ i, i ∈ t.pairsOver 1760 ∧ d ∈ t.pairDies i
        (hot → y.therm = 4 ∧ y.target = 4 ∧ y.thermCool = 0)
        ∧ (¬hot → y.target = x.target ∧ y.rail = x.rail)
        ∧ (¬hot → (∃ r, r ∈ rs ∧ t.tLimit ≤ r) → y.therm = min 4 (x.therm + 1) ∧ y.thermCool = 0)
        ∧ (¬hot → (∀ r, r ∈ rs → r ≤ t.tLimit - 80) → y.thermCool = min 10 (x.thermCool + 1)
          ∧ y.therm = if 9 ≤ x.thermCool ∧ s.pmc.tripSince = none then x.therm - 1 else x.therm)
        ∧ (¬hot → (∀ r, r ∈ rs → r < t.tLimit) → (∃ r, r ∈ rs ∧ t.tLimit - 80 < r) →
          y.therm = x.therm ∧ y.thermCool = 0))
      ∧ t.pmc.overTemp = t.pairsOver 1760
      ∧ t.pmc.tripSince = (if s.pin.ttrip0 && s.pin.ttrip1 && !t.tripReading then none else s.pmc.tripSince)
      ∧ t.flt.wires = s.flt.wires ++ (((t.pairsOver 1760).filter fun i => !s.pmc.overTemp.contains i).map fun i =>
          mkReportAll 8 6 (pairLocus i) 0)
      ∧ ((∃ d, d < 4 ∧ (s.divAt d).therm = 0 ∧ (t.divAt d).therm ≠ 0) → t.sb.events = s.sb.events ||| 2#8)
      ∧ t = { s with pmc := t.pmc, ue := t.ue, flt := t.flt, sb := t.sb })
    ∧ (∀ src r, (src = .pin0 → r = mkReportAll 0x0E 7 0 0) → (src = .pin1 → r = mkReportAll 0x0E 7 0 0) →
      (src = .reading → s.tripReading = true ∧ r = mkReportAll 0x0E 6 s.tripLocus 0) →
      ∃ u : State, exec (.thermalTrip src) s = .next (u.report r)
        ∧ u.pmc.tripSince = some (s.pmc.tripSince.getD s.stb.ticks) ∧ u.sb.events = s.sb.events ||| 2#8
        ∧ (∀ d, d < s.dies → (u.divAt d).therm = 4 ∧ (u.divAt d).target = 4)
        ∧ (src = .pin0 → u.pin = { s.pin with ttrip0 := false }) ∧ (src = .pin1 → u.pin = { s.pin with ttrip1 := false })
        ∧ (src = .reading → u.pin = s.pin))
    ∧ (s.tripReading = false → exec (.thermalTrip .reading) s = .next s)
    ∧ (Does .tripConditionRelease s fun t => t.pin = { s.pin with ttrip0 := true, ttrip1 := true }
      ∧ t.pmc.tripSince = (if s.tripReading then s.pmc.tripSince else none) ∧ t.pmc.div = s.pmc.div)
    ∧ (∀ t0, s.pmc.tripSince = some t0 →
      (t0 + 1000000 ≤ s.stb.ticks → ∃ u : State,
        exec .tripShutdown s = .next { u with pmc := { s.pmc with dieOff := List.range s.dies, selfRefresh := true } }
        ∧ u.pmc = s.pmc ∧ u.ctx = s.ctx ∧ u.eng = s.eng
        ∧ (∀ k, k < s.stacks → s.serves k = true → (u.stackAt k).queue = []))
      ∧ (s.stb.ticks < t0 + 1000000 → exec .tripShutdown s = .next s))
    ∧ (s.pmc.tripSince = none → exec .tripShutdown s = .next s)
    ∧ (∀ (p : PairRef) (k : Nat), k = (match p with
        | .sensor i => i.val
        | .trip => 69) →
      (∀ t0, tget none s.pmc.disSince k = some t0 → t0 + 200000 < s.stb.ticks → k ∉ s.flt.disagree →
        ∃ u : State, exec (.sensorDisagree p) s = .next (u.report
            { cls := 0x0F, lkind := if k = 69 then 7 else 6, locus := if k = 69 then 0 else pairLocus k, addr := 0,
              tags := [], all := false, detail := 0 })
          ∧ u.flt.sensDis = true ∧ k ∈ u.flt.disagree ∧ u = { s with flt := u.flt })
      ∧ ((∀ t0, tget none s.pmc.disSince k = some t0 → s.stb.ticks ≤ t0 + 200000 ∨ k ∈ s.flt.disagree) →
        exec (.sensorDisagree p) s = .next s))

/-- A reset clears contexts, rings, engines, locks and the debug scope, leaves the stores undefined, and keeps JD,
host memory, flash, fuses, the queue and, without a loss of VAUX, the sideband. With an admissible copy and lockstep
boot reaches stage 5 with that copy, the anti-rollback count raised to its own, the failed stacks as trained and event
5; without one it stops with its code. PKG_RST_N low holds boot until its release. A commit in progress defers a warm
reset, and a power loss prevails. A lockstep mismatch writes a crash slot and drives FAULT_N first. (R770, R807, R815,
R816, R818, R821, R822, R823, R845, R901, 17_security_and_boot) -/
def Obligations.ResetsAndBoot : Prop :=
  ∀ (s : State) (b : BootEnv),
    let booted := fun (u t : State) =>
      let f := b.flash.getD (u.mem.flashA, u.mem.flashB)
      (t.mem.flashA, t.mem.flashB) = f ∧ t.pending = s.pending
      ∧ (∀ fw copyB, fwChoice s.fuse f.1 f.2 = some (fw, copyB) → b.lockstepOk = true →
        t.sec.stage = 5 ∧ t.sec.running = fw ∧ t.sec.copyB = copyB ∧ t.fuse = { s.fuse with arb := max s.fuse.arb (fwArb fw) }
        ∧ t.sb.events.getLsbD 5 = true
        ∧ (∀ k x, k < s.stacks → b.train[k]? = some x → (t.stackAt k).failed = x.fail))
      ∧ (∀ fw copyB, fwChoice s.fuse f.1 f.2 = some (fw, copyB) → b.lockstepOk = false → t.sec.stage = 15 ∧ t.sec.fail = 4)
      ∧ (fwChoice s.fuse f.1 f.2 = none → t.sec.stage = 15 ∧ t.sec.fail = bootFail s.fuse f.1 f.2)
    let kept := fun (u : State) (vaux : Bool) =>
      u.ctx = [] ∧ u.resident = none ∧ u.rings = [] ∧ u.eng = [] ∧ u.core = [] ∧ u.memLock = [] ∧ u.linkLock = []
      ∧ u.lsecLock = .reset ∧ u.sec.stage = 0 ∧ u.sec.scope = 0 ∧ u.pin.faultN = true
      ∧ (∃ n, u.mem.spm = .undef n ∧ u.mem.sram = .undef (n + 1)) ∧ u.mem.jd = s.mem.jd ∧ u.mem.host = s.mem.host
      ∧ (u.mem.flashA, u.mem.flashB) = (s.mem.flashA, s.mem.flashB) ∧ u.fuse = s.fuse ∧ u.pending = s.pending
      ∧ u.sb = if vaux then .reset else s.sb
    let low := { s with pin := { s.pin with pkgRstN := false } }
    (∃ u t, exec (.coldReset b) s = .next t ∧ kept u true ∧ (s.pin.pkgRstN = true → booted u t)
      ∧ (s.pin.pkgRstN = false → t = u))
    ∧ (s.pmc.powerLost = false → s.resetDue = none → s.committing = false →
      (∃ u, exec .warmReset s = .next u ∧ kept u false ∧ u.pin = { s.pin with pkgRstN := false, faultN := true })
      ∧ (∃ u t, exec (.pllLockLoss b) s = .next t ∧ kept u false ∧ (s.pin.pkgRstN = true → booted u t)
        ∧ (s.pin.pkgRstN = false → t = u)))
    ∧ (s.pmc.powerLost = false → s.resetDue = none → s.committing = true →
      exec .warmReset s = .next { low with resetDue := some (0, none) }
      ∧ exec (.pllLockLoss b) s = .next { s with resetDue := some (0, some b) })
    ∧ (s.pmc.powerLost = true → exec .warmReset s = .next low ∧ exec (.pllLockLoss b) s = .next s
      ∧ exec (.lockstepMismatch b) s = .next s)
    ∧ (s.pin.pkgRstN = true → exec (.pkgRstNRelease b) s = .next s)
    ∧ (s.pin.pkgRstN = false → s.pmc.powerLost = false →
      let up := { s with pin := { s.pin with pkgRstN := true } }
      (s.resetDue = none → ∃ t, exec (.pkgRstNRelease b) s = .next t ∧ booted up t)
      ∧ (∀ n, s.resetDue = some (n, none) → exec (.pkgRstNRelease b) s = .next { up with resetDue := some (n, some b) }))
    ∧ (s.pmc.powerLost = false → s.resetDue = none → s.committing = true → Does (.lockstepMismatch b) s fun t =>
      t.pin = { s.pin with faultN := false } ∧ t.resetDue = some (0, some b) ∧ t.sb.events = s.sb.events ||| 1#8
      ∧ t.flt.crashNext = s.flt.crashNext + 1 ∧ t.ctx = s.ctx)
    ∧ (s.pmc.powerLost = false → s.resetDue = none → s.committing = false → s.pin.pkgRstN = true →
      ∃ t, exec (.lockstepMismatch b) s = .next t ∧ booted s t ∧ t.resident = none)

/-- POWER_LOSS without a commit in progress clears the package but for what is kept, every die off. With one, its step
stays, the others are aborted and no further step enters; a deferred reset is dropped. A sample with a bus at or below
1.40 V, or the end of the commit, then clears the package. With VAUX lost the sideband and its limits are reset. Power
that returns is a cold reset that keeps the sideband; without a loss it is nothing. (R806, R807, R899, R873,
16_power_clocks_thermal) -/
def Obligations.PowerLossEndsEverythingButACommit : Prop :=
  ∀ (s : State) (vaux : Bool),
    let off := fun (t : State) => t.ctx = [] ∧ t.resident = none ∧ t.rings = [] ∧ t.pmc.powerLost = true
      ∧ t.pmc.dieOff = List.range s.dies ∧ t.mem.host = s.mem.host ∧ t.fuse = s.fuse ∧ t.pending = s.pending
    let sb := fun (t : State) => if vaux then t.sb = .reset ∧ t.pmc.sbWin = .off ∧ t.pmc.sbRail = .off
      else t.sb = s.sb ∧ t.pmc.sbWin = s.pmc.sbWin ∧ t.pmc.sbRail = s.pmc.sbRail
    (s.pmc.powerLost = false → s.committing = false → Does (.powerLoss vaux) s fun t =>
      off t ∧ sb t ∧ t.mem.jd = s.mem.jd)
    ∧ (s.pmc.powerLost = false → s.committing = true → Does (.powerLoss vaux) s fun t =>
      t.pmc.powerLost = true ∧ t.pmc.dieOff = List.range s.dies ∧ t.resetDue = none ∧ sb t ∧ t.mem = s.mem
      ∧ ∀ c x, s.cur = some (c, x) → (t.ctxAt c.val).next = none
        ∧ (t.ctxAt c.val).steps.map (·.no) = x.steps.map (·.no)
        ∧ (t.ctxAt c.val).steps.filter StepSt.held = x.steps.filter StepSt.held
        ∧ (∀ k, k ∈ (t.ctxAt c.val).steps → k.held = false → k.st = .aborted) ∧ OtherContexts s t c.val)
    ∧ (s.pmc.powerLost = true → Does (.powerLoss vaux) s fun t => sb t
      ∧ t = { s with sb := t.sb, pmc := { s.pmc with sbWin := t.pmc.sbWin, sbRail := t.pmc.sbRail } })
    ∧ (∀ xs : List TileSample, s.pmc.powerLost = true → (∃ i x, i < s.dies ∧ xs[i]? = some x ∧ x.vib ≤ 1400) →
      Does (.regulatorSample xs) s fun t => off t ∧ t.mem.jd = s.mem.jd)
    ∧ (∀ (c : Fin 4) ok, s.pmc.powerLost = true → s.resident = some c → s.committing = true →
      (s.commitWritten c.val ok).committing = false → (s.commitWritten c.val ok).pmc.powerLost = true →
      Does (.commitRecordWritten c ok) s fun t => t.ctx = [] ∧ t.resident = none ∧ t.pmc.powerLost = true
        ∧ t.mem.jd = (s.commitWritten c.val ok).mem.jd)
    ∧ (∀ b : BootEnv, s.pmc.powerLost = true → s.pin.pkgRstN = true → Does (.powerRestore b) s fun t =>
      t.pmc.powerLost = false ∧ t.resident = none
      ∧ (t.sec.stage = 5 ↔ (fwChoice s.fuse (b.flash.getD (s.mem.flashA, s.mem.flashB)).1
          (b.flash.getD (s.mem.flashA, s.mem.flashB)).2 ≠ none ∧ b.lockstepOk = true)))
    ∧ (∀ b : BootEnv, s.pmc.powerLost = false → exec (.powerRestore b) s = .next s)
end

