-- ==== Sys2Proof/Laws/Tables.lean ====
section
/-! SUPPORT. The laws of sparse tables and byte stores: a read after a write, every other place unchanged, and the
canonical form kept by every write. -/

namespace Sys2Proof.Machine

variable {α : Type}

theorem tget_tdel (d : α) (t : Tbl α) (k j : Nat) : tget d (tdel t k) j = if j = k then d else tget d t j := by
  induction t with
  | nil => simp [tdel, tget]
  | cons e r ih =>
    obtain ⟨i, v⟩ := e
    by_cases hik : i = k
    · simp only [tdel, hik, if_true, ih]
      by_cases hj : j = k
      · simp [hj]
      · simp [hj, tget, Ne.symm hj]
    · simp only [tdel, hik, if_false, tget, ih]
      by_cases hij : i = j
      · simp [hij, show j ≠ k from hij ▸ hik]
      · simp [hij]

theorem tget_tput (d : α) (t : Tbl α) (k j : Nat) (v : α) :
    tget d (tput t k v) j = if j = k then v else tget d t j := by
  induction t with
  | nil =>
    simp only [tput, tget]
    by_cases h : k = j
    · rw [if_pos h, if_pos h.symm]
    · rw [if_neg h, if_neg (Ne.symm h)]
  | cons e r ih =>
    obtain ⟨i, w⟩ := e
    simp only [tput]
    split
    · simp only [tget]
      by_cases h : k = j
      · rw [if_pos h, if_pos h.symm]
      · rw [if_neg h, if_neg (Ne.symm h)]
    · split
      · next h =>
        subst h
        simp only [tget]
        by_cases h : k = j
        · rw [if_pos h, if_pos h.symm]
        · rw [if_neg h, if_neg (Ne.symm h), if_neg h]
      · next h =>
        simp only [tget, ih]
        by_cases hj : i = j
        · rw [if_pos hj, if_neg (fun e => by omega), if_pos hj]
        · rw [if_neg hj, if_neg hj]

/-- A read after a write. -/
theorem tget_tset [DecidableEq α] (d : α) (t : Tbl α) (k j : Nat) (v : α) :
    tget d (tset d t k v) j = if j = k then v else tget d t j := by
  unfold tset
  split
  · next h => rw [tget_tdel, h]
  · exact tget_tput d t k j v

@[simp] theorem tget_tset_self [DecidableEq α] (d : α) (t : Tbl α) (k : Nat) (v : α) : tget d (tset d t k v) k = v := by
  simp [tget_tset]

theorem tget_tset_other [DecidableEq α] (d : α) (t : Tbl α) {k j : Nat} (v : α) (h : j ≠ k) :
    tget d (tset d t k v) j = tget d t j := by
  simp [tget_tset, h]

@[simp] theorem tget_tmod_self [DecidableEq α] (d : α) (t : Tbl α) (k : Nat) (f : α → α) :
    tget d (tmod d t k f) k = f (tget d t k) := by
  simp [tmod]

/-- A read after a change. -/
theorem tget_tmod [DecidableEq α] (d : α) (t : Tbl α) (k j : Nat) (f : α → α) :
    tget d (tmod d t k f) j = if j = k then f (tget d t k) else tget d t j :=
  tget_tset ..

theorem tget_tmod_other [DecidableEq α] (d : α) (t : Tbl α) {k j : Nat} (f : α → α) (h : j ≠ k) :
    tget d (tmod d t k f) j = tget d t j := by
  simp [tmod, tget_tset_other d t _ h]

/-! ## Canonical form -/

theorem rising_tail {e : Nat × α} {t : Tbl α} (h : rising (e :: t) = true) : rising t = true := by
  cases t with
  | nil => rfl
  | cons f r => obtain ⟨i, v⟩ := e; obtain ⟨j, w⟩ := f; simp [rising] at h; exact h.2

/-- Every key of the table lies above `k`. -/
def above (k : Nat) : Tbl α → Bool
  | [] => true
  | e :: _ => decide (k < e.1)

theorem rising_cons {k : Nat} {v : α} {t : Tbl α} : rising ((k, v) :: t) = (above k t && rising t) := by
  cases t with
  | nil => rfl
  | cons e r => obtain ⟨j, w⟩ := e; rfl

theorem above_tput {i k : Nat} {v : α} {t : Tbl α} (h : above i t = true) (hk : i < k) : above i (tput t k v) = true := by
  cases t with
  | nil => simpa [tput, above] using hk
  | cons e r =>
    obtain ⟨j, w⟩ := e
    simp only [tput]
    split
    · simpa [above] using hk
    · split
      · simpa [above] using hk
      · simpa [above] using h

theorem rising_tput {k : Nat} {v : α} {t : Tbl α} (h : rising t = true) : rising (tput t k v) = true := by
  induction t with
  | nil => rfl
  | cons e r ih =>
    obtain ⟨j, w⟩ := e
    rw [rising_cons, Bool.and_eq_true] at h
    simp only [tput]
    split
    · next hk =>
      rw [rising_cons, rising_cons, Bool.and_eq_true, Bool.and_eq_true]
      exact ⟨by simpa [above] using hk, h.1, h.2⟩
    · split
      · next hk =>
        subst hk
        rw [rising_cons, Bool.and_eq_true]
        exact ⟨h.1, h.2⟩
      · next h1 h2 => rw [rising_cons, Bool.and_eq_true]; exact ⟨above_tput h.1 (by omega), ih h.2⟩

theorem tdel_of_above {k : Nat} {t : Tbl α} (h : above k t = true) (hr : rising t = true) : tdel t k = t := by
  induction t with
  | nil => rfl
  | cons e r ih =>
    obtain ⟨j, w⟩ := e
    simp [above] at h
    rw [rising_cons, Bool.and_eq_true] at hr
    have : above k r = true := by
      cases r with
      | nil => rfl
      | cons f q => simp [above] at hr ⊢; omega
    simp [tdel, show j ≠ k by omega, ih this hr.2]

theorem above_tdel {i k : Nat} {t : Tbl α} (h : above i t = true) (hr : rising t = true) : above i (tdel t k) = true := by
  induction t with
  | nil => rfl
  | cons e r ih =>
    obtain ⟨j, w⟩ := e
    rw [rising_cons, Bool.and_eq_true] at hr
    simp only [tdel]
    split
    · refine ih ?_ hr.2
      cases r with
      | nil => rfl
      | cons f q => simp [above] at h hr ⊢; omega
    · simpa [above] using h

theorem rising_tdel {k : Nat} {t : Tbl α} (h : rising t = true) : rising (tdel t k) = true := by
  induction t with
  | nil => rfl
  | cons e r ih =>
    obtain ⟨j, w⟩ := e
    have h' := h
    rw [rising_cons, Bool.and_eq_true] at h
    simp only [tdel]
    split
    · exact ih h.2
    · rw [rising_cons, Bool.and_eq_true]; exact ⟨above_tdel h.1 h.2, ih h.2⟩

theorem all_tdel {p : Nat × α → Bool} {k : Nat} {t : Tbl α} (h : t.all p = true) : (tdel t k).all p = true := by
  induction t with
  | nil => rfl
  | cons e r ih =>
    obtain ⟨j, w⟩ := e
    simp only [List.all_cons, Bool.and_eq_true] at h
    simp only [tdel]
    split
    · exact ih h.2
    · simp only [List.all_cons, Bool.and_eq_true]; exact ⟨h.1, ih h.2⟩

theorem all_tput {p : Nat × α → Bool} {k : Nat} {v : α} {t : Tbl α} (h : t.all p = true) (hv : p (k, v) = true) :
    (tput t k v).all p = true := by
  induction t with
  | nil => simpa [tput] using hv
  | cons e r ih =>
    obtain ⟨j, w⟩ := e
    simp only [List.all_cons, Bool.and_eq_true] at h
    simp only [tput]
    split
    · simp only [List.all_cons, Bool.and_eq_true]; exact ⟨hv, h.1, h.2⟩
    · split
      · simp only [List.all_cons, Bool.and_eq_true]; exact ⟨hv, h.2⟩
      · simp only [List.all_cons, Bool.and_eq_true]; exact ⟨h.1, ih h.2⟩

/-- A write keeps the canonical form. -/
theorem canon_tset [DecidableEq α] {d : α} {t : Tbl α} {k : Nat} {v : α} (h : canon d t = true) :
    canon d (tset d t k v) = true := by
  simp only [canon, Bool.and_eq_true] at h ⊢
  unfold tset
  split
  · exact ⟨rising_tdel h.1, all_tdel h.2⟩
  · next hv => exact ⟨rising_tput h.1, all_tput h.2 (by simpa using hv)⟩

theorem canon_wrBytes {t : Tbl Byte} {a : Nat} {bs : Bytes} (h : canon (0 : Byte) t = true) :
    canon (0 : Byte) (wrBytes t a bs) = true := by
  induction bs generalizing t a with
  | nil => exact h
  | cons b r ih => exact ih (canon_tset h)

theorem Store.wf_set {st : Store} {a : Nat} {b : Byte} (h : st.wf = true) : (st.set a b).wf = true := by
  obtain ⟨g, cs⟩ := st
  cases g with
  | none => exact canon_tset (d := (0 : Byte)) h
  | some g => exact rising_tput h

theorem Store.wf_write {st : Store} {a : Nat} {bs : Bytes} (h : st.wf = true) : (st.write a bs).wf = true := by
  induction bs generalizing st a with
  | nil => exact h
  | cons b r ih => exact ih (Store.wf_set h)

theorem Store.wf_undef (g : Nat) : (Store.undef g).wf = true := rfl

theorem above_filter {i : Nat} {t : Tbl α} {p : Nat × α → Bool} (h : above i t = true) (hr : rising t = true) :
    above i (t.filter p) = true := by
  induction t with
  | nil => rfl
  | cons e r ih =>
    obtain ⟨j, w⟩ := e
    rw [rising_cons, Bool.and_eq_true] at hr
    simp only [List.filter_cons]
    split
    · simpa [above] using h
    · refine ih ?_ hr.2
      cases r with
      | nil => rfl
      | cons f q => simp [above] at h hr ⊢; omega

theorem rising_filter {t : Tbl α} {p : Nat × α → Bool} (h : rising t = true) : rising (t.filter p) = true := by
  induction t with
  | nil => rfl
  | cons e r ih =>
    obtain ⟨j, w⟩ := e
    rw [rising_cons, Bool.and_eq_true] at h
    simp only [List.filter_cons]
    split
    · rw [rising_cons, Bool.and_eq_true]; exact ⟨above_filter h.1 h.2, ih h.2⟩
    · exact ih h.2

theorem canon_filter [DecidableEq α] {d : α} {t : Tbl α} {p : Nat × α → Bool} (h : canon d t = true) :
    canon d (t.filter p) = true := by
  simp only [canon, Bool.and_eq_true] at h ⊢
  exact ⟨rising_filter h.1, by
    simp only [List.all_eq_true, List.mem_filter] at h ⊢
    exact fun e he => h.2 e he.1⟩

/-! ## Bytes -/

theorem tget_wrBytes {t : Tbl Byte} {a j : Nat} {bs : Bytes} :
    tget (0 : Byte) (wrBytes t a bs) j = if a ≤ j ∧ j < a + bs.length then bs.getD (j - a) (0 : Byte) else tget (0 : Byte) t j := by
  induction bs generalizing t a with
  | nil => rw [if_neg (by simp only [List.length_nil]; omega)]; rfl
  | cons b r ih =>
    simp only [wrBytes, ih, tget_tset, List.length_cons]
    by_cases h : j = a
    · subst h
      rw [if_neg (by omega), if_pos rfl, if_pos (by omega)]
      simp
    · by_cases h2 : a + 1 ≤ j ∧ j < a + 1 + r.length
      · rw [if_pos h2, if_pos (by omega), show j - a = (j - (a + 1)) + 1 by omega]; simp
      · rw [if_neg h2, if_neg h, if_neg (by omega)]

/-- Bytes read where they were written. -/
theorem rdBytes_wrBytes (t : Tbl Byte) (a : Nat) (bs : Bytes) : rdBytes (wrBytes t a bs) a bs.length = bs := by
  apply List.ext_getElem
  · simp [rdBytes]
  · intro i h1 h2
    simp only [rdBytes, List.getElem_map, List.getElem_range]
    have h : i < bs.length := by simpa [rdBytes] using h1
    rw [tget_wrBytes, if_pos (by omega)]
    simp [List.getD_eq_getElem?_getD, h]

/-- A byte outside the bytes written is as before. -/
theorem tget_wrBytes_outside {t : Tbl Byte} {a j : Nat} {bs : Bytes} (h : j < a ∨ a + bs.length ≤ j) :
    tget (0 : Byte) (wrBytes t a bs) j = tget (0 : Byte) t j := by
  rw [tget_wrBytes, if_neg (by omega)]

@[simp] theorem leBytes_length (n v : Nat) : (leBytes n v).length = n := by
  induction n generalizing v with
  | zero => rfl
  | succ n ih => simp [leBytes, ih]

theorem leNat_leBytes (n v : Nat) : leNat (leBytes n v) = v % 256 ^ n := by
  induction n generalizing v with
  | zero => simp [leBytes, leNat, Nat.mod_one]
  | succ n ih =>
    have h : (BitVec.ofNat 8 v).toNat = v % 256 := rfl
    simp only [leBytes, leNat, ih, h]
    rw [show 256 ^ (n + 1) = 256 * 256 ^ n by rw [Nat.pow_succ, Nat.mul_comm], Nat.mod_mul]

end Sys2Proof.Machine
end

