-- ==== Sys2Proof/Laws/State.lean ====
section
/-! SUPPORT. What each update of the state leaves as it is, field by field, and what it gives where it changes. -/

namespace Sys2Proof.Machine

section
variable (s : State)

@[simp] theorem State.modCore_pending {c f} : (s.modCore c f).pending = s.pending := rfl
@[simp] theorem State.modCore_free {c f} : (s.modCore c f).free = s.free := rfl
@[simp] theorem State.modCore_fuse {c f} : (s.modCore c f).fuse = s.fuse := rfl
@[simp] theorem State.modCore_mem {c f} : (s.modCore c f).mem = s.mem := rfl
@[simp] theorem State.modCore_rings {c f} : (s.modCore c f).rings = s.rings := rfl
@[simp] theorem State.modCore_msix {c f} : (s.modCore c f).msix = s.msix := rfl
@[simp] theorem State.modCore_ctx {c f} : (s.modCore c f).ctx = s.ctx := rfl
@[simp] theorem State.modCore_resident {c f} : (s.modCore c f).resident = s.resident := rfl
@[simp] theorem State.modCore_globalIl {c f} : (s.modCore c f).globalIl = s.globalIl := rfl
@[simp] theorem State.modCore_eng {c f} : (s.modCore c f).eng = s.eng := rfl
@[simp] theorem State.modCore_ports {c f} : (s.modCore c f).ports = s.ports := rfl
@[simp] theorem State.modCore_sync {c f} : (s.modCore c f).sync = s.sync := rfl
@[simp] theorem State.modCore_remap {c f} : (s.modCore c f).remap = s.remap := rfl
@[simp] theorem State.modCore_stb {c f} : (s.modCore c f).stb = s.stb := rfl
@[simp] theorem State.modCore_net {c f} : (s.modCore c f).net = s.net := rfl
@[simp] theorem State.modCore_stack {c f} : (s.modCore c f).stack = s.stack := rfl
@[simp] theorem State.modCore_scrub {c f} : (s.modCore c f).scrub = s.scrub := rfl
@[simp] theorem State.modCore_memLock {c f} : (s.modCore c f).memLock = s.memLock := rfl
@[simp] theorem State.modCore_linkLock {c f} : (s.modCore c f).linkLock = s.linkLock := rfl
@[simp] theorem State.modCore_lsecLock {c f} : (s.modCore c f).lsecLock = s.lsecLock := rfl
@[simp] theorem State.modCore_ue {c f} : (s.modCore c f).ue = s.ue := rfl
@[simp] theorem State.modCore_cx {c f} : (s.modCore c f).cx = s.cx := rfl
@[simp] theorem State.modCore_cm {c f} : (s.modCore c f).cm = s.cm := rfl
@[simp] theorem State.modCore_flt {c f} : (s.modCore c f).flt = s.flt := rfl
@[simp] theorem State.modCore_pmc {c f} : (s.modCore c f).pmc = s.pmc := rfl
@[simp] theorem State.modCore_sec {c f} : (s.modCore c f).sec = s.sec := rfl
@[simp] theorem State.modCore_fru {c f} : (s.modCore c f).fru = s.fru := rfl
@[simp] theorem State.modCore_sb {c f} : (s.modCore c f).sb = s.sb := rfl
@[simp] theorem State.modCore_pin {c f} : (s.modCore c f).pin = s.pin := rfl
@[simp] theorem State.modCore_bus {c f} : (s.modCore c f).bus = s.bus := rfl
@[simp] theorem State.modCore_fw {c f} : (s.modCore c f).fw = s.fw := rfl
@[simp] theorem State.modCore_radishRun {c f} : (s.modCore c f).radishRun = s.radishRun := rfl
@[simp] theorem State.modCore_resetDue {c f} : (s.modCore c f).resetDue = s.resetDue := rfl
@[simp] theorem State.modCore_rsv {c f} : (s.modCore c f).rsv = s.rsv := rfl

end

section
variable (s : State)

@[simp] theorem State.modBlock_pending {d k f} : (s.modBlock d k f).pending = s.pending := rfl
@[simp] theorem State.modBlock_free {d k f} : (s.modBlock d k f).free = s.free := rfl
@[simp] theorem State.modBlock_fuse {d k f} : (s.modBlock d k f).fuse = s.fuse := rfl
@[simp] theorem State.modBlock_mem {d k f} : (s.modBlock d k f).mem = s.mem := rfl
@[simp] theorem State.modBlock_rings {d k f} : (s.modBlock d k f).rings = s.rings := rfl
@[simp] theorem State.modBlock_msix {d k f} : (s.modBlock d k f).msix = s.msix := rfl
@[simp] theorem State.modBlock_ctx {d k f} : (s.modBlock d k f).ctx = s.ctx := rfl
@[simp] theorem State.modBlock_resident {d k f} : (s.modBlock d k f).resident = s.resident := rfl
@[simp] theorem State.modBlock_globalIl {d k f} : (s.modBlock d k f).globalIl = s.globalIl := rfl
@[simp] theorem State.modBlock_eng {d k f} : (s.modBlock d k f).eng = s.eng := rfl
@[simp] theorem State.modBlock_ports {d k f} : (s.modBlock d k f).ports = s.ports := rfl
@[simp] theorem State.modBlock_sync {d k f} : (s.modBlock d k f).sync = s.sync := rfl
@[simp] theorem State.modBlock_remap {d k f} : (s.modBlock d k f).remap = s.remap := rfl
@[simp] theorem State.modBlock_stb {d k f} : (s.modBlock d k f).stb = s.stb := rfl
@[simp] theorem State.modBlock_net {d k f} : (s.modBlock d k f).net = s.net := rfl
@[simp] theorem State.modBlock_stack {d k f} : (s.modBlock d k f).stack = s.stack := rfl
@[simp] theorem State.modBlock_scrub {d k f} : (s.modBlock d k f).scrub = s.scrub := rfl
@[simp] theorem State.modBlock_memLock {d k f} : (s.modBlock d k f).memLock = s.memLock := rfl
@[simp] theorem State.modBlock_linkLock {d k f} : (s.modBlock d k f).linkLock = s.linkLock := rfl
@[simp] theorem State.modBlock_lsecLock {d k f} : (s.modBlock d k f).lsecLock = s.lsecLock := rfl
@[simp] theorem State.modBlock_ue {d k f} : (s.modBlock d k f).ue = s.ue := rfl
@[simp] theorem State.modBlock_cx {d k f} : (s.modBlock d k f).cx = s.cx := rfl
@[simp] theorem State.modBlock_cm {d k f} : (s.modBlock d k f).cm = s.cm := rfl
@[simp] theorem State.modBlock_flt {d k f} : (s.modBlock d k f).flt = s.flt := rfl
@[simp] theorem State.modBlock_pmc {d k f} : (s.modBlock d k f).pmc = s.pmc := rfl
@[simp] theorem State.modBlock_sec {d k f} : (s.modBlock d k f).sec = s.sec := rfl
@[simp] theorem State.modBlock_fru {d k f} : (s.modBlock d k f).fru = s.fru := rfl
@[simp] theorem State.modBlock_sb {d k f} : (s.modBlock d k f).sb = s.sb := rfl
@[simp] theorem State.modBlock_pin {d k f} : (s.modBlock d k f).pin = s.pin := rfl
@[simp] theorem State.modBlock_bus {d k f} : (s.modBlock d k f).bus = s.bus := rfl
@[simp] theorem State.modBlock_fw {d k f} : (s.modBlock d k f).fw = s.fw := rfl
@[simp] theorem State.modBlock_radishRun {d k f} : (s.modBlock d k f).radishRun = s.radishRun := rfl
@[simp] theorem State.modBlock_resetDue {d k f} : (s.modBlock d k f).resetDue = s.resetDue := rfl
@[simp] theorem State.modBlock_rsv {d k f} : (s.modBlock d k f).rsv = s.rsv := rfl

end

section
variable (s : State)

@[simp] theorem State.setEng_pending {e v} : (s.setEng e v).pending = s.pending := rfl
@[simp] theorem State.setEng_free {e v} : (s.setEng e v).free = s.free := rfl
@[simp] theorem State.setEng_fuse {e v} : (s.setEng e v).fuse = s.fuse := rfl
@[simp] theorem State.setEng_mem {e v} : (s.setEng e v).mem = s.mem := rfl
@[simp] theorem State.setEng_rings {e v} : (s.setEng e v).rings = s.rings := rfl
@[simp] theorem State.setEng_msix {e v} : (s.setEng e v).msix = s.msix := rfl
@[simp] theorem State.setEng_ctx {e v} : (s.setEng e v).ctx = s.ctx := rfl
@[simp] theorem State.setEng_resident {e v} : (s.setEng e v).resident = s.resident := rfl
@[simp] theorem State.setEng_globalIl {e v} : (s.setEng e v).globalIl = s.globalIl := rfl
@[simp] theorem State.setEng_core {e v} : (s.setEng e v).core = s.core := rfl
@[simp] theorem State.setEng_ports {e v} : (s.setEng e v).ports = s.ports := rfl
@[simp] theorem State.setEng_sync {e v} : (s.setEng e v).sync = s.sync := rfl
@[simp] theorem State.setEng_remap {e v} : (s.setEng e v).remap = s.remap := rfl
@[simp] theorem State.setEng_stb {e v} : (s.setEng e v).stb = s.stb := rfl
@[simp] theorem State.setEng_net {e v} : (s.setEng e v).net = s.net := rfl
@[simp] theorem State.setEng_stack {e v} : (s.setEng e v).stack = s.stack := rfl
@[simp] theorem State.setEng_scrub {e v} : (s.setEng e v).scrub = s.scrub := rfl
@[simp] theorem State.setEng_memLock {e v} : (s.setEng e v).memLock = s.memLock := rfl
@[simp] theorem State.setEng_linkLock {e v} : (s.setEng e v).linkLock = s.linkLock := rfl
@[simp] theorem State.setEng_lsecLock {e v} : (s.setEng e v).lsecLock = s.lsecLock := rfl
@[simp] theorem State.setEng_ue {e v} : (s.setEng e v).ue = s.ue := rfl
@[simp] theorem State.setEng_cx {e v} : (s.setEng e v).cx = s.cx := rfl
@[simp] theorem State.setEng_cm {e v} : (s.setEng e v).cm = s.cm := rfl
@[simp] theorem State.setEng_flt {e v} : (s.setEng e v).flt = s.flt := rfl
@[simp] theorem State.setEng_pmc {e v} : (s.setEng e v).pmc = s.pmc := rfl
@[simp] theorem State.setEng_sec {e v} : (s.setEng e v).sec = s.sec := rfl
@[simp] theorem State.setEng_fru {e v} : (s.setEng e v).fru = s.fru := rfl
@[simp] theorem State.setEng_sb {e v} : (s.setEng e v).sb = s.sb := rfl
@[simp] theorem State.setEng_pin {e v} : (s.setEng e v).pin = s.pin := rfl
@[simp] theorem State.setEng_bus {e v} : (s.setEng e v).bus = s.bus := rfl
@[simp] theorem State.setEng_fw {e v} : (s.setEng e v).fw = s.fw := rfl
@[simp] theorem State.setEng_radishRun {e v} : (s.setEng e v).radishRun = s.radishRun := rfl
@[simp] theorem State.setEng_resetDue {e v} : (s.setEng e v).resetDue = s.resetDue := rfl
@[simp] theorem State.setEng_rsv {e v} : (s.setEng e v).rsv = s.rsv := rfl

end

section
variable (s : State)

@[simp] theorem State.modCtx_pending {k f} : (s.modCtx k f).pending = s.pending := rfl
@[simp] theorem State.modCtx_free {k f} : (s.modCtx k f).free = s.free := rfl
@[simp] theorem State.modCtx_fuse {k f} : (s.modCtx k f).fuse = s.fuse := rfl
@[simp] theorem State.modCtx_mem {k f} : (s.modCtx k f).mem = s.mem := rfl
@[simp] theorem State.modCtx_rings {k f} : (s.modCtx k f).rings = s.rings := rfl
@[simp] theorem State.modCtx_msix {k f} : (s.modCtx k f).msix = s.msix := rfl
@[simp] theorem State.modCtx_resident {k f} : (s.modCtx k f).resident = s.resident := rfl
@[simp] theorem State.modCtx_globalIl {k f} : (s.modCtx k f).globalIl = s.globalIl := rfl
@[simp] theorem State.modCtx_eng {k f} : (s.modCtx k f).eng = s.eng := rfl
@[simp] theorem State.modCtx_core {k f} : (s.modCtx k f).core = s.core := rfl
@[simp] theorem State.modCtx_ports {k f} : (s.modCtx k f).ports = s.ports := rfl
@[simp] theorem State.modCtx_sync {k f} : (s.modCtx k f).sync = s.sync := rfl
@[simp] theorem State.modCtx_remap {k f} : (s.modCtx k f).remap = s.remap := rfl
@[simp] theorem State.modCtx_stb {k f} : (s.modCtx k f).stb = s.stb := rfl
@[simp] theorem State.modCtx_net {k f} : (s.modCtx k f).net = s.net := rfl
@[simp] theorem State.modCtx_stack {k f} : (s.modCtx k f).stack = s.stack := rfl
@[simp] theorem State.modCtx_scrub {k f} : (s.modCtx k f).scrub = s.scrub := rfl
@[simp] theorem State.modCtx_memLock {k f} : (s.modCtx k f).memLock = s.memLock := rfl
@[simp] theorem State.modCtx_linkLock {k f} : (s.modCtx k f).linkLock = s.linkLock := rfl
@[simp] theorem State.modCtx_lsecLock {k f} : (s.modCtx k f).lsecLock = s.lsecLock := rfl
@[simp] theorem State.modCtx_ue {k f} : (s.modCtx k f).ue = s.ue := rfl
@[simp] theorem State.modCtx_cx {k f} : (s.modCtx k f).cx = s.cx := rfl
@[simp] theorem State.modCtx_cm {k f} : (s.modCtx k f).cm = s.cm := rfl
@[simp] theorem State.modCtx_flt {k f} : (s.modCtx k f).flt = s.flt := rfl
@[simp] theorem State.modCtx_pmc {k f} : (s.modCtx k f).pmc = s.pmc := rfl
@[simp] theorem State.modCtx_sec {k f} : (s.modCtx k f).sec = s.sec := rfl
@[simp] theorem State.modCtx_fru {k f} : (s.modCtx k f).fru = s.fru := rfl
@[simp] theorem State.modCtx_sb {k f} : (s.modCtx k f).sb = s.sb := rfl
@[simp] theorem State.modCtx_pin {k f} : (s.modCtx k f).pin = s.pin := rfl
@[simp] theorem State.modCtx_bus {k f} : (s.modCtx k f).bus = s.bus := rfl
@[simp] theorem State.modCtx_fw {k f} : (s.modCtx k f).fw = s.fw := rfl
@[simp] theorem State.modCtx_radishRun {k f} : (s.modCtx k f).radishRun = s.radishRun := rfl
@[simp] theorem State.modCtx_resetDue {k f} : (s.modCtx k f).resetDue = s.resetDue := rfl
@[simp] theorem State.modCtx_rsv {k f} : (s.modCtx k f).rsv = s.rsv := rfl

end

section
variable (s : State)

@[simp] theorem State.wire_pending {r} : (s.wire r).pending = s.pending := rfl
@[simp] theorem State.wire_free {r} : (s.wire r).free = s.free := rfl
@[simp] theorem State.wire_fuse {r} : (s.wire r).fuse = s.fuse := rfl
@[simp] theorem State.wire_mem {r} : (s.wire r).mem = s.mem := rfl
@[simp] theorem State.wire_rings {r} : (s.wire r).rings = s.rings := rfl
@[simp] theorem State.wire_msix {r} : (s.wire r).msix = s.msix := rfl
@[simp] theorem State.wire_ctx {r} : (s.wire r).ctx = s.ctx := rfl
@[simp] theorem State.wire_resident {r} : (s.wire r).resident = s.resident := rfl
@[simp] theorem State.wire_globalIl {r} : (s.wire r).globalIl = s.globalIl := rfl
@[simp] theorem State.wire_eng {r} : (s.wire r).eng = s.eng := rfl
@[simp] theorem State.wire_core {r} : (s.wire r).core = s.core := rfl
@[simp] theorem State.wire_ports {r} : (s.wire r).ports = s.ports := rfl
@[simp] theorem State.wire_sync {r} : (s.wire r).sync = s.sync := rfl
@[simp] theorem State.wire_remap {r} : (s.wire r).remap = s.remap := rfl
@[simp] theorem State.wire_stb {r} : (s.wire r).stb = s.stb := rfl
@[simp] theorem State.wire_net {r} : (s.wire r).net = s.net := rfl
@[simp] theorem State.wire_stack {r} : (s.wire r).stack = s.stack := rfl
@[simp] theorem State.wire_scrub {r} : (s.wire r).scrub = s.scrub := rfl
@[simp] theorem State.wire_memLock {r} : (s.wire r).memLock = s.memLock := rfl
@[simp] theorem State.wire_linkLock {r} : (s.wire r).linkLock = s.linkLock := rfl
@[simp] theorem State.wire_lsecLock {r} : (s.wire r).lsecLock = s.lsecLock := rfl
@[simp] theorem State.wire_ue {r} : (s.wire r).ue = s.ue := rfl
@[simp] theorem State.wire_cx {r} : (s.wire r).cx = s.cx := rfl
@[simp] theorem State.wire_cm {r} : (s.wire r).cm = s.cm := rfl
@[simp] theorem State.wire_pmc {r} : (s.wire r).pmc = s.pmc := rfl
@[simp] theorem State.wire_sec {r} : (s.wire r).sec = s.sec := rfl
@[simp] theorem State.wire_fru {r} : (s.wire r).fru = s.fru := rfl
@[simp] theorem State.wire_sb {r} : (s.wire r).sb = s.sb := rfl
@[simp] theorem State.wire_pin {r} : (s.wire r).pin = s.pin := rfl
@[simp] theorem State.wire_bus {r} : (s.wire r).bus = s.bus := rfl
@[simp] theorem State.wire_fw {r} : (s.wire r).fw = s.fw := rfl
@[simp] theorem State.wire_radishRun {r} : (s.wire r).radishRun = s.radishRun := rfl
@[simp] theorem State.wire_resetDue {r} : (s.wire r).resetDue = s.resetDue := rfl
@[simp] theorem State.wire_rsv {r} : (s.wire r).rsv = s.rsv := rfl

end

section
variable (s : State)

@[simp] theorem State.modXs_pending {k f} : (s.modXs k f).pending = s.pending := rfl
@[simp] theorem State.modXs_free {k f} : (s.modXs k f).free = s.free := rfl
@[simp] theorem State.modXs_fuse {k f} : (s.modXs k f).fuse = s.fuse := rfl
@[simp] theorem State.modXs_mem {k f} : (s.modXs k f).mem = s.mem := rfl
@[simp] theorem State.modXs_rings {k f} : (s.modXs k f).rings = s.rings := rfl
@[simp] theorem State.modXs_msix {k f} : (s.modXs k f).msix = s.msix := rfl
@[simp] theorem State.modXs_ctx {k f} : (s.modXs k f).ctx = s.ctx := rfl
@[simp] theorem State.modXs_resident {k f} : (s.modXs k f).resident = s.resident := rfl
@[simp] theorem State.modXs_globalIl {k f} : (s.modXs k f).globalIl = s.globalIl := rfl
@[simp] theorem State.modXs_eng {k f} : (s.modXs k f).eng = s.eng := rfl
@[simp] theorem State.modXs_core {k f} : (s.modXs k f).core = s.core := rfl
@[simp] theorem State.modXs_ports {k f} : (s.modXs k f).ports = s.ports := rfl
@[simp] theorem State.modXs_remap {k f} : (s.modXs k f).remap = s.remap := rfl
@[simp] theorem State.modXs_stb {k f} : (s.modXs k f).stb = s.stb := rfl
@[simp] theorem State.modXs_net {k f} : (s.modXs k f).net = s.net := rfl
@[simp] theorem State.modXs_stack {k f} : (s.modXs k f).stack = s.stack := rfl
@[simp] theorem State.modXs_scrub {k f} : (s.modXs k f).scrub = s.scrub := rfl
@[simp] theorem State.modXs_memLock {k f} : (s.modXs k f).memLock = s.memLock := rfl
@[simp] theorem State.modXs_linkLock {k f} : (s.modXs k f).linkLock = s.linkLock := rfl
@[simp] theorem State.modXs_lsecLock {k f} : (s.modXs k f).lsecLock = s.lsecLock := rfl
@[simp] theorem State.modXs_ue {k f} : (s.modXs k f).ue = s.ue := rfl
@[simp] theorem State.modXs_cx {k f} : (s.modXs k f).cx = s.cx := rfl
@[simp] theorem State.modXs_cm {k f} : (s.modXs k f).cm = s.cm := rfl
@[simp] theorem State.modXs_flt {k f} : (s.modXs k f).flt = s.flt := rfl
@[simp] theorem State.modXs_pmc {k f} : (s.modXs k f).pmc = s.pmc := rfl
@[simp] theorem State.modXs_sec {k f} : (s.modXs k f).sec = s.sec := rfl
@[simp] theorem State.modXs_fru {k f} : (s.modXs k f).fru = s.fru := rfl
@[simp] theorem State.modXs_sb {k f} : (s.modXs k f).sb = s.sb := rfl
@[simp] theorem State.modXs_pin {k f} : (s.modXs k f).pin = s.pin := rfl
@[simp] theorem State.modXs_bus {k f} : (s.modXs k f).bus = s.bus := rfl
@[simp] theorem State.modXs_fw {k f} : (s.modXs k f).fw = s.fw := rfl
@[simp] theorem State.modXs_radishRun {k f} : (s.modXs k f).radishRun = s.radishRun := rfl
@[simp] theorem State.modXs_resetDue {k f} : (s.modXs k f).resetDue = s.resetDue := rfl
@[simp] theorem State.modXs_rsv {k f} : (s.modXs k f).rsv = s.rsv := rfl

end

section
variable (s : State)

@[simp] theorem State.modSlot_pending {k f} : (s.modSlot k f).pending = s.pending := rfl
@[simp] theorem State.modSlot_free {k f} : (s.modSlot k f).free = s.free := rfl
@[simp] theorem State.modSlot_fuse {k f} : (s.modSlot k f).fuse = s.fuse := rfl
@[simp] theorem State.modSlot_mem {k f} : (s.modSlot k f).mem = s.mem := rfl
@[simp] theorem State.modSlot_rings {k f} : (s.modSlot k f).rings = s.rings := rfl
@[simp] theorem State.modSlot_msix {k f} : (s.modSlot k f).msix = s.msix := rfl
@[simp] theorem State.modSlot_ctx {k f} : (s.modSlot k f).ctx = s.ctx := rfl
@[simp] theorem State.modSlot_resident {k f} : (s.modSlot k f).resident = s.resident := rfl
@[simp] theorem State.modSlot_globalIl {k f} : (s.modSlot k f).globalIl = s.globalIl := rfl
@[simp] theorem State.modSlot_eng {k f} : (s.modSlot k f).eng = s.eng := rfl
@[simp] theorem State.modSlot_core {k f} : (s.modSlot k f).core = s.core := rfl
@[simp] theorem State.modSlot_ports {k f} : (s.modSlot k f).ports = s.ports := rfl
@[simp] theorem State.modSlot_remap {k f} : (s.modSlot k f).remap = s.remap := rfl
@[simp] theorem State.modSlot_stb {k f} : (s.modSlot k f).stb = s.stb := rfl
@[simp] theorem State.modSlot_net {k f} : (s.modSlot k f).net = s.net := rfl
@[simp] theorem State.modSlot_stack {k f} : (s.modSlot k f).stack = s.stack := rfl
@[simp] theorem State.modSlot_scrub {k f} : (s.modSlot k f).scrub = s.scrub := rfl
@[simp] theorem State.modSlot_memLock {k f} : (s.modSlot k f).memLock = s.memLock := rfl
@[simp] theorem State.modSlot_linkLock {k f} : (s.modSlot k f).linkLock = s.linkLock := rfl
@[simp] theorem State.modSlot_lsecLock {k f} : (s.modSlot k f).lsecLock = s.lsecLock := rfl
@[simp] theorem State.modSlot_ue {k f} : (s.modSlot k f).ue = s.ue := rfl
@[simp] theorem State.modSlot_cx {k f} : (s.modSlot k f).cx = s.cx := rfl
@[simp] theorem State.modSlot_cm {k f} : (s.modSlot k f).cm = s.cm := rfl
@[simp] theorem State.modSlot_flt {k f} : (s.modSlot k f).flt = s.flt := rfl
@[simp] theorem State.modSlot_pmc {k f} : (s.modSlot k f).pmc = s.pmc := rfl
@[simp] theorem State.modSlot_sec {k f} : (s.modSlot k f).sec = s.sec := rfl
@[simp] theorem State.modSlot_fru {k f} : (s.modSlot k f).fru = s.fru := rfl
@[simp] theorem State.modSlot_sb {k f} : (s.modSlot k f).sb = s.sb := rfl
@[simp] theorem State.modSlot_pin {k f} : (s.modSlot k f).pin = s.pin := rfl
@[simp] theorem State.modSlot_bus {k f} : (s.modSlot k f).bus = s.bus := rfl
@[simp] theorem State.modSlot_fw {k f} : (s.modSlot k f).fw = s.fw := rfl
@[simp] theorem State.modSlot_radishRun {k f} : (s.modSlot k f).radishRun = s.radishRun := rfl
@[simp] theorem State.modSlot_resetDue {k f} : (s.modSlot k f).resetDue = s.resetDue := rfl
@[simp] theorem State.modSlot_rsv {k f} : (s.modSlot k f).rsv = s.rsv := rfl

end

section
variable (s : State)

@[simp] theorem State.modStack_pending {k f} : (s.modStack k f).pending = s.pending := rfl
@[simp] theorem State.modStack_free {k f} : (s.modStack k f).free = s.free := rfl
@[simp] theorem State.modStack_fuse {k f} : (s.modStack k f).fuse = s.fuse := rfl
@[simp] theorem State.modStack_mem {k f} : (s.modStack k f).mem = s.mem := rfl
@[simp] theorem State.modStack_rings {k f} : (s.modStack k f).rings = s.rings := rfl
@[simp] theorem State.modStack_msix {k f} : (s.modStack k f).msix = s.msix := rfl
@[simp] theorem State.modStack_ctx {k f} : (s.modStack k f).ctx = s.ctx := rfl
@[simp] theorem State.modStack_resident {k f} : (s.modStack k f).resident = s.resident := rfl
@[simp] theorem State.modStack_globalIl {k f} : (s.modStack k f).globalIl = s.globalIl := rfl
@[simp] theorem State.modStack_eng {k f} : (s.modStack k f).eng = s.eng := rfl
@[simp] theorem State.modStack_core {k f} : (s.modStack k f).core = s.core := rfl
@[simp] theorem State.modStack_ports {k f} : (s.modStack k f).ports = s.ports := rfl
@[simp] theorem State.modStack_sync {k f} : (s.modStack k f).sync = s.sync := rfl
@[simp] theorem State.modStack_remap {k f} : (s.modStack k f).remap = s.remap := rfl
@[simp] theorem State.modStack_stb {k f} : (s.modStack k f).stb = s.stb := rfl
@[simp] theorem State.modStack_net {k f} : (s.modStack k f).net = s.net := rfl
@[simp] theorem State.modStack_scrub {k f} : (s.modStack k f).scrub = s.scrub := rfl
@[simp] theorem State.modStack_memLock {k f} : (s.modStack k f).memLock = s.memLock := rfl
@[simp] theorem State.modStack_linkLock {k f} : (s.modStack k f).linkLock = s.linkLock := rfl
@[simp] theorem State.modStack_lsecLock {k f} : (s.modStack k f).lsecLock = s.lsecLock := rfl
@[simp] theorem State.modStack_ue {k f} : (s.modStack k f).ue = s.ue := rfl
@[simp] theorem State.modStack_cx {k f} : (s.modStack k f).cx = s.cx := rfl
@[simp] theorem State.modStack_cm {k f} : (s.modStack k f).cm = s.cm := rfl
@[simp] theorem State.modStack_flt {k f} : (s.modStack k f).flt = s.flt := rfl
@[simp] theorem State.modStack_pmc {k f} : (s.modStack k f).pmc = s.pmc := rfl
@[simp] theorem State.modStack_sec {k f} : (s.modStack k f).sec = s.sec := rfl
@[simp] theorem State.modStack_fru {k f} : (s.modStack k f).fru = s.fru := rfl
@[simp] theorem State.modStack_sb {k f} : (s.modStack k f).sb = s.sb := rfl
@[simp] theorem State.modStack_pin {k f} : (s.modStack k f).pin = s.pin := rfl
@[simp] theorem State.modStack_bus {k f} : (s.modStack k f).bus = s.bus := rfl
@[simp] theorem State.modStack_fw {k f} : (s.modStack k f).fw = s.fw := rfl
@[simp] theorem State.modStack_radishRun {k f} : (s.modStack k f).radishRun = s.radishRun := rfl
@[simp] theorem State.modStack_resetDue {k f} : (s.modStack k f).resetDue = s.resetDue := rfl
@[simp] theorem State.modStack_rsv {k f} : (s.modStack k f).rsv = s.rsv := rfl

end

section
variable (s : State)

@[simp] theorem State.modMember_pending {k f} : (s.modMember k f).pending = s.pending := rfl
@[simp] theorem State.modMember_free {k f} : (s.modMember k f).free = s.free := rfl
@[simp] theorem State.modMember_fuse {k f} : (s.modMember k f).fuse = s.fuse := rfl
@[simp] theorem State.modMember_mem {k f} : (s.modMember k f).mem = s.mem := rfl
@[simp] theorem State.modMember_rings {k f} : (s.modMember k f).rings = s.rings := rfl
@[simp] theorem State.modMember_msix {k f} : (s.modMember k f).msix = s.msix := rfl
@[simp] theorem State.modMember_ctx {k f} : (s.modMember k f).ctx = s.ctx := rfl
@[simp] theorem State.modMember_resident {k f} : (s.modMember k f).resident = s.resident := rfl
@[simp] theorem State.modMember_globalIl {k f} : (s.modMember k f).globalIl = s.globalIl := rfl
@[simp] theorem State.modMember_eng {k f} : (s.modMember k f).eng = s.eng := rfl
@[simp] theorem State.modMember_core {k f} : (s.modMember k f).core = s.core := rfl
@[simp] theorem State.modMember_ports {k f} : (s.modMember k f).ports = s.ports := rfl
@[simp] theorem State.modMember_sync {k f} : (s.modMember k f).sync = s.sync := rfl
@[simp] theorem State.modMember_remap {k f} : (s.modMember k f).remap = s.remap := rfl
@[simp] theorem State.modMember_stb {k f} : (s.modMember k f).stb = s.stb := rfl
@[simp] theorem State.modMember_stack {k f} : (s.modMember k f).stack = s.stack := rfl
@[simp] theorem State.modMember_scrub {k f} : (s.modMember k f).scrub = s.scrub := rfl
@[simp] theorem State.modMember_memLock {k f} : (s.modMember k f).memLock = s.memLock := rfl
@[simp] theorem State.modMember_linkLock {k f} : (s.modMember k f).linkLock = s.linkLock := rfl
@[simp] theorem State.modMember_lsecLock {k f} : (s.modMember k f).lsecLock = s.lsecLock := rfl
@[simp] theorem State.modMember_ue {k f} : (s.modMember k f).ue = s.ue := rfl
@[simp] theorem State.modMember_cx {k f} : (s.modMember k f).cx = s.cx := rfl
@[simp] theorem State.modMember_cm {k f} : (s.modMember k f).cm = s.cm := rfl
@[simp] theorem State.modMember_flt {k f} : (s.modMember k f).flt = s.flt := rfl
@[simp] theorem State.modMember_pmc {k f} : (s.modMember k f).pmc = s.pmc := rfl
@[simp] theorem State.modMember_sec {k f} : (s.modMember k f).sec = s.sec := rfl
@[simp] theorem State.modMember_fru {k f} : (s.modMember k f).fru = s.fru := rfl
@[simp] theorem State.modMember_sb {k f} : (s.modMember k f).sb = s.sb := rfl
@[simp] theorem State.modMember_pin {k f} : (s.modMember k f).pin = s.pin := rfl
@[simp] theorem State.modMember_bus {k f} : (s.modMember k f).bus = s.bus := rfl
@[simp] theorem State.modMember_fw {k f} : (s.modMember k f).fw = s.fw := rfl
@[simp] theorem State.modMember_radishRun {k f} : (s.modMember k f).radishRun = s.radishRun := rfl
@[simp] theorem State.modMember_resetDue {k f} : (s.modMember k f).resetDue = s.resetDue := rfl
@[simp] theorem State.modMember_rsv {k f} : (s.modMember k f).rsv = s.rsv := rfl

end

section
variable (s : State)

@[simp] theorem State.modStream_pending {k f} : (s.modStream k f).pending = s.pending := rfl
@[simp] theorem State.modStream_free {k f} : (s.modStream k f).free = s.free := rfl
@[simp] theorem State.modStream_fuse {k f} : (s.modStream k f).fuse = s.fuse := rfl
@[simp] theorem State.modStream_mem {k f} : (s.modStream k f).mem = s.mem := rfl
@[simp] theorem State.modStream_rings {k f} : (s.modStream k f).rings = s.rings := rfl
@[simp] theorem State.modStream_msix {k f} : (s.modStream k f).msix = s.msix := rfl
@[simp] theorem State.modStream_ctx {k f} : (s.modStream k f).ctx = s.ctx := rfl
@[simp] theorem State.modStream_resident {k f} : (s.modStream k f).resident = s.resident := rfl
@[simp] theorem State.modStream_globalIl {k f} : (s.modStream k f).globalIl = s.globalIl := rfl
@[simp] theorem State.modStream_eng {k f} : (s.modStream k f).eng = s.eng := rfl
@[simp] theorem State.modStream_core {k f} : (s.modStream k f).core = s.core := rfl
@[simp] theorem State.modStream_ports {k f} : (s.modStream k f).ports = s.ports := rfl
@[simp] theorem State.modStream_sync {k f} : (s.modStream k f).sync = s.sync := rfl
@[simp] theorem State.modStream_remap {k f} : (s.modStream k f).remap = s.remap := rfl
@[simp] theorem State.modStream_stb {k f} : (s.modStream k f).stb = s.stb := rfl
@[simp] theorem State.modStream_stack {k f} : (s.modStream k f).stack = s.stack := rfl
@[simp] theorem State.modStream_scrub {k f} : (s.modStream k f).scrub = s.scrub := rfl
@[simp] theorem State.modStream_memLock {k f} : (s.modStream k f).memLock = s.memLock := rfl
@[simp] theorem State.modStream_linkLock {k f} : (s.modStream k f).linkLock = s.linkLock := rfl
@[simp] theorem State.modStream_lsecLock {k f} : (s.modStream k f).lsecLock = s.lsecLock := rfl
@[simp] theorem State.modStream_ue {k f} : (s.modStream k f).ue = s.ue := rfl
@[simp] theorem State.modStream_cx {k f} : (s.modStream k f).cx = s.cx := rfl
@[simp] theorem State.modStream_cm {k f} : (s.modStream k f).cm = s.cm := rfl
@[simp] theorem State.modStream_flt {k f} : (s.modStream k f).flt = s.flt := rfl
@[simp] theorem State.modStream_pmc {k f} : (s.modStream k f).pmc = s.pmc := rfl
@[simp] theorem State.modStream_sec {k f} : (s.modStream k f).sec = s.sec := rfl
@[simp] theorem State.modStream_fru {k f} : (s.modStream k f).fru = s.fru := rfl
@[simp] theorem State.modStream_sb {k f} : (s.modStream k f).sb = s.sb := rfl
@[simp] theorem State.modStream_pin {k f} : (s.modStream k f).pin = s.pin := rfl
@[simp] theorem State.modStream_bus {k f} : (s.modStream k f).bus = s.bus := rfl
@[simp] theorem State.modStream_fw {k f} : (s.modStream k f).fw = s.fw := rfl
@[simp] theorem State.modStream_radishRun {k f} : (s.modStream k f).radishRun = s.radishRun := rfl
@[simp] theorem State.modStream_resetDue {k f} : (s.modStream k f).resetDue = s.resetDue := rfl
@[simp] theorem State.modStream_rsv {k f} : (s.modStream k f).rsv = s.rsv := rfl

end

section
variable (s : State)

@[simp] theorem State.modMkt_pending {k f} : (s.modMkt k f).pending = s.pending := rfl
@[simp] theorem State.modMkt_free {k f} : (s.modMkt k f).free = s.free := rfl
@[simp] theorem State.modMkt_fuse {k f} : (s.modMkt k f).fuse = s.fuse := rfl
@[simp] theorem State.modMkt_mem {k f} : (s.modMkt k f).mem = s.mem := rfl
@[simp] theorem State.modMkt_rings {k f} : (s.modMkt k f).rings = s.rings := rfl
@[simp] theorem State.modMkt_msix {k f} : (s.modMkt k f).msix = s.msix := rfl
@[simp] theorem State.modMkt_ctx {k f} : (s.modMkt k f).ctx = s.ctx := rfl
@[simp] theorem State.modMkt_resident {k f} : (s.modMkt k f).resident = s.resident := rfl
@[simp] theorem State.modMkt_globalIl {k f} : (s.modMkt k f).globalIl = s.globalIl := rfl
@[simp] theorem State.modMkt_eng {k f} : (s.modMkt k f).eng = s.eng := rfl
@[simp] theorem State.modMkt_core {k f} : (s.modMkt k f).core = s.core := rfl
@[simp] theorem State.modMkt_ports {k f} : (s.modMkt k f).ports = s.ports := rfl
@[simp] theorem State.modMkt_sync {k f} : (s.modMkt k f).sync = s.sync := rfl
@[simp] theorem State.modMkt_remap {k f} : (s.modMkt k f).remap = s.remap := rfl
@[simp] theorem State.modMkt_stb {k f} : (s.modMkt k f).stb = s.stb := rfl
@[simp] theorem State.modMkt_stack {k f} : (s.modMkt k f).stack = s.stack := rfl
@[simp] theorem State.modMkt_scrub {k f} : (s.modMkt k f).scrub = s.scrub := rfl
@[simp] theorem State.modMkt_memLock {k f} : (s.modMkt k f).memLock = s.memLock := rfl
@[simp] theorem State.modMkt_linkLock {k f} : (s.modMkt k f).linkLock = s.linkLock := rfl
@[simp] theorem State.modMkt_lsecLock {k f} : (s.modMkt k f).lsecLock = s.lsecLock := rfl
@[simp] theorem State.modMkt_ue {k f} : (s.modMkt k f).ue = s.ue := rfl
@[simp] theorem State.modMkt_cx {k f} : (s.modMkt k f).cx = s.cx := rfl
@[simp] theorem State.modMkt_cm {k f} : (s.modMkt k f).cm = s.cm := rfl
@[simp] theorem State.modMkt_flt {k f} : (s.modMkt k f).flt = s.flt := rfl
@[simp] theorem State.modMkt_pmc {k f} : (s.modMkt k f).pmc = s.pmc := rfl
@[simp] theorem State.modMkt_sec {k f} : (s.modMkt k f).sec = s.sec := rfl
@[simp] theorem State.modMkt_fru {k f} : (s.modMkt k f).fru = s.fru := rfl
@[simp] theorem State.modMkt_sb {k f} : (s.modMkt k f).sb = s.sb := rfl
@[simp] theorem State.modMkt_pin {k f} : (s.modMkt k f).pin = s.pin := rfl
@[simp] theorem State.modMkt_bus {k f} : (s.modMkt k f).bus = s.bus := rfl
@[simp] theorem State.modMkt_fw {k f} : (s.modMkt k f).fw = s.fw := rfl
@[simp] theorem State.modMkt_radishRun {k f} : (s.modMkt k f).radishRun = s.radishRun := rfl
@[simp] theorem State.modMkt_resetDue {k f} : (s.modMkt k f).resetDue = s.resetDue := rfl
@[simp] theorem State.modMkt_rsv {k f} : (s.modMkt k f).rsv = s.rsv := rfl

end

section
variable (s : State)

@[simp] theorem State.modRing_pending {k f} : (s.modRing k f).pending = s.pending := rfl
@[simp] theorem State.modRing_free {k f} : (s.modRing k f).free = s.free := rfl
@[simp] theorem State.modRing_fuse {k f} : (s.modRing k f).fuse = s.fuse := rfl
@[simp] theorem State.modRing_mem {k f} : (s.modRing k f).mem = s.mem := rfl
@[simp] theorem State.modRing_msix {k f} : (s.modRing k f).msix = s.msix := rfl
@[simp] theorem State.modRing_ctx {k f} : (s.modRing k f).ctx = s.ctx := rfl
@[simp] theorem State.modRing_resident {k f} : (s.modRing k f).resident = s.resident := rfl
@[simp] theorem State.modRing_globalIl {k f} : (s.modRing k f).globalIl = s.globalIl := rfl
@[simp] theorem State.modRing_eng {k f} : (s.modRing k f).eng = s.eng := rfl
@[simp] theorem State.modRing_core {k f} : (s.modRing k f).core = s.core := rfl
@[simp] theorem State.modRing_ports {k f} : (s.modRing k f).ports = s.ports := rfl
@[simp] theorem State.modRing_sync {k f} : (s.modRing k f).sync = s.sync := rfl
@[simp] theorem State.modRing_remap {k f} : (s.modRing k f).remap = s.remap := rfl
@[simp] theorem State.modRing_stb {k f} : (s.modRing k f).stb = s.stb := rfl
@[simp] theorem State.modRing_net {k f} : (s.modRing k f).net = s.net := rfl
@[simp] theorem State.modRing_stack {k f} : (s.modRing k f).stack = s.stack := rfl
@[simp] theorem State.modRing_scrub {k f} : (s.modRing k f).scrub = s.scrub := rfl
@[simp] theorem State.modRing_memLock {k f} : (s.modRing k f).memLock = s.memLock := rfl
@[simp] theorem State.modRing_linkLock {k f} : (s.modRing k f).linkLock = s.linkLock := rfl
@[simp] theorem State.modRing_lsecLock {k f} : (s.modRing k f).lsecLock = s.lsecLock := rfl
@[simp] theorem State.modRing_ue {k f} : (s.modRing k f).ue = s.ue := rfl
@[simp] theorem State.modRing_cx {k f} : (s.modRing k f).cx = s.cx := rfl
@[simp] theorem State.modRing_cm {k f} : (s.modRing k f).cm = s.cm := rfl
@[simp] theorem State.modRing_flt {k f} : (s.modRing k f).flt = s.flt := rfl
@[simp] theorem State.modRing_pmc {k f} : (s.modRing k f).pmc = s.pmc := rfl
@[simp] theorem State.modRing_sec {k f} : (s.modRing k f).sec = s.sec := rfl
@[simp] theorem State.modRing_fru {k f} : (s.modRing k f).fru = s.fru := rfl
@[simp] theorem State.modRing_sb {k f} : (s.modRing k f).sb = s.sb := rfl
@[simp] theorem State.modRing_pin {k f} : (s.modRing k f).pin = s.pin := rfl
@[simp] theorem State.modRing_bus {k f} : (s.modRing k f).bus = s.bus := rfl
@[simp] theorem State.modRing_fw {k f} : (s.modRing k f).fw = s.fw := rfl
@[simp] theorem State.modRing_radishRun {k f} : (s.modRing k f).radishRun = s.radishRun := rfl
@[simp] theorem State.modRing_resetDue {k f} : (s.modRing k f).resetDue = s.resetDue := rfl
@[simp] theorem State.modRing_rsv {k f} : (s.modRing k f).rsv = s.rsv := rfl

end

section
variable (s : State)

@[simp] theorem State.modUe_pending {k f} : (s.modUe k f).pending = s.pending := rfl
@[simp] theorem State.modUe_free {k f} : (s.modUe k f).free = s.free := rfl
@[simp] theorem State.modUe_fuse {k f} : (s.modUe k f).fuse = s.fuse := rfl
@[simp] theorem State.modUe_mem {k f} : (s.modUe k f).mem = s.mem := rfl
@[simp] theorem State.modUe_rings {k f} : (s.modUe k f).rings = s.rings := rfl
@[simp] theorem State.modUe_msix {k f} : (s.modUe k f).msix = s.msix := rfl
@[simp] theorem State.modUe_ctx {k f} : (s.modUe k f).ctx = s.ctx := rfl
@[simp] theorem State.modUe_resident {k f} : (s.modUe k f).resident = s.resident := rfl
@[simp] theorem State.modUe_globalIl {k f} : (s.modUe k f).globalIl = s.globalIl := rfl
@[simp] theorem State.modUe_eng {k f} : (s.modUe k f).eng = s.eng := rfl
@[simp] theorem State.modUe_core {k f} : (s.modUe k f).core = s.core := rfl
@[simp] theorem State.modUe_ports {k f} : (s.modUe k f).ports = s.ports := rfl
@[simp] theorem State.modUe_sync {k f} : (s.modUe k f).sync = s.sync := rfl
@[simp] theorem State.modUe_remap {k f} : (s.modUe k f).remap = s.remap := rfl
@[simp] theorem State.modUe_stb {k f} : (s.modUe k f).stb = s.stb := rfl
@[simp] theorem State.modUe_net {k f} : (s.modUe k f).net = s.net := rfl
@[simp] theorem State.modUe_stack {k f} : (s.modUe k f).stack = s.stack := rfl
@[simp] theorem State.modUe_scrub {k f} : (s.modUe k f).scrub = s.scrub := rfl
@[simp] theorem State.modUe_memLock {k f} : (s.modUe k f).memLock = s.memLock := rfl
@[simp] theorem State.modUe_linkLock {k f} : (s.modUe k f).linkLock = s.linkLock := rfl
@[simp] theorem State.modUe_lsecLock {k f} : (s.modUe k f).lsecLock = s.lsecLock := rfl
@[simp] theorem State.modUe_cx {k f} : (s.modUe k f).cx = s.cx := rfl
@[simp] theorem State.modUe_cm {k f} : (s.modUe k f).cm = s.cm := rfl
@[simp] theorem State.modUe_flt {k f} : (s.modUe k f).flt = s.flt := rfl
@[simp] theorem State.modUe_pmc {k f} : (s.modUe k f).pmc = s.pmc := rfl
@[simp] theorem State.modUe_sec {k f} : (s.modUe k f).sec = s.sec := rfl
@[simp] theorem State.modUe_fru {k f} : (s.modUe k f).fru = s.fru := rfl
@[simp] theorem State.modUe_sb {k f} : (s.modUe k f).sb = s.sb := rfl
@[simp] theorem State.modUe_pin {k f} : (s.modUe k f).pin = s.pin := rfl
@[simp] theorem State.modUe_bus {k f} : (s.modUe k f).bus = s.bus := rfl
@[simp] theorem State.modUe_fw {k f} : (s.modUe k f).fw = s.fw := rfl
@[simp] theorem State.modUe_radishRun {k f} : (s.modUe k f).radishRun = s.radishRun := rfl
@[simp] theorem State.modUe_resetDue {k f} : (s.modUe k f).resetDue = s.resetDue := rfl
@[simp] theorem State.modUe_rsv {k f} : (s.modUe k f).rsv = s.rsv := rfl

end

section
variable (s : State)

@[simp] theorem State.modCx_pending {k f} : (s.modCx k f).pending = s.pending := rfl
@[simp] theorem State.modCx_free {k f} : (s.modCx k f).free = s.free := rfl
@[simp] theorem State.modCx_fuse {k f} : (s.modCx k f).fuse = s.fuse := rfl
@[simp] theorem State.modCx_mem {k f} : (s.modCx k f).mem = s.mem := rfl
@[simp] theorem State.modCx_rings {k f} : (s.modCx k f).rings = s.rings := rfl
@[simp] theorem State.modCx_msix {k f} : (s.modCx k f).msix = s.msix := rfl
@[simp] theorem State.modCx_ctx {k f} : (s.modCx k f).ctx = s.ctx := rfl
@[simp] theorem State.modCx_resident {k f} : (s.modCx k f).resident = s.resident := rfl
@[simp] theorem State.modCx_globalIl {k f} : (s.modCx k f).globalIl = s.globalIl := rfl
@[simp] theorem State.modCx_eng {k f} : (s.modCx k f).eng = s.eng := rfl
@[simp] theorem State.modCx_core {k f} : (s.modCx k f).core = s.core := rfl
@[simp] theorem State.modCx_ports {k f} : (s.modCx k f).ports = s.ports := rfl
@[simp] theorem State.modCx_sync {k f} : (s.modCx k f).sync = s.sync := rfl
@[simp] theorem State.modCx_remap {k f} : (s.modCx k f).remap = s.remap := rfl
@[simp] theorem State.modCx_stb {k f} : (s.modCx k f).stb = s.stb := rfl
@[simp] theorem State.modCx_net {k f} : (s.modCx k f).net = s.net := rfl
@[simp] theorem State.modCx_stack {k f} : (s.modCx k f).stack = s.stack := rfl
@[simp] theorem State.modCx_scrub {k f} : (s.modCx k f).scrub = s.scrub := rfl
@[simp] theorem State.modCx_memLock {k f} : (s.modCx k f).memLock = s.memLock := rfl
@[simp] theorem State.modCx_linkLock {k f} : (s.modCx k f).linkLock = s.linkLock := rfl
@[simp] theorem State.modCx_lsecLock {k f} : (s.modCx k f).lsecLock = s.lsecLock := rfl
@[simp] theorem State.modCx_ue {k f} : (s.modCx k f).ue = s.ue := rfl
@[simp] theorem State.modCx_cm {k f} : (s.modCx k f).cm = s.cm := rfl
@[simp] theorem State.modCx_flt {k f} : (s.modCx k f).flt = s.flt := rfl
@[simp] theorem State.modCx_pmc {k f} : (s.modCx k f).pmc = s.pmc := rfl
@[simp] theorem State.modCx_sec {k f} : (s.modCx k f).sec = s.sec := rfl
@[simp] theorem State.modCx_fru {k f} : (s.modCx k f).fru = s.fru := rfl
@[simp] theorem State.modCx_sb {k f} : (s.modCx k f).sb = s.sb := rfl
@[simp] theorem State.modCx_pin {k f} : (s.modCx k f).pin = s.pin := rfl
@[simp] theorem State.modCx_bus {k f} : (s.modCx k f).bus = s.bus := rfl
@[simp] theorem State.modCx_fw {k f} : (s.modCx k f).fw = s.fw := rfl
@[simp] theorem State.modCx_radishRun {k f} : (s.modCx k f).radishRun = s.radishRun := rfl
@[simp] theorem State.modCx_resetDue {k f} : (s.modCx k f).resetDue = s.resetDue := rfl
@[simp] theorem State.modCx_rsv {k f} : (s.modCx k f).rsv = s.rsv := rfl

end

section
variable (s : State)

@[simp] theorem State.modDiv_pending {k f} : (s.modDiv k f).pending = s.pending := rfl
@[simp] theorem State.modDiv_free {k f} : (s.modDiv k f).free = s.free := rfl
@[simp] theorem State.modDiv_fuse {k f} : (s.modDiv k f).fuse = s.fuse := rfl
@[simp] theorem State.modDiv_mem {k f} : (s.modDiv k f).mem = s.mem := rfl
@[simp] theorem State.modDiv_rings {k f} : (s.modDiv k f).rings = s.rings := rfl
@[simp] theorem State.modDiv_msix {k f} : (s.modDiv k f).msix = s.msix := rfl
@[simp] theorem State.modDiv_ctx {k f} : (s.modDiv k f).ctx = s.ctx := rfl
@[simp] theorem State.modDiv_resident {k f} : (s.modDiv k f).resident = s.resident := rfl
@[simp] theorem State.modDiv_globalIl {k f} : (s.modDiv k f).globalIl = s.globalIl := rfl
@[simp] theorem State.modDiv_eng {k f} : (s.modDiv k f).eng = s.eng := rfl
@[simp] theorem State.modDiv_core {k f} : (s.modDiv k f).core = s.core := rfl
@[simp] theorem State.modDiv_ports {k f} : (s.modDiv k f).ports = s.ports := rfl
@[simp] theorem State.modDiv_sync {k f} : (s.modDiv k f).sync = s.sync := rfl
@[simp] theorem State.modDiv_remap {k f} : (s.modDiv k f).remap = s.remap := rfl
@[simp] theorem State.modDiv_stb {k f} : (s.modDiv k f).stb = s.stb := rfl
@[simp] theorem State.modDiv_net {k f} : (s.modDiv k f).net = s.net := rfl
@[simp] theorem State.modDiv_stack {k f} : (s.modDiv k f).stack = s.stack := rfl
@[simp] theorem State.modDiv_scrub {k f} : (s.modDiv k f).scrub = s.scrub := rfl
@[simp] theorem State.modDiv_memLock {k f} : (s.modDiv k f).memLock = s.memLock := rfl
@[simp] theorem State.modDiv_linkLock {k f} : (s.modDiv k f).linkLock = s.linkLock := rfl
@[simp] theorem State.modDiv_lsecLock {k f} : (s.modDiv k f).lsecLock = s.lsecLock := rfl
@[simp] theorem State.modDiv_ue {k f} : (s.modDiv k f).ue = s.ue := rfl
@[simp] theorem State.modDiv_cx {k f} : (s.modDiv k f).cx = s.cx := rfl
@[simp] theorem State.modDiv_cm {k f} : (s.modDiv k f).cm = s.cm := rfl
@[simp] theorem State.modDiv_flt {k f} : (s.modDiv k f).flt = s.flt := rfl
@[simp] theorem State.modDiv_sec {k f} : (s.modDiv k f).sec = s.sec := rfl
@[simp] theorem State.modDiv_fru {k f} : (s.modDiv k f).fru = s.fru := rfl
@[simp] theorem State.modDiv_sb {k f} : (s.modDiv k f).sb = s.sb := rfl
@[simp] theorem State.modDiv_pin {k f} : (s.modDiv k f).pin = s.pin := rfl
@[simp] theorem State.modDiv_bus {k f} : (s.modDiv k f).bus = s.bus := rfl
@[simp] theorem State.modDiv_fw {k f} : (s.modDiv k f).fw = s.fw := rfl
@[simp] theorem State.modDiv_radishRun {k f} : (s.modDiv k f).radishRun = s.radishRun := rfl
@[simp] theorem State.modDiv_resetDue {k f} : (s.modDiv k f).resetDue = s.resetDue := rfl
@[simp] theorem State.modDiv_rsv {k f} : (s.modDiv k f).rsv = s.rsv := rfl

end

section
variable (s : State)

@[simp] theorem State.setTarget_pending {k n} : (s.setTarget k n).pending = s.pending := rfl
@[simp] theorem State.setTarget_free {k n} : (s.setTarget k n).free = s.free := rfl
@[simp] theorem State.setTarget_fuse {k n} : (s.setTarget k n).fuse = s.fuse := rfl
@[simp] theorem State.setTarget_mem {k n} : (s.setTarget k n).mem = s.mem := rfl
@[simp] theorem State.setTarget_rings {k n} : (s.setTarget k n).rings = s.rings := rfl
@[simp] theorem State.setTarget_msix {k n} : (s.setTarget k n).msix = s.msix := rfl
@[simp] theorem State.setTarget_ctx {k n} : (s.setTarget k n).ctx = s.ctx := rfl
@[simp] theorem State.setTarget_resident {k n} : (s.setTarget k n).resident = s.resident := rfl
@[simp] theorem State.setTarget_globalIl {k n} : (s.setTarget k n).globalIl = s.globalIl := rfl
@[simp] theorem State.setTarget_eng {k n} : (s.setTarget k n).eng = s.eng := rfl
@[simp] theorem State.setTarget_core {k n} : (s.setTarget k n).core = s.core := rfl
@[simp] theorem State.setTarget_ports {k n} : (s.setTarget k n).ports = s.ports := rfl
@[simp] theorem State.setTarget_sync {k n} : (s.setTarget k n).sync = s.sync := rfl
@[simp] theorem State.setTarget_remap {k n} : (s.setTarget k n).remap = s.remap := rfl
@[simp] theorem State.setTarget_stb {k n} : (s.setTarget k n).stb = s.stb := rfl
@[simp] theorem State.setTarget_net {k n} : (s.setTarget k n).net = s.net := rfl
@[simp] theorem State.setTarget_stack {k n} : (s.setTarget k n).stack = s.stack := rfl
@[simp] theorem State.setTarget_scrub {k n} : (s.setTarget k n).scrub = s.scrub := rfl
@[simp] theorem State.setTarget_memLock {k n} : (s.setTarget k n).memLock = s.memLock := rfl
@[simp] theorem State.setTarget_linkLock {k n} : (s.setTarget k n).linkLock = s.linkLock := rfl
@[simp] theorem State.setTarget_lsecLock {k n} : (s.setTarget k n).lsecLock = s.lsecLock := rfl
@[simp] theorem State.setTarget_cx {k n} : (s.setTarget k n).cx = s.cx := rfl
@[simp] theorem State.setTarget_cm {k n} : (s.setTarget k n).cm = s.cm := rfl
@[simp] theorem State.setTarget_flt {k n} : (s.setTarget k n).flt = s.flt := rfl
@[simp] theorem State.setTarget_sec {k n} : (s.setTarget k n).sec = s.sec := rfl
@[simp] theorem State.setTarget_fru {k n} : (s.setTarget k n).fru = s.fru := rfl
@[simp] theorem State.setTarget_sb {k n} : (s.setTarget k n).sb = s.sb := rfl
@[simp] theorem State.setTarget_pin {k n} : (s.setTarget k n).pin = s.pin := rfl
@[simp] theorem State.setTarget_bus {k n} : (s.setTarget k n).bus = s.bus := rfl
@[simp] theorem State.setTarget_fw {k n} : (s.setTarget k n).fw = s.fw := rfl
@[simp] theorem State.setTarget_radishRun {k n} : (s.setTarget k n).radishRun = s.radishRun := rfl
@[simp] theorem State.setTarget_resetDue {k n} : (s.setTarget k n).resetDue = s.resetDue := rfl
@[simp] theorem State.setTarget_rsv {k n} : (s.setTarget k n).rsv = s.rsv := rfl

end

section
variable (s : State)

@[simp] theorem State.modSec_pending {f} : (s.modSec f).pending = s.pending := rfl
@[simp] theorem State.modSec_free {f} : (s.modSec f).free = s.free := rfl
@[simp] theorem State.modSec_fuse {f} : (s.modSec f).fuse = s.fuse := rfl
@[simp] theorem State.modSec_mem {f} : (s.modSec f).mem = s.mem := rfl
@[simp] theorem State.modSec_rings {f} : (s.modSec f).rings = s.rings := rfl
@[simp] theorem State.modSec_msix {f} : (s.modSec f).msix = s.msix := rfl
@[simp] theorem State.modSec_ctx {f} : (s.modSec f).ctx = s.ctx := rfl
@[simp] theorem State.modSec_resident {f} : (s.modSec f).resident = s.resident := rfl
@[simp] theorem State.modSec_globalIl {f} : (s.modSec f).globalIl = s.globalIl := rfl
@[simp] theorem State.modSec_eng {f} : (s.modSec f).eng = s.eng := rfl
@[simp] theorem State.modSec_core {f} : (s.modSec f).core = s.core := rfl
@[simp] theorem State.modSec_ports {f} : (s.modSec f).ports = s.ports := rfl
@[simp] theorem State.modSec_sync {f} : (s.modSec f).sync = s.sync := rfl
@[simp] theorem State.modSec_remap {f} : (s.modSec f).remap = s.remap := rfl
@[simp] theorem State.modSec_stb {f} : (s.modSec f).stb = s.stb := rfl
@[simp] theorem State.modSec_net {f} : (s.modSec f).net = s.net := rfl
@[simp] theorem State.modSec_stack {f} : (s.modSec f).stack = s.stack := rfl
@[simp] theorem State.modSec_scrub {f} : (s.modSec f).scrub = s.scrub := rfl
@[simp] theorem State.modSec_memLock {f} : (s.modSec f).memLock = s.memLock := rfl
@[simp] theorem State.modSec_linkLock {f} : (s.modSec f).linkLock = s.linkLock := rfl
@[simp] theorem State.modSec_lsecLock {f} : (s.modSec f).lsecLock = s.lsecLock := rfl
@[simp] theorem State.modSec_ue {f} : (s.modSec f).ue = s.ue := rfl
@[simp] theorem State.modSec_cx {f} : (s.modSec f).cx = s.cx := rfl
@[simp] theorem State.modSec_cm {f} : (s.modSec f).cm = s.cm := rfl
@[simp] theorem State.modSec_flt {f} : (s.modSec f).flt = s.flt := rfl
@[simp] theorem State.modSec_pmc {f} : (s.modSec f).pmc = s.pmc := rfl
@[simp] theorem State.modSec_fru {f} : (s.modSec f).fru = s.fru := rfl
@[simp] theorem State.modSec_sb {f} : (s.modSec f).sb = s.sb := rfl
@[simp] theorem State.modSec_pin {f} : (s.modSec f).pin = s.pin := rfl
@[simp] theorem State.modSec_bus {f} : (s.modSec f).bus = s.bus := rfl
@[simp] theorem State.modSec_fw {f} : (s.modSec f).fw = s.fw := rfl
@[simp] theorem State.modSec_radishRun {f} : (s.modSec f).radishRun = s.radishRun := rfl
@[simp] theorem State.modSec_resetDue {f} : (s.modSec f).resetDue = s.resetDue := rfl
@[simp] theorem State.modSec_rsv {f} : (s.modSec f).rsv = s.rsv := rfl

end

section
variable (s : State)

@[simp] theorem State.modFru_pending {f} : (s.modFru f).pending = s.pending := rfl
@[simp] theorem State.modFru_free {f} : (s.modFru f).free = s.free := rfl
@[simp] theorem State.modFru_fuse {f} : (s.modFru f).fuse = s.fuse := rfl
@[simp] theorem State.modFru_mem {f} : (s.modFru f).mem = s.mem := rfl
@[simp] theorem State.modFru_rings {f} : (s.modFru f).rings = s.rings := rfl
@[simp] theorem State.modFru_msix {f} : (s.modFru f).msix = s.msix := rfl
@[simp] theorem State.modFru_ctx {f} : (s.modFru f).ctx = s.ctx := rfl
@[simp] theorem State.modFru_resident {f} : (s.modFru f).resident = s.resident := rfl
@[simp] theorem State.modFru_globalIl {f} : (s.modFru f).globalIl = s.globalIl := rfl
@[simp] theorem State.modFru_eng {f} : (s.modFru f).eng = s.eng := rfl
@[simp] theorem State.modFru_core {f} : (s.modFru f).core = s.core := rfl
@[simp] theorem State.modFru_ports {f} : (s.modFru f).ports = s.ports := rfl
@[simp] theorem State.modFru_sync {f} : (s.modFru f).sync = s.sync := rfl
@[simp] theorem State.modFru_remap {f} : (s.modFru f).remap = s.remap := rfl
@[simp] theorem State.modFru_stb {f} : (s.modFru f).stb = s.stb := rfl
@[simp] theorem State.modFru_net {f} : (s.modFru f).net = s.net := rfl
@[simp] theorem State.modFru_stack {f} : (s.modFru f).stack = s.stack := rfl
@[simp] theorem State.modFru_scrub {f} : (s.modFru f).scrub = s.scrub := rfl
@[simp] theorem State.modFru_memLock {f} : (s.modFru f).memLock = s.memLock := rfl
@[simp] theorem State.modFru_linkLock {f} : (s.modFru f).linkLock = s.linkLock := rfl
@[simp] theorem State.modFru_lsecLock {f} : (s.modFru f).lsecLock = s.lsecLock := rfl
@[simp] theorem State.modFru_ue {f} : (s.modFru f).ue = s.ue := rfl
@[simp] theorem State.modFru_cx {f} : (s.modFru f).cx = s.cx := rfl
@[simp] theorem State.modFru_cm {f} : (s.modFru f).cm = s.cm := rfl
@[simp] theorem State.modFru_flt {f} : (s.modFru f).flt = s.flt := rfl
@[simp] theorem State.modFru_pmc {f} : (s.modFru f).pmc = s.pmc := rfl
@[simp] theorem State.modFru_sec {f} : (s.modFru f).sec = s.sec := rfl
@[simp] theorem State.modFru_sb {f} : (s.modFru f).sb = s.sb := rfl
@[simp] theorem State.modFru_pin {f} : (s.modFru f).pin = s.pin := rfl
@[simp] theorem State.modFru_bus {f} : (s.modFru f).bus = s.bus := rfl
@[simp] theorem State.modFru_fw {f} : (s.modFru f).fw = s.fw := rfl
@[simp] theorem State.modFru_radishRun {f} : (s.modFru f).radishRun = s.radishRun := rfl
@[simp] theorem State.modFru_resetDue {f} : (s.modFru f).resetDue = s.resetDue := rfl
@[simp] theorem State.modFru_rsv {f} : (s.modFru f).rsv = s.rsv := rfl

end

section
variable (s : State)

@[simp] theorem State.modBus_pending {a f} : (s.modBus a f).pending = s.pending := rfl
@[simp] theorem State.modBus_free {a f} : (s.modBus a f).free = s.free := rfl
@[simp] theorem State.modBus_fuse {a f} : (s.modBus a f).fuse = s.fuse := rfl
@[simp] theorem State.modBus_mem {a f} : (s.modBus a f).mem = s.mem := rfl
@[simp] theorem State.modBus_rings {a f} : (s.modBus a f).rings = s.rings := rfl
@[simp] theorem State.modBus_msix {a f} : (s.modBus a f).msix = s.msix := rfl
@[simp] theorem State.modBus_ctx {a f} : (s.modBus a f).ctx = s.ctx := rfl
@[simp] theorem State.modBus_resident {a f} : (s.modBus a f).resident = s.resident := rfl
@[simp] theorem State.modBus_globalIl {a f} : (s.modBus a f).globalIl = s.globalIl := rfl
@[simp] theorem State.modBus_eng {a f} : (s.modBus a f).eng = s.eng := rfl
@[simp] theorem State.modBus_core {a f} : (s.modBus a f).core = s.core := rfl
@[simp] theorem State.modBus_ports {a f} : (s.modBus a f).ports = s.ports := rfl
@[simp] theorem State.modBus_sync {a f} : (s.modBus a f).sync = s.sync := rfl
@[simp] theorem State.modBus_remap {a f} : (s.modBus a f).remap = s.remap := rfl
@[simp] theorem State.modBus_stb {a f} : (s.modBus a f).stb = s.stb := rfl
@[simp] theorem State.modBus_net {a f} : (s.modBus a f).net = s.net := rfl
@[simp] theorem State.modBus_stack {a f} : (s.modBus a f).stack = s.stack := rfl
@[simp] theorem State.modBus_scrub {a f} : (s.modBus a f).scrub = s.scrub := rfl
@[simp] theorem State.modBus_memLock {a f} : (s.modBus a f).memLock = s.memLock := rfl
@[simp] theorem State.modBus_linkLock {a f} : (s.modBus a f).linkLock = s.linkLock := rfl
@[simp] theorem State.modBus_lsecLock {a f} : (s.modBus a f).lsecLock = s.lsecLock := rfl
@[simp] theorem State.modBus_ue {a f} : (s.modBus a f).ue = s.ue := rfl
@[simp] theorem State.modBus_cx {a f} : (s.modBus a f).cx = s.cx := rfl
@[simp] theorem State.modBus_cm {a f} : (s.modBus a f).cm = s.cm := rfl
@[simp] theorem State.modBus_flt {a f} : (s.modBus a f).flt = s.flt := rfl
@[simp] theorem State.modBus_pmc {a f} : (s.modBus a f).pmc = s.pmc := rfl
@[simp] theorem State.modBus_sec {a f} : (s.modBus a f).sec = s.sec := rfl
@[simp] theorem State.modBus_fru {a f} : (s.modBus a f).fru = s.fru := rfl
@[simp] theorem State.modBus_sb {a f} : (s.modBus a f).sb = s.sb := rfl
@[simp] theorem State.modBus_pin {a f} : (s.modBus a f).pin = s.pin := rfl
@[simp] theorem State.modBus_fw {a f} : (s.modBus a f).fw = s.fw := rfl
@[simp] theorem State.modBus_radishRun {a f} : (s.modBus a f).radishRun = s.radishRun := rfl
@[simp] theorem State.modBus_resetDue {a f} : (s.modBus a f).resetDue = s.resetDue := rfl
@[simp] theorem State.modBus_rsv {a f} : (s.modBus a f).rsv = s.rsv := rfl

end

section
variable (s : State)

@[simp] theorem State.sbAnswer_pending {b} : (s.sbAnswer b).pending = s.pending := rfl
@[simp] theorem State.sbAnswer_free {b} : (s.sbAnswer b).free = s.free := rfl
@[simp] theorem State.sbAnswer_fuse {b} : (s.sbAnswer b).fuse = s.fuse := rfl
@[simp] theorem State.sbAnswer_mem {b} : (s.sbAnswer b).mem = s.mem := rfl
@[simp] theorem State.sbAnswer_rings {b} : (s.sbAnswer b).rings = s.rings := rfl
@[simp] theorem State.sbAnswer_msix {b} : (s.sbAnswer b).msix = s.msix := rfl
@[simp] theorem State.sbAnswer_ctx {b} : (s.sbAnswer b).ctx = s.ctx := rfl
@[simp] theorem State.sbAnswer_resident {b} : (s.sbAnswer b).resident = s.resident := rfl
@[simp] theorem State.sbAnswer_globalIl {b} : (s.sbAnswer b).globalIl = s.globalIl := rfl
@[simp] theorem State.sbAnswer_eng {b} : (s.sbAnswer b).eng = s.eng := rfl
@[simp] theorem State.sbAnswer_core {b} : (s.sbAnswer b).core = s.core := rfl
@[simp] theorem State.sbAnswer_ports {b} : (s.sbAnswer b).ports = s.ports := rfl
@[simp] theorem State.sbAnswer_sync {b} : (s.sbAnswer b).sync = s.sync := rfl
@[simp] theorem State.sbAnswer_remap {b} : (s.sbAnswer b).remap = s.remap := rfl
@[simp] theorem State.sbAnswer_stb {b} : (s.sbAnswer b).stb = s.stb := rfl
@[simp] theorem State.sbAnswer_net {b} : (s.sbAnswer b).net = s.net := rfl
@[simp] theorem State.sbAnswer_stack {b} : (s.sbAnswer b).stack = s.stack := rfl
@[simp] theorem State.sbAnswer_scrub {b} : (s.sbAnswer b).scrub = s.scrub := rfl
@[simp] theorem State.sbAnswer_memLock {b} : (s.sbAnswer b).memLock = s.memLock := rfl
@[simp] theorem State.sbAnswer_linkLock {b} : (s.sbAnswer b).linkLock = s.linkLock := rfl
@[simp] theorem State.sbAnswer_lsecLock {b} : (s.sbAnswer b).lsecLock = s.lsecLock := rfl
@[simp] theorem State.sbAnswer_ue {b} : (s.sbAnswer b).ue = s.ue := rfl
@[simp] theorem State.sbAnswer_cx {b} : (s.sbAnswer b).cx = s.cx := rfl
@[simp] theorem State.sbAnswer_cm {b} : (s.sbAnswer b).cm = s.cm := rfl
@[simp] theorem State.sbAnswer_flt {b} : (s.sbAnswer b).flt = s.flt := rfl
@[simp] theorem State.sbAnswer_pmc {b} : (s.sbAnswer b).pmc = s.pmc := rfl
@[simp] theorem State.sbAnswer_sec {b} : (s.sbAnswer b).sec = s.sec := rfl
@[simp] theorem State.sbAnswer_fru {b} : (s.sbAnswer b).fru = s.fru := rfl
@[simp] theorem State.sbAnswer_pin {b} : (s.sbAnswer b).pin = s.pin := rfl
@[simp] theorem State.sbAnswer_bus {b} : (s.sbAnswer b).bus = s.bus := rfl
@[simp] theorem State.sbAnswer_fw {b} : (s.sbAnswer b).fw = s.fw := rfl
@[simp] theorem State.sbAnswer_radishRun {b} : (s.sbAnswer b).radishRun = s.radishRun := rfl
@[simp] theorem State.sbAnswer_resetDue {b} : (s.sbAnswer b).resetDue = s.resetDue := rfl
@[simp] theorem State.sbAnswer_rsv {b} : (s.sbAnswer b).rsv = s.rsv := rfl

end

section
variable (s : State)

@[simp] theorem State.latch_pending {k} : (s.latch k).pending = s.pending := rfl
@[simp] theorem State.latch_free {k} : (s.latch k).free = s.free := rfl
@[simp] theorem State.latch_fuse {k} : (s.latch k).fuse = s.fuse := rfl
@[simp] theorem State.latch_mem {k} : (s.latch k).mem = s.mem := rfl
@[simp] theorem State.latch_rings {k} : (s.latch k).rings = s.rings := rfl
@[simp] theorem State.latch_msix {k} : (s.latch k).msix = s.msix := rfl
@[simp] theorem State.latch_ctx {k} : (s.latch k).ctx = s.ctx := rfl
@[simp] theorem State.latch_resident {k} : (s.latch k).resident = s.resident := rfl
@[simp] theorem State.latch_globalIl {k} : (s.latch k).globalIl = s.globalIl := rfl
@[simp] theorem State.latch_eng {k} : (s.latch k).eng = s.eng := rfl
@[simp] theorem State.latch_core {k} : (s.latch k).core = s.core := rfl
@[simp] theorem State.latch_ports {k} : (s.latch k).ports = s.ports := rfl
@[simp] theorem State.latch_sync {k} : (s.latch k).sync = s.sync := rfl
@[simp] theorem State.latch_remap {k} : (s.latch k).remap = s.remap := rfl
@[simp] theorem State.latch_stb {k} : (s.latch k).stb = s.stb := rfl
@[simp] theorem State.latch_net {k} : (s.latch k).net = s.net := rfl
@[simp] theorem State.latch_stack {k} : (s.latch k).stack = s.stack := rfl
@[simp] theorem State.latch_scrub {k} : (s.latch k).scrub = s.scrub := rfl
@[simp] theorem State.latch_memLock {k} : (s.latch k).memLock = s.memLock := rfl
@[simp] theorem State.latch_linkLock {k} : (s.latch k).linkLock = s.linkLock := rfl
@[simp] theorem State.latch_lsecLock {k} : (s.latch k).lsecLock = s.lsecLock := rfl
@[simp] theorem State.latch_ue {k} : (s.latch k).ue = s.ue := rfl
@[simp] theorem State.latch_cx {k} : (s.latch k).cx = s.cx := rfl
@[simp] theorem State.latch_cm {k} : (s.latch k).cm = s.cm := rfl
@[simp] theorem State.latch_flt {k} : (s.latch k).flt = s.flt := rfl
@[simp] theorem State.latch_pmc {k} : (s.latch k).pmc = s.pmc := rfl
@[simp] theorem State.latch_sec {k} : (s.latch k).sec = s.sec := rfl
@[simp] theorem State.latch_fru {k} : (s.latch k).fru = s.fru := rfl
@[simp] theorem State.latch_pin {k} : (s.latch k).pin = s.pin := rfl
@[simp] theorem State.latch_bus {k} : (s.latch k).bus = s.bus := rfl
@[simp] theorem State.latch_fw {k} : (s.latch k).fw = s.fw := rfl
@[simp] theorem State.latch_radishRun {k} : (s.latch k).radishRun = s.radishRun := rfl
@[simp] theorem State.latch_resetDue {k} : (s.latch k).resetDue = s.resetDue := rfl
@[simp] theorem State.latch_rsv {k} : (s.latch k).rsv = s.rsv := rfl

end

section
variable (s : State)

@[simp] theorem State.setPhys_pending {k l n} : (s.setPhys k l n).pending = s.pending := rfl
@[simp] theorem State.setPhys_free {k l n} : (s.setPhys k l n).free = s.free := rfl
@[simp] theorem State.setPhys_fuse {k l n} : (s.setPhys k l n).fuse = s.fuse := rfl
@[simp] theorem State.setPhys_mem {k l n} : (s.setPhys k l n).mem = s.mem := rfl
@[simp] theorem State.setPhys_rings {k l n} : (s.setPhys k l n).rings = s.rings := rfl
@[simp] theorem State.setPhys_msix {k l n} : (s.setPhys k l n).msix = s.msix := rfl
@[simp] theorem State.setPhys_ctx {k l n} : (s.setPhys k l n).ctx = s.ctx := rfl
@[simp] theorem State.setPhys_resident {k l n} : (s.setPhys k l n).resident = s.resident := rfl
@[simp] theorem State.setPhys_globalIl {k l n} : (s.setPhys k l n).globalIl = s.globalIl := rfl
@[simp] theorem State.setPhys_eng {k l n} : (s.setPhys k l n).eng = s.eng := rfl
@[simp] theorem State.setPhys_core {k l n} : (s.setPhys k l n).core = s.core := rfl
@[simp] theorem State.setPhys_ports {k l n} : (s.setPhys k l n).ports = s.ports := rfl
@[simp] theorem State.setPhys_sync {k l n} : (s.setPhys k l n).sync = s.sync := rfl
@[simp] theorem State.setPhys_stb {k l n} : (s.setPhys k l n).stb = s.stb := rfl
@[simp] theorem State.setPhys_net {k l n} : (s.setPhys k l n).net = s.net := rfl
@[simp] theorem State.setPhys_stack {k l n} : (s.setPhys k l n).stack = s.stack := rfl
@[simp] theorem State.setPhys_scrub {k l n} : (s.setPhys k l n).scrub = s.scrub := rfl
@[simp] theorem State.setPhys_memLock {k l n} : (s.setPhys k l n).memLock = s.memLock := rfl
@[simp] theorem State.setPhys_linkLock {k l n} : (s.setPhys k l n).linkLock = s.linkLock := rfl
@[simp] theorem State.setPhys_lsecLock {k l n} : (s.setPhys k l n).lsecLock = s.lsecLock := rfl
@[simp] theorem State.setPhys_ue {k l n} : (s.setPhys k l n).ue = s.ue := rfl
@[simp] theorem State.setPhys_cx {k l n} : (s.setPhys k l n).cx = s.cx := rfl
@[simp] theorem State.setPhys_cm {k l n} : (s.setPhys k l n).cm = s.cm := rfl
@[simp] theorem State.setPhys_flt {k l n} : (s.setPhys k l n).flt = s.flt := rfl
@[simp] theorem State.setPhys_pmc {k l n} : (s.setPhys k l n).pmc = s.pmc := rfl
@[simp] theorem State.setPhys_sec {k l n} : (s.setPhys k l n).sec = s.sec := rfl
@[simp] theorem State.setPhys_fru {k l n} : (s.setPhys k l n).fru = s.fru := rfl
@[simp] theorem State.setPhys_sb {k l n} : (s.setPhys k l n).sb = s.sb := rfl
@[simp] theorem State.setPhys_pin {k l n} : (s.setPhys k l n).pin = s.pin := rfl
@[simp] theorem State.setPhys_bus {k l n} : (s.setPhys k l n).bus = s.bus := rfl
@[simp] theorem State.setPhys_fw {k l n} : (s.setPhys k l n).fw = s.fw := rfl
@[simp] theorem State.setPhys_radishRun {k l n} : (s.setPhys k l n).radishRun = s.radishRun := rfl
@[simp] theorem State.setPhys_resetDue {k l n} : (s.setPhys k l n).resetDue = s.resetDue := rfl
@[simp] theorem State.setPhys_rsv {k l n} : (s.setPhys k l n).rsv = s.rsv := rfl

end

section
variable (s : State)

@[simp] theorem State.setPhysState_pending {k l n} : (s.setPhysState k l n).pending = s.pending := rfl
@[simp] theorem State.setPhysState_free {k l n} : (s.setPhysState k l n).free = s.free := rfl
@[simp] theorem State.setPhysState_fuse {k l n} : (s.setPhysState k l n).fuse = s.fuse := rfl
@[simp] theorem State.setPhysState_mem {k l n} : (s.setPhysState k l n).mem = s.mem := rfl
@[simp] theorem State.setPhysState_rings {k l n} : (s.setPhysState k l n).rings = s.rings := rfl
@[simp] theorem State.setPhysState_msix {k l n} : (s.setPhysState k l n).msix = s.msix := rfl
@[simp] theorem State.setPhysState_ctx {k l n} : (s.setPhysState k l n).ctx = s.ctx := rfl
@[simp] theorem State.setPhysState_resident {k l n} : (s.setPhysState k l n).resident = s.resident := rfl
@[simp] theorem State.setPhysState_globalIl {k l n} : (s.setPhysState k l n).globalIl = s.globalIl := rfl
@[simp] theorem State.setPhysState_eng {k l n} : (s.setPhysState k l n).eng = s.eng := rfl
@[simp] theorem State.setPhysState_core {k l n} : (s.setPhysState k l n).core = s.core := rfl
@[simp] theorem State.setPhysState_ports {k l n} : (s.setPhysState k l n).ports = s.ports := rfl
@[simp] theorem State.setPhysState_sync {k l n} : (s.setPhysState k l n).sync = s.sync := rfl
@[simp] theorem State.setPhysState_stb {k l n} : (s.setPhysState k l n).stb = s.stb := rfl
@[simp] theorem State.setPhysState_net {k l n} : (s.setPhysState k l n).net = s.net := rfl
@[simp] theorem State.setPhysState_stack {k l n} : (s.setPhysState k l n).stack = s.stack := rfl
@[simp] theorem State.setPhysState_scrub {k l n} : (s.setPhysState k l n).scrub = s.scrub := rfl
@[simp] theorem State.setPhysState_memLock {k l n} : (s.setPhysState k l n).memLock = s.memLock := rfl
@[simp] theorem State.setPhysState_linkLock {k l n} : (s.setPhysState k l n).linkLock = s.linkLock := rfl
@[simp] theorem State.setPhysState_lsecLock {k l n} : (s.setPhysState k l n).lsecLock = s.lsecLock := rfl
@[simp] theorem State.setPhysState_ue {k l n} : (s.setPhysState k l n).ue = s.ue := rfl
@[simp] theorem State.setPhysState_cx {k l n} : (s.setPhysState k l n).cx = s.cx := rfl
@[simp] theorem State.setPhysState_cm {k l n} : (s.setPhysState k l n).cm = s.cm := rfl
@[simp] theorem State.setPhysState_flt {k l n} : (s.setPhysState k l n).flt = s.flt := rfl
@[simp] theorem State.setPhysState_pmc {k l n} : (s.setPhysState k l n).pmc = s.pmc := rfl
@[simp] theorem State.setPhysState_sec {k l n} : (s.setPhysState k l n).sec = s.sec := rfl
@[simp] theorem State.setPhysState_fru {k l n} : (s.setPhysState k l n).fru = s.fru := rfl
@[simp] theorem State.setPhysState_sb {k l n} : (s.setPhysState k l n).sb = s.sb := rfl
@[simp] theorem State.setPhysState_pin {k l n} : (s.setPhysState k l n).pin = s.pin := rfl
@[simp] theorem State.setPhysState_bus {k l n} : (s.setPhysState k l n).bus = s.bus := rfl
@[simp] theorem State.setPhysState_fw {k l n} : (s.setPhysState k l n).fw = s.fw := rfl
@[simp] theorem State.setPhysState_radishRun {k l n} : (s.setPhysState k l n).radishRun = s.radishRun := rfl
@[simp] theorem State.setPhysState_resetDue {k l n} : (s.setPhysState k l n).resetDue = s.resetDue := rfl
@[simp] theorem State.setPhysState_rsv {k l n} : (s.setPhysState k l n).rsv = s.rsv := rfl

end

section
variable (s : State)

@[simp] theorem State.spmWrite_pending {c k b} : (s.spmWrite c k b).pending = s.pending := rfl
@[simp] theorem State.spmWrite_free {c k b} : (s.spmWrite c k b).free = s.free := rfl
@[simp] theorem State.spmWrite_fuse {c k b} : (s.spmWrite c k b).fuse = s.fuse := rfl
@[simp] theorem State.spmWrite_rings {c k b} : (s.spmWrite c k b).rings = s.rings := rfl
@[simp] theorem State.spmWrite_msix {c k b} : (s.spmWrite c k b).msix = s.msix := rfl
@[simp] theorem State.spmWrite_ctx {c k b} : (s.spmWrite c k b).ctx = s.ctx := rfl
@[simp] theorem State.spmWrite_resident {c k b} : (s.spmWrite c k b).resident = s.resident := rfl
@[simp] theorem State.spmWrite_globalIl {c k b} : (s.spmWrite c k b).globalIl = s.globalIl := rfl
@[simp] theorem State.spmWrite_eng {c k b} : (s.spmWrite c k b).eng = s.eng := rfl
@[simp] theorem State.spmWrite_core {c k b} : (s.spmWrite c k b).core = s.core := rfl
@[simp] theorem State.spmWrite_ports {c k b} : (s.spmWrite c k b).ports = s.ports := rfl
@[simp] theorem State.spmWrite_sync {c k b} : (s.spmWrite c k b).sync = s.sync := rfl
@[simp] theorem State.spmWrite_remap {c k b} : (s.spmWrite c k b).remap = s.remap := rfl
@[simp] theorem State.spmWrite_stb {c k b} : (s.spmWrite c k b).stb = s.stb := rfl
@[simp] theorem State.spmWrite_net {c k b} : (s.spmWrite c k b).net = s.net := rfl
@[simp] theorem State.spmWrite_stack {c k b} : (s.spmWrite c k b).stack = s.stack := rfl
@[simp] theorem State.spmWrite_scrub {c k b} : (s.spmWrite c k b).scrub = s.scrub := rfl
@[simp] theorem State.spmWrite_memLock {c k b} : (s.spmWrite c k b).memLock = s.memLock := rfl
@[simp] theorem State.spmWrite_linkLock {c k b} : (s.spmWrite c k b).linkLock = s.linkLock := rfl
@[simp] theorem State.spmWrite_lsecLock {c k b} : (s.spmWrite c k b).lsecLock = s.lsecLock := rfl
@[simp] theorem State.spmWrite_ue {c k b} : (s.spmWrite c k b).ue = s.ue := rfl
@[simp] theorem State.spmWrite_cx {c k b} : (s.spmWrite c k b).cx = s.cx := rfl
@[simp] theorem State.spmWrite_cm {c k b} : (s.spmWrite c k b).cm = s.cm := rfl
@[simp] theorem State.spmWrite_flt {c k b} : (s.spmWrite c k b).flt = s.flt := rfl
@[simp] theorem State.spmWrite_pmc {c k b} : (s.spmWrite c k b).pmc = s.pmc := rfl
@[simp] theorem State.spmWrite_sec {c k b} : (s.spmWrite c k b).sec = s.sec := rfl
@[simp] theorem State.spmWrite_fru {c k b} : (s.spmWrite c k b).fru = s.fru := rfl
@[simp] theorem State.spmWrite_sb {c k b} : (s.spmWrite c k b).sb = s.sb := rfl
@[simp] theorem State.spmWrite_pin {c k b} : (s.spmWrite c k b).pin = s.pin := rfl
@[simp] theorem State.spmWrite_bus {c k b} : (s.spmWrite c k b).bus = s.bus := rfl
@[simp] theorem State.spmWrite_fw {c k b} : (s.spmWrite c k b).fw = s.fw := rfl
@[simp] theorem State.spmWrite_radishRun {c k b} : (s.spmWrite c k b).radishRun = s.radishRun := rfl
@[simp] theorem State.spmWrite_resetDue {c k b} : (s.spmWrite c k b).resetDue = s.resetDue := rfl
@[simp] theorem State.spmWrite_rsv {c k b} : (s.spmWrite c k b).rsv = s.rsv := rfl
@[simp] theorem State.spmWrite_mem_hbm {c k b} : (s.spmWrite c k b).mem.hbm = s.mem.hbm := rfl
@[simp] theorem State.spmWrite_mem_ecc {c k b} : (s.spmWrite c k b).mem.ecc = s.mem.ecc := rfl
@[simp] theorem State.spmWrite_mem_sram {c k b} : (s.spmWrite c k b).mem.sram = s.mem.sram := rfl
@[simp] theorem State.spmWrite_mem_vgen {c k b} : (s.spmWrite c k b).mem.vgen = s.mem.vgen := rfl
@[simp] theorem State.spmWrite_mem_vreg {c k b} : (s.spmWrite c k b).mem.vreg = s.mem.vreg := rfl
@[simp] theorem State.spmWrite_mem_market {c k b} : (s.spmWrite c k b).mem.market = s.mem.market := rfl
@[simp] theorem State.spmWrite_mem_jd {c k b} : (s.spmWrite c k b).mem.jd = s.mem.jd := rfl
@[simp] theorem State.spmWrite_mem_host {c k b} : (s.spmWrite c k b).mem.host = s.mem.host := rfl
@[simp] theorem State.spmWrite_mem_hostHoles {c k b} : (s.spmWrite c k b).mem.hostHoles = s.mem.hostHoles := rfl
@[simp] theorem State.spmWrite_mem_ringWin {c k b} : (s.spmWrite c k b).mem.ringWin = s.mem.ringWin := rfl
@[simp] theorem State.spmWrite_mem_flashA {c k b} : (s.spmWrite c k b).mem.flashA = s.mem.flashA := rfl
@[simp] theorem State.spmWrite_mem_flashB {c k b} : (s.spmWrite c k b).mem.flashB = s.mem.flashB := rfl

end

section
variable (s : State)

@[simp] theorem State.sramWrite_pending {d k b} : (s.sramWrite d k b).pending = s.pending := rfl
@[simp] theorem State.sramWrite_free {d k b} : (s.sramWrite d k b).free = s.free := rfl
@[simp] theorem State.sramWrite_fuse {d k b} : (s.sramWrite d k b).fuse = s.fuse := rfl
@[simp] theorem State.sramWrite_rings {d k b} : (s.sramWrite d k b).rings = s.rings := rfl
@[simp] theorem State.sramWrite_msix {d k b} : (s.sramWrite d k b).msix = s.msix := rfl
@[simp] theorem State.sramWrite_ctx {d k b} : (s.sramWrite d k b).ctx = s.ctx := rfl
@[simp] theorem State.sramWrite_resident {d k b} : (s.sramWrite d k b).resident = s.resident := rfl
@[simp] theorem State.sramWrite_globalIl {d k b} : (s.sramWrite d k b).globalIl = s.globalIl := rfl
@[simp] theorem State.sramWrite_eng {d k b} : (s.sramWrite d k b).eng = s.eng := rfl
@[simp] theorem State.sramWrite_core {d k b} : (s.sramWrite d k b).core = s.core := rfl
@[simp] theorem State.sramWrite_ports {d k b} : (s.sramWrite d k b).ports = s.ports := rfl
@[simp] theorem State.sramWrite_sync {d k b} : (s.sramWrite d k b).sync = s.sync := rfl
@[simp] theorem State.sramWrite_remap {d k b} : (s.sramWrite d k b).remap = s.remap := rfl
@[simp] theorem State.sramWrite_stb {d k b} : (s.sramWrite d k b).stb = s.stb := rfl
@[simp] theorem State.sramWrite_net {d k b} : (s.sramWrite d k b).net = s.net := rfl
@[simp] theorem State.sramWrite_stack {d k b} : (s.sramWrite d k b).stack = s.stack := rfl
@[simp] theorem State.sramWrite_scrub {d k b} : (s.sramWrite d k b).scrub = s.scrub := rfl
@[simp] theorem State.sramWrite_memLock {d k b} : (s.sramWrite d k b).memLock = s.memLock := rfl
@[simp] theorem State.sramWrite_linkLock {d k b} : (s.sramWrite d k b).linkLock = s.linkLock := rfl
@[simp] theorem State.sramWrite_lsecLock {d k b} : (s.sramWrite d k b).lsecLock = s.lsecLock := rfl
@[simp] theorem State.sramWrite_ue {d k b} : (s.sramWrite d k b).ue = s.ue := rfl
@[simp] theorem State.sramWrite_cx {d k b} : (s.sramWrite d k b).cx = s.cx := rfl
@[simp] theorem State.sramWrite_cm {d k b} : (s.sramWrite d k b).cm = s.cm := rfl
@[simp] theorem State.sramWrite_flt {d k b} : (s.sramWrite d k b).flt = s.flt := rfl
@[simp] theorem State.sramWrite_pmc {d k b} : (s.sramWrite d k b).pmc = s.pmc := rfl
@[simp] theorem State.sramWrite_sec {d k b} : (s.sramWrite d k b).sec = s.sec := rfl
@[simp] theorem State.sramWrite_fru {d k b} : (s.sramWrite d k b).fru = s.fru := rfl
@[simp] theorem State.sramWrite_sb {d k b} : (s.sramWrite d k b).sb = s.sb := rfl
@[simp] theorem State.sramWrite_pin {d k b} : (s.sramWrite d k b).pin = s.pin := rfl
@[simp] theorem State.sramWrite_bus {d k b} : (s.sramWrite d k b).bus = s.bus := rfl
@[simp] theorem State.sramWrite_fw {d k b} : (s.sramWrite d k b).fw = s.fw := rfl
@[simp] theorem State.sramWrite_radishRun {d k b} : (s.sramWrite d k b).radishRun = s.radishRun := rfl
@[simp] theorem State.sramWrite_resetDue {d k b} : (s.sramWrite d k b).resetDue = s.resetDue := rfl
@[simp] theorem State.sramWrite_rsv {d k b} : (s.sramWrite d k b).rsv = s.rsv := rfl
@[simp] theorem State.sramWrite_mem_hbm {d k b} : (s.sramWrite d k b).mem.hbm = s.mem.hbm := rfl
@[simp] theorem State.sramWrite_mem_ecc {d k b} : (s.sramWrite d k b).mem.ecc = s.mem.ecc := rfl
@[simp] theorem State.sramWrite_mem_spm {d k b} : (s.sramWrite d k b).mem.spm = s.mem.spm := rfl
@[simp] theorem State.sramWrite_mem_vgen {d k b} : (s.sramWrite d k b).mem.vgen = s.mem.vgen := rfl
@[simp] theorem State.sramWrite_mem_vreg {d k b} : (s.sramWrite d k b).mem.vreg = s.mem.vreg := rfl
@[simp] theorem State.sramWrite_mem_market {d k b} : (s.sramWrite d k b).mem.market = s.mem.market := rfl
@[simp] theorem State.sramWrite_mem_jd {d k b} : (s.sramWrite d k b).mem.jd = s.mem.jd := rfl
@[simp] theorem State.sramWrite_mem_host {d k b} : (s.sramWrite d k b).mem.host = s.mem.host := rfl
@[simp] theorem State.sramWrite_mem_hostHoles {d k b} : (s.sramWrite d k b).mem.hostHoles = s.mem.hostHoles := rfl
@[simp] theorem State.sramWrite_mem_ringWin {d k b} : (s.sramWrite d k b).mem.ringWin = s.mem.ringWin := rfl
@[simp] theorem State.sramWrite_mem_flashA {d k b} : (s.sramWrite d k b).mem.flashA = s.mem.flashA := rfl
@[simp] theorem State.sramWrite_mem_flashB {d k b} : (s.sramWrite d k b).mem.flashB = s.mem.flashB := rfl

end

section
variable (s : State)

@[simp] theorem State.vregWrite_pending {c v b} : (s.vregWrite c v b).pending = s.pending := rfl
@[simp] theorem State.vregWrite_free {c v b} : (s.vregWrite c v b).free = s.free := rfl
@[simp] theorem State.vregWrite_fuse {c v b} : (s.vregWrite c v b).fuse = s.fuse := rfl
@[simp] theorem State.vregWrite_rings {c v b} : (s.vregWrite c v b).rings = s.rings := rfl
@[simp] theorem State.vregWrite_msix {c v b} : (s.vregWrite c v b).msix = s.msix := rfl
@[simp] theorem State.vregWrite_ctx {c v b} : (s.vregWrite c v b).ctx = s.ctx := rfl
@[simp] theorem State.vregWrite_resident {c v b} : (s.vregWrite c v b).resident = s.resident := rfl
@[simp] theorem State.vregWrite_globalIl {c v b} : (s.vregWrite c v b).globalIl = s.globalIl := rfl
@[simp] theorem State.vregWrite_eng {c v b} : (s.vregWrite c v b).eng = s.eng := rfl
@[simp] theorem State.vregWrite_core {c v b} : (s.vregWrite c v b).core = s.core := rfl
@[simp] theorem State.vregWrite_ports {c v b} : (s.vregWrite c v b).ports = s.ports := rfl
@[simp] theorem State.vregWrite_sync {c v b} : (s.vregWrite c v b).sync = s.sync := rfl
@[simp] theorem State.vregWrite_remap {c v b} : (s.vregWrite c v b).remap = s.remap := rfl
@[simp] theorem State.vregWrite_stb {c v b} : (s.vregWrite c v b).stb = s.stb := rfl
@[simp] theorem State.vregWrite_net {c v b} : (s.vregWrite c v b).net = s.net := rfl
@[simp] theorem State.vregWrite_stack {c v b} : (s.vregWrite c v b).stack = s.stack := rfl
@[simp] theorem State.vregWrite_scrub {c v b} : (s.vregWrite c v b).scrub = s.scrub := rfl
@[simp] theorem State.vregWrite_memLock {c v b} : (s.vregWrite c v b).memLock = s.memLock := rfl
@[simp] theorem State.vregWrite_linkLock {c v b} : (s.vregWrite c v b).linkLock = s.linkLock := rfl
@[simp] theorem State.vregWrite_lsecLock {c v b} : (s.vregWrite c v b).lsecLock = s.lsecLock := rfl
@[simp] theorem State.vregWrite_ue {c v b} : (s.vregWrite c v b).ue = s.ue := rfl
@[simp] theorem State.vregWrite_cx {c v b} : (s.vregWrite c v b).cx = s.cx := rfl
@[simp] theorem State.vregWrite_cm {c v b} : (s.vregWrite c v b).cm = s.cm := rfl
@[simp] theorem State.vregWrite_flt {c v b} : (s.vregWrite c v b).flt = s.flt := rfl
@[simp] theorem State.vregWrite_pmc {c v b} : (s.vregWrite c v b).pmc = s.pmc := rfl
@[simp] theorem State.vregWrite_sec {c v b} : (s.vregWrite c v b).sec = s.sec := rfl
@[simp] theorem State.vregWrite_fru {c v b} : (s.vregWrite c v b).fru = s.fru := rfl
@[simp] theorem State.vregWrite_sb {c v b} : (s.vregWrite c v b).sb = s.sb := rfl
@[simp] theorem State.vregWrite_pin {c v b} : (s.vregWrite c v b).pin = s.pin := rfl
@[simp] theorem State.vregWrite_bus {c v b} : (s.vregWrite c v b).bus = s.bus := rfl
@[simp] theorem State.vregWrite_fw {c v b} : (s.vregWrite c v b).fw = s.fw := rfl
@[simp] theorem State.vregWrite_radishRun {c v b} : (s.vregWrite c v b).radishRun = s.radishRun := rfl
@[simp] theorem State.vregWrite_resetDue {c v b} : (s.vregWrite c v b).resetDue = s.resetDue := rfl
@[simp] theorem State.vregWrite_rsv {c v b} : (s.vregWrite c v b).rsv = s.rsv := rfl
@[simp] theorem State.vregWrite_mem_hbm {c v b} : (s.vregWrite c v b).mem.hbm = s.mem.hbm := rfl
@[simp] theorem State.vregWrite_mem_ecc {c v b} : (s.vregWrite c v b).mem.ecc = s.mem.ecc := rfl
@[simp] theorem State.vregWrite_mem_spm {c v b} : (s.vregWrite c v b).mem.spm = s.mem.spm := rfl
@[simp] theorem State.vregWrite_mem_sram {c v b} : (s.vregWrite c v b).mem.sram = s.mem.sram := rfl
@[simp] theorem State.vregWrite_mem_vgen {c v b} : (s.vregWrite c v b).mem.vgen = s.mem.vgen := rfl
@[simp] theorem State.vregWrite_mem_market {c v b} : (s.vregWrite c v b).mem.market = s.mem.market := rfl
@[simp] theorem State.vregWrite_mem_jd {c v b} : (s.vregWrite c v b).mem.jd = s.mem.jd := rfl
@[simp] theorem State.vregWrite_mem_host {c v b} : (s.vregWrite c v b).mem.host = s.mem.host := rfl
@[simp] theorem State.vregWrite_mem_hostHoles {c v b} : (s.vregWrite c v b).mem.hostHoles = s.mem.hostHoles := rfl
@[simp] theorem State.vregWrite_mem_ringWin {c v b} : (s.vregWrite c v b).mem.ringWin = s.mem.ringWin := rfl
@[simp] theorem State.vregWrite_mem_flashA {c v b} : (s.vregWrite c v b).mem.flashA = s.mem.flashA := rfl
@[simp] theorem State.vregWrite_mem_flashB {c v b} : (s.vregWrite c v b).mem.flashB = s.mem.flashB := rfl

end

section
variable (s : State)

@[simp] theorem State.jdWrite_pending {k b} : (s.jdWrite k b).pending = s.pending := rfl
@[simp] theorem State.jdWrite_free {k b} : (s.jdWrite k b).free = s.free := rfl
@[simp] theorem State.jdWrite_fuse {k b} : (s.jdWrite k b).fuse = s.fuse := rfl
@[simp] theorem State.jdWrite_rings {k b} : (s.jdWrite k b).rings = s.rings := rfl
@[simp] theorem State.jdWrite_msix {k b} : (s.jdWrite k b).msix = s.msix := rfl
@[simp] theorem State.jdWrite_ctx {k b} : (s.jdWrite k b).ctx = s.ctx := rfl
@[simp] theorem State.jdWrite_resident {k b} : (s.jdWrite k b).resident = s.resident := rfl
@[simp] theorem State.jdWrite_globalIl {k b} : (s.jdWrite k b).globalIl = s.globalIl := rfl
@[simp] theorem State.jdWrite_eng {k b} : (s.jdWrite k b).eng = s.eng := rfl
@[simp] theorem State.jdWrite_core {k b} : (s.jdWrite k b).core = s.core := rfl
@[simp] theorem State.jdWrite_ports {k b} : (s.jdWrite k b).ports = s.ports := rfl
@[simp] theorem State.jdWrite_sync {k b} : (s.jdWrite k b).sync = s.sync := rfl
@[simp] theorem State.jdWrite_remap {k b} : (s.jdWrite k b).remap = s.remap := rfl
@[simp] theorem State.jdWrite_stb {k b} : (s.jdWrite k b).stb = s.stb := rfl
@[simp] theorem State.jdWrite_net {k b} : (s.jdWrite k b).net = s.net := rfl
@[simp] theorem State.jdWrite_stack {k b} : (s.jdWrite k b).stack = s.stack := rfl
@[simp] theorem State.jdWrite_scrub {k b} : (s.jdWrite k b).scrub = s.scrub := rfl
@[simp] theorem State.jdWrite_memLock {k b} : (s.jdWrite k b).memLock = s.memLock := rfl
@[simp] theorem State.jdWrite_linkLock {k b} : (s.jdWrite k b).linkLock = s.linkLock := rfl
@[simp] theorem State.jdWrite_lsecLock {k b} : (s.jdWrite k b).lsecLock = s.lsecLock := rfl
@[simp] theorem State.jdWrite_ue {k b} : (s.jdWrite k b).ue = s.ue := rfl
@[simp] theorem State.jdWrite_cx {k b} : (s.jdWrite k b).cx = s.cx := rfl
@[simp] theorem State.jdWrite_cm {k b} : (s.jdWrite k b).cm = s.cm := rfl
@[simp] theorem State.jdWrite_flt {k b} : (s.jdWrite k b).flt = s.flt := rfl
@[simp] theorem State.jdWrite_pmc {k b} : (s.jdWrite k b).pmc = s.pmc := rfl
@[simp] theorem State.jdWrite_sec {k b} : (s.jdWrite k b).sec = s.sec := rfl
@[simp] theorem State.jdWrite_fru {k b} : (s.jdWrite k b).fru = s.fru := rfl
@[simp] theorem State.jdWrite_sb {k b} : (s.jdWrite k b).sb = s.sb := rfl
@[simp] theorem State.jdWrite_pin {k b} : (s.jdWrite k b).pin = s.pin := rfl
@[simp] theorem State.jdWrite_bus {k b} : (s.jdWrite k b).bus = s.bus := rfl
@[simp] theorem State.jdWrite_fw {k b} : (s.jdWrite k b).fw = s.fw := rfl
@[simp] theorem State.jdWrite_radishRun {k b} : (s.jdWrite k b).radishRun = s.radishRun := rfl
@[simp] theorem State.jdWrite_resetDue {k b} : (s.jdWrite k b).resetDue = s.resetDue := rfl
@[simp] theorem State.jdWrite_rsv {k b} : (s.jdWrite k b).rsv = s.rsv := rfl
@[simp] theorem State.jdWrite_mem_hbm {k b} : (s.jdWrite k b).mem.hbm = s.mem.hbm := rfl
@[simp] theorem State.jdWrite_mem_ecc {k b} : (s.jdWrite k b).mem.ecc = s.mem.ecc := rfl
@[simp] theorem State.jdWrite_mem_spm {k b} : (s.jdWrite k b).mem.spm = s.mem.spm := rfl
@[simp] theorem State.jdWrite_mem_sram {k b} : (s.jdWrite k b).mem.sram = s.mem.sram := rfl
@[simp] theorem State.jdWrite_mem_vgen {k b} : (s.jdWrite k b).mem.vgen = s.mem.vgen := rfl
@[simp] theorem State.jdWrite_mem_vreg {k b} : (s.jdWrite k b).mem.vreg = s.mem.vreg := rfl
@[simp] theorem State.jdWrite_mem_market {k b} : (s.jdWrite k b).mem.market = s.mem.market := rfl
@[simp] theorem State.jdWrite_mem_host {k b} : (s.jdWrite k b).mem.host = s.mem.host := rfl
@[simp] theorem State.jdWrite_mem_hostHoles {k b} : (s.jdWrite k b).mem.hostHoles = s.mem.hostHoles := rfl
@[simp] theorem State.jdWrite_mem_ringWin {k b} : (s.jdWrite k b).mem.ringWin = s.mem.ringWin := rfl
@[simp] theorem State.jdWrite_mem_flashA {k b} : (s.jdWrite k b).mem.flashA = s.mem.flashA := rfl
@[simp] theorem State.jdWrite_mem_flashB {k b} : (s.jdWrite k b).mem.flashB = s.mem.flashB := rfl

end

section
variable (s : State)

@[simp] theorem State.hostWrite_pending {k b} : (s.hostWrite k b).pending = s.pending := rfl
@[simp] theorem State.hostWrite_free {k b} : (s.hostWrite k b).free = s.free := rfl
@[simp] theorem State.hostWrite_fuse {k b} : (s.hostWrite k b).fuse = s.fuse := rfl
@[simp] theorem State.hostWrite_rings {k b} : (s.hostWrite k b).rings = s.rings := rfl
@[simp] theorem State.hostWrite_msix {k b} : (s.hostWrite k b).msix = s.msix := rfl
@[simp] theorem State.hostWrite_ctx {k b} : (s.hostWrite k b).ctx = s.ctx := rfl
@[simp] theorem State.hostWrite_resident {k b} : (s.hostWrite k b).resident = s.resident := rfl
@[simp] theorem State.hostWrite_globalIl {k b} : (s.hostWrite k b).globalIl = s.globalIl := rfl
@[simp] theorem State.hostWrite_eng {k b} : (s.hostWrite k b).eng = s.eng := rfl
@[simp] theorem State.hostWrite_core {k b} : (s.hostWrite k b).core = s.core := rfl
@[simp] theorem State.hostWrite_ports {k b} : (s.hostWrite k b).ports = s.ports := rfl
@[simp] theorem State.hostWrite_sync {k b} : (s.hostWrite k b).sync = s.sync := rfl
@[simp] theorem State.hostWrite_remap {k b} : (s.hostWrite k b).remap = s.remap := rfl
@[simp] theorem State.hostWrite_stb {k b} : (s.hostWrite k b).stb = s.stb := rfl
@[simp] theorem State.hostWrite_net {k b} : (s.hostWrite k b).net = s.net := rfl
@[simp] theorem State.hostWrite_stack {k b} : (s.hostWrite k b).stack = s.stack := rfl
@[simp] theorem State.hostWrite_scrub {k b} : (s.hostWrite k b).scrub = s.scrub := rfl
@[simp] theorem State.hostWrite_memLock {k b} : (s.hostWrite k b).memLock = s.memLock := rfl
@[simp] theorem State.hostWrite_linkLock {k b} : (s.hostWrite k b).linkLock = s.linkLock := rfl
@[simp] theorem State.hostWrite_lsecLock {k b} : (s.hostWrite k b).lsecLock = s.lsecLock := rfl
@[simp] theorem State.hostWrite_ue {k b} : (s.hostWrite k b).ue = s.ue := rfl
@[simp] theorem State.hostWrite_cx {k b} : (s.hostWrite k b).cx = s.cx := rfl
@[simp] theorem State.hostWrite_cm {k b} : (s.hostWrite k b).cm = s.cm := rfl
@[simp] theorem State.hostWrite_flt {k b} : (s.hostWrite k b).flt = s.flt := rfl
@[simp] theorem State.hostWrite_pmc {k b} : (s.hostWrite k b).pmc = s.pmc := rfl
@[simp] theorem State.hostWrite_sec {k b} : (s.hostWrite k b).sec = s.sec := rfl
@[simp] theorem State.hostWrite_fru {k b} : (s.hostWrite k b).fru = s.fru := rfl
@[simp] theorem State.hostWrite_sb {k b} : (s.hostWrite k b).sb = s.sb := rfl
@[simp] theorem State.hostWrite_pin {k b} : (s.hostWrite k b).pin = s.pin := rfl
@[simp] theorem State.hostWrite_bus {k b} : (s.hostWrite k b).bus = s.bus := rfl
@[simp] theorem State.hostWrite_fw {k b} : (s.hostWrite k b).fw = s.fw := rfl
@[simp] theorem State.hostWrite_radishRun {k b} : (s.hostWrite k b).radishRun = s.radishRun := rfl
@[simp] theorem State.hostWrite_resetDue {k b} : (s.hostWrite k b).resetDue = s.resetDue := rfl
@[simp] theorem State.hostWrite_rsv {k b} : (s.hostWrite k b).rsv = s.rsv := rfl
@[simp] theorem State.hostWrite_mem_hbm {k b} : (s.hostWrite k b).mem.hbm = s.mem.hbm := rfl
@[simp] theorem State.hostWrite_mem_ecc {k b} : (s.hostWrite k b).mem.ecc = s.mem.ecc := rfl
@[simp] theorem State.hostWrite_mem_spm {k b} : (s.hostWrite k b).mem.spm = s.mem.spm := rfl
@[simp] theorem State.hostWrite_mem_sram {k b} : (s.hostWrite k b).mem.sram = s.mem.sram := rfl
@[simp] theorem State.hostWrite_mem_vgen {k b} : (s.hostWrite k b).mem.vgen = s.mem.vgen := rfl
@[simp] theorem State.hostWrite_mem_vreg {k b} : (s.hostWrite k b).mem.vreg = s.mem.vreg := rfl
@[simp] theorem State.hostWrite_mem_market {k b} : (s.hostWrite k b).mem.market = s.mem.market := rfl
@[simp] theorem State.hostWrite_mem_jd {k b} : (s.hostWrite k b).mem.jd = s.mem.jd := rfl
@[simp] theorem State.hostWrite_mem_hostHoles {k b} : (s.hostWrite k b).mem.hostHoles = s.mem.hostHoles := rfl
@[simp] theorem State.hostWrite_mem_ringWin {k b} : (s.hostWrite k b).mem.ringWin = s.mem.ringWin := rfl
@[simp] theorem State.hostWrite_mem_flashA {k b} : (s.hostWrite k b).mem.flashA = s.mem.flashA := rfl
@[simp] theorem State.hostWrite_mem_flashB {k b} : (s.hostWrite k b).mem.flashB = s.mem.flashB := rfl

end

@[simp] theorem State.ctxAt_modCtx (s : State) (k j : Nat) (f) :
    (s.modCtx k f).ctxAt j = if j = k then f (s.ctxAt k) else s.ctxAt j :=
  tget_tmod ..

@[simp] theorem State.ringAt_modRing (s : State) (k j : Nat) (f) :
    (s.modRing k f).ringAt j = if j = k then f (s.ringAt k) else s.ringAt j :=
  tget_tmod ..

@[simp] theorem State.memberAt_modMember (s : State) (k j : Nat) (f) :
    (s.modMember k f).memberAt j = if j = k then f (s.memberAt k) else s.memberAt j :=
  tget_tmod ..

@[simp] theorem State.streamAt_modStream (s : State) (k j : Nat) (f) :
    (s.modStream k f).streamAt j = if j = k then f (s.streamAt k) else s.streamAt j :=
  tget_tmod ..

@[simp] theorem State.mktAt_modMkt (s : State) (k j : Nat) (f) :
    (s.modMkt k f).mktAt j = if j = k then f (s.mktAt k) else s.mktAt j :=
  tget_tmod ..

@[simp] theorem State.stackAt_modStack (s : State) (k j : Nat) (f) :
    (s.modStack k f).stackAt j = if j = k then f (s.stackAt k) else s.stackAt j :=
  tget_tmod ..

@[simp] theorem State.ueAt_modUe (s : State) (k j : Nat) (f) :
    (s.modUe k f).ueAt j = if j = k then f (s.ueAt k) else s.ueAt j :=
  tget_tmod ..

@[simp] theorem State.cxAt_modCx (s : State) (k j : Nat) (f) :
    (s.modCx k f).cxAt j = if j = k then f (s.cxAt k) else s.cxAt j :=
  tget_tmod ..

@[simp] theorem State.divAt_modDiv (s : State) (k j : Nat) (f) :
    (s.modDiv k f).divAt j = if j = k then f (s.divAt k) else s.divAt j :=
  tget_tmod ..

@[simp] theorem State.xsAt_modXs (s : State) (k j : Nat) (f) :
    (s.modXs k f).xsAt j = if j = k then f (s.xsAt k) else s.xsAt j :=
  tget_tmod ..

@[simp] theorem State.slotAt_modSlot (s : State) (k j : Nat) (f) :
    (s.modSlot k f).slotAt j = if j = k then f (s.slotAt k) else s.slotAt j :=
  tget_tmod ..

@[simp] theorem State.coreAt_modCore (s : State) (c : CoreRef) (f) : (s.modCore c f).coreAt c = f (s.coreAt c) :=
  (tget_tmod ..).trans (if_pos rfl)

theorem State.coreAt_modCore_other (s : State) {c d : CoreRef} (f) (h : s.coreKey d ≠ s.coreKey c) :
    (s.modCore c f).coreAt d = s.coreAt d :=
  (tget_tmod ..).trans (if_neg h)

@[simp] theorem State.engRaw_setEng (s : State) (e : EngRef) (v : EngSt) : (s.setEng e v).engRaw e = v :=
  (tget_tset ..).trans (if_pos rfl)

theorem State.engRaw_setEng_other (s : State) {e d : EngRef} (v : EngSt) (h : engKey d ≠ engKey e) :
    (s.setEng e v).engRaw d = s.engRaw d :=
  (tget_tset ..).trans (if_neg h)

end Sys2Proof.Machine
end

