-- ==== Sys2Proof/Laws/Issue.lean ====
section
/-! SUPPORT. What an op, a Citis command and a sideband command do, said once for the operation that they share. -/

namespace Sys2Proof.Machine

/-! ## Ops of streams -/

/-- A command of a unit that the part has runs its meaning. -/
theorem guardUnit_eq {p : Bool} {k : Out} (h : p = true) : guardUnit p k = k := by simp [guardUnit, h]

/-- A command of a unit that the part does not have stops. -/
theorem guardUnit_absent {p : Bool} {k : Out} (h : p = false) : guardUnit p k = .fault .absentUnit := by
  simp [guardUnit, h]

/-- Strikes of which there are none change nothing. -/
@[simp] theorem State.strikes_nil (s : State) (b : Bool) : s.strikes { flips := [], residue := b } = s := rfl

/-- Detectors that find nothing report nothing. -/
@[simp] theorem State.observe_clean (s : State) (e : EngRef) (n : BitVec 64) : s.observe e n [] false = s := rfl

theorem MayIssue.isNext {s : State} {e : EngRef} {i : Instr} {h : OpHdr} {n : BitVec 64} (m : MayIssue s e i h n) :
    s.isNext e i = true := by
  simp only [State.isNext, m.step, m.live, m.running, m.free, m.next, m.powered, Option.isSome_some, Bool.not_false,
    Bool.and_true, beq_self_eq_true]

/-- An op whose engine does not come to it next stays where it is. -/
theorem issueWith_other {s : State} {e : EngRef} {i : Instr} {h : OpHdr} {o : HwObs}
    {ready : EngSt → BitVec 64 → Bool} {own : BitVec 64 → Option WaitSt}
    {act : State → EngSt → BitVec 64 → State × EngSt × IssuedOp} (hn : s.isNext e i = false) :
    issueWith s e i h o ready own act = .next s := by
  unfold issueWith
  simp only [hn]
  split <;> rfl

/-- An op that is not ready stays where it is. -/
theorem issueWith_unready {s : State} {e : EngRef} {i : Instr} {h : OpHdr} {n : BitVec 64} (m : MayIssue s e i h n)
    {o : HwObs} {ready : EngSt → BitVec 64 → Bool} {own : BitVec 64 → Option WaitSt}
    {act : State → EngSt → BitVec 64 → State × EngSt × IssuedOp} (hr : ready (s.engAt e) n = false) :
    issueWith s e i h o ready own act = .next s := by
  unfold issueWith
  simp only [m.step, hr]
  simp

/-- An op that is ready and that a wait holds back makes its engine wait. -/
theorem issueWith_waits {s : State} {e : EngRef} {i : Instr} {h : OpHdr} {n : BitVec 64} {w : WaitSt}
    (m : MayIssue s e i h n) {o : HwObs} {ready : EngSt → BitVec 64 → Bool} {own : BitVec 64 → Option WaitSt}
    {act : State → EngSt → BitVec 64 → State × EngSt × IssuedOp} (hr : ready (s.engAt e) n = true)
    (hw : waitOf s e (s.engAt e) n h (own n) = some w) :
    issueWith s e i h o ready own act = .next (s.setEng e ((s.engAt e).waitFor w)) := by
  unfold issueWith
  simp only [m.step, m.isNext, hr, hw]
  rfl

/-- An op that is ready and that no wait holds back has its effect, its detectors report, and it joins the issued ops. -/
theorem issueWith_eq {s : State} {e : EngRef} {i : Instr} {h : OpHdr} {n : BitVec 64} (m : MayIssue s e i h n)
    {o : HwObs} {ready : EngSt → BitVec 64 → Bool} {own : BitVec 64 → Option WaitSt}
    {act : State → EngSt → BitVec 64 → State × EngSt × IssuedOp} (hr : ready (s.engAt e) n = true)
    (hw : waitOf s e (s.engAt e) n h (own n) = none) :
    issueWith s e i h o ready own act
      = .next ((act (s.strikes o) (s.engAt e) n).1.issuedSeen (s.strikes o) e i n o (act (s.strikes o) (s.engAt e) n).2.1
          (act (s.strikes o) (s.engAt e) n).2.2) := by
  unfold issueWith
  simp only [m.step, m.isNext, hr, hw]
  rfl

theorem waitOf_none {s : State} {e : EngRef} {i : Instr} {h : OpHdr} {n : BitVec 64} (m : MayIssue s e i h n) :
    waitOf s e (s.engAt e) n h none = none := by
  simp [waitOf, m.header]

/-- `issueWith_eq` for an op that waits on nothing but its header. -/
theorem issue_eq {s : State} {e : EngRef} {i : Instr} {h : OpHdr} {n : BitVec 64} (m : MayIssue s e i h n)
    {o : HwObs} {ready : EngSt → BitVec 64 → Bool} {act : State → EngSt → BitVec 64 → State × EngSt × IssuedOp}
    (hr : ready (s.engAt e) n = true) :
    issue s e i h o ready act
      = .next ((act (s.strikes o) (s.engAt e) n).1.issuedSeen (s.strikes o) e i n o (act (s.strikes o) (s.engAt e) n).2.1
          (act (s.strikes o) (s.engAt e) n).2.2) :=
  issueWith_eq m hr (waitOf_none m)

/-- `issueWith_unready` for an op that waits on nothing but its header. -/
theorem issue_waits {s : State} {e : EngRef} {i : Instr} {h : OpHdr} {n : BitVec 64} (m : MayIssue s e i h n)
    {o : HwObs} {ready : EngSt → BitVec 64 → Bool} {act : State → EngSt → BitVec 64 → State × EngSt × IssuedOp}
    (hr : ready (s.engAt e) n = false) : issue s e i h o ready act = .next s := issueWith_unready m hr

/-! ## Citis commands -/

/-- A command whose packet gets no reject has its effect, and the ring is served. -/
theorem runCmd_accepted {r : Fin 8} {f : CmdForm} {body : State → BitVec 512 → State} {s : State} {p : BitVec 512}
    (hr : s.ringReady r.val = true) (he : s.entryAt r.val = some p) (ho : pktOp p = f.op)
    (hc : s.cmdReject r.val f p = none) (hw : s.hbmWaits r.val f p = false) :
    runCmd r f body s = served r (body (s.takeEntry r.val p) p) := by
  simp [runCmd, served, hr, he, ho, hc, hw]

/-- A command whose packet gets a reject replies with it and has no other effect. -/
theorem runCmd_rejected {r : Fin 8} {f : CmdForm} {body : State → BitVec 512 → State} {s : State} {p : BitVec 512}
    {e : Nat × Nat} (hr : s.ringReady r.val = true) (he : s.entryAt r.val = some p) (ho : pktOp p = f.op)
    (hc : s.cmdReject r.val f p = some e) (hw : s.hbmWaits r.val f p = false) :
    runCmd r f body s = replies r p (s.takeEntry r.val p) e.1 e.2 := by
  simp [runCmd, replies, served, hr, he, ho, hc, hw]

/-- A command that needs a stack which is shut down waits at the head of its ring (R350). -/
theorem runCmd_hbmWaits {r : Fin 8} {f : CmdForm} {body : State → BitVec 512 → State} {s : State} {p : BitVec 512}
    (hr : s.ringReady r.val = true) (he : s.entryAt r.val = some p) (hw : s.hbmWaits r.val f p = true) :
    runCmd r f body s = .next s := by
  simp [runCmd, hr, he, hw]

/-- The command at the head of a ring is another row's. -/
theorem runCmd_other {r : Fin 8} {f : CmdForm} {body : State → BitVec 512 → State} {s : State} {p : BitVec 512}
    (he : s.entryAt r.val = some p) (ho : pktOp p ≠ f.op) (hr : s.ringReady r.val = true) :
    runCmd r f body s = .next s := by
  simp [runCmd, hr, he, ho]

/-- A ring that may not take an entry. -/
theorem runCmd_notReady {r : Fin 8} {f : CmdForm} {body : State → BitVec 512 → State} {s : State}
    (hr : s.ringReady r.val = false) : runCmd r f body s = .next s := by
  simp [runCmd, hr]

/-- A ring whose queue does not answer. -/
theorem runCmd_stops {r : Fin 8} {f : CmdForm} {body : State → BitVec 512 → State} {s : State}
    (hr : s.ringReady r.val = true) (he : s.entryAt r.val = none) : runCmd r f body s = .next (s.ringFault r.val) := by
  simp [runCmd, hr, he]

/-- What an output command does with a buffer that takes its bytes, and with one that does not. -/
theorem outReply_eq (s : State) (r : Nat) (p : BitVec 512) (bs : Bytes) (st d : Nat) :
    s.outReply r p bs st d = match s.outErr p bs.length with
      | some e => s.reply r p e.1 e.2 0
      | none => (s.hostWrite (pf p 16 8) bs).reply r p st d bs.length := rfl

/-! ## Sideband commands -/

/-- A sideband command from stage 2 on. -/
theorem sbReady_on {s : State} (f : State → State) (h : s.sbOn = true) : s.sbReady f = .next (f s) := by
  simp [State.sbReady, h]

/-- A sideband command before stage 2. -/
theorem sbReady_off {s : State} (f : State → State) (h : s.sbOn = false) : s.sbReady f = .next (s.sbAnswer [3#8]) := by
  simp [State.sbReady, h]

end Sys2Proof.Machine
end

