-- ==== Sys2Proof/Laws/Keep.lean ====
section
/-! SUPPORT. What no effect of a command changes: the queue of waiting commands and the fuses. What every effect keeps:
the canonical form of the memories, and, where nothing is reset, the lock registers. -/

namespace Sys2Proof.Machine

/-- `t` comes from `s` by effects: the queue is as it was, the fuses keep, the memories stay canonical, and, for `lk = true`,
every lock that was set stays set. -/
structure Keeps (lk : Bool) (s t : State) : Prop where
  pending : t.pending = s.pending
  fuse : FuseKept s.fuse t.fuse
  mem : s.memOk = true → t.memOk = true
  locks : lk = true → LocksKept s t

theorem FuseKept.refl (f : Fuses) : FuseKept f f := ⟨rfl, Nat.le_refl _⟩

theorem FuseKept.trans {f g h : Fuses} (a : FuseKept f g) (b : FuseKept g h) : FuseKept f h :=
  ⟨by rw [b.same, a.same], Nat.le_trans a.arb b.arb⟩

theorem LocksKept.refl (s : State) : LocksKept s s := ⟨fun _ h => h, fun _ h => h, fun h => h⟩

theorem LocksKept.trans {s t u : State} (h : LocksKept s t) (k : LocksKept t u) : LocksKept s u :=
  ⟨fun d w => k.mem d (h.mem d w), fun d w => k.link d (h.link d w), fun w => k.lsec (h.lsec w)⟩

theorem Keeps.refl {lk : Bool} (s : State) : Keeps lk s s := ⟨rfl, .refl _, fun h => h, fun _ => .refl s⟩

theorem Keeps.trans {lk : Bool} {s t u : State} (h : Keeps lk s t) (k : Keeps lk t u) : Keeps lk s u :=
  ⟨k.pending.trans h.pending, h.fuse.trans k.fuse, fun w => k.mem (h.mem w), fun e => (h.locks e).trans (k.locks e)⟩

theorem LocksKept.of_eq {s t : State} (hm : t.memLock = s.memLock) (hl : t.linkLock = s.linkLock)
    (hs : t.lsecLock = s.lsecLock) : LocksKept s t :=
  ⟨fun _ h => hm ▸ h, fun _ h => hl ▸ h, fun h => hs ▸ h⟩

/-- The parts of a state that `Keeps` speaks of, named one by one: a goal about an updated record is taken apart with
`keeps_parts`, simplified, and put together with `keeps_fold`, whatever its other fields are. -/
def KeptParts (lk : Bool) (z : State) (queue : List Instr) (fuse : Fuses) (mem : MemSt) (ctx : Tbl CtxSt)
    (memLock linkLock : Tbl LockSt) (lsecLock : LockSt) : Prop :=
  ∀ t : State, t.pending = queue → t.fuse = fuse → t.mem = mem → t.ctx = ctx → t.memLock = memLock →
    t.linkLock = linkLock → t.lsecLock = lsecLock → Keeps lk z t

theorem keeps_parts {lk : Bool} {z t : State}
    (h : KeptParts lk z t.pending t.fuse t.mem t.ctx t.memLock t.linkLock t.lsecLock) : Keeps lk z t :=
  h t rfl rfl rfl rfl rfl rfl rfl

theorem keeps_fold {lk : Bool} {z s : State} (h : Keeps lk z s) :
    KeptParts lk z s.pending s.fuse s.mem s.ctx s.memLock s.linkLock s.lsecLock := by
  intro t queue fuse mem ctx memLock linkLock lsecLock
  refine h.trans ⟨queue, fuse ▸ .refl _, fun w => ?_, fun _ => .of_eq memLock linkLock lsecLock⟩
  unfold State.memOk at w ⊢
  rw [mem, ctx]
  exact w

/-- An update of fields that `Keeps` does not speak of. -/
theorem keeps_mk {lk : Bool} {z s t : State} (h : Keeps lk z s)
    (same : (t.pending, t.fuse, t.mem, t.ctx, t.memLock, t.linkLock, t.lsecLock)
      = (s.pending, s.fuse, s.mem, s.ctx, s.memLock, s.linkLock, s.lsecLock) := by rfl) : Keeps lk z t := by
  simp only [Prod.mk.injEq] at same
  obtain ⟨queue, fuse, mem, ctx, memLock, linkLock, lsecLock⟩ := same
  exact keeps_fold h t queue fuse mem ctx memLock linkLock lsecLock

/-- An update of the memories, and of fields that `Keeps` does not speak of. -/
theorem keeps_mem {lk : Bool} {z s t : State} (h : Keeps lk z s)
    (hm : Memory.wf s.mem = true → Memory.wf t.mem = true)
    (same : (t.pending, t.fuse, t.ctx, t.memLock, t.linkLock, t.lsecLock)
      = (s.pending, s.fuse, s.ctx, s.memLock, s.linkLock, s.lsecLock) := by rfl) : Keeps lk z t := by
  simp only [Prod.mk.injEq] at same
  obtain ⟨queue, fuse, ctx, memLock, linkLock, lsecLock⟩ := same
  refine h.trans ⟨queue, fuse ▸ .refl _, fun w => ?_, fun _ => .of_eq memLock linkLock lsecLock⟩
  simp only [State.memOk, Bool.and_eq_true, ctx] at w ⊢
  exact ⟨hm w.1, w.2⟩

/-- A lock register of a compute die replaced: its LOCK stays set. -/
theorem keeps_memLock {lk : Bool} {z s : State} {d : Nat} {v : LockSt} (h : Keeps lk z s)
    (hv : (tget .reset s.memLock d).lock = true → v.lock = true) :
    Keeps lk z { s with memLock := tset .reset s.memLock d v } := by
  refine h.trans ⟨rfl, .refl _, fun w => w, fun _ => ⟨fun e he => ?_, fun _ w => w, fun w => w⟩⟩
  dsimp only
  rw [tget_tset]
  split
  · next q => exact hv (q ▸ he)
  · exact he

/-- A lock register of an I/O die replaced: its LOCK stays set. -/
theorem keeps_linkLock {lk : Bool} {z s : State} {d : Nat} {v : LockSt} (h : Keeps lk z s)
    (hv : (tget .reset s.linkLock d).lock = true → v.lock = true) :
    Keeps lk z { s with linkLock := tset .reset s.linkLock d v } := by
  refine h.trans ⟨rfl, .refl _, fun w => w, fun _ => ⟨fun _ w => w, fun e he => ?_, fun w => w⟩⟩
  dsimp only
  rw [tget_tset]
  split
  · next q => exact hv (q ▸ he)
  · exact he

/-- LSEC_LOCK replaced: its LOCK stays set. -/
theorem keeps_lsecLock {lk : Bool} {z s : State} {v : LockSt} (h : Keeps lk z s)
    (hv : s.lsecLock.lock = true → v.lock = true) : Keeps lk z { s with lsecLock := v } :=
  h.trans ⟨rfl, .refl _, fun w => w, fun _ => ⟨fun _ w => w, fun _ w => w, hv⟩⟩

theorem keeps_foldl {lk : Bool} {α : Type} {z s : State} {l : List α} {f : State → α → State} (h : Keeps lk z s)
    (hf : ∀ a x, Keeps lk z a → Keeps lk z (f a x)) : Keeps lk z (l.foldl f s) := by
  induction l generalizing s with
  | nil => exact h
  | cons x r ih => exact ih (hf s x h)

theorem keeps_foldl_fst {lk : Bool} {α β : Type} {z : State} {b : State × β} {l : List α} {f : State × β → α → State × β}
    (h : Keeps lk z b.1) (hf : ∀ a x, Keeps lk z a.1 → Keeps lk z (f a x).1) : Keeps lk z (l.foldl f b).1 := by
  induction l generalizing b with
  | nil => exact h
  | cons x r ih => exact ih (hf b x h)

theorem keeps_repeat {lk : Bool} {z s : State} {f : State → State} (n : Nat) (h : Keeps lk z s)
    (hf : ∀ a, Keeps lk z a → Keeps lk z (f a)) : Keeps lk z (Nat.repeat f n s) := by
  induction n with
  | zero => exact h
  | succ k ih => exact hf _ ih

theorem mem_tput {α : Type} {t : Tbl α} {k : Nat} {v : α} {e : Nat × α} (h : e ∈ tput t k v) : e = (k, v) ∨ e ∈ t := by
  induction t with
  | nil => simpa [tput] using h
  | cons a r ih =>
    simp only [tput] at h
    split at h
    · simpa using h
    · split at h
      · simp only [List.mem_cons] at h ⊢
        exact h.elim .inl fun h => .inr (.inr h)
      · simp only [List.mem_cons] at h ⊢
        exact h.elim (fun h => .inr (.inl h)) fun h => (ih h).imp id .inr

theorem mem_tdel {α : Type} {t : Tbl α} {k : Nat} {e : Nat × α} (h : e ∈ tdel t k) : e ∈ t := by
  induction t with
  | nil => exact h
  | cons a r ih =>
    simp only [tdel] at h
    split at h
    · exact List.mem_cons_of_mem _ (ih h)
    · simp only [List.mem_cons] at h ⊢
      exact h.imp id ih

theorem mem_tset {α : Type} [DecidableEq α] {d : α} {t : Tbl α} {k : Nat} {v : α} {e : Nat × α} (h : e ∈ tset d t k v) :
    e = (k, v) ∨ e ∈ t := by
  unfold tset at h
  split at h
  · exact .inr (mem_tdel h)
  · exact mem_tput h

theorem tget_mem {α : Type} {d : α} {t : Tbl α} {k : Nat} : tget d t k = d ∨ (k, tget d t k) ∈ t := by
  induction t with
  | nil => exact .inl rfl
  | cons a r ih =>
    obtain ⟨j, v⟩ := a
    simp only [tget]
    split
    · next h => exact .inr (by simp [h])
    · exact ih.imp id (List.mem_cons_of_mem _)

/-- A context that a state with canonical memories holds. -/
theorem State.savedOk_ctxAt {s : State} (h : s.memOk = true) (c : Nat) : (s.ctxAt c).savedOk = true := by
  simp only [State.memOk, Bool.and_eq_true, List.all_eq_true] at h
  unfold State.ctxAt
  rcases tget_mem (d := CtxSt.reset) (t := s.ctx) (k := c) with e | e
  · rw [e]; rfl
  · exact h.2 _ e

theorem State.modCtx_keeps {lk : Bool} {z s : State} {c : Nat} {f : CtxSt → CtxSt} (h : Keeps lk z s)
    (hf : s.memOk = true → ∀ x : CtxSt, x.savedOk = true → (f x).savedOk = true) : Keeps lk z (s.modCtx c f) := by
  refine h.trans ⟨rfl, .refl _, fun w => ?_, fun _ => .of_eq rfl rfl rfl⟩
  have hx := State.savedOk_ctxAt w c
  have w' := w
  simp only [State.memOk, Bool.and_eq_true, List.all_eq_true] at w ⊢
  refine ⟨w.1, fun e he => ?_⟩
  rcases mem_tset he with e' | e'
  · rw [e']; exact hf w' _ hx
  · exact w.2 _ e'

end Sys2Proof.Machine
end

