-- ==== Sys2Proof/Laws/Memory.lean ====
section
/-! SUPPORT. Every memory operation keeps the canonical form of the memories. -/

namespace Sys2Proof.Machine

-- One theorem after another: waiting side by side they take a thread's stack each.
set_option Elab.async false

/-- What the canonical form says, part by part. -/
structure MemCanon (m : MemSt) : Prop where
  hbm : canon 0#8 m.hbm = true
  ecc : canon 0#8 m.ecc = true
  spm : m.spm.wf = true
  sram : m.sram.wf = true
  market : canon 0#8 m.market = true
  par : canon false m.par = true
  jd : canon 0#8 m.jd = true
  host : canon 0#8 m.host = true
  ringWin : canon 0#8 m.ringWin = true

theorem Memory.wf_iff {m : MemSt} : Memory.wf m = true ↔ MemCanon m := by
  simp only [Memory.wf, Bool.and_eq_true]
  constructor
  · intro h
    obtain ⟨h, ringWin⟩ := h
    obtain ⟨h, host⟩ := h
    obtain ⟨h, jd⟩ := h
    obtain ⟨h, par⟩ := h
    obtain ⟨⟨⟨h, spm⟩, sram⟩, market⟩ := h
    exact { hbm := h.1, ecc := h.2, spm, sram, market, par, jd, host, ringWin }
  · intro h
    simp [h.hbm, h.ecc, h.spm, h.sram, h.market, h.par, h.jd, h.host, h.ringWin]

theorem Memory.wf_reset : Memory.wf State.reset.mem = true := by decide

/-- An update of the memories that keeps each part canonical keeps the whole. -/
theorem Memory.wf_step {m n : MemSt} (f : MemCanon m → MemCanon n) (h : Memory.wf m = true) : Memory.wf n = true :=
  Memory.wf_iff.2 (f (Memory.wf_iff.1 h))

theorem canon_generate {m : MemSt} {k len : Nat} (h : canon false m.par = true) :
    canon false (m.generate k len).par = true := canon_filter h

theorem writeLine_wf {m : MemSt} {l : Nat} {bs : Bytes} : Memory.wf m = true → Memory.wf (writeLine m l bs) = true :=
  Memory.wf_step fun w => { w with hbm := canon_wrBytes w.hbm, ecc := canon_filter w.ecc }

theorem corrupt_wf {m : MemSt} {l : Nat} {errs : List SymErr} :
    Memory.wf m = true → Memory.wf (corrupt m l errs) = true := by
  refine Memory.wf_step fun w => { w with ecc := ?_ }
  have := w.ecc
  unfold corrupt
  generalize m.ecc = t at this
  dsimp only
  induction errs generalizing t with
  | nil => exact this
  | cons e r ih => exact ih _ (canon_tset this)

theorem State.spmWrite_keeps {lk : Bool} {z s : State} {c : CoreRef} {a : Nat} {bs : Bytes} (h : Keeps lk z s) :
    Keeps lk z (s.spmWrite c a bs) :=
  keeps_mem h (Memory.wf_step fun w =>
    { w with spm := Store.wf_write w.spm, par := canon_generate w.par })

theorem State.sramWrite_keeps {lk : Bool} {z s : State} {d a : Nat} {bs : Bytes} (h : Keeps lk z s) :
    Keeps lk z (s.sramWrite d a bs) :=
  keeps_mem h (Memory.wf_step fun w =>
    { w with sram := Store.wf_write w.sram, par := canon_generate w.par })

theorem State.vregWrite_keeps {lk : Bool} {z s : State} {c : CoreRef} {v : BitVec 6} {xs : List (BitVec 32)}
    (h : Keeps lk z s) : Keeps lk z (s.vregWrite c v xs) := by
  unfold State.vregWrite
  exact keeps_mem h (Memory.wf_step fun w => { w with par := canon_generate w.par })

theorem State.marketWrite_keeps {lk : Bool} {z s : State} {io off : Nat} {bs : Bytes} (h : Keeps lk z s) :
    Keeps lk z (s.marketWrite io off bs) :=
  keeps_mem h (Memory.wf_step fun w =>
    { w with market := canon_wrBytes w.market, par := canon_generate w.par })

/-- The parity of the bytes that some writes generate. -/
theorem canon_generated {l : List Nat} {f : Nat → Nat} {len : Nat} {m : MemSt} (h : canon false m.par = true) :
    canon false (l.foldl (fun (m : MemSt) p => m.generate (f p) len) m).par = true := by
  induction l generalizing m with
  | nil => exact h
  | cons p r ih => exact ih (canon_generate h)

theorem State.bankWrote_keeps {lk : Bool} {z s : State} {c : CoreRef} {b : Bool} {places : List Nat} (h : Keeps lk z s) :
    Keeps lk z (s.bankWrote c b places) :=
  keeps_mem h (Memory.wf_step fun w => { w with par := canon_generated w.par })

theorem State.jdWrite_keeps {lk : Bool} {z s : State} {a : Nat} {bs : Bytes} (h : Keeps lk z s) :
    Keeps lk z (s.jdWrite a bs) :=
  keeps_mem h (Memory.wf_step fun w => { w with jd := canon_wrBytes w.jd })

theorem State.hostWrite_keeps {lk : Bool} {z s : State} {a : Nat} {bs : Bytes} (h : Keeps lk z s) :
    Keeps lk z (s.hostWrite a bs) :=
  keeps_mem h (Memory.wf_step fun w => { w with host := canon_wrBytes w.host })

theorem State.modStack_keeps {lk : Bool} {z s : State} {k : Nat} {f : StackSt → StackSt} (h : Keeps lk z s) :
    Keeps lk z (s.modStack k f) := keeps_mk h

theorem State.modCore_keeps {lk : Bool} {z s : State} {c : CoreRef} {f : CoreSt → CoreSt} (h : Keeps lk z s) :
    Keeps lk z (s.modCore c f) := keeps_mk h

theorem State.wire_keeps {lk : Bool} {z s : State} {r : FaultReport} (h : Keeps lk z s) : Keeps lk z (s.wire r) :=
  keeps_mk h

theorem State.lineBad_keeps {lk : Bool} {z s : State} {l : Nat} {n : Option (BitVec 64)} {b : Bool} (h : Keeps lk z s) :
    Keeps lk z (s.lineBad l n b) := State.wire_keeps (State.modStack_keeps h)

theorem State.laneError_keeps {lk : Bool} {z s : State} {k lane n : Nat} (h : Keeps lk z s) :
    Keeps lk z (s.laneError k lane n) := by
  unfold State.laneError
  dsimp only
  split
  · exact State.wire_keeps (State.modStack_keeps h)
  · exact State.modStack_keeps h

theorem State.readLine_keeps {lk : Bool} {z s : State} {l : Nat} {n : Option (BitVec 64)} {b : Bool}
    (h : Keeps lk z s) : Keeps lk z (s.readLine l n b).1 := by
  unfold State.readLine
  dsimp only
  split
  · exact h
  · exact State.laneError_keeps (State.modStack_keeps (keeps_mem h writeLine_wf))
  · exact State.lineBad_keeps h

theorem State.hbmLines_keeps {lk : Bool} {z s : State} {n : Option (BitVec 64)} {b : Bool} {ls : List Nat}
    (h : Keeps lk z s) : Keeps lk z (s.hbmLines n b ls).1 := by
  induction ls generalizing s with
  | nil => exact h
  | cons l r ih => exact ih (State.readLine_keeps h)

theorem State.hbmRead_keeps {lk : Bool} {z s : State} {n : Option (BitVec 64)} {a len : Nat} (h : Keeps lk z s) :
    Keeps lk z (s.hbmRead n a len).1 := State.hbmLines_keeps h

theorem State.hbmWriteLine_keeps {lk : Bool} {z s : State} {n : Option (BitVec 64)} {l off : Nat} {bs : Bytes}
    (h : Keeps lk z s) : Keeps lk z (s.hbmWriteLine n l off bs) := by
  unfold State.hbmWriteLine
  split
  · exact keeps_mem h writeLine_wf
  · dsimp only
    split
    · exact State.readLine_keeps h
    · exact keeps_mem (State.readLine_keeps h) writeLine_wf

theorem State.hbmWriteGo_keeps {lk : Bool} {z s : State} {n : Option (BitVec 64)} {fuel a : Nat} {bs : Bytes}
    (h : Keeps lk z s) : Keeps lk z (s.hbmWriteGo n fuel a bs) := by
  induction fuel generalizing s a bs with
  | zero => exact h
  | succ k ih =>
    unfold State.hbmWriteGo
    split
    · exact h
    · exact ih (State.hbmWriteLine_keeps h)

theorem State.hbmWrite_keeps {lk : Bool} {z s : State} {n : Option (BitVec 64)} {a : Nat} {bs : Bytes}
    (h : Keeps lk z s) : Keeps lk z (s.hbmWrite n a bs) := State.hbmWriteGo_keeps h

theorem State.memWrite_keeps {lk : Bool} {z s : State} {n : Option (BitVec 64)} {a : Nat} {bs : Bytes}
    (h : Keeps lk z s) : Keeps lk z (s.memWrite n a bs) := by
  unfold State.memWrite
  split
  · exact State.hbmWrite_keeps h
  · exact State.sramWrite_keeps h
  · exact keeps_mem h (Memory.wf_step fun w =>
      { w with spm := Store.wf_write w.spm, par := canon_generate w.par })
  · exact State.marketWrite_keeps h
  · exact h

theorem State.parFaults_keeps {lk : Bool} {z s : State} {e : Option EngRef} {n : Option (BitVec 64)} {bad : List Nat}
    (h : Keeps lk z s) : Keeps lk z (s.parFaults e n bad) := by
  unfold State.parFaults
  split
  · exact h
  · refine keeps_foldl ?_ fun _ _ => State.wire_keeps
    split
    · exact State.modCore_keeps h
    · exact h

theorem State.memRead_keeps {lk : Bool} {z s : State} {e : Option EngRef} {n : Option (BitVec 64)} {a len : Nat}
    (h : Keeps lk z s) : Keeps lk z (s.memRead e n a len).1 := by
  unfold State.memRead
  dsimp only
  split
  · exact State.hbmRead_keeps h
  · exact State.parFaults_keeps h
  · exact State.parFaults_keeps h
  · exact State.parFaults_keeps h
  · exact h

theorem State.violate_keeps {lk : Bool} {z s : State} {w : Issuer} {n : Option (BitVec 64)} (h : Keeps lk z s) :
    Keeps lk z (s.violate w n) := by
  cases w with
  | engine e => exact State.wire_keeps (keeps_mk h)
  | command c => exact keeps_mk h

theorem State.physRead_keeps {lk : Bool} {z s : State} {w : Issuer} {n : Option (BitVec 64)} {a len : Nat}
    (h : Keeps lk z s) : Keeps lk z (s.physRead w n a len).1 := by
  unfold State.physRead
  split
  · exact h
  · split
    · exact State.violate_keeps h
    · exact State.memRead_keeps h

theorem State.physWrite_keeps {lk : Bool} {z s : State} {w : Issuer} {n : Option (BitVec 64)} {a : Nat} {bs : Bytes}
    (h : Keeps lk z s) : Keeps lk z (s.physWrite w n a bs) := by
  unfold State.physWrite
  split
  · exact h
  · split
    · exact State.violate_keeps h
    · exact State.memWrite_keeps h

end Sys2Proof.Machine
end

