-- ==== Sys2Proof/Laws/KeepAccess.lean ====
section
/-! SUPPORT. The effects of Machine/Access.lean keep queue, fuses, canonical memories and locks. -/

namespace Sys2Proof.Machine

theorem State.setEng_keeps {lk : Bool} {z : State} {s : State} {e : EngRef} {v : EngSt}
    (hz : Keeps lk z s) : Keeps lk z (State.setEng s e v) := by
  unfold State.setEng
  try dsimp only
  repeat' first
    | with_reducible assumption
    | (refine keeps_parts ?_; dsimp only; with_reducible refine keeps_fold ?_)
    | split
    | dsimp only

theorem State.modStep_keeps {lk : Bool} {z : State} {s : State} {n : BitVec 64} {f : StepSt → StepSt}
    (hz : Keeps lk z s) : Keeps lk z (State.modStep s n f) := by
  unfold State.modStep
  try dsimp only
  repeat' first
    | with_reducible assumption
    | with_reducible apply State.modCtx_keeps
    | with_reducible refine State.modCtx_keeps ?_ ?_
    | exact fun _ _ k => k
    | (intro _ _ k; repeat' first | exact k | split)
    | (refine keeps_parts ?_; dsimp only; with_reducible refine keeps_fold ?_)
    | split
    | dsimp only

theorem State.strike_keeps {lk : Bool} {z s : State} {f : ParFlip} (hz : Keeps lk z s) : Keeps lk z (s.strike f) := by
  unfold State.strike
  dsimp only
  have h : Keeps lk z { s with mem := { s.mem with par := tmod false s.mem.par (s.parKey f.loc) (· != flipOdd f) } } :=
    keeps_mem hz (Memory.wf_step fun w => { w with par := canon_tset w.par })
  split
  · exact keeps_mem h (Memory.wf_step fun w => { w with spm := Store.wf_set w.spm })
  · exact keeps_mem h (Memory.wf_step fun w => { w with sram := Store.wf_set w.sram })
  · exact keeps_mem h (Memory.wf_step fun w => { w with market := canon_tset w.market })
  · exact keeps_mem h fun w => w
  · exact State.modCore_keeps h

theorem State.strikes_keeps {lk : Bool} {z : State} {s : State} {o : HwObs}
    (hz : Keeps lk z s) : Keeps lk z (State.strikes s o) := by
  unfold State.strikes
  try dsimp only
  repeat' first
    | with_reducible assumption
    | with_reducible apply State.strike_keeps
    | with_reducible refine keeps_foldl ?_ (fun _ _ _ => ?_)
    | with_reducible refine keeps_foldl_fst ?_ (fun _ _ _ => ?_)
    | (refine keeps_parts ?_; dsimp only; with_reducible refine keeps_fold ?_)
    | split
    | dsimp only

theorem State.observe_keeps {lk : Bool} {z : State} {s : State} {e : EngRef} {n : BitVec 64} {bad : List Nat} {residue : Bool}
    (hz : Keeps lk z s) : Keeps lk z (State.observe s e n bad residue) := by
  unfold State.observe
  try dsimp only
  repeat' first
    | with_reducible assumption
    | with_reducible first | apply State.parFaults_keeps | apply State.modCore_keeps | apply State.wire_keeps
    | (refine keeps_parts ?_; dsimp only; with_reducible refine keeps_fold ?_)
    | split
    | dsimp only

theorem State.modXs_keeps {lk : Bool} {z : State} {s : State} {u : Nat} {f : XsSt → XsSt}
    (hz : Keeps lk z s) : Keeps lk z (State.modXs s u f) := by
  unfold State.modXs
  try dsimp only
  repeat' first
    | with_reducible assumption
    | (refine keeps_parts ?_; dsimp only; with_reducible refine keeps_fold ?_)
    | split
    | dsimp only

theorem State.arrive_keeps {lk : Bool} {z : State} {s : State} {scope die core index : Nat} {n : BitVec 64} {inc : Nat}
    (hz : Keeps lk z s) : Keeps lk z (State.arrive s scope die core index n inc) := by
  unfold State.arrive
  try dsimp only
  repeat' first
    | with_reducible assumption
    | with_reducible first | apply State.modXs_keeps | apply State.wire_keeps
    | (refine keeps_parts ?_; dsimp only; with_reducible refine keeps_fold ?_)
    | split
    | dsimp only

end Sys2Proof.Machine
end

