-- ==== Sys2Proof/Laws/KeepArray.lean ====
section
/-! SUPPORT. The effects of Machine/Array.lean keep queue, fuses, canonical memories and locks. -/

namespace Sys2Proof.Machine

theorem State.clock_keeps {lk : Bool} {z : State} {s : State} {c : CoreRef} {rs : List CycleRun}
    (hz : Keeps lk z s) : Keeps lk z (State.clock s c rs) := by
  unfold State.clock
  try dsimp only
  repeat' first
    | with_reducible assumption
    | with_reducible apply State.modCore_keeps
    | with_reducible refine keeps_foldl ?_ (fun _ _ _ => ?_)
    | with_reducible refine keeps_foldl_fst ?_ (fun _ _ _ => ?_)
    | (refine keeps_parts ?_; dsimp only; with_reducible refine keeps_fold ?_)
    | split
    | dsimp only

theorem State.arrayFault_keeps {lk : Bool} {z : State} {s : State} {c : CoreRef} {n : BitVec 64} {detail : BitVec 64}
    (hz : Keeps lk z s) : Keeps lk z (State.arrayFault s c n detail) := by
  unfold State.arrayFault
  try dsimp only
  repeat' first
    | with_reducible assumption
    | with_reducible apply State.wire_keeps
    | (refine keeps_parts ?_; dsimp only; with_reducible refine keeps_fold ?_)
    | split
    | dsimp only

theorem applyPass_keeps {lk : Bool} {z : State} {s : State} {c : CoreRef} {p : PassSt}
    (hz : Keeps lk z s) : Keeps lk z (applyPass s c p) := by
  unfold applyPass
  try dsimp only
  repeat' first
    | with_reducible assumption
    | with_reducible first
        | apply State.spmWrite_keeps | apply State.modCore_keeps | apply State.bankWrote_keeps
        | apply State.setEng_keeps | apply State.observe_keeps | apply State.arrayFault_keeps
    | with_reducible refine keeps_foldl ?_ (fun _ _ _ => ?_)
    | with_reducible refine keeps_foldl_fst ?_ (fun _ _ _ => ?_)
    | with_reducible refine keeps_repeat _ ?_ (fun _ _ => ?_)
    | (refine keeps_parts ?_; dsimp only; with_reducible refine keeps_fold ?_)
    | split
    | dsimp only

theorem runPasses_keeps {lk : Bool} {z : State} {q0 : Nat} {q1 : State} {q2 : CoreRef}
    (hz : Keeps lk z q1) : Keeps lk z (runPasses q0 q1 q2) := by
  induction q0 generalizing q1 q2 with
  | zero =>
    unfold runPasses
    try dsimp only
    repeat' first
      | with_reducible assumption
      | with_reducible apply applyPass_keeps
      | split
      | dsimp only
      | (refine keeps_parts ?_; dsimp only; with_reducible refine keeps_fold ?_)
  | succ k ih =>
    unfold runPasses
    try dsimp only
    repeat' first
      | with_reducible assumption
      | with_reducible apply ih
      | with_reducible apply applyPass_keeps
      | split
      | dsimp only
      | (refine keeps_parts ?_; dsimp only; with_reducible refine keeps_fold ?_)

theorem runReady_keeps {lk : Bool} {z : State} {s : State} {c : CoreRef}
    (hz : Keeps lk z s) : Keeps lk z (runReady s c) := by
  unfold runReady
  try dsimp only
  repeat' first
    | with_reducible assumption
    | with_reducible apply runPasses_keeps
    | (refine keeps_parts ?_; dsimp only; with_reducible refine keeps_fold ?_)
    | split
    | dsimp only

end Sys2Proof.Machine
end

