-- ==== Sys2Proof/Laws/KeepNet.lean ====
section
/-! SUPPORT. The effects of Machine/Net.lean keep queue, fuses, canonical memories and locks. -/

namespace Sys2Proof.Machine

theorem State.modMember_keeps {lk : Bool} {z : State} {s : State} {m : Nat} {f : MemberSt → MemberSt}
    (hz : Keeps lk z s) : Keeps lk z (State.modMember s m f) := by
  unfold State.modMember
  try dsimp only
  repeat' first
    | with_reducible assumption
    | (refine keeps_parts ?_; dsimp only; with_reducible refine keeps_fold ?_)
    | split
    | dsimp only

theorem State.modStream_keeps {lk : Bool} {z : State} {s : State} {k : Nat} {f : StreamSt → StreamSt}
    (hz : Keeps lk z s) : Keeps lk z (State.modStream s k f) := by
  unfold State.modStream
  try dsimp only
  repeat' first
    | with_reducible assumption
    | (refine keeps_parts ?_; dsimp only; with_reducible refine keeps_fold ?_)
    | split
    | dsimp only

theorem State.enqueue_keeps {lk : Bool} {z : State} {s : State} {m vc : Nat} {t : TxMsg}
    (hz : Keeps lk z s) : Keeps lk z (State.enqueue s m vc t) := by
  unfold State.enqueue
  try dsimp only
  repeat' first
    | with_reducible assumption
    | with_reducible apply State.modMember_keeps
    | (refine keeps_parts ?_; dsimp only; with_reducible refine keeps_fold ?_)
    | split
    | dsimp only

theorem State.takeSeq_keeps {lk : Bool} {z : State} {s : State} {k : Nat}
    (hz : Keeps lk z s) : Keeps lk z (State.takeSeq s k).1 := by
  unfold State.takeSeq
  try dsimp only
  repeat' first
    | with_reducible assumption
    | with_reducible apply State.modStream_keeps
    | (refine keeps_parts ?_; dsimp only; with_reducible refine keeps_fold ?_)
    | split
    | dsimp only

theorem State.formMsg_keeps {lk : Bool} {z : State} {s : State} {c : Nat} {x : CtxSt} {cfg : JobCfg} {g vc cls phase : Nat} {dst : Vec3} {payload : Bytes}
    (hz : Keeps lk z s) : Keeps lk z (State.formMsg s c x cfg g vc cls phase dst payload).1 := by
  unfold State.formMsg
  try dsimp only
  repeat' first
    | with_reducible assumption
    | with_reducible apply State.takeSeq_keeps
    | (refine keeps_parts ?_; dsimp only; with_reducible refine keeps_fold ?_)
    | split
    | dsimp only

theorem State.sendOn_keeps {lk : Bool} {z : State} {s : State} {g vc cls phase : Nat} {dst : Vec3} {payload : Bytes}
    (hz : Keeps lk z s) : Keeps lk z (State.sendOn s g vc cls phase dst payload) := by
  unfold State.sendOn
  try dsimp only
  repeat' first
    | with_reducible assumption
    | with_reducible first | apply State.formMsg_keeps | apply State.enqueue_keeps
    | (refine keeps_parts ?_; dsimp only; with_reducible refine keeps_fold ?_)
    | split
    | dsimp only

theorem State.sendOnward_keeps {lk : Bool} {z : State} {s : State} {g vc : Nat} {detour : Bool} {t : TxMsg}
    (hz : Keeps lk z s) : Keeps lk z (State.sendOnward s g vc detour t) := by
  unfold State.sendOnward
  try dsimp only
  repeat' first
    | with_reducible assumption
    | with_reducible first | apply State.takeSeq_keeps | apply State.enqueue_keeps
    | (refine keeps_parts ?_; dsimp only; with_reducible refine keeps_fold ?_)
    | split
    | dsimp only

theorem State.sendTo_keeps {lk : Bool} {z : State} {s : State} {vc cls phase : Nat} {dst : Vec3} {payload : Bytes}
    (hz : Keeps lk z s) : Keeps lk z (State.sendTo s vc cls phase dst payload) := by
  unfold State.sendTo
  try dsimp only
  repeat' first
    | with_reducible assumption
    | with_reducible apply State.sendOn_keeps
    | (refine keeps_parts ?_; dsimp only; with_reducible refine keeps_fold ?_)
    | split
    | dsimp only

theorem State.sendAll_keeps {lk : Bool} {z : State} {s : State} {cls : Nat} {payload : Bytes}
    (hz : Keeps lk z s) : Keeps lk z (State.sendAll s cls payload) := by
  unfold State.sendAll
  try dsimp only
  repeat' first
    | with_reducible assumption
    | with_reducible apply State.sendTo_keeps
    | with_reducible refine keeps_foldl ?_ (fun _ _ _ => ?_)
    | with_reducible refine keeps_foldl_fst ?_ (fun _ _ _ => ?_)
    | (refine keeps_parts ?_; dsimp only; with_reducible refine keeps_fold ?_)
    | split
    | dsimp only

theorem State.consume_keeps {lk : Bool} {z : State} {s : State} {p : RxMsg → Bool}
    (hz : Keeps lk z s) : Keeps lk z (State.consume s p) := by
  unfold State.consume
  try dsimp only
  repeat' first
    | with_reducible assumption
    | (refine keeps_parts ?_; dsimp only; with_reducible refine keeps_fold ?_)
    | split
    | dsimp only

theorem State.modMkt_keeps {lk : Bool} {z : State} {s : State} {io : Nat} {f : MktSt → MktSt}
    (hz : Keeps lk z s) : Keeps lk z (State.modMkt s io f) := by
  unfold State.modMkt
  try dsimp only
  repeat' first
    | with_reducible assumption
    | (refine keeps_parts ?_; dsimp only; with_reducible refine keeps_fold ?_)
    | split
    | dsimp only

theorem State.grant_keeps {lk : Bool} {z : State} {s : State} {m vc cls n : Nat}
    (hz : Keeps lk z s) : Keeps lk z (State.grant s m vc cls n) := by
  unfold State.grant
  try dsimp only
  repeat' first
    | with_reducible assumption
    | with_reducible apply State.modMember_keeps
    | (refine keeps_parts ?_; dsimp only; with_reducible refine keeps_fold ?_)
    | split
    | dsimp only

theorem State.freeBuffer_keeps {lk : Bool} {z : State} {s : State} {io j vc b : Nat}
    (hz : Keeps lk z s) : Keeps lk z (State.freeBuffer s io j vc b) := by
  unfold State.freeBuffer
  try dsimp only
  repeat' first
    | with_reducible assumption
    | with_reducible first | apply State.modMkt_keeps | apply State.grant_keeps
    | (refine keeps_parts ?_; dsimp only; with_reducible refine keeps_fold ?_)
    | split
    | dsimp only

theorem State.freeOf_keeps {lk : Bool} {z : State} {s : State} {link vc : Nat} {buf : Option Nat}
    (hz : Keeps lk z s) : Keeps lk z (State.freeOf s link vc buf) := by
  unfold State.freeOf
  try dsimp only
  repeat' first
    | with_reducible assumption
    | with_reducible apply State.freeBuffer_keeps
    | (refine keeps_parts ?_; dsimp only; with_reducible refine keeps_fold ?_)
    | split
    | dsimp only

theorem State.clearStreams_keeps {lk : Bool} {z : State} {s : State} {c : Nat}
    (hz : Keeps lk z s) : Keeps lk z (State.clearStreams s c) := by
  unfold State.clearStreams
  try dsimp only
  repeat' first
    | with_reducible assumption
    | with_reducible apply State.freeOf_keeps
    | with_reducible refine keeps_foldl ?_ (fun _ _ _ => ?_)
    | with_reducible refine keeps_foldl_fst ?_ (fun _ _ _ => ?_)
    | (refine keeps_parts ?_; dsimp only; with_reducible refine keeps_fold ?_)
    | split
    | dsimp only

theorem State.grantAll_keeps {lk : Bool} {z : State} {s : State} {m : Nat} {cls0 : Bool}
    (hz : Keeps lk z s) : Keeps lk z (State.grantAll s m cls0) := by
  unfold State.grantAll
  try dsimp only
  repeat' first
    | with_reducible assumption
    | with_reducible apply State.modMember_keeps
    | with_reducible refine keeps_foldl ?_ (fun _ _ _ => ?_)
    | with_reducible refine keeps_foldl_fst ?_ (fun _ _ _ => ?_)
    | (refine keeps_parts ?_; dsimp only; with_reducible refine keeps_fold ?_)
    | split
    | dsimp only

end Sys2Proof.Machine
end

