-- ==== Sys2Proof/Laws/KeepRequest.lean ====
section
/-! SUPPORT. The effects of Machine/Request.lean keep queue, fuses, canonical memories and locks. -/

namespace Sys2Proof.Machine

theorem State.doReq_keeps {lk : Bool} {z s : State} {k : Nat} {r : HbmReq} (hz : Keeps lk z s) :
    Keeps lk z (s.doReq k r) := by
  unfold State.doReq
  dsimp only
  have h : Keeps lk z { s with mem := corrupt s.mem (r.addr.toNat / 64) r.err } := keeps_mem hz corrupt_wf
  split
  · exact State.hbmWrite_keeps h
  · exact State.modStack_keeps (State.hbmRead_keeps h)

theorem State.perform_keeps {lk : Bool} {z : State} {s : State} {k : Nat} {qs : List QueuedReq}
    (hz : Keeps lk z s) : Keeps lk z (State.perform s k qs) := by
  unfold State.perform
  try dsimp only
  repeat' first
    | with_reducible assumption
    | with_reducible apply State.doReq_keeps
    | with_reducible refine keeps_foldl ?_ (fun _ _ _ => ?_)
    | with_reducible refine keeps_foldl_fst ?_ (fun _ _ _ => ?_)
    | (refine keeps_parts ?_; dsimp only; with_reducible refine keeps_fold ?_)
    | split
    | dsimp only

theorem State.takeReq_keeps {lk : Bool} {z : State} {s : State} {k : Nat} {q : QueuedReq}
    (hz : Keeps lk z s) : Keeps lk z (State.takeReq s k q) := by
  unfold State.takeReq
  try dsimp only
  repeat' first
    | with_reducible assumption
    | with_reducible first | apply State.modStack_keeps | apply State.perform_keeps | apply State.doReq_keeps
    | (refine keeps_parts ?_; dsimp only; with_reducible refine keeps_fold ?_)
    | split
    | dsimp only

theorem State.refill_keeps {lk : Bool} {z : State} {s : State} {k : Nat}
    (hz : Keeps lk z s) : Keeps lk z (State.refill s k) := by
  unfold State.refill
  try dsimp only
  repeat' first
    | with_reducible assumption
    | with_reducible first | apply State.takeReq_keeps | apply State.modStack_keeps
    | with_reducible refine keeps_foldl ?_ (fun _ _ _ => ?_)
    | with_reducible refine keeps_foldl_fst ?_ (fun _ _ _ => ?_)
    | (refine keeps_parts ?_; dsimp only; with_reducible refine keeps_fold ?_)
    | split
    | dsimp only

theorem State.drainReqs_keeps {lk : Bool} {z : State} {s : State} {k : Nat}
    (hz : Keeps lk z s) : Keeps lk z (State.drainReqs s k) := by
  unfold State.drainReqs
  try dsimp only
  repeat' first
    | with_reducible assumption
    | with_reducible first | apply State.modStack_keeps | apply State.perform_keeps
    | (refine keeps_parts ?_; dsimp only; with_reducible refine keeps_fold ?_)
    | split
    | dsimp only

theorem State.ageReq_keeps {lk : Bool} {z : State} {s : State} {k : Nat}
    (hz : Keeps lk z s) : Keeps lk z (State.ageReq s k) := by
  unfold State.ageReq
  try dsimp only
  repeat' first
    | with_reducible assumption
    | with_reducible first | apply State.modStack_keeps | apply State.doReq_keeps | apply State.refill_keeps
    | (refine keeps_parts ?_; dsimp only; with_reducible refine keeps_fold ?_)
    | split
    | dsimp only

theorem State.resumeReqs_keeps {lk : Bool} {z : State} {s : State} {k : Nat}
    (hz : Keeps lk z s) : Keeps lk z (State.resumeReqs s k) := by
  unfold State.resumeReqs
  try dsimp only
  repeat' first
    | with_reducible assumption
    | with_reducible first | apply State.takeReq_keeps | apply State.modStack_keeps | apply State.refill_keeps
    | with_reducible refine keeps_foldl ?_ (fun _ _ _ => ?_)
    | with_reducible refine keeps_foldl_fst ?_ (fun _ _ _ => ?_)
    | (refine keeps_parts ?_; dsimp only; with_reducible refine keeps_fold ?_)
    | split
    | dsimp only

theorem State.settleEngine_keeps {lk : Bool} {z : State} {s : State} {who : Issuer}
    (hz : Keeps lk z s) : Keeps lk z (State.settleEngine s who) := by
  unfold State.settleEngine
  try dsimp only
  repeat' first
    | with_reducible assumption
    | with_reducible first | apply State.drainReqs_keeps | apply State.refill_keeps
    | with_reducible refine keeps_foldl ?_ (fun _ _ _ => ?_)
    | with_reducible refine keeps_foldl_fst ?_ (fun _ _ _ => ?_)
    | (refine keeps_parts ?_; dsimp only; with_reducible refine keeps_fold ?_)
    | split
    | dsimp only

end Sys2Proof.Machine
end

