-- ==== Sys2Proof/Laws/KeepVector.lean ====
section
/-! SUPPORT. The effects of Machine/Vector.lean keep queue, fuses, canonical memories and locks. -/

namespace Sys2Proof.Machine

theorem writeLanes_keeps {lk : Bool} {z : State} {s : State} {c : CoreRef} {vd : BitVec 6} {xs : List LaneOut}
    (hz : Keeps lk z s) : Keeps lk z (writeLanes s c vd xs).1 := by
  unfold writeLanes
  try dsimp only
  repeat' first
    | with_reducible assumption
    | with_reducible apply State.vregWrite_keeps
    | (refine keeps_parts ?_; dsimp only; with_reducible refine keeps_fold ?_)
    | split
    | dsimp only

theorem writeRows_keeps {lk : Bool} {z : State} {s : State} {c : CoreRef} {fmt : BitVec 16} {line sbyte width : Nat} {rows : List (List Nat × List Nat × BitVec 4)}
    (hz : Keeps lk z s) : Keeps lk z (writeRows s c fmt line sbyte width rows) := by
  unfold writeRows
  try dsimp only
  repeat' first
    | with_reducible assumption
    | with_reducible apply State.spmWrite_keeps
    | with_reducible refine keeps_foldl ?_ (fun _ _ _ => ?_)
    | with_reducible refine keeps_foldl_fst ?_ (fun _ _ _ => ?_)
    | (refine keeps_parts ?_; dsimp only; with_reducible refine keeps_fold ?_)
    | split
    | dsimp only

end Sys2Proof.Machine
end

