-- ==== Sys2Proof/Laws/KeepMove.lean ====
section
/-! SUPPORT. The effects of Machine/Move.lean keep queue, fuses, canonical memories and locks. -/

namespace Sys2Proof.Machine

theorem runCopy_keeps {lk : Bool} {z : State} {s : State} {c : CoreRef} {m : MeDescSt}
    (hz : Keeps lk z s) : Keeps lk z (runCopy s c m).1 := by
  unfold runCopy
  try dsimp only
  repeat' first
    | with_reducible assumption
    | with_reducible first | apply State.physRead_keeps | apply State.physWrite_keeps
    | with_reducible refine keeps_foldl ?_ (fun _ _ _ => ?_)
    | with_reducible refine keeps_foldl_fst ?_ (fun _ _ _ => ?_)
    | (refine keeps_parts ?_; dsimp only; with_reducible refine keeps_fold ?_)
    | split
    | dsimp only

theorem runGather_keeps {lk : Bool} {z : State} {s : State} {c : CoreRef} {m : MeDescSt}
    (hz : Keeps lk z s) : Keeps lk z (runGather s c m).1 := by
  unfold runGather
  try dsimp only
  repeat' first
    | with_reducible assumption
    | with_reducible first | apply State.physRead_keeps | apply State.physWrite_keeps
    | with_reducible refine keeps_foldl ?_ (fun _ _ _ => ?_)
    | with_reducible refine keeps_foldl_fst ?_ (fun _ _ _ => ?_)
    | (refine keeps_parts ?_; dsimp only; with_reducible refine keeps_fold ?_)
    | split
    | dsimp only

theorem readFrames_keeps {lk : Bool} {z : State} {s : State} {who : Issuer} {n : Option (BitVec 64)} {q0 : Nat} {q1 : Nat}
    (hz : Keeps lk z s) : Keeps lk z (readFrames s who n q0 q1).1 := by
  induction q0 generalizing s q1 with
  | zero =>
    unfold readFrames
    try dsimp only
    repeat' first
      | with_reducible assumption
      | with_reducible apply State.physRead_keeps
      | split
      | dsimp only
      | (refine keeps_parts ?_; dsimp only; with_reducible refine keeps_fold ?_)
  | succ k ih =>
    unfold readFrames
    try dsimp only
    repeat' first
      | with_reducible assumption
      | with_reducible apply ih
      | with_reducible apply State.physRead_keeps
      | split
      | dsimp only
      | (refine keeps_parts ?_; dsimp only; with_reducible refine keeps_fold ?_)

theorem runXpEnc_keeps {lk : Bool} {z : State} {s : State} {c : CoreRef} {m : MeDescSt}
    (hz : Keeps lk z s) : Keeps lk z (runXpEnc s c m) := by
  unfold runXpEnc
  try dsimp only
  repeat' first
    | with_reducible assumption
    | with_reducible first | apply State.physRead_keeps | apply State.physWrite_keeps
    | with_reducible refine keeps_foldl ?_ (fun _ _ _ => ?_)
    | with_reducible refine keeps_foldl_fst ?_ (fun _ _ _ => ?_)
    | (refine keeps_parts ?_; dsimp only; with_reducible refine keeps_fold ?_)
    | split
    | dsimp only

theorem runXpDec_keeps {lk : Bool} {z : State} {s : State} {c : CoreRef} {m : MeDescSt}
    (hz : Keeps lk z s) : Keeps lk z (runXpDec s c m).1 := by
  unfold runXpDec
  try dsimp only
  repeat' first
    | with_reducible assumption
    | with_reducible first | apply State.physRead_keeps | apply readFrames_keeps | apply State.physWrite_keeps
    | with_reducible refine keeps_foldl ?_ (fun _ _ _ => ?_)
    | with_reducible refine keeps_foldl_fst ?_ (fun _ _ _ => ?_)
    | (refine keeps_parts ?_; dsimp only; with_reducible refine keeps_fold ?_)
    | split
    | dsimp only

theorem finishDesc_keeps {lk : Bool} {z : State} {s : State} {c : CoreRef} {i : Nat} {m : MeDescSt} {f : BitVec 4} {residue : Bool}
    (hz : Keeps lk z s) : Keeps lk z (finishDesc s c i m f residue) := by
  unfold finishDesc
  try dsimp only
  repeat' first
    | with_reducible assumption
    | with_reducible first | apply State.modCore_keeps | apply State.setEng_keeps | apply State.observe_keeps
    | (refine keeps_parts ?_; dsimp only; with_reducible refine keeps_fold ?_)
    | split
    | dsimp only

end Sys2Proof.Machine
end

