-- ==== Sys2Proof/Laws/KeepUpdate.lean ====
section
/-! SUPPORT. The effects of Machine/Update.lean keep queue, fuses, canonical memories and locks. -/

namespace Sys2Proof.Machine

theorem State.modUe_keeps {lk : Bool} {z : State} {s : State} {die : Nat} {f : UeSt → UeSt}
    (hz : Keeps lk z s) : Keeps lk z (State.modUe s die f) := by
  unfold State.modUe
  try dsimp only
  repeat' first
    | with_reducible assumption
    | (refine keeps_parts ?_; dsimp only; with_reducible refine keeps_fold ?_)
    | split
    | dsimp only

theorem State.modCx_keeps {lk : Bool} {z : State} {s : State} {die : Nat} {f : CxSt → CxSt}
    (hz : Keeps lk z s) : Keeps lk z (State.modCx s die f) := by
  unfold State.modCx
  try dsimp only
  repeat' first
    | with_reducible assumption
    | (refine keeps_parts ?_; dsimp only; with_reducible refine keeps_fold ?_)
    | split
    | dsimp only

theorem State.journal_keeps {lk : Bool} {z : State} {s : State} {o : OptCfg} {die : Nat} {cx : Bool} {kind : Nat} {step : BitVec 64} {addr len : Nat}
    (hz : Keeps lk z s) : Keeps lk z (State.journal s o die cx kind step addr len) := by
  unfold State.journal
  try dsimp only
  repeat' first
    | with_reducible assumption
    | with_reducible first | apply State.physRead_keeps | apply State.physWrite_keeps | apply State.modUe_keeps
    | (refine keeps_parts ?_; dsimp only; with_reducible refine keeps_fold ?_)
    | split
    | dsimp only

theorem State.restoreGo_keeps {lk : Bool} {z : State} {s : State} {die : Nat} {q0 : List JrnlRec}
    (hz : Keeps lk z s) : Keeps lk z (State.restoreGo s die q0).1 := by
  induction q0 generalizing s with
  | nil =>
    unfold State.restoreGo
    try dsimp only
    repeat' first
      | with_reducible assumption
      | with_reducible apply State.hbmLines_keeps
      | with_reducible apply State.physWrite_keeps
      | with_reducible apply State.modUe_keeps
      | with_reducible apply State.wire_keeps
      | split
      | dsimp only
      | (refine keeps_parts ?_; dsimp only; with_reducible refine keeps_fold ?_)
  | cons x r ih =>
    unfold State.restoreGo
    try dsimp only
    repeat' first
      | with_reducible assumption
      | with_reducible apply ih
      | with_reducible apply State.hbmLines_keeps
      | with_reducible apply State.physWrite_keeps
      | with_reducible apply State.modUe_keeps
      | with_reducible apply State.wire_keeps
      | split
      | dsimp only
      | (refine keeps_parts ?_; dsimp only; with_reducible refine keeps_fold ?_)

theorem State.restoreDie_keeps {lk : Bool} {z : State} {s : State} {die : Nat} {all : Bool}
    (hz : Keeps lk z s) : Keeps lk z (State.restoreDie s die all).1 := by
  unfold State.restoreDie
  try dsimp only
  repeat' first
    | with_reducible assumption
    | with_reducible first | apply State.restoreGo_keeps | apply State.modUe_keeps
    | (refine keeps_parts ?_; dsimp only; with_reducible refine keeps_fold ?_)
    | split
    | dsimp only

theorem State.restoreAll_keeps {lk : Bool} {z : State} {s : State} {all : Bool}
    (hz : Keeps lk z s) : Keeps lk z (State.restoreAll s all).1 := by
  unfold State.restoreAll
  try dsimp only
  repeat' first
    | with_reducible assumption
    | with_reducible apply State.restoreDie_keeps
    | with_reducible refine keeps_foldl ?_ (fun _ _ _ => ?_)
    | with_reducible refine keeps_foldl_fst ?_ (fun _ _ _ => ?_)
    | (refine keeps_parts ?_; dsimp only; with_reducible refine keeps_fold ?_)
    | split
    | dsimp only

theorem State.dropJournal_keeps {lk : Bool} {z : State} {s : State}
    (hz : Keeps lk z s) : Keeps lk z (State.dropJournal s) := by
  unfold State.dropJournal
  try dsimp only
  repeat' first
    | with_reducible assumption
    | (refine keeps_parts ?_; dsimp only; with_reducible refine keeps_fold ?_)
    | split
    | dsimp only

theorem State.runChunk_keeps {lk : Bool} {z : State} {s : State} {im : Img} {cfg : JobCfg} {die : Nat} {st : StepSt} {d : UpdDesc} {base : BitVec 64} {p n : Nat}
    (hz : Keeps lk z s) : Keeps lk z (State.runChunk s im cfg die st d base p n).1 := by
  unfold State.runChunk
  try dsimp only
  repeat' first
    | with_reducible assumption
    | with_reducible first
        | apply State.journal_keeps | apply State.physRead_keeps | apply State.physWrite_keeps
        | apply State.modUe_keeps | apply State.wire_keeps
    | with_reducible refine keeps_foldl ?_ (fun _ _ _ => ?_)
    | with_reducible refine keeps_foldl_fst ?_ (fun _ _ _ => ?_)
    | (refine keeps_parts ?_; dsimp only; with_reducible refine keeps_fold ?_)
    | split
    | dsimp only

theorem State.pumpGo_keeps {lk : Bool} {z : State} {s : State} {im : Img} {cfg : JobCfg} {die : Nat} {st : StepSt} {d : UpdDesc} {base : BitVec 64} {q0 : List (Nat × Nat)}
    (hz : Keeps lk z s) : Keeps lk z (State.pumpGo s im cfg die st d base q0) := by
  induction q0 generalizing s with
  | nil =>
    unfold State.pumpGo
    try dsimp only
    repeat' first
      | with_reducible assumption
      | with_reducible apply State.modUe_keeps
      | with_reducible apply State.setEng_keeps
      | with_reducible apply State.runChunk_keeps
      | split
      | dsimp only
      | (refine keeps_parts ?_; dsimp only; with_reducible refine keeps_fold ?_)
  | cons x r ih =>
    unfold State.pumpGo
    try dsimp only
    repeat' first
      | with_reducible assumption
      | with_reducible apply ih
      | with_reducible apply State.modUe_keeps
      | with_reducible apply State.setEng_keeps
      | with_reducible apply State.runChunk_keeps
      | split
      | dsimp only
      | (refine keeps_parts ?_; dsimp only; with_reducible refine keeps_fold ?_)


theorem State.pumpUe_keeps {lk : Bool} {z : State} {s : State} {die : Nat} {st : StepSt}
    (hz : Keeps lk z s) : Keeps lk z (State.pumpUe s die st) := by
  unfold State.pumpUe
  try dsimp only
  repeat' first
    | with_reducible assumption
    | with_reducible first | apply State.physRead_keeps | apply State.pumpGo_keeps
    | (refine keeps_parts ?_; dsimp only; with_reducible refine keeps_fold ?_)
    | split
    | dsimp only

theorem State.pumpDie_keeps {lk : Bool} {z : State} {s : State} {die : Nat}
    (hz : Keeps lk z s) : Keeps lk z (State.pumpDie s die) := by
  unfold State.pumpDie
  try dsimp only
  repeat' first
    | with_reducible assumption
    | with_reducible apply State.pumpUe_keeps
    | (refine keeps_parts ?_; dsimp only; with_reducible refine keeps_fold ?_)
    | split
    | dsimp only

theorem State.shardDigest_keeps {lk : Bool} {z : State} {s : State} {n : Option (BitVec 64)} {cfg : JobCfg} {die : Nat}
    (hz : Keeps lk z s) : Keeps lk z (State.shardDigest s n cfg die).1 := by
  unfold State.shardDigest
  try dsimp only
  repeat' first
    | with_reducible assumption
    | with_reducible apply State.hbmRead_keeps
    | with_reducible refine keeps_foldl ?_ (fun _ _ _ => ?_)
    | with_reducible refine keeps_foldl_fst ?_ (fun _ _ _ => ?_)
    | (refine keeps_parts ?_; dsimp only; with_reducible refine keeps_fold ?_)
    | split
    | dsimp only

end Sys2Proof.Machine
end

