-- ==== Sys2Proof/Laws/KeepInside.lean ====
section
/-! SUPPORT. The effects of Machine/Inside.lean keep queue, fuses, canonical memories and locks. -/

namespace Sys2Proof.Machine

theorem State.innerOut_keeps {lk : Bool} {z : State} {s : State} {vc u : Nat} {h : InnerHdr} {payload : Bytes} {par : List Nat}
    (hz : Keeps lk z s) : Keeps lk z (State.innerOut s vc u h payload par) := by
  unfold State.innerOut
  try dsimp only
  repeat' first
    | with_reducible assumption
    | with_reducible apply State.enqueue_keeps
    | (refine keeps_parts ?_; dsimp only; with_reducible refine keeps_fold ?_)
    | split
    | dsimp only

theorem State.innerSend_keeps {lk : Bool} {z : State} {s : State} {vc u v key : Nat} {bs : Bytes}
    (hz : Keeps lk z s) : Keeps lk z (State.innerSend s vc u v key bs) := by
  unfold State.innerSend
  try dsimp only
  repeat' first
    | with_reducible assumption
    | with_reducible apply State.innerOut_keeps
    | with_reducible refine keeps_foldl ?_ (fun _ _ _ => ?_)
    | with_reducible refine keeps_foldl_fst ?_ (fun _ _ _ => ?_)
    | (refine keeps_parts ?_; dsimp only; with_reducible refine keeps_fold ?_)
    | split
    | dsimp only

theorem State.innerIn_keeps {lk : Bool} {z : State} {s : State} {m vc : Nat} {hdr : BitVec 128} {payload : Bytes} {par : List Nat}
    (hz : Keeps lk z s) : Keeps lk z (State.innerIn s m vc hdr payload par) := by
  unfold State.innerIn
  try dsimp only
  repeat' first
    | with_reducible assumption
    | with_reducible first | apply State.innerOut_keeps | apply State.modCx_keeps | apply State.wire_keeps
    | (refine keeps_parts ?_; dsimp only; with_reducible refine keeps_fold ?_)
    | split
    | dsimp only

theorem State.dropInner_keeps {lk : Bool} {z : State} {s : State}
    (hz : Keeps lk z s) : Keeps lk z (State.dropInner s) := by
  unfold State.dropInner
  try dsimp only
  repeat' first
    | with_reducible assumption
    | (refine keeps_parts ?_; dsimp only; with_reducible refine keeps_fold ?_)
    | split
    | dsimp only

end Sys2Proof.Machine
end

