-- ==== Sys2Proof/Laws/KeepRing.lean ====
section
/-! SUPPORT. The effects of Machine/Ring.lean keep queue, fuses, canonical memories and locks. -/

namespace Sys2Proof.Machine

theorem State.modRing_keeps {lk : Bool} {z : State} {s : State} {r : Nat} {f : RingSt → RingSt}
    (hz : Keeps lk z s) : Keeps lk z (State.modRing s r f) := by
  unfold State.modRing
  try dsimp only
  repeat' first
    | with_reducible assumption
    | (refine keeps_parts ?_; dsimp only; with_reducible refine keeps_fold ?_)
    | split
    | dsimp only

theorem State.raise_keeps {lk : Bool} {z : State} {s : State} {i : Nat}
    (hz : Keeps lk z s) : Keeps lk z (State.raise s i) := by
  unfold State.raise
  try dsimp only
  repeat' first
    | with_reducible assumption
    | (refine keeps_parts ?_; dsimp only; with_reducible refine keeps_fold ?_)
    | split
    | dsimp only

theorem State.writeEntry_keeps {lk : Bool} {z : State} {s : State} {r : Nat} {w : WaitEnt}
    (hz : Keeps lk z s) : Keeps lk z (State.writeEntry s r w) := by
  unfold State.writeEntry
  try dsimp only
  repeat' first
    | with_reducible assumption
    | with_reducible first | apply State.modRing_keeps | apply State.hostWrite_keeps | apply State.raise_keeps
    | (refine keeps_parts ?_; dsimp only; with_reducible refine keeps_fold ?_)
    | split
    | dsimp only

theorem State.putEntry_keeps {lk : Bool} {z : State} {s : State} {r : Nat} {w : WaitEnt}
    (hz : Keeps lk z s) : Keeps lk z (State.putEntry s r w) := by
  unfold State.putEntry
  try dsimp only
  repeat' first
    | with_reducible assumption
    | with_reducible first | apply State.modRing_keeps | apply State.writeEntry_keeps
    | (refine keeps_parts ?_; dsimp only; with_reducible refine keeps_fold ?_)
    | split
    | dsimp only

theorem State.drainWait_keeps {lk : Bool} {z : State} {s : State} {r : Nat} {q0 : Nat}
    (hz : Keeps lk z s) : Keeps lk z (State.drainWait s r q0) := by
  induction q0 generalizing s with
  | zero =>
    unfold State.drainWait
    try dsimp only
    repeat' first
      | with_reducible assumption
      | with_reducible apply State.modRing_keeps
      | with_reducible apply State.writeEntry_keeps
      | split
      | dsimp only
      | (refine keeps_parts ?_; dsimp only; with_reducible refine keeps_fold ?_)
  | succ k ih =>
    unfold State.drainWait
    try dsimp only
    repeat' first
      | with_reducible assumption
      | with_reducible apply ih
      | with_reducible apply State.modRing_keeps
      | with_reducible apply State.writeEntry_keeps
      | split
      | dsimp only
      | (refine keeps_parts ?_; dsimp only; with_reducible refine keeps_fold ?_)

theorem State.reply_keeps {lk : Bool} {z : State} {s : State} {r : Nat} {pkt : BitVec 512} {status detail outLen : Nat}
    (hz : Keeps lk z s) : Keeps lk z (State.reply s r pkt status detail outLen) := by
  unfold State.reply
  try dsimp only
  repeat' first
    | with_reducible assumption
    | with_reducible first | apply State.modRing_keeps | apply State.putEntry_keeps
    | (refine keeps_parts ?_; dsimp only; with_reducible refine keeps_fold ?_)
    | split
    | dsimp only

theorem State.event_keeps {lk : Bool} {z : State} {s : State} {c code detail : Nat}
    (hz : Keeps lk z s) : Keeps lk z (State.event s c code detail) := by
  unfold State.event
  try dsimp only
  repeat' first
    | with_reducible assumption
    | with_reducible apply State.putEntry_keeps
    | (refine keeps_parts ?_; dsimp only; with_reducible refine keeps_fold ?_)
    | split
    | dsimp only

end Sys2Proof.Machine
end

