-- ==== Sys2Proof/Laws/KeepRegs.lean ====
section
/-! SUPPORT. The effects of Machine/Regs.lean keep queue, fuses, canonical memories and locks. -/

namespace Sys2Proof.Machine

theorem State.modBlock_keeps {lk : Bool} {z : State} {s : State} {d c : Nat} {f : CoreSt → CoreSt}
    (hz : Keeps lk z s) : Keeps lk z (State.modBlock s d c f) := by
  unfold State.modBlock
  try dsimp only
  repeat' first
    | with_reducible assumption
    | (refine keeps_parts ?_; dsimp only; with_reducible refine keeps_fold ?_)
    | split
    | dsimp only

theorem State.regClear_keeps {lk : Bool} {z : State} {s : State} {r : Reg} {lo hi : Bool}
    (hz : Keeps lk z s) : Keeps lk z (State.regClear s r lo hi) := by
  unfold State.regClear
  try dsimp only
  repeat' first
    | with_reducible assumption
    | with_reducible first
        | apply State.modStack_keeps | apply State.modXs_keeps | apply State.modCx_keeps | apply State.modUe_keeps
        | apply State.modBlock_keeps | apply State.modRing_keeps | apply State.modMember_keeps
        | apply State.modMkt_keeps
    | (refine keeps_parts ?_; dsimp only; with_reducible refine keeps_fold ?_)
    | split
    | dsimp only

end Sys2Proof.Machine
end

