-- ==== Sys2Proof/Laws/KeepLinkOps.lean ====
section
/-! SUPPORT. The effects of Machine/LinkOps.lean keep queue, fuses, canonical memories and locks. -/

namespace Sys2Proof.Machine

theorem State.dropParts_keeps {lk : Bool} {z : State} {s : State} {m : Nat}
    (hz : Keeps lk z s) : Keeps lk z (State.dropParts s m) := by
  unfold State.dropParts
  try dsimp only
  repeat' first
    | with_reducible assumption
    | with_reducible first | apply State.freeOf_keeps | apply State.modMember_keeps
    | with_reducible refine keeps_foldl ?_ (fun _ _ _ => ?_)
    | with_reducible refine keeps_foldl_fst ?_ (fun _ _ _ => ?_)
    | (refine keeps_parts ?_; dsimp only; with_reducible refine keeps_fold ?_)
    | split
    | dsimp only

theorem State.handTo_keeps {lk : Bool} {z : State} {s : State} {m vc : Nat} {ts : List TxMsg}
    (hz : Keeps lk z s) : Keeps lk z (State.handTo s m vc ts) := by
  unfold State.handTo
  try dsimp only
  repeat' first
    | with_reducible assumption
    | with_reducible apply State.modMember_keeps
    | (refine keeps_parts ?_; dsimp only; with_reducible refine keeps_fold ?_)
    | split
    | dsimp only

theorem State.resend_keeps {lk : Bool} {z : State} {s : State} {vc : Nat} {t : TxMsg}
    (hz : Keeps lk z s) : Keeps lk z (State.resend s vc t) := by
  unfold State.resend
  try dsimp only
  repeat' first
    | with_reducible assumption
    | with_reducible apply State.sendOnward_keeps
    | (refine keeps_parts ?_; dsimp only; with_reducible refine keeps_fold ?_)
    | split
    | dsimp only

theorem State.refreshGroups_keeps {lk : Bool} {z : State} {s : State}
    (hz : Keeps lk z s) : Keeps lk z (State.refreshGroups s) := by
  unfold State.refreshGroups
  try dsimp only
  repeat' first
    | with_reducible assumption
    | with_reducible apply State.wire_keeps
    | with_reducible refine keeps_foldl ?_ (fun _ _ _ => ?_)
    | with_reducible refine keeps_foldl_fst ?_ (fun _ _ _ => ?_)
    | (refine keeps_parts ?_; dsimp only; with_reducible refine keeps_fold ?_)
    | split
    | dsimp only

theorem State.loseParent_keeps {lk : Bool} {z : State} {s : State} {m : Nat}
    (hz : Keeps lk z s) : Keeps lk z (State.loseParent s m) := by
  unfold State.loseParent
  try dsimp only
  repeat' first
    | with_reducible assumption
    | (refine keeps_parts ?_; dsimp only; with_reducible refine keeps_fold ?_)
    | split
    | dsimp only

theorem State.dieLinkDown_keeps {lk : Bool} {z : State} {s : State} {m : Nat}
    (hz : Keeps lk z s) : Keeps lk z (State.dieLinkDown s m) := by
  unfold State.dieLinkDown
  try dsimp only
  repeat' first
    | with_reducible assumption
    | with_reducible first | apply State.modMember_keeps | apply State.innerOut_keeps | apply State.wire_keeps
    | with_reducible refine keeps_foldl ?_ (fun _ _ _ => ?_)
    | with_reducible refine keeps_foldl_fst ?_ (fun _ _ _ => ?_)
    | (refine keeps_parts ?_; dsimp only; with_reducible refine keeps_fold ?_)
    | split
    | dsimp only

theorem State.withdrawAvenue_keeps {lk : Bool} {z s : State} {m : Nat} {fault : Bool}
    (h : Keeps lk z s) : Keeps lk z (s.withdrawAvenue m fault) := by
  unfold State.withdrawAvenue
  extract_lets x g lost rest dropped other again both handed late rep told
  clear_value other
  have kd : Keeps lk z dropped := State.modMember_keeps (State.dropParts_keeps h)
  have kb : Keeps lk z both := keeps_foldl (keeps_foldl kd fun _ _ => State.resend_keeps) fun _ _ => State.resend_keeps
  have kh : Keeps lk z handed := by
    unfold handed
    split
    · exact keeps_foldl (State.handTo_keeps (State.handTo_keeps kd)) fun _ _ => State.handTo_keeps
    · exact keeps_foldl kb fun _ _ => State.handTo_keeps
  have kl : Keeps lk z late := State.modMember_keeps kh
  have kt : Keeps lk z told := by
    unfold told
    split
    · exact State.wire_keeps kl
    · exact kl
  exact State.refreshGroups_keeps (State.loseParent_keeps kt)

theorem State.withdraw_keeps {lk : Bool} {z : State} {s : State} {m : Nat}
    (hz : Keeps lk z s) : Keeps lk z (State.withdraw s m) := by
  unfold State.withdraw
  try dsimp only
  repeat' first
    | with_reducible assumption
    | with_reducible first | apply State.dieLinkDown_keeps | apply State.withdrawAvenue_keeps
    | (refine keeps_parts ?_; dsimp only; with_reducible refine keeps_fold ?_)
    | split
    | dsimp only

theorem State.collectTo_keeps {lk : Bool} {z : State} {s : State} {m : Nat}
    (hz : Keeps lk z s) : Keeps lk z (State.collectTo s m) := by
  unfold State.collectTo
  try dsimp only
  repeat' first
    | with_reducible assumption
    | with_reducible first | apply State.modMember_keeps | apply State.handTo_keeps
    | with_reducible refine keeps_foldl ?_ (fun _ _ _ => ?_)
    | with_reducible refine keeps_foldl_fst ?_ (fun _ _ _ => ?_)
    | (refine keeps_parts ?_; dsimp only; with_reducible refine keeps_fold ?_)
    | split
    | dsimp only

theorem State.bringUp_keeps {lk : Bool} {z : State} {s : State} {m : Nat}
    (hz : Keeps lk z s) : Keeps lk z (State.bringUp s m) := by
  unfold State.bringUp
  try dsimp only
  repeat' first
    | with_reducible assumption
    | with_reducible first
        | apply State.modMember_keeps | apply State.resend_keeps | apply State.collectTo_keeps
        | apply State.grantAll_keeps | apply State.refreshGroups_keeps
    | (refine keeps_parts ?_; dsimp only; with_reducible refine keeps_fold ?_)
    | split
    | dsimp only

theorem State.linkChange_keeps {lk : Bool} {z : State} {s : State} {e : Nat × Bool}
    (hz : Keeps lk z s) : Keeps lk z (State.linkChange s e) := by
  unfold State.linkChange
  try dsimp only
  repeat' first
    | with_reducible assumption
    | with_reducible first | apply State.bringUp_keeps | apply State.withdrawAvenue_keeps
    | (refine keeps_parts ?_; dsimp only; with_reducible refine keeps_fold ?_)
    | split
    | dsimp only

theorem State.latch_keeps {lk : Bool} {z : State} {s : State} {bit : Nat}
    (hz : Keeps lk z s) : Keeps lk z (State.latch s bit) := by
  unfold State.latch
  try dsimp only
  repeat' first
    | with_reducible assumption
    | (refine keeps_parts ?_; dsimp only; with_reducible refine keeps_fold ?_)
    | split
    | dsimp only

end Sys2Proof.Machine
end

