-- ==== Sys2Proof/Laws/KeepFaults.lean ====
section
/-! SUPPORT. The effects of Machine/Faults.lean keep queue, fuses, canonical memories and locks. -/

namespace Sys2Proof.Machine

theorem State.replyWaiting_keeps {lk : Bool} {z : State} {s : State} {ops : List Nat} {c status detail : Nat}
    (hz : Keeps lk z s) : Keeps lk z (State.replyWaiting s ops c status detail) := by
  unfold State.replyWaiting
  try dsimp only
  repeat' first
    | with_reducible assumption
    | with_reducible apply State.reply_keeps
    | (refine keeps_parts ?_; dsimp only; with_reducible refine keeps_fold ?_)
    | split
    | dsimp only

theorem State.logFault_keeps {lk : Bool} {z : State} {s : State} {rep : FaultReport} {stb : Nat} {first : BitVec 64} {outcome action : Nat} {lft : Bool}
    (hz : Keeps lk z s) : Keeps lk z (State.logFault s rep stb first outcome action lft) := by
  unfold State.logFault
  extract_lets l0 l1 l2 l3 l4 l5 l6
  clear_value l0
  have kl1 : Keeps lk z l1 := by
    unfold l1
    repeat' first
      | with_reducible assumption
      | with_reducible apply State.jdWrite_keeps
      | split
      | dsimp only
      | (refine keeps_parts ?_; dsimp only; with_reducible refine keeps_fold ?_)
  clear_value l1
  clear_value l2
  have kl3 : Keeps lk z l3 := by
    unfold l3
    repeat' first
      | with_reducible assumption
      | with_reducible apply State.jdWrite_keeps
      | split
      | dsimp only
      | (refine keeps_parts ?_; dsimp only; with_reducible refine keeps_fold ?_)
  clear_value l3
  have kl4 : Keeps lk z l4 := by
    unfold l4
    repeat' first
      | with_reducible assumption
      | with_reducible apply State.jdWrite_keeps
      | split
      | dsimp only
      | (refine keeps_parts ?_; dsimp only; with_reducible refine keeps_fold ?_)
  clear_value l4
  clear_value l5
  clear_value l6
  repeat' first
    | with_reducible assumption
    | with_reducible apply State.jdWrite_keeps
    | split
    | dsimp only
    | (refine keeps_parts ?_; dsimp only; with_reducible refine keeps_fold ?_)

theorem State.countLasting_keeps {lk : Bool} {z : State} {s : State}
    (hz : Keeps lk z s) : Keeps lk z (State.countLasting s) := by
  unfold State.countLasting
  try dsimp only
  repeat' first
    | with_reducible assumption
    | (refine keeps_parts ?_; dsimp only; with_reducible refine keeps_fold ?_)
    | split
    | dsimp only

theorem State.freeChunk_keeps {lk : Bool} {z : State} {s : State} {k : RxChunk}
    (hz : Keeps lk z s) : Keeps lk z (State.freeChunk s k) := by
  unfold State.freeChunk
  try dsimp only
  repeat' first
    | with_reducible assumption
    | with_reducible apply State.freeOf_keeps
    | (refine keeps_parts ?_; dsimp only; with_reducible refine keeps_fold ?_)
    | split
    | dsimp only

theorem State.dropRx_keeps {lk : Bool} {z : State} {s : State}
    (hz : Keeps lk z s) : Keeps lk z (State.dropRx s) := by
  unfold State.dropRx
  try dsimp only
  repeat' first
    | with_reducible assumption
    | with_reducible apply State.freeChunk_keeps
    | with_reducible refine keeps_foldl ?_ (fun _ _ _ => ?_)
    | with_reducible refine keeps_foldl_fst ?_ (fun _ _ _ => ?_)
    | (refine keeps_parts ?_; dsimp only; with_reducible refine keeps_fold ?_)
    | split
    | dsimp only

theorem State.stopCx_keeps {lk : Bool} {z : State} {s : State} {n : BitVec 64} {die : Nat}
    (hz : Keeps lk z s) : Keeps lk z (State.stopCx s n die) := by
  unfold State.stopCx
  try dsimp only
  repeat' first
    | with_reducible assumption
    | with_reducible apply State.modCx_keeps
    | (refine keeps_parts ?_; dsimp only; with_reducible refine keeps_fold ?_)
    | split
    | dsimp only

theorem State.stopStep_keeps {lk : Bool} {z : State} {s : State} {n : BitVec 64}
    (hz : Keeps lk z s) : Keeps lk z (State.stopStep s n) := by
  unfold State.stopStep
  try dsimp only
  repeat' first
    | with_reducible assumption
    | with_reducible first | apply State.stopCx_keeps | apply State.dropRx_keeps | apply State.dropInner_keeps
    | with_reducible refine keeps_foldl ?_ (fun _ _ _ => ?_)
    | with_reducible refine keeps_foldl_fst ?_ (fun _ _ _ => ?_)
    | (refine keeps_parts ?_; dsimp only; with_reducible refine keeps_fold ?_)
    | split
    | dsimp only

theorem State.haltOn_keeps {lk : Bool} {z : State} {s : State} {c : Nat} {payload : Bytes} {g : Nat}
    (hz : Keeps lk z s) : Keeps lk z (State.haltOn s c payload g) := by
  unfold State.haltOn
  try dsimp only
  repeat' first
    | with_reducible assumption
    | with_reducible first | apply State.formMsg_keeps | apply State.enqueue_keeps
    | with_reducible refine keeps_foldl ?_ (fun _ _ _ => ?_)
    | with_reducible refine keeps_foldl_fst ?_ (fun _ _ _ => ?_)
    | (refine keeps_parts ?_; dsimp only; with_reducible refine keeps_fold ?_)
    | split
    | dsimp only

theorem State.haltFlood_keeps {lk : Bool} {z : State} {s : State} {c : Nat} {payload : Bytes} {excl : Option Nat}
    (hz : Keeps lk z s) : Keeps lk z (State.haltFlood s c payload excl) := by
  unfold State.haltFlood
  try dsimp only
  repeat' first
    | with_reducible assumption
    | with_reducible apply State.haltOn_keeps
    | with_reducible refine keeps_foldl ?_ (fun _ _ _ => ?_)
    | with_reducible refine keeps_foldl_fst ?_ (fun _ _ _ => ?_)
    | (refine keeps_parts ?_; dsimp only; with_reducible refine keeps_fold ?_)
    | split
    | dsimp only

theorem State.crashSlot_keeps {lk : Bool} {z : State} {s : State} {payload : Bytes}
    (hz : Keeps lk z s) : Keeps lk z (State.crashSlot s payload) := by
  unfold State.crashSlot
  try dsimp only
  repeat' first
    | with_reducible assumption
    | with_reducible apply State.jdWrite_keeps
    | (refine keeps_parts ?_; dsimp only; with_reducible refine keeps_fold ?_)
    | split
    | dsimp only

theorem State.haltDone_keeps {lk : Bool} {z : State} {s : State} {c : Nat}
    (hz : Keeps lk z s) : Keeps lk z (State.haltDone s c) := by
  unfold State.haltDone
  try dsimp only
  repeat' first
    | with_reducible assumption
    | with_reducible first | apply State.modCtx_keeps | apply State.event_keeps | apply State.replyWaiting_keeps
    | with_reducible refine State.modCtx_keeps ?_ ?_
    | exact fun _ _ k => k
    | (intro _ _ k; repeat' first | exact k | split)
    | (refine keeps_parts ?_; dsimp only; with_reducible refine keeps_fold ?_)
    | split
    | dsimp only

theorem State.haltCtx_keeps {lk : Bool} {z : State} {s : State} {c : Nat} {cause : Nat} {target : CtxPhase}
    (hz : Keeps lk z s) : Keeps lk z (State.haltCtx s c cause target) := by
  unfold State.haltCtx
  try dsimp only
  repeat' first
    | with_reducible assumption
    | with_reducible first
        | apply State.stopStep_keeps | apply State.consume_keeps | apply State.modCtx_keeps
        | apply State.haltDone_keeps
    | with_reducible refine keeps_foldl ?_ (fun _ _ _ => ?_)
    | with_reducible refine keeps_foldl_fst ?_ (fun _ _ _ => ?_)
    | with_reducible refine State.modCtx_keeps ?_ ?_
    | exact fun _ _ k => k
    | (intro _ _ k; repeat' first | exact k | split)
    | (refine keeps_parts ?_; dsimp only; with_reducible refine keeps_fold ?_)
    | split
    | dsimp only

theorem State.containHalt_keeps {lk : Bool} {z : State} {s : State} {cause : Nat} {target : CtxPhase} {payload : Option Bytes} {excl : Option Nat}
    (hz : Keeps lk z s) : Keeps lk z (State.containHalt s cause target payload excl) := by
  unfold State.containHalt
  try dsimp only
  repeat' first
    | with_reducible assumption
    | with_reducible first
        | apply State.modCtx_keeps | apply State.latch_keeps | apply State.crashSlot_keeps
        | apply State.haltFlood_keeps | apply State.haltCtx_keeps
    | with_reducible refine State.modCtx_keeps ?_ ?_
    | exact fun _ _ k => k
    | (intro _ _ k; repeat' first | exact k | split)
    | (refine keeps_parts ?_; dsimp only; with_reducible refine keeps_fold ?_)
    | split
    | dsimp only

theorem State.haltFault_keeps {lk : Bool} {z : State} {s : State} {rep : FaultReport}
    (hz : Keeps lk z s) : Keeps lk z (State.haltFault s rep) := by
  unfold State.haltFault
  try dsimp only
  repeat' first
    | with_reducible assumption
    | with_reducible first
        | apply State.logFault_keeps | apply State.countLasting_keeps | apply State.containHalt_keeps
    | (refine keeps_parts ?_; dsimp only; with_reducible refine keeps_fold ?_)
    | split
    | dsimp only

theorem State.dropStamps_keeps {lk : Bool} {z : State} {s : State} {n : BitVec 64}
    (hz : Keeps lk z s) : Keeps lk z (State.dropStamps s n) := by
  unfold State.dropStamps
  try dsimp only
  repeat' first
    | with_reducible assumption
    | (refine keeps_parts ?_; dsimp only; with_reducible refine keeps_fold ?_)
    | split
    | dsimp only

theorem State.abortOne_keeps {lk : Bool} {z : State} {s : State} {c : Nat} {n : BitVec 64}
    (hz : Keeps lk z s) : Keeps lk z (State.abortOne s c n) := by
  unfold State.abortOne
  try dsimp only
  repeat' first
    | with_reducible assumption
    | with_reducible first
        | apply State.stopStep_keeps | apply State.dropStamps_keeps | apply State.modCtx_keeps
        | apply State.event_keeps
    | with_reducible refine keeps_foldl ?_ (fun _ _ _ => ?_)
    | with_reducible refine keeps_foldl_fst ?_ (fun _ _ _ => ?_)
    | with_reducible refine State.modCtx_keeps ?_ ?_
    | exact fun _ _ k => k
    | (intro _ _ k; repeat' first | exact k | split)
    | (refine keeps_parts ?_; dsimp only; with_reducible refine keeps_fold ?_)
    | split
    | dsimp only

theorem State.setEpoch_keeps {lk : Bool} {z : State} {s : State} {c : Nat} {e : BitVec 16}
    (hz : Keeps lk z s) : Keeps lk z (State.setEpoch s c e) := by
  unfold State.setEpoch
  try dsimp only
  repeat' first
    | with_reducible assumption
    | with_reducible first | apply State.modCtx_keeps | apply State.clearStreams_keeps | apply State.consume_keeps
    | with_reducible refine State.modCtx_keeps ?_ ?_
    | exact fun _ _ k => k
    | (intro _ _ k; repeat' first | exact k | split)
    | (refine keeps_parts ?_; dsimp only; with_reducible refine keeps_fold ?_)
    | split
    | dsimp only

theorem State.abortSteps_keeps {lk : Bool} {z : State} {s : State} {c : Nat} {ns : List (BitVec 64)} {send : Bool}
    (hz : Keeps lk z s) : Keeps lk z (State.abortSteps s c ns send) := by
  unfold State.abortSteps
  try dsimp only
  repeat' first
    | with_reducible assumption
    | with_reducible first
        | apply State.haltFault_keeps | apply State.abortOne_keeps | apply State.setEpoch_keeps
        | apply State.sendAll_keeps
    | with_reducible refine keeps_foldl ?_ (fun _ _ _ => ?_)
    | with_reducible refine keeps_foldl_fst ?_ (fun _ _ _ => ?_)
    | (refine keeps_parts ?_; dsimp only; with_reducible refine keeps_fold ?_)
    | split
    | dsimp only

theorem State.abortAll_keeps {lk : Bool} {z : State} {s : State}
    (hz : Keeps lk z s) : Keeps lk z (State.abortAll s) := by
  unfold State.abortAll
  try dsimp only
  repeat' first
    | with_reducible assumption
    | with_reducible apply State.abortSteps_keeps
    | (refine keeps_parts ?_; dsimp only; with_reducible refine keeps_fold ?_)
    | split
    | dsimp only

theorem State.setPhysState_keeps {lk : Bool} {z : State} {s : State} {d p v : Nat}
    (hz : Keeps lk z s) : Keeps lk z (State.setPhysState s d p v) := by
  unfold State.setPhysState
  try dsimp only
  repeat' first
    | with_reducible assumption
    | (refine keeps_parts ?_; dsimp only; with_reducible refine keeps_fold ?_)
    | split
    | dsimp only

theorem State.setPhys_keeps {lk : Bool} {z : State} {s : State} {d l p : Nat}
    (hz : Keeps lk z s) : Keeps lk z (State.setPhys s d l p) := by
  unfold State.setPhys
  try dsimp only
  repeat' first
    | with_reducible assumption
    | (refine keeps_parts ?_; dsimp only; with_reducible refine keeps_fold ?_)
    | split
    | dsimp only

theorem State.abandon_keeps {lk : Bool} {z : State} {s : State}
    (hz : Keeps lk z s) : Keeps lk z (State.abandon s) := by
  unfold State.abandon
  try dsimp only
  repeat' first
    | with_reducible assumption
    | with_reducible apply State.modXs_keeps
    | with_reducible refine keeps_foldl ?_ (fun _ _ _ => ?_)
    | with_reducible refine keeps_foldl_fst ?_ (fun _ _ _ => ?_)
    | (refine keeps_parts ?_; dsimp only; with_reducible refine keeps_fold ?_)
    | split
    | dsimp only

theorem State.quitCore_keeps {lk : Bool} {z : State} {s : State} {d l : Nat}
    (hz : Keeps lk z s) : Keeps lk z (State.quitCore s d l) := by
  unfold State.quitCore
  try dsimp only
  repeat' first
    | with_reducible assumption
    | with_reducible first | apply State.settleEngine_keeps | apply State.setEng_keeps | apply State.modCore_keeps
    | with_reducible refine keeps_foldl ?_ (fun _ _ _ => ?_)
    | with_reducible refine keeps_foldl_fst ?_ (fun _ _ _ => ?_)
    | (refine keeps_parts ?_; dsimp only; with_reducible refine keeps_fold ?_)
    | split
    | dsimp only

theorem State.fenceCore_keeps {lk : Bool} {z : State} {s : State} {d p : Nat}
    (hz : Keeps lk z s) : Keeps lk z (State.fenceCore s d p).1 := by
  unfold State.fenceCore
  try dsimp only
  repeat' first
    | with_reducible assumption
    | with_reducible first | apply State.setPhysState_keeps | apply State.quitCore_keeps | apply State.setPhys_keeps
    | (refine keeps_parts ?_; dsimp only; with_reducible refine keeps_fold ?_)
    | split
    | dsimp only

theorem State.respond_keeps {lk : Bool} {z : State} {s : State} {r : FaultReport} {tags : List (BitVec 64)}
    (hz : Keeps lk z s) : Keeps lk z (State.respond s r tags) := by
  unfold State.respond
  try dsimp only
  repeat' first
    | with_reducible assumption
    | with_reducible first
        | apply State.containHalt_keeps | apply State.abandon_keeps | apply State.abortSteps_keeps
        | apply State.fenceCore_keeps | apply State.haltFault_keeps | apply State.withdraw_keeps
    | (refine keeps_parts ?_; dsimp only; with_reducible refine keeps_fold ?_)
    | split
    | dsimp only

theorem State.report_keeps {lk : Bool} {z : State} {s : State} {r : FaultReport}
    (hz : Keeps lk z s) : Keeps lk z (State.report s r) := by
  unfold State.report
  extract_lets l0 l1 l2 l3 l4 l5 l6 l7 l8
  clear_value l0
  clear_value l1
  clear_value l2
  clear_value l3
  clear_value l4
  have kl5 : Keeps lk z l5 := by
    unfold l5
    repeat' first
      | with_reducible assumption
      | with_reducible apply State.logFault_keeps
      | with_reducible apply State.countLasting_keeps
      | with_reducible apply State.modCtx_keeps
      | with_reducible apply State.respond_keeps
      | with_reducible apply State.abortSteps_keeps
      | exact fun _ _ k => k
      | (intro _ _ k; repeat' first | exact k | split)
      | split
      | dsimp only
      | (refine keeps_parts ?_; dsimp only; with_reducible refine keeps_fold ?_)
  clear_value l5
  have kl6 : Keeps lk z l6 := by
    unfold l6
    repeat' first
      | with_reducible assumption
      | with_reducible apply State.logFault_keeps
      | with_reducible apply State.countLasting_keeps
      | with_reducible apply State.modCtx_keeps
      | with_reducible apply State.respond_keeps
      | with_reducible apply State.abortSteps_keeps
      | exact fun _ _ k => k
      | (intro _ _ k; repeat' first | exact k | split)
      | split
      | dsimp only
      | (refine keeps_parts ?_; dsimp only; with_reducible refine keeps_fold ?_)
  clear_value l6
  have kl7 : Keeps lk z l7 := by
    unfold l7
    repeat' first
      | with_reducible assumption
      | with_reducible apply State.logFault_keeps
      | with_reducible apply State.countLasting_keeps
      | with_reducible apply State.modCtx_keeps
      | with_reducible apply State.respond_keeps
      | with_reducible apply State.abortSteps_keeps
      | exact fun _ _ k => k
      | (intro _ _ k; repeat' first | exact k | split)
      | split
      | dsimp only
      | (refine keeps_parts ?_; dsimp only; with_reducible refine keeps_fold ?_)
  clear_value l7
  have kl8 : Keeps lk z l8 := by
    unfold l8
    repeat' first
      | with_reducible assumption
      | with_reducible apply State.logFault_keeps
      | with_reducible apply State.countLasting_keeps
      | with_reducible apply State.modCtx_keeps
      | with_reducible apply State.respond_keeps
      | with_reducible apply State.abortSteps_keeps
      | exact fun _ _ k => k
      | (intro _ _ k; repeat' first | exact k | split)
      | split
      | dsimp only
      | (refine keeps_parts ?_; dsimp only; with_reducible refine keeps_fold ?_)
  clear_value l8
  repeat' first
    | with_reducible assumption
    | with_reducible apply State.logFault_keeps
    | with_reducible apply State.countLasting_keeps
    | with_reducible apply State.modCtx_keeps
    | with_reducible apply State.respond_keeps
    | with_reducible apply State.abortSteps_keeps
    | exact fun _ _ k => k
    | (intro _ _ k; repeat' first | exact k | split)
    | split
    | dsimp only
    | (refine keeps_parts ?_; dsimp only; with_reducible refine keeps_fold ?_)

theorem State.classTransient_keeps {lk : Bool} {z : State} {s : State} {f : SeenFault}
    (hz : Keeps lk z s) : Keeps lk z (State.classTransient s f).1 := by
  unfold State.classTransient
  try dsimp only
  repeat' first
    | with_reducible assumption
    | with_reducible first | apply State.logFault_keeps | apply State.countLasting_keeps
    | (refine keeps_parts ?_; dsimp only; with_reducible refine keeps_fold ?_)
    | split
    | dsimp only

end Sys2Proof.Machine
end

