-- ==== Sys2Proof/Laws/KeepSteps.lean ====
section
/-! SUPPORT. The effects of Machine/Steps.lean keep queue, fuses, canonical memories and locks. -/

namespace Sys2Proof.Machine

theorem State.freshStores_keeps {lk : Bool} {z s : State} (h : Keeps lk z s) : Keeps lk z s.freshStores :=
  keeps_mem h (Memory.wf_step fun w =>
    { w with spm := Store.wf_undef _, sram := Store.wf_undef _, par := canon_filter w.par })

theorem State.clearBanks_keeps {lk : Bool} {z : State} {s : State} {n : BitVec 64}
    (hz : Keeps lk z s) : Keeps lk z (State.clearBanks s n) := by
  unfold State.clearBanks
  try dsimp only
  repeat' first
    | with_reducible assumption
    | with_reducible refine keeps_foldl ?_ (fun _ _ _ => ?_)
    | with_reducible refine keeps_foldl_fst ?_ (fun _ _ _ => ?_)
    | (refine keeps_parts ?_; dsimp only; with_reducible refine keeps_fold ?_)
    | split
    | dsimp only

theorem State.banksToAe_keeps {lk : Bool} {z : State} {s : State}
    (hz : Keeps lk z s) : Keeps lk z (State.banksToAe s) := by
  unfold State.banksToAe
  try dsimp only
  repeat' first
    | with_reducible assumption
    | (refine keeps_parts ?_; dsimp only; with_reducible refine keeps_fold ?_)
    | split
    | dsimp only

theorem State.freshDies_keeps {lk : Bool} {z : State} {s : State} {n : BitVec 64}
    (hz : Keeps lk z s) : Keeps lk z (State.freshDies s n) := by
  unfold State.freshDies
  try dsimp only
  repeat' first
    | with_reducible assumption
    | with_reducible first | apply State.modCx_keeps | apply State.modUe_keeps
    | with_reducible refine keeps_foldl ?_ (fun _ _ _ => ?_)
    | with_reducible refine keeps_foldl_fst ?_ (fun _ _ _ => ?_)
    | (refine keeps_parts ?_; dsimp only; with_reducible refine keeps_fold ?_)
    | split
    | dsimp only

theorem State.writeConsts_keeps {lk : Bool} {z : State} {s : State} {cfg : JobCfg} {t : StepSt}
    (hz : Keeps lk z s) : Keeps lk z (State.writeConsts s cfg t) := by
  unfold State.writeConsts
  try dsimp only
  repeat' first
    | with_reducible assumption
    | with_reducible apply State.physWrite_keeps
    | with_reducible refine keeps_foldl ?_ (fun _ _ _ => ?_)
    | with_reducible refine keeps_foldl_fst ?_ (fun _ _ _ => ?_)
    | (refine keeps_parts ?_; dsimp only; with_reducible refine keeps_fold ?_)
    | split
    | dsimp only

theorem State.enterStep_keeps {lk : Bool} {z : State} {s : State} {c : Nat} {n : BitVec 64} {cfg : JobCfg}
    (hz : Keeps lk z s) : Keeps lk z (State.enterStep s c n cfg) := by
  unfold State.enterStep
  try dsimp only
  repeat' first
    | with_reducible assumption
    | with_reducible first
        | apply State.freshStores_keeps | apply State.clearBanks_keeps | apply State.banksToAe_keeps
        | apply State.freshDies_keeps | apply State.modCtx_keeps | apply State.writeConsts_keeps
        | apply State.dropStamps_keeps | apply State.sendAll_keeps | apply State.replyWaiting_keeps
    | with_reducible refine State.modCtx_keeps ?_ ?_
    | exact fun _ _ k => k
    | (intro _ _ k; repeat' first | exact k | split)
    | (refine keeps_parts ?_; dsimp only; with_reducible refine keeps_fold ?_)
    | split
    | dsimp only

theorem State.readDigest_keeps {lk : Bool} {z s : State} {x : CtxSt} {t : StepSt} {d : Nat} {q : State × BitVec 64}
    (h : Keeps lk z s) (hq : s.readDigest x t d = some q) : Keeps lk z q.1 := by
  unfold State.readDigest at hq
  split at hq
  · split at hq
    · cases hq; exact State.shardDigest_keeps h
    · cases hq
  · cases hq

theorem State.dieFinal_keeps {lk : Bool} {z s : State} {x : CtxSt} {im : Img} {t : StepSt} {d : Nat} {q : State × BitVec 64}
    (h : Keeps lk z s) (hq : s.dieFinal x im t d = some q) : Keeps lk z q.1 := by
  unfold State.dieFinal at hq
  split at hq
  · split at hq
    · exact State.readDigest_keeps h hq
    · cases hq
  · split at hq
    · cases hq; exact h
    · cases hq

theorem State.toGated_keeps {lk : Bool} {z : State} {s : State} {c : Nat} {cfg : JobCfg} {n : BitVec 64} {fin : TrainSt}
    (hz : Keeps lk z s) : Keeps lk z (State.toGated s c cfg n fin) := by
  unfold State.toGated
  try dsimp only
  repeat' first
    | with_reducible assumption
    | with_reducible first | apply State.modCtx_keeps | apply State.modStep_keeps | apply State.sendTo_keeps
    | with_reducible refine keeps_foldl ?_ (fun _ _ _ => ?_)
    | with_reducible refine keeps_foldl_fst ?_ (fun _ _ _ => ?_)
    | with_reducible refine State.modCtx_keeps ?_ ?_
    | exact fun _ _ k => k
    | (intro _ _ k; repeat' first | exact k | split)
    | (refine keeps_parts ?_; dsimp only; with_reducible refine keeps_fold ?_)
    | split
    | dsimp only

theorem State.reportFinal_keeps {lk : Bool} {z s : State} {c : Nat} {t : StepSt}
    {ready : State → Nat → Option (State × BitVec 64)} (h : Keeps lk z s)
    (hr : ∀ a d q, Keeps lk z a → ready a d = some q → Keeps lk z q.1) : Keeps lk z (s.reportFinal c t ready).1 := by
  unfold State.reportFinal
  refine State.modCtx_keeps (keeps_foldl_fst h fun a d k => ?_) fun _ _ k => k
  split
  · exact k
  · split
    · next q hq => exact hr _ _ q k hq
    · exact k

theorem State.tryFinal_keeps {lk : Bool} {z s : State} {c : Nat} (h : Keeps lk z s) : Keeps lk z (s.tryFinal c) := by
  unfold State.tryFinal
  dsimp only
  repeat' first
    | with_reducible assumption
    | with_reducible apply State.toGated_keeps
    | refine State.reportFinal_keeps h fun a d q k hq => ?_
    | split
  all_goals first
    | exact State.readDigest_keeps k hq
    | exact State.dieFinal_keeps k hq
    | (split at hq
       · exact State.readDigest_keeps k hq
       · exact State.dieFinal_keeps k hq)

theorem State.deferStep_keeps {lk : Bool} {z : State} {s : State} {c : Nat} {n : BitVec 64}
    (hz : Keeps lk z s) : Keeps lk z (State.deferStep s c n) := by
  unfold State.deferStep
  try dsimp only
  repeat' first
    | with_reducible assumption
    | with_reducible first | apply State.modCtx_keeps | apply State.modStep_keeps | apply State.event_keeps
    | with_reducible refine State.modCtx_keeps ?_ ?_
    | exact fun _ _ k => k
    | (intro _ _ k; repeat' first | exact k | split)
    | (refine keeps_parts ?_; dsimp only; with_reducible refine keeps_fold ?_)
    | split
    | dsimp only

theorem State.startCommit_keeps {lk : Bool} {z : State} {s : State} {c : Nat} {n : BitVec 64}
    (hz : Keeps lk z s) : Keeps lk z (State.startCommit s c n) := by
  unfold State.startCommit
  try dsimp only
  repeat' first
    | with_reducible assumption
    | with_reducible first | apply State.modCtx_keeps | apply State.modStep_keeps | apply State.deferStep_keeps
    | with_reducible refine State.modCtx_keeps ?_ ?_
    | exact fun _ _ k => k
    | (intro _ _ k; repeat' first | exact k | split)
    | (refine keeps_parts ?_; dsimp only; with_reducible refine keeps_fold ?_)
    | split
    | dsimp only

theorem State.tryCommit_keeps {lk : Bool} {z : State} {s : State} {c : Nat}
    (hz : Keeps lk z s) : Keeps lk z (State.tryCommit s c) := by
  unfold State.tryCommit
  try dsimp only
  repeat' first
    | with_reducible assumption
    | with_reducible apply State.startCommit_keeps
    | (refine keeps_parts ?_; dsimp only; with_reducible refine keeps_fold ?_)
    | split
    | dsimp only

theorem State.settle_keeps {lk : Bool} {z : State} {s : State} {c : Nat}
    (hz : Keeps lk z s) : Keeps lk z (State.settle s c) := by
  unfold State.settle
  try dsimp only
  repeat' first
    | with_reducible assumption
    | with_reducible first | apply State.tryFinal_keeps | apply State.tryCommit_keeps
    | (refine keeps_parts ?_; dsimp only; with_reducible refine keeps_fold ?_)
    | split
    | dsimp only

theorem State.settleNow_keeps {lk : Bool} {z : State} {s : State}
    (hz : Keeps lk z s) : Keeps lk z (State.settleNow s) := by
  unfold State.settleNow
  try dsimp only
  repeat' first
    | with_reducible assumption
    | with_reducible apply State.settle_keeps
    | (refine keeps_parts ?_; dsimp only; with_reducible refine keeps_fold ?_)
    | split
    | dsimp only

theorem State.applyImage_keeps {lk : Bool} {z : State} {s : State} {c : Nat} {im : Img}
    (hz : Keeps lk z s) : Keeps lk z (State.applyImage s c im) := by
  unfold State.applyImage
  try dsimp only
  repeat' first
    | with_reducible assumption
    | with_reducible first | apply State.modCtx_keeps | apply State.physWrite_keeps
    | with_reducible refine keeps_foldl ?_ (fun _ _ _ => ?_)
    | with_reducible refine keeps_foldl_fst ?_ (fun _ _ _ => ?_)
    | with_reducible refine State.modCtx_keeps ?_ ?_
    | exact fun _ _ k => k
    | (intro _ _ k; repeat' first | exact k | split)
    | (refine keeps_parts ?_; dsimp only; with_reducible refine keeps_fold ?_)
    | split
    | dsimp only

theorem State.applyLinks_keeps {lk : Bool} {z : State} {s : State} {cfg : JobCfg}
    (hz : Keeps lk z s) : Keeps lk z (State.applyLinks s cfg) := by
  unfold State.applyLinks
  try dsimp only
  repeat' first
    | with_reducible assumption
    | with_reducible first | apply State.modMember_keeps | apply State.refreshGroups_keeps
    | with_reducible refine keeps_foldl ?_ (fun _ _ _ => ?_)
    | with_reducible refine keeps_foldl_fst ?_ (fun _ _ _ => ?_)
    | (refine keeps_parts ?_; dsimp only; with_reducible refine keeps_fold ?_)
    | split
    | dsimp only

theorem State.pendMarket_keeps {lk : Bool} {z : State} {s : State} {cfg : JobCfg}
    (hz : Keeps lk z s) : Keeps lk z (State.pendMarket s cfg) := by
  unfold State.pendMarket
  try dsimp only
  repeat' first
    | with_reducible assumption
    | with_reducible apply State.modMkt_keeps
    | with_reducible refine keeps_foldl ?_ (fun _ _ _ => ?_)
    | with_reducible refine keeps_foldl_fst ?_ (fun _ _ _ => ?_)
    | (refine keeps_parts ?_; dsimp only; with_reducible refine keeps_fold ?_)
    | split
    | dsimp only

theorem State.applySwap_keeps {lk : Bool} {z : State} {s : State} {c : Nat}
    (hz : Keeps lk z s) : Keeps lk z (State.applySwap s c) := by
  unfold State.applySwap
  try dsimp only
  repeat' first
    | with_reducible assumption
    | with_reducible first
        | apply State.modCtx_keeps | apply State.setEpoch_keeps | apply State.applyLinks_keeps
        | apply State.pendMarket_keeps
    | with_reducible refine State.modCtx_keeps ?_ ?_
    | exact fun _ _ k => k
    | (intro _ _ k; repeat' first | exact k | split)
    | (refine keeps_parts ?_; dsimp only; with_reducible refine keeps_fold ?_)
    | split
    | dsimp only

theorem State.startSave_keeps {lk : Bool} {z : State} {s : State} {c : Nat}
    (hz : Keeps lk z s) : Keeps lk z (State.startSave s c) := by
  unfold State.startSave
  try dsimp only
  repeat' first
    | with_reducible assumption
    | with_reducible apply State.modCtx_keeps
    | with_reducible refine State.modCtx_keeps ?_ ?_
    | exact fun _ _ k => k
    | (intro _ _ k; repeat' first | exact k | split)
    | (refine keeps_parts ?_; dsimp only; with_reducible refine keeps_fold ?_)
    | split
    | dsimp only

theorem State.stopSteps_keeps {lk : Bool} {z : State} {s : State} {c : Nat}
    (hz : Keeps lk z s) : Keeps lk z (State.stopSteps s c) := by
  unfold State.stopSteps
  try dsimp only
  repeat' first
    | with_reducible assumption
    | with_reducible first | apply State.modCtx_keeps | apply State.event_keeps
    | with_reducible refine State.modCtx_keeps ?_ ?_
    | exact fun _ _ k => k
    | (intro _ _ k; repeat' first | exact k | split)
    | (refine keeps_parts ?_; dsimp only; with_reducible refine keeps_fold ?_)
    | split
    | dsimp only

theorem State.boundary_keeps {lk : Bool} {z : State} {s : State} {c : Nat} {n : BitVec 64}
    (hz : Keeps lk z s) : Keeps lk z (State.boundary s c n) := by
  unfold State.boundary
  try dsimp only
  repeat' first
    | with_reducible assumption
    | with_reducible first
        | apply State.linkChange_keeps | apply State.applySwap_keeps | apply State.applyImage_keeps
        | apply State.startSave_keeps | apply State.stopSteps_keeps
    | with_reducible refine keeps_foldl ?_ (fun _ _ _ => ?_)
    | with_reducible refine keeps_foldl_fst ?_ (fun _ _ _ => ?_)
    | (refine keeps_parts ?_; dsimp only; with_reducible refine keeps_fold ?_)
    | split
    | dsimp only

theorem State.classAll_keeps {lk : Bool} {z : State} {s : State} {fs : List SeenFault}
    (hz : Keeps lk z s) : Keeps lk z (State.classAll s fs) := by
  unfold State.classAll
  try dsimp only
  repeat' first
    | with_reducible assumption
    | with_reducible first | apply State.classTransient_keeps | apply State.respond_keeps
    | with_reducible refine keeps_foldl ?_ (fun _ _ _ => ?_)
    | with_reducible refine keeps_foldl_fst ?_ (fun _ _ _ => ?_)
    | (refine keeps_parts ?_; dsimp only; with_reducible refine keeps_fold ?_)
    | split
    | dsimp only

theorem State.commitStep_keeps {lk : Bool} {z : State} {s : State} {c : Nat} {t : StepSt}
    (hz : Keeps lk z s) : Keeps lk z (State.commitStep s c t) := by
  unfold State.commitStep
  try dsimp only
  repeat' first
    | with_reducible assumption
    | with_reducible first
        | apply State.modCtx_keeps | apply State.dropJournal_keeps | apply State.event_keeps
        | apply State.haltDone_keeps | apply State.boundary_keeps | apply State.classAll_keeps
        | apply State.settle_keeps
    | with_reducible refine State.modCtx_keeps ?_ ?_
    | exact fun _ _ k => k
    | (intro _ _ k; repeat' first | exact k | split)
    | (refine keeps_parts ?_; dsimp only; with_reducible refine keeps_fold ?_)
    | split
    | dsimp only

theorem State.recordFailed_keeps {lk : Bool} {z : State} {s : State} {c : Nat} {t : StepSt}
    (hz : Keeps lk z s) : Keeps lk z (State.recordFailed s c t) := by
  unfold State.recordFailed
  try dsimp only
  repeat' first
    | with_reducible assumption
    | with_reducible first
        | apply State.modCtx_keeps | apply State.modStep_keeps | apply State.wire_keeps | apply State.deferStep_keeps
    | with_reducible refine State.modCtx_keeps ?_ ?_
    | exact fun _ _ k => k
    | (intro _ _ k; repeat' first | exact k | split)
    | (refine keeps_parts ?_; dsimp only; with_reducible refine keeps_fold ?_)
    | split
    | dsimp only

theorem State.commitWritten_keeps {lk : Bool} {z : State} {s : State} {c : Nat} {ok : Bool}
    (hz : Keeps lk z s) : Keeps lk z (State.commitWritten s c ok) := by
  unfold State.commitWritten
  try dsimp only
  repeat' first
    | with_reducible assumption
    | with_reducible first | apply State.jdWrite_keeps | apply State.commitStep_keeps | apply State.recordFailed_keeps
    | (refine keeps_parts ?_; dsimp only; with_reducible refine keeps_fold ?_)
    | split
    | dsimp only

theorem State.reportNf_keeps {lk : Bool} {z : State} {s : State} {n : BitVec 64} {d : Nat}
    (hz : Keeps lk z s) : Keeps lk z (State.reportNf s n d) := by
  unfold State.reportNf
  try dsimp only
  repeat' first
    | with_reducible assumption
    | with_reducible first | apply State.modUe_keeps | apply State.wire_keeps
    | (refine keeps_parts ?_; dsimp only; with_reducible refine keeps_fold ?_)
    | split
    | dsimp only

theorem State.mapUes_keeps {lk : Bool} {z : State} {s : State} {f : EngSt → EngSt}
    (hz : Keeps lk z s) : Keeps lk z (State.mapUes s f) := by
  unfold State.mapUes
  try dsimp only
  repeat' first
    | with_reducible assumption
    | with_reducible apply State.setEng_keeps
    | with_reducible refine keeps_foldl ?_ (fun _ _ _ => ?_)
    | with_reducible refine keeps_foldl_fst ?_ (fun _ _ _ => ?_)
    | (refine keeps_parts ?_; dsimp only; with_reducible refine keeps_fold ?_)
    | split
    | dsimp only

theorem State.markSeen_keeps {lk : Bool} {z : State} {s : State} {c : Nat} {r : RxMsg}
    (hz : Keeps lk z s) : Keeps lk z (State.markSeen s c r) := by
  unfold State.markSeen
  try dsimp only
  repeat' first
    | with_reducible assumption
    | with_reducible apply State.modStream_keeps
    | (refine keeps_parts ?_; dsimp only; with_reducible refine keeps_fold ?_)
    | split
    | dsimp only

theorem State.holdAbort_keeps {lk : Bool} {z : State} {s : State} {job epoch : BitVec 16} {n : BitVec 64}
    (hz : Keeps lk z s) : Keeps lk z (State.holdAbort s job epoch n) := by
  unfold State.holdAbort
  try dsimp only
  repeat' first
    | with_reducible assumption
    | (refine keeps_parts ?_; dsimp only; with_reducible refine keeps_fold ?_)
    | split
    | dsimp only

theorem State.takeAbort_keeps {lk : Bool} {z : State} {s : State} {c : Nat} {job epoch : BitVec 16} {n : BitVec 64}
    (hz : Keeps lk z s) : Keeps lk z (State.takeAbort s c job epoch n) := by
  unfold State.takeAbort
  try dsimp only
  repeat' first
    | with_reducible assumption
    | with_reducible first
        | apply State.consume_keeps | apply State.abortSteps_keeps | apply State.markSeen_keeps
        | apply State.setEpoch_keeps
    | with_reducible refine keeps_foldl ?_ (fun _ _ _ => ?_)
    | with_reducible refine keeps_foldl_fst ?_ (fun _ _ _ => ?_)
    | (refine keeps_parts ?_; dsimp only; with_reducible refine keeps_fold ?_)
    | split
    | dsimp only

end Sys2Proof.Machine
end

