-- ==== Sys2Proof/Laws/KeepSync.lean ====
section
/-! SUPPORT. The effects of Machine/Sync.lean keep queue, fuses, canonical memories and locks. -/

namespace Sys2Proof.Machine

theorem State.settleRec_keeps {lk : Bool} {z : State} {s : State} {h : HeldRec}
    (hz : Keeps lk z s) : Keeps lk z (State.settleRec s h) := by
  unfold State.settleRec
  try dsimp only
  repeat' first
    | with_reducible assumption
    | with_reducible first | apply State.freeOf_keeps | apply State.arrive_keeps | apply State.modXs_keeps
    | (refine keeps_parts ?_; dsimp only; with_reducible refine keeps_fold ?_)
    | split
    | dsimp only

theorem State.takeRec_keeps {lk : Bool} {z : State} {s : State} {h : HeldRec}
    (hz : Keeps lk z s) : Keeps lk z (State.takeRec s h) := by
  unfold State.takeRec
  try dsimp only
  repeat' first
    | with_reducible assumption
    | with_reducible apply State.settleRec_keeps
    | (refine keeps_parts ?_; dsimp only; with_reducible refine keeps_fold ?_)
    | split
    | dsimp only

theorem State.heldAborts_keeps {lk : Bool} {z : State} {s : State}
    (hz : Keeps lk z s) : Keeps lk z (State.heldAborts s) := by
  unfold State.heldAborts
  try dsimp only
  repeat' first
    | with_reducible assumption
    | with_reducible apply State.takeAbort_keeps
    | with_reducible refine keeps_foldl ?_ (fun _ _ _ => ?_)
    | with_reducible refine keeps_foldl_fst ?_ (fun _ _ _ => ?_)
    | (refine keeps_parts ?_; dsimp only; with_reducible refine keeps_fold ?_)
    | split
    | dsimp only

theorem State.sendRec_keeps {lk : Bool} {z : State} {s : State} {f : ArriveF} {n : BitVec 64}
    (hz : Keeps lk z s) : Keeps lk z (State.sendRec s f n) := by
  unfold State.sendRec
  try dsimp only
  repeat' first
    | with_reducible assumption
    | with_reducible first | apply State.takeRec_keeps | apply State.sendTo_keeps
    | (refine keeps_parts ?_; dsimp only; with_reducible refine keeps_fold ?_)
    | split
    | dsimp only

theorem State.freeSlotOf_keeps {lk : Bool} {z : State} {s : State} {e : EngRef} {op : IssuedOp}
    (hz : Keeps lk z s) : Keeps lk z (State.freeSlotOf s e op) := by
  unfold State.freeSlotOf
  try dsimp only
  repeat' first
    | with_reducible assumption
    | with_reducible apply State.modCx_keeps
    | (refine keeps_parts ?_; dsimp only; with_reducible refine keeps_fold ?_)
    | split
    | dsimp only

theorem State.modSlot_keeps {lk : Bool} {z : State} {s : State} {j : Nat} {f : SlotSt → SlotSt}
    (hz : Keeps lk z s) : Keeps lk z (State.modSlot s j f) := by
  unfold State.modSlot
  try dsimp only
  repeat' first
    | with_reducible assumption
    | (refine keeps_parts ?_; dsimp only; with_reducible refine keeps_fold ?_)
    | split
    | dsimp only

theorem State.sendPacing_keeps {lk : Bool} {z : State} {s : State} {j : Nat} {tag : Byte} {phase : BitVec 8}
    (hz : Keeps lk z s) : Keeps lk z (State.sendPacing s j tag phase) := by
  unfold State.sendPacing
  try dsimp only
  repeat' first
    | with_reducible assumption
    | with_reducible apply State.sendOn_keeps
    | (refine keeps_parts ?_; dsimp only; with_reducible refine keeps_fold ?_)
    | split
    | dsimp only

theorem State.slotMiss_keeps {lk : Bool} {z : State} {s : State} {j : Nat}
    (hz : Keeps lk z s) : Keeps lk z (State.slotMiss s j) := by
  unfold State.slotMiss
  try dsimp only
  repeat' first
    | with_reducible assumption
    | with_reducible first | apply State.modSlot_keeps | apply State.sendPacing_keeps
    | (refine keeps_parts ?_; dsimp only; with_reducible refine keeps_fold ?_)
    | split
    | dsimp only

theorem State.countPhase_keeps {lk : Bool} {z : State} {s : State} {j : Nat} {p : PhaseStamp} {o : PhaseCount}
    (hz : Keeps lk z s) : Keeps lk z (State.countPhase s j p o) := by
  unfold State.countPhase
  try dsimp only
  repeat' first
    | with_reducible assumption
    | with_reducible first | apply State.modSlot_keeps | apply State.slotMiss_keeps
    | (refine keeps_parts ?_; dsimp only; with_reducible refine keeps_fold ?_)
    | split
    | dsimp only

theorem State.classify_keeps {lk : Bool} {z : State} {s : State} {j : Nat} {p : PhaseStamp}
    (hz : Keeps lk z s) : Keeps lk z (State.classify s j p) := by
  unfold State.classify
  try dsimp only
  repeat' first
    | with_reducible assumption
    | with_reducible apply State.countPhase_keeps
    | (refine keeps_parts ?_; dsimp only; with_reducible refine keeps_fold ?_)
    | split
    | dsimp only

theorem State.stampPhase_keeps {lk : Bool} {z : State} {s : State} {j : Nat} {h : MsgHdr} {first last : Nat}
    (hz : Keeps lk z s) : Keeps lk z (State.stampPhase s j h first last) := by
  unfold State.stampPhase
  try dsimp only
  repeat' first
    | with_reducible assumption
    | with_reducible first | apply State.modSlot_keeps | apply State.classify_keeps
    | (refine keeps_parts ?_; dsimp only; with_reducible refine keeps_fold ?_)
    | split
    | dsimp only

end Sys2Proof.Machine
end

