-- ==== Sys2Proof/Laws/KeepHbm.lean ====
section
/-! SUPPORT. The effects of Machine/Hbm.lean keep queue, fuses, canonical memories and locks. -/

namespace Sys2Proof.Machine

theorem State.scrubNow_keeps {lk : Bool} {z s : State} {k : Nat} {errs : List SymErr} (hz : Keeps lk z s) :
    Keeps lk z (s.scrubNow k errs) :=
  State.modStack_keeps (State.hbmLines_keeps (keeps_mem hz corrupt_wf))

theorem State.track_keeps {lk : Bool} {z : State} {s : State} {k : Nat} {differ : Bool}
    (hz : Keeps lk z s) : Keeps lk z (State.track s k differ) := by
  unfold State.track
  try dsimp only
  repeat' first
    | with_reducible assumption
    | (refine keeps_parts ?_; dsimp only; with_reducible refine keeps_fold ?_)
    | split
    | dsimp only

theorem State.setPair_keeps {lk : Bool} {z : State} {s : State} {i : Nat} {p : PairReading}
    (hz : Keeps lk z s) : Keeps lk z (State.setPair s i p) := by
  unfold State.setPair
  try dsimp only
  repeat' first
    | with_reducible assumption
    | with_reducible apply State.track_keeps
    | (refine keeps_parts ?_; dsimp only; with_reducible refine keeps_fold ?_)
    | split
    | dsimp only

theorem State.toBand_keeps {lk : Bool} {z : State} {s : State} {k : Nat} {b : Band}
    (hz : Keeps lk z s) : Keeps lk z (State.toBand s k b) := by
  unfold State.toBand
  try dsimp only
  repeat' first
    | with_reducible assumption
    | with_reducible first
        | apply State.drainReqs_keeps | apply State.modStack_keeps | apply State.wire_keeps | apply State.refill_keeps
        | apply State.resumeReqs_keeps
    | (refine keeps_parts ?_; dsimp only; with_reducible refine keeps_fold ?_)
    | split
    | dsimp only

theorem State.swapMarket_keeps {lk : Bool} {z : State} {s : State} {io : Nat}
    (hz : Keeps lk z s) : Keeps lk z (State.swapMarket s io) := by
  unfold State.swapMarket
  try dsimp only
  repeat' first
    | with_reducible assumption
    | with_reducible first | apply State.modMkt_keeps | apply State.modMember_keeps | apply State.grantAll_keeps
    | with_reducible refine keeps_foldl ?_ (fun _ _ _ => ?_)
    | with_reducible refine keeps_foldl_fst ?_ (fun _ _ _ => ?_)
    | (refine keeps_parts ?_; dsimp only; with_reducible refine keeps_fold ?_)
    | split
    | dsimp only

end Sys2Proof.Machine
end

