-- ==== Sys2Proof/Laws/KeepLinks.lean ====
section
/-! SUPPORT. The effects of Machine/Links.lean keep queue, fuses, canonical memories and locks. -/

namespace Sys2Proof.Machine

theorem State.retrain_keeps {lk : Bool} {z : State} {s : State} {m : Nat}
    (hz : Keeps lk z s) : Keeps lk z (State.retrain s m) := by
  unfold State.retrain
  try dsimp only
  repeat' first
    | with_reducible assumption
    | with_reducible first | apply State.withdraw_keeps | apply State.modMember_keeps | apply State.resend_keeps
    | (refine keeps_parts ?_; dsimp only; with_reducible refine keeps_fold ?_)
    | split
    | dsimp only

theorem State.marginEvent_keeps {lk : Bool} {z : State} {s : State} {m : Nat}
    (hz : Keeps lk z s) : Keeps lk z (State.marginEvent s m) := by
  unfold State.marginEvent
  try dsimp only
  repeat' first
    | with_reducible assumption
    | with_reducible apply State.modMember_keeps
    | (refine keeps_parts ?_; dsimp only; with_reducible refine keeps_fold ?_)
    | split
    | dsimp only

theorem State.replayEvent_keeps {lk : Bool} {z : State} {s : State} {m : Nat}
    (hz : Keeps lk z s) : Keeps lk z (State.replayEvent s m) := by
  unfold State.replayEvent
  try dsimp only
  repeat' first
    | with_reducible assumption
    | with_reducible first | apply State.modMember_keeps | apply State.withdraw_keeps
    | (refine keeps_parts ?_; dsimp only; with_reducible refine keeps_fold ?_)
    | split
    | dsimp only

theorem State.uncorrEvent_keeps {lk : Bool} {z : State} {s : State} {m : Nat}
    (hz : Keeps lk z s) : Keeps lk z (State.uncorrEvent s m) := by
  unfold State.uncorrEvent
  try dsimp only
  repeat' first
    | with_reducible assumption
    | with_reducible first | apply State.modMember_keeps | apply State.withdraw_keeps
    | (refine keeps_parts ?_; dsimp only; with_reducible refine keeps_fold ?_)
    | split
    | dsimp only

theorem State.sendVc_keeps {lk : Bool} {z : State} {s : State} {m vc : Nat} {t : TxMsg}
    (hz : Keeps lk z s) : Keeps lk z (State.sendVc s m vc t) := by
  unfold State.sendVc
  try dsimp only
  repeat' first
    | with_reducible assumption
    | with_reducible first | apply State.modSlot_keeps | apply State.modMember_keeps | apply State.wire_keeps
    | (refine keeps_parts ?_; dsimp only; with_reducible refine keeps_fold ?_)
    | split
    | dsimp only

theorem State.sendCtrl_keeps {lk : Bool} {z : State} {s : State} {m : Nat}
    (hz : Keeps lk z s) : Keeps lk z (State.sendCtrl s m) := by
  unfold State.sendCtrl
  try dsimp only
  repeat' first
    | with_reducible assumption
    | with_reducible first | apply State.modMember_keeps | apply State.wire_keeps
    | (refine keeps_parts ?_; dsimp only; with_reducible refine keeps_fold ?_)
    | split
    | dsimp only

theorem State.sendPick_keeps {lk : Bool} {z s : State} {m : Nat} {p : SlotPick}
    (hz : Keeps lk z s) : Keeps lk z (s.sendPick m p) := by
  unfold State.sendPick
  repeat' first
    | with_reducible assumption
    | with_reducible first | apply State.sendCtrl_keeps | apply State.sendVc_keeps | apply State.modMember_keeps
    | split

theorem State.noteStall_keeps {lk : Bool} {z : State} {s : State} {j : Nat} {n : BitVec 32}
    (hz : Keeps lk z s) : Keeps lk z (State.noteStall s j n) := by
  unfold State.noteStall
  try dsimp only
  repeat' first
    | with_reducible assumption
    | with_reducible apply State.modMkt_keeps
    | (refine keeps_parts ?_; dsimp only; with_reducible refine keeps_fold ?_)
    | split
    | dsimp only

theorem State.nakOn_keeps {lk : Bool} {z : State} {s : State} {m seq : Nat}
    (hz : Keeps lk z s) : Keeps lk z (State.nakOn s m seq) := by
  unfold State.nakOn
  try dsimp only
  repeat' first
    | with_reducible assumption
    | with_reducible first
        | apply State.retrain_keeps | apply State.modMember_keeps | apply State.resend_keeps
        | apply State.replayEvent_keeps
    | (refine keeps_parts ?_; dsimp only; with_reducible refine keeps_fold ?_)
    | split
    | dsimp only

theorem State.peerState_keeps {lk : Bool} {z : State} {s : State} {m : Nat} {v : BitVec 8}
    (hz : Keeps lk z s) : Keeps lk z (State.peerState s m v) := by
  unfold State.peerState
  try dsimp only
  repeat' first
    | with_reducible assumption
    | with_reducible first
        | apply State.modMember_keeps | apply State.resend_keeps | apply State.dropParts_keeps
        | apply State.withdraw_keeps
    | (refine keeps_parts ?_; dsimp only; with_reducible refine keeps_fold ?_)
    | split
    | dsimp only

theorem State.modExch_keeps {lk : Bool} {z : State} {s : State} {m : Nat} {num : BitVec 8} {f : ExchSt → ExchSt}
    (hz : Keeps lk z s) : Keeps lk z (State.modExch s m num f) := by
  unfold State.modExch
  try dsimp only
  repeat' first
    | with_reducible assumption
    | (refine keeps_parts ?_; dsimp only; with_reducible refine keeps_fold ?_)
    | split
    | dsimp only

theorem State.gotT1f_keeps {lk : Bool} {z : State} {s : State} {m : Nat} {num : BitVec 8} {t1 : BitVec 64}
    (hz : Keeps lk z s) : Keeps lk z (State.gotT1f s m num t1) := by
  unfold State.gotT1f
  try dsimp only
  repeat' first
    | with_reducible assumption
    | with_reducible first | apply State.modExch_keeps | apply State.modMember_keeps
    | (refine keeps_parts ?_; dsimp only; with_reducible refine keeps_fold ?_)
    | split
    | dsimp only

theorem State.followed_keeps {lk : Bool} {z : State} {s : State}
    (hz : Keeps lk z s) : Keeps lk z (State.followed s) := by
  unfold State.followed
  try dsimp only
  repeat' first
    | with_reducible assumption
    | with_reducible apply State.reply_keeps
    | (refine keeps_parts ?_; dsimp only; with_reducible refine keeps_fold ?_)
    | split
    | dsimp only

theorem State.gotT4_keeps {lk : Bool} {z : State} {s : State} {m : Nat} {num : BitVec 8} {t4 : BitVec 64}
    (hz : Keeps lk z s) : Keeps lk z (State.gotT4 s m num t4) := by
  unfold State.gotT4
  try dsimp only
  repeat' first
    | with_reducible assumption
    | with_reducible apply State.followed_keeps
    | (refine keeps_parts ?_; dsimp only; with_reducible refine keeps_fold ?_)
    | split
    | dsimp only

theorem State.ctrlRec_keeps {lk : Bool} {z : State} {s : State} {m : Nat} {r : Nat}
    (hz : Keeps lk z s) : Keeps lk z (State.ctrlRec s m r) := by
  unfold State.ctrlRec
  try dsimp only
  repeat' first
    | with_reducible assumption
    | with_reducible first
        | apply State.modMember_keeps | apply State.nakOn_keeps | apply State.peerState_keeps
        | apply State.modExch_keeps | apply State.gotT1f_keeps | apply State.gotT4_keeps
    | (refine keeps_parts ?_; dsimp only; with_reducible refine keeps_fold ?_)
    | split
    | dsimp only

theorem State.refuse_keeps {lk : Bool} {z : State} {s : State} {m : Nat}
    (hz : Keeps lk z s) : Keeps lk z (State.refuse s m) := by
  unfold State.refuse
  try dsimp only
  repeat' first
    | with_reducible assumption
    | with_reducible apply State.modMember_keeps
    | (refine keeps_parts ?_; dsimp only; with_reducible refine keeps_fold ?_)
    | split
    | dsimp only

theorem State.badFlit_keeps {lk : Bool} {z : State} {s : State} {m : Nat}
    (hz : Keeps lk z s) : Keeps lk z (State.badFlit s m) := by
  unfold State.badFlit
  try dsimp only
  repeat' first
    | with_reducible assumption
    | with_reducible first | apply State.modMember_keeps | apply State.refuse_keeps | apply State.uncorrEvent_keeps
    | (refine keeps_parts ?_; dsimp only; with_reducible refine keeps_fold ?_)
    | split
    | dsimp only

theorem State.takeBuf_keeps {lk : Bool} {z : State} {s : State} {m vc cls : Nat}
    (hz : Keeps lk z s) : Keeps lk z (State.takeBuf s m vc cls).1 := by
  unfold State.takeBuf
  try dsimp only
  repeat' first
    | with_reducible assumption
    | with_reducible first | apply State.modMkt_keeps | apply State.modMember_keeps
    | (refine keeps_parts ?_; dsimp only; with_reducible refine keeps_fold ?_)
    | split
    | dsimp only

theorem State.fillBuf_keeps {lk : Bool} {z : State} {s : State} {m : Nat} {p : Partial} {body : Bytes}
    (hz : Keeps lk z s) : Keeps lk z (State.fillBuf s m p body) := by
  unfold State.fillBuf
  try dsimp only
  repeat' first
    | with_reducible assumption
    | with_reducible apply State.marketWrite_keeps
    | (refine keeps_parts ?_; dsimp only; with_reducible refine keeps_fold ?_)
    | split
    | dsimp only

theorem State.wholeMsg_keeps {lk : Bool} {z : State} {s : State} {m vc : Nat} {p : Partial} {now : Nat}
    (hz : Keeps lk z s) : Keeps lk z (State.wholeMsg s m vc p now) := by
  unfold State.wholeMsg
  try dsimp only
  repeat' first
    | with_reducible assumption
    | with_reducible first | apply State.freeOf_keeps | apply State.modMember_keeps | apply State.stampPhase_keeps
    | (refine keeps_parts ?_; dsimp only; with_reducible refine keeps_fold ?_)
    | split
    | dsimp only

theorem State.wholeInner_keeps {lk : Bool} {z : State} {s : State} {m vc : Nat} {p : Partial}
    (hz : Keeps lk z s) : Keeps lk z (State.wholeInner s m vc p) := by
  unfold State.wholeInner
  try dsimp only
  repeat' first
    | with_reducible assumption
    | with_reducible apply State.innerIn_keeps
    | (refine keeps_parts ?_; dsimp only; with_reducible refine keeps_fold ?_)
    | split
    | dsimp only

theorem State.joinPart_keeps {lk : Bool} {z : State} {s : State} {m : Nat} {f : Flit}
    (hz : Keeps lk z s) : Keeps lk z (State.joinPart s m f) := by
  unfold State.joinPart
  try dsimp only
  repeat' first
    | with_reducible assumption
    | with_reducible first
        | apply State.freeOf_keeps | apply State.takeBuf_keeps | apply State.fillBuf_keeps
        | apply State.modMember_keeps | apply State.wholeMsg_keeps | apply State.wholeInner_keeps
    | (refine keeps_parts ?_; dsimp only; with_reducible refine keeps_fold ?_)
    | split
    | dsimp only

theorem State.goodFlit_keeps {lk : Bool} {z : State} {s : State} {m : Nat} {f : Flit}
    (hz : Keeps lk z s) : Keeps lk z (State.goodFlit s m f) := by
  unfold State.goodFlit
  try dsimp only
  repeat' first
    | with_reducible assumption
    | with_reducible first
        | apply State.ctrlRec_keeps | apply State.refuse_keeps | apply State.modMember_keeps
        | apply State.joinPart_keeps
    | with_reducible refine keeps_foldl ?_ (fun _ _ _ => ?_)
    | with_reducible refine keeps_foldl_fst ?_ (fun _ _ _ => ?_)
    | (refine keeps_parts ?_; dsimp only; with_reducible refine keeps_fold ?_)
    | split
    | dsimp only

theorem State.tellCredit_keeps {lk : Bool} {z : State} {s : State} {io j vc cls : Nat}
    (hz : Keeps lk z s) : Keeps lk z (State.tellCredit s io j vc cls) := by
  unfold State.tellCredit
  try dsimp only
  repeat' first
    | with_reducible assumption
    | with_reducible apply State.grant_keeps
    | (refine keeps_parts ?_; dsimp only; with_reducible refine keeps_fold ?_)
    | split
    | dsimp only

end Sys2Proof.Machine
end

