-- ==== Sys2Proof/Laws/KeepMessages.lean ====
section
/-! SUPPORT. The effects of Machine/Messages.lean keep queue, fuses, canonical memories and locks. -/

namespace Sys2Proof.Machine

theorem State.forward_keeps {lk : Bool} {z s q : State} {r : RxMsg} (hz : Keeps lk z s) (hq : s.forward r = some q) :
    Keeps lk z q := by
  unfold State.forward at hq
  extract_lets h from_ gone at hq
  have kg : Keeps lk z gone := State.freeOf_keeps hz
  clear_value gone
  split at hq
  · cases hq
    exact kg
  · dsimp only at hq
    obtain ⟨-, hq⟩ := Option.ite_none_left_eq_some.1 hq
    cases hq
    exact State.sendOnward_keeps kg

theorem State.popInbox_keeps {lk : Bool} {z : State} {s : State} {m : Nat}
    (hz : Keeps lk z s) : Keeps lk z (State.popInbox s m) := by
  unfold State.popInbox
  try dsimp only
  repeat' first
    | with_reducible assumption
    | with_reducible apply State.modMember_keeps
    | (refine keeps_parts ?_; dsimp only; with_reducible refine keeps_fold ?_)
    | split
    | dsimp only

theorem State.holdInbox_keeps {lk : Bool} {z : State} {s : State} {m : Nat}
    (hz : Keeps lk z s) : Keeps lk z (State.holdInbox s m) := by
  unfold State.holdInbox
  try dsimp only
  repeat' first
    | with_reducible assumption
    | with_reducible apply State.modMember_keeps
    | (refine keeps_parts ?_; dsimp only; with_reducible refine keeps_fold ?_)
    | split
    | dsimp only

theorem State.deliverCtl_keeps {lk : Bool} {z : State} {s : State} {r : RxMsg}
    (hz : Keeps lk z s) : Keeps lk z (State.deliverCtl s r) := by
  unfold State.deliverCtl
  try dsimp only
  repeat' first
    | with_reducible assumption
    | with_reducible apply State.freeOf_keeps
    | (refine keeps_parts ?_; dsimp only; with_reducible refine keeps_fold ?_)
    | split
    | dsimp only

theorem State.passCtl_some {lk : Bool} {z s q : State} {m : Nat} {r : RxMsg} (hz : Keeps lk z s)
    (hq : s.passCtl m r = some q) : Keeps lk z q := by
  unfold State.passCtl at hq
  split at hq
  · cases hq
    exact State.deliverCtl_keeps (State.popInbox_keeps hz)
  · exact State.forward_keeps (State.popInbox_keeps hz) hq

theorem State.passCtl_keeps {lk : Bool} {z s : State} {m : Nat} {r : RxMsg} (hz : Keeps lk z s) :
    Keeps lk z ((s.passCtl m r).getD s) := by
  cases e : s.passCtl m r with
  | none => exact hz
  | some q => exact State.passCtl_some hz e

theorem State.dropMsg_keeps {lk : Bool} {z : State} {s : State} {m : Nat} {r : RxMsg}
    (hz : Keeps lk z s) : Keeps lk z (State.dropMsg s m r) := by
  unfold State.dropMsg
  try dsimp only
  repeat' first
    | with_reducible assumption
    | with_reducible first | apply State.popInbox_keeps | apply State.freeOf_keeps
    | (refine keeps_parts ?_; dsimp only; with_reducible refine keeps_fold ?_)
    | split
    | dsimp only

theorem State.passNew_keeps {lk : Bool} {z s : State} {m c : Nat} {r : RxMsg} (hz : Keeps lk z s) :
    Keeps lk z (s.passNew m c r) := by
  unfold State.passNew
  dsimp only
  split
  · exact State.passCtl_keeps hz
  · split
    · exact State.dropMsg_keeps hz
    · split
      · exact hz
      · next e => exact State.modStream_keeps (State.passCtl_some hz e)

theorem State.recvHalt_keeps {lk : Bool} {z : State} {s : State} {m : Nat} {r : RxMsg}
    (hz : Keeps lk z s) : Keeps lk z (State.recvHalt s m r) := by
  unfold State.recvHalt
  try dsimp only
  repeat' first
    | with_reducible assumption
    | with_reducible first
        | apply State.dropMsg_keeps | apply State.modXs_keeps | apply State.passNew_keeps | apply State.passCtl_keeps
    | (refine keeps_parts ?_; dsimp only; with_reducible refine keeps_fold ?_)
    | split
    | dsimp only

theorem State.recvCtl_keeps {lk : Bool} {z : State} {s : State} {m : Nat} {r : RxMsg}
    (hz : Keeps lk z s) : Keeps lk z (State.recvCtl s m r) := by
  unfold State.recvCtl
  try dsimp only
  repeat' first
    | with_reducible assumption
    | with_reducible first
        | apply State.recvHalt_keeps | apply State.dropMsg_keeps | apply State.modXs_keeps
        | apply State.holdInbox_keeps | apply State.passCtl_keeps | apply State.passNew_keeps
    | (refine keeps_parts ?_; dsimp only; with_reducible refine keeps_fold ?_)
    | split
    | dsimp only

theorem State.deliverData_keeps {lk : Bool} {z : State} {s : State} {g : Nat} {r : RxMsg}
    (hz : Keeps lk z s) : Keeps lk z (State.deliverData s g r) := by
  unfold State.deliverData
  try dsimp only
  repeat' first
    | with_reducible assumption
    | (refine keeps_parts ?_; dsimp only; with_reducible refine keeps_fold ?_)
    | split
    | dsimp only

theorem State.deliverHeld_keeps {lk : Bool} {z : State} {s : State} {g k : Nat} {q0 : Nat}
    (hz : Keeps lk z s) : Keeps lk z (State.deliverHeld s g k q0) := by
  induction q0 generalizing s with
  | zero =>
    unfold State.deliverHeld
    try dsimp only
    repeat' first
      | with_reducible assumption
      | with_reducible apply State.modStream_keeps
      | with_reducible apply State.deliverData_keeps
      | split
      | dsimp only
      | (refine keeps_parts ?_; dsimp only; with_reducible refine keeps_fold ?_)
  | succ k ih =>
    unfold State.deliverHeld
    try dsimp only
    repeat' first
      | with_reducible assumption
      | with_reducible apply ih
      | with_reducible apply State.modStream_keeps
      | with_reducible apply State.deliverData_keeps
      | split
      | dsimp only
      | (refine keeps_parts ?_; dsimp only; with_reducible refine keeps_fold ?_)

theorem State.clearBuf_keeps {lk : Bool} {z : State} {s : State} {r : RxMsg}
    (hz : Keeps lk z s) : Keeps lk z (State.clearBuf s r) := by
  unfold State.clearBuf
  try dsimp only
  repeat' first
    | with_reducible assumption
    | with_reducible apply State.marketWrite_keeps
    | (refine keeps_parts ?_; dsimp only; with_reducible refine keeps_fold ?_)
    | split
    | dsimp only

theorem State.recvData_keeps {lk : Bool} {z : State} {s : State} {m : Nat} {r : RxMsg}
    (hz : Keeps lk z s) : Keeps lk z (State.recvData s m r) := by
  unfold State.recvData
  try dsimp only
  repeat' first
    | with_reducible assumption
    | with_reducible first
        | apply State.dropMsg_keeps | apply State.modXs_keeps | apply State.holdInbox_keeps
        | apply State.modMember_keeps | apply State.abortAll_keeps | apply State.popInbox_keeps
        | apply State.clearBuf_keeps | apply State.modStream_keeps | apply State.deliverData_keeps
        | apply State.deliverHeld_keeps
    | (refine keeps_parts ?_; dsimp only; with_reducible refine keeps_fold ?_)
    | split
    | dsimp only

end Sys2Proof.Machine
end

