-- ==== Sys2Proof/Laws/KeepCollective.lean ====
section
/-! SUPPORT. The effects of Machine/Collective.lean keep queue, fuses, canonical memories and locks. -/

namespace Sys2Proof.Machine

theorem State.setSlot_keeps {lk : Bool} {z : State} {s : State} {die i : Nat} {k : CxSlot}
    (hz : Keeps lk z s) : Keeps lk z (State.setSlot s die i k) := by
  unfold State.setSlot
  try dsimp only
  repeat' first
    | with_reducible assumption
    | with_reducible apply State.modCx_keeps
    | (refine keeps_parts ?_; dsimp only; with_reducible refine keeps_fold ?_)
    | split
    | dsimp only

theorem State.modSlotOf_keeps {lk : Bool} {z : State} {s : State} {c : Coll} {f : CxSlot → CxSlot}
    (hz : Keeps lk z s) : Keeps lk z (State.modSlotOf s c f) := by
  unfold State.modSlotOf
  try dsimp only
  repeat' first
    | with_reducible assumption
    | with_reducible apply State.setSlot_keeps
    | (refine keeps_parts ?_; dsimp only; with_reducible refine keeps_fold ?_)
    | split
    | dsimp only

theorem State.finishSlot_keeps {lk : Bool} {z : State} {s : State} {die i : Nat}
    (hz : Keeps lk z s) : Keeps lk z (State.finishSlot s die i) := by
  unfold State.finishSlot
  try dsimp only
  repeat' first
    | with_reducible assumption
    | with_reducible first | apply State.setSlot_keeps | apply State.setEng_keeps
    | (refine keeps_parts ?_; dsimp only; with_reducible refine keeps_fold ?_)
    | split
    | dsimp only

theorem State.takeRx_keeps {lk : Bool} {z : State} {s : State} {c : Coll} {key n : Nat}
    (hz : Keeps lk z s) : Keeps lk z (State.takeRx s c key n).1 := by
  unfold State.takeRx
  try dsimp only
  repeat' first
    | with_reducible assumption
    | with_reducible first | apply State.parFaults_keeps | apply State.freeChunk_keeps
    | with_reducible refine keeps_foldl ?_ (fun _ _ _ => ?_)
    | with_reducible refine keeps_foldl_fst ?_ (fun _ _ _ => ?_)
    | (refine keeps_parts ?_; dsimp only; with_reducible refine keeps_fold ?_)
    | split
    | dsimp only

theorem State.takeFrom_keeps {lk : Bool} {z : State} {s : State} {c : Coll} {k n : Nat}
    (hz : Keeps lk z s) : Keeps lk z (State.takeFrom s c k n).1 := by
  unfold State.takeFrom
  try dsimp only
  repeat' first
    | with_reducible assumption
    | with_reducible first | apply State.modCx_keeps | apply State.takeRx_keeps
    | (refine keeps_parts ?_; dsimp only; with_reducible refine keeps_fold ?_)
    | split
    | dsimp only

theorem State.sendRank_keeps {lk : Bool} {z : State} {s : State} {c : Coll} {k : Nat} {bs : Bytes}
    (hz : Keeps lk z s) : Keeps lk z (State.sendRank s c k bs) := by
  unfold State.sendRank
  try dsimp only
  repeat' first
    | with_reducible assumption
    | with_reducible first | apply State.innerSend_keeps | apply State.sendOn_keeps
    | with_reducible refine keeps_foldl ?_ (fun _ _ _ => ?_)
    | with_reducible refine keeps_foldl_fst ?_ (fun _ _ _ => ?_)
    | (refine keeps_parts ?_; dsimp only; with_reducible refine keeps_fold ?_)
    | split
    | dsimp only

theorem State.gather_keeps {lk : Bool} {z : State} {s : State} {c : Coll} {k n : Nat}
    (hz : Keeps lk z s) : Keeps lk z (State.gather s c k n).1 := by
  unfold State.gather
  try dsimp only
  repeat' first
    | with_reducible assumption
    | with_reducible first | apply State.takeFrom_keeps | apply State.modSlotOf_keeps
    | (refine keeps_parts ?_; dsimp only; with_reducible refine keeps_fold ?_)
    | split
    | dsimp only

theorem State.readRange_keeps {lk : Bool} {z : State} {s : State} {c : Coll} {w : BitVec 16} {addr total b n : Nat}
    (hz : Keeps lk z s) : Keeps lk z (State.readRange s c w addr total b n).1 := by
  unfold State.readRange
  try dsimp only
  repeat' first
    | with_reducible assumption
    | with_reducible apply State.physRead_keeps
    | (refine keeps_parts ?_; dsimp only; with_reducible refine keeps_fold ?_)
    | split
    | dsimp only

theorem State.writeRange_keeps {lk : Bool} {z : State} {s : State} {c : Coll} {w : BitVec 16} {addr total b n : Nat} {bs : Bytes}
    (hz : Keeps lk z s) : Keeps lk z (State.writeRange s c w addr total b n bs) := by
  unfold State.writeRange
  try dsimp only
  repeat' first
    | with_reducible assumption
    | with_reducible apply State.physWrite_keeps
    | (refine keeps_parts ?_; dsimp only; with_reducible refine keeps_fold ?_)
    | split
    | dsimp only

theorem State.terms_keeps {lk : Bool} {z : State} {s : State} {c : Coll} {level b n : Nat}
    (hz : Keeps lk z s) : Keeps lk z (State.terms s c level b n).1 := by
  unfold State.terms
  try dsimp only
  repeat' first
    | with_reducible assumption
    | with_reducible apply State.physRead_keeps
    | (refine keeps_parts ?_; dsimp only; with_reducible refine keeps_fold ?_)
    | split
    | dsimp only

theorem State.sendComp_keeps {lk : Bool} {z : State} {s : State} {c : Coll} {b : Nat} {ps : List (BitVec 32)}
    (hz : Keeps lk z s) : Keeps lk z (State.sendComp s c b ps).1 := by
  unfold State.sendComp
  try dsimp only
  repeat' first
    | with_reducible assumption
    | with_reducible first | apply State.physRead_keeps | apply State.physWrite_keeps
    | (refine keeps_parts ?_; dsimp only; with_reducible refine keeps_fold ?_)
    | split
    | dsimp only

theorem State.journalResiduals_keeps {lk : Bool} {z : State} {s : State} {c : Coll}
    (hz : Keeps lk z s) : Keeps lk z (State.journalResiduals s c) := by
  unfold State.journalResiduals
  try dsimp only
  repeat' first
    | with_reducible assumption
    | with_reducible apply State.journal_keeps
    | with_reducible refine keeps_foldl ?_ (fun _ _ _ => ?_)
    | with_reducible refine keeps_foldl_fst ?_ (fun _ _ _ => ?_)
    | (refine keeps_parts ?_; dsimp only; with_reducible refine keeps_fold ?_)
    | split
    | dsimp only

theorem State.reduceHop_keeps {lk : Bool} {z : State} {s : State} {c : Coll}
    (hz : Keeps lk z s) : Keeps lk z (State.reduceHop s c).1 := by
  unfold State.reduceHop
  try dsimp only
  repeat' first
    | with_reducible assumption
    | with_reducible first
        | apply State.journalResiduals_keeps | apply State.gather_keeps | apply State.terms_keeps
        | apply State.modSlotOf_keeps | apply State.sendComp_keeps | apply State.sendRank_keeps
    | (refine keeps_parts ?_; dsimp only; with_reducible refine keeps_fold ?_)
    | split
    | dsimp only

theorem State.ownShard_keeps {lk : Bool} {z : State} {s : State} {c : Coll}
    (hz : Keeps lk z s) : Keeps lk z (State.ownShard s c) := by
  unfold State.ownShard
  try dsimp only
  repeat' first
    | with_reducible assumption
    | with_reducible first | apply State.writeRange_keeps | apply State.modSlotOf_keeps
    | with_reducible refine keeps_foldl ?_ (fun _ _ _ => ?_)
    | with_reducible refine keeps_foldl_fst ?_ (fun _ _ _ => ?_)
    | (refine keeps_parts ?_; dsimp only; with_reducible refine keeps_fold ?_)
    | split
    | dsimp only

theorem State.addNorm_keeps {lk : Bool} {z : State} {s : State} {c : Coll}
    (hz : Keeps lk z s) : Keeps lk z (State.addNorm s c).1 := by
  unfold State.addNorm
  try dsimp only
  repeat' first
    | with_reducible assumption
    | with_reducible first | apply State.modSlotOf_keeps | apply State.modCx_keeps
    | (refine keeps_parts ?_; dsimp only; with_reducible refine keeps_fold ?_)
    | split
    | dsimp only

theorem State.gatherHop_keeps {lk : Bool} {z : State} {s : State} {c : Coll} {lt : Nat × Nat × Bool}
    (hz : Keeps lk z s) : Keeps lk z (State.gatherHop s c lt).1 := by
  unfold State.gatherHop
  try dsimp only
  repeat' first
    | with_reducible assumption
    | with_reducible first
        | apply State.modSlotOf_keeps | apply State.readRange_keeps | apply State.sendRank_keeps
        | apply State.gather_keeps | apply State.writeRange_keeps
    | (refine keeps_parts ?_; dsimp only; with_reducible refine keeps_fold ?_)
    | split
    | dsimp only

theorem State.reduceStep_keeps {lk : Bool} {z : State} {s : State} {c : Coll}
    (hz : Keeps lk z s) : Keeps lk z (State.reduceStep s c).1 := by
  unfold State.reduceStep
  try dsimp only
  repeat' first
    | with_reducible assumption
    | with_reducible first
        | apply State.reduceHop_keeps | apply State.ownShard_keeps | apply State.addNorm_keeps
        | apply State.finishSlot_keeps | apply State.gatherHop_keeps
    | (refine keeps_parts ?_; dsimp only; with_reducible refine keeps_fold ?_)
    | split
    | dsimp only

theorem State.gatherStep_keeps {lk : Bool} {z : State} {s : State} {c : Coll}
    (hz : Keeps lk z s) : Keeps lk z (State.gatherStep s c).1 := by
  unfold State.gatherStep
  try dsimp only
  repeat' first
    | with_reducible assumption
    | with_reducible first
        | apply State.readRange_keeps | apply State.writeRange_keeps | apply State.modSlotOf_keeps
        | apply State.gatherHop_keeps | apply State.finishSlot_keeps
    | (refine keeps_parts ?_; dsimp only; with_reducible refine keeps_fold ?_)
    | split
    | dsimp only

theorem State.castStep_keeps {lk : Bool} {z : State} {s : State} {c : Coll}
    (hz : Keeps lk z s) : Keeps lk z (State.castStep s c).1 := by
  unfold State.castStep
  try dsimp only
  repeat' first
    | with_reducible assumption
    | with_reducible first
        | apply State.readRange_keeps | apply State.gather_keeps | apply State.writeRange_keeps
        | apply State.sendRank_keeps | apply State.finishSlot_keeps
    | with_reducible refine keeps_foldl ?_ (fun _ _ _ => ?_)
    | with_reducible refine keeps_foldl_fst ?_ (fun _ _ _ => ?_)
    | (refine keeps_parts ?_; dsimp only; with_reducible refine keeps_fold ?_)
    | split
    | dsimp only

theorem State.runHops_keeps {lk : Bool} {z s : State} {die i fuel : Nat} {step : State → Coll → State × Bool}
    (hs : ∀ a c, Keeps lk z a → Keeps lk z (step a c).1) (hz : Keeps lk z s) : Keeps lk z (s.runHops die i step fuel) := by
  induction fuel generalizing s with
  | zero => exact hz
  | succ k ih =>
    unfold State.runHops
    split
    · exact hz
    · split
      · exact hz
      · dsimp only
        split
        · exact ih (hs _ _ hz)
        · exact hs _ _ hz

theorem State.runCx_keeps {lk : Bool} {z s : State} {c : Coll} {o : HwObs} {step : State → Coll → State × Bool}
    {fuel : Nat} (hz : Keeps lk z s) (hs : ∀ a c, Keeps lk z a → Keeps lk z (step a c).1) :
    Keeps lk z (s.runCx c o step fuel) :=
  State.observe_keeps (State.runHops_keeps hs (State.strikes_keeps hz))

theorem State.meetBarrier_keeps {lk : Bool} {z : State} {s : State} {c : Coll}
    (hz : Keeps lk z s) : Keeps lk z (State.meetBarrier s c) := by
  unfold State.meetBarrier
  try dsimp only
  repeat' first
    | with_reducible assumption
    | with_reducible first | apply State.setSlot_keeps | apply State.modSlotOf_keeps
    | with_reducible refine keeps_foldl ?_ (fun _ _ _ => ?_)
    | with_reducible refine keeps_foldl_fst ?_ (fun _ _ _ => ?_)
    | (refine keeps_parts ?_; dsimp only; with_reducible refine keeps_fold ?_)
    | split
    | dsimp only

theorem State.endBarrier_keeps {lk : Bool} {z : State} {s : State} {die i : Nat}
    (hz : Keeps lk z s) : Keeps lk z (State.endBarrier s die i) := by
  unfold State.endBarrier
  try dsimp only
  repeat' first
    | with_reducible assumption
    | with_reducible apply State.finishSlot_keeps
    | (refine keeps_parts ?_; dsimp only; with_reducible refine keeps_fold ?_)
    | split
    | dsimp only

theorem State.sendBlock_keeps {lk : Bool} {z : State} {s : State} {c : Coll} {h : BlkHdr} {data : Bytes}
    (hz : Keeps lk z s) : Keeps lk z (State.sendBlock s c h data) := by
  unfold State.sendBlock
  try dsimp only
  repeat' first
    | with_reducible assumption
    | with_reducible apply State.sendRank_keeps
    | (refine keeps_parts ?_; dsimp only; with_reducible refine keeps_fold ?_)
    | split
    | dsimp only

theorem State.pullBlock_keeps {lk : Bool} {z : State} {s : State} {c : Coll} {src : Nat}
    (hz : Keeps lk z s) : Keeps lk z (State.pullBlock s c src) := by
  unfold State.pullBlock
  try dsimp only
  repeat' first
    | with_reducible assumption
    | with_reducible first | apply State.takeRx_keeps | apply State.modCx_keeps
    | (refine keeps_parts ?_; dsimp only; with_reducible refine keeps_fold ?_)
    | split
    | dsimp only

theorem State.popBlock_keeps {lk : Bool} {z s : State} {c : Coll} {may : State → BlkHdr → Bool} {src : Nat}
    {q : State × BlkHdr × Bytes} (hz : Keeps lk z s) (hq : s.popBlock c may src = some q) : Keeps lk z q.1 := by
  unfold State.popBlock at hq
  dsimp only at hq
  split at hq
  · cases hq
  · cases hq
    exact State.modCx_keeps hz

theorem State.routes_keeps {lk : Bool} {z : State} {s : State} {c : Coll}
    (hz : Keeps lk z s) : Keeps lk z (State.routes s c).1 := by
  unfold State.routes
  try dsimp only
  repeat' first
    | with_reducible assumption
    | with_reducible apply State.physRead_keeps
    | (refine keeps_parts ?_; dsimp only; with_reducible refine keeps_fold ?_)
    | split
    | dsimp only

theorem State.readRows_keeps {lk : Bool} {z : State} {s : State} {c : Coll} {addrs : List Nat} {row : Nat}
    (hz : Keeps lk z s) : Keeps lk z (State.readRows s c addrs row).1 := by
  unfold State.readRows
  try dsimp only
  repeat' first
    | with_reducible assumption
    | with_reducible apply State.physRead_keeps
    | with_reducible refine keeps_foldl ?_ (fun _ _ _ => ?_)
    | with_reducible refine keeps_foldl_fst ?_ (fun _ _ _ => ?_)
    | (refine keeps_parts ?_; dsimp only; with_reducible refine keeps_fold ?_)
    | split
    | dsimp only

theorem State.dispatchBlock_keeps {lk : Bool} {z : State} {s : State} {c : Coll} {p : A2a} {es : List (Nat × Nat)} {e : Nat}
    (hz : Keeps lk z s) : Keeps lk z (State.dispatchBlock s c p es e).1 := by
  unfold State.dispatchBlock
  try dsimp only
  repeat' first
    | with_reducible assumption
    | with_reducible apply State.readRows_keeps
    | (refine keeps_parts ?_; dsimp only; with_reducible refine keeps_fold ?_)
    | split
    | dsimp only

theorem State.putDispatch_keeps {lk : Bool} {z : State} {s : State} {c : Coll} {p : A2a} {src j : Nat} {data : Bytes}
    (hz : Keeps lk z s) : Keeps lk z (State.putDispatch s c p src j data) := by
  unfold State.putDispatch
  try dsimp only
  repeat' first
    | with_reducible assumption
    | with_reducible apply State.physWrite_keeps
    | (refine keeps_parts ?_; dsimp only; with_reducible refine keeps_fold ?_)
    | split
    | dsimp only

theorem State.putCombine_keeps {lk : Bool} {z : State} {s : State} {c : Coll} {p : A2a} {es : List (Nat × Nat)} {e : Nat} {data : Bytes}
    (hz : Keeps lk z s) : Keeps lk z (State.putCombine s c p es e data) := by
  unfold State.putCombine
  try dsimp only
  repeat' first
    | with_reducible assumption
    | with_reducible apply State.physWrite_keeps
    | with_reducible refine keeps_foldl ?_ (fun _ _ _ => ?_)
    | with_reducible refine keeps_foldl_fst ?_ (fun _ _ _ => ?_)
    | (refine keeps_parts ?_; dsimp only; with_reducible refine keeps_fold ?_)
    | split
    | dsimp only

theorem State.putPermute_keeps {lk : Bool} {z : State} {s : State} {c : Coll} {addr : Nat} {data : Bytes}
    (hz : Keeps lk z s) : Keeps lk z (State.putPermute s c addr data) := by
  unfold State.putPermute
  try dsimp only
  repeat' first
    | with_reducible assumption
    | with_reducible first | apply State.journal_keeps | apply State.physWrite_keeps
    | with_reducible refine keeps_foldl ?_ (fun _ _ _ => ?_)
    | with_reducible refine keeps_foldl_fst ?_ (fun _ _ _ => ?_)
    | (refine keeps_parts ?_; dsimp only; with_reducible refine keeps_fold ?_)
    | split
    | dsimp only

theorem State.takeBlock_keeps {lk : Bool} {z : State} {s : State} {c : Coll} {es : List (Nat × Nat)} {h : BlkHdr} {data : Bytes}
    (hz : Keeps lk z s) : Keeps lk z (State.takeBlock s c es h data) := by
  unfold State.takeBlock
  try dsimp only
  repeat' first
    | with_reducible assumption
    | with_reducible first
        | apply State.sendBlock_keeps | apply State.putDispatch_keeps | apply State.putCombine_keeps
        | apply State.modSlotOf_keeps
    | (refine keeps_parts ?_; dsimp only; with_reducible refine keeps_fold ?_)
    | split
    | dsimp only

theorem State.takeBlocks_keeps {lk : Bool} {z s : State} {c : Coll} {es : List (Nat × Nat)}
    {may : State → BlkHdr → Bool} {fuel : Nat} (hz : Keeps lk z s) : Keeps lk z (s.takeBlocks c es may fuel) := by
  induction fuel generalizing s with
  | zero => exact hz
  | succ k ih =>
    unfold State.takeBlocks
    have h1 : Keeps lk z (c.sources.foldl (fun (a : State) src => a.pullBlock c src) s) :=
      keeps_foldl hz fun _ _ k => State.pullBlock_keeps k
    dsimp only
    split
    · exact h1
    · next t hd data hq =>
      obtain ⟨src, _, hq⟩ := List.exists_of_findSome?_eq_some hq
      exact ih (State.takeBlock_keeps (State.popBlock_keeps h1 hq))

theorem State.a2aStart_keeps {lk : Bool} {z : State} {s : State} {c : Coll} {dispatch : Bool}
    (hz : Keeps lk z s) : Keeps lk z (State.a2aStart s c dispatch) := by
  unfold State.a2aStart
  try dsimp only
  repeat' first
    | with_reducible assumption
    | with_reducible first
        | apply State.routes_keeps | apply State.modCx_keeps | apply State.dispatchBlock_keeps
        | apply State.physRead_keeps | apply State.sendBlock_keeps | apply State.putDispatch_keeps
        | apply State.putCombine_keeps | apply State.physWrite_keeps | apply State.modSlotOf_keeps
    | with_reducible refine keeps_foldl ?_ (fun _ _ _ => ?_)
    | with_reducible refine keeps_foldl_fst ?_ (fun _ _ _ => ?_)
    | (refine keeps_parts ?_; dsimp only; with_reducible refine keeps_fold ?_)
    | split
    | dsimp only

theorem State.a2aStep_keeps {lk : Bool} {z : State} {dispatch : Bool} {s : State} {c : Coll}
    (hz : Keeps lk z s) : Keeps lk z (State.a2aStep dispatch s c).1 := by
  unfold State.a2aStep
  try dsimp only
  repeat' first
    | with_reducible assumption
    | with_reducible first
        | apply State.a2aStart_keeps | apply State.routes_keeps | apply State.takeBlocks_keeps
        | apply State.finishSlot_keeps
    | (refine keeps_parts ?_; dsimp only; with_reducible refine keeps_fold ?_)
    | split
    | dsimp only

theorem State.permEnts_keeps {lk : Bool} {z : State} {s : State} {c : Coll}
    (hz : Keeps lk z s) : Keeps lk z (State.permEnts s c).1 := by
  unfold State.permEnts
  try dsimp only
  repeat' first
    | with_reducible assumption
    | with_reducible apply State.physRead_keeps
    | (refine keeps_parts ?_; dsimp only; with_reducible refine keeps_fold ?_)
    | split
    | dsimp only

theorem State.permRound_keeps {lk : Bool} {z : State} {s : State} {c : Coll} {es : List PermEnt}
    (hz : Keeps lk z s) : Keeps lk z (State.permRound s c es) := by
  unfold State.permRound
  try dsimp only
  repeat' first
    | with_reducible assumption
    | with_reducible first | apply State.physRead_keeps | apply State.sendBlock_keeps | apply State.modSlotOf_keeps
    | with_reducible refine keeps_foldl ?_ (fun _ _ _ => ?_)
    | with_reducible refine keeps_foldl_fst ?_ (fun _ _ _ => ?_)
    | (refine keeps_parts ?_; dsimp only; with_reducible refine keeps_fold ?_)
    | split
    | dsimp only

theorem State.permWrite_keeps {lk : Bool} {z : State} {s : State} {c : Coll}
    (hz : Keeps lk z s) : Keeps lk z (State.permWrite s c) := by
  unfold State.permWrite
  try dsimp only
  repeat' first
    | with_reducible assumption
    | with_reducible first | apply State.putPermute_keeps | apply State.modSlotOf_keeps
    | with_reducible refine keeps_foldl ?_ (fun _ _ _ => ?_)
    | with_reducible refine keeps_foldl_fst ?_ (fun _ _ _ => ?_)
    | (refine keeps_parts ?_; dsimp only; with_reducible refine keeps_fold ?_)
    | split
    | dsimp only

theorem State.permStep_keeps {lk : Bool} {z : State} {remote : List PermFlow} {s : State} {c : Coll}
    (hz : Keeps lk z s) : Keeps lk z (State.permStep remote s c).1 := by
  unfold State.permStep
  try dsimp only
  repeat' first
    | with_reducible assumption
    | with_reducible first
        | apply State.permEnts_keeps | apply State.permRound_keeps | apply State.modSlotOf_keeps
        | apply State.takeBlocks_keeps | apply State.finishSlot_keeps | apply State.permWrite_keeps
    | with_reducible refine keeps_foldl ?_ (fun _ _ _ => ?_)
    | with_reducible refine keeps_foldl_fst ?_ (fun _ _ _ => ?_)
    | (refine keeps_parts ?_; dsimp only; with_reducible refine keeps_fold ?_)
    | split
    | dsimp only

theorem State.formNorm_keeps {lk : Bool} {z : State} {s : State} {die : Nat} {remote : List (BitVec 48)}
    (hz : Keeps lk z s) : Keeps lk z (State.formNorm s die remote) := by
  unfold State.formNorm
  try dsimp only
  repeat' first
    | with_reducible assumption
    | with_reducible first | apply State.modCx_keeps | apply State.setSlot_keeps | apply State.finishSlot_keeps
    | (refine keeps_parts ?_; dsimp only; with_reducible refine keeps_fold ?_)
    | split
    | dsimp only

end Sys2Proof.Machine
end

