-- ==== Sys2Proof/Laws/KeepCitis.lean ====
section
/-! SUPPORT. The effects of Machine/Citis.lean keep queue, fuses, canonical memories and locks. -/

namespace Sys2Proof.Machine

theorem State.ringFault_keeps {lk : Bool} {z : State} {s : State} {r : Nat}
    (hz : Keeps lk z s) : Keeps lk z (State.ringFault s r) := by
  unfold State.ringFault
  try dsimp only
  repeat' first
    | with_reducible assumption
    | with_reducible apply State.modRing_keeps
    | (refine keeps_parts ?_; dsimp only; with_reducible refine keeps_fold ?_)
    | split
    | dsimp only

theorem State.takeEntry_keeps {lk : Bool} {z : State} {s : State} {r : Nat} {p : BitVec 512}
    (hz : Keeps lk z s) : Keeps lk z (State.takeEntry s r p) := by
  unfold State.takeEntry
  try dsimp only
  repeat' first
    | with_reducible assumption
    | with_reducible apply State.modRing_keeps
    | (refine keeps_parts ?_; dsimp only; with_reducible refine keeps_fold ?_)
    | split
    | dsimp only

theorem State.pumpRing_keeps {lk : Bool} {z : State} {s : State} {r : Nat} {q0 : Nat}
    (hz : Keeps lk z s) : Keeps lk z (State.pumpRing s r q0) := by
  induction q0 generalizing s with
  | zero =>
    unfold State.pumpRing
    try dsimp only
    repeat' first
      | with_reducible assumption
      | with_reducible apply State.ringFault_keeps
      | with_reducible apply State.takeEntry_keeps
      | with_reducible apply State.reply_keeps
      | split
      | dsimp only
      | (refine keeps_parts ?_; dsimp only; with_reducible refine keeps_fold ?_)
  | succ k ih =>
    unfold State.pumpRing
    try dsimp only
    repeat' first
      | with_reducible assumption
      | with_reducible apply ih
      | with_reducible apply State.ringFault_keeps
      | with_reducible apply State.takeEntry_keeps
      | with_reducible apply State.reply_keeps
      | split
      | dsimp only
      | (refine keeps_parts ?_; dsimp only; with_reducible refine keeps_fold ?_)

theorem State.outReply_keeps {lk : Bool} {z : State} {s : State} {r : Nat} {p : BitVec 512} {bs : Bytes} {status detail : Nat}
    (hz : Keeps lk z s) : Keeps lk z (State.outReply s r p bs status detail) := by
  unfold State.outReply
  try dsimp only
  repeat' first
    | with_reducible assumption
    | with_reducible first | apply State.reply_keeps | apply State.hostWrite_keeps
    | (refine keeps_parts ?_; dsimp only; with_reducible refine keeps_fold ?_)
    | split
    | dsimp only

theorem State.refreshCm_keeps {lk : Bool} {z : State} {s : State}
    (hz : Keeps lk z s) : Keeps lk z (State.refreshCm s) := by
  unfold State.refreshCm
  try dsimp only
  repeat' first
    | with_reducible assumption
    | (refine keeps_parts ?_; dsimp only; with_reducible refine keeps_fold ?_)
    | split
    | dsimp only

theorem State.radishResult_keeps {lk : Bool} {z : State} {s : State} {k : RadishRes}
    (hz : Keeps lk z s) : Keeps lk z (State.radishResult s k) := by
  unfold State.radishResult
  try dsimp only
  repeat' first
    | with_reducible assumption
    | with_reducible apply State.report_keeps
    | (refine keeps_parts ?_; dsimp only; with_reducible refine keeps_fold ?_)
    | split
    | dsimp only

end Sys2Proof.Machine
end

