-- ==== Sys2Proof/Laws/KeepPower.lean ====
section
/-! SUPPORT. The effects of Machine/Power.lean keep queue, fuses, canonical memories and locks. -/

namespace Sys2Proof.Machine

theorem State.modDiv_keeps {lk : Bool} {z : State} {s : State} {d : Nat} {f : DivSt → DivSt}
    (hz : Keeps lk z s) : Keeps lk z (State.modDiv s d f) := by
  unfold State.modDiv
  try dsimp only
  repeat' first
    | with_reducible assumption
    | (refine keeps_parts ?_; dsimp only; with_reducible refine keeps_fold ?_)
    | split
    | dsimp only

theorem State.setTarget_keeps {lk : Bool} {z : State} {s : State} {d v : Nat}
    (hz : Keeps lk z s) : Keeps lk z (State.setTarget s d v) := by
  unfold State.setTarget
  try dsimp only
  repeat' first
    | with_reducible assumption
    | with_reducible first | apply State.modDiv_keeps | apply State.modUe_keeps
    | (refine keeps_parts ?_; dsimp only; with_reducible refine keeps_fold ?_)
    | split
    | dsimp only

theorem State.sampled_keeps {lk : Bool} {z : State} {s : State} {xs : List TileSample}
    (hz : Keeps lk z s) : Keeps lk z (State.sampled s xs) := by
  unfold State.sampled
  try dsimp only
  repeat' first
    | with_reducible assumption
    | with_reducible refine keeps_foldl ?_ (fun _ _ _ => ?_)
    | with_reducible refine keeps_foldl_fst ?_ (fun _ _ _ => ?_)
    | (refine keeps_parts ?_; dsimp only; with_reducible refine keeps_fold ?_)
    | split
    | dsimp only

theorem State.thermDie_keeps {lk : Bool} {z : State} {s : State} {d : Nat}
    (hz : Keeps lk z s) : Keeps lk z (State.thermDie s d) := by
  unfold State.thermDie
  try dsimp only
  repeat' first
    | with_reducible assumption
    | with_reducible apply State.modDiv_keeps
    | (refine keeps_parts ?_; dsimp only; with_reducible refine keeps_fold ?_)
    | split
    | dsimp only

theorem State.slowest_keeps {lk : Bool} {z : State} {s : State} {d : Nat}
    (hz : Keeps lk z s) : Keeps lk z (State.slowest s d) := by
  unfold State.slowest
  try dsimp only
  repeat' first
    | with_reducible assumption
    | with_reducible first | apply State.modDiv_keeps | apply State.setTarget_keeps
    | (refine keeps_parts ?_; dsimp only; with_reducible refine keeps_fold ?_)
    | split
    | dsimp only

theorem State.overTempAt_keeps {lk : Bool} {z : State} {s : State} {i : Nat}
    (hz : Keeps lk z s) : Keeps lk z (State.overTempAt s i) := by
  unfold State.overTempAt
  try dsimp only
  repeat' first
    | with_reducible assumption
    | with_reducible first | apply State.slowest_keeps | apply State.wire_keeps
    | with_reducible refine keeps_foldl ?_ (fun _ _ _ => ?_)
    | with_reducible refine keeps_foldl_fst ?_ (fun _ _ _ => ?_)
    | (refine keeps_parts ?_; dsimp only; with_reducible refine keeps_fold ?_)
    | split
    | dsimp only

theorem State.endTrip_keeps {lk : Bool} {z : State} {s : State}
    (hz : Keeps lk z s) : Keeps lk z (State.endTrip s) := by
  unfold State.endTrip
  try dsimp only
  repeat' first
    | with_reducible assumption
    | (refine keeps_parts ?_; dsimp only; with_reducible refine keeps_fold ?_)
    | split
    | dsimp only

theorem State.setTrips_keeps {lk : Bool} {z : State} {s : State} {n0 n1 : Bool}
    (hz : Keeps lk z s) : Keeps lk z (State.setTrips s n0 n1) := by
  unfold State.setTrips
  try dsimp only
  repeat' first
    | with_reducible assumption
    | with_reducible apply State.track_keeps
    | (refine keeps_parts ?_; dsimp only; with_reducible refine keeps_fold ?_)
    | split
    | dsimp only

theorem State.trip_keeps {lk : Bool} {z : State} {s : State} {r : FaultReport}
    (hz : Keeps lk z s) : Keeps lk z (State.trip s r) := by
  unfold State.trip
  try dsimp only
  repeat' first
    | with_reducible assumption
    | with_reducible first | apply State.slowest_keeps | apply State.latch_keeps | apply State.report_keeps
    | with_reducible refine keeps_foldl ?_ (fun _ _ _ => ?_)
    | with_reducible refine keeps_foldl_fst ?_ (fun _ _ _ => ?_)
    | (refine keeps_parts ?_; dsimp only; with_reducible refine keeps_fold ?_)
    | split
    | dsimp only

end Sys2Proof.Machine
end

