-- ==== Sys2Proof/Laws/KeepBoot.lean ====
section
/-! SUPPORT. The effects of Machine/Boot.lean keep queue, fuses, canonical memories and locks. -/

namespace Sys2Proof.Machine

theorem State.cleared_keeps {z s : State} {vaux : Bool} (hz : Keeps false z s) : Keeps false z (s.cleared vaux) := by
  refine hz.trans ⟨rfl, .refl _, fun w => ?_, fun e => by cases e⟩
  simp only [State.memOk, Bool.and_eq_true] at w
  have k := Memory.wf_iff.1 w.1
  simp only [State.memOk, Bool.and_eq_true]
  exact ⟨Memory.wf_iff.2 { Memory.wf_iff.1 Memory.wf_reset with
    spm := Store.wf_undef _, sram := Store.wf_undef _, jd := k.jd, host := k.host }, rfl⟩

theorem State.unfence_keeps {lk : Bool} {z : State} {s : State}
    (hz : Keeps lk z s) : Keeps lk z (State.unfence s) := by
  unfold State.unfence
  try dsimp only
  repeat' first
    | with_reducible assumption
    | with_reducible apply State.setPhysState_keeps
    | with_reducible refine keeps_foldl ?_ (fun _ _ _ => ?_)
    | with_reducible refine keeps_foldl_fst ?_ (fun _ _ _ => ?_)
    | (refine keeps_parts ?_; dsimp only; with_reducible refine keeps_fold ?_)
    | split
    | dsimp only

theorem State.bootStop_keeps {lk : Bool} {z : State} {s : State} {code : BitVec 8}
    (hz : Keeps lk z s) : Keeps lk z (State.bootStop s code) := by
  unfold State.bootStop
  try dsimp only
  repeat' first
    | with_reducible assumption
    | (refine keeps_parts ?_; dsimp only; with_reducible refine keeps_fold ?_)
    | split
    | dsimp only

theorem State.stage2_keeps {lk : Bool} {z : State} {s : State}
    (hz : Keeps lk z s) : Keeps lk z (State.stage2 s) := by
  unfold State.stage2
  try dsimp only
  repeat' first
    | with_reducible assumption
    | with_reducible apply State.refreshCm_keeps
    | (refine keeps_parts ?_; dsimp only; with_reducible refine keeps_fold ?_)
    | split
    | dsimp only

theorem State.trainStack_keeps {lk : Bool} {z : State} {s : State} {b : BootEnv} {k : Nat}
    (hz : Keeps lk z s) : Keeps lk z (State.trainStack s b k) := by
  unfold State.trainStack
  try dsimp only
  repeat' first
    | with_reducible assumption
    | with_reducible first | apply State.jdWrite_keeps | apply State.modStack_keeps
    | (refine keeps_parts ?_; dsimp only; with_reducible refine keeps_fold ?_)
    | split
    | dsimp only

theorem State.trainLink_keeps {lk : Bool} {z : State} {s : State} {b : BootEnv} {i : Nat}
    (hz : Keeps lk z s) : Keeps lk z (State.trainLink s b i) := by
  unfold State.trainLink
  try dsimp only
  repeat' first
    | with_reducible assumption
    | with_reducible first | apply State.modMember_keeps | apply State.bringUp_keeps
    | (refine keeps_parts ?_; dsimp only; with_reducible refine keeps_fold ?_)
    | split
    | dsimp only

theorem State.stage3_keeps {lk : Bool} {z : State} {s : State} {b : BootEnv}
    (hz : Keeps lk z s) : Keeps lk z (State.stage3 s b) := by
  unfold State.stage3
  try dsimp only
  repeat' first
    | with_reducible assumption
    | with_reducible first
        | apply State.trainStack_keeps | apply State.trainLink_keeps | apply State.dieLinkDown_keeps
    | with_reducible refine keeps_foldl ?_ (fun _ _ _ => ?_)
    | with_reducible refine keeps_foldl_fst ?_ (fun _ _ _ => ?_)
    | (refine keeps_parts ?_; dsimp only; with_reducible refine keeps_fold ?_)
    | split
    | dsimp only

theorem State.boot_keeps {z s : State} {b : BootEnv} (hz : Keeps false z s) : Keeps false z (s.boot b) := by
  unfold State.boot
  extract_lets a mem flashed
  have kf : Keeps false z flashed := by
    refine keeps_mem hz fun w => ?_
    unfold flashed mem
    split
    · exact w
    · exact w
  clear_value mem flashed
  split
  · exact State.bootStop_keeps kf
  · next fw copyB _ =>
    dsimp only
    split
    · exact State.bootStop_keeps (keeps_mk kf)
    · have tested := keeps_foldl (l := b.radish) (State.stage3_keeps (b := b) (State.stage2_keeps
        (keeps_mk (t := { flashed with sec := { flashed.sec with copyB := copyB, running := fw } }) kf)))
        fun a k h => State.radishResult_keeps (k := k) h
      refine State.latch_keeps ?_
      exact tested.trans ⟨rfl, ⟨rfl, Nat.le_max_left _ _⟩, fun w => w, fun e => by cases e⟩

theorem State.resetNow_keeps {z : State} {s : State} {cold vaux : Bool} {b : Option BootEnv}
    (hz : Keeps false z s) : Keeps false z (State.resetNow s cold vaux b) := by
  unfold State.resetNow
  try dsimp only
  repeat' first
    | with_reducible assumption
    | with_reducible first | apply State.cleared_keeps | apply State.unfence_keeps | apply State.boot_keeps
    | (refine keeps_parts ?_; dsimp only; with_reducible refine keeps_fold ?_)
    | split
    | dsimp only

theorem State.warmReset_keeps {z : State} {s : State} {b : Option BootEnv}
    (hz : Keeps false z s) : Keeps false z (State.warmReset s b) := by
  unfold State.warmReset
  try dsimp only
  repeat' first
    | with_reducible assumption
    | with_reducible apply State.resetNow_keeps
    | (refine keeps_parts ?_; dsimp only; with_reducible refine keeps_fold ?_)
    | split
    | dsimp only

theorem State.dueReset_keeps {z : State} {s : State}
    (hz : Keeps false z s) : Keeps false z (State.dueReset s) := by
  unfold State.dueReset
  try dsimp only
  repeat' first
    | with_reducible assumption
    | with_reducible apply State.resetNow_keeps
    | (refine keeps_parts ?_; dsimp only; with_reducible refine keeps_fold ?_)
    | split
    | dsimp only

theorem State.powerOff_keeps {z : State} {s : State} {vaux : Bool}
    (hz : Keeps false z s) : Keeps false z (State.powerOff s vaux) := by
  unfold State.powerOff
  try dsimp only
  repeat' first
    | with_reducible assumption
    | with_reducible apply State.cleared_keeps
    | (refine keeps_parts ?_; dsimp only; with_reducible refine keeps_fold ?_)
    | split
    | dsimp only

theorem State.loseSteps_keeps {lk : Bool} {z : State} {s : State}
    (hz : Keeps lk z s) : Keeps lk z (State.loseSteps s) := by
  unfold State.loseSteps
  try dsimp only
  repeat' first
    | with_reducible assumption
    | with_reducible first | apply State.stopStep_keeps | apply State.modCtx_keeps
    | with_reducible refine keeps_foldl ?_ (fun _ _ _ => ?_)
    | with_reducible refine keeps_foldl_fst ?_ (fun _ _ _ => ?_)
    | with_reducible refine State.modCtx_keeps ?_ ?_
    | exact fun _ _ k => k
    | (intro _ _ k; repeat' first | exact k | split)
    | (refine keeps_parts ?_; dsimp only; with_reducible refine keeps_fold ?_)
    | split
    | dsimp only

end Sys2Proof.Machine
end

