-- ==== Sys2Proof/Laws/KeepManage.lean ====
section
/-! SUPPORT. The effects of Machine/Manage.lean keep queue, fuses, canonical memories and locks. -/

namespace Sys2Proof.Machine

theorem State.modFru_keeps {lk : Bool} {z : State} {s : State} {f : FruSt → FruSt}
    (hz : Keeps lk z s) : Keeps lk z (State.modFru s f) := by
  unfold State.modFru
  try dsimp only
  repeat' first
    | with_reducible assumption
    | (refine keeps_parts ?_; dsimp only; with_reducible refine keeps_fold ?_)
    | split
    | dsimp only

theorem State.startFru_keeps {lk : Bool} {z : State} {s : State} {side : FruSide}
    (hz : Keeps lk z s) : Keeps lk z (State.startFru s side) := by
  unfold State.startFru
  try dsimp only
  repeat' first
    | with_reducible assumption
    | with_reducible apply State.modFru_keeps
    | (refine keeps_parts ?_; dsimp only; with_reducible refine keeps_fold ?_)
    | split
    | dsimp only

theorem State.askFru_keeps {lk : Bool} {z : State} {s : State} {side : FruSide}
    (hz : Keeps lk z s) : Keeps lk z (State.askFru s side) := by
  unfold State.askFru
  try dsimp only
  repeat' first
    | with_reducible assumption
    | with_reducible first | apply State.startFru_keeps | apply State.modFru_keeps
    | (refine keeps_parts ?_; dsimp only; with_reducible refine keeps_fold ?_)
    | split
    | dsimp only

theorem State.discardHost_keeps {lk : Bool} {z : State} {s : State}
    (hz : Keeps lk z s) : Keeps lk z (State.discardHost s) := by
  unfold State.discardHost
  try dsimp only
  repeat' first
    | with_reducible assumption
    | with_reducible apply State.modFru_keeps
    | (refine keeps_parts ?_; dsimp only; with_reducible refine keeps_fold ?_)
    | split
    | dsimp only

theorem State.snapHost_keeps {lk : Bool} {z : State} {s : State}
    (hz : Keeps lk z s) : Keeps lk z (State.snapHost s) := by
  unfold State.snapHost
  try dsimp only
  repeat' first
    | with_reducible assumption
    | with_reducible apply State.modFru_keeps
    | (refine keeps_parts ?_; dsimp only; with_reducible refine keeps_fold ?_)
    | split
    | dsimp only

theorem State.respond?_keeps {lk : Bool} {z : State} {s : State} {bs : Bytes}
    (hz : Keeps lk z s) : Keeps lk z (State.respond? s bs) := by
  unfold State.respond?
  try dsimp only
  repeat' first
    | with_reducible assumption
    | (refine keeps_parts ?_; dsimp only; with_reducible refine keeps_fold ?_)
    | split
    | dsimp only

theorem State.sbAnswer_keeps {lk : Bool} {z : State} {s : State} {bs : Bytes}
    (hz : Keeps lk z s) : Keeps lk z (State.sbAnswer s bs) := by
  unfold State.sbAnswer
  try dsimp only
  repeat' first
    | with_reducible assumption
    | (refine keeps_parts ?_; dsimp only; with_reducible refine keeps_fold ?_)
    | split
    | dsimp only

theorem State.sbBadArg_keeps {lk : Bool} {z : State} {s : State}
    (hz : Keeps lk z s) : Keeps lk z (State.sbBadArg s) := by
  unfold State.sbBadArg
  try dsimp only
  repeat' first
    | with_reducible assumption
    | with_reducible apply State.sbAnswer_keeps
    | (refine keeps_parts ?_; dsimp only; with_reducible refine keeps_fold ?_)
    | split
    | dsimp only

end Sys2Proof.Machine
end

