-- ==== Sys2Proof/Laws/KeepBus.lean ====
section
/-! SUPPORT. The effects of Machine/Bus.lean keep queue, fuses, canonical memories and locks. -/

namespace Sys2Proof.Machine

theorem State.modSec_keeps {lk : Bool} {z : State} {s : State} {f : SecSt → SecSt}
    (hz : Keeps lk z s) : Keeps lk z (State.modSec s f) := by
  unfold State.modSec
  try dsimp only
  repeat' first
    | with_reducible assumption
    | (refine keeps_parts ?_; dsimp only; with_reducible refine keeps_fold ?_)
    | split
    | dsimp only

theorem State.seqFail_keeps {lk : Bool} {z : State} {s : State}
    (hz : Keeps lk z s) : Keeps lk z (State.seqFail s) := by
  unfold State.seqFail
  try dsimp only
  repeat' first
    | with_reducible assumption
    | with_reducible apply State.modSec_keeps
    | (refine keeps_parts ?_; dsimp only; with_reducible refine keeps_fold ?_)
    | split
    | dsimp only

theorem State.lockBusy_keeps {lk : Bool} {z : State} {s : State} {a : Agent}
    (hz : Keeps lk z s) : Keeps lk z (State.lockBusy s a) := by
  unfold State.lockBusy
  try dsimp only
  repeat' first
    | with_reducible assumption
    | with_reducible apply State.modSec_keeps
    | (refine keeps_parts ?_; dsimp only; with_reducible refine keeps_fold ?_)
    | split
    | dsimp only

theorem State.hostWrites_keeps {lk : Bool} {z : State} {s : State} {ws : List HostWrite}
    (hz : Keeps lk z s) : Keeps lk z (State.hostWrites s ws) := by
  unfold State.hostWrites
  try dsimp only
  repeat' first
    | with_reducible assumption
    | with_reducible apply State.hostWrite_keeps
    | with_reducible refine keeps_foldl ?_ (fun _ _ _ => ?_)
    | with_reducible refine keeps_foldl_fst ?_ (fun _ _ _ => ?_)
    | (refine keeps_parts ?_; dsimp only; with_reducible refine keeps_fold ?_)
    | split
    | dsimp only

theorem State.ringTail_keeps {lk : Bool} {z : State} {s : State} {r : Nat} {tail : BitVec 16}
    (hz : Keeps lk z s) : Keeps lk z (State.ringTail s r tail) := by
  unfold State.ringTail
  try dsimp only
  repeat' first
    | with_reducible assumption
    | with_reducible first | apply State.modRing_keeps | apply State.pumpRing_keeps
    | (refine keeps_parts ?_; dsimp only; with_reducible refine keeps_fold ?_)
    | split
    | dsimp only

theorem State.ringHead_keeps {lk : Bool} {z : State} {s : State} {r : Nat} {head : BitVec 16}
    (hz : Keeps lk z s) : Keeps lk z (State.ringHead s r head) := by
  unfold State.ringHead
  try dsimp only
  repeat' first
    | with_reducible assumption
    | with_reducible first | apply State.modRing_keeps | apply State.drainWait_keeps | apply State.pumpRing_keeps
    | (refine keeps_parts ?_; dsimp only; with_reducible refine keeps_fold ?_)
    | split
    | dsimp only

theorem State.ringCtl_keeps {lk : Bool} {z : State} {s : State} {r : Nat} {en irqEn : Bool}
    (hz : Keeps lk z s) : Keeps lk z (State.ringCtl s r en irqEn) := by
  unfold State.ringCtl
  try dsimp only
  repeat' first
    | with_reducible assumption
    | with_reducible apply State.modRing_keeps
    | (refine keeps_parts ?_; dsimp only; with_reducible refine keeps_fold ?_)
    | split
    | dsimp only

theorem State.keyWrite_keeps {lk : Bool} {z : State} {s : State} {a : Agent} {v : Nat}
    (hz : Keeps lk z s) : Keeps lk z (State.keyWrite s a v) := by
  unfold State.keyWrite
  try dsimp only
  repeat' first
    | with_reducible assumption
    | with_reducible first | apply State.lockBusy_keeps | apply State.modSec_keeps | apply State.seqFail_keeps
    | (refine keeps_parts ?_; dsimp only; with_reducible refine keeps_fold ?_)
    | split
    | dsimp only

theorem State.loadKey_keeps {lk : Bool} {z : State} {s : State} {c : Nat}
    (hz : Keeps lk z s) : Keeps lk z (State.loadKey s c) := by
  unfold State.loadKey
  try dsimp only
  repeat' first
    | with_reducible assumption
    | with_reducible first | apply State.modSec_keeps | apply State.modCtx_keeps | apply State.seqFail_keeps
    | with_reducible refine State.modCtx_keeps ?_ ?_
    | exact fun _ _ k => k
    | (intro _ _ k; repeat' first | exact k | split)
    | (refine keeps_parts ?_; dsimp only; with_reducible refine keeps_fold ?_)
    | split
    | dsimp only

theorem State.lsecWrite_keeps {lk : Bool} {z : State} {s : State} {c : Nat} {keyed : Bool} {v : Nat}
    (hz : Keeps lk z s) : Keeps lk z (State.lsecWrite s c keyed v) := by
  unfold State.lsecWrite
  try dsimp only
  repeat' first
    | with_reducible assumption
    | with_reducible apply State.seqFail_keeps
    | with_reducible apply State.modCtx_keeps
    | with_reducible apply State.loadKey_keeps
    | exact fun _ _ k => k
    | (intro _ _ k; repeat' first | exact k | split)
    | exact keeps_memLock hz fun k => k
    | exact keeps_memLock hz LockSt.write_keeps
    | exact keeps_linkLock hz fun k => k
    | exact keeps_linkLock hz LockSt.write_keeps
    | exact keeps_lsecLock hz fun k => k
    | exact keeps_lsecLock hz LockSt.write_keeps
    | exact keeps_lsecLock (State.seqFail_keeps hz) fun k => k
    | split
    | dsimp only
    | (refine keeps_parts ?_; dsimp only; with_reducible refine keeps_fold ?_)

theorem State.rsvWrite_keeps {lk : Bool} {z : State} {s : State} {u off : Nat} {r : Reg} {v mask : Nat}
    (hz : Keeps lk z s) : Keeps lk z (State.rsvWrite s u off r v mask) := by
  unfold State.rsvWrite
  try dsimp only
  repeat' first
    | with_reducible assumption
    | (refine keeps_parts ?_; dsimp only; with_reducible refine keeps_fold ?_)
    | split
    | dsimp only

/-- A lock register that is locked stays locked when it is written. -/
theorem LockSt.write_keeps {l : LockSt} {k : Bool} {v : Nat} (h : l.lock = true) : (l.write k v).1.lock = true := by
  simp [LockSt.write, h]

theorem State.regWrite_keeps {lk : Bool} {z : State} {s : State} {a : Agent} {r : Reg} {keyed : Bool} {v mask : Nat}
    (hz : Keeps lk z s) : Keeps lk z (State.regWrite s a r keyed v mask) := by
  unfold State.regWrite
  try dsimp only
  repeat' first
    | with_reducible assumption
    | with_reducible apply State.seqFail_keeps
    | with_reducible apply State.lsecWrite_keeps
    | with_reducible apply State.modSec_keeps
    | with_reducible apply State.keyWrite_keeps
    | with_reducible apply State.modRing_keeps
    | with_reducible apply State.ringCtl_keeps
    | with_reducible apply State.ringTail_keeps
    | with_reducible apply State.ringHead_keeps
    | with_reducible apply State.askFru_keeps
    | with_reducible apply State.discardHost_keeps
    | with_reducible apply State.modFru_keeps
    | exact keeps_memLock hz fun k => k
    | exact keeps_memLock hz LockSt.write_keeps
    | exact keeps_linkLock hz fun k => k
    | exact keeps_linkLock hz LockSt.write_keeps
    | exact keeps_lsecLock hz fun k => k
    | exact keeps_lsecLock hz LockSt.write_keeps
    | exact keeps_lsecLock (State.seqFail_keeps hz) fun k => k
    | split
    | dsimp only
    | (refine keeps_parts ?_; dsimp only; with_reducible refine keeps_fold ?_)

theorem State.accessWrite_keeps {lk : Bool} {z : State} {s : State} {a : Agent} {u off : Nat} {r : Reg} {v mask : Nat}
    (hz : Keeps lk z s) : Keeps lk z (State.accessWrite s a u off r v mask) := by
  unfold State.accessWrite
  try dsimp only
  repeat' first
    | with_reducible assumption
    | with_reducible first
        | apply State.lockBusy_keeps | apply State.modSec_keeps | apply State.seqFail_keeps
        | apply State.rsvWrite_keeps | apply State.regWrite_keeps
    | (refine keeps_parts ?_; dsimp only; with_reducible refine keeps_fold ?_)
    | split
    | dsimp only

theorem State.modBus_keeps {lk : Bool} {z : State} {s : State} {a : Agent} {f : BusSt → BusSt}
    (hz : Keeps lk z s) : Keeps lk z (State.modBus s a f) := by
  unfold State.modBus
  try dsimp only
  repeat' first
    | with_reducible assumption
    | (refine keeps_parts ?_; dsimp only; with_reducible refine keeps_fold ?_)
    | split
    | dsimp only

theorem State.latchHigh_keeps {lk : Bool} {z : State} {s : State} {a : Agent} {u off : Nat} {h : BitVec 32}
    (hz : Keeps lk z s) : Keeps lk z (State.latchHigh s a u off h) := State.modBus_keeps hz

theorem State.read32_keeps {lk : Bool} {z : State} {s : State} {a : Agent} {u off : Nat} {peek : Bool}
    (hz : Keeps lk z s) : Keeps lk z (State.read32 s a u off peek).1 := by
  unfold State.read32
  try dsimp only
  repeat' first
    | with_reducible assumption
    | with_reducible first
        | apply State.lockBusy_keeps | apply State.snapHost_keeps | apply State.modBus_keeps | apply State.latchHigh_keeps
        | apply State.regClear_keeps
    | (refine keeps_parts ?_; dsimp only; with_reducible refine keeps_fold ?_)
    | split
    | dsimp only

theorem State.readReg_keeps {lk : Bool} {z : State} {s : State} {a : Agent} {u off : Nat} {wide peek : Bool}
    (hz : Keeps lk z s) : Keeps lk z (State.readReg s a u off wide peek).1 := by
  unfold State.readReg
  try dsimp only
  repeat' first
    | with_reducible assumption
    | with_reducible first | apply State.read32_keeps | apply State.regClear_keeps
    | (refine keeps_parts ?_; dsimp only; with_reducible refine keeps_fold ?_)
    | split
    | dsimp only

theorem State.busRead_keeps {lk : Bool} {z : State} {s : State} {a : Agent} {addr : BusAddr} {wide : Bool}
    (hz : Keeps lk z s) : Keeps lk z (State.busRead s a addr wide).1 := by
  unfold State.busRead
  try dsimp only
  repeat' first
    | with_reducible assumption
    | with_reducible first | apply State.readReg_keeps | apply State.memRead_keeps
    | (refine keeps_parts ?_; dsimp only; with_reducible refine keeps_fold ?_)
    | split
    | dsimp only

theorem State.write32_keeps {lk : Bool} {z : State} {s : State} {a : Agent} {u off v : Nat}
    (hz : Keeps lk z s) : Keeps lk z (State.write32 s a u off v) := by
  unfold State.write32
  try dsimp only
  repeat' first
    | with_reducible assumption
    | with_reducible first | apply State.lockBusy_keeps | apply State.modBus_keeps | apply State.accessWrite_keeps
    | (refine keeps_parts ?_; dsimp only; with_reducible refine keeps_fold ?_)
    | split
    | dsimp only

theorem State.msixUnmask_keeps {lk : Bool} {z : State} {s : State}
    (hz : Keeps lk z s) : Keeps lk z (State.msixUnmask s) := by
  unfold State.msixUnmask
  try dsimp only
  repeat' first
    | with_reducible assumption
    | with_reducible apply State.raise_keeps
    | with_reducible refine keeps_foldl ?_ (fun _ _ _ => ?_)
    | with_reducible refine keeps_foldl_fst ?_ (fun _ _ _ => ?_)
    | (refine keeps_parts ?_; dsimp only; with_reducible refine keeps_fold ?_)
    | split
    | dsimp only

theorem State.busWrite_keeps {lk : Bool} {z s : State} {a : Agent} {addr : BusAddr} {wide : Bool} {v : BitVec 64}
    (hz : Keeps lk z s) : Keeps lk z (s.busWrite a addr wide v) := by
  unfold State.busWrite
  dsimp only
  split
  · exact hz
  · split
    · repeat' first
        | with_reducible assumption
        | with_reducible first | apply State.write32_keeps | apply State.accessWrite_keeps
        | split
    · exact keeps_mem hz (Memory.wf_step fun w => { w with ringWin := canon_wrBytes w.ringWin })
    · exact State.msixUnmask_keeps (keeps_mk hz)
    · exact hz
    · repeat' first
        | with_reducible assumption
        | with_reducible first | apply State.jdWrite_keeps | apply State.memWrite_keeps
        | split
    · exact hz

theorem State.returned_keeps {lk : Bool} {z : State} {s : State} {a : Agent} {v : BitVec 64}
    (hz : Keeps lk z s) : Keeps lk z (State.returned s a v) := by
  unfold State.returned
  try dsimp only
  repeat' first
    | with_reducible assumption
    | with_reducible apply State.modBus_keeps
    | (refine keeps_parts ?_; dsimp only; with_reducible refine keeps_fold ?_)
    | split
    | dsimp only

end Sys2Proof.Machine
end

