-- ==== Sys2Proof/Laws/KeepContext.lean ====
section
/-! SUPPORT. The effects of Machine/Context.lean keep queue, fuses, canonical memories and locks. -/

namespace Sys2Proof.Machine

theorem State.wrongState_keeps {lk : Bool} {z : State} {s : State} {r : Nat} {p : BitVec 512} {step : Nat}
    (hz : Keeps lk z s) : Keeps lk z (State.wrongState s r p step) := by
  unfold State.wrongState
  try dsimp only
  repeat' first
    | with_reducible assumption
    | with_reducible apply State.reply_keeps
    | (refine keeps_parts ?_; dsimp only; with_reducible refine keeps_fold ?_)
    | split
    | dsimp only

theorem State.parkEngines_keeps {lk : Bool} {z : State} {s : State}
    (hz : Keeps lk z s) : Keeps lk z (State.parkEngines s) := by
  unfold State.parkEngines
  try dsimp only
  repeat' first
    | with_reducible assumption
    | with_reducible apply State.dropJournal_keeps
    | (refine keeps_parts ?_; dsimp only; with_reducible refine keeps_fold ?_)
    | split
    | dsimp only

theorem State.release_keeps {lk : Bool} {z : State} {s : State} {c : Nat}
    (hz : Keeps lk z s) : Keeps lk z (State.release s c) := by
  unfold State.release
  try dsimp only
  repeat' first
    | with_reducible assumption
    | with_reducible apply State.modCtx_keeps
    | with_reducible refine State.modCtx_keeps ?_ ?_
    | exact fun _ _ k => k
    | (intro _ _ k; repeat' first | exact k | split)
    | (refine keeps_parts ?_; dsimp only; with_reducible refine keeps_fold ?_)
    | split
    | dsimp only

theorem State.beginRestore_keeps {lk : Bool} {z : State} {s : State} {c : Nat}
    (hz : Keeps lk z s) : Keeps lk z (State.beginRestore s c) := by
  unfold State.beginRestore
  try dsimp only
  repeat' first
    | with_reducible assumption
    | with_reducible first
        | apply State.modCtx_keeps | apply State.parkEngines_keeps | apply State.refreshCm_keeps
        | apply State.applyLinks_keeps | apply State.pendMarket_keeps
    | with_reducible refine State.modCtx_keeps ?_ ?_
    | exact fun _ _ k => k
    | (intro _ _ k; repeat' first | exact k | split)
    | (refine keeps_parts ?_; dsimp only; with_reducible refine keeps_fold ?_)
    | split
    | dsimp only

theorem State.wakeRestores_keeps {lk : Bool} {z : State} {s : State}
    (hz : Keeps lk z s) : Keeps lk z (State.wakeRestores s) := by
  unfold State.wakeRestores
  try dsimp only
  repeat' first
    | with_reducible assumption
    | with_reducible first
        | apply State.beginRestore_keeps | apply State.modCtx_keeps | apply State.replyWaiting_keeps
    | with_reducible refine keeps_foldl ?_ (fun _ _ _ => ?_)
    | with_reducible refine keeps_foldl_fst ?_ (fun _ _ _ => ?_)
    | with_reducible refine State.modCtx_keeps ?_ ?_
    | exact fun _ _ k => k
    | (intro _ _ k; repeat' first | exact k | split)
    | (refine keeps_parts ?_; dsimp only; with_reducible refine keeps_fold ?_)
    | split
    | dsimp only

theorem State.beginDestroy_keeps {lk : Bool} {z : State} {s : State} {c : Nat}
    (hz : Keeps lk z s) : Keeps lk z (State.beginDestroy s c) := by
  unfold State.beginDestroy
  try dsimp only
  repeat' first
    | with_reducible assumption
    | with_reducible first
        | apply State.stopStep_keeps | apply State.parkEngines_keeps | apply State.modCtx_keeps
        | apply State.release_keeps
    | with_reducible refine keeps_foldl ?_ (fun _ _ _ => ?_)
    | with_reducible refine keeps_foldl_fst ?_ (fun _ _ _ => ?_)
    | with_reducible refine State.modCtx_keeps ?_ ?_
    | exact fun _ _ k => k
    | (intro _ _ k; repeat' first | exact k | split)
    | (refine keeps_parts ?_; dsimp only; with_reducible refine keeps_fold ?_)
    | split
    | dsimp only

theorem State.zeroMarket_keeps {lk : Bool} {z s : State} {rs : List (Nat × Nat)}
    (hz : Keeps lk z s) : Keeps lk z (s.zeroMarket rs) :=
  keeps_mem hz (Memory.wf_step fun w => { w with market := canon_filter w.market, par := canon_filter w.par })

theorem State.clearResident_keeps {lk : Bool} {z s : State} {x : CtxSt} (hz : Keeps lk z s) :
    Keeps lk z (s.clearResident x) := by
  unfold State.clearResident
  extract_lets zero mem sync freed zeroed
  have kf : Keeps lk z freed :=
    keeps_mem hz (Memory.wf_step fun w => { w with spm := rfl, sram := rfl, par := canon_filter w.par })
  have kz : Keeps lk z zeroed := by
    unfold zeroed
    split
    · exact State.zeroMarket_keeps kf
    · exact kf
  exact State.refreshCm_keeps kz

theorem State.dropShadow_keeps {lk : Bool} {z : State} {s : State} {c : Nat}
    (hz : Keeps lk z s) : Keeps lk z (State.dropShadow s c) := by
  unfold State.dropShadow
  try dsimp only
  repeat' first
    | with_reducible assumption
    | with_reducible apply State.modCtx_keeps
    | with_reducible refine State.modCtx_keeps ?_ ?_
    | exact fun _ _ k => k
    | (intro _ _ k; repeat' first | exact k | split)
    | (refine keeps_parts ?_; dsimp only; with_reducible refine keeps_fold ?_)
    | split
    | dsimp only

theorem State.finishVerify_keeps {lk : Bool} {z : State} {s : State} {r : Nat} {p : BitVec 512}
    (hz : Keeps lk z s) : Keeps lk z (State.finishVerify s r p) := by
  unfold State.finishVerify
  try dsimp only
  repeat' first
    | with_reducible assumption
    | with_reducible first | apply State.reply_keeps | apply State.dropShadow_keeps | apply State.modCtx_keeps
    | with_reducible refine State.modCtx_keeps ?_ ?_
    | exact fun _ _ k => k
    | (intro _ _ k; repeat' first | exact k | split)
    | (refine keeps_parts ?_; dsimp only; with_reducible refine keeps_fold ?_)
    | split
    | dsimp only

theorem State.trained_keeps {lk : Bool} {z : State} {s : State} {ok : Bool} {m : Nat}
    (hz : Keeps lk z s) : Keeps lk z (State.trained s ok m) := by
  unfold State.trained
  try dsimp only
  repeat' first
    | with_reducible assumption
    | with_reducible first | apply State.bringUp_keeps | apply State.modMember_keeps
    | (refine keeps_parts ?_; dsimp only; with_reducible refine keeps_fold ?_)
    | split
    | dsimp only

theorem State.digestDiff_keeps {lk : Bool} {z : State} {s : State} {cfg : JobCfg} {fin : TrainSt}
    (hz : Keeps lk z s) : Keeps lk z (State.digestDiff s cfg fin).1 := by
  unfold State.digestDiff
  try dsimp only
  repeat' first
    | with_reducible assumption
    | with_reducible apply State.shardDigest_keeps
    | with_reducible refine keeps_foldl ?_ (fun _ _ _ => ?_)
    | with_reducible refine keeps_foldl_fst ?_ (fun _ _ _ => ?_)
    | (refine keeps_parts ?_; dsimp only; with_reducible refine keeps_fold ?_)
    | split
    | dsimp only

theorem State.beginSteps_keeps {lk : Bool} {z : State} {s : State} {c : Nat} {step0 : BitVec 64} {nsteps : Nat} {fin : TrainSt}
    (hz : Keeps lk z s) : Keeps lk z (State.beginSteps s c step0 nsteps fin) := by
  unfold State.beginSteps
  try dsimp only
  repeat' first
    | with_reducible assumption
    | with_reducible first | apply State.release_keeps | apply State.parkEngines_keeps | apply State.modCtx_keeps
    | with_reducible refine State.modCtx_keeps ?_ ?_
    | exact fun _ _ k => k
    | (intro _ _ k; repeat' first | exact k | split)
    | (refine keeps_parts ?_; dsimp only; with_reducible refine keeps_fold ?_)
    | split
    | dsimp only

theorem State.startFrom_keeps {lk : Bool} {z : State} {s : State} {r : Nat} {p : BitVec 512} {b : Option Bytes} {jd verify : Bool} {step0 : Option (BitVec 64)} {nsteps : Nat}
    (hz : Keeps lk z s) : Keeps lk z (State.startFrom s r p b jd verify step0 nsteps) := by
  unfold State.startFrom
  try dsimp only
  repeat' first
    | with_reducible assumption
    | with_reducible first
        | apply State.reply_keeps | apply State.digestDiff_keeps | apply State.jdWrite_keeps
        | apply State.refreshCm_keeps | apply State.beginSteps_keeps
    | (refine keeps_parts ?_; dsimp only; with_reducible refine keeps_fold ?_)
    | split
    | dsimp only

end Sys2Proof.Machine
end

