-- ==== Sys2Proof/Laws/KeepTick.lean ====
section
/-! SUPPORT. The effects of Machine/Tick.lean keep queue, fuses, canonical memories and locks. -/

namespace Sys2Proof.Machine

theorem State.cxTick_keeps {lk : Bool} {z : State} {s : State} {d : Nat}
    (hz : Keeps lk z s) : Keeps lk z (State.cxTick s d) := by
  unfold State.cxTick
  try dsimp only
  repeat' first
    | with_reducible assumption
    | with_reducible apply State.modCx_keeps
    | (refine keeps_parts ?_; dsimp only; with_reducible refine keeps_fold ?_)
    | split
    | dsimp only

theorem State.ueTick_keeps {lk : Bool} {z : State} {s : State} {t d : Nat}
    (hz : Keeps lk z s) : Keeps lk z (State.ueTick s t d) := by
  unfold State.ueTick
  try dsimp only
  repeat' first
    | with_reducible assumption
    | with_reducible first | apply State.modUe_keeps | apply State.pumpDie_keeps
    | (refine keeps_parts ?_; dsimp only; with_reducible refine keeps_fold ?_)
    | split
    | dsimp only

theorem State.coreTick_keeps {lk : Bool} {z : State} {s : State} {t : Nat}
    (hz : Keeps lk z s) : Keeps lk z (State.coreTick s t) := by
  unfold State.coreTick
  try dsimp only
  repeat' first
    | with_reducible assumption
    | (refine keeps_parts ?_; dsimp only; with_reducible refine keeps_fold ?_)
    | split
    | dsimp only

theorem State.stackTick_keeps {lk : Bool} {z : State} {s : State} {k : Nat}
    (hz : Keeps lk z s) : Keeps lk z (State.stackTick s k) := by
  unfold State.stackTick
  try dsimp only
  repeat' first
    | with_reducible assumption
    | with_reducible first | apply State.drainReqs_keeps | apply State.refill_keeps | apply State.scrubNow_keeps
    | (refine keeps_parts ?_; dsimp only; with_reducible refine keeps_fold ?_)
    | split
    | dsimp only

theorem State.ringTick_keeps {lk : Bool} {z : State} {s : State} {r : Nat}
    (hz : Keeps lk z s) : Keeps lk z (State.ringTick s r) := by
  unfold State.ringTick
  try dsimp only
  repeat' first
    | with_reducible assumption
    | with_reducible first | apply State.drainWait_keeps | apply State.pumpRing_keeps
    | (refine keeps_parts ?_; dsimp only; with_reducible refine keeps_fold ?_)
    | split
    | dsimp only

theorem State.resetTick_keeps {z : State} {s : State}
    (hz : Keeps false z s) : Keeps false z (State.resetTick s) := by
  unfold State.resetTick
  try dsimp only
  repeat' first
    | with_reducible assumption
    | with_reducible apply State.dueReset_keeps
    | (refine keeps_parts ?_; dsimp only; with_reducible refine keeps_fold ?_)
    | split
    | dsimp only

theorem tick_keeps {z : State} {s : State}
    (hz : Keeps false z s) : Keeps false z (tick s) := by
  unfold tick
  try dsimp only
  repeat' first
    | with_reducible assumption
    | with_reducible first
        | apply State.coreTick_keeps | apply State.cxTick_keeps | apply State.ueTick_keeps
        | apply State.stackTick_keeps | apply State.wakeRestores_keeps | apply State.ringTick_keeps
        | apply State.resetTick_keeps
    | with_reducible refine keeps_foldl ?_ (fun _ _ _ => ?_)
    | with_reducible refine keeps_foldl_fst ?_ (fun _ _ _ => ?_)
    | (refine keeps_parts ?_; dsimp only; with_reducible refine keeps_fold ?_)
    | split
    | dsimp only

end Sys2Proof.Machine
end

