-- ==== Sys2Proof/Laws/KeepOut.lean ====
section
/-! SUPPORT. Outcomes whose next state keeps what `Keeps` says: the shared forms of the commands' meanings. -/

namespace Sys2Proof.Machine

/-- Where an outcome has a next state, it keeps. -/
def OutKeeps (lk : Bool) (s : State) (o : Out) : Prop := ∀ t, o = .next t → Keeps lk s t

theorem OutKeeps.next {lk : Bool} {s t : State} (h : Keeps lk s t) : OutKeeps lk s (.next t) := by
  intro u e
  cases e
  exact h

theorem OutKeeps.fault {lk : Bool} {s : State} {f : Fault} : OutKeeps lk s (.fault f) := by
  intro u e
  cases e

theorem OutKeeps.trans {lk : Bool} {s t : State} {o : Out} (h : Keeps lk s t) (k : OutKeeps lk t o) : OutKeeps lk s o :=
  fun u e => h.trans (k u e)

theorem guardUnit_keeps {lk : Bool} {s : State} {p : Bool} {k : Out} (h : OutKeeps lk s k) :
    OutKeeps lk s (guardUnit p k) := by
  unfold guardUnit
  split
  · exact h
  · exact .fault

theorem issueWith_keeps {lk : Bool} {z s : State} {e : EngRef} {i : Instr} {h : OpHdr} {o : HwObs}
    {ready : EngSt → BitVec 64 → Bool} {own : BitVec 64 → Option WaitSt}
    {act : State → EngSt → BitVec 64 → State × EngSt × IssuedOp} (hz : Keeps lk z s)
    (ha : ∀ a r n, Keeps lk z a → Keeps lk z (act a r n).1) : OutKeeps lk z (issueWith s e i h o ready own act) := by
  unfold issueWith
  dsimp only
  split
  · exact .next hz
  · split
    · exact .next hz
    · split
      · exact .next (State.setEng_keeps hz)
      · exact .next (State.setEng_keeps (State.observe_keeps (ha _ _ _ (State.strikes_keeps hz))))

theorem issueVe_keeps {lk : Bool} {z s : State} {c : CoreRef} {i : Instr} {h : OpHdr} {o : HwObs} {ready : CoreSt → Bool}
    {act : State → EngSt → BitVec 64 → State × EngSt × IssuedOp} (hz : Keeps lk z s)
    (ha : ∀ a r n, Keeps lk z a → Keeps lk z (act a r n).1) : OutKeeps lk z (issueVe s c i h o ready act) :=
  guardUnit_keeps (issueWith_keeps hz ha)

theorem runSlot_keeps {lk : Bool} {z s : State} {c : CoreRef} {i : Fin 32} {kind : Nat} {o : HwObs}
    {act : State → MeDescSt → State × BitVec 4} (hz : Keeps lk z s)
    (ha : ∀ a m, Keeps lk z a → Keeps lk z (act a m).1) : OutKeeps lk z (runSlot s c i kind o act) := by
  unfold runSlot
  refine guardUnit_keeps ?_
  split
  · exact .next hz
  · split
    · exact .next hz
    · exact .next (finishDesc_keeps (ha _ _ (State.strikes_keeps (State.settleEngine_keeps hz))))

theorem runColl_keeps {lk : Bool} {z s : State} {die slot : Fin 4} {kind : Nat} {o : HwObs}
    {step : State → Coll → State × Bool} (hz : Keeps lk z s)
    (hs : ∀ a c, Keeps lk z a → Keeps lk z (step a c).1) : OutKeeps lk z (runColl die slot kind o step s) := by
  unfold runColl
  refine guardUnit_keeps ?_
  split
  · exact .next hz
  · split
    · exact .next hz
    · exact .next (State.runCx_keeps hz hs)

theorem runCmd_keeps {lk : Bool} {z s : State} {r : Fin 8} {f : CmdForm} {body : State → BitVec 512 → State}
    (hz : Keeps lk z s) (hb : ∀ a p, Keeps lk z a → Keeps lk z (body a p)) : OutKeeps lk z (runCmd r f body s) := by
  unfold runCmd
  split
  · exact .next hz
  · split
    · exact .next (State.ringFault_keeps hz)
    · split
      · exact .next hz
      · dsimp only
        refine .next (State.pumpRing_keeps ?_)
        split
        · exact State.reply_keeps (State.takeEntry_keeps hz)
        · exact hb _ _ (State.takeEntry_keeps hz)

theorem State.sbReady_keeps {lk : Bool} {z s : State} {f : State → State} (hz : Keeps lk z s)
    (hf : ∀ a, Keeps lk z a → Keeps lk z (f a)) : OutKeeps lk z (s.sbReady f) := by
  unfold State.sbReady
  refine .next ?_
  split
  · exact hf _ hz
  · exact State.sbAnswer_keeps hz

end Sys2Proof.Machine
end

