-- ==== Sys2Proof/Laws/PerInstr.lean ====
section
/-! SUPPORT. Families of statements made for each command. `Guarded`: a command that no stream holds has no operand that
could be a reserved encoding, and names no scratchpad byte. -/

namespace Sys2Proof.Laws

/-- The opcode of a command that is an op of a stream (R279, R525, R583). -/
def opcode : Instr → Option Nat
  | .nop _ _ => some 0x00
  | .end_ _ _ => some 0x01
  | .aeLoad _ _ _ _ _ => some 0x10
  | .aePass _ _ _ _ _ => some 0x11
  | .aePreload _ _ _ _ => some 0x12
  | .vld _ _ _ _ => some 0x20
  | .vst _ _ _ _ => some 0x21
  | .vop _ _ _ _ => some 0x22
  | .vtr _ _ _ _ => some 0x23
  | .vred _ _ _ _ => some 0x24
  | .drain _ _ _ _ => some 0x25
  | .spill _ _ _ _ => some 0x26
  | .pdrain _ _ _ _ => some 0x27
  | .vsrb _ _ _ => some 0x28
  | .meDesc _ _ _ => some 0x30
  | .meFence _ _ => some 0x31
  | .xArrive _ _ _ => some 0x40
  | .xWait _ _ _ _ _ => some 0x41
  | .xReset _ _ _ _ => some 0x42
  | .xAttime _ _ _ => some 0x43
  | .ueRun _ _ _ _ => some 0x50
  | .cxRun _ _ _ => some 0x60
  | .cxGnorm _ _ _ _ => some 0x61
  | .cxFence _ _ => some 0x62
  | _ => none

/-- A command that is not an op of a stream is well-formed and inside the stores (R14, R279). -/
def Guarded.Statement (i : Instr) : Prop := opcode i = none → i.wf = true ∧ i.inStore = true

theorem Guarded.identify (a0 : Fin 8) : Guarded.Statement (.identify a0) := fun _ => ⟨rfl, rfl⟩
theorem Guarded.queryStatus (a0 : Fin 8) : Guarded.Statement (.queryStatus a0) := fun _ => ⟨rfl, rfl⟩
theorem Guarded.readTelemetry (a0 : Fin 8) : Guarded.Statement (.readTelemetry a0) := fun _ => ⟨rfl, rfl⟩
theorem Guarded.journalRead (a0 : Fin 8) : Guarded.Statement (.journalRead a0) := fun _ => ⟨rfl, rfl⟩
theorem Guarded.attest (a0 : Fin 8) : Guarded.Statement (.attest a0) := fun _ => ⟨rfl, rfl⟩
theorem Guarded.contextCreate (a0 : Fin 8) : Guarded.Statement (.contextCreate a0) := fun _ => ⟨rfl, rfl⟩
theorem Guarded.contextSave (a0 : Fin 8) : Guarded.Statement (.contextSave a0) := fun _ => ⟨rfl, rfl⟩
theorem Guarded.contextRestore (a0 : Fin 8) : Guarded.Statement (.contextRestore a0) := fun _ => ⟨rfl, rfl⟩
theorem Guarded.contextDestroy (a0 : Fin 8) : Guarded.Statement (.contextDestroy a0) := fun _ => ⟨rfl, rfl⟩
theorem Guarded.loadImage (a0 : Fin 8) : Guarded.Statement (.loadImage a0) := fun _ => ⟨rfl, rfl⟩
theorem Guarded.loadConfig (a0 : Fin 8) : Guarded.Statement (.loadConfig a0) := fun _ => ⟨rfl, rfl⟩
theorem Guarded.verifyConfig (a0 : Fin 8) : Guarded.Statement (.verifyConfig a0) := fun _ => ⟨rfl, rfl⟩
theorem Guarded.swapConfig (a0 : Fin 8) : Guarded.Statement (.swapConfig a0) := fun _ => ⟨rfl, rfl⟩
theorem Guarded.startSteps (a0 : Fin 8) : Guarded.Statement (.startSteps a0) := fun _ => ⟨rfl, rfl⟩
theorem Guarded.halt (a0 : Fin 8) : Guarded.Statement (.halt a0) := fun _ => ⟨rfl, rfl⟩
theorem Guarded.resume (a0 : Fin 8) : Guarded.Statement (.resume a0) := fun _ => ⟨rfl, rfl⟩
theorem Guarded.abortStep (a0 : Fin 8) : Guarded.Statement (.abortStep a0) := fun _ => ⟨rfl, rfl⟩
theorem Guarded.remapCore (a0 : Fin 8) : Guarded.Statement (.remapCore a0) := fun _ => ⟨rfl, rfl⟩
theorem Guarded.linkCtrl (a0 : Fin 8) : Guarded.Statement (.linkCtrl a0) := fun _ => ⟨rfl, rfl⟩
theorem Guarded.timeCtrl (a0 : Fin 8) : Guarded.Statement (.timeCtrl a0) := fun _ => ⟨rfl, rfl⟩
theorem Guarded.timeCtrlTimeout : Guarded.Statement (.timeCtrlTimeout) := fun _ => ⟨rfl, rfl⟩
theorem Guarded.setPowerLimit (a0 : Fin 8) : Guarded.Statement (.setPowerLimit a0) := fun _ => ⟨rfl, rfl⟩
theorem Guarded.runRadish (a0 : Fin 8) : Guarded.Statement (.runRadish a0) := fun _ => ⟨rfl, rfl⟩
theorem Guarded.clearErrors (a0 : Fin 8) : Guarded.Statement (.clearErrors a0) := fun _ => ⟨rfl, rfl⟩
theorem Guarded.fwUpdate (a0 : Fin 8) : Guarded.Statement (.fwUpdate a0) := fun _ => ⟨rfl, rfl⟩
theorem Guarded.saveComplete (a0 : Fin 4) : Guarded.Statement (.saveComplete a0) := fun _ => ⟨rfl, rfl⟩
theorem Guarded.contextRestoreComplete (a0 : Fin 4) : Guarded.Statement (.contextRestoreComplete a0) := fun _ => ⟨rfl, rfl⟩
theorem Guarded.contextScrubComplete (a0 : Fin 4) : Guarded.Statement (.contextScrubComplete a0) := fun _ => ⟨rfl, rfl⟩
theorem Guarded.doorbell (a0 : Fin 8) (a1 : List HostWrite) (a2 : BitVec 16) : Guarded.Statement (.doorbell a0 a1 a2) := fun _ => ⟨rfl, rfl⟩
theorem Guarded.ringEnable (a0 : Fin 8) (a1 : List HostWrite) (a2 : Bool) : Guarded.Statement (.ringEnable a0 a1 a2) := fun _ => ⟨rfl, rfl⟩
theorem Guarded.ringDisable (a0 : Fin 8) (a1 : Bool) : Guarded.Statement (.ringDisable a0 a1) := fun _ => ⟨rfl, rfl⟩
theorem Guarded.completionHeadWrite (a0 : Fin 8) (a1 : BitVec 16) : Guarded.Statement (.completionHeadWrite a0 a1) := fun _ => ⟨rfl, rfl⟩
theorem Guarded.pcieHotReset : Guarded.Statement (.pcieHotReset) := fun _ => ⟨rfl, rfl⟩
theorem Guarded.registerWrite (a0 : Agent) (a1 : BusAddr) (a2 : Bool) (a3 : BitVec 64) : Guarded.Statement (.registerWrite a0 a1 a2 a3) := fun _ => ⟨rfl, rfl⟩
theorem Guarded.clearingRead (a0 : Agent) (a1 : BusAddr) (a2 : Bool) : Guarded.Statement (.clearingRead a0 a1 a2) := fun _ => ⟨rfl, rfl⟩
theorem Guarded.stbTimeLowRead (a0 : Agent) : Guarded.Statement (.stbTimeLowRead a0) := fun _ => ⟨rfl, rfl⟩
theorem Guarded.keyWrite (a0 : Agent) (a1 : BitVec 32) : Guarded.Statement (.keyWrite a0 a1) := fun _ => ⟨rfl, rfl⟩
theorem Guarded.keyedLockWrite (a0 : Agent) (a1 : LockBlk) (a2 : BitVec 32) : Guarded.Statement (.keyedLockWrite a0 a1 a2) := fun _ => ⟨rfl, rfl⟩
theorem Guarded.lsecLoad (a0 : Agent) (a1 : Fin 4) (a2 : BitVec 32) : Guarded.Statement (.lsecLoad a0 a1 a2) := fun _ => ⟨rfl, rfl⟩
theorem Guarded.keyedWindowExpire : Guarded.Statement (.keyedWindowExpire) := fun _ => ⟨rfl, rfl⟩
theorem Guarded.debugAgentHalt (a0 : Agent) (a1 : Bool) : Guarded.Statement (.debugAgentHalt a0 a1) := fun _ => ⟨rfl, rfl⟩
theorem Guarded.dbgToken (a0 : Bytes) : Guarded.Statement (.dbgToken a0) := fun _ => ⟨rfl, rfl⟩
theorem Guarded.dbgRelock : Guarded.Statement (.dbgRelock) := fun _ => ⟨rfl, rfl⟩
theorem Guarded.hostFruCommit : Guarded.Statement (.hostFruCommit) := fun _ => ⟨rfl, rfl⟩
theorem Guarded.hostFruDiscard : Guarded.Statement (.hostFruDiscard) := fun _ => ⟨rfl, rfl⟩
theorem Guarded.fruSnapshotRead : Guarded.Statement (.fruSnapshotRead) := fun _ => ⟨rfl, rfl⟩
theorem Guarded.fruCommitComplete (a0 : Bool) (a1 : Bool) : Guarded.Statement (.fruCommitComplete a0 a1) := fun _ => ⟨rfl, rfl⟩
theorem Guarded.dynamicAddressAssign (a0 : BitVec 7) : Guarded.Statement (.dynamicAddressAssign a0) := fun _ => ⟨rfl, rfl⟩
theorem Guarded.sidebandRead : Guarded.Statement (.sidebandRead) := fun _ => ⟨rfl, rfl⟩
theorem Guarded.getId : Guarded.Statement (.getId) := fun _ => ⟨rfl, rfl⟩
theorem Guarded.getStatus : Guarded.Statement (.getStatus) := fun _ => ⟨rfl, rfl⟩
theorem Guarded.readTelem (a0 : BitVec 8) (a1 : BitVec 16) : Guarded.Statement (.readTelem a0 a1) := fun _ => ⟨rfl, rfl⟩
theorem Guarded.setPwin (a0 : BitVec 16) (a1 : BitVec 8) (a2 : BitVec 8) : Guarded.Statement (.setPwin a0 a1 a2) := fun _ => ⟨rfl, rfl⟩
theorem Guarded.setPrail (a0 : BitVec 8) (a1 : BitVec 8) : Guarded.Statement (.setPrail a0 a1) := fun _ => ⟨rfl, rfl⟩
theorem Guarded.getLimits : Guarded.Statement (.getLimits) := fun _ => ⟨rfl, rfl⟩
theorem Guarded.fruRead (a0 : BitVec 8) : Guarded.Statement (.fruRead a0) := fun _ => ⟨rfl, rfl⟩
theorem Guarded.fruStage (a0 : BitVec 8) (a1 : Bytes) : Guarded.Statement (.fruStage a0 a1) := fun _ => ⟨rfl, rfl⟩
theorem Guarded.fruCommit : Guarded.Statement (.fruCommit) := fun _ => ⟨rfl, rfl⟩
theorem Guarded.fruDiscard : Guarded.Statement (.fruDiscard) := fun _ => ⟨rfl, rfl⟩
theorem Guarded.setIbiMask (a0 : BitVec 8) : Guarded.Statement (.setIbiMask a0) := fun _ => ⟨rfl, rfl⟩
theorem Guarded.readEvents : Guarded.Statement (.readEvents) := fun _ => ⟨rfl, rfl⟩
theorem Guarded.nop (a0 : EngRef) (a1 : OpHdr) : Guarded.Statement (.nop a0 a1) := fun h => by cases h
theorem Guarded.end_ (a0 : EngRef) (a1 : OpHdr) : Guarded.Statement (.end_ a0 a1) := fun h => by cases h
theorem Guarded.aeLoad (a0 : CoreRef) (a1 : OpHdr) (a2 : BitVec 16) (a3 : BitVec 16) (a4 : List CycleRun) : Guarded.Statement (.aeLoad a0 a1 a2 a3 a4) := fun h => by cases h
theorem Guarded.loadRowWrite (a0 : CoreRef) (a1 : List CycleRun) (a2 : HwObs) : Guarded.Statement (.loadRowWrite a0 a1 a2) := fun _ => ⟨rfl, rfl⟩
theorem Guarded.aePass (a0 : CoreRef) (a1 : OpHdr) (a2 : PassF) (a3 : List CycleRun) (a4 : HwObs) : Guarded.Statement (.aePass a0 a1 a2 a3 a4) := fun h => by cases h
theorem Guarded.passStart (a0 : CoreRef) (a1 : List CycleRun) : Guarded.Statement (.passStart a0 a1) := fun _ => ⟨rfl, rfl⟩
theorem Guarded.currentLevelStep (a0 : CoreRef) (a1 a2 : Bool) : Guarded.Statement (.currentLevelStep a0 a1 a2) := fun _ => ⟨rfl, rfl⟩
theorem Guarded.checksumCheck (a0 : CoreRef) (a1 : Option (BitVec 48)) : Guarded.Statement (.checksumCheck a0 a1) := fun _ => ⟨rfl, rfl⟩
theorem Guarded.aePreload (a0 : CoreRef) (a1 : OpHdr) (a2 : PreF) (a3 : HwObs) : Guarded.Statement (.aePreload a0 a1 a2 a3) := fun h => by cases h
theorem Guarded.bankHandover (a0 : CoreRef) (a1 : Bool) : Guarded.Statement (.bankHandover a0 a1) := fun _ => ⟨rfl, rfl⟩
theorem Guarded.vld (a0 : CoreRef) (a1 : OpHdr) (a2 : VldF) (a3 : HwObs) : Guarded.Statement (.vld a0 a1 a2 a3) := fun h => by cases h
theorem Guarded.vst (a0 : CoreRef) (a1 : OpHdr) (a2 : VldF) (a3 : HwObs) : Guarded.Statement (.vst a0 a1 a2 a3) := fun h => by cases h
theorem Guarded.vop (a0 : CoreRef) (a1 : OpHdr) (a2 : VopF) (a3 : HwObs) : Guarded.Statement (.vop a0 a1 a2 a3) := fun h => by cases h
theorem Guarded.vtr (a0 : CoreRef) (a1 : OpHdr) (a2 : VtrF) (a3 : HwObs) : Guarded.Statement (.vtr a0 a1 a2 a3) := fun h => by cases h
theorem Guarded.vred (a0 : CoreRef) (a1 : OpHdr) (a2 : VtrF) (a3 : HwObs) : Guarded.Statement (.vred a0 a1 a2 a3) := fun h => by cases h
theorem Guarded.drain (a0 : CoreRef) (a1 : OpHdr) (a2 : DrainF) (a3 : HwObs) : Guarded.Statement (.drain a0 a1 a2 a3) := fun h => by cases h
theorem Guarded.spill (a0 : CoreRef) (a1 : OpHdr) (a2 : SpillF) (a3 : HwObs) : Guarded.Statement (.spill a0 a1 a2 a3) := fun h => by cases h
theorem Guarded.pdrain (a0 : CoreRef) (a1 : OpHdr) (a2 : PdrainF) (a3 : HwObs) : Guarded.Statement (.pdrain a0 a1 a2 a3) := fun h => by cases h
theorem Guarded.vsrb (a0 : CoreRef) (a1 : OpHdr) (a2 : BitVec 64) : Guarded.Statement (.vsrb a0 a1 a2) := fun h => by cases h
theorem Guarded.meDesc (a0 : CoreRef) (a1 : OpHdr) (a2 : BitVec 24) : Guarded.Statement (.meDesc a0 a1 a2) := fun h => by cases h
theorem Guarded.copy (a0 : CoreRef) (a1 : Fin 32) (a2 : HwObs) : Guarded.Statement (.copy a0 a1 a2) := fun _ => ⟨rfl, rfl⟩
theorem Guarded.gather (a0 : CoreRef) (a1 : Fin 32) (a2 : HwObs) : Guarded.Statement (.gather a0 a1 a2) := fun _ => ⟨rfl, rfl⟩
theorem Guarded.xpEnc (a0 : CoreRef) (a1 : Fin 32) (a2 : HwObs) : Guarded.Statement (.xpEnc a0 a1 a2) := fun _ => ⟨rfl, rfl⟩
theorem Guarded.xpDec (a0 : CoreRef) (a1 : Fin 32) (a2 : HwObs) : Guarded.Statement (.xpDec a0 a1 a2) := fun _ => ⟨rfl, rfl⟩
theorem Guarded.meFence (a0 : CoreRef) (a1 : OpHdr) : Guarded.Statement (.meFence a0 a1) := fun h => by cases h
theorem Guarded.xArrive (a0 : CoreRef) (a1 : OpHdr) (a2 : ArriveF) : Guarded.Statement (.xArrive a0 a1 a2) := fun h => by cases h
theorem Guarded.xWait (a0 : CoreRef) (a1 : OpHdr) (a2 : BitVec 2) (a3 : BitVec 8) (a4 : BitVec 16) : Guarded.Statement (.xWait a0 a1 a2 a3 a4) := fun h => by cases h
theorem Guarded.xReset (a0 : CoreRef) (a1 : OpHdr) (a2 : BitVec 2) (a3 : BitVec 8) : Guarded.Statement (.xReset a0 a1 a2 a3) := fun h => by cases h
theorem Guarded.xAttime (a0 : CoreRef) (a1 : OpHdr) (a2 : BitVec 64) : Guarded.Statement (.xAttime a0 a1 a2) := fun h => by cases h
theorem Guarded.stbTimeReached (a0 : CoreRef) : Guarded.Statement (.stbTimeReached a0) := fun _ => ⟨rfl, rfl⟩
theorem Guarded.waiterWake (a0 : EngRef) : Guarded.Statement (.waiterWake a0) := fun _ => ⟨rfl, rfl⟩
theorem Guarded.opComplete (a0 : EngRef) : Guarded.Statement (.opComplete a0) := fun _ => ⟨rfl, rfl⟩
theorem Guarded.ueRun (a0 : Fin 4) (a1 : OpHdr) (a2 : BitVec 48) (a3 : HwObs) : Guarded.Statement (.ueRun a0 a1 a2 a3) := fun h => by cases h
theorem Guarded.cxRun (a0 : Fin 4) (a1 : OpHdr) (a2 : BitVec 48) : Guarded.Statement (.cxRun a0 a1 a2) := fun h => by cases h
theorem Guarded.allReduce (a0 : Fin 4) (a1 : Fin 4) (a2 : HwObs) : Guarded.Statement (.allReduce a0 a1 a2) := fun _ => ⟨rfl, rfl⟩
theorem Guarded.reduceScatter (a0 : Fin 4) (a1 : Fin 4) (a2 : HwObs) : Guarded.Statement (.reduceScatter a0 a1 a2) := fun _ => ⟨rfl, rfl⟩
theorem Guarded.allGather (a0 : Fin 4) (a1 : Fin 4) (a2 : HwObs) : Guarded.Statement (.allGather a0 a1 a2) := fun _ => ⟨rfl, rfl⟩
theorem Guarded.broadcast (a0 : Fin 4) (a1 : Fin 4) (a2 : HwObs) : Guarded.Statement (.broadcast a0 a1 a2) := fun _ => ⟨rfl, rfl⟩
theorem Guarded.barrier (a0 : Fin 4) (a1 : Fin 4) (a2 : List Nat) : Guarded.Statement (.barrier a0 a1 a2) := fun _ => ⟨rfl, rfl⟩
theorem Guarded.permute (a0 : Fin 4) (a1 : Fin 4) (a2 : List PermFlow) (a3 : HwObs) : Guarded.Statement (.permute a0 a1 a2 a3) := fun _ => ⟨rfl, rfl⟩
theorem Guarded.a2aDispatch (a0 : Fin 4) (a1 : Fin 4) (a2 : HwObs) : Guarded.Statement (.a2aDispatch a0 a1 a2) := fun _ => ⟨rfl, rfl⟩
theorem Guarded.a2aCombine (a0 : Fin 4) (a1 : Fin 4) (a2 : HwObs) : Guarded.Statement (.a2aCombine a0 a1 a2) := fun _ => ⟨rfl, rfl⟩
theorem Guarded.cxGnorm (a0 : Fin 4) (a1 : OpHdr) (a2 : BitVec 6) (a3 : List (BitVec 48)) : Guarded.Statement (.cxGnorm a0 a1 a2 a3) := fun h => by cases h
theorem Guarded.cxFence (a0 : Fin 4) (a1 : OpHdr) : Guarded.Statement (.cxFence a0 a1) := fun h => by cases h
theorem Guarded.collectiveTimeout (a0 : Fin 4) (a1 : Fin 4) : Guarded.Statement (.collectiveTimeout a0 a1) := fun _ => ⟨rfl, rfl⟩
theorem Guarded.portPriorityAging (a0 : PortSite) (a1 : Fin 6) (a2 : List (Fin 6)) : Guarded.Statement (.portPriorityAging a0 a1 a2) := fun _ => ⟨rfl, rfl⟩
theorem Guarded.boundedResourceRelease (a0 : BoundedRes) : Guarded.Statement (.boundedResourceRelease a0) := fun _ => ⟨rfl, rfl⟩
theorem Guarded.hbmRequest (a0 : HbmReq) : Guarded.Statement (.hbmRequest a0) := fun _ => ⟨rfl, rfl⟩
theorem Guarded.prefetchAging (a0 : Fin 16) : Guarded.Statement (.prefetchAging a0) := fun _ => ⟨rfl, rfl⟩
theorem Guarded.scrubChunk (a0 : Fin 16) (a1 : List SymErr) : Guarded.Statement (.scrubChunk a0 a1) := fun _ => ⟨rfl, rfl⟩
theorem Guarded.scrubYieldExpire (a0 : Fin 16) (a1 : List SymErr) : Guarded.Statement (.scrubYieldExpire a0 a1) := fun _ => ⟨rfl, rfl⟩
theorem Guarded.stackTempSample (a0 : Fin 16) (a1 : PairReading) : Guarded.Statement (.stackTempSample a0 a1) := fun _ => ⟨rfl, rfl⟩
theorem Guarded.stackBandChange (a0 : Fin 16) : Guarded.Statement (.stackBandChange a0) := fun _ => ⟨rfl, rfl⟩
theorem Guarded.marketPartitionSwap (a0 : Fin 2) : Guarded.Statement (.marketPartitionSwap a0) := fun _ => ⟨rfl, rfl⟩
theorem Guarded.flitSlot (a0 : Fin 32) (a1 : BitVec 32) : Guarded.Statement (.flitSlot a0 a1) := fun _ => ⟨rfl, rfl⟩
theorem Guarded.flitReceive (a0 : Fin 32) (a1 : Bytes) : Guarded.Statement (.flitReceive a0 a1) := fun _ => ⟨rfl, rfl⟩
theorem Guarded.ackDue (a0 : Fin 32) : Guarded.Statement (.ackDue a0) := fun _ => ⟨rfl, rfl⟩
theorem Guarded.ack (a0 : Fin 32) (a1 : BitVec 16) : Guarded.Statement (.ack a0 a1) := fun _ => ⟨rfl, rfl⟩
theorem Guarded.nak (a0 : Fin 32) (a1 : BitVec 16) : Guarded.Statement (.nak a0 a1) := fun _ => ⟨rfl, rfl⟩
theorem Guarded.credit (a0 : Fin 32) (a1 : BitVec 8) (a2 : BitVec 8) (a3 : BitVec 32) : Guarded.Statement (.credit a0 a1 a2 a3) := fun _ => ⟨rfl, rfl⟩
theorem Guarded.state (a0 : Fin 32) (a1 : BitVec 8) : Guarded.Statement (.state a0 a1) := fun _ => ⟨rfl, rfl⟩
theorem Guarded.t0 (a0 : Fin 24) (a1 : BitVec 8) : Guarded.Statement (.t0 a0 a1) := fun _ => ⟨rfl, rfl⟩
theorem Guarded.t1 (a0 : Fin 24) (a1 : BitVec 8) (a2 : BitVec 64) : Guarded.Statement (.t1 a0 a1 a2) := fun _ => ⟨rfl, rfl⟩
theorem Guarded.t1f (a0 : Fin 24) (a1 : BitVec 8) (a2 : BitVec 64) : Guarded.Statement (.t1f a0 a1 a2) := fun _ => ⟨rfl, rfl⟩
theorem Guarded.t3 (a0 : Fin 24) (a1 : BitVec 8) (a2 : BitVec 64) : Guarded.Statement (.t3 a0 a1 a2) := fun _ => ⟨rfl, rfl⟩
theorem Guarded.t4 (a0 : Fin 24) (a1 : BitVec 8) (a2 : BitVec 64) : Guarded.Statement (.t4 a0 a1 a2) := fun _ => ⟨rfl, rfl⟩
theorem Guarded.timeExchange : Guarded.Statement (.timeExchange) := fun _ => ⟨rfl, rfl⟩
theorem Guarded.retrainComplete (a0 : Fin 32) : Guarded.Statement (.retrainComplete a0) := fun _ => ⟨rfl, rfl⟩
theorem Guarded.retrainTimeout (a0 : Fin 32) : Guarded.Statement (.retrainTimeout a0) := fun _ => ⟨rfl, rfl⟩
theorem Guarded.parentReselect : Guarded.Statement (.parentReselect) := fun _ => ⟨rfl, rfl⟩
theorem Guarded.bucketLeak : Guarded.Statement (.bucketLeak) := fun _ => ⟨rfl, rfl⟩
theorem Guarded.messageReceive (a0 : Fin 24) : Guarded.Statement (.messageReceive a0) := fun _ => ⟨rfl, rfl⟩
theorem Guarded.incrementRecord (a0 : BitVec 128) : Guarded.Statement (.incrementRecord a0) := fun _ => ⟨rfl, rfl⟩
theorem Guarded.heldRecordApply : Guarded.Statement (.heldRecordApply) := fun _ => ⟨rfl, rfl⟩
theorem Guarded.abortMessage (a0 : BitVec 16) (a1 : BitVec 16) (a2 : BitVec 64) : Guarded.Statement (.abortMessage a0 a1 a2) := fun _ => ⟨rfl, rfl⟩
theorem Guarded.haltMessage (a0 : Fin 24) (a1 : Bytes) : Guarded.Statement (.haltMessage a0 a1) := fun _ => ⟨rfl, rfl⟩
theorem Guarded.pace (a0 : Fin 24) : Guarded.Statement (.pace a0) := fun _ => ⟨rfl, rfl⟩
theorem Guarded.ready (a0 : Fin 24) (a1 : BitVec 8) : Guarded.Statement (.ready a0 a1) := fun _ => ⟨rfl, rfl⟩
theorem Guarded.readyDue (a0 : Fin 24) (a1 : BitVec 8) : Guarded.Statement (.readyDue a0 a1) := fun _ => ⟨rfl, rfl⟩
theorem Guarded.anchorResult (a0 : Fin 4) : Guarded.Statement (.anchorResult a0) := fun _ => ⟨rfl, rfl⟩
theorem Guarded.launchEntry (a0 : Fin 64) : Guarded.Statement (.launchEntry a0) := fun _ => ⟨rfl, rfl⟩
theorem Guarded.watchdogExpire (a0 : EngRef) : Guarded.Statement (.watchdogExpire a0) := fun _ => ⟨rfl, rfl⟩
theorem Guarded.stepEnterRunning (a0 : Fin 4) : Guarded.Statement (.stepEnterRunning a0) := fun _ => ⟨rfl, rfl⟩
theorem Guarded.globalNormArrive (a0 : Fin 4) : Guarded.Statement (.globalNormArrive a0) := fun _ => ⟨rfl, rfl⟩
theorem Guarded.journalRestoreComplete (a0 : Fin 4) : Guarded.Statement (.journalRestoreComplete a0) := fun _ => ⟨rfl, rfl⟩
theorem Guarded.checkDone (a0 : Fin 6) (a1 : BitVec 64) : Guarded.Statement (.checkDone a0 a1) := fun _ => ⟨rfl, rfl⟩
theorem Guarded.digestExchange (a0 : Fin 4) (a1 : BitVec 64) : Guarded.Statement (.digestExchange a0 a1) := fun _ => ⟨rfl, rfl⟩
theorem Guarded.holdupThresholdMet (a0 : Fin 4) : Guarded.Statement (.holdupThresholdMet a0) := fun _ => ⟨rfl, rfl⟩
theorem Guarded.commitRecordWritten (a0 : Fin 4) (a1 : Bool) : Guarded.Statement (.commitRecordWritten a0 a1) := fun _ => ⟨rfl, rfl⟩
theorem Guarded.faultReport (a0 : FaultReport) : Guarded.Statement (.faultReport a0) := fun _ => ⟨rfl, rfl⟩
theorem Guarded.regulatorSample (a0 : List TileSample) : Guarded.Statement (.regulatorSample a0) := fun _ => ⟨rfl, rfl⟩
theorem Guarded.windowTermEval : Guarded.Statement (.windowTermEval) := fun _ => ⟨rfl, rfl⟩
theorem Guarded.railTermEval (a0 : Fin 4) : Guarded.Statement (.railTermEval a0) := fun _ => ⟨rfl, rfl⟩
theorem Guarded.thermalSample (a0 : List PairReading) : Guarded.Statement (.thermalSample a0) := fun _ => ⟨rfl, rfl⟩
theorem Guarded.targetMove : Guarded.Statement (.targetMove) := fun _ => ⟨rfl, rfl⟩
theorem Guarded.droopStart (a0 : Fin 4) : Guarded.Statement (.droopStart a0) := fun _ => ⟨rfl, rfl⟩
theorem Guarded.droopEnd (a0 : Fin 4) (a1 : BitVec 32) : Guarded.Statement (.droopEnd a0 a1) := fun _ => ⟨rfl, rfl⟩
theorem Guarded.railOverCurrent (a0 : Fin 4) : Guarded.Statement (.railOverCurrent a0) := fun _ => ⟨rfl, rfl⟩
theorem Guarded.thermalTrip (a0 : TripSource) : Guarded.Statement (.thermalTrip a0) := fun _ => ⟨rfl, rfl⟩
theorem Guarded.tripShutdown : Guarded.Statement (.tripShutdown) := fun _ => ⟨rfl, rfl⟩
theorem Guarded.sensorDisagree (a0 : PairRef) : Guarded.Statement (.sensorDisagree a0) := fun _ => ⟨rfl, rfl⟩
theorem Guarded.powerLoss (a0 : Bool) : Guarded.Statement (.powerLoss a0) := fun _ => ⟨rfl, rfl⟩
theorem Guarded.powerRestore (a0 : BootEnv) : Guarded.Statement (.powerRestore a0) := fun _ => ⟨rfl, rfl⟩
theorem Guarded.pllLockLoss (a0 : BootEnv) : Guarded.Statement (.pllLockLoss a0) := fun _ => ⟨rfl, rfl⟩
theorem Guarded.coldReset (a0 : BootEnv) : Guarded.Statement (.coldReset a0) := fun _ => ⟨rfl, rfl⟩
theorem Guarded.warmReset : Guarded.Statement (.warmReset) := fun _ => ⟨rfl, rfl⟩
theorem Guarded.lockstepMismatch (a0 : BootEnv) : Guarded.Statement (.lockstepMismatch a0) := fun _ => ⟨rfl, rfl⟩
theorem Guarded.pkgRstNRelease (a0 : BootEnv) : Guarded.Statement (.pkgRstNRelease a0) := fun _ => ⟨rfl, rfl⟩
theorem Guarded.tripConditionRelease : Guarded.Statement (.tripConditionRelease) := fun _ => ⟨rfl, rfl⟩
theorem Guarded.radishKernelsFinished (a0 : List RadishRes) : Guarded.Statement (.radishKernelsFinished a0) := fun _ => ⟨rfl, rfl⟩
theorem Guarded.memberTrainingComplete (a0 : BitVec 24) : Guarded.Statement (.memberTrainingComplete a0) := fun _ => ⟨rfl, rfl⟩
theorem Guarded.flashWriteComplete (a0 : Bool) : Guarded.Statement (.flashWriteComplete a0) := fun _ => ⟨rfl, rfl⟩
theorem Guarded.targetRegisterRead (a0 : Agent) : Guarded.Statement (.targetRegisterRead a0) := fun _ => ⟨rfl, rfl⟩

end Sys2Proof.Laws
end

