-- ==== Sys2Proof/Tests/Slice0.lean ====
section
/-! SUPPORT. Tests: ill-formed ops that the checks refuse, words written out from the encoding tables, single steps
on small states, and, for each statement, states and operands that meet its hypotheses. -/

namespace Sys2Proof.Tests
open Machine

-- One test after another: waiting side by side they take a thread's stack each.
set_option Elab.async false

/-! ## Small states -/

/-- A booted package. -/
def up : State := { State.reset with sec := { State.reset.sec with stage := 5 } }

/-- A header that waits for nothing and arrives nowhere. -/
def hdr : OpHdr := { wen := false, wxc := 0, aen := false, axc := 0, fslot := 0, wtgt := 0 }

/-- A header that waits for crossing 47 to reach 1. -/
def hdrW : OpHdr := { hdr with wen := true, wxc := 47, wtgt := 1 }

/-- Logical core 1 of compute die 0. -/
def c1 : CoreRef := { die := 0, core := 1 }

/-- A packet from its fields: the lowest byte and the value. -/
def pkt (fs : List (Nat × Nat)) : BitVec 512 :=
  BitVec.ofNat 512 (fieldsOf (fs.map fun f => (8 * f.1, f.2)))

/-- Ring 0 with one entry in its window. -/
def offered (s : State) (p : BitVec 512) : State :=
  { s with mem := { s.mem with ringWin := wrBytes [] 0 (leBytes 64 p.toNat) },
           rings := [(0, { RingSt.reset with en := true, stopped := false, sqLoc := true, sqTail := 1, cqAddr := 1 })] }

/-- Ring 0 with a command in progress. -/
def busy (s : State) (p : BitVec 512) : State :=
  { s with rings := [(0, { RingSt.reset with en := true, stopped := false, cqAddr := 1, cur := some { pkt := p } })] }

/-- A configuration of one package that uses nothing. -/
def cfg0 : JobCfg :=
  { interleave := false, job := 7, hash := 0,
    topo := { sys := ⟨1, 1, 1⟩, origin := ⟨0, 0, 0⟩, ext := ⟨1, 1, 1⟩, self := ⟨0, 0, 0⟩, memberEn := 0, w2 := 1, w3 := 1,
              w4 := 1, w5 := 1, bypass := [] },
    sync := { wdog := 100, wdogLong := 400, anchorLead := 50, dxOwner := [], pxOwner := [],
              launch := [{ px := 3, valid := true, offset := 10 }],
              window := [{ link := 0, phase := 1, wopen := 5, wclose := 9 }] },
    market := [], cto := 100, groups := [{ p := 1, l1 := 1, l2 := 1, l3 := 1, members := [⟨0, 0, 0, 0⟩] }],
    opt := { journalLimit := 0, lsN := 1, lsMin := 0, lsMax := 8, tau := 0, jbase := [], jbytes := [], stepConst := 0,
             groups := [], segs := [] },
    repl := none, shards := [], power := { pwinLimit := 0, pwinMs := 1, railLimit := 0, tLimit := 95, fastPos := 0 },
    raw := [] }

/-- An image without sections. -/
def img0 : Img := { area := false, hash := 0, seed := 0, sections := [], raw := [] }

/-- Step 2 in a state. -/
def step2 (st : StepPhase) : StepSt :=
  { no := 2, st := st, skipped := false, outcome := none, g := 0, clip := 0, lr := 0, seg := 0, consts := [],
    start := .zero, fin := .zero, entered := 0, anchor := none, anchorAt := 0, checkDone := [], gnDone := [], ueFinal := [],
    restoring := false, restored := false, agree := true, aborts := 0, faults := [], faultsRun := [], recFails := 0,
    abandonedCommit := false, commitTime := 0, discarded := false }

/-- Context 0. -/
def ctx0 (st : CtxPhase) (steps : List StepSt) : CtxSt :=
  { CtxSt.reset with st := st, img := some img0, cfg := some cfg0, steps := steps, next := some 3, unbounded := true,
                     imgMib := 1, cfgMib := 1, bytes := 2 ^ 33 }

/-- A package with context 0 resident. -/
def held (x : CtxSt) : State := { up with ctx := [(0, x)], resident := some 0 }

/-- An image whose one stream is that of engine `e`, with one op of two words. -/
def opImg (e : EngRef) (w x : Nat) : Img :=
  { img0 with sections := [{ kind := 1, die := e.die.val, engine := engCode e.eng,
                             core := if dieEng e.eng then 0xFF else e.core.val, offset := 0, length := 32, dest := 0 }],
              raw := leBytes 16 w ++ leBytes 16 x }

/-- A package in step 2 of context 0, whose image holds the op `i`, with the op's engine at it. -/
def running (i : Instr) : State :=
  match opWord i with
  | none => up
  | some (e, w, x) => (held { ctx0 .stepping [step2 .running] with img := some (opImg e w x) }).setEng e
      { EngSt.reset with step := some 2, live := true, ended := false }

/-- Whether engine `e` may issue an op, as a check. -/
def canIssue (s : State) (e : EngRef) (i : Instr) (h : OpHdr) (n : BitVec 64) : Bool :=
  decide (e.die.val < s.dies) && hdrMet s e (s.engAt e) h && s.isNext e i && (s.engAt e).step == some n

theorem mayOf {s : State} {e : EngRef} {i : Instr} {h : OpHdr} {n : BitVec 64} (q : canIssue s e i h n = true) :
    MayIssue s e i h n := by
  simp only [canIssue, State.isNext, Bool.and_eq_true, decide_eq_true_eq, beq_iff_eq, Bool.not_eq_true'] at q
  obtain ⟨⟨⟨present, header⟩, ⟨⟨⟨⟨_, live⟩, running⟩, free⟩, powered⟩, next⟩, step⟩ := q
  exact { present, powered, step, live, running, free, next, header }

/-- What an option holds, when it holds what a check passes. -/
theorem some_of_any {α : Type} {o : Option α} {p : α → Bool} (h : o.any p = true) : ∃ c, o = some c ∧ p c = true := by
  cases o with
  | none => simp at h
  | some c => exact ⟨c, rfl, h⟩

/-! ## Ops that the checks refuse (R14, R275, R279-R304) -/

/-- A pass in the plainest form. -/
def pass0 : PassF :=
  { orient := false, pack := 0, swap := false, sealB := false, exactM := false, opn := false, cls := false, acc := false,
    bank := false, sfmt := 0, soff := 0, m := 1, mimg := 0, ext := none }

/-- A preload of one row of zeros. -/
def pre0 : PreF := { bank := false, row0 := 0, nrows := 1, col0 := false, wide := true, src := 0, pfmt := 0, pline := 0 }

/-- A vector load of 128 elements of format 5. -/
def vld0 : VldF := { vr := 1, fmt := 5, line := 0, sbyte := 0, len := 0 }

/-- Two vector ops. -/
def vop0 : VopF := { func := 11, vd := 0, va := 0, vb := 0, vc := 0, isel := false, imm := 0 }
def vtr0 : VtrF := { func := 3, vd := 0, va := 0 }

/-- A drain, a spill and a partial drain of one row. -/
def drain0 : DrainF :=
  { bank := false, row0 := 255, nrows := 1, col0 := true, wide := false, clear := true, release := true, fmt := 5,
    line := 0, sbyte := 0 }
def spill0 : SpillF :=
  { bank := false, row0 := 255, nrows := 1, col0 := true, wide := false, init := true, release := true, pline := 0 }
def pdrain0 : PdrainF := { nrows := 1, wide := true, fmt := 5, pline := 0, line := 16, sbyte := 0 }

/-- An arrival of 1 at a core crossing. -/
def arr0 : ArriveF := { scope := 0, die := 0, core := 1, index := 47, n := 1, x := 0, y := 0, z := 0 }

/-- Whether an op is refused: it carries a reserved encoding. -/
def illFormed (i : Instr) : Bool := !i.wf

theorem test_wf_header : illFormed (.nop { die := 0, core := 0, eng := .ae } { hdr with wxc := 48 })
    ∧ illFormed (.meFence c1 { hdr with axc := 48 }) := by decide
theorem test_wf_aeLoad : illFormed (.aeLoad c1 hdr 0xFF 0 []) ∧ illFormed (.aeLoad c1 hdr 5 0 [])
    ∧ illFormed (.aeLoad c1 hdr 0 0xC000 []) := by decide
theorem test_wf_aePass : ∀ f ∈ [{ pass0 with m := 257 }, { pass0 with m := 0 }, { pass0 with pack := 3 },
      { pass0 with opn := true }, { pass0 with exactM := true, m := 65 }], illFormed (.aePass c1 hdr f [] noObs) := by decide
theorem test_wf_aePreload : ∀ f ∈ [{ pre0 with src := 3 }, { pre0 with nrows := 0 }, { pre0 with col0 := true },
      { pre0 with row0 := 1, nrows := 256 }], illFormed (.aePreload c1 hdr f noObs) := by decide
theorem test_wf_vector : illFormed (.vld c1 hdr { vld0 with sbyte := 0x300000 } noObs)
    ∧ illFormed (.vst c1 hdr { vld0 with fmt := 0xFF } noObs) ∧ illFormed (.vop c1 hdr { vop0 with func := 12 } noObs)
    ∧ illFormed (.vtr c1 hdr { vtr0 with func := 5 } noObs) ∧ illFormed (.vred c1 hdr { vtr0 with func := 4 } noObs) := by
  decide
theorem test_wf_out : illFormed (.drain c1 hdr { drain0 with nrows := 2 } noObs)
    ∧ illFormed (.spill c1 hdr { spill0 with wide := true } noObs)
    ∧ illFormed (.pdrain c1 hdr { pdrain0 with nrows := 257 } noObs) := by decide
theorem test_wf_sync : ∀ i ∈ [Instr.xArrive c1 hdr { arr0 with n := 0 }, .xArrive c1 hdr { arr0 with index := 48 },
      .xWait c1 hdr 3 0 1, .xReset c1 hdr 2 64, .ueRun 0 hdr 32 noObs, .cxRun 0 hdr 1], illFormed i := by decide
theorem test_inStore : ∀ i ∈ [Instr.vld c1 hdr { vld0 with line := 0xBFFF } noObs, .aeLoad c1 hdr 0 0xBFFF [],
      .aePreload c1 hdr { pre0 with src := 1, pfmt := 5, pline := 0xBFFF } noObs,
      .aePass c1 hdr { pass0 with soff := 0xBFFF, m := 2 } [] noObs, .spill c1 hdr { spill0 with pline := 0xBFFF } noObs,
      .drain c1 hdr { drain0 with line := 0xBFFF } noObs, .pdrain c1 hdr { pdrain0 with line := 0xBFFF } noObs],
    i.inStore = false := by decide

/-! ## Words from the encoding tables (R269, R274, R288, R303, R304, R525) -/

/-- X_WAIT: opcode 0x41, SCOPE at 48, INDEX at 50, TARGET at 58. -/
theorem test_word_xWait : decodeOp (engOf c1 .sync) (0x41 + 1 * 2 ^ 48 + 255 * 2 ^ 50 + 0x8001 * 2 ^ 58) 0
    = some (.xWait c1 hdr 1 255 0x8001) := by decide
/-- A header with every field: WEN 8, WXC 9-14, AEN 15, AXC 16-21, FSLOT 24-31, WTGT 32-47, on VSRB with its base. -/
theorem test_word_vsrb : decodeOp (engOf c1 .ve)
      (0x28 + 2 ^ 8 + 47 * 2 ^ 9 + 2 ^ 15 + 5 * 2 ^ 16 + 9 * 2 ^ 24 + 3 * 2 ^ 32 + (2 ^ 63 + 1) * 2 ^ 48) 0
    = some (.vsrb c1 { wen := true, wxc := 47, aen := true, axc := 5, fslot := 9, wtgt := 3 } (BitVec.ofNat 64 (2 ^ 63 + 1))) := by
  decide
/-- ME_DESC: opcode 0x30, DIDX at 48. -/
theorem test_word_meDesc : decodeOp (engOf c1 .me) (0x30 + 0x800001 * 2 ^ 48) 0 = some (.meDesc c1 hdr 0x800001) := by decide
/-- CX_RUN: opcode 0x60, CADDR at 48. -/
theorem test_word_cxRun : decodeOp (dieEngOf 3 .cx) (0x60 + 0x40 * 2 ^ 48) 0 = some (.cxRun 3 hdr 0x40) := by decide
/-- An opcode that no stream of the engine holds, and an X_WAIT with the reserved SCOPE 3. -/
theorem test_word_other : decodeOp (engOf c1 .ve) 0x41 0 = none ∧ decodeOp (engOf c1 .sync) 0xFF 0 = none
    ∧ decodeOp (engOf c1 .sync) (0x41 + 3 * 2 ^ 48 + 2 ^ 58) 0 = none := by decide

/-! ## Steps and stops -/

theorem test_step_idle : step up = .next (tick up) := by rfl
theorem test_step_front : (match step { up with pending := [.dynamicAddressAssign 0x3A, .readEvents] } with
    | .next t => t.pending == [.readEvents] && t.sb.daValid && t.sb.daddr == 0x3A
    | _ => false) = true := by decide
/-- The check of R868: all groups have 4,020 entries, so CLEAR_ERRORS needs 32,176 bytes. -/
theorem test_error_groups : 16 + 8 * (maskRegs 0xFFF).length = 32176 := by decide +kernel

theorem test_absent : exec (.droopStart 2) { up with fuse := { up.fuse with kind := .tq4h } } = .fault .absentUnit := by rfl

/-! ## What meets the hypotheses of each statement -/

theorem witness_StepRunsFrontCommandElseTicks : up.pending = [] := rfl

theorem witness_EffectsKeepQueueAndFuses : ∃ t, exec (.dynamicAddressAssign 0x3A) up = .next t := ⟨_, rfl⟩

theorem witness_StepKeepsMemoryCanonical : up.memOk = true ∧ step up = .next (tick up) := ⟨by decide, rfl⟩

theorem witness_LocksClearOnlyByReset : Instr.readEvents.mayReset = false ∧ ∃ t, exec .readEvents up = .next t :=
  ⟨rfl, _, rfl⟩

/-- The last bytes that an AE_LOAD of format 0 can name, and an X_ARRIVE with every field at its largest. -/
theorem witness_OpWordsDecode : ∀ i ∈ [Instr.aeLoad c1 hdr 0 49024 [],
      .xArrive c1 hdr { arr0 with n := 65535, x := 31, y := 31, z := 31 }],
    (opWord i).isSome = true ∧ i.wf = true ∧ i.inStore = true := by decide

theorem witness_CommandsStopByName :
    ({ up.fuse with kind := .tq4h } : Fuses).kind = .tq4h ∧ 2 ≤ (2 : Fin 4).val ∧ 8 ≤ (8 : Fin 16).val
    ∧ 12 ≤ (12 : Fin 24).val ∧ 1 ≤ (1 : Fin 2).val
    ∧ (let i := Instr.xWait c1 hdr 0 47 1
       let s := running i
       s.nextOp (engOf c1 .sync) (s.engAt (engOf c1 .sync)) = some i ∧ (opWord (.meFence c1 hdr)).isSome = true
       ∧ (engOf c1 .me).die.val < s.dies ∧ s.isNext (engOf c1 .me) (.meFence c1 hdr) = false) := by decide +kernel

theorem witness_OpsIssueOrWait :
    (∀ q ∈ [(engOf c1 .ae, Instr.nop (engOf c1 .ae) hdr), (engOf c1 .sync, .end_ (engOf c1 .sync) hdr),
        (engOf c1 .ve, .vsrb c1 hdr 5), (engOf c1 .me, .meFence c1 hdr), (dieEngOf 3 .cx, .cxFence 3 hdr)],
      MayIssue (running q.2) q.1 q.2 hdr 2)
    ∧ (let e := engOf c1 .ae
       let s := running (.nop e hdrW)
       e.die.val < s.dies ∧ s.isNext e (.nop e hdrW) = true ∧ (s.engAt e).step = some 2
       ∧ hdrMet s e (s.engAt e) hdrW = false ∧ (s.engAt e).wait = none) := by
  have h : ∀ q ∈ [(engOf c1 .ae, Instr.nop (engOf c1 .ae) hdr), (engOf c1 .sync, .end_ (engOf c1 .sync) hdr),
        (engOf c1 .ve, .vsrb c1 hdr 5), (engOf c1 .me, .meFence c1 hdr), (dieEngOf 3 .cx, .cxFence 3 hdr)],
      canIssue (running q.2) q.1 q.2 hdr 2 = true := by decide +kernel
  exact ⟨fun q m => mayOf (h q m), by decide +kernel⟩

/-- Core c1 of a running package with another array. -/
def withAe (f : AeSt → AeSt) : State := up.modCore c1 fun k => { k with ae := f k.ae }

theorem witness_AeLoadAndPassIssue : ∀ i ∈ [Instr.aeLoad c1 hdr 0 49024 [],
      .aePass c1 hdr { pass0 with m := 256, swap := true } [] noObs],
    MayIssue (running i) (engOf c1 .ae) i hdr 2 ∧ (running i).clock c1 [] = running i
    ∧ ((running i).coreAt c1).ae.load = none ∧ ((running i).coreAt c1).ae.passes = [] := by
  have h : ∀ i ∈ [Instr.aeLoad c1 hdr 0 49024 [], .aePass c1 hdr { pass0 with m := 256, swap := true } [] noObs],
      canIssue (running i) (engOf c1 .ae) i hdr 2 = true ∧ (running i).clock c1 [] = running i
      ∧ ((running i).coreAt c1).ae.load = none ∧ ((running i).coreAt c1).ae.passes = [] := by decide +kernel
  exact fun i m => ⟨mayOf (h i m).1, (h i m).2⟩

theorem witness_PreloadWritesOnlyItsRegion :
    let i := Instr.aePreload c1 hdr { pre0 with row0 := 255, wide := false, col0 := true } noObs
    let k := (running i).coreAt c1
    MayIssue (running i) (engOf c1 .ae) i hdr 2 ∧ k.veOwns false = false ∧ k.hand false = none ∧ k.ae.passes = [] :=
  ⟨mayOf (by decide +kernel), by decide +kernel⟩

/-- A load under way, and a pass that waits at a level with or without a token at a row that is not written. -/
def loading (beat row : Nat) (wrote : Option Bool) : State :=
  withAe fun a => { a with beat := beat, wrote := wrote,
                           load := some { fmt := 0, line := 0, row := row, plane := true, tok := some 0 } }
def passing (level : Nat) (tok : Option Nat) : State :=
  withAe fun a => { a with level := level, token := tok,
                           passes := [{ hdr := hdr, f := pass0, step := 2, seq := 0, started := false, b0 := 0,
                                        plane := false, mrw := false }] }

/-- The beat before the one that row 126 of a load asks for, that beat, and a cycle with a row; a pass whose level has
just come, one whose level is one short, and one behind a token. -/
theorem witness_LoadRowsAndPassStart : c1.die.val < up.dies
    ∧ (∀ q ∈ [(252, none, false), (253, none, true), (253, some true, false)],
        let a := ((loading q.1 126 q.2.1).clock c1 [] |>.coreAt c1).ae
        (a.load.any fun l => (a.wrote.isNone && decide (l.need ≤ a.beat)) == q.2.2) = true)
    ∧ (∀ q ∈ [(3, none, true), (2, none, false), (3, some 0, false)],
        let k := (passing q.1 q.2.1).clock c1 [] |>.coreAt c1
        (k.ae.waiting.any fun p => passReady k p && (!k.ae.tokenStop && decide (4 ≤ k.ae.rise)) == q.2.2) = true)
    ∧ ((up.clock c1 []).coreAt c1).ae.load = none ∧ ((up.clock c1 []).coreAt c1).ae.waiting = none := by decide +kernel

theorem witness_IdleTimeCountsOnce : c1.die.val < up.dies
    ∧ (let a := ((withAe fun a => { a with lastEnd := 1 }).coreAt c1).ae
       a.beat < a.lastEnd)
    ∧ (let k := up.coreAt c1
       k.ae.waiting = none ∧ k.ae.token = none ∧ k.ae.injEnd ≤ k.ae.beat ∧ k.ae.lastEnd ≤ k.ae.beat ∧ k.frozen = false
       ∧ k.ae.up = none) := by decide

/-- A row of an integer pass that waits for its verdict: expected 5, observed so or not. -/
def chk (obs : Int) : RowChk :=
  { due := 0, seq := 0, row := 127, unit := 0, orient := false, isInt := true, obs := 0, exp := 0, mag := 0, obsI := obs,
    expI := 5, nonfinite := false, bound := false, step := 2 }

theorem witness_ChecksumVerdictsAndHandovers :
    c1.die.val < up.dies ∧ (up.coreAt c1).ae.checks = []
    ∧ ((withAe fun a => { a with checks := [chk 5, chk 6] }).coreAt c1).ae.checks = [chk 5, chk 6]
    ∧ (checkFails (chk 5)).1 = false ∧ (checkFails (chk 6)).1 = true
    ∧ (up.coreAt c1).hand true = none ∧ ((up.modCore c1 fun k => k.setHand true (some true)).coreAt c1).hand true = some true :=
  by decide

/-- The vector ops at the ends of their ranges. -/
theorem witness_VectorOpsWriteOneRegister : ∀ i ∈ [Instr.vld c1 hdr { vld0 with line := 49144 } noObs,
      .vop c1 hdr vop0 noObs, .vtr c1 hdr vtr0 noObs, .vred c1 hdr vtr0 noObs],
    MayIssue (running i) (engOf c1 .ve) i hdr 2 := by
  have h : ∀ i ∈ [Instr.vld c1 hdr { vld0 with line := 49144 } noObs, .vop c1 hdr vop0 noObs, .vtr c1 hdr vtr0 noObs,
      .vred c1 hdr vtr0 noObs], canIssue (running i) (engOf c1 .ve) i hdr 2 = true := by decide +kernel
  exact fun i m => mayOf (h i m)

/-- The package with bank 0 of c1 the VE's. -/
def drains (i : Instr) : State := (running i).modCore c1 fun k => { k with ve0 := true }

theorem witness_VectorStoresKeepOtherBytes : ∀ i ∈ [Instr.vst c1 hdr { vld0 with line := 49144 } noObs,
      .drain c1 hdr { drain0 with line := 49148 } noObs, .spill c1 hdr { spill0 with pline := 49144 } noObs,
      .pdrain c1 hdr { pdrain0 with line := 49144 } noObs],
    MayIssue (drains i) (engOf c1 .ve) i hdr 2
    ∧ ((drains i).coreAt c1).veOwns false = true ∧ ((drains i).coreAt c1).hand false = none := by
  have h : ∀ i ∈ [Instr.vst c1 hdr { vld0 with line := 49144 } noObs, .drain c1 hdr { drain0 with line := 49148 } noObs,
      .spill c1 hdr { spill0 with pline := 49144 } noObs, .pdrain c1 hdr { pdrain0 with line := 49144 } noObs],
      canIssue (drains i) (engOf c1 .ve) i hdr 2 = true
      ∧ ((drains i).coreAt c1).veOwns false = true ∧ ((drains i).coreAt c1).hand false = none := by decide +kernel
  exact fun i m => ⟨mayOf (h i m).1, (h i m).2⟩

/-- A descriptor of a kind: one row of 64 bytes. -/
def desc0 (kind : Nat) : BitVec 512 := pkt [(0, kind), (6, 1), (0x0E, 1), (0x16, 1), (0x1E, 1)]

/-- A package at ME_DESC of entry 0 of c1's table, with `n` descriptors outstanding. -/
def described (n : Nat) : State :=
  let s := running (.meDesc c1 hdr 0)
  let t : Section := { kind := 2, die := 0, engine := 0, core := 1, offset := 32, length := 64, dest := 0 }
  let s := s.modCtx 0 fun x => { x with img := x.img.map fun im =>
    { im with sections := im.sections ++ [t], raw := im.raw ++ leBytes 64 (desc0 1).toNat } }
  s.modCore c1 fun k => { k with meDescs := (List.range n).map fun i =>
    (i, some { didx := 0, desc := 0, srb := 0, step := 2, fslot := 0 }) }

theorem witness_MeDescBecomesOutstanding :
    (∀ n ∈ [31, 32], MayIssue (described n) (engOf c1 .me) (.meDesc c1 hdr 0) hdr 2
      ∧ (described n).descAt c1 0 = some (desc0 1) ∧ ((described n).coreAt c1).outstanding = n)
    ∧ (((described 32).modCore c1 fun k => { k with meStallNow := true }).coreAt c1).meStallNow = true := by
  have h : ∀ n ∈ [31, 32], canIssue (described n) (engOf c1 .me) (.meDesc c1 hdr 0) hdr 2 = true
      ∧ (described n).descAt c1 0 = some (desc0 1) ∧ ((described n).coreAt c1).outstanding = n := by decide +kernel
  exact ⟨fun n m => ⟨mayOf (h n m).1, (h n m).2⟩, by decide +kernel⟩

/-- Core c1 with a descriptor of a kind in its last slot. -/
def moving (kind : Nat) : State :=
  up.modCore c1 fun k => { k with meDescs := [(31, some { didx := 0, desc := desc0 kind, srb := 0, step := 2, fslot := 0 })] }

theorem witness_MoveDescriptorsRun : ∀ kind ∈ [1, 2, 3, 4],
    ((moving kind).coreAt c1).slot 31 = some { didx := 0, desc := desc0 kind, srb := 0, step := 2, fslot := 0 }
    ∧ (descOf (desc0 kind)).kind = kind ∧ descUp (moving kind) (desc0 kind) = true
    ∧ (moving kind).pmc.dieOff.contains c1.die.val = false := by decide +kernel

/-- A package at an op of the sync engine of c1, with a crossing of c1 at a value. -/
def crossed (i : Instr) (v : BitVec 16) : State :=
  { running i with sync := { up.sync with xcnt := [(xKey 0 0 1 47 (bankOf 2), v)] } }

/-- Sums that just fit and that do not, and a record with and without room on its first link. -/
theorem witness_ArriveCountsAndSaturates :
    (∀ q ∈ [(arr0, (65534 : BitVec 16)), ({ arr0 with scope := 3 }, 0)],
      MayIssue (crossed (.xArrive c1 hdr q.1) q.2) (engOf c1 .sync) (.xArrive c1 hdr q.1) hdr 2)
    ∧ (let k := xKey 0 0 1 47 (bankOf 2)
       let at_ := fun v => (tget 0#16 (crossed (.xArrive c1 hdr arr0) v).sync.xcnt k).toNat + arr0.n.toNat
       at_ 65534 ≤ 65535 ∧ 65535 < at_ 65535)
    ∧ (running (.xArrive c1 hdr { arr0 with scope := 3 })).recRoom ⟨0, 0, 0⟩ = true
    ∧ up.recRoom ⟨0, 0, 0⟩ = false := by
  have h : ∀ q ∈ [(arr0, (65534 : BitVec 16)), ({ arr0 with scope := 3 }, 0)],
      canIssue (crossed (.xArrive c1 hdr q.1) q.2) (engOf c1 .sync) (.xArrive c1 hdr q.1) hdr 2 = true := by decide +kernel
  exact ⟨fun q m => mayOf (h q m), by decide +kernel⟩

/-- An engine of c1 that waits. -/
def waiting (k : WaitKind) (ix : Nat) (tg : BitVec 16) (stb : BitVec 64) : State :=
  up.setEng (engOf c1 .sync) { EngSt.reset with
    step := some 2, live := true, ended := false,
    wait := some { kind := k, scope := 0, die := 0, core := 1, index := ix, bank := bankOf 2, target := tg, stb := stb,
                   ticks := 0, total := 0, ok := false } }

/-- A crossing at 5 against targets 5 and 6, the time 0 against 0 and 1, and waits that are met and not met. -/
theorem witness_CrossingWaitsAndWakes :
    (∀ i ∈ [Instr.xWait c1 hdr 0 47 5, .xWait c1 hdr 0 47 6, .xAttime c1 hdr 0, .xAttime c1 hdr 1, .xReset c1 hdr 0 47],
      MayIssue (crossed i 5) (engOf c1 .sync) i hdr 2 ∧ ((crossed i 5).xVal 0 0 1 47 2).toNat = 5
      ∧ (crossed i 5).stbTicks = 0 ∧ ((crossed i 5).engAt (engOf c1 .sync)).wait = none)
    ∧ (∀ q ∈ [(WaitKind.header, (0 : BitVec 16), true), (.xwait, 0, true), (.xwait, 1, false)],
        (((waiting q.1 47 q.2.1 0).engRaw (engOf c1 .sync)).wait.any fun w =>
          w.kind == q.1 && (waiting q.1 47 q.2.1 0).waitMet w == q.2.2) = true)
    ∧ (∀ q ∈ [(0, true), (1, false)],
        (((waiting .attime 0 0 (BitVec.ofNat 64 q.1)).engRaw (engOf c1 .sync)).wait.any fun w =>
          w.kind == .attime && (waiting .attime 0 0 (BitVec.ofNat 64 q.1)).reached w.stb == q.2) = true)
    ∧ (up.engRaw (engOf c1 .sync)).wait = none := by
  have h : ∀ i ∈ [Instr.xWait c1 hdr 0 47 5, .xWait c1 hdr 0 47 6, .xAttime c1 hdr 0, .xAttime c1 hdr 1, .xReset c1 hdr 0 47],
      canIssue (crossed i 5) (engOf c1 .sync) i hdr 2 = true ∧ ((crossed i 5).xVal 0 0 1 47 2).toNat = 5
      ∧ (crossed i 5).stbTicks = 0 ∧ ((crossed i 5).engAt (engOf c1 .sync)).wait = none := by decide +kernel
  exact ⟨fun i m => ⟨mayOf (h i m).1, (h i m).2⟩, by decide +kernel⟩

/-- An engine with one issued op. -/
def issuing (st : Option (BitVec 64)) (done : Bool) : State :=
  up.setEng (engOf c1 .ve) { EngSt.reset with
    step := st, opIdx := 1, live := true, ended := false,
    issued := [{ code := 0x22, hdr := { hdr with aen := true, axc := 47 }, step := 2, flags := [(255, 8)], done := done,
                 sealBank := none, relBank := none, slot := none }] }

/-- An op that is not done, one of another step than its engine's, and one of its engine's step. -/
theorem witness_OpsCompleteInOrder : ∀ q ∈ [(2, false), (3, true), (2, true)],
    let s := issuing (some (BitVec.ofNat 64 q.1)) q.2
    let r := s.engRaw (engOf c1 .ve)
    ∃ op, r.issued.head? = some op
      ∧ (op.done == q.2 && !s.handDue (engOf c1 .ve) op && r.step == some (BitVec.ofNat 64 q.1) && op.step == 2 && op.hdr.aen
        && decide (r.arrived ≤ r.opIdx - r.issued.length)) = true := by
  have h : ∀ q ∈ [(2, false), (3, true), (2, true)],
      ((issuing (some (BitVec.ofNat 64 q.1)) q.2).engRaw (engOf c1 .ve)).issued.head?.any (fun op =>
        op.done == q.2 && !(issuing (some (BitVec.ofNat 64 q.1)) q.2).handDue (engOf c1 .ve) op
        && ((issuing (some (BitVec.ofNat 64 q.1)) q.2).engRaw (engOf c1 .ve)).step == some (BitVec.ofNat 64 q.1) && op.step == 2 && op.hdr.aen
        && decide (((issuing (some (BitVec.ofNat 64 q.1)) q.2).engRaw (engOf c1 .ve)).arrived
          ≤ ((issuing (some (BitVec.ofNat 64 q.1)) q.2).engRaw (engOf c1 .ve)).opIdx
            - ((issuing (some (BitVec.ofNat 64 q.1)) q.2).engRaw (engOf c1 .ve)).issued.length)) = true := by decide +kernel
  exact fun q m => some_of_any (h q m)

/-- An op slot of die 0's CX: the op of descriptor `d` of step 2. -/
def slotSt (d : BitVec 512) : CxSlot :=
  { desc := d, gnorm := false, group := 0, step := 2, opSeq := 0, ord := 0, srb := 0, fslot := 0, hop := 0, acc := [],
    lanes := [], seenRanks := [], flags := 0, normAdded := false, done := false, ticks := 0, total := 0 }
def inSlot (s : State) (k : CxSlot) : State :=
  { s with cx := [(0, { CxSt.reset with slots := [(3, some k)] })] }

/-- A wait that has lasted the watchdog period, and an op slot its own. -/
def hung : State :=
  inSlot ((held (ctx0 .stepping [step2 .running])).setEng (engOf c1 .sync)
    { EngSt.reset with
      step := some 2, live := true, ended := false,
      wait := some { kind := .xwait, scope := 0, die := 0, core := 1, index := 47, bank := bankOf 2, target := 1, stb := 0,
                     ticks := 100, total := 100, ok := false } })
    { slotSt 0 with ticks := 100, total := 100 }

theorem witness_WatchdogsAndTimersReport :
    hung.cur.bind (fun c => c.2.cfg) = some cfg0
    ∧ (∃ w, (hung.engRaw (engOf c1 .sync)).wait = some w
      ∧ (w.kind != .attime && !w.ok && !hung.waitMet w && cfg0.sync.expired w) = true)
    ∧ (∃ k, hung.cxSlot 0 3 = some k ∧ (!k.done && decide (cfg0.cto ≤ k.ticks)) = true) :=
  ⟨rfl, some_of_any (by decide +kernel), some_of_any (by decide +kernel)⟩

/-- The ops of die 0's UE and CX. -/
theorem witness_UpdateAndCollectiveOpsIssue :
    (∀ q ∈ [(dieEngOf 0 .ue, Instr.ueRun 0 hdr 64 noObs), (dieEngOf 0 .cx, .cxRun 0 hdr 64), (dieEngOf 0 .cx, .cxGnorm 0 hdr 0 [])],
      MayIssue (running q.2) q.1 q.2 hdr 2)
    ∧ ueMay (running (.ueRun 0 hdr 64 noObs)) 0 2 = true ∧ (running (.ueRun 0 hdr 64 noObs)).rangeUp 64 64 = true
    ∧ (running (.cxRun 0 hdr 64)).freeCx 0 = some 0 ∧ (running (.cxRun 0 hdr 64)).rangeUp 64 64 = true
    ∧ (let s := running (.cxGnorm 0 hdr 0 [])
       s.gnormSlot 0 = none ∧ (s.engAt (dieEngOf 0 .cx)).issued = [] ∧ s.freeCx 0 = some 0) := by
  have h : ∀ q ∈ [(dieEngOf 0 .ue, Instr.ueRun 0 hdr 64 noObs), (dieEngOf 0 .cx, .cxRun 0 hdr 64),
      (dieEngOf 0 .cx, .cxGnorm 0 hdr 0 [])], canIssue (running q.2) q.1 q.2 hdr 2 = true := by decide +kernel
  exact ⟨fun q m => mayOf (h q m), by decide +kernel⟩

/-- A step in which die 0 alone runs a collective of a kind. -/
def collecting (kind : Nat) : State :=
  inSlot (held (ctx0 .stepping [step2 .running])) (slotSt (pkt [(0, kind)]))

theorem witness_CollectivesRun : ∀ kind ∈ [1, 2, 3, 4, 5, 6, 7, 8],
    ∃ c, (collecting kind).coll 0 3 = some c ∧ (!c.k.gnorm && !c.k.done && c.d.kind == kind
      && (collecting kind).journalFree c && (collecting kind).collUp c && decide (∀ r, r < c.g.p → r = c.me)) = true := by
  have h : ∀ kind ∈ [1, 2, 3, 4, 5, 6, 7, 8], ((collecting kind).coll 0 3).any (fun c => !c.k.gnorm && !c.k.done
    && c.d.kind == kind && (collecting kind).journalFree c && (collecting kind).collUp c
    && decide (∀ r, r < c.g.p → r = c.me)) = true := by
    decide +kernel
  exact fun kind m => some_of_any (h kind m)


/-- A group of two of which only die 0 has issued its barrier. -/
def pair0 : JobCfg := { cfg0 with groups := [{ p := 2, l1 := 2, l2 := 1, l3 := 1, members := [⟨0, 0, 0, 0⟩, ⟨0, 0, 0, 1⟩] }] }
def barring : State := inSlot (held { ctx0 .stepping [step2 .running] with cfg := some pair0 }) (slotSt (pkt [(0, 5)]))

theorem witness_CollectivesRun_waits : (∃ c, barring.coll 0 3 = some c
    ∧ (!c.k.gnorm && !c.k.done && c.d.kind == 5 && decide (1 < c.g.p) && c.me != 1 && !c.k.seenRanks.contains 1
      && c.me != 1) = true)
    ∧ (∀ die : Fin 3, barring.cxAt (die.val + 1) = CxSt.reset) :=
  ⟨some_of_any (by decide +kernel), by decide +kernel⟩

/-- A Market with one allotment and one buffer of it in use. -/
def mkt (busy : List Nat) (p : Option (List MktEnt)) : State :=
  { up with net := { up.net with
    mkt := [(0, { MktSt.reset with
      allocs := [{ stage := false, link := 0, vc := 2, cls := 1, first := 1343, count := 1 }], busy := busy, pendCfg := p })] } }

theorem witness_PortsAndMarketBuffers :
    (siteDie (.sram 3 0) < up.dies ∧ (2 : Fin 6).val < sitePorts (.sram 3 0) ∧ sitePorts (.sram 3 0) ≤ (5 : Fin 6).val
      ∧ (1 : Fin 2).val < up.ios)
    ∧ (∀ cls ∈ [0, 1], (((mkt [1343] none).mktAt 0).allotFor 0 2 cls).isSome = true)
    ∧ ((mkt [] none).mktAt 0).pendCfg = none ∧ (1344 ∈ ((mkt [1344] none).mktAt 0).busy)
    ∧ (((mkt [1343] (some [])).mktAt 0).pendCfg = some [] ∧ ∀ b ∈ ((mkt [1343] (some [])).mktAt 0).busy, b < 1344) := by
  decide +kernel

/-- A read of the last two bytes of a granule by a command of context 0, and by a move descriptor of core c1. -/
def req0 : HbmReq :=
  { issuer := .command 0, step := none, slot := none, addr := 4094, len := 2, write := none, err := [] }
def req1 : HbmReq := { req0 with issuer := .engine (engOf c1 .me), slot := some 31 }

/-- A package with a prefetching descriptor, and with requests at the controller of stack 0. -/
def asked (queue ports : List QueuedReq) : State :=
  let s := { moving 0x101 with ctx := [(0, ctx0 .stepping [step2 .running])], resident := some 0 }
  s.modStack 0 fun t => { t with queue := queue, ports := ports }

/-- Requests in and out of the granule, the region and HBM; controllers full for prefetch requests only and for all;
an engine with a request at its port; and one with a request in a slot for the same line and for another. -/
theorem witness_HbmRequestServedOrRefused :
    (let s := asked [] []
     (∀ q ∈ [(req0, true), ({ req0 with len := 3 }, false), ({ req0 with issuer := .command 1 }, false), (req1, true),
          ({ req0 with write := some [1, 2] }, true), ({ req0 with addr := BitVec.ofNat 48 (s.hbmBytes - 2) }, false)],
        (reqInGranule q.1 && s.place q.1.addr.toNat == .hbm && s.allowed q.1.issuer q.1.addr.toNat q.1.len) == q.2)
     ∧ (s.stackOf 4094).1 = 0 ∧ s.serves 0 = true ∧ s.mem.ecc = [] ∧ s.isPrefetch req0 = false ∧ s.isPrefetch req1 = true)
    ∧ ({ up with pmc := { up.pmc with selfRefresh := true } } : State).serves 0 = false
    ∧ (∀ q ∈ [(191, false, false), (192, true, false), (256, true, true)],
        let t := (asked (List.replicate q.1 { req := req1, pf := true }) []).stackAt 0
        t.full true = q.2.1 ∧ t.full false = q.2.2)
    ∧ (∃ x ∈ ((asked [] [{ req := req1, pf := true }]).stackAt 0).ports, x.req.issuer = req1.issuer)
    ∧ (∀ q ∈ [(req1, true), ({ req1 with addr := 0 }, false)],
        ((asked [{ req := req1, pf := true }] []).stackAt 0).queue.all fun x => sharesLine x.req q.1 == q.2) := by
  decide +kernel

/-- Stack 15 in another state, at a time. -/
def stacked (f : StackSt → StackSt) (now : Nat) : State :=
  { up.modStack 15 f with stb := { up.stb with ticks := now } }

theorem witness_StackMaintenance :
    ((15 : Fin 16).val < up.stacks ∧ up.serves 15 = true ∧ up.mem.ecc = [] ∧ (up.stackAt 15).queue = []
      ∧ (up.stackAt 15).ports = [] ∧ (up.stackAt 15).due = none ∧ (up.stackAt 15).coolSince = none
      ∧ (up.stackAt 15).scrubDue = false)
    ∧ ({ up with pmc := { up.pmc with selfRefresh := true } } : State).serves 15 = false
    ∧ (∀ now ∈ [99, 100], let s := stacked (fun t => { t with scrubNext := 100, scrubDue := true,
                                                              queue := [{ req := req0, pf := false }] }) now
        ((s.stackAt 15).queue = { req := req0, pf := false } :: [] ∧ s.serves 15 = true ∧ (s.stackAt 15).scrubDue = true)
        ∧ (s.stb.ticks < (s.stackAt 15).scrubNext ↔ now = 99))
    ∧ ((stacked (fun t => { t with due := some (.shutdown, 0) }) 0).stackAt 15).due = some (.shutdown, 0)
    ∧ (let s := stacked (fun t => { t with coolSince := some 5 }) 1000005
       (s.stackAt 15).due = none ∧ (s.stackAt 15).coolSince = some 5 ∧ 5 + 1000000 ≤ s.stb.ticks) := by decide +kernel

/-- Stack 15 shut down. -/
def cooled (s : State) : State := s.modStack 15 fun t => { t with band := .shutdown }

/-- A next step behind a running one and with none, an aborted one to run again; and a context that may not run, an op
left of the step, and a region over a stack that is shut down. -/
theorem witness_StepEntersRunning :
    (∀ x ∈ [ctx0 .stepping [], ctx0 .stepping [{ step2 .aborted with restored := true }]],
      let s := held x
      x.entrant.any (fun n => s.opsGone n && (n == 3) == (x.stepAt n).isNone) = true ∧ x.cfg = some cfg0
      ∧ s.mayRun 0 (s.ctxAt 0) = true ∧ s.regionServed (s.ctxAt 0) = true ∧ s.ctxAt 0 = x)
    ∧ (let x := ctx0 .stepping [step2 .gated]
       x.entrant = some 3 ∧ x.stepAt 3 = none ∧ x.steps ≠ [])
    ∧ (held (ctx0 .idle [])).mayRun 0 ((held (ctx0 .idle [])).ctxAt 0) = false ∧ (ctx0 .idle []).entrant = some 3
    ∧ (issuing (some 2) false).opsGone 2 = false
    ∧ (cooled (held { ctx0 .stepping [] with base := 3 * 2 ^ 38 })).regionServed { ctx0 .stepping [] with base := 3 * 2 ^ 38 }
        = false := by decide +kernel

/-- An image with one update descriptor, at the constants of die 0. -/
def updImg : Img := { img0 with
  sections := [{ kind := 1, die := 0, engine := 4, core := 0xFF, offset := 0, length := 32, dest := 0 },
               { kind := 3, die := 0xFF, engine := 0xFF, core := 0xFF, offset := 32, length := 64, dest := 0 }],
  raw := leBytes 16 0x50 ++ leBytes 16 0x01 ++ leBytes 64 0 }

theorem witness_NormDecidesTheStep :
    ((held (ctx0 .stepping [step2 .running])).ctxAt 0).steps.find?
      (fun t => t.st == .running && (List.range up.dies).all t.gnDone.contains) = none
    ∧ (∀ q ∈ [(img0, false), (updImg, true)],
        let t : StepSt := { step2 .running with gnDone := [0, 1, 2, 3] }
        let x := { ctx0 .stepping [t] with img := some q.1 }
        x.steps.find? (fun t => t.st == .running && (List.range up.dies).all t.gnDone.contains) = some t
        ∧ (held x).ctxAt 0 = x ∧ x.cfg = some cfg0 ∧ q.1.updatesAny 4 = q.2) := by
  decide +kernel

/-- Every engine past step 2. -/
def pastStep (s : State) : State :=
  { s with eng := (List.range 2048).map fun i => (i, { EngSt.reset with step := some 3 }) }

theorem tget_pastStep {d v : EngSt} {n k i : Nat} (h : i ≤ k) (q : k < i + n) :
    tget d ((List.range' i n).map fun j => (j, v)) k = v := by
  induction n generalizing i with
  | zero => omega
  | succ n ih =>
    simp only [List.range'_succ, List.map_cons, tget]
    split
    · rfl
    · exact ih (by omega) (by omega)

theorem pastStep_quiet (s : State) : (pastStep s).quiet 2 = true := by
  have e : ∀ r, (pastStep s).engDone r 2 = true := fun r => by
    have h : engKey r < 2048 := by
      have := r.die.isLt; have := r.core.isLt
      simp only [engKey]; split <;> omega
    have g : (pastStep s).engRaw r = { EngSt.reset with step := some 3 } := by
      simp only [pastStep, State.engRaw, List.range_eq_range']; exact tget_pastStep (Nat.zero_le _) (by omega)
    simp only [State.engDone, g]; decide
  simp only [State.quiet, List.all_eq_true, Bool.and_eq_true]
  exact fun _ _ => ⟨e _, fun _ _ _ _ => e _⟩

/-- Context 0 with the restore of step 2 due. -/
def undoing (st : StepPhase) (sk : Bool) : StepSt :=
  { step2 st with restoring := true, skipped := sk, start := { TrainSt.zero with dieDigest := [0] } }

/-- The package with a journal record whose bytes are not there. -/
def unkept : State :=
  let s := held (ctx0 .stepping [undoing .aborted false])
  ({ s with mem := { s.mem with hbm := [(0, 1)] } } : State).modUe 0 fun u =>
    { u with recs := [{ cx := false, kind := 1, seq := 0, at_ := 0, len := 4, addr := 4096, step := 2 }] }

set_option maxRecDepth 100000 in
/-- Journals that give the data back, and one that does not. -/
theorem witness_RestoreCompletes :
    (∀ q ∈ [(StepPhase.aborted, false), (.restoring, false), (.restoring, true)],
      let t := undoing q.1 q.2
      let s := held (ctx0 .stepping [t])
      (s.ctxAt 0).steps.find? (fun t => t.restoring) = some t ∧ (s.ctxAt 0).cfg = some cfg0
      ∧ s.regionServed (s.ctxAt 0) = true ∧ (s.restoreAll true).2 = true ∧ (s.restoreAll false).2 = true
      ∧ t.start.dieDigest ≠ [] ∧ (s.ctxAt 0).steps.head? = some t ∧ (s.ctxAt 0).img ≠ none)
    ∧ (let x := { ctx0 .stepping [undoing .aborted false] with base := 3 * 2 ^ 38 }
       (cooled (held x)).regionServed x = false)
    ∧ (unkept.restoreAll true).2 = false ∧ (unkept.ctxAt 0).steps = [undoing .aborted false] ∧ cfg0.replicas = [] := by
  decide +kernel

theorem witness_RestoreCompletes_quiet : (pastStep (held (ctx0 .stepping [undoing .restoring true]))).quiet 2 = true :=
  pastStep_quiet _

/-- A job on two packages beside each other in X, which are replicas of one another. -/
def cfg2 : JobCfg := { cfg0 with
  topo := { cfg0.topo with sys := ⟨2, 1, 1⟩, ext := ⟨2, 1, 1⟩, memberEn := 0xFFFFFF },
  groups := [{ p := 2, l1 := 2, l2 := 1, l3 := 1, members := [⟨0, 0, 0, 0⟩, ⟨1, 0, 0, 0⟩] }], repl := some 0 }

/-- A message of VC0 that has reached Town Hall from a link. -/
def told (link : Nat) (p : Bytes) : RxMsg :=
  { link := link, buf := none, vc := 0, payload := p, tag := [], first := 0, last := 0,
    hdr := { dst := ⟨0, 0, 0⟩, cls := 0, len := 16, phase := 0, job := 7, seq := 0, epoch := 1, enc := false : MsgHdr }.pack }
def heard (s : State) (rs : List RxMsg) : State := { s with net := { s.net with delivered := rs } }

/-- Context 0 with step 2 gated and every other check closed. -/
def gated (agree low : Bool) : State :=
  let s := held (ctx0 .stepping [{ step2 .gated with agree := agree, checkDone := [0, 1, 2, 4, 5] ++ (if agree then [] else [3]) }])
  { s with pmc := { s.pmc with huLow := low },
           eng := (List.range 402).map fun i => (1536 + i, { EngSt.reset with step := some 2 }) }

/-- The same on the job of two, with a digest from the other replica. -/
def gated2 (low : Bool) (d : Option Nat) : State :=
  heard ((gated false low).modCtx 0 fun x => { x with cfg := some cfg2 })
    ((d.map fun v => told 0 (digestPayload ⟨1, 0, 0⟩ 2 (BitVec.ofNat 64 v))).toList)

theorem witness_StepLeavesGated :
    ((gated true true).dieDone 3 2 = true ∧ (0 : Fin 6).val ∈ (held (ctx0 .stepping [step2 .running])).checkUnits
      ∧ (held (ctx0 .stepping [step2 .running])).resident = some 0)
    ∧ (∀ low ∈ [true, false],
      (∀ s ∈ [gated true low, gated2 low (some 0)], s.resident = some 0 ∧ (s.ctxAt 0).halted = false
        ∧ s.pmc.powerLost = false ∧ s.reportDue 2 = false ∧ s.holdup = !low)
      ∧ 3 ∈ (gated true low).checkUnits
      ∧ (gated true low).checkUnits.all (fun u => u == 3 || [0, 1, 2, 4, 5].contains u) = true
      ∧ (gated2 low none).checkUnits.all [0, 1, 2, 4, 5, 3].contains = true)
    ∧ (cfg2.replicas = [⟨1, 0, 0⟩]
      ∧ ∀ d ∈ [none, some 0, some 5], ((gated2 false d).ctxAt 0).cfg = some cfg2
        ∧ (gated2 false d).heardFrom tagDigest 2 ⟨1, 0, 0⟩ = d)
    ∧ ((held (ctx0 .stepping [step2 .deferred])).holdup = true ∧ (step2 .gated).fin.pkgDigest = 0
      ∧ (step2 .gated).aborts = 0) := by decide +kernel

theorem witness_CommitRecordOutcomes :
    (let t := step2 .committing
     let x := ctx0 .stepping [t]
     let s := held x
     s.ctxAt 0 = x ∧ s.resident = some 0 ∧ x.img = some img0 ∧ x.cfg = some cfg0 ∧ x.haltTo = none ∧ x.haltAfter = none
     ∧ x.swapAt = none ∧ x.pendImg = none
     ∧ (t.abandonedCommit || s.pmc.powerLost || x.evtEvery != 0 || x.saveSched || !x.unbounded || !s.holdup) = false
     ∧ s.resetDue = none ∧ t.faults = [] ∧ t.faultsRun = [] ∧ s.net.linkSched = [])
    ∧ (∀ n ∈ [0, 1], ((held (ctx0 .stepping [{ step2 .committing with recFails := n }])).ctxAt 0).steps
        = { step2 .committing with recFails := n } :: []) := by decide +kernel

theorem witness_FaultReportsAreLoggedAndAbort :
    (up.resident = none ∧ [(1 : BitVec 8)].all (fun k => !bornLasting k && k != 0x0F && k != 0x10) = true)
    ∧ (∀ st ∈ [StepPhase.running, .gated],
      let t : StepSt := { step2 st with aborts := 2 }
      let s := held { ctx0 .stepping [t] with epoch := 0xFFFE }
      s.resident = some 0 ∧ (s.ctxAt 0).steps = [t] ∧ t.aborts < 3 ∧ t.faults = [] ∧ t.faultsRun = []
      ∧ (s.ctxAt 0).epoch ≠ 0xFFFF ∧ (mkReport 1 1 (coreLocus 0 0) t.no 0).tags = [t.no]) := by decide +kernel

/-- A package in step 2 that holds the record `r`, and a record for a step. -/
def recording (h : List HeldRec) : State :=
  { held { ctx0 .stepping [step2 .running] with epoch := 1 } with sync := { up.sync with held := h } }
def recFor (st : BitVec 64) (job epoch : BitVec 16) : BitVec 128 :=
  { step := st, job := job, epoch := epoch, n := 65535, index := 63 : IncRec }.pack

theorem witness_IncrementRecordsAreJudged :
    (∀ q ∈ [(recFor 2 7 1, RecOut.apply), (recFor 2 8 1, .stray), (recFor 1 7 1, .discard), (recFor 2 7 0, .discard),
        (recFor 3 7 1, .hold), (recFor 2 7 2, .hold)],
      (recording []).judgeRec (incRec q.1) = q.2
      ∧ (let h : HeldRec := { record := q.1, link := 0, buf := none }
         let s := recording [{ h with record := recFor 3 7 1 }, h]
         s.net.delivered = []
         ∧ s.sync.held.find? (fun h => s.judgeRec (incRec h.record) != .hold) = if q.2 = .hold then none else some h)) := by
  decide +kernel

/-- Step 2 with an anchor, at a time. -/
def anchored (tick : Nat) : State :=
  { held (ctx0 .stepping [{ step2 .running with anchor := some 5 }]) with stb := { up.stb with time := tick * 65536 } }

/-- A job of two, before and after the other package's time has come; an entry that is due, done and late; a link that
is paced; and a window that has opened in the newest of two steps. -/
theorem witness_AnchorsLaunchesAndPacing :
    (∀ q ∈ [([], none), ([told 0 (anchorPayload ⟨1, 0, 0⟩ 2 9)], some 9)],
      let x := { ctx0 .stepping [step2 .running] with cfg := some cfg2 }
      let s := heard (held x) q.1
      s.ctxAt 0 = x ∧ x.steps.find? (fun t => t.st.runs && t.anchor.isNone) = some (step2 .running)
      ∧ cfg2.topo.others = [⟨1, 0, 0⟩] ∧ s.heardFrom tagAnchor 2 ⟨1, 0, 0⟩ = q.2 ∧ s.sync.slot = [])
    ∧ (cfg0.sync.launch[0]? = some { px := 3, valid := true, offset := 10 } ∧ (step2 .running).st.runs = true
      ∧ 5 + 10 ≤ (anchored 15).stbTicks
      ∧ ∀ d ∈ [[], [0]], ({ anchored 15 with sync := { up.sync with launch := { done0 := d, done1 := d } } } : State).sync.launch.did
          (bankOf 2) 0 = d.contains 0)
    ∧ (23 : Fin 24).val < up.links
    ∧ (∀ q ∈ [(false, []), (true, [1]), (true, [])],
        let k := (up.modSlot 23 fun k => { k with paced := q.1, readyIn := q.2 }).slotAt 23
        k.paced = q.1 ∧ k.readyIn = q.2)
    ∧ (∀ out ∈ [[], [1]],
        let s := (anchored 10).modSlot 0 fun k => { k with hsk := true, readyOut := out }
        (s.ctxAt 0).cfg.bind (fun g => g.sync.window.find? fun w => w.link == 0 && w.phase == 1)
          = some { link := 0, phase := 1, wopen := 5, wclose := 9 }
        ∧ (s.ctxAt 0).steps.reverse.find? (fun t => t.st.runs) = some { step2 .running with anchor := some 5 }
        ∧ 5 + 5 ≤ s.stbTicks ∧ (s.slotAt 0).hsk = true ∧ (s.slotAt 0).readyOut = out) := by decide +kernel

/-- Contexts 0 and 1 of jobs 7 and 8, context 0 resident. -/
def two (x : CtxSt) : State :=
  { held x with ctx := [(0, x), (1, { ctx0 .idle [] with cfg := some { cfg0 with job := 8 } })] }

theorem witness_AbortAndHaltMessages :
    (∀ st ∈ [StepPhase.running, .gated], let s := held (ctx0 .stepping [step2 st])
      s.resident = some 0 ∧ s.ctxAt 0 = ctx0 .stepping [step2 st] ∧ (s.ctxAt 0).cfg = some cfg0
      ∧ (s.ctxAt 0).epoch.toNat < (1 : BitVec 16).toNat)
    ∧ (0 : BitVec 16).toNat < ((held { ctx0 .stepping [] with epoch := 1 }).ctxAt 0).epoch.toNat
    ∧ (∀ q ∈ [(8, true), (9, false)],
        (two (ctx0 .stepping [])).holdsJob (BitVec.ofNat 16 q.1) = q.2
        ∧ ((two (ctx0 .stepping [])).ctxAt 0).cfg.any (fun g => g.job == BitVec.ofNat 16 q.1) = false)
    ∧ (let s := heard (held (ctx0 .stepping [])) [told 24 (abortPayload 2)]
       s.sync.held = [] ∧ s.net.delivered.filter (fun q => q.link == 24) = [told 24 (abortPayload 2)]
       ∧ BitVec.ofNat 16 (msgHdr (told 24 (abortPayload 2)).hdr).job = cfg0.job)
    ∧ (23 : Fin 24).val < up.links ∧ up.ctxOfJob (fld [7, 0] 0 2) = none
    ∧ (∀ h ∈ [true, false], let s := held { ctx0 .idle [] with halted := h }
        s.ctxOfJob (fld [7, 0] 0 2) = some 0 ∧ (s.ctxAt 0).halted = h) := by decide +kernel

/-- A member in service. -/
def linked (m : Nat) (f : MemberSt → MemberSt) : State := up.modMember m fun x => f { x with st := .active }

/-- A message of no bytes for this package. -/
def note0 : TxMsg := { hdr := 0, payload := [], sent := 0, detour := false, fwd := false, upper := false, par := [] }

/-- A flit with a number. -/
def flit (n : Nat) : Flit := { seq := n, vc := 2, som := true, eom := true, body := [], par := [] }

theorem witness_FlitSlotSendsOneFlit :
    up.hasMember 31 = true ∧ (up.memberAt 31).hasSlots = false
    ∧ (∀ q ∈ [((fun x : MemberSt => x), SlotPick.idle), ((fun x => { x with ctrl := [1] }), .ctrl),
          ((fun x => { x with resend := [flit 0] }), .replay), ((fun x => { x with started := [(0, some note0)] }), .vc 0),
          ((fun x => { x with started := [(1, some note0)] }), .vc 1)],
        ((linked 23 q.1).memberAt 23).hasSlots = true ∧ (linked 23 q.1).slotPick 23 = q.2)
    ∧ ((linked 23 fun x => { x with resend := [flit 0] }).memberAt 23).inService = true
    ∧ ((linked 23 fun x => { x with unacked := List.replicate 512 (flit 0) }).memberAt 23).unacked.length = 512 := by
  decide +kernel

theorem witness_FormatsReadBack :
    (let f : Flit := { seq := 1023, vc := 7, som := true, eom := true, body := List.replicate 250 0xFF, par := [249] }
     f.seq < 1024 ∧ f.vc < 8 ∧ f.body.length = 250)
    ∧ (let h : MsgHdr := { dst := ⟨31, 31, 31⟩, cls := 15, len := 8191, phase := 255, job := 65535, seq := 65535,
                           epoch := 65535, enc := true }
       [h.dst.x, h.dst.y, h.dst.z].all (· < 32) = true ∧ h.cls < 16 ∧ h.len < 8192 ∧ h.phase < 256
       ∧ [h.job, h.seq, h.epoch].all (· < 65536) = true)
    ∧ (let r : IncRec := { step := 2, job := 7, epoch := 1, n := 65535, index := 63 }
       r.n < 65536 ∧ r.index < 64)
    ∧ (List.replicate 256 65535).length = 256 ∧ (∀ v ∈ List.replicate 256 65535, v < 65536) := by decide +kernel

/-- A member that retrains since tick 7, at a time. -/
def retraining (m now : Nat) : State :=
  { up.modMember m fun x => { x with st := .retraining, retrainStart := 7 } with stb := { up.stb with ticks := now } }

/-- Three kept flits around the wrap of the numbers; the states a partner can send; and the tick of each bound on a
retraining with those around it. -/
theorem witness_LinkStateRecordsAndRetraining :
    (let s := linked 31 fun x => { x with unacked := [flit 1022, flit 1023, flit 0] }
     (s.memberAt 31).unacked = [flit 1022] ++ flit 1023 :: [flit 0] ∧ (flit 1023).seq = (1023 : BitVec 16).toNat
     ∧ (∀ g ∈ [flit 1022], g.seq ≠ (1023 : BitVec 16).toNat) ∧ (s.memberAt 31).st = .active
     ∧ ((s.memberAt 31).replayTimes.filter fun t => decide (s.stb.ticks - t < 2000)).length < 16
     ∧ (s.memberAt 31).replayB + 1 < bits (s.bktOf 31) 55 48
     ∧ (∀ g ∈ (s.memberAt 31).unacked, g.seq ≠ (1 : BitVec 16).toNat))
    ∧ (1 : BitVec 8).toNat < 2 ∧ 2 ≤ (2 : BitVec 8).toNat
    ∧ (∀ q ∈ [(23, 500007), (31, 20007)], ∀ d ∈ [0, 1, 2],
        let s := retraining q.1 (q.2 + d - 1)
        (s.memberAt q.1).st = .retraining
        ∧ (s.stb.ticks ≤ (s.memberAt q.1).retrainStart + retrainBound q.1 ↔ d ≤ 1)
        ∧ ((s.memberAt q.1).retrainStart + retrainBound q.1 ≤ s.stb.ticks ↔ 1 ≤ d))
    ∧ (up.memberAt 31).st ≠ .retraining := by decide +kernel

/-- A package of two beside each other in X with all its links active. -/
def beside (f : StbSt → StbSt) : State :=
  let s := { held { ctx0 .stepping [] with cfg := some cfg2 } with stb := f up.stb }
  (List.range 24).foldl (fun (a : State) m => a.modMember m fun x => { x with st := .active }) s

theorem witness_LinkStateRecordsAndRetraining_parent :
    (let s := beside fun b => { b with st := .holdover, gm := some ⟨1, 0, 0⟩ }
     s.stb.st = .holdover ∧ s.stb.parent = none ∧ s.topoCfg = some cfg2.topo
     ∧ (s.parentToward [2, 1, 0] ⟨1, 0, 0⟩).isSome = true) := by decide +kernel

theorem witness_TimeExchangesDriveTheServo :
    (23 : Fin 24).val < up.links ∧ up.stb.exch = none ∧ up.stb.parent ≠ some 23
    ∧ (let e : ExchSt := { num := 255, t1 := some 0, t2 := some 5, t3 := some 0xFFFFFFFFFFFFFFFF }
       e.num = 255 ∧ e.num ≠ 254 ∧ e.t2.isSome = true ∧ e.t1 = some ((0 : BitVec 64).toNat : Int)
       ∧ e.t3 = some ((0xFFFFFFFFFFFFFFFF : BitVec 64).toNat : Int) ∧ up.stb.follow = none)
    ∧ (∀ st ∈ [ServoSt.acquire, .locked, .holdover], ∀ now ∈ [9999, 10000],
        let b : StbSt := { up.stb with st := st, parent := some 23, ticks := now }
        b.urgent = false ∧ (b.ticks < b.lastExch + 10000 ↔ now = 9999))
    ∧ (9830 : Int).natAbs ≤ 9830 ∧ ¬ (-9831 : Int).natAbs ≤ 9830
    ∧ ({ up.stb with meas := some (1, 0), ticks := 2 } : StbSt).meas = some (1, 0) := by decide +kernel

/-- A flit's bytes on a package link. -/
def wireBytes (n vc : Nat) : Bytes := flitBytes { seq := n, vc := vc, som := true, eom := true, body := List.replicate 250 0, par := [] }

set_option maxRecDepth 100000 in
theorem witness_FlitReceiveAcceptsInSequence :
    up.hasMember 31 = true ∧ (up.memberAt 31).st ≠ .active ∧ (up.memberAt 31).st ≠ .retraining
    ∧ (let s := linked 31 fun x => { x with rxSeq := 1023 }
       (s.memberAt 31).st = .active ∧ (s.memberAt 31).uncorrB + 1 < bits (s.bktOf 31) 63 56
       ∧ (s.memberAt 31).rxSeq = 1023)
    ∧ crcOk (List.replicate 256 1) = false
    ∧ (∀ q ∈ [(1023, 5), (0, 5), (0, 7)],
        crcOk (wireBytes q.1 q.2) = true ∧ (flitOf (wireBytes q.1 q.2)).vc = q.2 ∧ (flitOf (wireBytes q.1 q.2)).seq = q.1) := by
  decide +kernel

/-- A whole message on link 23. -/
def rx0 (vc cls job : Nat) : RxMsg :=
  { told 23 [1] with
    vc := vc
    hdr := { dst := ⟨0, 0, 0⟩, cls := cls, len := 1, phase := 0, job := job, seq := 0, epoch := 0, enc := false : MsgHdr }.pack }

/-- The stream of class 15 on VC0 from link 23 with a message of number 0 seen. -/
def repeated : State :=
  (beside id).modStream (streamKey 0 ((beside id).groupOf 23 |>.getD 0) 0 15) fun t => { t with highest := some 0, seen := [0] }

theorem witness_MessagesAreReceivedInOrder :
    (23 : Fin 24).val < up.links ∧ (up.memberAt 23).inbox = []
    ∧ (∀ r ∈ [rx0 2 0 9, rx0 0 15 7, rx0 2 0 7], ((linked 23 fun x => { x with inbox := [r] }).memberAt 23).inbox = [r])
    ∧ ((linked 23 id).judgeJob 9 0 = .stray ∧ (rx0 2 0 9).isHalt = false)
    ∧ ((rx0 0 15 7).isHalt = true ∧ (linked 23 id).ctxOfJob 7 = none ∧ (beside id).ctxOfJob 7 = some 0
      ∧ ((beside id).ctxAt 0).epoch.toNat = 0
      ∧ ∀ s ∈ [beside id, repeated], (s.groupOf 23).any (fun g =>
          ((s.streamAt (streamKey 0 g 0 15)).fresh 0).isSome == decide ((s.streamAt (streamKey 0 g 0 15)).seen = [])) = true)
    ∧ (let s := beside id
       let r := rx0 2 0 7
       let h := msgHdr r.hdr
       2 ≤ r.vc ∧ s.resident = some 0 ∧ (s.ctxAt 0).cfg = some cfg2
       ∧ s.judgeJob (BitVec.ofNat 16 h.job) (BitVec.ofNat 16 h.epoch) = .apply ∧ h.dst = cfg2.topo.self ∧ h.enc = false
       ∧ (s.ctxAt 0).lsec.covers 2 = false
       ∧ (s.groupOf 23).any (fun g => (s.streamAt (streamKey 0 g 2 h.cls)).expect % 65536 == h.seq
           && (s.streamAt (streamKey 0 g 2 h.cls)).held.isEmpty) = true) := by decide +kernel
/-- Whether Town Hall takes a packet from ring 0 for a Citis command, and gives it no reject. -/
def takes (c : Instr) (s : State) (p : BitVec 512) : Bool :=
  match citisForm c with
  | some (r, f) =>
    r == 0 && s.ringReady 0 && s.entryAt 0 == some p && pktOp p == f.op && (s.cmdReject 0 f p).isNone
      && !s.hbmWaits 0 f p
  | none => false

theorem accepted {c : Instr} {s : State} {p : BitVec 512} (h : takes c s p = true) : Accepted c s 0 p := by
  unfold takes at h
  split at h
  · rename_i r f e
    simp only [Bool.and_eq_true, beq_iff_eq, Option.isNone_iff_eq_none] at h
    obtain ⟨⟨⟨⟨⟨h1, h2⟩, h3⟩, h4⟩, h5⟩, h6⟩ := h
    subst h1
    exact ⟨h2, h3, f, e, h4, h5, by simpa using h6⟩
  · simp at h

/-- A packet with an opcode for no context, with a buffer of `n` bytes at 0, and more fields. -/
def cmd (op n : Nat) (fs : List (Nat × Nat)) : BitVec 512 := pkt ([(0, op), (8, 0xFF), (24, n)] ++ fs)
/-- A packet for context 0. -/
def cmd0 (op n : Nat) (fs : List (Nat × Nat)) : BitVec 512 := pkt ([(0, op), (24, n)] ++ fs)

/-- Each query with a buffer that just holds its block, and one that is a byte short. -/
theorem witness_CitisQueriesWriteTheirBlocks :
    (∀ e ∈ [(Instr.identify 0, cmd 0x01 256 [], 256), (.queryStatus 0, cmd0 0x02 128 [], 128),
            (.attest 0, cmd 0x05 416 [], 416), (.journalRead 0, cmd 0x04 64 [(32, 0x20FFC0)], 64)],
      takes e.1 (offered (held (ctx0 .idle [])) e.2.1) e.2.1 = true
      ∧ ((offered (held (ctx0 .idle [])) e.2.1).takeEntry 0 e.2.1).outErr e.2.1 e.2.2 = none)
    ∧ (∀ e ∈ [(cmd 0x01 255 [], 256), (cmd0 0x02 127 [], 128)], (up.takeEntry 0 e.1).outErr e.1 e.2 = some (0xA, e.2))
    ∧ (takes (.readTelemetry 0) (offered up (cmd 0x03 4096 [(28, 1)])) (cmd 0x03 4096 [(28, 1)]) = true
      ∧ (up.telemetry 1).isSome = true ∧ (up.takeEntry 0 (cmd 0x03 0 [(28, 1)])).outErr (cmd 0x03 0 [(28, 1)]) 4096
          = some (0xA, 4096))
    ∧ ((∃ g, g ∈ jdRegions ∧ g.1 ≤ 0x20FFC0 ∧ 0x20FFC0 + 64 ≤ g.1 + g.2)
      ∧ ¬ ∃ g, g ∈ jdRegions ∧ g.1 ≤ 0x500000 ∧ 0x500000 + 64 ≤ g.1 + g.2) := by decide +kernel

theorem witness_PackageCommandsTakeEffect :
    (takes (.remapCore 0) (offered up (cmd 0x40 0 [(28, 3), (29, 95), (30, 0x7F)])) (cmd 0x40 0 [(28, 3), (29, 95), (30, 0x7F)])
        = true ∧ up.cur = none ∧ up.spareOf 3 = some 96 ∧ up.physState 3 96 = 1 ∧ up.physOf 3 95 ≠ 96
      ∧ up.physState 3 95 = 0)
    ∧ (∀ b ∈ [0, 1], takes (.linkCtrl 0) (offered up (cmd 0x41 0 [(28, 23), (29, b)])) (cmd 0x41 0 [(28, 23), (29, b)])
        = true)
    ∧ ((linked 23 id).memberAt 23).st = .active ∧ (up.memberAt 23).st ≠ .active
    ∧ up.lastOfGroup 23 = false ∧ up.ctxIn [.stepping] = none ∧ (held (ctx0 .stepping [])).ctxIn [.stepping] ≠ none
    ∧ (∀ op ∈ [0, 2], takes (.timeCtrl 0) (offered up (cmd 0x42 0 [(28, op)])) (cmd 0x42 0 [(28, op)]) = true)
    ∧ (takes (.timeCtrl 0) (offered (held (ctx0 .idle [])) (cmd0 0x42 0 [(28, 1)])) (cmd0 0x42 0 [(28, 1)]) = true
      ∧ ((held (ctx0 .idle [])).ctxAt 0).cfg = some cfg0)
    ∧ (∀ e ∈ [(0, 1, 100, 4000), (0, 1, 1, 100), (1, 1, 0, 95), (1, 0, 0, 0)],
        let p := cmd 0x43 0 [(28, e.1), (29, e.2.1), (30, e.2.2.1), (32, e.2.2.2)]
        takes (.setPowerLimit 0) (offered up p) p = true)
    ∧ (let p := cmd 0x44 0 [(28, 1023), (32, 15), (40, 2 ^ 40 - 64), (48, 64)]
       takes (.runRadish 0) (offered up p) p = true ∧ up.ctxIn [.stepping, .saving, .restoring] = none
       ∧ up.regionMeets (2 ^ 40 - 64) 64 = none)
    ∧ (let p := cmd 0x45 80 [(28, 0x800)]
       takes (.clearErrors 0) (offered up p) p = true
       ∧ (up.takeEntry 0 p).outErr p (16 + 8 * (maskRegs 0x800).length) = none)
    ∧ (let p := cmd 0x50 64 []
       takes (.fwUpdate 0) (offered up p) p = true ∧ ((offered up p).takeEntry 0 p).inBuf p = some (List.replicate 64 0)
       ∧ fwAuthentic up.fuse (fwImage (List.replicate 64 0)) = false) := by decide +kernel

/-- A package of two with one active link. -/
def lone : State :=
  ({ held { ctx0 .idle [] with cfg := some cfg2 } with pending := [] } : State).modMember 0 fun x => { x with st := .active }

theorem witness_PackageCommandsTakeEffect_last :
    takes (.linkCtrl 0) (offered lone (cmd 0x41 0 [(28, 0), (29, 1)])) (cmd 0x41 0 [(28, 0), (29, 1)]) = true
    ∧ (offered lone (cmd 0x41 0 [(28, 0), (29, 1)])).lastOfGroup 0 = true := by decide +kernel

/-- The result of one kernel on a die. -/
def radish (k res : Nat) : RadishRes :=
  { kernel := BitVec.ofNat 16 k, group := 0, die := 3, phys := 0xFF, result := BitVec.ofNat 8 res, crc := 0 }

theorem witness_PackageOperationsFinish :
    ((busy up (cmd0 0x42 0 [])).ringAt 0).cur = some { pkt := cmd0 0x42 0 [] }
    ∧ (let b : StbSt := { up.stb with st := .acquire, follow := some (0, 5), ticks := 10000005 }
       b.follow = some (0, 5) ∧ 5 + 10000000 ≤ b.ticks ∧ b.st ≠ .locked)
    ∧ (∀ ks ∈ [[radish 0 0], [radish 0 0, radish 1 1]],
        let p := cmd 0x44 (16 + 16 * ks.length) [(28, 2)]
        let s := { busy up p with radishRun := some 0 }
        let u := ks.foldl (fun (a : State) k => a.radishResult k) { s with radishRun := none }
        (u.ringAt 0).cur = some { pkt := p }
        ∧ (({ u with free := u.free + 2, mem := { u.mem with spm := .undef u.free, sram := .undef (u.free + 1) } } :
            State).radishHbm p).outErr p (16 + 16 * ks.length) = none)
    ∧ (∀ f ∈ [0, 2], ∀ op ∈ [0x41, 0x22],
        let s := { busy up (cmd0 op 0 []) with net := { up.net with linkTrain := [(0, 3)] } }
        s.net.linkTrain = (0, 3) :: [] ∧ ((s.ringAt 0).cur.map fun q => pktOp q.pkt) = some op
        ∧ ((3#24 &&& BitVec.ofNat 24 f ≠ 0) ↔ f = 2))
    ∧ (((up.modMember 0 fun x => { x with st := .training }).memberAt 0).st = .training)
    ∧ ({ up.fw with busy := some 0 } : FwSt).busy = some 0 := by decide +kernel

/-- The context commands on packages that take them. -/
theorem witness_ContextCommandsTakeEffect :
    (let p := cmd0 0x10 0 [(32, 2 ^ 40 - 2 ^ 33), (40, 2 ^ 33), (48, 1), (52, 1), (56, 1), (57, 7), (58, 65535)]
     takes (.contextCreate 0) (offered up p) p = true ∧ (2 ^ 40 - 2 ^ 33) % 2 ^ 30 = 0 ∧ 2 ^ 40 - 2 ^ 33 + 2 ^ 33 ≤ up.hbmBytes
     ∧ up.regionMeets (2 ^ 40 - 2 ^ 33) (2 ^ 33) = none ∧ up.saveBytes + 2 * (1 + 1) * 2 ^ 20 ≤ 2 ^ 33
     ∧ (∀ k, k < 4 → (up.ctxAt k).st = .free))
    ∧ (∀ steps ∈ [[], [step2 .running]],
        takes (.contextSave 0) (offered (held (ctx0 .stepping steps)) (cmd0 0x11 0 [])) (cmd0 0x11 0 []) = true)
    ∧ (let s := { held (ctx0 .saved []) with resident := none }
       takes (.contextRestore 0) (offered s (cmd0 0x12 0 [])) (cmd0 0x12 0 []) = true)
    ∧ (∀ y ∈ [ctx0 .saving [], { ctx0 .stepping [] with saveSched := true }, ctx0 .idle []],
        let s := { up with ctx := [(0, ctx0 .saved []), (1, y)], resident := some 1 }
        takes (.contextRestore 0) (offered s (cmd0 0x12 0 [])) (cmd0 0x12 0 []) = true ∧ s.cur = some (1, y))
    ∧ (∀ st ∈ [CtxPhase.saving, .restoring, .idle, .stepping, .saved, .faulted],
        takes (.contextDestroy 0) (offered (held (ctx0 st [])) (cmd0 0x13 0 [])) (cmd0 0x13 0 []) = true) := by decide +kernel

/-- A package whose host memory does not answer. -/
def deaf (s : State) : State := { s with mem := { s.mem with hostHoles := [(0, 2 ^ 64)] } }

/-- The refusals of the commands that load, and a swap that waits. -/
theorem witness_ImagesAndConfigurationsLoad_refused :
    (∀ op ∈ [(Instr.loadImage 0, 0x20), (.loadConfig 0, 0x21)], ∀ n ∈ [64, 2 ^ 20, 2 ^ 20 + 1],
        takes op.1 (offered (held (ctx0 .idle [])) (cmd0 op.2 n [])) (cmd0 op.2 n []) = true)
    ∧ (let s := offered (held (ctx0 .idle [])) (cmd0 0x20 64 [])
       (s.takeEntry 0 (cmd0 0x20 64 [])).inBuf (cmd0 0x20 64 []) = some (List.replicate 64 0)
       ∧ (deaf s |>.takeEntry 0 (cmd0 0x20 64 [])).inBuf (cmd0 0x20 64 []) = none
       ∧ (s.imgReject (s.ctxAt 0) (List.replicate 64 0)).isSome = true
       ∧ (s.cfgErrOf 0 (List.replicate 64 0)).isSome = true
       ∧ (s.ctxAt 0).pendImg = none ∧ (s.ctxAt 0).swapAt = none ∧ (s.ctxAt 0).shadow = none)
    ∧ ({ ctx0 .stepping [] with pendImg := some img0 } : CtxSt).pendImg ≠ none
    ∧ (∀ x ∈ [ctx0 .idle [], { ctx0 .stepping [step2 .running] with shadow := some cfg0, verified := true }],
        takes (.verifyConfig 0) (offered (held x) (cmd0 0x22 0 [])) (cmd0 0x22 0 []) = true
        ∧ takes (.swapConfig 0) (offered (held x) (cmd0 0x23 0 [])) (cmd0 0x23 0 []) = true)
    ∧ (let x := { ctx0 .stepping [step2 .running] with shadow := some cfg0, verified := true }
       x.lsec.wrongJob true cfg0.job = false ∧ x.highest < 3
       ∧ takes (.swapConfig 0) (offered (held x) (cmd0 0x23 0 [(32, 3)])) (cmd0 0x23 0 [(32, 3)]) = true) := by decide +kernel

theorem witness_ImagesAndConfigurationsLoad_swap :
    (let x := { ctx0 .stepping [step2 .running] with shadow := some cfg0, verified := true }
     let p := cmd0 0x23 0 [(32, 3)]
     ((offered (held x) p).takeEntry 0 p).pairCheck x (x.pendImg <|> x.img) (some cfg0) 4 = none)
    ∧ (let x := { ctx0 .idle [] with shadow := some cfg0, verified := true }
       let p := cmd0 0x23 0 []
       takes (.swapConfig 0) (offered (held x) p) p = true
       ∧ ((offered (held x) p).takeEntry 0 p).pairCheck x (x.pendImg <|> x.img) (some cfg0) x.nextNo = none) := by
  decide +kernel

/-- The bytes of a configuration of one package that uses nothing (R678, R679): its header and section table, and the
seven sections. -/
def cfgBytes : Bytes :=
  let z := fun n => List.replicate n (0#8)
  leBytes 4 0x47464354 ++ leBytes 4 0x00010001 ++ leBytes 8 7 ++ leBytes 8 8144 ++ z 40
  ++ ([(1, 192, 32), (2, 256, 5776), (3, 6080, 512), (4, 6592, 272), (5, 6912, 1120), (6, 8064, 48), (7, 8128, 16)].flatMap
      fun (e : Nat × Nat × Nat) => leBytes 8 e.1 ++ leBytes 4 e.2.1 ++ leBytes 4 e.2.2) ++ z 16
  ++ leBytes 4 0x010101 ++ z 4 ++ leBytes 4 0x010101 ++ z 8 ++ leBytes 4 0x3D010101 ++ z 8 ++ z 32
  ++ z 0x690 ++ (List.replicate 256 (255#8 :: z 15)).flatten ++ z 48
  ++ z 512 ++ z 272 ++ z 48
  ++ leBytes 8 0x100000001 ++ leBytes 8 (1 + 2 ^ 32 * 0x3F800000)
  ++ ([0, 1, 2, 3].flatMap fun d => leBytes 8 (2 ^ 38 * d + 2 ^ 20)) ++ ([0, 1, 2, 3].flatMap fun _ => leBytes 8 (2 ^ 20))
  ++ z 1040 ++ z 32 ++ leBytes 8 0x1FFFFFFFF ++ z 8 ++ z 32 ++ z 16 ++ z 16

set_option maxRecDepth 100000 in
theorem cfg_length : cfgBytes.length = 8144 := by decide +kernel

set_option maxRecDepth 100000 in
theorem cfg_clean : up.cfgErrOf 0 cfgBytes = none := by decide +kernel

/-- What the checks of a configuration look at in the package. -/
theorem cfgErrOf_congr {s t : State} {c : Nat} {b : Bytes} (hf : s.fuse = t.fuse) (hi : s.globalIl = t.globalIl)
    (hj : s.otherJobs c = t.otherJobs c) : s.cfgErrOf c b = t.cfgErrOf c b := by
  simp only [State.cfgErrOf, State.dies, State.ios, State.links, State.hbmBytes, hf, hi, hj]

theorem readCfg_clean {s : State} {c : Nat} {b : Bytes} (h : s.cfgErrOf c b = none) : s.readCfg c b = .inr (cfgOf b) := by
  simp only [State.readCfg, h]

/-- In a booted package whose other contexts hold no job and whose interleave is die-local, that configuration reads. -/
theorem cfg_reads {s : State} (hf : s.fuse = up.fuse) (hi : s.globalIl = up.globalIl) (hj : s.otherJobs 0 = up.otherJobs 0) :
    s.readCfg 0 cfgBytes = .inr (cfgOf cfgBytes) :=
  readCfg_clean ((cfgErrOf_congr hf hi hj).trans cfg_clean)

theorem cfg_in_host : rdBytes (wrBytes [] 64 cfgBytes) 64 8144 = cfgBytes := by
  have h := rdBytes_wrBytes [] 64 cfgBytes
  rw [cfg_length] at h
  exact h

/-- An input command's buffer that answers. -/
theorem inBuf_of {s : State} {p : BitVec 512} {a n : Nat} {b : Bytes} (hn : pf p 24 4 = n) (ha : pf p 16 8 = a)
    (ho : s.hostOk a n = true) (hb : rdBytes s.mem.host a n = b) : s.inBuf p = some b := by
  subst hn ha hb
  simp [State.inBuf, State.bufOk, State.hostRead, ho]

/-- Ring 0 with LOAD_CONFIG of bytes at 64 in host memory. -/
def loadPkt : BitVec 512 := cmd0 0x21 8144 [(16, 64)]
def hosting (b : Bytes) : State :=
  let s := offered (held (ctx0 .idle [])) loadPkt
  { s with mem := { s.mem with host := wrBytes [] 64 b } }

theorem hosting_inBuf {b : Bytes} (h : rdBytes (wrBytes [] 64 b) 64 8144 = b) :
    ((hosting b).takeEntry 0 loadPkt).inBuf loadPkt = some b :=
  inBuf_of (n := 8144) (a := 64) (by decide +kernel) (by decide +kernel) rfl h

theorem witness_ImagesAndConfigurationsLoad_config :
    takes (.loadConfig 0) (hosting []) loadPkt = true ∧ 8144 ≤ (ctx0 .idle []).cfgMib * 2 ^ 20
    ∧ ((hosting cfgBytes).takeEntry 0 loadPkt).inBuf loadPkt = some cfgBytes
    ∧ ∀ v : State, v.fuse = up.fuse → v.globalIl = up.globalIl → v.otherJobs 0 = up.otherJobs 0 →
        v.readCfg 0 cfgBytes = .inr (cfgOf cfgBytes) :=
  ⟨by decide +kernel, by decide +kernel, hosting_inBuf cfg_in_host, fun _ => cfg_reads⟩

/-- VERIFY_CONFIG of a shadow with those bytes. -/
theorem witness_ImagesAndConfigurationsLoad_verify :
    let x := { ctx0 .idle [] with shadow := some { cfg0 with raw := cfgBytes } }
    let p := cmd0 0x22 0 []
    let t := (offered (held x) p).takeEntry 0 p
    takes (.verifyConfig 0) (offered (held x) p) p = true ∧ t.readCfg 0 cfgBytes = .inr (cfgOf cfgBytes)
    ∧ t.pairCheck x (x.pendImg <|> x.img) (some { cfg0 with raw := cfgBytes }) x.nextNo = none :=
  ⟨by decide +kernel, cfg_reads rfl rfl (by decide +kernel), by decide +kernel⟩

/-- A commit record of step 5 (R617, R619). -/
def recBody : Bytes := leBytes 8 0x434D5452 ++ leBytes 8 5 ++ List.replicate 4072 (0#8)
def recBytes5 : Bytes := recBody ++ leBytes 8 (crc64 recBody).toNat

set_option maxRecDepth 100000 in
theorem rec_body_length : recBody.length = 4088 := by decide +kernel

theorem rec_length : recBytes5.length = 4096 := by simp [recBytes5, rec_body_length]

theorem fld_tail {b : Bytes} {n k v : Nat} (h : b.length = n) (hv : v < 256 ^ k) : fld (b ++ leBytes k v) n k = v := by
  subst h
  simp [fld, slice, leNat_leBytes, Nat.mod_eq_of_lt hv, List.take_of_length_le]

theorem rec_valid : recValid recBytes5 = true := by
  have h1 : (fld recBytes5 0 4 == 0x434D5452) = true := by decide +kernel
  have h2 : fld recBytes5 0xFF8 8 = (crc64 recBody).toNat := fld_tail rec_body_length (crc64 recBody).isLt
  have h3 : recBytes5.take 0xFF8 = recBody := by
    rw [recBytes5, List.take_append_of_le_length (Nat.le_of_eq rec_body_length.symm), List.take_of_length_le (Nat.le_of_eq rec_body_length)]
  simp only [recValid, h1, h2, h3, Bool.true_and, beq_self_eq_true]

theorem rec_step : recStep recBytes5 = 5 := by decide +kernel

/-- A package whose time is locked, with that record for context 0 in the JD. -/
def timed (s : State) : State := { s with stb := { s.stb with st := .locked } }
def stored (b : Bytes) (s : State) : State := { s with mem := { s.mem with jd := wrBytes [] 0x8000 b } }
theorem stored_jd (b : Bytes) (s : State) : (stored b s).mem.jd = wrBytes [] 0x8000 b := rfl
def recorded (s : State) : State := stored recBytes5 s

theorem rec_invalid : recValid (List.replicate 4096 0) = false := by decide +kernel

theorem rdBytes_blank {a off len : Nat} {bs : Bytes} (h : off + len ≤ a ∨ a + bs.length ≤ off) :
    rdBytes (wrBytes [] a bs) off len = List.replicate len 0 := by
  apply List.ext_getElem
  · simp [rdBytes]
  · intro i hi hj
    simp only [rdBytes, List.length_map, List.length_range] at hi
    simp only [rdBytes, List.getElem_map, List.getElem_range, List.getElem_replicate]
    rw [tget_wrBytes_outside (by omega)]
    rfl

theorem newest_of {b : Bytes} (s : State) (hl : b.length = 4096) (hv : recValid b = true) :
    (stored b s).newestRec 0 = some b := by
  have h0 : rdBytes (wrBytes [] 0x8000 b) 0x8000 4096 = b := by
    have h := rdBytes_wrBytes [] 0x8000 b
    rwa [hl] at h
  have h1 : rdBytes (wrBytes [] 0x8000 b) 0x9000 4096 = List.replicate 4096 0 :=
    rdBytes_blank (.inr (by omega))
  have r0 : (stored b s).jdRead (0x8000 + 0 * 0x2000) 4096 = b := h0
  have r1 : (stored b s).jdRead (0x8000 + 0 * 0x2000 + 0x1000) 4096 = List.replicate 4096 0 := h1
  unfold State.newestRec
  rw [r0, r1]
  have hz := rec_invalid
  generalize List.replicate 4096 (0#8) = z at hz ⊢
  simp only [hv, hz]

theorem recorded_newest (s : State) : (recorded s).newestRec 0 = some recBytes5 := newest_of s rec_length rec_valid

/-- What START_STEPS and RESUME check of a package whose image and configuration agree. -/
theorem witness_StepCommandsTakeEffect :
    (∀ e ∈ [(Instr.startSteps 0, cmd0 0x30 0 [(28, 0), (30, 8), (32, 6), (40, 3)]),
            (.startSteps 0, cmd0 0x30 0 [(28, 0), (30, 9), (32, 6), (40, 3)]),
            (.startSteps 0, cmd0 0x30 0 [(28, 1), (32, 6)]), (.startSteps 0, cmd0 0x30 0 [(28, 1), (32, 7)]),
            (.startSteps 0, cmd0 0x30 0 [(28, 2), (32, 6), (48, 4096)]), (.resume 0, cmd0 0x32 0 [(40, 1)])],
        takes e.1 (offered (timed (held (ctx0 .idle []))) e.2) e.2 = true)
    ∧ (let s := (offered (timed (held (ctx0 .idle []))) (cmd0 0x32 0 [])).takeEntry 0 (cmd0 0x32 0 [])
       (∀ n ∈ [0, 1, 2], s.startErr (ctx0 .idle []) n = none)
       ∧ (offered (held (ctx0 .idle [])) 0).startErr (ctx0 .idle []) 1 ≠ none
       ∧ s.pairErr (ctx0 .idle []) img0 cfg0 = none
       ∧ s.inRegion (ctx0 .idle []) (2 ^ 33 - s.reserveBytes (ctx0 .idle []) - 4096) 4096 = true
       ∧ s.inRegion (ctx0 .idle []) (2 ^ 33 - s.reserveBytes (ctx0 .idle []) - 4095) 4096 = false)
    ∧ (asInt 8 8 ≤ cfg0.opt.lsMax ∧ cfg0.opt.lsMax < asInt 8 9)
    ∧ (∀ e ∈ [(0, [step2 .running]), (0, []), (2, [step2 .running]), (1, [step2 .running]), (7, [])],
        takes (.halt 0) (offered (held (ctx0 .stepping e.2)) (cmd0 0x31 0 [(32, e.1)])) (cmd0 0x31 0 [(32, e.1)]) = true)
    ∧ (ctx0 .stepping [step2 .running]).highest = 2
    ∧ (∀ steps ∈ [[], [step2 .running]],
        takes (.abortStep 0) (offered (held (ctx0 .stepping steps)) (cmd0 0x33 0 [])) (cmd0 0x33 0 []) = true)
    ∧ ([step2 .running].filter fun k => k.abortable && k.st != .committing) ≠ [] := by decide +kernel

theorem witness_StepCommandsTakeEffect_record :
    (∀ s, (recorded s).newestRec 0 = some recBytes5) ∧ recStep recBytes5 + 1 = BitVec.ofNat 64 6 :=
  ⟨recorded_newest, by rw [rec_step]; decide⟩

/-- Each of the three with its stacks in service and with one of them shut down; a save for which another context's
restore waits; and a restore with a halt recorded meanwhile. -/
theorem witness_SavesRestoresAndScrubsFinish :
    (∀ st ∈ [CtxPhase.saving, .restoring, .destroying], ∀ h ∈ [true, false],
        let x := { ctx0 st [] with haltRec := h }
        let y := { x with base := 3 * 2 ^ 38 }
        let s := held x
        s.ctxAt 0 = x ∧ x.destroyWait = false ∧ s.regionServed x = true ∧ (cooled (held y)).regionServed y = false
        ∧ (s.mktAt 0).pendCfg = none ∧ (s.mktAt 1).pendCfg = none ∧ s.resident = some 0
        ∧ (∀ k, k < 4 → (s.ctxAt k).restoreWait = false))
    ∧ (let s := { up with ctx := [(0, ctx0 .saving []), (1, { ctx0 .saved [] with restoreWait := true })], resident := some 0 }
       (s.ctxAt 0).st = .saving ∧ (s.ctxAt 1).restoreWait = true ∧ (∀ j, j < 4 → j ≠ 1 → (s.ctxAt j).restoreWait = false))
    ∧ ({ held (ctx0 .destroying []) with resident := some 1 } : State).resident ≠ some 0 := by decide +kernel

/-- LOAD_IMAGE for a context one of whose stacks is shut down. -/
def cold : State :=
  cooled (offered (held { ctx0 .idle [] with base := 3 * 2 ^ 38 }) (cmd0 0x20 64 []))

theorem witness_RingsRejectAndReply_waits :
    cold.ringReady 0 = true ∧ cold.entryAt 0 = some (cmd0 0x20 64 [])
    ∧ (citisForm (.loadImage 0)).any (fun f => f.1 == 0 && cold.hbmWaits 0 f.2 (cmd0 0x20 64 [])) = true := by decide +kernel

theorem witness_RingsRejectAndReply :
    (∃ f, citisForm (.queryStatus 0) = some (0, f)) ∧ up.ringReady 0 = false
    ∧ (offered up 0).ringReady 0 = true ∧ (offered up 0).entryAt 0 = some 0
    ∧ (deaf { offered up 0 with rings := [(0, { RingSt.reset with en := true, stopped := false, sqTail := 1 })] }).ringReady 0
        = true
    ∧ (deaf { offered up 0 with rings := [(0, { RingSt.reset with en := true, stopped := false, sqTail := 1 })] }).entryAt 0
        = none
    ∧ pktOp (0 : BitVec 512) ≠ 0x02 ∧ pktOp (cmd0 0x02 0 []) = 0x02
    ∧ pf (cmd0 0x02 0 [(3, 7)]) 3 1 ≠ 0 ∧ pf (cmd0 0x02 0 []) 3 1 = 0
    ∧ pktBad (cmd0 0x02 0 [(2, 2)]) true [] [] = some 2 ∧ pktBad (cmd0 0x02 0 [(63, 1)]) true [] [] = some 63
    ∧ pktBad (cmd0 0x11 0 []) true [] [] = none ∧ cmdClass 0x11 = some .context
    ∧ (let s := { offered up (cmd0 0x11 0 []) with
                  rings := (offered up 0).rings ++ [(7, { RingSt.reset with en := true, cur := some { pkt := cmd0 0x12 0 [] } })] }
       (s.ringAt 7).cur = some { pkt := cmd0 0x12 0 [] } ∧ cmdClass (pktOp (cmd0 0x12 0 [])) = some .context
       ∧ pktCtx (cmd0 0x12 0 []) = pktCtx (cmd0 0x11 0 []))
    ∧ (offered up (cmd0 0x11 0 [])).lockHeld 0 .context 0 = none ∧ (up.ctxAt 0).st = .free
    ∧ ((held (ctx0 .faulted [])).ctxAt 0).st ≠ .free ∧ [CtxPhase.idle, .stepping].contains .faulted = false := by
  refine ⟨⟨_, rfl⟩, ?_⟩
  decide +kernel

/-- Replies: no entry after a hot reset, a full ring, host memory that does not answer, and the last entry before the
phase changes. -/
theorem witness_RingsRejectAndReply_reply :
    (∃ q : RingSt, q = { RingSt.reset with mute := true } ∧ q.mute = true)
    ∧ ({ RingSt.reset with cqTail := 256 } : RingSt).full = true ∧ ({ RingSt.reset with cqTail := 255 } : RingSt).full = false
    ∧ RingSt.reset.waiting = [] ∧ RingSt.reset.mute = false ∧ (deaf up).hostOk (255 * 32) 32 = false
    ∧ up.hostOk (255 * 32) 32 = true ∧ up.stbTicks < 2 ^ 64 := by
  refine ⟨⟨_, rfl, rfl⟩, ?_⟩
  decide +kernel

theorem witness_RingRegistersAct :
    State.reset.ready = false ∧ up.ready = true ∧ ((256 : BitVec 16) - (up.ringAt 7).sqHead).toNat ≤ 256
    ∧ 256 < ((257 : BitVec 16) - (up.ringAt 7).sqHead).toNat ∧ ((up.ringAt 7).cqTail - (0 : BitVec 16)).toNat ≤ 256
    ∧ (up.ringAt 7).waiting = [] ∧ 256 < ((up.ringAt 7).cqTail - (1 : BitVec 16)).toNat := by decide +kernel

/-- An open sequence of the control processor for a register of Town Hall. -/
def keyed (a : Agent) (target count : Nat) : State :=
  { up with sec := { up.sec with seq := some { agent := a, unit := 4, target := target, count := count } } }

theorem witness_RegistersReadAndWrite :
    busAligned (.bar0 2) false = false
    ∧ (busAligned (.bar0 0x1002050) false = true ∧ up.busPlace .host (.bar0 0x1002050) = .reg 0 0x2050 false
      ∧ up.regAt 0 0x2050 = some (.scrubCfg 0) ∧ up.keyedAway .host 0 0x2050 = false ∧ (1000 : BitVec 64).toNat < 2 ^ 25
      ∧ up.sec.seq = none)
    ∧ ((keyed .control 0x148 64).keyedAway .host 4 0x148 = true ∧ (keyed .control 0x148 64).busPlace .host (.bar0 0x148)
        = .reg 4 0x148 false ∧ (up.regAt 4 0x148).isSome = true)
    ∧ (let s := { up with bus := [(agentNo .host, { BusSt.reset with latch := [(rsvKey 4 0x2050, some 7)] })] }
       s.busPlace .host (.bar0 0x2054) = .reg 4 (0x2050 + 4) false ∧ s.regAt 4 (0x2050 + 4) = none
       ∧ (s.regAt 4 0x2050).any Reg.wide = true ∧ tget none (tget .reset s.bus (agentNo .host)).latch (rsvKey 4 0x2050) = some 7)
    ∧ up.ready = true ∧ ({ up with sec := { up.sec with scope := 2 } } : State).sec.scope.getLsbD 1 = true
    ∧ up.keyedAway .host 4 0x2050 = false := by decide +kernel

theorem witness_HotResetSilencesEveryRing :
    canon RingSt.reset (busy up (cmd0 0x10 0 [])).rings = true ∧ ((busy up (cmd0 0x10 0 [])).ringAt 0).cur ≠ none := by
  decide +kernel

theorem witness_KeyedWritesAndDebug :
    (let v := 0xA5000000 + 4 * 2 ^ 21 + 0x148 / 4
     bits v 23 21 = 4 ∧ 4 * bits v 20 0 = 0x148 ∧ bits v 31 24 = 0xA5 ∧ (up.regAt 4 0x148).any Reg.keyed = true
     ∧ up.keyedAway .control 4 8 = false ∧ up.keyUse .control 4 8 = .plain)
    ∧ (let k : KeySeq := { agent := .service, unit := 4, target := 0x148, count := 64 }
       (keyed .service 0x148 64).sec.seq = some k ∧ k.live = true ∧ k.agent ≠ .control ∧ 64 ≤ k.count
       ∧ k.agent ∉ (keyed .service 0x148 64).sec.haltedAgents ∧ (keyed .service 0x148 64).keyUse .control 4 8 = .plain)
    ∧ up.lsecLock.lock = false ∧ up.sec.seq = none
    ∧ (keyed .control (0x100 + 4 * 3) 0).sec.seq = some { agent := .control, unit := 4, target := 0x100 + 4 * 3, count := 0 }
    ∧ ((keyed .control (0x100 + 4 * 3) 0).ctxAt 3).st ≠ .stepping
    ∧ ({ up with sec := { up.sec with scope := 1 } } : State).sec.scope.getLsbD 0 = true
    ∧ up.sec.dbgDisabled = false ∧ up.tokenOk [] = false
    ∧ ({ up with sec := { up.sec with dbgDisabled := true } } : State).sec.dbgDisabled = true := by decide +kernel

/-- A commit of the FRU record in progress. -/
def committingFru (side : FruSide) (q : List FruSide) : State :=
  up.modFru fun f => { f with running := some (side, fruRecord 7 (List.replicate 240 0)), queued := q }

set_option maxRecDepth 100000 in
theorem witness_FruCommitsAndSnapshots :
    up.ready = true ∧ up.fru.running = none ∧ up.sbOn = true ∧ State.reset.sbOn = false ∧ up.fruCommitted ≠ []
    ∧ (∀ side ∈ [FruSide.host, .sideband],
        (committingFru side []).fru.running = some (side, fruRecord 7 (List.replicate 240 0))
        ∧ (committingFru side []).fru.queued = [] ∧ (committingFru side []).sb.resp = none
        ∧ (committingFru side [.host]).fru.queued = .host :: [])
    ∧ (fruRecord 7 (List.replicate 240 0)).length = 256 ∧ (0xC0 : BitVec 8) ≠ 0 ∧ (0xC0 : BitVec 8).toNat % 64 = 0
    ∧ (0xC1 : BitVec 8).toNat % 64 ≠ 0 ∧ 8 ≤ (0xD8 : BitVec 8).toNat ∧ (0xD8 : BitVec 8).toNat + 32 ≤ 0xF8 := by decide +kernel

theorem witness_SidebandAnswers :
    ({ up with sb := { up.sb with resp := some [0] } } : State).sb.resp = some [0] ∧ up.sb.resp = none
    ∧ up.sbCommitting = false ∧ (committingFru .sideband []).sbCommitting = true ∧ State.reset.sbOn = false ∧ up.sbOn = true
    ∧ up.telemetry 255 = none ∧ (up.telemetry 1).isSome = true ∧ up.sb.telem.length ≤ (1 : BitVec 16).toNat
    ∧ ((up.telemetry 1).any fun b => decide ((0 : BitVec 16).toNat < b.length)) = true := by decide +kernel

theorem witness_SidebandLimitsKeepTheirRanges :
    up.sbOn = true ∧ (100 : BitVec 16).toNat = 100 ∧ (4000 : BitVec 16).toNat ≤ maxPower up.fuse.kind
    ∧ maxPower up.fuse.kind < (4001 : BitVec 16).toNat ∧ (95 : BitVec 8).toNat ≤ 95 ∧ ¬(96 : BitVec 8).toNat ≤ 95
    ∧ (2 : BitVec 8) ≠ 0 := by decide +kernel

/-- A booted package with another PMC. -/
def pmcSt (f : PmcSt → PmcSt) : State := { up with pmc := f up.pmc }
/-- The host's windowed limit of 100 W over 1 ms, and the mean power of one sample in mW. -/
def powered (mw : Nat) (down : Option Nat) : State :=
  pmcSt fun p => { p with hostWin := { en := true, limit := 100, ms := 1 }, pHist := [mw], winDown := down }
def railed (ma : Nat) : State :=
  pmcSt fun p => { p with hostRail := { en := true, limit := 10, ms := 0 }, tiles := [(3, { TileSt.reset with irail := ma })] }

/-- Samples above the limit, on it, at the point where the term may fall and just above it, in and out of the time in
which a term that rose stays; and a rail's means in the same places. -/
theorem witness_PowerTermsAndDroops :
    (up.winLimit = none ∧ up.railLimit = none ∧ up.pmc.powerLost = false)
    ∧ (∀ q ∈ [(100001, none, false, true), (100000, some 0, false, false), (90001, none, false, false),
          (90000, none, true, false), (90000, some 0, true, false)],
        let s := powered q.1 q.2.1
        s.pmc.winDown = q.2.1 ∧ s.winLimit.any (fun l =>
          let mean := meanOf s.pmc.pHist (500 * l.2.1)
          decide (mean * 10 ≤ l.1 * 9000) == q.2.2.1 && decide (l.1 * 1000 < mean) == q.2.2.2
          && decide (s.stb.ticks < 0 + 100000 * l.2.1)) = true)
    ∧ (∀ q ∈ [(10001, false, true), (10000, false, false), (9001, false, false), (9000, true, false)],
        let s := railed q.1
        s.railLimit.any (fun l => decide ((s.tileAt 3).irail * 10 ≤ l.1 * 9000) == q.2.1
          && decide (l.1 * 1000 < (s.tileAt 3).irail) == q.2.2) = true)
    ∧ (3 : Fin 4).val < up.dies ∧ 3 ∉ up.pmc.droop ∧ 3 ∈ (pmcSt fun p => { p with droop := [3] }).pmc.droop
    ∧ (pmcSt fun p => { p with winTerm := 1 }).wanted 3 = 1 ∧ (up.divAt 3).target = 0 ∧ (up.ueAt 3).cur = none := by
  decide +kernel

/-- A package whose pair 0 of compute die 0 reads a temperature, in 1/16 of a degree. -/
def hotPair (t : Int) : State := pmcSt fun p => { p with pairs := [{ a := some t, b := some t }] }

/-- Readings at and below 110 degrees and at T_LIMIT; a trip and a disagreement at the ends of their times. -/
theorem witness_HeatAndTrips :
    (0 ∈ (hotPair 1760).pairsOver 1760 ∧ 0 ∈ (hotPair 1760).pairDies 0 ∧ (hotPair 1759).pairsOver 1760 = []
      ∧ (hotPair 1600).tLimit = 1600
      ∧ (((hotPair 1600).diePairs 0).map (hotPair 1600).countedReading).any (fun r => decide (1600 ≤ r)) = true)
    ∧ (hotPair 1920).tripReading = true ∧ up.tripReading = false ∧ up.pmc.tripSince = none
    ∧ (∀ now ∈ [1000004, 1000005],
        let s := { (pmcSt fun p => { p with tripSince := some 5 }) with stb := { up.stb with ticks := now } }
        s.pmc.tripSince = some 5 ∧ (s.stb.ticks < 5 + 1000000 ↔ now = 1000004))
    ∧ (∀ now ∈ [200005, 200006],
        let s := { (pmcSt fun p => { p with disSince := [(69, some 5)] }) with stb := { up.stb with ticks := now } }
        tget none s.pmc.disSince 69 = some 5 ∧ 69 ∉ s.flt.disagree ∧ (s.stb.ticks ≤ 5 + 200000 ↔ now = 200005))
    ∧ tget none up.pmc.disSince 68 = none := by
  decide +kernel

/-- A boot on empty flash, with lockstep. -/
def env0 : BootEnv := { flash := none, train := [], linkDown := 0, spares := [], radish := [], lockstepOk := true }

theorem witness_ResetsAndBoot :
    up.pin.pkgRstN = true ∧ ({ up with pin := { up.pin with pkgRstN := false } } : State).pin.pkgRstN = false
    ∧ fwChoice up.fuse up.mem.flashA up.mem.flashB = none ∧ up.pmc.powerLost = false ∧ up.resetDue = none
    ∧ up.committing = false ∧ (held (ctx0 .stepping [step2 .committing])).committing = true
    ∧ (held (ctx0 .stepping [step2 .committing])).pmc.powerLost = false
    ∧ (pmcSt fun p => { p with powerLost := true }).pmc.powerLost = true
    ∧ ({ up with resetDue := some (0, none) } : State).resetDue = some (0, none) := by decide +kernel

/-- A package that has lost power while step 2 commits. -/
def losing : State :=
  let s := held { ctx0 .stepping [step2 .committing] with next := none }
  { s with pmc := { s.pmc with powerLost := true } }

theorem witness_PowerLossEndsEverythingButACommit :
    up.pmc.powerLost = false ∧ up.committing = false ∧ (held (ctx0 .stepping [step2 .committing])).committing = true
    ∧ losing.pmc.powerLost = true ∧ losing.committing = true ∧ losing.resident = some 0
    ∧ (let x : TileSample := { vib := 1400, iib := 0, vin := 0, core := [], sram := [], hbm := [], io := [], jd := [] }
       0 < losing.dies ∧ ([x])[0]? = some x ∧ x.vib ≤ 1400)
    ∧ losing.pin.pkgRstN = true := by decide +kernel

set_option maxRecDepth 100000 in
theorem witness_PowerLossEndsEverythingButACommit_last :
    (losing.commitWritten 0 true).committing = false ∧ (losing.commitWritten 0 true).pmc.powerLost = true := by decide +kernel


end Sys2Proof.Tests
end

section
/-! Commands and the units that they name (O7): every command has a next state but for one on a TQ4H that names a unit
which that part lacks, and an op that its engine does not come to next has no effect. -/

namespace Sys2Proof.Machine

/-! ## The units that a part has (R38) -/

section
variable {s : State}

theorem State.dies_tq4 (h : s.fuse.kind = .tq4) : s.dies = 4 := by simp [State.dies, h]
theorem State.dies_tq4h (h : s.fuse.kind = .tq4h) : s.dies = 2 := by simp [State.dies, h]
theorem State.stacks_tq4 (h : s.fuse.kind = .tq4) : s.stacks = 16 := by simp [State.stacks, dies_tq4 h]
theorem State.stacks_tq4h (h : s.fuse.kind = .tq4h) : s.stacks = 8 := by simp [State.stacks, dies_tq4h h]
theorem State.ios_tq4 (h : s.fuse.kind = .tq4) : s.ios = 2 := by simp [State.ios, dies_tq4 h]
theorem State.ios_tq4h (h : s.fuse.kind = .tq4h) : s.ios = 1 := by simp [State.ios, dies_tq4h h]
theorem State.links_tq4 (h : s.fuse.kind = .tq4) : s.links = 24 := by simp [State.links, ios_tq4 h]
theorem State.links_tq4h (h : s.fuse.kind = .tq4h) : s.links = 12 := by simp [State.links, ios_tq4h h]

/-! A TQ4 has every die, stack, I/O die, link, member and checking unit that an operand can name. -/

theorem State.die_present_tq4 (h : s.fuse.kind = .tq4) (d : Fin 4) : decide (d.val < s.dies) = true := by
  simp [dies_tq4 h]

theorem State.stack_present_tq4 (h : s.fuse.kind = .tq4) (k : Fin 16) : decide (k.val < s.stacks) = true := by
  simp [stacks_tq4 h]

theorem State.io_present_tq4 (h : s.fuse.kind = .tq4) (io : Fin 2) : decide (io.val < s.ios) = true := by
  rw [ios_tq4 h]
  exact decide_eq_true io.isLt

theorem State.link_present_tq4 (h : s.fuse.kind = .tq4) (m : Fin 24) : decide (m.val < s.links) = true := by
  simp [links_tq4 h]

theorem State.member_present_tq4 (h : s.fuse.kind = .tq4) (m : Fin 32) : s.hasMember m.val = true := by
  simp only [hasMember, links_tq4 h, ios_tq4 h, dies_tq4 h]
  split
  · next hm => exact decide_eq_true hm
  · split
    · exact Bool.or_true _
    · exact decide_eq_true (by omega)

theorem State.checkUnit_present_tq4 (h : s.fuse.kind = .tq4) (u : Fin 6) : s.checkUnits.contains u.val = true := by
  simp only [checkUnits, dies_tq4 h, ios_tq4 h]
  revert u
  decide

theorem siteDie_present_tq4 (h : s.fuse.kind = .tq4) (p : PortSite) : decide (siteDie p < s.dies) = true := by
  cases p with
  | line c l => exact State.die_present_tq4 h c.die
  | sram d o => exact State.die_present_tq4 h d

end

section
variable {s : State} (hk : s.fuse.kind = .tq4h)
include hk

/-! A TQ4H lacks dies 2 and 3, stacks 8 to 15, links 12 to 23 and I/O die 1. -/

theorem State.die_absent_tq4h {d : Nat} (h : 2 ≤ d) : decide (d < s.dies) = false := by
  rw [dies_tq4h hk]
  exact decide_eq_false (by omega)

theorem State.stack_absent_tq4h {k : Nat} (h : 8 ≤ k) : decide (k < s.stacks) = false := by
  rw [stacks_tq4h hk]
  exact decide_eq_false (by omega)

theorem State.link_absent_tq4h {m : Nat} (h : 12 ≤ m) : decide (m < s.links) = false := by
  rw [links_tq4h hk]
  exact decide_eq_false (by omega)

theorem State.io_absent_tq4h {io : Nat} (h : 1 ≤ io) : decide (io < s.ios) = false := by
  rw [ios_tq4h hk]
  exact decide_eq_false (by omega)

end

/-! ## Outcomes of commands -/

/-- The outcome is a next state, or the stop of a TQ4H at a unit that it does not have (assumption logs 22, 24). -/
def NextOrAbsent (s : State) (o : Out) : Prop := (∃ t, o = .next t) ∨ (s.fuse.kind = .tq4h ∧ o = .fault .absentUnit)

section
variable {s : State}

theorem NextOrAbsent.next {t : State} : NextOrAbsent s (.next t) := .inl ⟨t, rfl⟩

/-- A guard that every TQ4 passes stops a command on a TQ4H only. -/
theorem NextOrAbsent.guardUnit {p : Bool} {k : Out} (hp : s.fuse.kind = .tq4 → p = true) (hk : NextOrAbsent s k) :
    NextOrAbsent s (guardUnit p k) := by
  cases p with
  | true => exact hk
  | false =>
    refine .inr ⟨?_, rfl⟩
    cases h : s.fuse.kind with
    | tq4 => exact absurd (hp h) Bool.false_ne_true
    | tq4h => rfl

theorem NextOrAbsent.issueWith {u : State} {e : EngRef} {i : Instr} {h : OpHdr} {o : HwObs}
    {ready : EngSt → BitVec 64 → Bool} {own : BitVec 64 → Option WaitSt}
    {act : State → EngSt → BitVec 64 → State × EngSt × IssuedOp} :
    NextOrAbsent s (issueWith u e i h o ready own act) := by
  unfold Machine.issueWith
  dsimp only
  split
  · exact .next
  · split
    · exact .next
    · split <;> exact .next

theorem NextOrAbsent.issue {u : State} {e : EngRef} {i : Instr} {h : OpHdr} {o : HwObs}
    {ready : EngSt → BitVec 64 → Bool} {act : State → EngSt → BitVec 64 → State × EngSt × IssuedOp} :
    NextOrAbsent s (issue u e i h o ready act) :=
  .issueWith

theorem NextOrAbsent.issueVe {c : CoreRef} {i : Instr} {h : OpHdr} {o : HwObs} {ready : CoreSt → Bool}
    {act : State → EngSt → BitVec 64 → State × EngSt × IssuedOp} :
    NextOrAbsent s (issueVe s c i h o ready act) :=
  .guardUnit (State.die_present_tq4 · c.die) .issue

theorem NextOrAbsent.runSlot {c : CoreRef} {i : Fin 32} {kind : Nat} {o : HwObs}
    {act : State → MeDescSt → State × BitVec 4} : NextOrAbsent s (runSlot s c i kind o act) := by
  refine .guardUnit (State.die_present_tq4 · c.die) ?_
  split
  · exact .next
  · split <;> exact .next

theorem NextOrAbsent.runColl {die slot : Fin 4} {kind : Nat} {o : HwObs} {step : State → Coll → State × Bool} :
    NextOrAbsent s (runColl die slot kind o step s) := by
  refine .guardUnit (State.die_present_tq4 · die) ?_
  split
  · exact .next
  · split <;> exact .next

theorem NextOrAbsent.runCmd {r : Fin 8} {f : CmdForm} {body : State → BitVec 512 → State} :
    NextOrAbsent s (runCmd r f body s) := by
  unfold Machine.runCmd
  split
  · exact .next
  · split
    · exact .next
    · split <;> exact .next

theorem NextOrAbsent.meDesc (c : CoreRef) (h : OpHdr) (d : BitVec 24) : NextOrAbsent s (execMeDesc c h d s) :=
  .guardUnit (State.die_present_tq4 · c.die) .issue

theorem NextOrAbsent.boundedResourceRelease (k : BoundedRes) : NextOrAbsent s (execBoundedResourceRelease k s) := by
  cases k with
  | stackRequest x => exact .guardUnit (State.stack_present_tq4 · x) .next
  | marketBuffer io => exact .guardUnit (State.io_present_tq4 · io) .next
  | incrementSent j =>
    refine .guardUnit (State.link_present_tq4 · j) ?_
    split <;> exact .next
  | meDescriptor c =>
    refine .guardUnit (State.die_present_tq4 · c.die) ?_
    split
    · split
      · exact .meDesc ..
      · exact .next
    · exact .next

end

/-- Every command has a next state or stops at an absent unit. The commands are taken by the shared operation that they
run, then by the guard that they pass; of those that branch, every branch ends in a next state. -/
theorem exec_nextOrAbsent (i : Instr) (s : State) : NextOrAbsent s (exec i s) := by
  cases i with dsimp only [exec]
  | identify | queryStatus | readTelemetry | journalRead | attest | contextCreate | contextSave | contextRestore
  | contextDestroy | loadImage | loadConfig | verifyConfig | swapConfig | startSteps | halt | resume | abortStep
  | remapCore | linkCtrl | timeCtrl | setPowerLimit | runRadish | clearErrors | fwUpdate => exact .runCmd
  | vld | vst | vop | vtr | vred | drain | spill | pdrain | vsrb => exact .issueVe
  | copy | gather | xpEnc | xpDec => exact .runSlot
  | allReduce | reduceScatter | allGather | broadcast | a2aDispatch | a2aCombine => exact .runColl
  | doorbell | ringEnable | ringDisable | completionHeadWrite | pcieHotReset | registerWrite | clearingRead
  | stbTimeLowRead | keyWrite | keyedLockWrite | lsecLoad | dbgRelock | hostFruCommit | hostFruDiscard
  | dynamicAddressAssign | getId | getStatus | readTelem | setPwin | setPrail | getLimits | fruRead | fruStage
  | fruCommit | fruDiscard | setIbiMask | readEvents | bucketLeak | faultReport | windowTermEval | thermalSample
  | targetMove | tripConditionRelease | powerRestore | pllLockLoss | coldReset | warmReset | regulatorSample =>
    exact .next
  | nop e | end_ e => exact .guardUnit (State.die_present_tq4 · e.die) .issue
  | aeLoad c | aePass c | aePreload c | meDesc c | meFence c | xReset c | xAttime c =>
    exact .guardUnit (State.die_present_tq4 · c.die) .issue
  | xWait c => exact .guardUnit (State.die_present_tq4 · c.die) .issueWith
  | cxRun d | cxFence d => exact .guardUnit (State.die_present_tq4 · d) .issue
  | currentLevelStep c | bankHandover c => exact .guardUnit (State.die_present_tq4 · c.die) .next
  | droopStart d | railTermEval d | railOverCurrent d => exact .guardUnit (State.die_present_tq4 · d) .next
  | prefetchAging k | stackTempSample k => exact .guardUnit (State.stack_present_tq4 · k) .next
  | marketPartitionSwap io => exact .guardUnit (State.io_present_tq4 · io) .next
  | ackDue m | ack m | nak m | credit m | state m | retrainComplete m =>
    exact .guardUnit (State.member_present_tq4 · m) .next
  | t0 m | t1 m | t1f m | t3 m | t4 m => exact .guardUnit (State.link_present_tq4 · m) .next
  | pace m | ready m => exact .guardUnit (State.link_present_tq4 (s := s) · m) .next
  | ueRun d =>
    refine .guardUnit (State.die_present_tq4 · d) ?_
    dsimp only
    split
    · exact .next
    · exact .issue
  | cxGnorm d =>
    refine .guardUnit (State.die_present_tq4 · d) ?_
    dsimp only
    split
    · exact .next
    · split
      · exact .next
      · exact .issue
  | xArrive c h f =>
    refine .guardUnit (fun k => ?_) .issue
    rw [State.die_present_tq4 k, State.dies_tq4 k, decide_eq_true f.die.isLt, Bool.or_true]
    rfl
  | loadRowWrite c | passStart c | checksumCheck c =>
    refine .guardUnit (State.die_present_tq4 · c.die) ?_
    repeat' first | with_reducible exact .next | split | dsimp only
  | barrier d | permute d | collectiveTimeout d | droopEnd d =>
    refine .guardUnit (State.die_present_tq4 · d) ?_
    repeat' first | with_reducible exact .next | split
  | watchdogExpire e =>
    refine .guardUnit (State.die_present_tq4 · e.die) ?_
    repeat' first | with_reducible exact .next | split | dsimp only
  | portPriorityAging p =>
    refine .guardUnit (siteDie_present_tq4 · p) ?_
    repeat' first | with_reducible exact .next | split
  | scrubChunk k | scrubYieldExpire k | stackBandChange k =>
    refine .guardUnit (State.stack_present_tq4 · k) ?_
    repeat' first | with_reducible exact .next | split | dsimp only
  | flitSlot m | flitReceive m | retrainTimeout m =>
    refine .guardUnit (State.member_present_tq4 · m) ?_
    repeat' first | with_reducible exact .next | split | dsimp only
  | messageReceive m | haltMessage m | readyDue m =>
    refine .guardUnit (State.link_present_tq4 · m) ?_
    repeat' first | with_reducible exact .next | split | dsimp only
  | checkDone u =>
    refine .guardUnit (State.checkUnit_present_tq4 · u) ?_
    repeat' first | with_reducible exact .next | split | dsimp only
  | boundedResourceRelease k => exact .boundedResourceRelease k
  | saveComplete | contextRestoreComplete | contextScrubComplete | timeCtrlTimeout | keyedWindowExpire | debugAgentHalt
  | dbgToken | fruSnapshotRead | fruCommitComplete | sidebandRead | stbTimeReached | waiterWake | opComplete
  | hbmRequest | timeExchange | parentReselect | incrementRecord | heldRecordApply | abortMessage | anchorResult
  | launchEntry | stepEnterRunning | globalNormArrive | journalRestoreComplete | digestExchange | holdupThresholdMet
  | commitRecordWritten | thermalTrip | tripShutdown | sensorDisagree | powerLoss | lockstepMismatch | pkgRstNRelease
  | radishKernelsFinished | memberTrainingComplete | flashWriteComplete | targetRegisterRead =>
    dsimp only [execSaveComplete, execContextRestoreComplete, execContextScrubComplete, execTimeCtrlTimeout,
      execKeyedWindowExpire, execDebugAgentHalt, execDbgToken, execFruSnapshotRead, execFruCommitComplete,
      execSidebandRead, execStbTimeReached, execWaiterWake, execOpComplete, execHbmRequest, execTimeExchange,
      execParentReselect, execIncrementRecord, execHeldRecordApply, execAbortMessage, execAnchorResult,
      execLaunchEntry, execStepEnterRunning, execGlobalNormArrive, execJournalRestoreComplete, execDigestExchange,
      execHoldupThresholdMet, execCommitRecordWritten, execThermalTrip, execTripShutdown, execSensorDisagree,
      execPowerLoss, execLockstepMismatch, execPkgRstNRelease, execRadishKernelsFinished, execMemberTrainingComplete,
      execFlashWriteComplete, execTargetRegisterRead]
    repeat' first | with_reducible exact .next | split

/-! ## Ops of a stream -/

/-! What an engine comes to next has been decoded, and only a word without reserved encodings decodes (R14, R255). -/

theorem decodeOp_checked {e : EngRef} {w x : Nat} {i : Instr} (h : decodeOp e w x = some i) :
    i.wf = true ∧ i.inStore = true := by
  unfold decodeOp at h
  obtain ⟨j, -, hj⟩ := Option.bind_eq_some_iff.mp h
  split at hj
  · next hc =>
      cases hj
      exact Bool.and_eq_true_iff.mp hc
  · cases hj

theorem Img.opAt_checked {im : Img} {e : EngRef} {k : Nat} {i : Instr} (h : im.opAt e k = some i) :
    i.wf = true ∧ i.inStore = true := by
  unfold Img.opAt at h
  obtain ⟨t, -, ht⟩ := Option.bind_eq_some_iff.mp h
  split at ht
  · exact decodeOp_checked ht
  · cases ht

theorem State.nextOp_checked {s : State} {e : EngRef} {r : EngSt} {i : Instr} (h : s.nextOp e r = some i) :
    i.wf = true ∧ i.inStore = true := by
  obtain ⟨im, -, him⟩ := Option.bind_eq_some_iff.mp h
  exact Img.opAt_checked him

/-- Over no cycles the array of a core stands still. -/
theorem State.coreAt_clock_nil (s : State) (c d : CoreRef) : (s.clock c []).coreAt d = s.coreAt d := by
  by_cases h : s.coreKey d = s.coreKey c
  · change tget CoreSt.reset (s.clock c []).core (s.coreKey d) = tget CoreSt.reset s.core (s.coreKey d)
    rw [h]
    exact State.coreAt_modCore s c _
  · exact State.coreAt_modCore_other s _ h

/-- `t` is `s`, but that the table of cores may list the same cores in another form. -/
def SameCoreStates (s t : State) : Prop := t = { s with core := t.core } ∧ ∀ d, t.coreAt d = s.coreAt d

theorem Does.unchanged {i : Instr} {s : State} (h : exec i s = .next s) : Does i s (SameCoreStates s) :=
  ⟨s, h, rfl, fun _ => rfl⟩

theorem Does.clockedNil {i : Instr} {s : State} {c : CoreRef} (h : exec i s = .next (s.clock c [])) :
    Does i s (SameCoreStates s) :=
  ⟨_, h, rfl, s.coreAt_clock_nil c⟩

/-- An op of a unit that the part has, which its engine does not come to next, changes nothing. -/
theorem guardUnit_issueWith_other {s : State} {e : EngRef} {i : Instr} {h : OpHdr} {o : HwObs} {p : Bool}
    {ready : EngSt → BitVec 64 → Bool} {own : BitVec 64 → Option WaitSt}
    {act : State → EngSt → BitVec 64 → State × EngSt × IssuedOp} (hp : p = true) (hn : s.isNext e i = false) :
    guardUnit p (issueWith s e i h o ready own act) = .next s :=
  (guardUnit_eq hp).trans (issueWith_other hn)

/-- An op that its engine does not come to next changes nothing. -/
theorem issue_other {s : State} {e : EngRef} {i : Instr} {h : OpHdr} {o : HwObs}
    {ready : EngSt → BitVec 64 → Bool} {act : State → EngSt → BitVec 64 → State × EngSt × IssuedOp}
    (hn : s.isNext e i = false) : issue s e i h o ready act = .next s :=
  issueWith_other hn

section
variable {s : State}

theorem execMeDesc_other {c : CoreRef} {h : OpHdr} {d : BitVec 24} (hp : decide (c.die.val < s.dies) = true)
    (hn : s.isNext (engOf c .me) (.meDesc c h d) = false) : execMeDesc c h d s = .next s := by
  simp only [execMeDesc, guardUnit_eq hp, hn, Bool.false_eq_true, if_false]
  exact issue_other hn

theorem State.pumpDie_idle {d : Nat} (h : (s.ueAt d).cur.isNone = true) : s.pumpDie d = s := by
  simp [State.pumpDie, h]

theorem execUeRun_other {d : Fin 4} {h : OpHdr} {a : BitVec 48} {o : HwObs} (hp : decide (d.val < s.dies) = true)
    (hn : s.isNext (dieEngOf d .ue) (.ueRun d h a noObs) = false) : execUeRun d h a o s = .next s := by
  simp only [execUeRun, guardUnit_eq hp, issue_other hn]
  split
  · next h => rw [State.pumpDie_idle h]
  · rfl

theorem execCxGnorm_other {d : Fin 4} {h : OpHdr} {g : BitVec 6} (hp : decide (d.val < s.dies) = true)
    (hg : s.gnormSlot d.val = none)
    (hn : s.isNext (dieEngOf d .cx) (.cxGnorm d h g []) = false) : execCxGnorm d h g [] s = .next s := by
  simp only [execCxGnorm, guardUnit_eq hp, issue_other hn, hg, Option.isSome_none, Bool.false_eq_true, if_false]

end

/-- An op of a stream, as a word spells it, on a unit that the part has: where its engine does not come to it next, it
changes nothing (R272). -/
theorem exec_op_notNext {s : State} {i : Instr} {e : EngRef} (hw : (opWord i).map Prod.fst = some e)
    (hd : e.die.val < s.dies) (hn : s.isNext e i = false)
    (hx : ∀ c h f, i = .xArrive c h f → f.scope.toNat ≤ 1 → f.die.toNat < s.dies)
    (hg : ∀ d h g r, i = .cxGnorm d h g r → s.gnormSlot d.val = none) : Does i s (SameCoreStates s) := by
  have hp : decide (e.die.val < s.dies) = true := decide_eq_true hd
  cases i with dsimp only [opWord, Option.map] at hw
  | nop | end_ | vsrb | meFence | xWait | xReset | xAttime | cxRun | cxFence =>
    cases hw
    exact .unchanged (guardUnit_issueWith_other hp hn)
  | vld c h f o | vst c h f o | vop c h f o | vtr c h f o | vred c h f o | drain c h f o | spill c h f o
  | pdrain c h f o | aePreload c h f o =>
    obtain ⟨_ | _, _ | _⟩ := o <;> dsimp only [Option.map] at hw <;> cases hw
    exact .unchanged (guardUnit_issueWith_other hp hn)
  | aeLoad c h f l rs =>
    cases rs <;> dsimp only [Option.map] at hw <;> cases hw
    exact .clockedNil (guardUnit_issueWith_other hp hn)
  | aePass c h p rs o =>
    obtain ⟨_ | _, _ | _⟩ := o <;> cases rs <;> dsimp only [Option.map] at hw <;> cases hw
    exact .clockedNil (guardUnit_issueWith_other hp hn)
  | meDesc =>
    cases hw
    exact .unchanged (execMeDesc_other hp hn)
  | xArrive c h f =>
    cases hw
    refine .unchanged (guardUnit_issueWith_other ?_ hn)
    have hc : decide (c.die.val < s.dies) = true := hp
    have hf := hx c h f rfl
    simp only [hc, Bool.true_and, Bool.or_eq_true, decide_eq_true_eq]
    omega
  | ueRun d h a o =>
    obtain ⟨_ | _, _ | _⟩ := o <;> dsimp only [Option.map] at hw <;> cases hw
    exact .unchanged (execUeRun_other hp hn)
  | cxGnorm d h g r =>
    cases r <;> dsimp only [Option.map] at hw <;> cases hw
    exact .unchanged (execCxGnorm_other hp (hg d h g [] rfl) hn)
  | _ => cases hw

/-- Settles O7, by the outcome of every command (assumption logs 22, 24), the guards that a TQ4H does not pass, the
check that every decoded op has passed, and the issue of an op that is not next. -/
theorem commandsStopByName : Obligations.CommandsStopByName := by
  refine ⟨exec_nextOrAbsent, fun s hk => ?_, fun s e r i h => State.nextOp_checked h,
    fun s i e w x hw hd hn hx hg => exec_op_notNext (by rw [hw]; rfl) hd hn hx hg⟩
  refine ⟨fun d o q h => ?_, fun c h hd => guardUnit_absent (State.die_absent_tq4h hk hd),
    fun k h => guardUnit_absent (State.stack_absent_tq4h hk h),
    fun m h => guardUnit_absent (State.link_absent_tq4h hk h),
    fun io h => guardUnit_absent (State.io_absent_tq4h hk h)⟩
  have hd := State.die_absent_tq4h hk h
  exact ⟨guardUnit_absent hd, guardUnit_absent hd, guardUnit_absent hd, guardUnit_absent hd⟩

end Sys2Proof.Machine
end

section
/-! The registers as agents read and write them (O51). -/

namespace Sys2Proof.Machine

/-! ## Reads of registers (R855-R857) -/

section
variable {s : State} {a : Agent} {addr : BusAddr} {u off : Nat} {g : Reg}

theorem exec_clearingRead {wide : Bool} {t : State} {v : BitVec 64} (h : s.busRead a addr wide = (t, v)) :
    exec (.clearingRead a addr wide) s = .next (t.modBus a fun b => { b with data := v }) := by
  dsimp only [exec, execClearingRead]
  rw [h]
  rfl

theorem State.busRead_unaligned {wide : Bool} (h : busAligned addr wide = false) : s.busRead a addr wide = (s, 0) := by
  simp [State.busRead, h]

theorem State.busWrite_unaligned {wide : Bool} {v : BitVec 64} (h : busAligned addr wide = false) :
    s.busWrite a addr wide v = s := by
  simp [State.busWrite, h]

/-- An aligned 32-bit read of a register window below its test-only range. -/
theorem State.busRead_reg (h : busAligned addr false = true) (hp : s.busPlace a addr = .reg u off false)
    (ho : off < 0x400000) :
    s.busRead a addr false = ((s.read32 a u off false).1, BitVec.ofNat 64 (s.read32 a u off false).2) := by
  simp [State.busRead, h, hp, State.readReg, Nat.not_le.mpr ho]

/-- CLEARING_READ of a register that is aligned and 32 bits wide returns what the read of the register gives. -/
theorem exec_clearingRead_reg (h : busAligned addr false = true) (hp : s.busPlace a addr = .reg u off false)
    (ho : off < 0x400000) :
    exec (.clearingRead a addr false) s =
      .next ((s.read32 a u off false).1.modBus a fun b =>
        { b with data := BitVec.ofNat 64 (s.read32 a u off false).2 }) :=
  exec_clearingRead (State.busRead_reg h hp ho)

/-- TARGET_REGISTER_READ by an agent that reaches the register windows reads the target of the open sequence (R838). -/
theorem exec_targetRegisterRead {k : KeySeq} (hs : s.sec.seq = some k) (hh : a = .host → s.ready = true)
    (hd : a = .debug → s.sec.scope.getLsbD 1 = true) :
    exec (.targetRegisterRead a) s =
      .next ((s.read32 a k.unit k.target false).1.modBus a fun b =>
        { b with data := BitVec.ofNat 64 (s.read32 a k.unit k.target false).2 }) := by
  dsimp only [exec, execTargetRegisterRead]
  cases a with
  | host => simp only [hs, hh rfl, Bool.not_true, Bool.false_eq_true, if_false, State.returned]
  | debug => simp only [hs, hd rfl, Bool.not_true, Bool.false_eq_true, if_false, State.returned]
  | control | service => simp only [hs, Bool.false_eq_true, if_false, State.returned]

/-- A read of the target of another agent's open sequence (R838). -/
theorem State.read32_keyedAway (hg : (s.regAt u off).isSome = true) (hk : s.keyedAway a u off = true) :
    s.read32 a u off false = (s.lockBusy a, 0) := by
  obtain ⟨g, hg⟩ := Option.isSome_iff_exists.mp hg
  simp [State.read32, hg, hk]

/-- A read of a register returns its low half, latches the high half of a 64-bit one and clears its RC fields. -/
theorem State.read32_reg (hg : s.regAt u off = some g) (hk : s.keyedAway a u off = false)
    (hf : a ≠ .host ∨ g ≠ .fruData 0) :
    s.read32 a u off false =
      ((if g.wide then s.latchHigh a u off (BitVec.ofNat 32 ((s.regRead u off g).toNat / 2 ^ 32)) else s).regClear g
        true g.wide, (s.regRead u off g).toNat % 2 ^ 32) := by
  have hf : ¬(g = .fruData 0 ∧ a = .host) := fun ⟨hr, ha⟩ => hf.elim (· ha) (· hr)
  simp [State.read32, hg, hk, hf]

/-- A read of the high half of a 64-bit register that is latched returns and releases it. -/
theorem State.read32_latched {h : BitVec 32} (hn : s.regAt u (off + 4) = none) (hg : s.regAt u off = some g)
    (hw : g.wide = true) (hl : tget none (tget .reset s.bus (agentNo a)).latch (rsvKey u off) = some h) :
    s.read32 a u (off + 4) false =
      (s.modBus a fun b => { b with latch := tset none b.latch (rsvKey u off) none }, h.toNat) := by
  have ho : ¬off + 4 < 4 := by omega
  simp [State.read32, hn, hg, hw, hl, ho]

/-- An open sequence keeps every other agent from its target. -/
theorem State.keyedAway_of_open {k : KeySeq} (hs : s.sec.seq = some k) (hl : k.live = true) (ha : k.agent ≠ a) :
    s.keyedAway a k.unit k.target = true := by
  simp [State.keyedAway, hs, hl, ha]

end

/-! ## The STB (R456, R857) -/

section
variable {s : State} {a : Agent}

theorem townReg_stbTime (links mewses : Nat) (h : mewses ≤ 4) : townReg links mewses 0x2050 = some .stbTime := by
  have hm : ¬(4 < mewses) := by omega
  simp [townReg, regIdx, hm]

theorem State.regAt_stbTime (s : State) : s.regAt 4 0x2050 = some .stbTime := by
  have hl : linkReg 0 0x2050 = none := by decide
  have ht := townReg_stbTime s.links (if s.ios = 2 then 4 else 1) (by split <;> decide)
  simp [State.regAt, State.unitOn, hl, ht]

theorem State.place_stbTime (s : State) : s.place 0x1004C0002050 = .reg 4 0x2050 := by
  have hb : ¬(0x1004C0002050 < s.hbmBytes) := by
    unfold State.hbmBytes
    split <;> decide
  simp [State.place, State.unitOn, hb]

/-- Every agent finds STB_TIME at its place in Town Hall's window (R852, R862). -/
theorem State.busPlace_stbTime (s : State) (a : Agent) (hh : a = .host → s.ready = true)
    (hd : a = .debug → s.sec.scope.getLsbD 1 = true) :
    s.busPlace a (townAddr a 0x2050) = .reg 4 0x2050 false := by
  cases a with
  | host => simp [State.busPlace, townAddr, barPlace, hh rfl]
  | debug => simp [State.busPlace, townAddr, s.place_stbTime, hd rfl]
  | control => simp [State.busPlace, townAddr, s.place_stbTime]
  | service => simp [State.busPlace, townAddr, s.place_stbTime]

theorem State.regRead_stbTime (s : State) (u off : Nat) : (s.regRead u off .stbTime).toNat = s.stbTicks % 2 ^ 64 := by
  simp [State.regRead, State.regVal, Reg.rsvMask]

/-- A read of the low half of the STB returns it and latches the high half of the same instant (R456). -/
theorem State.read32_stbTime (s : State) (a : Agent) (hk : s.keyedAway a 4 0x2050 = false) :
    s.read32 a 4 0x2050 false =
      (s.latchHigh a 4 0x2050 (BitVec.ofNat 32 (s.stbTicks / 2 ^ 32)), s.stbTicks % 2 ^ 32) := by
  rw [State.read32_reg s.regAt_stbTime hk (.inr (by simp)), s.regRead_stbTime]
  have hlow : s.stbTicks % 2 ^ 64 % 2 ^ 32 = s.stbTicks % 2 ^ 32 := by omega
  have hhigh : BitVec.ofNat 32 (s.stbTicks % 2 ^ 64 / 2 ^ 32) = BitVec.ofNat 32 (s.stbTicks / 2 ^ 32) := by
    apply BitVec.eq_of_toNat_eq
    simp only [BitVec.toNat_ofNat]
    omega
  simp only [hlow, hhigh]
  rfl

end

/-! ## MEM_SCRUB_CFG (R356, R849) -/

/-- What a write of `n` to MEM_SCRUB_CFG of die `d` gives (R356): a value outside the bounds and the value that it holds
change nothing; where MEM_LOCK is set, another value sets its VIOL. -/
theorem State.regWrite_scrubCfg (s : State) (a : Agent) (d n mask : Nat) (k : Bool) (h : n < 2 ^ 25) :
    s.regWrite a (.scrubCfg d) k n mask =
      if n < 1000 ∨ 257000 < n ∨ n = (tget 0x3EBE8#32 s.scrub d).toNat then s
      else if (tget LockSt.reset s.memLock d).lock then
        { s with memLock := tmod .reset s.memLock d fun l => { l with viol := true } }
      else { s with scrub := tset 0x3EBE8#32 s.scrub d (BitVec.ofNat 32 n) } := by
  have hn : bits n 24 0 = n := by simp [bits]; omega
  simp only [State.regWrite, hn]

/-- With no sequence open an aligned 32-bit write of a 32-bit register takes effect as a plain write. -/
theorem State.busWrite_plain {s : State} {a : Agent} {addr : BusAddr} {u off : Nat} {g : Reg} {v : BitVec 64}
    (h : busAligned addr false = true) (hp : s.busPlace a addr = .reg u off false) (ho : off < 0x400000)
    (hg : s.regAt u off = some g) (hw : g.wide = false) (hs : s.sec.seq = none) :
    s.busWrite a addr false v =
      (s.rsvWrite u off g (v.toNat % 2 ^ 32) (2 ^ 32 - 1)).regWrite a g false (v.toNat % 2 ^ 32) (2 ^ 32 - 1) := by
  have hk : s.keyedAway a u off = false := by simp [State.keyedAway, hs]
  have hu : s.keyUse a u off = .plain := by simp [State.keyUse, hs]
  simp [State.busWrite, h, hp, Nat.not_le.mpr ho, State.write32, hg, hw, hk, State.accessWrite, hu]

/-- A write of reserved bits changes nothing else. -/
theorem State.rsvWrite_eq (s : State) (u off : Nat) (g : Reg) (v mask : Nat) :
    s.rsvWrite u off g v mask = { s with rsv := (s.rsvWrite u off g v mask).rsv } := by
  unfold State.rsvWrite
  dsimp only
  split <;> rfl

/-- `t` comes from `s` by a write of `n` to MEM_SCRUB_CFG of die `d` (R356, R849). -/
structure ScrubCfgWritten (s t : State) (d : Nat) (n : BitVec 32) : Prop where
  taken : 1000 ≤ n.toNat ∧ n.toNat ≤ 257000 ∧ (tget .reset s.memLock d).lock = false → tget 0x3EBE8#32 t.scrub d = n
  kept : n.toNat < 1000 ∨ 257000 < n.toNat ∨ (tget .reset s.memLock d).lock = true → t.scrub = s.scrub
  locked : 1000 ≤ n.toNat → n.toNat ≤ 257000 → n ≠ tget 0x3EBE8#32 s.scrub d → (tget .reset s.memLock d).lock = true →
    (tget .reset t.memLock d).viol = true
  frame : t = { s with scrub := t.scrub, memLock := t.memLock, rsv := t.rsv }

theorem State.regWrite_scrubCfg_written (s : State) (a : Agent) (d n mask : Nat) (k : Bool) (h : n < 2 ^ 25) :
    ScrubCfgWritten s (s.regWrite a (.scrubCfg d) k n mask) d (BitVec.ofNat 32 n) := by
  have hn : (BitVec.ofNat 32 n).toNat = n := by rw [BitVec.toNat_ofNat]; omega
  have hold : BitVec.ofNat 32 n = tget 0x3EBE8#32 s.scrub d ↔ n = (tget 0x3EBE8#32 s.scrub d).toNat := by
    rw [← BitVec.toNat_inj, hn]
  rw [State.regWrite_scrubCfg s a d n mask k h]
  split
  · next hsame =>
    refine ⟨fun ht => ?_, fun _ => rfl, fun h1 h2 h3 _ => ?_, rfl⟩
    · exact (hold.mpr (by omega)).symm
    · exact absurd (hold.mpr (by omega)) h3
  · next hnew =>
    split
    · next hl =>
      refine ⟨fun ht => ?_, fun _ => rfl, fun _ _ _ _ => ?_, rfl⟩
      · rw [ht.2.2] at hl
        exact absurd hl Bool.false_ne_true
      · simp
    · next hl =>
      refine ⟨fun _ => tget_tset_self .., fun hk => ?_, fun _ _ _ hl' => absurd hl' hl, rfl⟩
      rw [hn] at hk
      rcases hk with hk | hk | hk
      · exact absurd (.inl hk) hnew
      · exact absurd (.inr (.inl hk)) hnew
      · exact absurd hk hl

/-- STB_TIME_LOW_READ returns the low half of the STB and latches its high half. -/
theorem exec_stbTimeLowRead {s : State} {a : Agent} (hh : a = .host → s.ready = true)
    (hd : a = .debug → s.sec.scope.getLsbD 1 = true) (hk : s.keyedAway a 4 0x2050 = false) :
    exec (.stbTimeLowRead a) s =
      .next ((s.latchHigh a 4 0x2050 (BitVec.ofNat 32 (s.stbTicks / 2 ^ 32))).modBus a fun b =>
        { b with data := BitVec.ofNat 64 (s.stbTicks % 2 ^ 32) }) := by
  have h : busAligned (townAddr a 0x2050) false = true := by cases a <;> decide
  have hr := exec_clearingRead_reg h (s.busPlace_stbTime a hh hd) (by decide)
  rw [s.read32_stbTime a hk] at hr
  exact hr

/-- With no sequence open, REGISTER_WRITE of MEM_SCRUB_CFG writes its 25 bits. -/
theorem exec_registerWrite_scrubCfg {s : State} {a : Agent} {addr : BusAddr} {u off d : Nat} {v : BitVec 64}
    (h : busAligned addr false = true) (hp : s.busPlace a addr = .reg u off false) (ho : off < 0x400000)
    (hg : s.regAt u off = some (.scrubCfg d)) (hv : v.toNat < 2 ^ 25) (hs : s.sec.seq = none) :
    Does (.registerWrite a addr false v) s fun t => ScrubCfgWritten s t d (BitVec.ofNat 32 v.toNat) := by
  refine ⟨_, congrArg Host.Outcome.next (State.busWrite_plain h hp ho hg rfl hs), ?_⟩
  have hm : v.toNat % 2 ^ 32 = v.toNat := by omega
  rw [hm, State.rsvWrite_eq]
  obtain ⟨taken, kept, locked, frame⟩ := State.regWrite_scrubCfg_written
    { s with rsv := (s.rsvWrite u off (.scrubCfg d) v.toNat (2 ^ 32 - 1)).rsv } a d v.toNat (2 ^ 32 - 1) false hv
  exact ⟨taken, kept, locked, frame⟩

/-- Settles O51, by what each kind of read and the write of MEM_SCRUB_CFG give. -/
theorem registersReadAndWrite : Obligations.RegistersReadAndWrite := by
  intro s a addr
  refine ⟨fun wide v h => ⟨exec_clearingRead (State.busRead_unaligned h),
      congrArg Host.Outcome.next (State.busWrite_unaligned h)⟩,
    fun u off g h hp ho hg => ⟨fun hk => ?_, fun hk hf => ?_⟩, fun u off g x h hp ho hn hg hw hl => ?_,
    fun k hs hl ha hg hh hd => ?_, fun hh hd hk => ⟨_, exec_stbTimeLowRead hh hd hk, ?_, ?_, rfl⟩,
    fun u off d v h hp ho hg hv hs => ?_⟩
  · rw [exec_clearingRead_reg h hp ho, State.read32_keyedAway (by rw [hg]; rfl) hk]
    rfl
  · rw [exec_clearingRead_reg h hp ho, State.read32_reg hg hk hf]
  · rw [exec_clearingRead_reg h hp ho, State.read32_latched hn hg hw hl]
  · rw [exec_targetRegisterRead hs hh hd, State.read32_keyedAway hg (State.keyedAway_of_open hs hl ha)]
    rfl
  · simp [State.modBus]
  · simp [State.modBus, State.latchHigh]
  · obtain ⟨t, ht, taken, kept, locked, frame⟩ := exec_registerWrite_scrubCfg h hp ho hg hv hs
    exact ⟨t, ht, taken, kept, locked, frame⟩

end Sys2Proof.Machine
end

section
/-! OP_COMPLETE (O20): the flag words of a completed op, its arrival on its crossing, and the CX_GNORM that it notes. -/

namespace Sys2Proof.Machine

/-! ## Flag words ORed into their slots (R140) -/

/-- The tensor flags with the flag words of an op of `step` ORed into their slots. -/
def orSlots (t : Tbl (BitVec 4)) (die : Nat) (step : BitVec 64) (fs : List (Nat × BitVec 4)) : Tbl (BitVec 4) :=
  fs.foldl (fun u f => orSlot u die step f.1 f.2) t

section
variable {t : Tbl (BitVec 4)} {die : Nat} {step : BitVec 64} {v : BitVec 4} {b : Nat}

theorem tget_orSlot_self (t : Tbl (BitVec 4)) (die : Nat) (step : BitVec 64) (slot : Nat) (f : BitVec 4) :
    tget 0#4 (orSlot t die step slot f) (flagKey die step slot) = tget 0#4 t (flagKey die step slot) ||| f :=
  tget_tmod_self ..

/-- ORing a word into a slot keeps the flags that are set in any slot. -/
theorem orSlot_keeps (slot : Nat) (f : BitVec 4) (h : v ||| tget 0#4 t b = tget 0#4 t b) :
    v ||| tget 0#4 (orSlot t die step slot f) b = tget 0#4 (orSlot t die step slot f) b := by
  by_cases hb : b = flagKey die step slot
  · rw [hb] at h ⊢
    rw [tget_orSlot_self, ← BitVec.or_assoc, h]
  · rwa [orSlot, tget_tmod_other _ _ _ hb]

theorem orSlots_keeps (fs : List (Nat × BitVec 4)) (h : v ||| tget 0#4 t b = tget 0#4 t b) :
    v ||| tget 0#4 (orSlots t die step fs) b = tget 0#4 (orSlots t die step fs) b := by
  induction fs generalizing t with
  | nil => exact h
  | cons f fs ih => exact ih (orSlot_keeps f.1 f.2 h)

/-- The slot of each word of the list holds the flags of that word afterwards. -/
theorem orSlots_sets {fs : List (Nat × BitVec 4)} {f : Nat × BitVec 4} (hf : f ∈ fs) :
    f.2 ||| tget 0#4 (orSlots t die step fs) (flagKey die step f.1)
      = tget 0#4 (orSlots t die step fs) (flagKey die step f.1) := by
  induction fs generalizing t with
  | nil => cases hf
  | cons g fs ih =>
    rcases List.mem_cons.mp hf with rfl | hf
    · refine orSlots_keeps fs ?_
      rw [tget_orSlot_self, BitVec.or_comm, BitVec.or_assoc, BitVec.or_self]
    · exact ih hf

end

/-! ## Arrivals (R402, R407) -/

section
variable (s : State) (scope die core index : Nat) (n : BitVec 64) (inc : Nat)

/-- ARRIVE(n) touches crossings, their units' status and the fault wires. -/
theorem State.arrive_eq : s.arrive scope die core index n inc =
    { s with sync := (s.arrive scope die core index n inc).sync, flt := (s.arrive scope die core index n inc).flt } := by
  unfold State.arrive
  dsimp only
  split <;> rfl

theorem State.arrive_tflag : (s.arrive scope die core index n inc).sync.tflag = s.sync.tflag := by
  unfold State.arrive
  dsimp only
  split <;> rfl

/-- The counter of the crossing gains the count and stops at 65,535. -/
theorem State.xVal_arrive : ((s.arrive scope die core index n inc).xVal scope die core index n).toNat =
    min 65535 ((s.xVal scope die core index n).toNat + inc) := by
  unfold State.arrive
  dsimp only
  split
  · next h =>
    simp only [State.xVal, tget_tset_self, BitVec.toNat_ofNat]
    omega
  · next h =>
    have hsat : ∀ u : State, u.sync.xcnt = tset 0#16 s.sync.xcnt (xKey scope die core index (bankOf n)) 0xFFFF#16 →
        (u.xVal scope die core index n).toNat = 65535 := by
      intro u hu
      simp [State.xVal, hu]
    rw [hsat _ rfl]
    exact (Nat.min_eq_left (Nat.le_of_not_le h)).symm

end

/-! ## The parts of a completion -/

/-- The package after an op that completes has left the issued ops of its engine and its slot, with its flag words ORed
(R140, R527). An op of the engine's step counts as arrived. -/
def State.opRetired (s : State) (e : EngRef) (op : IssuedOp) (rest : List IssuedOp) : State :=
  let r := s.engRaw e
  let idx := r.opIdx - r.issued.length
  let u := (s.freeSlotOf e op).setEng e { r with
    issued := rest, arrived := if r.step = some op.step then max r.arrived (idx + 1) else r.arrived,
    ended := r.ended || (op.code == 1#8) }
  { u with sync := { u.sync with tflag := orSlots u.sync.tflag e.die.val op.step op.flags } }

/-- The package after the arrival of op `idx` of an engine of which the ops before `arrived` have arrived (R277, R278). -/
def State.opCrossed (s : State) (e : EngRef) (op : IssuedOp) (idx arrived : Nat) : State :=
  if op.hdr.aen = true ∧ arrived ≤ idx then
    s.arrive (hdrScope e) e.die.val e.core.val op.hdr.axc.toNat op.step 1
  else s

/-- The package with a completed CX_GNORM noted for its die. -/
def State.opNoted (s : State) (e : EngRef) (op : IssuedOp) : State :=
  if op.code = 0x61#8 then s.modStep op.step fun t => { t with gnDone := insNat e.die.val t.gnDone } else s

/-- The package after the completion of an op of its engine's step. -/
def State.opCompleted (s : State) (e : EngRef) (op : IssuedOp) (rest : List IssuedOp) : State :=
  let r := s.engRaw e
  ((s.opRetired e op rest).opCrossed e op (r.opIdx - r.issued.length) r.arrived).opNoted e op

/-! What OP_COMPLETE does in each case, by these parts. -/

section
variable {s : State} {e : EngRef} {op : IssuedOp} {rest : List IssuedOp}

theorem exec_opComplete_waits (hi : (s.engRaw e).issued = op :: rest) (h : op.done = false ∨ s.handDue e op = true) :
    exec (.opComplete e) s = .next s := by
  dsimp only [exec, execOpComplete]
  rw [hi]
  refine if_pos ?_
  rcases h with h | h <;> simp [h]

theorem exec_opComplete_discards (hi : (s.engRaw e).issued = op :: rest) (hd : op.done = true)
    (hh : s.handDue e op = false) (hs : (s.engRaw e).step ≠ some op.step) :
    exec (.opComplete e) s = .next (s.opRetired e op rest) := by
  dsimp only [exec, execOpComplete]
  simp [hi, hd, hh, hs, State.opRetired, orSlots]

theorem exec_opComplete_arrives (hi : (s.engRaw e).issued = op :: rest) (hd : op.done = true)
    (hh : s.handDue e op = false) (hs : (s.engRaw e).step = some op.step) :
    exec (.opComplete e) s = .next (s.opCompleted e op rest).settleNow := by
  dsimp only [exec, execOpComplete]
  simp [hi, hd, hh, hs, State.opRetired, State.opCrossed, State.opNoted, State.opCompleted, orSlots]

end

/-! What each part leaves as it is. -/

section
variable (s : State) (e : EngRef) (op : IssuedOp)

theorem State.freeSlotOf_eq : s.freeSlotOf e op = { s with cx := (s.freeSlotOf e op).cx } := by
  unfold State.freeSlotOf
  split
  · rfl
  · split <;> rfl

theorem State.opRetired_eq (rest : List IssuedOp) : s.opRetired e op rest =
    { s with eng := (s.opRetired e op rest).eng, cx := (s.opRetired e op rest).cx,
             sync := { s.sync with tflag := orSlots s.sync.tflag e.die.val op.step op.flags } } := by
  unfold State.opRetired
  rw [State.freeSlotOf_eq]
  rfl

theorem State.opCrossed_eq (idx arrived : Nat) : s.opCrossed e op idx arrived =
    { s with sync := (s.opCrossed e op idx arrived).sync, flt := (s.opCrossed e op idx arrived).flt } := by
  unfold State.opCrossed
  split
  · exact State.arrive_eq ..
  · rfl

theorem State.opCrossed_tflag (idx arrived : Nat) : (s.opCrossed e op idx arrived).sync.tflag = s.sync.tflag := by
  unfold State.opCrossed
  split
  · exact State.arrive_tflag ..
  · rfl

theorem State.opNoted_eq : s.opNoted e op = { s with ctx := (s.opNoted e op).ctx } := by
  unfold State.opNoted State.modStep
  split
  · split <;> rfl
  · rfl

/-- What a CX_GNORM notes depends on the contexts alone. -/
theorem State.opNoted_ctx {u : State} (hc : u.ctx = s.ctx) (hr : u.resident = s.resident) :
    (u.opNoted e op).ctx = if op.code = 0x61#8 then
      (s.modStep op.step fun t => { t with gnDone := insNat e.die.val t.gnDone }).ctx else s.ctx := by
  unfold State.opNoted State.modStep
  split
  · rw [hr]
    split
    · exact hc
    · simp only [State.modCtx, hc]
  · exact hc

end

/-! ## The completion -/

/-- From the flag table `t` to `u` no flag is lost, and each flag word of `op` is in its slot of `u` (R140). -/
def FlagsOred (t u : Tbl (BitVec 4)) (die : Nat) (op : IssuedOp) : Prop :=
  (∀ b, tget 0#4 t b ||| tget 0#4 u b = tget 0#4 u b)
  ∧ ∀ f ∈ op.flags, f.2 ||| tget 0#4 u (flagKey die op.step f.1) = tget 0#4 u (flagKey die op.step f.1)

theorem FlagsOred.of_orSlots {t u : Tbl (BitVec 4)} {die : Nat} {op : IssuedOp}
    (h : u = orSlots t die op.step op.flags) : FlagsOred t u die op := by
  subst h
  exact ⟨fun _ => orSlots_keeps op.flags BitVec.or_self, fun _ hf => orSlots_sets hf⟩

section
variable {s : State} {e : EngRef} {op : IssuedOp} {rest : List IssuedOp}

theorem State.engRaw_opRetired : (s.opRetired e op rest).engRaw e = { s.engRaw e with
    issued := rest,
    arrived := if (s.engRaw e).step = some op.step then
      max (s.engRaw e).arrived ((s.engRaw e).opIdx - (s.engRaw e).issued.length + 1) else (s.engRaw e).arrived,
    ended := (s.engRaw e).ended || (op.code == 1#8) } :=
  State.engRaw_setEng ..

/-- An op without AEN, and one that has arrived before, do not arrive. -/
theorem State.opCrossed_none {idx arrived : Nat} (h : op.hdr.aen = false ∨ idx < arrived) :
    s.opCrossed e op idx arrived = s := by
  refine if_neg fun ⟨ha, hi⟩ => ?_
  rcases h with h | h
  · exact Bool.false_ne_true (h.symm.trans ha)
  · exact absurd h (Nat.not_lt.mpr hi)

/-- The first arrival of an op with AEN is one more on its crossing. -/
theorem State.xVal_opCrossed {idx arrived : Nat} (ha : op.hdr.aen = true) (hi : arrived ≤ idx) :
    ((s.opCrossed e op idx arrived).xVal (hdrScope e) e.die.val e.core.val op.hdr.axc.toNat op.step).toNat =
      min 65535 ((s.xVal (hdrScope e) e.die.val e.core.val op.hdr.axc.toNat op.step).toNat + 1) := by
  rw [State.opCrossed, if_pos ⟨ha, hi⟩, State.xVal_arrive]

theorem State.opRetired_sync : (s.opRetired e op rest).sync =
    { s.sync with tflag := orSlots s.sync.tflag e.die.val op.step op.flags } :=
  congrArg State.sync (State.opRetired_eq s e op rest)

theorem State.opRetired_tflag : (s.opRetired e op rest).sync.tflag =
    orSlots s.sync.tflag e.die.val op.step op.flags := by
  rw [State.opRetired_sync]

theorem State.opCompleted_engRaw : (s.opCompleted e op rest).engRaw e = (s.opRetired e op rest).engRaw e := by
  rw [State.opCompleted, State.opNoted_eq, State.opCrossed_eq]
  rfl

theorem State.opCompleted_sync : (s.opCompleted e op rest).sync = ((s.opRetired e op rest).opCrossed e op
    ((s.engRaw e).opIdx - (s.engRaw e).issued.length) (s.engRaw e).arrived).sync := by
  rw [State.opCompleted, State.opNoted_eq]

theorem State.opCompleted_tflag : (s.opCompleted e op rest).sync.tflag =
    orSlots s.sync.tflag e.die.val op.step op.flags := by
  rw [State.opCompleted_sync, State.opCrossed_tflag, State.opRetired_tflag]

theorem State.opCompleted_ctx : (s.opCompleted e op rest).ctx = if op.code = 0x61#8 then
    (s.modStep op.step fun t => { t with gnDone := insNat e.die.val t.gnDone }).ctx else s.ctx := by
  refine State.opNoted_ctx s e op ?_ ?_ <;> rw [State.opCrossed_eq, State.opRetired_eq]

/-- A completion touches nothing but the contexts, the engines, the collective engines, the crossings and the fault
wires. -/
theorem State.opCompleted_eq : s.opCompleted e op rest =
    { s with ctx := (s.opCompleted e op rest).ctx, eng := (s.opCompleted e op rest).eng,
             cx := (s.opCompleted e op rest).cx, sync := (s.opCompleted e op rest).sync,
             flt := (s.opCompleted e op rest).flt } := by
  unfold State.opCompleted
  rw [State.opNoted_eq, State.opCrossed_eq, State.opRetired_eq]

end

/-- Settles O20, by the three cases of OP_COMPLETE: the op waits, its arrival is discarded, or it arrives. -/
theorem opsCompleteInOrder : Obligations.OpsCompleteInOrder := by
  intro s e op rest hi
  refine ⟨exec_opComplete_waits hi,
    fun hd hh hs => ⟨s.opRetired e op rest, exec_opComplete_discards hi hd hh hs, ?_, ?_, ?_, ?_⟩,
    fun hd hh hs => ⟨s.opCompleted e op rest, exec_opComplete_arrives hi hd hh hs, ?_, ?_, ?_, fun hn => ?_,
      fun ha hf => ?_, State.opCompleted_ctx, State.opCompleted_eq⟩⟩
  · rw [State.engRaw_opRetired]
  · rw [State.engRaw_opRetired]
    exact if_neg hs
  · exact FlagsOred.of_orSlots State.opRetired_tflag
  · rw [State.opRetired_sync]
    exact State.opRetired_eq s e op rest
  · rw [State.opCompleted_engRaw, State.engRaw_opRetired]
  · rw [State.opCompleted_engRaw, State.engRaw_opRetired]
    simp only [if_pos hs]
    omega
  · exact FlagsOred.of_orSlots State.opCompleted_tflag
  · rw [State.opCompleted_sync, State.opCrossed_none hn, State.opRetired_sync]
  · rw [State.xVal, State.opCompleted_sync]
    refine (State.xVal_opCrossed ha hf).trans ?_
    rw [State.xVal, State.opRetired_sync]
    rfl

end Sys2Proof.Machine
end

section
/-! What a change of one core and the writes of an array's planes leave as they were: the layer of facts about the
Array Engine that the statements of 04_matrix_array rest on. -/

namespace Sys2Proof.Machine

/-! ## One core of the package -/

section
variable (s : State) (c : CoreRef)

theorem OtherCores.refl : OtherCores s s c := fun _ _ => rfl

variable {s c} in
/-- A further change of the same core keeps every other core. -/
theorem OtherCores.modCore {t : State} (h : OtherCores s t c) (hk : t.coreKey c = s.coreKey c) (f : CoreSt → CoreSt) :
    OtherCores s (t.modCore c f) c := fun k hne =>
  (tget_tmod_other _ _ _ (by rwa [hk])).trans (h k hne)

theorem State.otherCores_modCore (f : CoreSt → CoreSt) : OtherCores s (s.modCore c f) c :=
  (OtherCores.refl s c).modCore rfl f

theorem State.coreAt_arrayFault (d : CoreRef) (n v : BitVec 64) : (s.arrayFault c n v).coreAt d = s.coreAt d := rfl

theorem State.coreAt_setEng (e : EngRef) (r : EngSt) : (s.setEng e r).coreAt c = s.coreAt c := rfl

theorem State.coreAt_issued (e : EngRef) (i : Instr) (r : EngSt) (op : IssuedOp) :
    (s.issued e i r op).coreAt c = s.coreAt c := rfl

theorem State.wires_arrayFault (n v : BitVec 64) : (s.arrayFault c n v).flt.wires = s.flt.wires
    ++ [mkReport 1 1 (coreLocus c.die.val (s.physOf c.die.val c.core.val)) n v] := rfl

variable {s c} in
/-- A fault report after a change of cores touches the cores and the fault reports alone. -/
theorem State.arrayFault_frame {t : State} (h : t = { s with core := t.core }) (n v : BitVec 64) :
    t.arrayFault c n v = { s with core := (t.arrayFault c n v).core, flt := (t.arrayFault c n v).flt } := by
  generalize hk : t.core = k at h
  subst h
  rfl

variable {s c} in
/-- A fault report is on the fault wires alone. -/
theorem OtherCores.arrayFault {t : State} (h : OtherCores s t c) (d : CoreRef) (n v : BitVec 64) :
    OtherCores s (t.arrayFault d n v) c := h

variable {s c} in
/-- The issue of an op is in its engine's registers alone. -/
theorem OtherCores.issued {t : State} (h : OtherCores s t c) (e : EngRef) (i : Instr) (r : EngSt) (op : IssuedOp) :
    OtherCores s (t.issued e i r op) c := h

end

/-! ## Banks of a core: their owners and hand-overs -/

section
variable (k : CoreSt) (b : Bool) (ve : Bool) (h : Option Bool)

@[simp] theorem CoreSt.veOwns_own_self : (k.own b ve).veOwns b = ve := by cases b <;> rfl
@[simp] theorem CoreSt.veOwns_own_not : (k.own b ve).veOwns (!b) = k.veOwns (!b) := by cases b <;> rfl
@[simp] theorem CoreSt.hand_own (a : Bool) : (k.own b ve).hand a = k.hand a := by cases b <;> rfl
@[simp] theorem CoreSt.bank_own (a : Bool) : (k.own b ve).bank a = k.bank a := by cases b <;> rfl
@[simp] theorem CoreSt.ae_own : (k.own b ve).ae = k.ae := by cases b <;> rfl
@[simp] theorem CoreSt.hand_setHand_self : (k.setHand b h).hand b = h := by cases b <;> rfl
@[simp] theorem CoreSt.hand_setHand_not : (k.setHand b h).hand (!b) = k.hand (!b) := by cases b <;> rfl
@[simp] theorem CoreSt.veOwns_setHand (a : Bool) : (k.setHand b h).veOwns a = k.veOwns a := by cases b <;> rfl
@[simp] theorem CoreSt.bank_setHand (a : Bool) : (k.setHand b h).bank a = k.bank a := by cases b <;> rfl
@[simp] theorem CoreSt.ae_setHand : (k.setHand b h).ae = k.ae := by cases b <;> rfl

end

/-! ## Planes of an array -/

section
variable (a : AeSt) (pl : Bool) (n : Nat)

@[simp] theorem AeSt.rows_setRows_self : (a.setRows pl n).rows pl = n := by cases pl <;> rfl
@[simp] theorem AeSt.plane_setRows (q : Bool) : (a.setRows pl n).plane q = a.plane q := by cases pl <;> rfl
@[simp] theorem AeSt.active_setRows : (a.setRows pl n).active = a.active := by cases pl <;> rfl
@[simp] theorem AeSt.beat_setRows : (a.setRows pl n).beat = a.beat := by cases pl <;> rfl
@[simp] theorem AeSt.token_setRows : (a.setRows pl n).token = a.token := by cases pl <;> rfl
@[simp] theorem AeSt.passes_setRows : (a.setRows pl n).passes = a.passes := by cases pl <;> rfl

end

/-! ## What waits in an array, and what its ops report -/

/-- No pass waits where every pass has started. -/
theorem AeSt.waiting_eq_none {a : AeSt} (h : ∀ p ∈ a.passes, p.started = true) : a.waiting = none :=
  List.find?_eq_none.mpr fun p hp => by simp [h p hp]

/-- The detectors of the Array Engine have nothing to report of an op that reads later. -/
theorem State.issuedSeen_reads_later {i : Instr} {e : EngRef} (hi : readsAtIssue i = false) (he : e.eng = .ae)
    (u v : State) (n : BitVec 64) (o : HwObs) (r : EngSt) (op : IssuedOp) :
    u.issuedSeen v e i n o r op = u.issued e i r op := by
  simp [State.issuedSeen, State.opBad, hi, he]

end Sys2Proof.Machine
end

section
/-! Checksum verdicts and the hand-over of banks (O13). -/

namespace Sys2Proof.Machine

/-- A row that waits for its verdict, with what the checker's lanes hold of it where the datapath erred. -/
def RowChk.seen (p : RowChk) (obs : Option (BitVec 48)) : RowChk :=
  match obs with
  | none => p
  | some v => if p.isInt then { p with obsI := v.toInt } else { p with obs := v }

section
variable {s : State} {c : CoreRef} {obs : Option (BitVec 48)} {p : RowChk} {rest : List RowChk}

/-- The package with the rows of a core that wait for a verdict replaced. -/
def State.setChecks (s : State) (c : CoreRef) (rest : List RowChk) : State :=
  s.modCore c fun k => { k with ae := { k.ae with checks := rest } }

/-- A core with ABFT_ERR set, which takes the log unless it holds one (R196, R199). -/
def CoreSt.latchAbft (k : CoreSt) (log : BitVec 64) : CoreSt :=
  { k with abftErr := true, abftLog := if k.abftErr then k.abftLog else log }

/-- The package with the verdict on a failing row of a core latched and the row gone. -/
def State.latchVerdict (s : State) (c : CoreRef) (rest : List RowChk) (log : BitVec 64) : State :=
  (s.setChecks c rest).modCore c (·.latchAbft log)

theorem State.coreAt_latchVerdict (log : BitVec 64) : (s.latchVerdict c rest log).coreAt c =
    ({ s.coreAt c with ae := { (s.coreAt c).ae with checks := rest } } : CoreSt).latchAbft log := by
  rw [State.latchVerdict, State.coreAt_modCore, State.setChecks, State.coreAt_modCore]

theorem State.latchVerdict_eq (log : BitVec 64) :
    s.latchVerdict c rest log = { s with core := (s.latchVerdict c rest log).core } := rfl

theorem State.otherCores_latchVerdict (log : BitVec 64) : OtherCores s (s.latchVerdict c rest log) c :=
  (s.otherCores_modCore c _).modCore rfl _

theorem exec_checksumCheck_none (hd : c.die.val < s.dies) (hc : (s.coreAt c).ae.checks = []) :
    exec (.checksumCheck c obs) s = .next s := by
  dsimp only [exec, execChecksumCheck]
  rw [guardUnit_eq (decide_eq_true hd), hc]

theorem exec_checksumCheck_passes (hd : c.die.val < s.dies) (hc : (s.coreAt c).ae.checks = p :: rest)
    (hf : (checkFails (p.seen obs)).1 = false) :
    exec (.checksumCheck c obs) s = .next (s.setChecks c rest) := by
  dsimp only [exec, execChecksumCheck]
  rw [guardUnit_eq (decide_eq_true hd), hc]
  exact if_neg (ne_true_of_eq_false hf)

theorem exec_checksumCheck_fails (hd : c.die.val < s.dies) (hc : (s.coreAt c).ae.checks = p :: rest)
    (hf : (checkFails (p.seen obs)).1 = true) :
    let t := s.latchVerdict c rest (abftLogOf (p.seen obs) (checkFails (p.seen obs)).2)
    exec (.checksumCheck c obs) s = .next (t.arrayFault c (p.seen obs).step (t.coreAt c).abftLog) := by
  dsimp only [exec, execChecksumCheck]
  rw [guardUnit_eq (decide_eq_true hd), hc]
  exact if_pos hf

end

/-- A core after the hand-over of a bank that is due, if one is (R216-R218). -/
def CoreSt.handOver (k : CoreSt) (b : Bool) : CoreSt :=
  match k.hand b with
  | none => k
  | some ve => (k.own b ve).setHand b none

theorem CoreSt.handOver_none {k : CoreSt} {b : Bool} (h : k.hand b = none) : k.handOver b = k := by
  simp only [CoreSt.handOver, h]

theorem CoreSt.handOver_some {k : CoreSt} {b ve : Bool} (h : k.hand b = some ve) :
    k.handOver b = (k.own b ve).setHand b none := by
  simp only [CoreSt.handOver, h]

theorem exec_bankHandover {s : State} {c : CoreRef} {b : Bool} (hd : c.die.val < s.dies) :
    exec (.bankHandover c b) s = .next (s.modCore c (·.handOver b)) :=
  guardUnit_eq (decide_eq_true hd)

/-- Settles O13, by the verdict on the oldest row that waits and by the hand-over that is due. -/
theorem checksumVerdictsAndHandovers : Obligations.ChecksumVerdictsAndHandovers := by
  refine ⟨fun s c obs => exec_checksumCheck_none, fun s c q p rest obs hd hc hq => ?_,
    fun s c b hd => ⟨fun hn => ?_, fun ve hv => ?_⟩⟩
  · obtain rfl : q = p.seen obs := hq
    refine ⟨exec_checksumCheck_passes hd hc, fun hf => ⟨_, exec_checksumCheck_fails hd hc hf, ?_⟩⟩
    dsimp only
    rw [State.coreAt_arrayFault, State.coreAt_latchVerdict]
    exact ⟨rfl, rfl, rfl, State.wires_arrayFault .., State.arrayFault_frame (State.latchVerdict_eq _) .., rfl,
      (State.otherCores_latchVerdict _).arrayFault _ _ _⟩
  · refine ⟨_, exec_bankHandover hd, ?_, s.otherCores_modCore c _, rfl⟩
    rw [State.coreAt_modCore, CoreSt.handOver_none hn]
  · refine ⟨_, exec_bankHandover hd, ?_⟩
    dsimp only
    rw [State.coreAt_modCore, CoreSt.handOver_some hv]
    exact ⟨by simp, by simp, by simp, by simp, by simp, by simp, s.otherCores_modCore c _, rfl⟩

end Sys2Proof.Machine
end

section
/-! AE_LOAD and AE_PASS (O9). -/

namespace Sys2Proof.Machine

/-! ## The array after AE_LOAD (R157, R282) -/

/-- An array with a load of row 0 of its shadow plane begun. -/
def AeSt.beginLoad (a : AeSt) (fmt line : BitVec 16) : AeSt :=
  let b := a.setRows (!a.active) 0
  let b := if !a.active then { b with fmt1 := fmt } else { b with fmt0 := fmt }
  { b with load := some { fmt := fmt, line := line, row := 0, plane := !a.active, tok := b.token } }

section
variable (a : AeSt) (fmt line : BitVec 16)

theorem AeSt.load_beginLoad : (a.beginLoad fmt line).load =
    some { fmt := fmt, line := line, row := 0, plane := !a.active, tok := a.token } := by
  cases h : a.active <;> simp [AeSt.beginLoad, AeSt.setRows, h]

theorem AeSt.rows_beginLoad : (a.beginLoad fmt line).rows (!a.active) = 0 := by
  cases h : a.active <;> simp [AeSt.beginLoad, AeSt.setRows, AeSt.rows, h]

theorem AeSt.fmt_beginLoad : (a.beginLoad fmt line).fmt (!a.active) = fmt := by
  cases h : a.active <;> simp [AeSt.beginLoad, AeSt.fmt, h]

theorem AeSt.plane_beginLoad (b : Bool) : (a.beginLoad fmt line).plane b = a.plane b := by
  cases h : a.active <;> simp [AeSt.beginLoad, AeSt.setRows, AeSt.plane, h]

theorem AeSt.active_beginLoad : (a.beginLoad fmt line).active = a.active := by
  cases h : a.active <;> simp [AeSt.beginLoad, AeSt.setRows, h]

theorem AeSt.passes_beginLoad : (a.beginLoad fmt line).passes = a.passes := by
  cases h : a.active <;> simp [AeSt.beginLoad, AeSt.setRows, h]

end

/-- No pass that swaps is still to start. -/
theorem AeSt.no_swap_waits {a : AeSt} (h : ∀ p ∈ a.passes, p.started = false → p.f.swap = false) :
    (a.passes.any fun p => !p.started && p.f.swap) = false := by
  rw [List.any_eq_false]
  intro p hp
  cases hs : p.started with
  | true => simp
  | false => simp [h p hp hs]

/-! ## The issue of both ops -/

section
variable {s : State} {c : CoreRef} {h : OpHdr} {n : BitVec 64} {rs : List CycleRun}

theorem exec_aeLoad {fmt line : BitVec 16}
    (m : MayIssue (s.clock c rs) (engOf c .ae) (.aeLoad c h fmt line []) h n)
    (hl : ((s.clock c rs).coreAt c).ae.load = none)
    (hp : ∀ p ∈ ((s.clock c rs).coreAt c).ae.passes, p.started = false → p.f.swap = false) :
    exec (.aeLoad c h fmt line rs) s =
      .next (((s.clock c rs).modCore c fun k => { k with ae := k.ae.beginLoad fmt line }).issued (engOf c .ae)
        (.aeLoad c h fmt line []) ((s.clock c rs).engAt (engOf c .ae)) { issuedOp 0x10 h n with done := false }) := by
  refine (guardUnit_eq (decide_eq_true m.present)).trans ((issue_eq m ?_).trans ?_)
  · rw [hl, AeSt.no_swap_waits hp]
    rfl
  · rw [State.issuedSeen_reads_later rfl rfl]
    rfl

/-- The package with a pass at the end of the passes of a core. -/
def State.addPass (s : State) (c : CoreRef) (p : PassSt) : State :=
  s.modCore c fun k => { k with ae := { k.ae with passes := k.ae.passes ++ [p] } }

theorem State.ae_addPass (s : State) (c : CoreRef) (p : PassSt) :
    ((s.addPass c p).coreAt c).ae = { (s.coreAt c).ae with passes := (s.coreAt c).ae.passes ++ [p] } :=
  congrArg CoreSt.ae (State.coreAt_modCore ..)

/-- The pass as AE_PASS issues it on an array with plane `active` active: it uses the other plane where it swaps. -/
def passIssued (f : PassF) (h : OpHdr) (n : BitVec 64) (seq : Nat) (active residue : Bool) : PassSt :=
  { hdr := h, f := f, step := n, seq := seq, started := false, b0 := 0, plane := f.swap != active, mrw := residue }

theorem exec_aePass {f : PassF} {o : HwObs}
    (m : MayIssue (s.clock c rs) (engOf c .ae) (.aePass c h f [] noObs) h n)
    (hp : ∀ p ∈ ((s.clock c rs).coreAt c).ae.passes, p.started = true) :
    let u := s.clock c rs
    let r := u.engAt (engOf c .ae)
    exec (.aePass c h f rs o) s =
      .next (((u.strikes o).addPass c (passIssued f h n r.passNo (u.coreAt c).ae.active o.residue)).issued (engOf c .ae)
        (.aePass c h f [] noObs) { r with passNo := r.passNo + 1 }
        { issuedOp 0x11 h n with done := false, slot := some r.passNo }) := by
  have hplane : ∀ a : Bool, (f.swap != a) = if f.swap then !a else a := by cases f.swap <;> simp
  dsimp only
  rw [passIssued, hplane]
  refine (guardUnit_eq (decide_eq_true m.present)).trans ((issue_eq m ?_).trans ?_)
  · rw [AeSt.waiting_eq_none hp]
    rfl
  · rw [State.issuedSeen_reads_later rfl rfl]
    rfl

end

/-- Settles O9, by the issue of each op once no load and no pass holds it back. -/
theorem aeLoadAndPassIssue : Obligations.AeLoadAndPassIssue := by
  rintro s c h n rs u rfl
  refine ⟨fun fmt line m hl hp => ⟨_, exec_aeLoad m hl hp, ?_⟩, fun f o m hp => ⟨_, exec_aePass m hp, ?_, ?_⟩⟩
  · dsimp only
    rw [State.coreAt_issued, State.coreAt_modCore]
    exact ⟨AeSt.load_beginLoad .., AeSt.rows_beginLoad .., AeSt.fmt_beginLoad ..,
      fun b => ⟨rfl, AeSt.plane_beginLoad ..⟩, AeSt.active_beginLoad .., AeSt.passes_beginLoad ..,
      (State.otherCores_modCore _ c _).issued _ _ _ _, rfl, rfl⟩
  · exact State.ae_addPass ..
  · rw [State.ae_addPass]
    rfl

end Sys2Proof.Machine
end

section
/-! The cycles of an array and CURRENT_LEVEL_STEP (O12). -/

namespace Sys2Proof.Machine

/-! ## Counters and levels (R183, R200) -/

section
variable (c : BitVec 32) (m n : Nat)

theorem satAdd32_toNat : (satAdd32 c n).toNat = min (c.toNat + n) 0xFFFFFFFF := by
  rw [satAdd32, BitVec.toNat_ofNat]
  omega

theorem satAdd32_zero : satAdd32 c 0 = c := by
  apply BitVec.eq_of_toNat_eq
  rw [satAdd32_toNat]
  omega

theorem satAdd32_satAdd32 : satAdd32 (satAdd32 c m) n = satAdd32 c (m + n) := by
  apply BitVec.eq_of_toNat_eq
  simp only [satAdd32_toNat]
  omega

end

/-- A longer idle interval has no higher level. -/
theorem levelAfter_antitone {m n : Nat} (h : m ≤ n) : levelAfter n ≤ levelAfter m := by
  unfold levelAfter
  omega

/-! ## Runs of cycles -/

/-- What holds of a value and is kept by each of `n` rounds holds after them. -/
theorem repeat_induction {α : Type} {P : Nat → α → Prop} {f : α → α} {a : α} (h0 : P 0 a)
    (hs : ∀ n x, P n x → P (n + 1) (f x)) (n : Nat) : P n (Nat.repeat f n a) := by
  induction n with
  | zero => exact h0
  | succ n ih => exact hs n _ ih

section
variable {pos n : Nat} {feeder drain : Bool} {k x : CoreSt}

/-- What `n` cycles of an array that lead its core from `k` to `x` keep: they touch the array's clock, its level and the
counters alone, no counter falls, and the frozen, gap and ramp counters take at most one for each cycle (R200). -/
structure CyclesKeep (n : Nat) (k x : CoreSt) : Prop where
  core : x = { k with ae := x.ae, frozen := x.frozen, cntFrz := x.cntFrz, cntGap := x.cntGap, cntRamp := x.cntRamp,
                      cntLdw := x.cntLdw, pos := x.pos }
  array : x.ae = { k.ae with beat := x.ae.beat, cyc := x.ae.cyc, level := x.ae.level, idle := x.ae.idle,
                             wrote := x.ae.wrote, up := x.ae.up }
  beat : k.ae.beat ≤ x.ae.beat
  frz : k.cntFrz.toNat ≤ x.cntFrz.toNat
  gap : k.cntGap.toNat ≤ x.cntGap.toNat
  ramp : k.cntRamp.toNat ≤ x.cntRamp.toNat
  total : x.cntFrz.toNat + x.cntGap.toNat + x.cntRamp.toNat
    ≤ k.cntFrz.toNat + k.cntGap.toNat + k.cntRamp.toNat + n

theorem CyclesKeep.refl (k : CoreSt) : CyclesKeep 0 k k :=
  ⟨rfl, rfl, Nat.le_refl _, Nat.le_refl _, Nat.le_refl _, Nat.le_refl _, Nat.le_refl _⟩

theorem CyclesKeep.trans {m : Nat} {y : CoreSt} (hx : CyclesKeep m k x) (hy : CyclesKeep n x y) :
    CyclesKeep (m + n) k y where
  core := hy.core.trans (by rw [hx.core])
  array := hy.array.trans (by rw [hx.array])
  beat := Nat.le_trans hx.beat hy.beat
  frz := Nat.le_trans hx.frz hy.frz
  gap := Nat.le_trans hx.gap hy.gap
  ramp := Nat.le_trans hx.ramp hy.ramp
  total := by
    have hxt := hx.total
    have hyt := hy.total
    omega

theorem CyclesKeep.plane (h : CyclesKeep n k x) (b : Bool) : x.ae.plane b = k.ae.plane b := by
  rw [h.array]
  rfl

theorem CyclesKeep.passes (h : CyclesKeep n k x) : x.ae.passes = k.ae.passes := by rw [h.array]

theorem CyclesKeep.load (h : CyclesKeep n k x) : x.ae.load = k.ae.load := by rw [h.array]

/-- A counter that takes one more does not fall, and gains at most one. -/
theorem satAdd32_one_bounds (c : BitVec 32) : c.toNat ≤ (satAdd32 c 1).toNat ∧ (satAdd32 c 1).toNat ≤ c.toNat + 1 := by
  have hc := c.isLt
  rw [satAdd32_toNat]
  omega

/-- One cycle is frozen, a wait of a ramp, an injection or a gap, and counts as such (R177, R183, R185, R200). -/
theorem cycle_keeps (pos : Nat) (feeder drain : Bool) (k : CoreSt) : CyclesKeep 1 k (cycle pos feeder drain k) := by
  obtain ⟨hf, hf'⟩ := satAdd32_one_bounds k.cntFrz
  obtain ⟨hg, hg'⟩ := satAdd32_one_bounds k.cntGap
  obtain ⟨hr, hr'⟩ := satAdd32_one_bounds k.cntRamp
  unfold cycle
  dsimp only
  generalize (k.wants && decide (k.ae.level < 4)) = up
  generalize ({ k.ae with wrote := none } : AeSt).rise = rise
  generalize (if up = true then rise else k.ae.level) = level
  split
  · -- frozen
    exact ⟨rfl, rfl, Nat.le_refl _, hf, Nat.le_refl _, Nat.le_refl _, by dsimp only [CoreSt.idleCycle]; omega⟩
  · split
    · -- a wait of a ramp
      exact ⟨rfl, rfl, Nat.le_refl _, Nat.le_refl _, Nat.le_refl _, hr, by dsimp only; omega⟩
    · split
      · -- an injection
        exact ⟨rfl, rfl, by dsimp only; split <;> omega, Nat.le_refl _, Nat.le_refl _, Nat.le_refl _,
          by dsimp only; omega⟩
      · -- a gap
        exact ⟨rfl, rfl, by dsimp only [CoreSt.idleCycle]; split <;> omega, Nat.le_refl _, hg, Nat.le_refl _,
          by dsimp only [CoreSt.idleCycle]; omega⟩

theorem CyclesKeep.run (pos : Nat) (feeder drain : Bool) (n : Nat) (k : CoreSt) :
    CyclesKeep n k (Nat.repeat (cycle pos feeder drain) n k) :=
  repeat_induction (P := fun n x => CyclesKeep n k x) (.refl k) (fun _ x hx => hx.trans (cycle_keeps _ _ _ x)) n

/-! ## Frozen cycles (R177, R200) -/

/-- A drain that does not take the sums that are due freezes the array. -/
theorem AeSt.stopped_of_drain {a : AeSt} (h : a.beat < a.lastEnd) : a.stopped feeder true = true := by
  simp [AeSt.stopped, h]

/-- From `k` to `x` the array has been frozen for `n` cycles. -/
structure FrozenFor (n : Nat) (k x : CoreSt) : Prop where
  frz : x.cntFrz = satAdd32 k.cntFrz n
  gap : x.cntGap = k.cntGap
  ramp : x.cntRamp = k.cntRamp
  beat : x.ae.beat = k.ae.beat
  lastEnd : x.ae.lastEnd = k.ae.lastEnd
  frozen : 0 < n → x.frozen = true

theorem FrozenFor.next (hk : k.ae.beat < k.ae.lastEnd) (h : FrozenFor n k x) :
    FrozenFor (n + 1) k (cycle pos feeder true x) := by
  have hx : x.ae.stopped feeder true = true := AeSt.stopped_of_drain (by rwa [h.beat, h.lastEnd])
  rw [cycle]
  simp only [hx, if_true]
  exact ⟨(congrArg (satAdd32 · 1) h.frz).trans (satAdd32_satAdd32 ..), h.gap, h.ramp, h.beat, h.lastEnd, fun _ => rfl⟩

theorem FrozenFor.run (pos : Nat) (feeder : Bool) (n : Nat) (hd : drain = true) (hk : k.ae.beat < k.ae.lastEnd) :
    FrozenFor n k (Nat.repeat (cycle pos feeder drain) n k) := by
  subst hd
  exact repeat_induction (P := fun n x => FrozenFor n k x)
    ⟨(satAdd32_zero _).symm, rfl, rfl, rfl, rfl, fun h => absurd h (Nat.lt_irrefl 0)⟩ (fun _ _ => FrozenFor.next hk) n

/-! ## Gap cycles (R183, R200) -/

/-- An array with nothing to inject, nothing that could freeze it and no ramp-up under way. -/
structure CoreSt.Idle (k : CoreSt) : Prop where
  waiting : k.ae.waiting = none
  token : k.ae.token = none
  injected : k.ae.injEnd ≤ k.ae.beat
  drained : k.ae.lastEnd ≤ k.ae.beat
  frozen : k.frozen = false
  up : k.ae.up = none

theorem CoreSt.Idle.not_stopped (h : k.Idle) : k.ae.stopped feeder drain = false := by
  simp [AeSt.stopped, AeSt.tokenStop, h.token, Nat.not_lt.mpr h.injected, Nat.not_lt.mpr h.drained]

theorem CoreSt.Idle.not_wants (h : k.Idle) : k.wants = false := by
  simp [CoreSt.wants, h.waiting, h.frozen, h.up, Nat.not_lt.mpr h.injected]

/-- A cycle of an idle array is a gap: its beat goes on, and an idle interval takes one cycle more. -/
theorem CoreSt.Idle.cycle_eq (h : k.Idle) : cycle pos feeder drain k =
    CoreSt.idleCycle pos { k with
      ae := { k.ae with wrote := none, up := none,
                        beat := if k.ae.cyc + 1 < k.ae.beatLen then k.ae.beat else k.ae.beat + 1,
                        cyc := if k.ae.cyc + 1 < k.ae.beatLen then k.ae.cyc + 1 else 0 },
      frozen := false, cntGap := satAdd32 k.cntGap 1,
      cntLdw := if k.ae.loadWaits then satAdd32 k.cntLdw 1 else k.cntLdw } := by
  unfold cycle
  simp [h.not_stopped, h.not_wants, Nat.not_lt.mpr h.injected]

/-- From `k` to `x` the array has been idle for `n` cycles. -/
structure GapFor (n : Nat) (k x : CoreSt) : Prop where
  idle : x.Idle
  gap : x.cntGap = satAdd32 k.cntGap n
  frz : x.cntFrz = k.cntFrz
  ramp : x.cntRamp = k.cntRamp
  time : x.ae.idle = k.ae.idle + n
  level : x.ae.level = if n = 0 then k.ae.level else min k.ae.level (levelAfter (k.ae.idle + (n - 1)))

/-- The level that the next cycle of an idle interval leaves is the lowest that the interval has allowed (R183). -/
theorem GapFor.next_level (h : GapFor n k x) :
    min x.ae.level (levelAfter x.ae.idle) = min k.ae.level (levelAfter (k.ae.idle + n)) := by
  rw [h.level, h.time]
  split
  · rfl
  · rw [Nat.min_assoc, Nat.min_eq_right (levelAfter_antitone (by omega))]

theorem GapFor.next (h : GapFor n k x) : GapFor (n + 1) k (cycle pos feeder drain x) := by
  obtain ⟨waiting, token, injected, drained, -, -⟩ := h.idle
  rw [h.idle.cycle_eq]
  refine ⟨⟨waiting, token, ?_, ?_, rfl, rfl⟩, ?_, h.frz, h.ramp, congrArg (· + 1) h.time, h.next_level⟩
  · dsimp only [CoreSt.idleCycle]
    split <;> omega
  · dsimp only [CoreSt.idleCycle]
    split <;> omega
  · exact (congrArg (satAdd32 · 1) h.gap).trans (satAdd32_satAdd32 ..)

theorem GapFor.run (pos : Nat) (feeder drain : Bool) (n : Nat) (hk : k.Idle) :
    GapFor n k (Nat.repeat (cycle pos feeder drain) n k) :=
  repeat_induction (P := fun n x => GapFor n k x) ⟨hk, (satAdd32_zero _).symm, rfl, rfl, rfl, rfl⟩
    (fun _ _ => GapFor.next) n

end

/-- One run of cycles clocks a core by as many single cycles. -/
theorem State.clock_run (s : State) (c : CoreRef) (r : CycleRun) : s.clock c [r] =
    s.modCore c fun _ => Nat.repeat (cycle (s.target c.die.val) r.feeder r.drain) r.n (s.coreAt c) := rfl

theorem exec_currentLevelStep {s : State} {c : CoreRef} {feeder drain : Bool} (hd : c.die.val < s.dies) :
    exec (.currentLevelStep c feeder drain) s =
      .next (s.modCore c fun _ => Nat.repeat (cycle (s.target c.die.val) feeder drain) 64 (s.coreAt c)) := by
  dsimp only [exec, execCurrentLevelStep]
  rw [guardUnit_eq (decide_eq_true hd), State.clock_run]

/-- Settles O12, by what one cycle keeps, what a frozen cycle and a gap count, and induction over the 64 cycles. -/
theorem idleTimeCountsOnce : Obligations.IdleTimeCountsOnce := by
  intro s c feeder drain hd
  have keep := CyclesKeep.run (s.target c.die.val) feeder drain 64 (s.coreAt c)
  have froze := FrozenFor.run (k := s.coreAt c) (drain := drain) (s.target c.die.val) feeder 64
  have idled := GapFor.run (k := s.coreAt c) (s.target c.die.val) feeder drain 64
  have run := exec_currentLevelStep (feeder := feeder) (drain := drain) hd
  generalize Nat.repeat _ 64 (s.coreAt c) = x at keep froze idled run
  refine ⟨_, run, ?_⟩
  dsimp only
  rw [State.coreAt_modCore]
  refine ⟨rfl, keep.core, keep.frz, keep.gap, keep.ramp, keep.total, fun hdr hk => ?_,
    fun hw ht hi hl hf hu => ?_, keep.plane, keep.passes, keep.load, keep.beat, fun d => s.coreAt_modCore_other _⟩
  · obtain ⟨frz, gap, ramp, beat, -, frozen⟩ := froze hdr hk
    exact ⟨frz, frozen (by decide), gap, ramp, beat⟩
  · obtain ⟨-, gap, frz, ramp, -, level⟩ := idled ⟨hw, ht, hi, hl, hf, hu⟩
    exact ⟨gap, frz, ramp, level⟩

end Sys2Proof.Machine
end

section
/-! LOAD_ROW_WRITE and PASS_START (O11). -/

namespace Sys2Proof.Machine

/-! ## The row that the loader writes (R147, R157) -/

/-- Values written one after the other from a place of a table on, read back. -/
theorem tget_foldl_tset_zipIdx {α : Type} [DecidableEq α] (d : α) (b i k : Nat) (xs : List α) (t : Tbl α) :
    tget d ((xs.zipIdx i).foldl (fun t p => tset d t (b + p.2) p.1) t) k =
      if b + i ≤ k ∧ k < b + i + xs.length then xs.getD (k - (b + i)) d else tget d t k := by
  induction xs generalizing i t with
  | nil => exact (if_neg fun h => absurd h.2 (Nat.not_lt.mpr h.1)).symm
  | cons x xs ih =>
    rw [List.zipIdx_cons, List.foldl_cons, ih, tget_tset, List.length_cons]
    by_cases hk : k = b + i
    · subst hk
      rw [if_neg (by omega), if_pos rfl, if_pos (by omega), Nat.sub_self]
      rfl
    · by_cases hin : b + (i + 1) ≤ k ∧ k < b + (i + 1) + xs.length
      · rw [if_pos hin, if_pos (by omega), show k - (b + i) = k - (b + (i + 1)) + 1 by omega]
        rfl
      · rw [if_neg hin, if_neg hk, if_neg (by omega)]

section
variable (a : AeSt) (pl : Bool) (row : Nat) (xs : List PlaneEnt)

theorem AeSt.rows_writeRow : (a.writeRow pl row xs).rows pl = row + 1 := by cases pl <;> rfl

theorem AeSt.plane_writeRow_not : (a.writeRow pl row xs).plane (!pl) = a.plane (!pl) := by cases pl <;> rfl

theorem AeSt.plane_writeRow : (a.writeRow pl row xs).plane pl =
    xs.zipIdx.foldl (fun t p => tset { code := 0#16, scale := 0#8 } t (row * 128 + p.2) p.1) (a.plane pl) := by
  cases pl <;> rfl

variable {a pl row xs} {j : Nat}

/-- The row that is written holds its elements. -/
theorem AeSt.entry_writeRow (hx : xs.length = 128) (hj : j < 128) :
    (a.writeRow pl row xs).entry pl row j = xs.getD j { code := 0#16, scale := 0#8 } := by
  rw [AeSt.entry, AeSt.plane_writeRow, tget_foldl_tset_zipIdx, if_pos (by omega)]
  congr 1
  omega

/-- Every other row of the plane is as it was. -/
theorem AeSt.entry_writeRow_other {k : Nat} (hx : xs.length = 128) (hj : j < 128) (hk : k ≠ row) :
    (a.writeRow pl row xs).entry pl k j = a.entry pl k j := by
  rw [AeSt.entry, AeSt.plane_writeRow, tget_foldl_tset_zipIdx, if_neg (by omega)]
  rfl

end

theorem tensorRow_length (s : State) (c : CoreRef) (w : BitVec 16) (line count n m : Nat) :
    (tensorRow s c w line count n m).length = n := by
  simp [tensorRow]

/-! ## LOAD_ROW_WRITE (R157-R165, R187) -/

/-- A load after the row that is written: the next row is to come, or it has ended (R157). -/
def LoadSt.advance (l : LoadSt) : Option LoadSt := if l.row = 127 then none else some { l with row := l.row + 1 }

/-- The package `v` after the loader of a core has written the next row of the load `l`. -/
def State.rowWritten (v : State) (c : CoreRef) (l : LoadSt) : State :=
  let w := v.modCore c fun k =>
    { k with ae := { k.ae.writeRow l.plane l.row (tensorRow v c l.fmt l.line.toNat 128 128 l.row) with
                       load := l.advance } }
  if l.row = 127 then w.setEng (engOf c .ae) ((w.engRaw (engOf c .ae)).finishCode 0x10) else w

section
variable {s : State} {c : CoreRef} {rs : List CycleRun} {o : HwObs} {l : LoadSt}

theorem State.coreAt_rowWritten (v : State) (c : CoreRef) (l : LoadSt) : (v.rowWritten c l).coreAt c =
    { v.coreAt c with
      ae := { (v.coreAt c).ae.writeRow l.plane l.row (tensorRow v c l.fmt l.line.toNat 128 128 l.row) with
                load := l.advance } } := by
  rw [State.rowWritten]
  split
  · rw [State.coreAt_setEng, State.coreAt_modCore]
  · rw [State.coreAt_modCore]

/-- The write of a row touches its core and the engines alone. -/
theorem State.rowWritten_eq (v : State) (c : CoreRef) (l : LoadSt) : v.rowWritten c l =
    { v.modCore c (fun _ => (v.rowWritten c l).coreAt c) with eng := (v.rowWritten c l).eng } := by
  rw [State.coreAt_rowWritten, State.rowWritten]
  split <;> rfl

theorem State.issued_rowWritten (v : State) (c : CoreRef) (l : LoadSt) :
    ((v.rowWritten c l).engRaw (engOf c .ae)).issued = if l.row = 127 then
      (v.engRaw (engOf c .ae)).issued.map fun op => if op.code = 0x10#8 then { op with done := true } else op
    else (v.engRaw (engOf c .ae)).issued := by
  rw [State.rowWritten]
  split
  · exact congrArg EngSt.issued (State.engRaw_setEng ..)
  · rfl

theorem exec_loadRowWrite_none (hd : c.die.val < s.dies) (hl : ((s.clock c rs).coreAt c).ae.load = none) :
    exec (.loadRowWrite c rs o) s = .next (s.clock c rs) := by
  dsimp only [exec, execLoadRowWrite]
  rw [guardUnit_eq (decide_eq_true hd), hl]

theorem exec_loadRowWrite_waits (hd : c.die.val < s.dies) (hl : ((s.clock c rs).coreAt c).ae.load = some l)
    (hw : ((s.clock c rs).coreAt c).ae.wrote ≠ none ∨ ((s.clock c rs).coreAt c).ae.beat < l.need) :
    exec (.loadRowWrite c rs o) s = .next (s.clock c rs) := by
  dsimp only [exec, execLoadRowWrite]
  rw [guardUnit_eq (decide_eq_true hd), hl]
  refine if_pos ?_
  rwa [Bool.or_eq_true, Option.isSome_iff_ne_none, decide_eq_true_eq]

theorem exec_loadRowWrite_writes (hd : c.die.val < s.dies) (hl : ((s.clock c rs).coreAt c).ae.load = some l)
    (hw : ((s.clock c rs).coreAt c).ae.wrote = none) (hb : l.need ≤ ((s.clock c rs).coreAt c).ae.beat) :
    let v := (s.clock c rs).strikes o
    let e := engOf c .ae
    exec (.loadRowWrite c rs o) s = .next (runReady ((v.rowWritten c l).observe e
      (((v.engRaw e).issued.find? fun op => op.code == 0x10#8).elim 0 (·.step))
      (v.parBad (v.spmKeys c (rowRanges l.fmt l.line.toNat l.row))) false) c) := by
  dsimp only [exec, execLoadRowWrite]
  rw [guardUnit_eq (decide_eq_true hd), hl]
  refine (if_neg ?_).trans ?_
  · rw [hw, decide_eq_false (Nat.not_lt.mpr hb)]
    exact Bool.false_ne_true
  · simp only [decide_eq_true_eq]
    rfl

end

/-! ## The array after a pass starts (R155, R161, R162) -/

section
variable (a : AeSt) (p : PassSt)

theorem AeSt.passes_startPass : (a.startPass p).passes =
    a.passes.map fun q => if q.started then q else { q with started := true, b0 := a.beat } := by
  cases h : p.f.swap <;> simp [AeSt.startPass, h]

theorem AeSt.started_startPass : ∀ q ∈ (a.startPass p).passes, q.started = true := by
  rw [AeSt.passes_startPass]
  intro q hq
  obtain ⟨r, -, rfl⟩ := List.mem_map.mp hq
  cases hr : r.started with
  | true => rwa [if_pos rfl]
  | false => rfl

theorem AeSt.active_startPass : (a.startPass p).active = if p.f.swap then p.plane else a.active := by
  cases h : p.f.swap <;> simp [AeSt.startPass, h]

theorem AeSt.token_startPass : (a.startPass p).token = if p.f.swap then some a.beat else a.token := by
  cases h : p.f.swap <;> simp [AeSt.startPass, h]

variable {p} in
theorem AeSt.rows_startPass (h : p.f.swap = true) : (a.startPass p).rows (!p.plane) = 0 := by
  rw [AeSt.startPass, if_pos h]
  exact AeSt.rows_setRows_self _ (!p.plane) 0

theorem AeSt.plane_startPass (b : Bool) : (a.startPass p).plane b = a.plane b := by
  rw [AeSt.startPass]
  split
  · exact AeSt.plane_setRows _ (!p.plane) 0 b
  · rfl

/-- The beats at which a pass that starts stops injecting and drains its last sum (R156). -/
theorem AeSt.injEnd_startPass : (a.startPass p).injEnd = a.beat
    + (passM p.f + rowsPerBeat p.f.exactM (a.passCls p) - 1) / rowsPerBeat p.f.exactM (a.passCls p) := by
  cases h : p.f.swap <;> simp [AeSt.startPass, h]

end

/-! ## PASS_START (R155, R161, R165-R167, R185) -/

/-- The package with a pass of a core started: the core adopts its die's ACLK target (R773). -/
def State.passStarted (u : State) (c : CoreRef) (p : PassSt) : State :=
  u.modCore c fun k => { k with ae := k.ae.startPass p, pos := u.target c.die.val }

section
variable {s : State} {c : CoreRef} {rs : List CycleRun} {p : PassSt}

theorem State.coreAt_passStarted (u : State) (c : CoreRef) (p : PassSt) : (u.passStarted c p).coreAt c =
    { u.coreAt c with ae := (u.coreAt c).ae.startPass p, pos := u.target c.die.val } :=
  State.coreAt_modCore ..

theorem exec_passStart_none (hd : c.die.val < s.dies) (hw : ((s.clock c rs).coreAt c).ae.waiting = none) :
    exec (.passStart c rs) s = .next (s.clock c rs) := by
  dsimp only [exec, execPassStart]
  rw [guardUnit_eq (decide_eq_true hd), hw]

theorem exec_passStart_waits (hd : c.die.val < s.dies) (hw : ((s.clock c rs).coreAt c).ae.waiting = some p)
    (h : passReady ((s.clock c rs).coreAt c) p = false ∨ ((s.clock c rs).coreAt c).ae.tokenStop = true
      ∨ ((s.clock c rs).coreAt c).ae.rise < 4) : exec (.passStart c rs) s = .next (s.clock c rs) := by
  dsimp only [exec, execPassStart]
  rw [guardUnit_eq (decide_eq_true hd), hw]
  refine if_pos ?_
  rwa [Bool.or_eq_true, Bool.or_eq_true, Bool.not_eq_true', decide_eq_true_eq, or_assoc]

theorem exec_passStart_starts (hd : c.die.val < s.dies) (hw : ((s.clock c rs).coreAt c).ae.waiting = some p)
    (hr : passReady ((s.clock c rs).coreAt c) p = true) (ht : ((s.clock c rs).coreAt c).ae.tokenStop = false)
    (h4 : 4 ≤ ((s.clock c rs).coreAt c).ae.rise) :
    exec (.passStart c rs) s = .next (runReady ((s.clock c rs).passStarted c p) c) := by
  dsimp only [exec, execPassStart]
  rw [guardUnit_eq (decide_eq_true hd), hw]
  refine if_neg ?_
  rw [hr, ht, decide_eq_false (Nat.not_lt.mpr h4)]
  exact Bool.false_ne_true

end

/-- Settles O11, by what the write of a row and the start of a pass make of the array. -/
theorem loadRowsAndPassStart : Obligations.LoadRowsAndPassStart := by
  rintro s c rs u hd rfl
  refine ⟨fun o => exec_loadRowWrite_none hd, fun o l hl => ⟨exec_loadRowWrite_waits hd hl, fun hw hb => ?_⟩,
    exec_passStart_none hd, fun p hp => ⟨exec_passStart_waits hd hp, fun hr ht h4 => ?_⟩⟩
  · have hx := tensorRow_length ((s.clock c rs).strikes o) c l.fmt l.line.toNat 128 128 l.row
    refine ⟨_, _, exec_loadRowWrite_writes hd hl hw hb, State.rowWritten_eq .., ?_⟩
    rw [State.coreAt_rowWritten]
    exact ⟨rfl, AeSt.rows_writeRow .., rfl, State.issued_rowWritten ..,
      fun _ => AeSt.entry_writeRow hx, fun _ _ => AeSt.entry_writeRow_other hx, AeSt.plane_writeRow_not ..,
      fun _ => rfl⟩
  · refine ⟨_, exec_passStart_starts hd hp hr ht h4, ?_⟩
    rw [State.coreAt_passStarted]
    exact ⟨rfl, AeSt.started_startPass _ p, by rw [AeSt.passes_startPass, List.length_map], AeSt.active_startPass ..,
      AeSt.token_startPass .., AeSt.rows_startPass _, rfl, AeSt.injEnd_startPass .., rfl, rfl,
      fun b => ⟨rfl, AeSt.plane_startPass ..⟩⟩

end Sys2Proof.Machine
end

section
/-! AE_PRELOAD (O10). -/

namespace Sys2Proof.Machine

/-! ## Entries changed one after the other -/

section
variable {α β : Type} [DecidableEq α] {d : α} {k : Nat}

/-- Changes of other entries leave an entry as it was. -/
theorem tget_foldl_tmod_of_notMem (f : β → α → α) {l : List (Nat × β)} (t : Tbl α) (h : ∀ x, (k, x) ∉ l) :
    tget d (l.foldl (fun t e => tmod d t e.1 (f e.2)) t) k = tget d t k := by
  induction l generalizing t with
  | nil => rfl
  | cons e l ih =>
    have hk : k ≠ e.1 := fun hk => h e.2 (hk ▸ List.mem_cons_self ..)
    exact (ih _ fun x hx => h x (List.mem_cons_of_mem _ hx)).trans (tget_tmod_other _ _ _ hk)

/-- Changes of which those of one entry all write the same `x` to it write it once. -/
theorem tget_foldl_tmod_of_mem {f : β → α → α} (hf : ∀ x y a, f x (f y a) = f x a) {l : List (Nat × β)} {x : β}
    (t : Tbl α) (hx : (k, x) ∈ l) (h : ∀ y, (k, y) ∈ l → y = x) :
    tget d (l.foldl (fun t e => tmod d t e.1 (f e.2)) t) k = f x (tget d t k) := by
  induction l generalizing t with
  | nil => cases hx
  | cons e l ih =>
    rw [List.foldl_cons]
    have later : ∀ y, (k, y) ∈ l → y = x := fun y hy => h y (List.mem_cons_of_mem _ hy)
    by_cases hl : (k, x) ∈ l
    · rw [ih _ hl later, tget_tmod]
      split
      · next hk => rw [hf, hk]
      · rfl
    · obtain rfl : (k, x) = e := (List.mem_cons.mp hx).resolve_right hl
      rw [tget_foldl_tmod_of_notMem f _ fun y hy => hl (later y hy ▸ hy), tget_tmod_self]

end

/-- A bank that is replaced is the one that is read back. -/
@[simp] theorem CoreSt.bank_setBank_self (k : CoreSt) (b : Bool) (t : Tbl BankEnt) : (k.setBank b t).bank b = t := by
  cases b <;> rfl

theorem State.coreAt_bankWrote (s : State) (c d : CoreRef) (b : Bool) (places : List Nat) :
    (s.bankWrote c b places).coreAt d = s.coreAt d := rfl

/-- The parity that a producer generates touches no core. -/
theorem OtherCores.bankWrote {s t : State} {c : CoreRef} (h : OtherCores s t c) (d : CoreRef) (b : Bool)
    (places : List Nat) : OtherCores s (t.bankWrote d b places) c := h

/-! ## What a preload writes (R212, R287) -/

section
variable (v : State) (c : CoreRef) (p : PreF)

/-- The place in its bank of element `j` of row `i` of a preload's region. -/
def prePlace (i j : Nat) : Nat := (p.row0.toNat + i) * 128 + (b2n p.col0 * 64 + j)

/-- The rows of a preload's region with the values and flags that the source gives for each. -/
def preRows : List (Nat × List (Nat × BitVec 4)) := (List.range p.nrows.toNat).map fun i => (i, preRow v c p i)

/-- The places that a preload writes, each with its code. -/
def preCells : List (Nat × Nat) :=
  (preRows v c p).flatMap fun x => x.2.zipIdx.map fun e => (prePlace p x.1 e.2, e.1.1)

/-- The numerics flags of a preload. -/
def preFlags : BitVec 4 := orFlags ((preRows v c p).flatMap fun x => x.2.map (·.2))

/-- An entry that held `x` after a preload has written a code to it. That zeros leave its kind is the model's choice
(R212 gives ZERO no kind; assumption log 9 takes the kind from the op that wrote the entry). -/
def preEntry (code : Nat) (x : BankEnt) : BankEnt :=
  { code := BitVec.ofNat 32 code, int := if p.src = 0 then x.int else fmtOf p.pfmt == 12 }

/-- The bank `t` after a preload. -/
def preBank (t : Tbl BankEnt) : Tbl BankEnt :=
  (preCells v c p).foldl (fun t e => tmod .zero t e.1 (preEntry p e.2)) t

/-- The package `v` after a preload of a core. -/
def State.preloaded : State :=
  (v.modCore c fun k => k.setBank p.bank (preBank v c p (k.bank p.bank))).bankWrote c p.bank ((preCells v c p).map (·.1))

/-- The code that a preload writes replaces every code that was there. -/
theorem preEntry_preEntry (x y : Nat) (a : BankEnt) : preEntry p x (preEntry p y a) = preEntry p x a := by
  simp only [preEntry]
  split <;> rfl

theorem preRow_length (i : Nat) : (preRow v c p i).length = regionW p.wide := by
  simp only [preRow]
  split
  · simp
  · simp
  · split <;> simp

variable {p} in
theorem preRow_zeros (h : p.src = 0) (i : Nat) : preRow v c p i = List.replicate (regionW p.wide) (0, 0#4) := by
  have hmap : preRow v c p i = (List.range (regionW p.wide)).map (Function.const Nat (0, 0#4)) := by
    rw [preRow, h]
    rfl
  rw [hmap, List.map_const, List.length_range]

variable {p} in
theorem code_preRow_zeros (h : p.src = 0) (i j : Nat) : ((preRow v c p i).getD j (0, 0#4)).1 = 0 := by
  rw [preRow_zeros v c h, List.getD_eq_getElem?_getD, List.getElem?_replicate]
  split <;> rfl

variable {v c p} in
theorem mem_preCells {e : Nat × Nat} : e ∈ preCells v c p ↔ ∃ i j, i < p.nrows.toNat ∧ j < regionW p.wide ∧
    e = (prePlace p i j, ((preRow v c p i).getD j (0, 0#4)).1) := by
  simp only [preCells, preRows, List.flatMap_map, List.mem_flatMap, List.mem_map, List.mem_range]
  constructor
  · rintro ⟨i, hi, ⟨x, j⟩, hx, rfl⟩
    have hget : (preRow v c p i)[j]? = some x := List.mk_mem_zipIdx_iff_getElem?.mp hx
    obtain ⟨hj, -⟩ := List.getElem?_eq_some_iff.mp hget
    exact ⟨i, j, hi, preRow_length v c p i ▸ hj, by rw [List.getD_eq_getElem?_getD, hget, Option.getD_some]⟩
  · rintro ⟨i, j, hi, hj, rfl⟩
    rw [← preRow_length v c p i] at hj
    have hget := List.getElem?_eq_getElem hj
    exact ⟨i, hi, ((preRow v c p i)[j], j), List.mk_mem_zipIdx_iff_getElem?.mpr hget,
      by rw [List.getD_eq_getElem?_getD, hget, Option.getD_some]⟩

end

/-! ## The region of a preload -/

section
variable {v : State} {c : CoreRef} {p : PreF} {i j : Nat}

/-- The columns of a region that exists end within its row (R287). -/
theorem region_columns {row0 : BitVec 8} {nrows : BitVec 9} {col0 wide : Bool}
    (h : regionOk row0 nrows col0 wide = true) : b2n col0 * 64 + regionW wide ≤ 128 := by
  revert h
  cases col0 <;> cases wide <;> simp [regionOk, b2n, regionW]

/-- Each place of a region whose columns end within a row is that of one element only. -/
theorem prePlace_inj (hc : b2n p.col0 * 64 + regionW p.wide ≤ 128) {i' j' : Nat} (hj : j < regionW p.wide)
    (hj' : j' < regionW p.wide) (h : prePlace p i j = prePlace p i' j') : i = i' ∧ j = j' := by
  unfold prePlace at h
  omega

theorem preBank_inside (hc : b2n p.col0 * 64 + regionW p.wide ≤ 128) (t : Tbl BankEnt) (hi : i < p.nrows.toNat)
    (hj : j < regionW p.wide) : tget .zero (preBank v c p t) (prePlace p i j) =
      preEntry p ((preRow v c p i).getD j (0, 0#4)).1 (tget .zero t (prePlace p i j)) := by
  refine tget_foldl_tmod_of_mem (preEntry_preEntry p) t (mem_preCells.mpr ⟨i, j, hi, hj, rfl⟩) fun y hy => ?_
  obtain ⟨i', j', -, hj', h⟩ := mem_preCells.mp hy
  obtain ⟨hplace, rfl⟩ := Prod.mk.inj h
  obtain ⟨rfl, rfl⟩ := prePlace_inj hc hj hj' hplace
  rfl

theorem preBank_outside (t : Tbl BankEnt) {k : Nat}
    (hk : ∀ i j, i < p.nrows.toNat → j < regionW p.wide → k ≠ prePlace p i j) :
    tget .zero (preBank v c p t) k = tget .zero t k := by
  refine tget_foldl_tmod_of_notMem (preEntry p) t fun x hx => ?_
  obtain ⟨i, j, hi, hj, h⟩ := mem_preCells.mp hx
  exact hk i j hi hj (Prod.mk.inj h).1

end

/-! ## The package after a preload (R212, R213, R215) -/

section
variable {s : State} {c : CoreRef} {h : OpHdr} {p : PreF} {o : HwObs} {n : BitVec 64}

/-- The region of a preload that an engine comes to next exists: its word has been checked (R14, R287). -/
theorem MayIssue.preload_region {e : EngRef} (m : MayIssue s e (.aePreload c h p o) h n) :
    regionOk p.row0 p.nrows p.col0 p.wide = true := by
  have hw : (hdrOk h && preOk p) = true := (State.nextOp_checked m.next).1
  simp only [preOk, Bool.and_eq_true] at hw
  exact hw.2.1.1

theorem State.coreAt_preloaded (v : State) (c : CoreRef) (p : PreF) : (v.preloaded c p).coreAt c =
    (v.coreAt c).setBank p.bank (preBank v c p ((v.coreAt c).bank p.bank)) := by
  rw [State.preloaded, State.coreAt_bankWrote, State.coreAt_modCore]

theorem State.bank_preloaded (v : State) (c : CoreRef) (p : PreF) :
    ((v.preloaded c p).coreAt c).bank p.bank = preBank v c p ((v.coreAt c).bank p.bank) := by
  rw [State.coreAt_preloaded, CoreSt.bank_setBank_self]

/-- A preload touches the cores and the parity of what it writes alone (R721). -/
theorem State.preloaded_eq (v : State) (c : CoreRef) (p : PreF) : v.preloaded c p =
    { v with core := (v.preloaded c p).core, mem := { v.mem with par := (v.preloaded c p).mem.par } } := rfl

theorem State.otherCores_preloaded (v : State) (c : CoreRef) (p : PreF) : OtherCores v (v.preloaded c p) c :=
  (v.otherCores_modCore c _).bankWrote c p.bank _

/-- AE_PRELOAD issues on a bank of the AE that no hand-over and no pass holds (R213, R215). -/
theorem exec_aePreload (m : MayIssue s (engOf c .ae) (.aePreload c h p noObs) h n)
    (hown : (s.coreAt c).veOwns p.bank = false) (hhand : (s.coreAt c).hand p.bank = none)
    (hpass : ∀ q ∈ (s.coreAt c).ae.passes, q.f.bank ≠ p.bank) :
    exec (.aePreload c h p o) s = .next (((s.strikes o).preloaded c p).issuedSeen (s.strikes o) (engOf c .ae)
      (.aePreload c h p noObs) n o (s.engAt (engOf c .ae))
      { issuedOp 0x12 h n with flags := [(h.fslot.toNat, preFlags (s.strikes o) c p)] }) := by
  have hnone : ((s.coreAt c).ae.passes.any fun q => q.f.bank == p.bank) = false :=
    List.any_eq_false.mpr fun q hq => by simpa using hpass q hq
  refine (guardUnit_eq (decide_eq_true m.present)).trans ((issue_eq m ?_).trans rfl)
  dsimp only
  rw [hown, hhand, hnone]
  rfl

end

/-- Settles O10, by the places of the region, which are distinct because the columns of a checked op end within a
row, and the codes that the preload folds into them. -/
theorem preloadWritesOnlyItsRegion : Obligations.PreloadWritesOnlyItsRegion := by
  rintro s c h p o n v rfl m hown hhand hpass
  have inside := fun i j => preBank_inside (v := s.strikes o) (c := c) (i := i) (j := j)
    (region_columns m.preload_region) (((s.strikes o).coreAt c).bank p.bank)
  refine ⟨_, _, exec_aePreload m hown hhand hpass, State.preloaded_eq _ c p, State.otherCores_preloaded _ c p, ?_⟩
  rw [State.bank_preloaded]
  refine ⟨State.coreAt_preloaded .., inside, fun _ => preBank_outside _, fun hz i j hi hj => ?_⟩
  refine (congrArg BankEnt.code (inside i j hi hj)).trans ?_
  rw [preEntry, code_preRow_zeros _ _ hz]

end Sys2Proof.Machine
end

section
/-! Ops that issue and touch only their engine, and the wait of a header (O8). -/

namespace Sys2Proof.Machine

/-- No key range holds a byte whose parity fails. -/
theorem State.parBad_nil (s : State) : s.parBad [] = [] := by simp [State.parBad]

/-- The detectors have nothing to report of an op that reads no stored byte and is not struck. -/
theorem State.issuedSeen_reads_nothing {i : Instr} (hi : ∀ (s : State) c, s.opKeys c i = []) (u v : State)
    (e : EngRef) (n : BitVec 64) (r : EngSt) (op : IssuedOp) :
    u.issuedSeen v e i n noObs r op = u.issued e i r op := by
  have hbad : v.opBad e i = [] := by simp [State.opBad, hi, State.parBad_nil]
  rw [State.issuedSeen, hbad]
  rfl

section
variable {s : State} {e : EngRef} {i : Instr} {h : OpHdr} {n : BitVec 64}

/-- An op that reads no stored byte and may issue has its effect and joins the issued ops. -/
theorem guardUnit_issue_reads_nothing {ready : EngSt → BitVec 64 → Bool}
    {act : State → EngSt → BitVec 64 → State × EngSt × IssuedOp} (m : MayIssue s e i h n)
    (hi : ∀ (s : State) c, s.opKeys c i = []) (hr : ready (s.engAt e) n = true) :
    guardUnit (decide (e.die.val < s.dies)) (issue s e i h noObs ready act) =
      .next ((act s (s.engAt e) n).1.issued e i (act s (s.engAt e) n).2.1 (act s (s.engAt e) n).2.2) := by
  rw [guardUnit_eq (decide_eq_true m.present), issue_eq m hr, State.issuedSeen_reads_nothing hi]
  rfl

/-- An op that comes next and whose header is not met makes an engine without a wait wait for the header's crossing
(R276, R421). -/
theorem issue_waitsForHeader {o : HwObs} {ready : EngSt → BitVec 64 → Bool}
    {act : State → EngSt → BitVec 64 → State × EngSt × IssuedOp} (hn : s.isNext e i = true)
    (hs : (s.engAt e).step = some n) (hh : hdrMet s e (s.engAt e) h = false) (hw : (s.engAt e).wait = none)
    (hr : ready (s.engAt e) n = true) :
    issue s e i h o ready act = .next (s.setEng e { s.engAt e with wait := some (hdrWait e n h) }) := by
  simp [issue, issueWith, hn, hs, hr, waitOf, hh, EngSt.waitFor, hw]

end

/-- Settles O8, by the issue of ops that read nothing and by the wait that an unmet header starts. -/
theorem opsIssueOrWait : Obligations.OpsIssueOrWait := by
  refine ⟨fun s h n => ⟨fun e m => guardUnit_issue_reads_nothing m (fun _ _ => rfl) rfl,
      fun e m => guardUnit_issue_reads_nothing m (fun _ _ => rfl) rfl,
      fun c v m => guardUnit_issue_reads_nothing m (fun _ _ => rfl) rfl,
      fun c m => guardUnit_issue_reads_nothing m (fun _ _ => rfl) rfl,
      fun die m => guardUnit_issue_reads_nothing m (fun _ _ => rfl) rfl⟩,
    fun s e h n hd hn hs hh hw => ⟨hdrWait e n h, ?_, rfl, rfl, rfl, rfl, rfl, rfl, rfl⟩⟩
  exact (guardUnit_eq (decide_eq_true hd)).trans (issue_waitsForHeader hn hs hh hw rfl)

end Sys2Proof.Machine
end

section
/-! VLD, VOP, VTR and VRED, which write one vector register (O14). -/

namespace Sys2Proof.Machine

/-- Values of the first `n` places and a default in the others, as a list by place. -/
theorem map_range_append_replicate {α : Type} {m n : Nat} (h : n ≤ m) (f : Nat → α) (d : α) :
    (List.range n).map f ++ List.replicate (m - n) d = (List.range m).map fun i => if i < n then f i else d := by
  refine List.ext_getElem (by simp [h]) fun i hi _ => ?_
  simp [List.getElem_append]

/-- A value in the first place and a default in the others, as a list by place. -/
theorem cons_replicate_eq_map_range {α : Type} (m : Nat) (x d : α) :
    x :: List.replicate m d = (List.range (m + 1)).map fun i => if i = 0 then x else d := by
  simpa using map_range_append_replicate (Nat.le_add_left 1 m) (fun _ => x) d

/-! ## Lanes of a vector register (R254) -/

/-- Values put into a table read back as values set in it do, whatever the default. -/
theorem tget_foldl_tput {α : Type} [DecidableEq α] {d : α} (key : Nat → Nat) (xs : List (α × Nat)) (k : Nat)
    {t u : Tbl α} (h : ∀ k, tget d t k = tget d u k) :
    tget d (xs.foldl (fun t p => tput t (key p.2) p.1) t) k =
      tget d (xs.foldl (fun t p => tset d t (key p.2) p.1) u) k := by
  induction xs generalizing t u with
  | nil => exact h k
  | cons x xs ih => exact ih fun j => by rw [tget_tput, tget_tset, h]

section
variable (s : State) (c : CoreRef) (vd : BitVec 6) (xs : List (BitVec 32))

/-- What a lane holds where it has not been written since the step entered RUNNING. -/
def State.undefLane (s : State) (k : Nat) : BitVec 32 :=
  match s.mem.vgen with
  | none => 0#32
  | some g => Config.undefLane g k

/-- A lane after a write of a register. -/
theorem State.lane_vregWrite (d : CoreRef) (v : BitVec 6) (i : Nat) : (s.vregWrite c vd xs).lane d v i =
    if s.laneKey c vd 0 ≤ s.laneKey d v i ∧ s.laneKey d v i < s.laneKey c vd 0 + xs.length then
      xs.getD (s.laneKey d v i - s.laneKey c vd 0) (s.undefLane (s.laneKey d v i)) else s.lane d v i := by
  unfold State.lane State.vregWrite State.undefLane
  cases hg : s.mem.vgen with
  | none => exact tget_foldl_tset_zipIdx _ _ 0 _ xs _
  | some g =>
    exact (tget_foldl_tput (s.laneKey c vd) _ _ fun _ => rfl).trans (tget_foldl_tset_zipIdx _ _ 0 _ xs _)

/-- A write of 128 lanes is a write of one vector register. -/
theorem State.writesRegister (lane : Nat → BitVec 32) :
    WritesRegister s (s.vregWrite c vd ((List.range 128).map lane)) c vd lane where
  value i hi := by
    rw [State.lane_vregWrite, if_pos (by simp [State.laneKey]; omega)]
    simp [State.laneKey, hi]
  others d v i hi h := by
    rw [State.lane_vregWrite, if_neg]
    rintro ⟨hlo, hhi⟩
    simp only [State.laneKey, List.length_map, List.length_range] at hlo hhi
    have hv := v.isLt
    have hvd := vd.isLt
    refine h.elim (fun hc => hc (by omega)) fun hr => hr (BitVec.eq_of_toNat_eq (by omega))
  frame := rfl

end

/-! ## The issue of the four ops (R288, R291, R294, R296) -/

section
variable {s : State} {c : CoreRef} {h : OpHdr} {o : HwObs} {n : BitVec 64}

/-- An op of the VE that writes one register from what it meets, by an effect `act` that leaves the engine's
registers. -/
theorem issueVe_writesRegister {j : Instr} {code : Nat} {vd : BitVec 6} {lane : Nat → BitVec 32} {xs : List (BitVec 32)}
    {fl : BitVec 4} {act : State → EngSt → BitVec 64 → State × EngSt × IssuedOp} (m : MayIssue s (engOf c .ve) j h n)
    (hact : ∀ r, act (s.strikes o) r n = ((s.strikes o).vregWrite c vd xs, r, veOp code h n fl))
    (hxs : xs = (List.range 128).map lane) :
    ∃ (u : State) (fl : BitVec 4), issueVe s c j h o (fun _ => true) act =
        .next (u.issuedSeen (s.strikes o) (engOf c .ve) j n o (s.engAt (engOf c .ve)) (veOp code h n fl))
      ∧ WritesRegister (s.strikes o) u c vd lane := by
  refine ⟨_, fl, (guardUnit_eq (decide_eq_true m.present)).trans ((issue_eq m rfl).trans ?_),
    hxs ▸ (s.strikes o).writesRegister c vd lane⟩
  rw [hact]

end

theorem vldLen_le (f : VldF) : vldLen f ≤ 128 := by
  unfold vldLen
  split <;> omega

/-- The elements of a load and the zeros past them, lane by lane (R288). -/
theorem vld_lanes (v : State) (c : CoreRef) (f : VldF) :
    ((((readElems f.fmt (v.spmRead c (64 * f.line.toNat) (elemBytes (fmtOf f.fmt) (vldLen f)))
        (if scaleOf f.fmt = 0 then [] else v.spmRead c f.sbyte.toNat (vldLen f / blkOf f.fmt)) (vldLen f)).map fun x =>
          ((BitVec.ofNat 32 (convElem 5#16 .rne x).1 : BitVec 32), (convElem 5#16 .rne x).2))
      ++ List.replicate (128 - vldLen f) (0#32, 0#4)).map (·.1)) =
    (List.range 128).map fun i =>
      if i < vldLen f then BitVec.ofNat 32 (convElem 5#16 .rne (vldElem v c f i)).1 else 0#32 := by
  rw [← map_range_append_replicate (vldLen_le f)]
  simp [readElems, vldElem]

/-- Settles O14, by the lanes that each op gives a register and by what the write of a register leaves. -/
theorem vectorOpsWriteOneRegister : Obligations.VectorOpsWriteOneRegister := by
  rintro s c h o n v rfl
  refine ⟨fun f m => issueVe_writesRegister m (fun _ => rfl) (vld_lanes ..),
    fun f m => issueVe_writesRegister m (fun _ => rfl) List.map_map,
    fun f m => issueVe_writesRegister m (fun _ => rfl) ?_,
    fun f m => issueVe_writesRegister m (fun _ => rfl) (cons_replicate_eq_map_range 127 _ _)⟩
  rw [State.vregRead, List.map_map, List.map_map]
  rfl

end Sys2Proof.Machine
end

section
/-! ME_DESC and the places of its engine's descriptors (O16). -/

namespace Sys2Proof.Machine

/-! ## Free slots (R302) -/

theorem tget_eq_of_notMem {α : Type} {d : α} {t : Tbl α} {k : Nat} (h : k ∉ t.map Prod.fst) : tget d t k = d := by
  induction t with
  | nil => rfl
  | cons e t ih =>
    rw [List.map_cons, List.mem_cons, not_or] at h
    exact (if_neg (Ne.symm h.1)).trans (ih h.2)

/-- With fewer than 32 descriptors outstanding a slot is free. -/
theorem CoreSt.exists_free_slot {k : CoreSt} (h : k.outstanding < 32) : ∃ i < 32, k.slot i = none := by
  refine Classical.byContradiction fun hall => Nat.not_lt.mpr ?_ h
  have hsub : List.range 32 ⊆ k.meDescs.map Prod.fst := fun i hi =>
    Classical.byContradiction fun hk => hall ⟨i, List.mem_range.mp hi, tget_eq_of_notMem hk⟩
  have hlen := List.nodup_range.length_le_of_subset hsub
  rwa [List.length_range, List.length_map] at hlen

theorem CoreSt.freeSlot_spec {k : CoreSt} (h : k.outstanding < 32) : k.freeSlot < 32 ∧ k.slot k.freeSlot = none := by
  unfold CoreSt.freeSlot
  cases hf : (List.range 32).find? fun i => (k.slot i).isNone with
  | none =>
    obtain ⟨i, hi, hs⟩ := CoreSt.exists_free_slot h
    exact absurd hs (by simpa using List.find?_eq_none.mp hf i (List.mem_range.mpr hi))
  | some i => exact ⟨List.mem_range.mp (List.mem_of_find?_eq_some hf), by simpa using List.find?_some hf⟩

/-- A core with a descriptor in a slot. -/
def CoreSt.setSlot (k : CoreSt) (i : Nat) (m : MeDescSt) : CoreSt :=
  { k with meDescs := tset none k.meDescs i (some m) }

section
variable (k : CoreSt) (i : Nat) (m : MeDescSt)

theorem CoreSt.slot_setSlot_self : (k.setSlot i m).slot i = some m := by
  simp [CoreSt.slot, CoreSt.setSlot]

theorem CoreSt.slot_setSlot_other {j : Nat} (h : j ≠ i) : (k.setSlot i m).slot j = k.slot j := by
  simp [CoreSt.slot, CoreSt.setSlot, tget_tset, h]

end

/-! ## The issue of ME_DESC (R301, R302, R366, R395) -/

/-- What lets an op issue lies outside the cores. -/
theorem MayIssue.modCore {s : State} {e : EngRef} {i : Instr} {h : OpHdr} {n : BitVec 64} (m : MayIssue s e i h n)
    (c : CoreRef) (f : CoreSt → CoreSt) : MayIssue (s.modCore c f) e i h n :=
  ⟨m.present, m.powered, m.step, m.live, m.running, m.free, m.next, m.header⟩

/-- A core with the stall bit of its ME, under which ME_CNT_STALL counts, as it is given. -/
def CoreSt.setMeStall (k : CoreSt) (b : Bool) : CoreSt := { k with meStallNow := b }

/-- The descriptor that an ME_DESC makes outstanding. -/
def meDescIssued (h : OpHdr) (didx : BitVec 24) (n srb : BitVec 64) (d : BitVec 512) : MeDescSt :=
  { didx := didx.toNat, desc := d, srb := srb, step := n, fslot := h.fslot }

section
variable {s : State} {c : CoreRef} {h : OpHdr} {didx : BitVec 24} {n : BitVec 64} {d : BitVec 512}

theorem exec_meDesc_full (m : MayIssue s (engOf c .me) (.meDesc c h didx) h n) (hf : 32 ≤ (s.coreAt c).outstanding) :
    exec (.meDesc c h didx) s = .next (s.modCore c (·.setMeStall true)) := by
  refine (guardUnit_eq (decide_eq_true m.present)).trans ?_
  simp only [m.isNext, if_true, m.header, decide_eq_true hf, Bool.and_true, Bool.not_true]
  exact issue_waits (m.modCore c _) rfl

/-- The package after an ME_DESC has put a descriptor into a slot. -/
def State.meDescPut (s : State) (c : CoreRef) (i : Nat) (x : MeDescSt) : State :=
  (s.modCore c (·.setMeStall false)).modCore c (·.setSlot i x)

theorem State.coreAt_meDescPut (s : State) (c : CoreRef) (i : Nat) (x : MeDescSt) : (s.meDescPut c i x).coreAt c =
    ((s.coreAt c).setMeStall false).setSlot i x := by
  rw [State.meDescPut, State.coreAt_modCore, State.coreAt_modCore]

theorem exec_meDesc_issues (m : MayIssue s (engOf c .me) (.meDesc c h didx) h n) (hd : s.descAt c didx.toNat = some d)
    (hf : (s.coreAt c).outstanding < 32) :
    let r := s.engAt (engOf c .me)
    let i := (s.coreAt c).freeSlot
    exec (.meDesc c h didx) s = .next ((s.meDescPut c i (meDescIssued h didx n r.srb d)).setEng (engOf c .me)
      (({ r with srb := r.srb + BitVec.ofNat 64 (descOf d).count } : EngSt).push 1
        { issuedOp 0x30 h n with done := false, slot := some i })) := by
  have hslot : ((s.modCore c (·.setMeStall false)).coreAt c).freeSlot = (s.coreAt c).freeSlot := by
    rw [State.coreAt_modCore]
    rfl
  have hdesc : (s.descAt c didx.toNat).getD 0 = d := by rw [hd, Option.getD_some]
  refine (guardUnit_eq (decide_eq_true m.present)).trans ?_
  simp only [m.isNext, if_true, m.header, decide_eq_false (Nat.not_le.mpr hf), Bool.and_true, Bool.not_false]
  refine (issue_eq (m.modCore c _) rfl).trans ?_
  rw [State.issuedSeen_reads_nothing fun _ _ => rfl, ← hslot, ← hdesc]
  rfl

/-- A place that becomes free runs the ME_DESC that its core's engine stalls at. -/
theorem exec_meDescriptorRelease (m : MayIssue s (engOf c .me) (.meDesc c h didx) h n) :
    exec (.boundedResourceRelease (.meDescriptor c)) s =
      if (s.coreAt c).meStallNow then exec (.meDesc c h didx) s else .next s := by
  refine (guardUnit_eq (decide_eq_true m.present)).trans ?_
  rw [m.next]
  simp only [true_and]
  rfl

end

/-- Settles O16, by the free slot that fewer than 32 descriptors leave and by the issue of ME_DESC with and without
one. -/
theorem meDescBecomesOutstanding : Obligations.MeDescBecomesOutstanding := by
  intro s c h didx n d m hd
  refine ⟨fun hf => ?_, exec_meDesc_full m, ?_⟩
  · obtain ⟨hi, hfree⟩ := CoreSt.freeSlot_spec hf
    refine ⟨_, _, hi, hfree, exec_meDesc_issues m hd hf, ?_⟩
    rw [State.coreAt_meDescPut]
    exact ⟨CoreSt.slot_setSlot_self .., fun j => CoreSt.slot_setSlot_other _ _ _, rfl,
      (s.otherCores_modCore c _).modCore rfl _, rfl⟩
  · exact exec_meDescriptorRelease m

end Sys2Proof.Machine
end

section
/-! Sync ops that wait, and what ends their waits (O19). -/

namespace Sys2Proof.Machine

/-- An op that comes next and has a wait of its own makes its engine wait, from the start where the engine does not
hold such a wait yet (R304, R421). -/
theorem issueWith_begins {s : State} {e : EngRef} {i : Instr} {h : OpHdr} {n : BitVec 64} {o : HwObs} {w : WaitSt}
    {ready : EngSt → BitVec 64 → Bool} {own : BitVec 64 → Option WaitSt}
    {act : State → EngSt → BitVec 64 → State × EngSt × IssuedOp} (m : MayIssue s e i h n)
    (hr : ready (s.engAt e) n = true) (hown : own n = some w)
    (hw : ∀ v, (s.engAt e).wait = some v → v.kind ≠ w.kind) :
    issueWith s e i h o ready own act = .next (s.setEng e { s.engAt e with wait := some w }) := by
  have none_of_kind (p : WaitSt → Bool) : ((s.engAt e).wait.any fun v => v.kind == w.kind && p v) = false :=
    (Option.any_eq_false ..).mpr fun v hv => by simp [hw v hv]
  have no_wait : ((s.engAt e).wait.any fun v => v.kind == w.kind) = false := by
    simpa using none_of_kind fun _ => true
  rw [issueWith_waits (w := w) m hr, EngSt.waitFor, no_wait]
  · rfl
  · simp [waitOf, m.header, hown, none_of_kind]

/-! ## The ops of a sync engine (R304, R402, R404, R421) -/

section
variable {s : State} {c : CoreRef} {h : OpHdr} {n : BitVec 64} {sc : BitVec 2} {ix : BitVec 8} {tg : BitVec 16}
  {t : BitVec 64}

theorem exec_xWait_met (m : MayIssue s (engOf c .sync) (.xWait c h sc ix tg) h n)
    (ht : tg.toNat ≤ (s.xVal sc.toNat c.die.val c.core.val ix.toNat n).toNat) :
    exec (.xWait c h sc ix tg) s =
      .next (s.setEng (engOf c .sync) ((s.engAt (engOf c .sync)).push 1 (issuedOp 0x41 h n))) := by
  refine (guardUnit_eq (decide_eq_true m.present)).trans ((issueWith_eq m rfl ?_).trans ?_)
  · rw [if_pos ht]
    exact waitOf_none m
  · rw [State.issuedSeen_reads_nothing fun _ _ => rfl]
    rfl

/-- An engine whose crossing is not met waits for it; the wait begins where the engine does not wait for one yet. -/
theorem exec_xWait_unmet (m : MayIssue s (engOf c .sync) (.xWait c h sc ix tg) h n)
    (ht : (s.xVal sc.toNat c.die.val c.core.val ix.toNat n).toNat < tg.toNat)
    (hw : ∀ w, (s.engAt (engOf c .sync)).wait = some w → w.kind ≠ .xwait) :
    exec (.xWait c h sc ix tg) s =
      .next (s.setEng (engOf c .sync) { s.engAt (engOf c .sync) with wait := some (xWait c n sc ix tg) }) :=
  (guardUnit_eq (decide_eq_true m.present)).trans (issueWith_begins m rfl (if_neg (Nat.not_le.mpr ht)) hw)

theorem exec_xAttime (m : MayIssue s (engOf c .sync) (.xAttime c h t) h n) :
    exec (.xAttime c h t) s = .next (s.setEng (engOf c .sync)
      (({ s.engAt (engOf c .sync) with wait := if s.reached t then none else some (timeWait c n t) } : EngSt).push 1
        { issuedOp 0x43 h n with done := s.reached t })) :=
  guardUnit_issue_reads_nothing m (fun _ _ => rfl) rfl

/-- The package with a crossing reset. -/
def State.clearCrossing (s : State) (k : Nat) : State :=
  { s with sync := { s.sync with xcnt := tset 0#16 s.sync.xcnt k 0#16 } }

theorem State.tget_clearCrossing_self (s : State) (k : Nat) : tget 0#16 (s.clearCrossing k).sync.xcnt k = 0#16 := by
  simp [State.clearCrossing]

theorem State.tget_clearCrossing_other (s : State) {j k : Nat} (hj : j ≠ k) :
    tget 0#16 (s.clearCrossing k).sync.xcnt j = tget 0#16 s.sync.xcnt j := by
  simp [State.clearCrossing, tget_tset, hj]

theorem exec_xReset (m : MayIssue s (engOf c .sync) (.xReset c h sc ix) h n) :
    exec (.xReset c h sc ix) s = .next
      ((s.clearCrossing (xKey sc.toNat c.die.val c.core.val ix.toNat (bankOf n))).setEng (engOf c .sync)
        ((s.engAt (engOf c .sync)).push 1 (issuedOp 0x42 h n))) :=
  guardUnit_issue_reads_nothing m (fun _ _ => rfl) rfl

end

/-! ## The end of a wait (R276, R304, R410) -/

section
variable {s : State} {e : EngRef} {w : WaitSt}

theorem exec_waiterWake_none (hw : (s.engRaw e).wait = none) : exec (.waiterWake e) s = .next s := by
  dsimp only [exec, execWaiterWake]
  rw [hw]

theorem exec_waiterWake_unmet (hw : (s.engRaw e).wait = some w) (h : w.kind = .attime ∨ s.waitMet w = false) :
    exec (.waiterWake e) s = .next s := by
  dsimp only [exec, execWaiterWake]
  rw [hw]
  exact if_pos (h.imp_right fun h => by rw [h]; rfl)

theorem exec_waiterWake_met (hw : (s.engRaw e).wait = some w) (hk : w.kind ≠ .attime) (hm : s.waitMet w = true) :
    exec (.waiterWake e) s = .next (s.setEng e { s.engRaw e with wait := some { w with ok := true } }) := by
  dsimp only [exec, execWaiterWake]
  rw [hw]
  exact if_neg fun h => h.elim hk fun h => by rw [hm] at h; cases h

/-- STB_TIME_REACHED ends a wait for a time that has come, and else changes nothing. -/
theorem exec_stbTimeReached {c : CoreRef} (hw : (s.engRaw (engOf c .sync)).wait = some w) (hk : w.kind = .attime) :
    exec (.stbTimeReached c) s = if s.reached w.stb = true then
      .next (s.setEng (engOf c .sync) (s.engRaw (engOf c .sync)).timeDone) else .next s := by
  dsimp only [exec, execStbTimeReached]
  rw [hw]
  simp only [hk, true_and]

end

/-- Settles O19, by what each sync op makes of its engine and what each event makes of a wait. -/
theorem crossingWaitsAndWakes : Obligations.CrossingWaitsAndWakes := by
  refine ⟨fun s c h n => ⟨fun sc ix tg m => ⟨exec_xWait_met m, exec_xWait_unmet m⟩,
      fun t m => ⟨fun ht => ?_, fun ht => ?_⟩,
      fun sc ix m => ⟨_, exec_xReset m, s.tget_clearCrossing_self _, fun _ => s.tget_clearCrossing_other, rfl⟩⟩,
    fun s e w hw => ⟨exec_waiterWake_unmet hw, exec_waiterWake_met hw, ?_⟩, fun s e => exec_waiterWake_none⟩
  · rw [exec_xAttime m, State.reached, decide_eq_true ht]
    rfl
  · rw [exec_xAttime m, State.reached, decide_eq_false (Nat.not_le.mpr ht)]
    rfl
  · rintro c rfl
    exact ⟨fun hk ht => by rw [exec_stbTimeReached hw hk, if_pos ht],
      fun hk ht => by rw [exec_stbTimeReached hw hk, if_neg (ne_true_of_eq_false ht)]⟩

end Sys2Proof.Machine
end

section
/-! Aged ports, the credits of Market allotments and the swap of a partition (O24). -/

namespace Sys2Proof.Machine

/-! ## Ports (R257, R258, R263) -/

section
variable (s : State) (site : PortSite) (p : Nat) (rs : List (Fin 6))

/-- The ports of priority 0 once port `p` of a place has waited its eight cycles. -/
def State.agedWith : List (Nat × Nat) :=
  if s.ports.aged.contains (siteKey site, p) then s.ports.aged else s.ports.aged ++ [(siteKey site, p)]

/-- The ports of a place that request. -/
def portAsks : List Nat := p :: (rs.map (·.val)).filter fun q => decide (q < sitePorts site)

/-- Whether a port of a place requests with priority 0. -/
def State.portMayWin (q : Nat) : Bool :=
  (portAsks site p rs).contains q && (s.agedWith site p).contains (siteKey site, q)

/-- The package with a port of a place granted, whose age is over. -/
def State.portGranted (q : Nat) : State :=
  { s with ports := { aged := (s.agedWith site p).filter (· != (siteKey site, q)), granted := some (siteKey site, q) } }

variable {s site p rs}

theorem State.mem_agedWith {e : Nat × Nat} : e ∈ s.agedWith site p ↔ e ∈ s.ports.aged ∨ e = (siteKey site, p) := by
  unfold State.agedWith
  split
  · next h =>
    have hp : (siteKey site, p) ∈ s.ports.aged := by simpa using h
    exact ⟨.inl, fun h => h.elim id fun h => h ▸ hp⟩
  · simp

theorem State.portMayWin_iff {q : Nat} : s.portMayWin site p rs q = true ↔
    (q = p ∨ (∃ x ∈ rs, x.val = q) ∧ q < sitePorts site) ∧ ((siteKey site, q) ∈ s.ports.aged ∨ q = p) := by
  simp [State.portMayWin, portAsks, State.mem_agedWith]

/-- The port that is granted is the lowest-numbered one that requests with priority 0 (R257). -/
theorem exec_portPriorityAging {p : Fin 6} (hd : siteDie site < s.dies) (hp : p.val < sitePorts site) :
    ∃ q, s.portMayWin site p.val rs q = true ∧ q ≤ p.val ∧ (∀ j < q, s.portMayWin site p.val rs j = false)
      ∧ exec (.portPriorityAging site p rs) s = .next (s.portGranted site p.val q) := by
  have hself : s.portMayWin site p.val rs p.val = true := State.portMayWin_iff.mpr ⟨.inl rfl, .inr rfl⟩
  cases hw : (List.range 6).find? (s.portMayWin site p.val rs) with
  | none => exact absurd hself (List.find?_eq_none.mp hw p.val (List.mem_range.mpr p.isLt))
  | some q =>
    obtain ⟨hq, -, hlower⟩ := List.find?_range_eq_some.mp hw
    have hlower : ∀ j < q, s.portMayWin site p.val rs j = false := fun j hj => by simpa using hlower j hj
    refine ⟨q, hq, Nat.le_of_not_lt fun h => ?_, hlower, ?_⟩
    · rw [hlower _ h] at hself
      exact Bool.false_ne_true hself
    · refine (guardUnit_eq (decide_eq_true hd)).trans ((if_neg (Nat.not_le.mpr hp)).trans ?_)
      dsimp only
      unfold State.portMayWin portAsks State.agedWith at hw
      rw [hw]
      rfl

end

/-! ## Credits granted for allotments (R390, R391, R477) -/

/-- `y` is the link `x` but for what it has granted and the control records that are due. -/
def MemberSt.SameButGrants (x y : MemberSt) : Prop := y = { x with granted := y.granted, ctrl := y.ctrl }

theorem MemberSt.SameButGrants.trans {x y z : MemberSt} (h : x.SameButGrants y) (h' : y.SameButGrants z) :
    x.SameButGrants z :=
  Eq.trans h' (by rw [h])

section
variable (x : MemberSt) (vc cls v : Nat)

theorem MemberSt.setGrant_same : x.SameButGrants (x.setGrant vc cls v) := rfl

theorem MemberSt.granted_setGrant : tget 0 (x.setGrant vc cls v).granted (credKey vc cls) = v % 2 ^ 32 :=
  tget_tset_self ..

/-- The CREDIT record of a grant is the last of those that are due. -/
theorem MemberSt.getLast_ctrl_setGrant : (x.setGrant vc cls v).ctrl.getLast? =
    some (BitVec.ofNat 128 (3 + 2 ^ 8 * vc + 2 ^ 16 * cls + 2 ^ 32 * (v % 2 ^ 32))) :=
  List.getLast?_concat

theorem MemberSt.withdrawGrants_same : x.SameButGrants x.withdrawGrants :=
  List.foldlRecOn _ _ (motive := x.SameButGrants) rfl fun y h _ _ => h.trans (y.setGrant_same ..)

end

/-- Between `s` and `t` links have granted credits, and nothing else has changed. -/
structure OnlyGrants (s t : State) : Prop where
  members : ∀ k, (s.memberAt k).SameButGrants (t.memberAt k)
  frame : t = { s with net := { s.net with member := t.net.member } }

theorem OnlyGrants.refl (s : State) : OnlyGrants s s := ⟨fun _ => rfl, rfl⟩

theorem OnlyGrants.modMember {s t : State} (h : OnlyGrants s t) (m : Nat) {f : MemberSt → MemberSt}
    (hf : ∀ x : MemberSt, x.SameButGrants (f x)) : OnlyGrants s (t.modMember m f) where
  members k := by
    rw [State.memberAt_modMember]
    split
    · next hk => exact hk ▸ (h.members m).trans (hf _)
    · exact h.members k
  frame := by rw [h.frame]; rfl

theorem OnlyGrants.grantAll {s t : State} (h : OnlyGrants s t) (m : Nat) (cls0 : Bool) :
    OnlyGrants s (t.grantAll m cls0) := by
  refine List.foldlRecOn _ _ (motive := OnlyGrants s) h fun u hu a _ => ?_
  dsimp only
  split
  · exact hu
  · exact hu.modMember m fun x => x.setGrant_same ..

theorem OnlyGrants.mktAt {s t : State} (h : OnlyGrants s t) (k : Nat) : t.mktAt k = s.mktAt k :=
  (congrArg (State.mktAt · k) h.frame).trans rfl

/-- Grants after a change of a Market touch the Markets and the links alone. -/
theorem OnlyGrants.frame_modMkt {s t : State} {io : Nat} {f : MktSt → MktSt} (h : OnlyGrants (s.modMkt io f) t) :
    t = { s with net := { s.net with mkt := t.net.mkt, member := t.net.member } } := by
  have hmkt : t.net.mkt = (s.modMkt io f).net.mkt := (congrArg (·.net.mkt) h.frame).trans rfl
  rw [hmkt]
  exact h.frame

/-- The release of a Market buffer makes the CREDIT record of its allotment due (R391). -/
theorem exec_marketBufferRelease {s : State} {io : Fin 2} {j : Fin 12} {vc : Fin 6} {cls : BitVec 4} {a : Alloc}
    (hio : io.val < s.ios) (ha : (s.mktAt io.val).allotFor j.val vc.val cls.toNat = some a) :
    exec (.boundedResourceRelease (.marketBuffer io j vc cls)) s =
      .next (s.grant (12 * io.val + j.val) vc.val a.cls 0) := by
  refine (guardUnit_eq (decide_eq_true hio)).trans ?_
  rw [State.tellCredit, ha]

/-! ## The swap of a Market partition (R393) -/

/-- The credits of every allotment of the links of an I/O die granted anew. -/
def State.regrant (s : State) (io : Nat) : State :=
  ((List.range 12).map (12 * io + ·)).foldl (fun (a : State) m =>
    (a.modMember m MemberSt.withdrawGrants).grantAll m false) s

theorem State.onlyGrants_regrant (s : State) (io : Nat) : OnlyGrants s (s.regrant io) :=
  List.foldlRecOn _ _ (motive := OnlyGrants s) (.refl s) fun _ h m _ =>
    (h.modMember m MemberSt.withdrawGrants_same).grantAll m false

section
variable {s : State} {io : Fin 2}

theorem exec_marketPartitionSwap_none (hio : io.val < s.ios) (h : (s.mktAt io.val).pendCfg = none) :
    exec (.marketPartitionSwap io) s = .next s := by
  refine (guardUnit_eq (decide_eq_true hio)).trans ?_
  rw [State.swapMarket, h]

theorem exec_marketPartitionSwap_busy (hio : io.val < s.ios) {b : Nat} (hb : b ∈ (s.mktAt io.val).busy)
    (h : 1344 ≤ b) : exec (.marketPartitionSwap io) s = .next s := by
  have hbusy : ((s.mktAt io.val).busy.any fun b => decide (1344 ≤ b)) = true :=
    List.any_eq_true.mpr ⟨b, hb, decide_eq_true h⟩
  refine (guardUnit_eq (decide_eq_true hio)).trans ?_
  rw [State.swapMarket]
  cases (s.mktAt io.val).pendCfg with
  | none => rfl
  | some es => exact congrArg _ (if_pos hbusy)

theorem exec_marketPartitionSwap_swaps (hio : io.val < s.ios) {es : List MktEnt}
    (h : (s.mktAt io.val).pendCfg = some es) (hb : ∀ b ∈ (s.mktAt io.val).busy, b < 1344) :
    exec (.marketPartitionSwap io) s = .next ((s.modMkt io.val fun k => k.activate io.val es).regrant io.val) := by
  have hfree : ((s.mktAt io.val).busy.any fun b => decide (1344 ≤ b)) = false :=
    List.any_eq_false.mpr fun b hm => by simpa using hb b hm
  refine (guardUnit_eq (decide_eq_true hio)).trans ?_
  rw [State.swapMarket, h]
  exact congrArg _ (if_neg (ne_true_of_eq_false hfree))

end

/-- Settles O24, by the port that is granted, by the grants that a release and a swap write, and by what grants leave
as it is. The count that a CREDIT record carries and a swap that keeps the partners' grants are the model's choice
(assumption log 31), as is the order in which commands take ports (assumption log 71). -/
theorem portsAndMarketBuffers : Obligations.PortsAndMarketBuffers := by
  refine ⟨fun s site p rs hd => ⟨fun hp => ?_, fun hp => ?_⟩, fun s io hio => ⟨fun j vc cls a => ?_,
    exec_marketPartitionSwap_none hio, fun b => exec_marketPartitionSwap_busy hio, fun es he hb => ?_⟩⟩
  · exact (guardUnit_eq (decide_eq_true hd)).trans (if_pos hp)
  · obtain ⟨q, hq, hle, hlower, hexec⟩ := exec_portPriorityAging (rs := rs) hd hp
    obtain ⟨hasks, haged⟩ := State.portMayWin_iff.mp hq
    refine ⟨_, hexec, q, rfl, hle, hasks.imp_right And.left, haged.symm, ?_, fun e he => ?_, fun x hx hlt ha => ?_, rfl⟩
    · simp [State.portGranted]
    · simp [State.portGranted, State.mem_agedWith, he]
    · have hwin : s.portMayWin site p.val rs x.val = true :=
        State.portMayWin_iff.mpr ⟨.inr ⟨⟨x, hx, rfl⟩, by omega⟩, .inl ha⟩
      rw [hlower x.val hlt] at hwin
      exact Bool.false_ne_true hwin
  · intro m ha g
    refine ⟨_, exec_marketBufferRelease hio ha, ?_⟩
    dsimp only [State.grant]
    rw [State.memberAt_modMember, if_pos rfl]
    refine ⟨MemberSt.getLast_ctrl_setGrant .., MemberSt.granted_setGrant .., MemberSt.setGrant_same ..,
      fun k hk => ?_, rfl⟩
    rw [State.memberAt_modMember, if_neg hk]
  · have h := State.onlyGrants_regrant (s.modMkt io.val fun k => k.activate io.val es) io.val
    refine ⟨_, exec_marketPartitionSwap_swaps hio he hb, ?_⟩
    have hnow := h.mktAt io.val
    rw [State.mktAt_modMkt, if_pos rfl] at hnow
    refine ⟨hnow, congrArg MktSt.pendCfg hnow, fun k hk => ?_, h.members, h.frame_modMkt⟩
    rw [h.mktAt, State.mktAt_modMkt, if_neg hk]

end Sys2Proof.Machine
end

section
/-! What accesses to HBM leave as it is: the layer of facts that REMAP_CORE (O43) needs of the requests that a leaving
core has in hand (R311). -/

namespace Sys2Proof.Machine

/-- `t` comes from `s` by accesses to HBM: nothing but the stores, the stacks' controllers and the fault wires
differs. -/
def HbmAccess (s t : State) : Prop := t = { s with mem := t.mem, stack := t.stack, flt := t.flt }

theorem HbmAccess.refl (s : State) : HbmAccess s s := rfl

theorem HbmAccess.setMem (s : State) (m : MemSt) : HbmAccess s { s with mem := m } := rfl

theorem HbmAccess.modStack (s : State) (k : Nat) (f : StackSt → StackSt) : HbmAccess s (s.modStack k f) := rfl

theorem HbmAccess.trans {s t u : State} (h : HbmAccess s t) (h' : HbmAccess t u) : HbmAccess s u :=
  Eq.trans h' (by rw [h])

/-- A list of accesses is an access. -/
theorem HbmAccess.foldl {α : Type} {s t : State} {op : State → α → State} (h : HbmAccess s t)
    (hop : ∀ t a, HbmAccess t (op t a)) (l : List α) : HbmAccess s (l.foldl op t) :=
  List.foldlRecOn l op (motive := HbmAccess s) h fun _ hu a _ => hu.trans (hop _ a)

section
variable (s : State) (k line a : Nat) (n : Option (BitVec 64)) (bs : Bytes)

/-! ## Lines (R333-R336, R344) -/

theorem State.hbmAccess_laneError (lane i : Nat) : HbmAccess s (s.laneError k lane i) := by
  unfold State.laneError
  dsimp only
  split <;> rfl

theorem State.hbmAccess_readLine (scrub : Bool) : HbmAccess s (s.readLine line n scrub).1 := by
  unfold State.readLine
  dsimp only
  split
  · rfl
  · refine HbmAccess.trans ?_ (State.hbmAccess_laneError ..)
    rfl
  · rfl

theorem State.hbmAccess_hbmLines (scrub : Bool) (ls : List Nat) : HbmAccess s (s.hbmLines n scrub ls).1 := by
  induction ls generalizing s with
  | nil => rfl
  | cons l ls ih => exact (s.hbmAccess_readLine l n scrub).trans (ih _)

theorem State.hbmAccess_hbmWriteLine (off : Nat) : HbmAccess s (s.hbmWriteLine n line off bs) := by
  have hread := s.hbmAccess_readLine line n false
  unfold State.hbmWriteLine
  dsimp only
  split
  · rfl
  · split
    · exact hread
    · exact hread.trans rfl

theorem State.hbmAccess_hbmWriteGo (fuel : Nat) : HbmAccess s (s.hbmWriteGo n fuel a bs) := by
  induction fuel generalizing s a bs with
  | zero => rfl
  | succ fuel ih =>
    rw [State.hbmWriteGo]
    split
    · rfl
    · exact (s.hbmAccess_hbmWriteLine ..).trans (ih ..)

/-! ## Requests (R316-R319, R350, R381, R395) -/

theorem State.hbmAccess_doReq (r : HbmReq) : HbmAccess s (s.doReq k r) := by
  unfold State.doReq
  dsimp only
  split
  · exact (HbmAccess.setMem ..).trans (State.hbmAccess_hbmWriteGo ..)
  · exact ((HbmAccess.setMem ..).trans (State.hbmAccess_hbmLines ..)).trans (.modStack ..)

theorem State.hbmAccess_perform (qs : List QueuedReq) : HbmAccess s (s.perform k qs) :=
  (HbmAccess.refl s).foldl (fun t (q : QueuedReq) => t.hbmAccess_doReq k q.req) qs

theorem State.hbmAccess_takeReq (q : QueuedReq) : HbmAccess s (s.takeReq k q) := by
  unfold State.takeReq
  dsimp only
  split
  · rfl
  · split
    · rfl
    · split
      · exact ((HbmAccess.modStack ..).trans (State.hbmAccess_perform ..)).trans (State.hbmAccess_doReq ..)
      · exact s.hbmAccess_doReq ..

theorem State.hbmAccess_refill : HbmAccess s (s.refill k) :=
  (HbmAccess.modStack ..).foldl (fun t q => t.hbmAccess_takeReq k q) _

theorem State.hbmAccess_drainReqs : HbmAccess s (s.drainReqs k) :=
  (HbmAccess.modStack ..).trans (State.hbmAccess_perform ..)

/-- The requests of an engine that its stacks take up are accesses to HBM (R318). -/
theorem State.hbmAccess_settleEngine (who : Issuer) : HbmAccess s (s.settleEngine who) := by
  refine (HbmAccess.refl s).foldl (fun t k => ?_) _
  split
  · exact (t.hbmAccess_drainReqs k).trans (State.hbmAccess_refill ..)
  · rfl

end

end Sys2Proof.Machine
end

section
/-! Package commands (O43): REMAP_CORE, LINK_CTRL, TIME_CTRL, SET_POWER_LIMIT, RUN_RADISH, CLEAR_ERRORS, FW_UPDATE. -/

namespace Sys2Proof.Machine

/-- An accepted command whose form is that of its row has its effect, and the ring is served. -/
theorem Accepted.runCmd_eq {i : Instr} {s : State} {r : Fin 8} {p : BitVec 512} {f : CmdForm}
    {body : State → BitVec 512 → State} (a : Accepted i s r p) (hi : citisForm i = some (r, f)) :
    runCmd r f body s = served r (body (s.takeEntry r.val p) p) := by
  obtain ⟨g, hg, hop, hrej, hwait⟩ := a.form
  obtain rfl : f = g := congrArg Prod.snd (Option.some.inj (hi.symm.trans hg))
  exact runCmd_accepted a.ready a.entry hop hrej hwait

/-! ## Tables of the map of cores (R305, R307) -/

/-- Every other place of a table reads as before a write, whatever default it is read with. -/
theorem tget_tset_ne {α : Type} [DecidableEq α] {d e : α} {t : Tbl α} {j k : Nat} {v : α} (h : j ≠ k) :
    tget d (tset e t k v) j = tget d t j := by
  unfold tset
  split
  · rw [tget_tdel, if_neg h]
  · rw [tget_tput, if_neg h]

section
variable (s : State) (d l p q v : Nat)

theorem State.physOf_setPhys_self : (s.setPhys d l p).physOf d l = p := tget_tset_self ..

variable {d l} in
theorem State.physOf_setPhys_other {d' l' : Nat} (h : d' * 96 + l' ≠ d * 96 + l) :
    (s.setPhys d l p).physOf d' l' = s.physOf d' l' := tget_tset_ne h

theorem State.physState_setPhys (d' q : Nat) : (s.setPhys d l p).physState d' q = s.physState d' q := rfl

theorem State.physOf_setPhysState (d' l' : Nat) : (s.setPhysState d p v).physOf d' l' = s.physOf d' l' := rfl

theorem State.physState_setPhysState_self : (s.setPhysState d p v).physState d p = v := tget_tset_self ..

variable {p q} in
theorem State.physState_setPhysState_other (h : q ≠ p) : (s.setPhysState d p v).physState d q = s.physState d q :=
  tget_tset_ne (by omega)

end

/-! ## A core that leaves its physical core (R311) -/

theorem HbmAccess.remap {s t : State} (h : HbmAccess s t) : t.remap = s.remap := by
  rw [HbmAccess] at h
  rw [h]

section
variable (s : State) (c : CoreRef)

/-- The package after the stacks have taken up the requests of a core's engines. -/
def State.coreSettled : State :=
  [EngKind.ae, .ve, .me, .sync].foldl (fun (t : State) k => t.settleEngine (.engine (engOf c k))) s

/-- The package after what a core's engines have issued is dropped. -/
def State.coreDropped : State :=
  ([EngKind.ae, .ve, .me, .sync].foldl (fun (t : State) k =>
    t.setEng (engOf c k) { t.engRaw (engOf c k) with issued := [], wait := none }) s).modCore c fun k =>
      { k with ae := { k.ae with passes := [], load := none, checks := [] }, meDescs := [], meStallNow := false }

theorem State.remap_coreSettled : (s.coreSettled c).remap = s.remap :=
  ((HbmAccess.refl s).foldl (fun t (k : EngKind) => t.hbmAccess_settleEngine (.engine (engOf c k))) _).remap

theorem State.remap_coreDropped : (s.coreDropped c).remap = s.remap := by
  simp [State.coreDropped]

theorem State.quitCore_eq (d l : Nat) : s.quitCore d l =
    (s.coreSettled { die := Fin.ofNat 4 d, core := Fin.ofNat 96 l }).coreDropped
      { die := Fin.ofNat 4 d, core := Fin.ofNat 96 l } := rfl

/-- The map of cores stays as it is. -/
theorem State.remap_quitCore (d l : Nat) : (s.quitCore d l).remap = s.remap := by
  rw [State.quitCore_eq, State.remap_coreDropped, State.remap_coreSettled]

end

/-! ## REMAP_CORE (R307, R309, R702) -/

/-- The package with a logical core mapped to the physical core `q`; the core `old` that executed it becomes a spare
where it was mapped. -/
def State.mapCore (s : State) (d l old q : Nat) : State :=
  ((if s.physState d old = 0 then s.setPhysState d old 1 else s).setPhysState d q 0).setPhys d l q

section
variable (s : State) (d l old q : Nat)

theorem State.mapCore_eq : s.mapCore d l old q = { s with remap := (s.mapCore d l old q).remap } := by
  unfold State.mapCore
  split <;> rfl

theorem State.physOf_mapCore_self : (s.mapCore d l old q).physOf d l = q := State.physOf_setPhys_self ..

theorem State.physState_mapCore_self : (s.mapCore d l old q).physState d q = 0 :=
  State.physState_setPhysState_self ..

variable {s d l old q}

theorem State.physOf_mapCore_other {d' l' : Nat} (h : d' * 96 + l' ≠ d * 96 + l) :
    (s.mapCore d l old q).physOf d' l' = s.physOf d' l' := by
  rw [State.mapCore, State.physOf_setPhys_other _ _ h, State.physOf_setPhysState]
  split
  · exact State.physOf_setPhysState ..
  · rfl

theorem State.physState_mapCore_old (hq : old ≠ q) (h : s.physState d old = 0) :
    (s.mapCore d l old q).physState d old = 1 := by
  rw [State.mapCore, State.physState_setPhys, State.physState_setPhysState_other _ _ _ hq, if_pos h,
    State.physState_setPhysState_self]

end

section
variable {s t : State} (h : t.remap = s.remap) (d l : Nat)
include h

/-! Packages with one map of cores agree on the cores. -/

theorem State.physOf_congr : t.physOf d l = s.physOf d l := by rw [State.physOf, State.physOf, h]

theorem State.physState_congr : t.physState d l = s.physState d l := by rw [State.physState, State.physState, h]

end

section
variable {s : State} {r : Fin 8} {p : BitVec 512}

theorem exec_remapCore (a : Accepted (.remapCore r) s r p)
    (hpin : ∀ c x, s.cur = some (c, x) → x.steps.any (fun k => k.st.pins) = false) {first q : Nat}
    (hspare : s.spareOf (pf p 28 1) = some first) (hq : q = if pf p 30 1 = 0x7F then first else pf p 30 1)
    (hfree : s.physState (pf p 28 1) q = 1) :
    exec (.remapCore r) s =
      replies r p (((s.takeEntry r.val p).quitCore (pf p 28 1) (pf p 29 1)).mapCore (pf p 28 1) (pf p 29 1)
        (s.physOf (pf p 28 1) (pf p 29 1)) q) 0 0 := by
  subst hq
  dsimp only [exec, execRemapCore]
  rw [a.runCmd_eq rfl, show (s.takeEntry r.val p).cur = s.cur from rfl,
    show (s.takeEntry r.val p).spareOf (pf p 28 1) = some first from hspare]
  cases hc : s.cur with
  | none => exact congrArg (served r) (if_neg fun h => h hfree)
  | some cx =>
    obtain ⟨c, x⟩ := cx
    dsimp only
    rw [hpin c x hc]
    exact congrArg (served r) (if_neg fun h => h hfree)

/-! ## LINK_CTRL (R488, R703) -/

theorem exec_linkCtrl_active (a : Accepted (.linkCtrl r) s r p) (hb : pf p 29 1 = 0)
    (hm : (s.memberAt (pf p 28 1)).st = .active) :
    exec (.linkCtrl r) s = replies r p (s.takeEntry r.val p) 0 0 := by
  dsimp only [exec, execLinkCtrl]
  rw [a.runCmd_eq rfl]
  exact congrArg (served r) ((if_pos hb).trans (if_pos hm))

/-- The package with a link in training for LINK_CTRL. -/
def State.beginTraining (s : State) (r : Fin 8) (m : Nat) : State :=
  let t := s.modMember m fun x => { x with st := .training }
  { t with net := { t.net with linkTrain := t.net.linkTrain ++ [(r, BitVec.ofNat 24 (2 ^ m))] } }

theorem State.memberAt_beginTraining (s : State) (r : Fin 8) (m k : Nat) : (s.beginTraining r m).memberAt k =
    if k = m then { s.memberAt m with st := .training } else s.memberAt k :=
  s.memberAt_modMember m k fun x => { x with st := .training }

theorem exec_linkCtrl_trains (a : Accepted (.linkCtrl r) s r p) (hb : pf p 29 1 = 0)
    (hm : (s.memberAt (pf p 28 1)).st ≠ .active) :
    exec (.linkCtrl r) s = served r ((s.takeEntry r.val p).beginTraining r (pf p 28 1)) := by
  dsimp only [exec, execLinkCtrl]
  rw [a.runCmd_eq rfl]
  exact congrArg (served r) ((if_pos hb).trans (if_neg hm))

theorem exec_linkCtrl_refuses (a : Accepted (.linkCtrl r) s r p) (hb : pf p 29 1 ≠ 0)
    (hl : s.lastOfGroup (pf p 28 1) = true) :
    exec (.linkCtrl r) s = replies r p (s.takeEntry r.val p) 7 s.residentCode := by
  dsimp only [exec, execLinkCtrl]
  rw [a.runCmd_eq rfl]
  exact congrArg (served r) ((if_neg hb).trans (if_pos hl))

theorem exec_linkCtrl_withdraws (a : Accepted (.linkCtrl r) s r p) (hb : pf p 29 1 ≠ 0)
    (hl : s.lastOfGroup (pf p 28 1) = false) :
    exec (.linkCtrl r) s = replies r p (if (s.ctxIn [.stepping]).isSome then
      { s.takeEntry r.val p with net := { s.net with linkSched := s.net.linkSched ++ [(pf p 28 1, false)] } }
      else (s.takeEntry r.val p).linkChange (pf p 28 1, false)) 0 0 := by
  dsimp only [exec, execLinkCtrl]
  rw [a.runCmd_eq rfl]
  exact congrArg (served r) ((if_neg hb).trans (if_neg (ne_true_of_eq_false hl)))

/-! ## TIME_CTRL (R433, R434, R704) -/

/-- The servo that TIME_CTRL makes MASTER: where it was FREE, it takes the time that the command gives. -/
def StbSt.toMaster (b : StbSt) (time : Nat) : StbSt :=
  if b.st = .free then { b.fresh .master with time := time * 65536, sub := 0 } else b.fresh .master

section
variable (b : StbSt) (time : Nat)

theorem StbSt.st_toMaster : (b.toMaster time).st = .master := by
  unfold StbSt.toMaster
  split <;> rfl

theorem StbSt.time_toMaster : (b.toMaster time).time = if b.st = .free then time * 65536 else b.time := by
  unfold StbSt.toMaster
  split <;> rfl

end

/-- The servo that TIME_CTRL makes follow the grandmaster `v` for ring `r`. -/
def State.following (s : State) (r : Fin 8) (g : JobCfg) (v : Vec3) : StbSt :=
  { s.stb.fresh .acquire with
      gm := some v, parent := (g.topo.firstDir [0, 1, 2] g.topo.self v).bind fun d =>
        (s.actives d).head?.map (Fin.ofNat 24),
      hops := g.topo.hops v, follow := some (r, s.stb.ticks) }

section
variable (a : Accepted (.timeCtrl r) s r p) (hstep : s.ctxIn [.stepping] = none)
include a hstep

theorem exec_timeCtrl_master (h : pf p 28 1 = 0) : exec (.timeCtrl r) s =
    replies r p { s.takeEntry r.val p with stb := s.stb.toMaster (pf p 32 8) } 0 0 := by
  dsimp only [exec, execTimeCtrl]
  refine (a.runCmd_eq rfl).trans ?_
  rw [show (s.takeEntry r.val p).ctxIn [.stepping] = none from hstep, h]
  rfl

theorem exec_timeCtrl_follow (h : pf p 28 1 = 1) {g : JobCfg} (hg : (s.ctxAt (pktCtx p)).cfg = some g) :
    exec (.timeCtrl r) s = served r { s.takeEntry r.val p with
      stb := s.following r g { x := pf p 29 1, y := pf p 30 1, z := pf p 31 1 } } := by
  dsimp only [exec, execTimeCtrl]
  refine (a.runCmd_eq rfl).trans ?_
  rw [show (s.takeEntry r.val p).ctxIn [.stepping] = none from hstep, h,
    show ((s.takeEntry r.val p).ctxAt (pktCtx p)).cfg = some g from hg]
  rfl

theorem exec_timeCtrl_free (h : pf p 28 1 = 2) : exec (.timeCtrl r) s =
    replies r p { s.takeEntry r.val p with stb := s.stb.fresh .free } 0 0 := by
  dsimp only [exec, execTimeCtrl]
  refine (a.runCmd_eq rfl).trans ?_
  rw [show (s.takeEntry r.val p).ctxIn [.stepping] = none from hstep, h]
  rfl

end

/-! ## SET_POWER_LIMIT and RUN_RADISH (R705, R706) -/

theorem exec_setPowerLimit (a : Accepted (.setPowerLimit r) s r p) :
    let l : LimitSt := if pf p 29 1 = 1 then { en := true, limit := pf p 32 4, ms := pf p 30 2 } else .off
    exec (.setPowerLimit r) s = replies r p { s.takeEntry r.val p with
      pmc := if pf p 28 1 = 0 then { s.pmc with hostWin := l } else { s.pmc with hostRail := l } } 0 0 := by
  dsimp only [exec, execSetPowerLimit]
  rw [a.runCmd_eq rfl]
  by_cases h : pf p 28 1 = 0
  · simp only [h, if_true]
    rfl
  · simp only [h, if_false]
    rfl

theorem exec_runRadish (a : Accepted (.runRadish r) s r p) (hc : s.ctxIn [.stepping, .saving, .restoring] = none)
    (hm : s.regionMeets (pf p 40 8) (pf p 48 8) = none) :
    exec (.runRadish r) s = served r { s.takeEntry r.val p with radishRun := some r } := by
  dsimp only [exec, execRunRadish]
  rw [a.runCmd_eq rfl, show (s.takeEntry r.val p).ctxIn [.stepping, .saving, .restoring] = none from hc,
    show (s.takeEntry r.val p).regionMeets (pf p 40 8) (pf p 48 8) = none from hm]

/-! ## FW_UPDATE (R708, R815, R817) -/

section
variable (a : Accepted (.fwUpdate r) s r p) {im : Bytes} (hb : (s.takeEntry r.val p).inBuf p = some im)
include a hb

theorem exec_fwUpdate_notAuthentic (h : fwAuthentic s.fuse (fwImage im) = false) :
    exec (.fwUpdate r) s = replies r p (s.takeEntry r.val p) 0x50 0 := by
  dsimp only [exec, execFwUpdate]
  rw [a.runCmd_eq rfl, hb]
  exact congrArg (served r) (if_pos (by rw [Bool.not_eq_true']; exact h))

theorem exec_fwUpdate_rollback (h : fwAuthentic s.fuse (fwImage im) = true) (harb : fwArb (fwImage im) < s.fuse.arb) :
    exec (.fwUpdate r) s = replies r p (s.takeEntry r.val p) 0x51 s.fuse.arb := by
  dsimp only [exec, execFwUpdate]
  rw [a.runCmd_eq rfl, hb]
  exact congrArg (served r) ((if_neg (by rw [Bool.not_eq_true', Bool.not_eq_false]; exact h)).trans (if_pos harb))

theorem exec_fwUpdate_writes (h : fwAuthentic s.fuse (fwImage im) = true) (harb : s.fuse.arb ≤ fwArb (fwImage im)) :
    exec (.fwUpdate r) s = served r { s.takeEntry r.val p with
      fw := { busy := some r, image := fwImage im, toB := !s.sec.copyB } } := by
  dsimp only [exec, execFwUpdate]
  rw [a.runCmd_eq rfl, hb]
  exact congrArg (served r) ((if_neg (by rw [Bool.not_eq_true', Bool.not_eq_false]; exact h)).trans
    (if_neg (Nat.not_lt.mpr harb)))

end

end

/-! ## CLEAR_ERRORS (R707, R866) -/

/-- The clearing of a register's RC fields touches no store. -/
theorem State.mem_regClear (s : State) (g : Reg) (lo hi : Bool) : (s.regClear g lo hi).mem = s.mem := by
  cases g with
  | fltCnt | linkErr => cases lo <;> cases hi <;> rfl
  | _ => rfl

/-- The package with the registers of a list that the part has cleared. -/
def State.regsCleared (s : State) (gs : List Reg) : State :=
  gs.foldl (fun (v : State) g => if v.hasReg g then v.regClear g true true else v) s

theorem State.mem_regsCleared (s : State) (gs : List Reg) : (s.regsCleared gs).mem = s.mem :=
  List.foldlRecOn gs _ (motive := fun v : State => v.mem = s.mem) rfl fun v hv g _ => by
    split
    · exact (v.mem_regClear g true true).trans hv
    · exact hv

/-- What keeps an output from its buffer depends on the stores alone. -/
theorem State.outErr_congr {s t : State} (h : t.mem = s.mem) (p : BitVec 512) (n : Nat) :
    t.outErr p n = s.outErr p n := by
  unfold State.outErr State.bufOk State.hostOk
  rw [h]

/-- The entries of an error report have 8 bytes each. -/
theorem State.length_errorEntries (s : State) (gs : List Reg) :
    (gs.flatMap fun g => leBytes 8 (s.peek g)).length = 8 * gs.length := by
  induction gs with
  | nil => rfl
  | cons g gs ih => rw [List.flatMap_cons, List.length_append, leBytes_length, ih, List.length_cons, Nat.mul_succ,
      Nat.add_comm]

theorem State.errorReport_length (s : State) (n : Nat) : (s.errorReport n).length = 16 + 8 * (maskRegs n).length := by
  simp only [State.errorReport, List.length_append, leBytes_length, State.length_errorEntries]

/-- An output that nothing keeps from its buffer is written there. -/
theorem State.outReply_eq_of_none {s : State} {r : Nat} {p : BitVec 512} {bs : Bytes} {st d : Nat}
    (h : s.outErr p bs.length = none) :
    s.outReply r p bs st d = (s.hostWrite (pf p 16 8) bs).reply r p st d bs.length := by
  rw [outReply_eq, h]

theorem exec_clearErrors {s : State} {r : Fin 8} {p : BitVec 512} (a : Accepted (.clearErrors r) s r p)
    (h : (s.takeEntry r.val p).outErr p (16 + 8 * (maskRegs (pf p 28 4)).length) = none) :
    exec (.clearErrors r) s = outputs r p ((s.takeEntry r.val p).regsCleared (maskRegs (pf p 28 4)))
      ((s.takeEntry r.val p).errorReport (pf p 28 4)) 0 0 := by
  have hout := State.outErr_congr ((s.takeEntry r.val p).mem_regsCleared (maskRegs (pf p 28 4))) p
  dsimp only [exec, execClearErrors]
  rw [a.runCmd_eq rfl, h]
  refine congrArg (served r) (State.outReply_eq_of_none ((hout _).trans ?_))
  rw [State.errorReport_length, h]

/-- Settles O43, by what each accepted command does. A withdrawal at once where no context is STEPPING is the model's
choice (assumption log 46; R703 says the next boundary), and so is the end of what the old core had in hand
(assumption log 87). -/
theorem packageCommandsTakeEffect : Obligations.PackageCommandsTakeEffect := by
  intro s r p t a b
  refine ⟨fun h hpin first hspare => ?_, fun h => ⟨exec_linkCtrl_active h, fun hb hm => ?_,
      exec_linkCtrl_refuses h, fun hb hl hc => ?_, fun hb hl hc => ?_⟩,
    fun h hc => ⟨fun ha => ?_, fun ha g hg => ?_, fun ha => ?_⟩, exec_setPowerLimit, exec_runRadish,
    exec_clearErrors,
    fun h im him => ⟨exec_fwUpdate_notAuthentic h him, exec_fwUpdate_rollback h him, exec_fwUpdate_writes h him⟩⟩
  · intro q old hq
    have hmap := t.remap_quitCore a b
    exact ⟨_, exec_remapCore h hpin hspare rfl hq, State.physOf_mapCore_self .., State.physState_mapCore_self ..,
      fun hne hold => State.physState_mapCore_old hne ((State.physState_congr hmap ..).trans hold),
      fun d l hdl => (State.physOf_mapCore_other hdl).trans (State.physOf_congr hmap ..), State.mapCore_eq ..⟩
  · refine ⟨_, exec_linkCtrl_trains h hb hm, ?_, rfl, fun m hne => ?_, rfl⟩
    · rw [State.memberAt_beginTraining, if_pos rfl]
    · rw [State.memberAt_beginTraining, if_neg hne]
      rfl
  · rw [exec_linkCtrl_withdraws h hb hl, if_pos (Option.isSome_iff_ne_none.mpr hc)]
  · rw [exec_linkCtrl_withdraws h hb hl, hc]
    rfl
  · exact ⟨_, exec_timeCtrl_master h hc ha, StbSt.st_toMaster .., rfl, StbSt.time_toMaster ..⟩
  · exact ⟨_, exec_timeCtrl_follow h hc ha hg, rfl, rfl, rfl, rfl, rfl⟩
  · exact ⟨_, exec_timeCtrl_free h hc ha, rfl, rfl, rfl⟩

end Sys2Proof.Machine
end

section
/-! Requests at the stack controllers (O25): lines of which every symbol is whole, and the cases of a request. -/

namespace Sys2Proof.Machine

/-! ## Byte strings of a table -/

section
variable (t : Tbl Byte) (a m n : Nat)

theorem rdBytes_length : (rdBytes t a n).length = n := by rw [rdBytes, List.length_map, List.length_range]

variable {n} in
theorem getD_rdBytes {i : Nat} (h : i < n) : (rdBytes t a n).getD i 0 = tget 0 t (a + i) := by
  rw [rdBytes, List.getD_eq_getElem?_getD, List.getElem?_map, List.getElem?_range h]
  rfl

theorem rdBytes_add : rdBytes t a (m + n) = rdBytes t a m ++ rdBytes t (a + m) n := by
  simp only [rdBytes, List.range_add, List.map_append, List.map_map, Function.comp_def, Nat.add_assoc]

theorem drop_rdBytes : (rdBytes t a (m + n)).drop m = rdBytes t (a + m) n := by
  rw [rdBytes_add, List.drop_left' (rdBytes_length ..)]

theorem take_rdBytes : (rdBytes t a (m + n)).take m = rdBytes t a m := by
  rw [rdBytes_add, List.take_left' (rdBytes_length ..)]

end

/-- Two tables that list the same bytes read alike. -/
theorem rdBytes_congr {t u : Tbl Byte} (h : ∀ j, tget (0 : Byte) u j = tget 0 t j) (a n : Nat) :
    rdBytes u a n = rdBytes t a n :=
  List.map_congr_left fun _ _ => h _

/-- The bytes of a string that is written after others. -/
theorem wrBytes_append (t : Tbl Byte) (a : Nat) (xs ys : Bytes) :
    wrBytes t a (xs ++ ys) = wrBytes (wrBytes t a xs) (a + xs.length) ys := by
  induction xs generalizing t a with
  | nil => rfl
  | cons x xs ih => rw [List.cons_append, wrBytes, wrBytes, ih, List.length_cons, Nat.add_assoc, Nat.add_comm 1]

/-- What is written depends on the table only by what it lists. -/
theorem tget_wrBytes_congr {t u : Tbl Byte} (h : ∀ j, tget (0 : Byte) u j = tget 0 t j) (a j : Nat) (bs : Bytes) :
    tget (0 : Byte) (wrBytes u a bs) j = tget 0 (wrBytes t a bs) j := by
  rw [tget_wrBytes, tget_wrBytes, h]

/-- The bytes of a table that are written back where they were read change nothing. -/
theorem tget_wrBytes_rdBytes (t : Tbl Byte) (a n j : Nat) :
    tget (0 : Byte) (wrBytes t a (rdBytes t a n)) j = tget 0 t j := by
  rw [tget_wrBytes, rdBytes_length]
  split
  · next h => rw [getD_rdBytes t a (by omega), Nat.add_sub_cancel' h.1]
  · rfl

/-- A line that is read, changed in part and written back takes that part alone. -/
theorem tget_wrBytes_splice (t : Tbl Byte) (a off n j : Nat) (bs : Bytes) (h : off + bs.length ≤ n) :
    tget (0 : Byte) (wrBytes t a (splice (rdBytes t a n) off bs)) j = tget 0 (wrBytes t (a + off) bs) j := by
  obtain ⟨r, rfl⟩ := Nat.exists_eq_add_of_le h
  have hhead : (rdBytes t a (off + bs.length + r)).take off = rdBytes t a off := by
    rw [Nat.add_assoc]
    exact take_rdBytes ..
  have hbody (i : Nat) : tget (0 : Byte) (wrBytes t a (rdBytes t a off ++ bs)) i
      = tget 0 (wrBytes t (a + off) bs) i := by
    rw [wrBytes_append, rdBytes_length]
    exact tget_wrBytes_congr (tget_wrBytes_rdBytes t a off) ..
  rw [splice, hhead, drop_rdBytes, wrBytes_append, tget_wrBytes_congr hbody, List.length_append, rdBytes_length,
    tget_wrBytes, rdBytes_length]
  split
  · next hj =>
    rw [getD_rdBytes _ _ (by omega), Nat.add_sub_cancel' hj.1, tget_wrBytes_outside (.inr (by omega))]
  · rfl

/-! ## Reads where every stored line is whole (R333) -/

section
variable {s : State} (hw : s.mem.ecc = [])
include hw

theorem lineData_whole (line : Nat) : lineData s.mem line = rdBytes s.mem.hbm (64 * line) 64 := by
  rw [lineData, hw]
  exact List.map_congr_left fun _ _ => BitVec.xor_zero

theorem State.readLine_whole (line : Nat) (n : Option (BitVec 64)) (scrub : Bool) :
    s.readLine line n scrub = (s, rdBytes s.mem.hbm (64 * line) 64, .clean) := by
  have hd : decodeLine (lineErrs s.mem.ecc line) = .clean := by rw [hw]; rfl
  unfold State.readLine
  rw [hd, lineData_whole hw]

theorem State.hbmLines_whole (n : Option (BitVec 64)) (scrub : Bool) (l m : Nat) :
    ∃ ds, s.hbmLines n scrub ((List.range m).map (l + ·)) = (s, rdBytes s.mem.hbm (64 * l) (64 * m), ds) := by
  induction m generalizing l with
  | zero => exact ⟨_, rfl⟩
  | succ m ih =>
    obtain ⟨ds, hds⟩ := ih (l + 1)
    have hlines : (List.range (m + 1)).map (l + ·) = l :: (List.range m).map (l + 1 + ·) := by
      rw [List.range_succ_eq_map, List.map_cons, List.map_map]
      exact congrArg _ (List.map_congr_left fun i _ => by simp only [Function.comp_apply]; omega)
    rw [hlines, State.hbmLines, s.readLine_whole hw, hds, show 64 * (m + 1) = 64 + 64 * m by omega, rdBytes_add,
      show 64 * (l + 1) = 64 * l + 64 by omega]
    exact ⟨_, rfl⟩

/-- A read gives the bytes stored and changes nothing (R316). -/
theorem State.hbmRead_whole (n : Option (BitVec 64)) (a len : Nat) :
    s.hbmRead n a len = (s, rdBytes s.mem.hbm a len) := by
  unfold State.hbmRead linesOf
  split
  · next h => rw [h]; rfl
  · obtain ⟨ds, hds⟩ := State.hbmLines_whole hw n false (a / 64) ((a % 64 + len + 63) / 64)
    obtain ⟨r, hr⟩ : ∃ r, 64 * ((a % 64 + len + 63) / 64) = a % 64 + (len + r) :=
      ⟨64 * ((a % 64 + len + 63) / 64) - (a % 64 + len), by omega⟩
    rw [hds, hr]
    exact congrArg (s, ·) (by rw [drop_rdBytes, take_rdBytes, Nat.div_add_mod])

end

/-! ## Writes where every stored line is whole (R317, R332, R336) -/

/-- `t` is `s` after HBM, of which every line is whole, has taken the bytes `bs` at `a`. -/
structure HbmWritten (s : State) (a : Nat) (bs : Bytes) (t : State) : Prop where
  bytes : ∀ j, tget 0 t.mem.hbm j = tget 0 (wrBytes s.mem.hbm a bs) j
  frame : t = { s with mem := { s.mem with hbm := t.mem.hbm, errLane := t.mem.errLane } }

section
variable {s t u : State} {a : Nat} {xs ys : Bytes}

theorem HbmWritten.nil (s : State) (a : Nat) : HbmWritten s a [] s := ⟨fun _ => rfl, rfl⟩

theorem HbmWritten.ecc (h : HbmWritten s a xs t) : t.mem.ecc = s.mem.ecc := by rw [h.frame]

/-- A string is written in two parts, of which the second follows the first or is empty. -/
theorem HbmWritten.append {b : Nat} (h : HbmWritten s a xs t) (h' : HbmWritten t b ys u)
    (hb : b = a + xs.length ∨ ys = []) : HbmWritten s a (xs ++ ys) u where
  bytes j := by
    rw [h'.bytes, wrBytes_append, tget_wrBytes_congr h.bytes]
    rcases hb with rfl | rfl <;> rfl
  frame := h'.frame.trans (by rw [h.frame])

theorem HbmWritten.reads (h : HbmWritten s a xs t) : rdBytes t.mem.hbm a xs.length = xs := by
  rw [rdBytes_congr h.bytes, rdBytes_wrBytes]

theorem HbmWritten.outside (h : HbmWritten s a xs t) {j : Nat} (hj : j < a ∨ a + xs.length ≤ j) :
    tget 0 t.mem.hbm j = tget 0 s.mem.hbm j := by
  rw [h.bytes, tget_wrBytes_outside hj]

end

theorem writeLine_whole {m : MemSt} (h : m.ecc = []) (line : Nat) (bs : Bytes) : writeLine m line bs =
    { m with hbm := wrBytes m.hbm (64 * line) bs, errLane := m.errLane.filter fun e => !(e.1 / 68 == line) } := by
  rw [writeLine, h]
  rfl

section
variable {s : State} (hw : s.mem.ecc = []) (n : Option (BitVec 64))
include hw

/-- A whole line is written of which only the bytes `bs` at `a` differ from those stored. -/
theorem State.hbmWritten_writeLine {line a : Nat} {bs data : Bytes}
    (h : ∀ j, tget (0 : Byte) (wrBytes s.mem.hbm (64 * line) data) j = tget 0 (wrBytes s.mem.hbm a bs) j) :
    HbmWritten s a bs { s with mem := writeLine s.mem line data } where
  bytes := h
  frame := by rw [writeLine_whole hw]

theorem State.hbmWritten_hbmWriteLine {line off : Nat} {bs : Bytes} (h : off + bs.length ≤ 64) :
    HbmWritten s (64 * line + off) bs (s.hbmWriteLine n line off bs) := by
  unfold State.hbmWriteLine
  split
  · obtain rfl : off = 0 := by omega
    exact State.hbmWritten_writeLine hw fun _ => rfl
  · rw [s.readLine_whole hw]
    exact State.hbmWritten_writeLine hw fun j => tget_wrBytes_splice _ _ _ _ _ _ h

theorem State.hbmWritten_hbmWriteGo {fuel a : Nat} {bs : Bytes} (h : bs.length ≤ fuel) :
    HbmWritten s a bs (s.hbmWriteGo n fuel a bs) := by
  induction fuel generalizing s a bs with
  | zero =>
    obtain rfl := List.length_eq_zero_iff.mp (Nat.le_zero.mp h)
    exact .nil s a
  | succ fuel ih =>
    rw [State.hbmWriteGo]
    split
    · next he =>
      obtain rfl := List.isEmpty_iff.mp he
      exact .nil s a
    · dsimp only
      obtain ⟨k, hk⟩ : ∃ k, 64 - a % 64 = k := ⟨_, rfl⟩
      rw [hk]
      have hline := State.hbmWritten_hbmWriteLine hw n (line := a / 64) (off := a % 64) (bs := bs.take k)
        (by rw [List.length_take]; omega)
      rw [Nat.div_add_mod] at hline
      have hgo := ih (hline.ecc.trans hw) (a := a + k) (bs := bs.drop k) (by rw [List.length_drop]; omega)
      have hparts := hline.append hgo (by
        rw [List.length_take, List.drop_eq_nil_iff]
        omega)
      rwa [List.take_append_drop] at hparts

theorem State.hbmWritten_hbmWrite (a : Nat) (bs : Bytes) : HbmWritten s a bs (s.hbmWrite n a bs) :=
  State.hbmWritten_hbmWriteGo hw n (Nat.le_succ _)

end

/-! ## The cases of a request (R318, R350, R381, R395, R826) -/

section
variable {s : State} {k : Nat} {r : HbmReq} {q : QueuedReq}

theorem State.doReq_write {w : Bytes} (he : r.err = []) (h : r.write = some w) :
    s.doReq k r = s.hbmWrite r.step r.addr.toNat w := by
  unfold State.doReq
  rw [he, h]
  rfl

theorem State.doReq_read (hw : s.mem.ecc = []) (he : r.err = []) (h : r.write = none) :
    s.doReq k r = s.modStack k fun t => { t with readData := rdBytes s.mem.hbm r.addr.toNat r.len } := by
  have hread := s.hbmRead_whole hw r.step r.addr.toNat r.len
  unfold State.doReq
  rw [he, h]
  exact congrArg (fun x : State × Bytes => x.1.modStack k fun t => { t with readData := x.2 }) hread

/-- The requests of a request's engine that wait in slots of its stack. -/
def State.earlier (s : State) (k : Nat) (r : HbmReq) : List QueuedReq :=
  (s.stackAt k).queue.filter fun x => x.req.issuer == r.issuer

theorem State.takeReq_ports
    (h : (s.stackAt k).full q.pf = true ∨ ∃ x ∈ (s.stackAt k).ports, x.req.issuer = q.req.issuer) :
    s.takeReq k q = s.modStack k fun t => { t with ports := t.ports ++ [q] } := by
  refine if_pos ?_
  rw [Bool.or_eq_true, List.any_eq_true]
  exact h.imp_right fun ⟨x, hx, hi⟩ => ⟨x, hx, beq_iff_eq.mpr hi⟩

section
variable (hf : (s.stackAt k).full q.pf = false) (hp : ∀ x ∈ (s.stackAt k).ports, x.req.issuer ≠ q.req.issuer)
include hf hp

theorem State.takeReq_slotted : s.takeReq k q =
    if !s.serves k || q.pf then s.modStack k fun t => { t with queue := t.queue ++ [q] }
    else if (s.earlier k q.req).any fun x => sharesLine x.req q.req then
      ((s.modStack k fun t => { t with queue := t.queue.filter fun x => !(x.req.issuer == q.req.issuer) }).perform k
        (s.earlier k q.req)).doReq k q.req
    else s.doReq k q.req := by
  refine if_neg ?_
  rw [hf, Bool.false_or, Bool.not_eq_true, List.any_eq_false]
  exact fun x hx => by rw [beq_iff_eq]; exact hp x hx

theorem State.takeReq_slot (h : s.serves k = false ∨ q.pf = true) :
    s.takeReq k q = s.modStack k fun t => { t with queue := t.queue ++ [q] } := by
  rw [State.takeReq_slotted hf hp, if_pos]
  rwa [Bool.or_eq_true, Bool.not_eq_true']

variable (hs : s.serves k = true) (hd : q.pf = false)
include hs hd

theorem State.takeReq_after (h : ∃ x ∈ s.earlier k q.req, sharesLine x.req q.req = true) : s.takeReq k q =
    ((s.modStack k fun t => { t with queue := t.queue.filter fun x => !(x.req.issuer == q.req.issuer) }).perform k
      (s.earlier k q.req)).doReq k q.req := by
  rw [State.takeReq_slotted hf hp, hs, hd]
  exact if_pos (List.any_eq_true.mpr h)

theorem State.takeReq_now (h : ∀ x ∈ s.earlier k q.req, sharesLine x.req q.req = false) :
    s.takeReq k q = s.doReq k q.req := by
  have hnone : ((s.earlier k q.req).any fun x => sharesLine x.req q.req) = false :=
    List.any_eq_false.mpr fun x hx => Bool.not_eq_true _ ▸ h x hx
  rw [State.takeReq_slotted hf hp, hs, hd, hnone]
  rfl

end

/-- A request keeps to its granule, to HBM and to its context's region (R315, R826). -/
def State.mayAsk (s : State) (r : HbmReq) : Prop :=
  reqInGranule r = true ∧ s.place r.addr.toNat = .hbm ∧ s.allowed r.issuer r.addr.toNat r.len = true

theorem State.mayAsk_iff : s.mayAsk r ↔
    (!reqInGranule r || s.place r.addr.toNat != .hbm || !s.allowed r.issuer r.addr.toNat r.len) = false := by
  simp only [State.mayAsk, Bool.or_eq_false_iff, Bool.not_eq_false', bne_eq_false_iff_eq, and_assoc]

theorem exec_hbmRequest_taken (h : s.mayAsk r) : exec (.hbmRequest r) s =
    .next (s.takeReq (s.stackOf r.addr.toNat).1 { req := r, pf := s.isPrefetch r }) :=
  if_neg (Bool.not_eq_true _ ▸ State.mayAsk_iff.mp h)

theorem exec_hbmRequest_refused (h : ¬ s.mayAsk r) : exec (.hbmRequest r) s = .next (s.violate r.issuer r.step) := by
  rw [State.mayAsk_iff, Bool.not_eq_false] at h
  exact if_pos h

/-- An access that is not performed touches no store (R826). -/
theorem State.violate_frame (who : Issuer) (n : Option (BitVec 64)) : (s.violate who n).mem = s.mem
    ∧ (s.violate who n).sec = { s.sec with regionViol := true }
    ∧ s.violate who n = { s with sec := (s.violate who n).sec,
                                 flt := { s.flt with wires := (s.violate who n).flt.wires } } := by
  cases who with
  | engine e => exact ⟨rfl, rfl, rfl⟩
  | command c => exact ⟨rfl, rfl, rfl⟩

end

/-- Settles O25, by the cases of a request that reaches its controller and by what reads and writes of whole lines
give. Waiting at the port in issue order, a prefetch request's wait in its slot, and that all earlier requests of the
engine go first are the model's choice (assumption log 40). -/
theorem hbmRequestServedOrRefused : Obligations.HbmRequestServedOrRefused := by
  intro s r a k q ok mine
  refine ⟨fun h => ⟨_, exec_hbmRequest_refused h, s.violate_frame r.issuer r.step⟩, fun h hwait => ?_,
    fun h hf hp => ⟨fun hslot => ?_, fun hs hd hshare => ?_,
      fun hs hd hshare hw he => ⟨fun w hwr => ?_, fun hr => ?_⟩⟩⟩
  · exact (exec_hbmRequest_taken h).trans (congrArg _ (State.takeReq_ports hwait))
  · exact (exec_hbmRequest_taken h).trans (congrArg _ (State.takeReq_slot hf hp hslot))
  · exact (exec_hbmRequest_taken h).trans (congrArg _ (State.takeReq_after hf hp hs hd hshare))
  · have hstored := State.hbmWritten_hbmWrite hw r.step a w
    refine ⟨_, (exec_hbmRequest_taken h).trans (congrArg _ ?_), hstored.reads, fun b hb => hstored.outside hb,
      hstored.frame⟩
    exact (State.takeReq_now hf hp hs hd hshare).trans (State.doReq_write he hwr)
  · refine (exec_hbmRequest_taken h).trans (congrArg _ ?_)
    exact (State.takeReq_now hf hp hs hd hshare).trans (State.doReq_read hw he hr)

end Sys2Proof.Machine
end

section
/-! Rings (O49): what a packet that gets no effect is answered, and what a reply writes. -/

namespace Sys2Proof.Machine

/-! ## Fields of little-endian bytes (R4) -/

theorem drop_leBytes (n k v : Nat) : (leBytes (k + n) v).drop k = leBytes n (v / 256 ^ k) := by
  induction k generalizing v with
  | zero => rw [Nat.zero_add, List.drop_zero, Nat.pow_zero, Nat.div_one]
  | succ k ih => rw [Nat.succ_add, leBytes, List.drop_succ_cons, ih, Nat.div_div_eq_div_mul, Nat.pow_succ, Nat.mul_comm]

theorem take_leBytes (n k v : Nat) : (leBytes (k + n) v).take k = leBytes k v := by
  induction k generalizing v with
  | zero => rfl
  | succ k ih => rw [Nat.succ_add, leBytes, List.take_succ_cons, ih, leBytes]

theorem fld_leBytes {n off k : Nat} (v : Nat) (h : off + k ≤ n) :
    fld (leBytes n v) off k = v / 256 ^ off % 256 ^ k := by
  obtain ⟨r, rfl⟩ := Nat.exists_eq_add_of_le h
  rw [fld, slice, Nat.add_assoc, drop_leBytes, take_leBytes, leBytes_length, Nat.sub_self, List.replicate_zero,
    List.append_nil, leNat_leBytes]

/-! ## The entry of a reply (R645, R655) -/

/-- The number of a reply's 32 bytes, its PHASE among them. -/
def replyWord (p : BitVec 512) (st ring d stb n phase : Nat) : Nat :=
  (entryBits (bits p.toNat 63 32) st ring d stb n).toNat + 2 ^ 56 * phase

section
variable {ring stb phase : Nat} (hr : ring < 8) (hs : stb < 2 ^ 64) (p : BitVec 512) (st d n : Nat)
include hr hs

theorem replyWord_eq : replyWord p st ring d stb n phase = bits p.toNat 63 32 + 2 ^ 32 * (st % 2 ^ 16) + 2 ^ 48 * ring
    + 2 ^ 56 * phase + 2 ^ 64 * (d % 2 ^ 64) + 2 ^ 128 * stb + 2 ^ 192 * (n % 2 ^ 32) := by
  rw [replyWord, entryBits, BitVec.toNat_ofNat, bits]
  omega

theorem replyWord_fields (hp : phase < 2 ^ 8) :
    let b := leBytes 32 (replyWord p st ring d stb n phase)
    fld b 0 4 = bits p.toNat 63 32 ∧ fld b 4 2 = st % 2 ^ 16 ∧ fld b 6 1 = ring ∧ fld b 7 1 = phase
      ∧ fld b 8 8 = d % 2 ^ 64 ∧ fld b 16 8 = stb ∧ fld b 24 4 = n % 2 ^ 32 ∧ fld b 28 4 = 0 := by
  intro b
  have hf {off k : Nat} (h : off + k ≤ 32) : fld b off k = replyWord p st ring d stb n phase / 256 ^ off % 256 ^ k :=
    fld_leBytes _ h
  rw [replyWord_eq hr hs] at hf
  have ht : bits p.toNat 63 32 < 2 ^ 32 := Nat.mod_lt _ (by decide)
  generalize bits p.toNat 63 32 = tag at hf ht ⊢
  refine ⟨?_, ?_, ?_, ?_, ?_, ?_, ?_, ?_⟩ <;> rw [hf (by decide)] <;> omega

end

/-! ## Writing an entry (R645, R646, R650, R652) -/

/-- The host address of the completion entry at TAIL (R645). -/
def RingSt.cqPlace (q : RingSt) : Nat := q.cqAddr.toNat * 4096 + 32 * (q.cqTail.toNat % 256)

/-- The PHASE of the completion entry at TAIL (R645). -/
def RingSt.phase (q : RingSt) : Nat := 1 - q.cqTail.toNat / 256 % 2

theorem RingSt.phase_lt (q : RingSt) : q.phase < 2 ^ 8 := Nat.lt_of_le_of_lt (Nat.sub_le ..) (by decide)

section
variable (s : State) (r : Nat) (w : WaitEnt)

/-- The package with an entry at the completion TAIL, which has risen. -/
def State.entryWritten : State :=
  (s.hostWrite (s.ringAt r).cqPlace (leBytes 32 (w.entry.toNat + 2 ^ 56 * (s.ringAt r).phase))).modRing r
    fun q => { q with cqTail := q.cqTail + 1 }

/-- Raising a vector changes the MSI-X state alone, and depends on it alone. -/
theorem State.raise_eq {s t : State} (h : t.msix = s.msix) (i : Nat) :
    t.raise i = { t with msix := (s.raise i).msix } := by
  unfold State.raise
  rw [h]
  dsimp only
  split <;> rfl

variable {s r w}

theorem State.writeEntry_stops (h : s.hostOk (s.ringAt r).cqPlace 32 = false) : s.writeEntry r w = s.ringFault r :=
  if_pos (Bool.not_eq_true' _ ▸ h)

theorem State.writeEntry_writes (h : s.hostOk (s.ringAt r).cqPlace 32 = true) : s.writeEntry r w =
    if (s.ringAt r).irqEn && (w.event || w.irq) then (s.entryWritten r w).raise r else s.entryWritten r w :=
  if_neg (by rw [Bool.not_eq_true', Bool.not_eq_false]; exact h)

theorem State.putEntry_waits (h : (s.ringAt r).full = true ∨ (s.ringAt r).waiting ≠ []) :
    s.putEntry r w = s.modRing r fun q => { q with waiting := putWait (s.ringAt r).waiting w } := by
  refine if_pos ?_
  rwa [Bool.or_eq_true, Bool.not_eq_true', List.isEmpty_eq_false_iff]

theorem State.putEntry_writes (hf : (s.ringAt r).full = false) (hw : (s.ringAt r).waiting = []) :
    s.putEntry r w = s.writeEntry r w := by
  refine if_neg ?_
  rw [hf, hw]
  decide

theorem putWait_reply {l : List WaitEnt} (h : w.event = false) : putWait l w = l ++ [w] := by
  rw [putWait, h]
  rfl

end

/-! ## Replies (R646, R651, R655) -/

section
variable (s : State) (r : Nat) (p : BitVec 512) (st d n : Nat)

/-- The package in which ring `r` has no command in progress. -/
def State.ringFreed : State := s.modRing r fun q => { q with cur := none, mute := false }

/-- The entry of a reply. -/
def State.replyEntry : WaitEnt :=
  { event := false, code := BitVec.ofNat 16 st, ctx := 0,
    entry := entryBits (bits p.toNat 63 32) st r d s.stbTicks n, irq := bitOf p.toNat 16 }

@[simp] theorem State.ringAt_ringFreed : (s.ringFreed r).ringAt r = { s.ringAt r with cur := none, mute := false } :=
  (State.ringAt_modRing ..).trans (if_pos rfl)

theorem State.ringAt_ringFreed_other {j : Nat} (h : j ≠ r) : (s.ringFreed r).ringAt j = s.ringAt j :=
  (State.ringAt_modRing ..).trans (if_neg h)

variable {s r}

theorem State.reply_mute (h : (s.ringAt r).mute = true) : s.reply r p st d n = s.ringFreed r := if_pos h

theorem State.reply_eq (h : (s.ringAt r).mute = false) :
    s.reply r p st d n = (s.ringFreed r).putEntry r (s.replyEntry r p st d n) :=
  if_neg (Bool.not_eq_true _ ▸ h)

/-- A reply waits while the ring is full or another entry waits (R646). -/
theorem State.reply_waits (h : (s.ringAt r).mute = false)
    (hw : (s.ringAt r).full = true ∨ (s.ringAt r).waiting ≠ []) :
    s.reply r p st d n = (s.ringFreed r).modRing r fun q =>
      { q with waiting := (s.ringAt r).waiting ++ [s.replyEntry r p st d n] } := by
  have hwait : ((s.ringFreed r).ringAt r).full = true ∨ ((s.ringFreed r).ringAt r).waiting ≠ [] := by
    rw [State.ringAt_ringFreed]
    exact hw
  rw [State.reply_eq p st d n h, State.putEntry_waits hwait, State.ringAt_ringFreed, putWait_reply rfl]

section
variable (hm : (s.ringAt r).mute = false) (hf : (s.ringAt r).full = false) (hw : (s.ringAt r).waiting = [])
include hm hf hw

theorem State.reply_enters : s.reply r p st d n = (s.ringFreed r).writeEntry r (s.replyEntry r p st d n) := by
  rw [State.reply_eq p st d n hm, State.putEntry_writes] <;> rw [State.ringAt_ringFreed]
  · exact hf
  · exact hw

/-- A reply to a completion ring that does not answer stops the ring (R650). -/
theorem State.reply_stops (h : s.hostOk (s.ringAt r).cqPlace 32 = false) :
    s.reply r p st d n = (s.ringFreed r).ringFault r := by
  rw [State.reply_enters p st d n hm hf hw, State.writeEntry_stops]
  rw [State.ringAt_ringFreed]
  exact h

/-- A reply is written at TAIL, which rises, and a wanted interrupt follows (R645, R652). -/
theorem State.reply_writes (h : s.hostOk (s.ringAt r).cqPlace 32 = true) : s.reply r p st d n =
    { (s.ringFreed r).entryWritten r (s.replyEntry r p st d n) with
      msix := if (s.ringAt r).irqEn && bitOf p.toNat 16 then (s.raise r).msix else s.msix } := by
  have hok : (s.ringFreed r).hostOk ((s.ringFreed r).ringAt r).cqPlace 32 = true := by
    rw [State.ringAt_ringFreed]
    exact h
  rw [State.reply_enters p st d n hm hf hw, State.writeEntry_writes hok, State.ringAt_ringFreed]
  change (if (s.ringAt r).irqEn && bitOf p.toNat 16 then _ else _) = _
  split
  · refine State.raise_eq (s := s) ?_ r
    rfl
  · rfl

end

variable (s r)

theorem State.ringAt_entryWritten (w : WaitEnt) :
    (s.entryWritten r w).ringAt r = { s.ringAt r with cqTail := (s.ringAt r).cqTail + 1 } :=
  (State.ringAt_modRing ..).trans (if_pos rfl)

theorem State.ringAt_entryWritten_other (w : WaitEnt) {j : Nat} (h : j ≠ r) :
    (s.entryWritten r w).ringAt j = s.ringAt j :=
  (State.ringAt_modRing ..).trans (if_neg h)

/-- The entry of a reply lies in host memory at the place of TAIL. -/
theorem State.host_replyWritten : ((s.ringFreed r).entryWritten r (s.replyEntry r p st d n)).mem.host =
    wrBytes s.mem.host (s.ringAt r).cqPlace (leBytes 32 (replyWord p st r d s.stbTicks n (s.ringAt r).phase)) := by
  rw [State.entryWritten, State.ringAt_ringFreed]
  rfl

theorem State.rdBytes_replyWritten :
    rdBytes ((s.ringFreed r).entryWritten r (s.replyEntry r p st d n)).mem.host (s.ringAt r).cqPlace 32
      = leBytes 32 (replyWord p st r d s.stbTicks n (s.ringAt r).phase) := by
  rw [State.host_replyWritten]
  exact (congrArg _ (leBytes_length 32 _).symm).trans (rdBytes_wrBytes ..)

end

/-! ## Packets that a ring takes (R654, R658, R659) -/

/-- Every Citis command runs as `citisForm` says. -/
theorem exec_citis {c : Instr} {r : Fin 8} {f : CmdForm} (h : citisForm c = some (r, f)) (s : State) :
    ∃ body, exec c s = runCmd r f body s := by
  cases c with dsimp only [exec]
  | identify | queryStatus | readTelemetry | journalRead | attest | contextCreate | contextSave | contextRestore
  | contextDestroy | loadImage | loadConfig | verifyConfig | swapConfig | startSteps | halt | resume | abortStep
  | remapCore | linkCtrl | timeCtrl | setPowerLimit | runRadish | clearErrors | fwUpdate =>
    cases h
    exact ⟨_, rfl⟩
  | _ => cases h

/-- CTX of a command of class context names a context. -/
theorem citisForm_ctxOk {c : Instr} {r : Fin 8} {f : CmdForm} (h : citisForm c = some (r, f))
    (hc : cmdClass f.op = some .context) : f.ctxOk = oneCtx := by
  cases c with
  | contextCreate | contextSave | contextRestore | contextDestroy | loadImage | loadConfig | verifyConfig | swapConfig
  | startSteps | halt | resume | abortStep =>
    cases h
    rfl
  | identify | queryStatus | readTelemetry | journalRead | attest | remapCore | linkCtrl | timeCtrl | setPowerLimit
  | runRadish | clearErrors | fwUpdate =>
    cases h
    exact absurd hc (by decide)
  | _ => cases h

theorem ctxOk_of_pktBad {p : BitVec 512} {ctxOk : Bool} {vals : List (Bool × Nat)} {used : List (Nat × Nat)}
    (h : pktBad p ctxOk vals used = none) : ctxOk = true := by
  rw [pktBad, Option.map_eq_none_iff, List.find?_eq_none] at h
  simpa using h (ctxOk, 8) (by simp)

section
variable {s : State} {r : Nat} {f : CmdForm} {p : BitVec 512}

theorem State.cmdReject_ring (h : pf p 3 1 ≠ r) : s.cmdReject r f p = some (3, 0) := if_pos h

theorem State.cmdReject_field {off : Nat} (h : pf p 3 1 = r)
    (hb : pktBad p (f.ctxOk (pktCtx p)) (f.vals s p) f.used = some off) : s.cmdReject r f p = some (2, off) := by
  rw [State.cmdReject, if_neg (not_not_intro h), hb]

/-- A lock on a context is reported as such (R659). -/
theorem State.lockHeld_context_fst {ctx : Nat} {e : Nat × Nat} (h : s.lockHeld r .context ctx = some e) : e.1 = 5 := by
  obtain ⟨q, -, hq⟩ := List.exists_of_findSome?_eq_some h
  split at hq
  · cases hq
  · split at hq
    · cases hq
    · split at hq
      · split at hq <;> cases hq
        rfl
      · contradiction
      · cases hq

/-- A context command of another ring that names the context holds its lock (R659). -/
theorem State.lockHeld_context_ne_none {ctx q : Nat} {k : CurCmd} (hq : q < 8) (hne : q ≠ r)
    (hk : (s.ringAt q).cur = some k) (hc : cmdClass (pktOp k.pkt) = some .context) (hctx : pktCtx k.pkt = ctx) :
    s.lockHeld r .context ctx ≠ none := by
  intro h
  have hnone := List.findSome?_eq_none_iff.mp h q (List.mem_range.mpr hq)
  rw [if_neg hne, hk] at hnone
  simp [hc, hctx] at hnone

section
variable (hr : pf p 3 1 = r) (hb : pktBad p (f.ctxOk (pktCtx p)) (f.vals s p) f.used = none)
  (hc : cmdClass f.op = some .context)
include hr hb hc

theorem State.cmdReject_lockHeld {e : Nat × Nat} (he : s.lockHeld r .context (pktCtx p) = some e) :
    s.cmdReject r f p = some e := by
  have hlock : s.lockHeld r ((cmdClass f.op).getD .query) (pktCtx p) = some e := by rw [hc]; exact he
  rw [State.cmdReject, if_neg (not_not_intro hr), hb, hlock]

/-- What a context command with a good packet and no lock against it is answered (R659, R666, R671). -/
theorem State.cmdReject_unlocked (hl : s.lockHeld r .context (pktCtx p) = none) : s.cmdReject r f p =
    if decide (pktCtx p < 4) && (s.ctxAt (pktCtx p)).st == .free && f.op != 0x10 then some (4, 0)
    else if (cmdClass f.op).getD .query = .context ∧ !f.accepts (s.ctxAt (pktCtx p)).st then
      (if f.op = 0x10 then some (0x40, 0) else some (7, (s.ctxAt (pktCtx p)).st.code))
    else none := by
  have hlock : s.lockHeld r ((cmdClass f.op).getD .query) (pktCtx p) = none := by rw [hc]; exact hl
  rw [State.cmdReject, if_neg (not_not_intro hr), hb, hlock]

theorem State.cmdReject_locked {q : Nat} {k : CurCmd} (hq : q < 8) (hne : q ≠ r) (hk : (s.ringAt q).cur = some k)
    (hkc : cmdClass (pktOp k.pkt) = some .context) (hctx : pktCtx k.pkt = pktCtx p) :
    ∃ d, s.cmdReject r f p = some (5, d) := by
  obtain ⟨⟨e, d⟩, he⟩ := Option.ne_none_iff_exists'.mp (s.lockHeld_context_ne_none hq hne hk hkc hctx)
  obtain rfl : e = 5 := s.lockHeld_context_fst he
  exact ⟨d, State.cmdReject_lockHeld hr hb hc he⟩

variable (hl : s.lockHeld r .context (pktCtx p) = none) (ho : f.op ≠ 0x10)
include hl ho

theorem State.cmdReject_free (hx : f.ctxOk = oneCtx) (hst : (s.ctxAt (pktCtx p)).st = .free) :
    s.cmdReject r f p = some (4, 0) := by
  have h4 : decide (pktCtx p < 4) = true := (congrFun hx (pktCtx p)).symm.trans (ctxOk_of_pktBad hb)
  refine (State.cmdReject_unlocked hr hb hc hl).trans (if_pos ?_)
  rw [h4, hst, Bool.true_and, Bool.and_eq_true, bne_iff_ne]
  exact ⟨rfl, ho⟩

theorem State.cmdReject_state (hst : (s.ctxAt (pktCtx p)).st ≠ .free)
    (ha : f.accepts (s.ctxAt (pktCtx p)).st = false) :
    s.cmdReject r f p = some (7, (s.ctxAt (pktCtx p)).st.code) := by
  rw [State.cmdReject_unlocked hr hb hc hl, beq_eq_false_iff_ne.mpr hst, Bool.and_false, Bool.false_and, ha, hc,
    if_neg ho]
  rfl

end

theorem State.hbmWaits_of_reject {e : Nat × Nat} (h : s.cmdReject r f p = some e) : s.hbmWaits r f p = false := by
  rw [State.hbmWaits, h, Option.isNone_some, Bool.and_false, Bool.false_and]

end

/-- Settles O49, by the cases of a packet at the HEAD of a ring and by what a reply makes of its ring. The order of the
rejects is the model's choice (assumption log 44; R654 and R659 give none). -/
theorem ringsRejectAndReply : Obligations.RingsRejectAndReply := by
  refine ⟨fun s c r f hf => ?_, fun s r p st d n => ?_⟩
  · obtain ⟨body, hrun⟩ := exec_citis hf s
    rw [hrun]
    refine ⟨runCmd_notReady, runCmd_stops, fun p hr he => ⟨?_, ?_, State.cmdReject_ring,
      fun h off => State.cmdReject_field h, fun hring hb hc => ⟨?_, fun hl => ⟨?_, ?_⟩⟩⟩⟩
    · exact fun h => h.elim (fun ho => runCmd_other he ho hr) (runCmd_hbmWaits hr he)
    · exact fun ho e hrej => runCmd_rejected hr he ho hrej (State.hbmWaits_of_reject hrej)
    · exact fun q k hq hne hk hkc hctx => State.cmdReject_locked hring hb hc hq hne hk hkc hctx
    · exact fun hst ho => State.cmdReject_free hring hb hc hl ho (citisForm_ctxOk hf hc) hst
    · exact fun hst ho => State.cmdReject_state hring hb hc hl ho hst
  · intro q a u
    refine ⟨State.reply_mute p st d n, fun hm hw => ?_, fun hm hf hw h => ?_, fun hm hf hw h hs => ?_⟩
    · rw [show u = _ from State.reply_waits p st d n hm hw, State.ringAt_modRing, if_pos rfl, State.ringAt_ringFreed]
      exact ⟨rfl, List.length_append, rfl, rfl⟩
    · rw [show u = _ from State.reply_stops p st d n hm hf hw h, State.ringFault, State.ringAt_modRing, if_pos rfl]
      exact ⟨rfl, rfl, rfl⟩
    · have hu : u = _ := State.reply_writes p st d n hm hf hw h
      have hring (j : Nat) : u.ringAt j = ((s.ringFreed r).entryWritten r (s.replyEntry r p st d n)).ringAt j := by
        rw [hu]
        rfl
      have hb : u.hostRead a 32 = leBytes 32 (replyWord p st r d s.stbTicks n q.phase) := by
        rw [State.hostRead, hu]
        exact State.rdBytes_replyWritten s r p st d n
      intro b
      obtain ⟨h0, h4, h6, h7, h8, h16, h24, h28⟩ := replyWord_fields r.isLt hs p st d n q.phase_lt
      rw [← hb] at h0 h4 h6 h7 h8 h16 h24 h28
      refine ⟨h0, h4, h6, h7, h8, h16, h24, h28, fun j hj => ?_, ?_, fun j hj => ?_, ?_⟩
      · rw [hu, State.host_replyWritten]
        exact tget_wrBytes_outside (by rwa [leBytes_length])
      · rw [hring, State.ringAt_entryWritten, State.ringAt_ringFreed]
      · rw [hring, State.ringAt_entryWritten_other _ _ _ hj, State.ringAt_ringFreed_other _ _ hj]
      · rw [hu]

end Sys2Proof.Machine
end

section
/-! Packed formats that read back (O37): the parts of byte strings, the fields of packed words, flits, headers, increment
records and exponent-plane frames. -/

namespace Sys2Proof.Machine

/-! ## Parts of byte strings -/

section
variable {xs ys zs : Bytes} {a n : Nat}

theorem slice_inside {off : Nat} (h : off + n ≤ xs.length) : slice xs off n = (xs.drop off).take n := by
  rw [slice, List.length_take_of_le (by rw [List.length_drop]; omega), Nat.sub_self, List.replicate_zero,
    List.append_nil]

theorem slice_whole (h : xs.length = n) : slice xs 0 n = xs := by
  rw [slice_inside (by omega), List.drop_zero, List.take_of_length_le (Nat.le_of_eq h)]

theorem slice_mid (hx : xs.length = a) (hy : ys.length = n) : slice (xs ++ ys ++ zs) a n = ys := by
  rw [slice_inside (by rw [List.length_append, List.length_append]; omega), List.append_assoc, List.drop_left' hx,
    List.take_left' hy]

theorem slice_tail (hx : xs.length = a) (hy : ys.length = n) : slice (xs ++ ys) a n = ys := by
  have h := slice_mid (zs := []) hx hy
  rwa [List.append_nil] at h

theorem slice_head (hx : xs.length = n) : slice (xs ++ ys ++ zs) 0 n = xs := by
  rw [List.append_assoc]
  exact slice_mid (xs := []) rfl hx

end

/-! ## Digits of a number in a base -/

/-- The number whose digits in base `b` a list gives, lowest first. -/
def ofDigits (b : Nat) : List Nat → Nat
  | [] => 0
  | d :: ds => d + b * ofDigits b ds

theorem ofDigits_digit {b : Nat} {ds : List Nat} (h : ∀ d ∈ ds, d < b) {i : Nat} (hi : i < ds.length) :
    ofDigits b ds / b ^ i % b = ds[i] := by
  induction ds generalizing i with
  | nil => exact absurd hi (Nat.not_lt_zero i)
  | cons d ds ih =>
    obtain ⟨hd, hds⟩ := List.forall_mem_cons.mp h
    cases i with
    | zero => rw [Nat.pow_zero, Nat.div_one, ofDigits, Nat.add_mul_mod_self_left, Nat.mod_eq_of_lt hd,
        List.getElem_cons_zero]
    | succ i =>
      rw [ofDigits, Nat.pow_succ, Nat.mul_comm (b ^ i), ← Nat.div_div_eq_div_mul,
        Nat.add_mul_div_left _ _ (Nat.zero_lt_of_lt hd), Nat.div_eq_of_lt hd, Nat.zero_add, ih hds (Nat.lt_of_succ_lt_succ hi), List.getElem_cons_succ]

/-- The digits below a place are those of the number without what stands from that place on. -/
theorem digit_mod_pow {v b i n : Nat} (hi : i < n) : v % b ^ n / b ^ i % b = v / b ^ i % b := by
  obtain ⟨m, rfl⟩ := Nat.exists_eq_add_of_lt hi
  have hdvd : b ∣ b ^ (m + 1) := Nat.pow_succ .. ▸ Nat.dvd_mul_left ..
  rw [Nat.add_assoc, Nat.pow_add, Nat.mod_mul_right_div_self, Nat.mod_mod_of_dvd _ hdvd]

/-- Numbers put at their places one after another make the number with these digits. -/
theorem foldl_zipIdx_digits (g : Nat → Nat) (w : Nat) (es : List Nat) (acc k : Nat) :
    (es.zipIdx k).foldl (fun a x => a + g x.1 * 2 ^ (w * x.2)) acc
      = acc + 2 ^ (w * k) * ofDigits (2 ^ w) (es.map g) := by
  induction es generalizing acc k with
  | nil => rfl
  | cons e es ih =>
    rw [List.zipIdx_cons, List.foldl_cons, ih, List.map_cons, ofDigits, Nat.mul_succ, Nat.pow_add, Nat.mul_add,
      Nat.mul_comm (g e), Nat.mul_assoc, Nat.add_assoc]

/-! ## Single bits of a number -/

theorem b2n_lt_two (b : Bool) : b2n b < 2 := by cases b <;> decide

theorem bitOf_eq {v i : Nat} {b : Bool} (h : v / 2 ^ i % 2 = b2n b) : bitOf v i = b := by
  rw [bitOf, Nat.testBit_eq_decide_div_mod_eq, h]
  cases b <;> rfl

/-! ## Flits (R464, R465) -/

/-- The first two bytes of a flit as a number. -/
def Flit.word (f : Flit) : Nat :=
  f.seq % 1024 + 1024 * (f.vc % 8) + 8192 * b2n f.som + 16384 * b2n f.eom

section
variable {f : Flit}

theorem Flit.word_fields (hs : f.seq < 1024) (hv : f.vc < 8) :
    f.word < 256 ^ 2 ∧ f.word % 1024 = f.seq ∧ bits f.word 12 10 = f.vc ∧ bitOf f.word 13 = f.som
      ∧ bitOf f.word 14 = f.eom := by
  have hsom := b2n_lt_two f.som
  have heom := b2n_lt_two f.eom
  unfold bits Flit.word
  refine ⟨?_, ?_, ?_, bitOf_eq ?_, bitOf_eq ?_⟩ <;> omega

variable (hb : f.body.length = 250)
include hb

theorem flitBytes_eq : flitBytes f = leBytes 2 f.word ++ f.body
    ++ leBytes 4 (crc32 (leBytes 2 f.word ++ f.body)).toNat := by
  rw [flitBytes, slice_whole hb]
  rfl

theorem flitBytes_length : (flitBytes f).length = 256 := by
  rw [flitBytes_eq hb, List.length_append, List.length_append, leBytes_length, leBytes_length, hb]

theorem crcOk_flitBytes : crcOk (flitBytes f) = true := by
  have hh : (leBytes 2 f.word ++ f.body).length = 252 := by
    rw [List.length_append, leBytes_length, hb]
  rw [crcOk, flitBytes_eq hb, fld, slice_tail hh (leBytes_length ..), List.take_left' hh, leNat_leBytes, beq_iff_eq]
  exact Nat.mod_eq_of_lt (BitVec.isLt _)

theorem flitOf_flitBytes (hs : f.seq < 1024) (hv : f.vc < 8) : flitOf (flitBytes f) = { f with par := [] } := by
  obtain ⟨hlt, hseq, hvc, hsom, heom⟩ := Flit.word_fields hs hv
  have hword : fld (flitBytes f) 0 2 = f.word := by
    rw [flitBytes_eq hb, fld, slice_head (leBytes_length ..), leNat_leBytes, Nat.mod_eq_of_lt hlt]
  have hbody : slice (flitBytes f) 2 250 = f.body := by
    rw [flitBytes_eq hb, slice_mid (leBytes_length ..) hb]
  simp only [flitOf, hword, hbody, hseq, hvc, hsom, heom]

end

/-! ## Parity beside a flit (R720) -/

/-- The byte whose bits a function gives. -/
theorem getLsbD_sumNat_bits (g : Nat → Bool) {i : Nat} (hi : i < 8) :
    (BitVec.ofNat 8 (sumNat ((List.range 8).map fun j => 2 ^ j * b2n (g j)))).getLsbD i = g i := by
  have hsum : sumNat ((List.range 8).map fun j => 2 ^ j * b2n (g j))
      = ofDigits 2 ((List.range 8).map fun j => b2n (g j)) := by
    simp only [sumNat, List.range, List.range.loop, List.map_cons, List.map_nil, List.foldl_cons, List.foldl_nil,
      ofDigits]
    omega
  have hdigit : ∀ d ∈ (List.range 8).map fun j => b2n (g j), d < 2 :=
    List.forall_mem_map.mpr fun j _ => b2n_lt_two (g j)
  have hlen : i < ((List.range 8).map fun j => b2n (g j)).length := by rwa [List.length_map, List.length_range]
  have hbit := bitOf_eq (b := g i) ((ofDigits_digit hdigit hlen).trans (by rw [List.getElem_map, List.getElem_range]))
  rw [BitVec.getLsbD_ofNat, hsum, ← bitOf, hbit, decide_eq_true hi, Bool.true_and]

/-- Bit i of the parity bytes is the parity of byte i, turned where the flit lists byte i. -/
theorem getLsbD_bodyParity (f : Flit) {i : Nat} (hi : i < 256) :
    ((bodyParity f).getD (i / 8) 0#8).getLsbD (i % 8) = (parityOf (f.body.getD i 0#8) != f.par.contains i) := by
  rw [bodyParity, List.getD_eq_getElem?_getD, List.getElem?_map, List.getElem?_range (by omega), Option.map_some,
    Option.getD_some, getLsbD_sumNat_bits _ (Nat.mod_lt _ (by decide)), Nat.div_add_mod]

theorem innerFlit_wireOf {f : Flit} (hs : f.seq < 1024) (hv : f.vc < 8) (hb : f.body.length = 250) :
    innerFlit (wireOf 24 f) = { f with par := (List.range 250).filter f.par.contains } := by
  have hlen := flitBytes_length hb
  have hwire : wireOf 24 f = flitBytes f ++ bodyParity f := rfl
  have hpar : ∀ i ∈ List.range 250,
      (parityOf (f.body.getD i 0#8) != ((flitBytes f ++ bodyParity f).getD (256 + i / 8) 0#8).getLsbD (i % 8))
        = f.par.contains i := by
    intro i hi
    rw [List.mem_range] at hi
    have hbyte : (flitBytes f ++ bodyParity f).getD (256 + i / 8) 0#8 = (bodyParity f).getD (i / 8) 0#8 := by
      rw [List.getD_eq_getElem?_getD, List.getElem?_append_right (by omega), hlen, Nat.add_sub_cancel_left,
        List.getD_eq_getElem?_getD]
    rw [hbyte, getLsbD_bodyParity f (by omega),
      ← Bool.bne_assoc, bne_self_eq_false, Bool.false_bne]
  rw [innerFlit, hwire, List.take_left' hlen, flitOf_flitBytes hb hs hv]
  exact congrArg (fun p => { f with par := p }) (List.filter_congr hpar)

/-! ## Message headers and increment records (R413, R470) -/

theorem msgHdr_pack {h : MsgHdr} (hx : h.dst.x < 32) (hy : h.dst.y < 32) (hz : h.dst.z < 32) (hc : h.cls < 16)
    (hl : h.len < 8192) (hp : h.phase < 256) (hj : h.job < 65536) (hs : h.seq < 65536) (he : h.epoch < 65536) :
    msgHdr h.pack = h := by
  obtain ⟨⟨x, y, z⟩, cls, len, phase, job, seq, epoch, enc⟩ := h
  have henc := b2n_lt_two enc
  dsimp only at *
  simp only [MsgHdr.pack, msgHdr, bits, BitVec.toNat_ofNat, MsgHdr.mk.injEq, Vec3.mk.injEq]
  refine ⟨⟨?_, ?_, ?_⟩, ?_, ?_, ?_, ?_, ?_, ?_, bitOf_eq ?_⟩ <;> omega

theorem incRec_pack {r : IncRec} (hn : r.n < 65536) (hi : r.index < 64) : incRec r.pack = r := by
  obtain ⟨step, job, epoch, n, index⟩ := r
  have hstep := step.isLt
  have hjob := job.isLt
  have hepoch := epoch.isLt
  dsimp only at hn hi
  simp only [IncRec.pack, incRec, bits, BitVec.toNat_ofNat, IncRec.mk.injEq, ← BitVec.toNat_inj]
  refine ⟨?_, ?_, ?_, ?_, ?_⟩ <;> omega

/-! ## Exponent-plane frames (R374-R377) -/

/-- The exponent field of a code. -/
def expOf (v : Nat) : Nat := v / 128 % 256

/-- The sign and mantissa byte of a code. -/
def signMant (v : Nat) : Byte := BitVec.ofNat 8 (v / 256 / 128 * 128 + v % 128)

/-- The exponents of a frame's codes that are not 0 (R376). -/
def frameExps (codes : List Nat) : List Nat := (codes.map expOf).filter (· != 0)

/-- The base and the width that a frame's header gives for its exponents. -/
def framePlan (codes : List Nat) : Nat × Nat :=
  let nz := frameExps codes
  if nz.isEmpty then (0, 0) else (nz.foldl min 255, xpWidth (nz.foldl max 0 - nz.foldl min 255 + 1))

/-- The code of an exponent over a frame's base. -/
def expCode (base e : Nat) : Nat := if e = 0 then 0 else e - base + 1

/-- The exponents' codes of a frame as one number. -/
def expPlane (codes : List Nat) : Nat :=
  ofDigits (2 ^ (framePlan codes).2) ((codes.map expOf).map (expCode (framePlan codes).1))

theorem encodeFrame_eq (codes : List Nat) : encodeFrame codes =
    let p := framePlan codes
    leBytes 2 (p.1 + 256 * p.2) ++ codes.map signMant ++ leBytes (32 * p.2) (expPlane codes) := by
  have hplane := foldl_zipIdx_digits (expCode (framePlan codes).1) (framePlan codes).2 (codes.map expOf) 0 0
  rw [Nat.mul_zero, Nat.pow_zero, Nat.one_mul, Nat.zero_add] at hplane
  exact congrArg (fun v => _ ++ leBytes _ v) hplane

/-- The width chosen for a span is enough for it. -/
theorem xpWidth_spec {span : Nat} (h : span < 256) : xpWidth span ≤ 8 ∧ span < 2 ^ xpWidth span := by
  unfold xpWidth
  cases hw : (List.range 9).find? fun w => decide (span ≤ 2 ^ w - 1) with
  | none => exact ⟨Nat.le_refl 8, h⟩
  | some w =>
    have hmem := List.mem_range.mp (List.mem_of_find?_eq_some hw)
    have hspan : span ≤ 2 ^ w - 1 := of_decide_eq_true (List.find?_some (p := fun w => decide (span ≤ 2 ^ w - 1)) hw)
    have hpos := Nat.two_pow_pos w
    rw [Option.getD_some]
    omega

theorem expOf_lt (v : Nat) : expOf v < 256 := Nat.mod_lt _ (by decide)

theorem mem_frameExps {codes : List Nat} {e : Nat} :
    e ∈ frameExps codes ↔ (∃ v ∈ codes, expOf v = e) ∧ e ≠ 0 := by
  rw [frameExps, List.mem_filter, List.mem_map, bne_iff_ne]

/-- The least and the greatest exponent of a frame lie in a byte, and every exponent that is not 0 between them. -/
theorem frameExps_range (codes : List Nat) :
    let lo := (frameExps codes).foldl min 255
    let hi := (frameExps codes).foldl max 0
    0 < lo ∧ lo < 256 ∧ hi < 256 ∧ ∀ e ∈ frameExps codes, lo ≤ e ∧ e ≤ hi := by
  have hpos : ∀ e ∈ 255 :: frameExps codes, 0 < e ∧ e < 256 := by
    simp only [List.forall_mem_cons, mem_frameExps]
    exact ⟨by decide, fun e ⟨⟨v, _, hv⟩, hne⟩ => ⟨Nat.pos_of_ne_zero hne, hv ▸ expOf_lt v⟩⟩
  have hmin := hpos _ (List.min_mem (List.cons_ne_nil 255 (frameExps codes)))
  have hmax : (frameExps codes).foldl max 0 ∈ 0 :: frameExps codes := List.max_mem (List.cons_ne_nil 0 (frameExps codes))
  refine ⟨hmin.1, hmin.2, ?_, fun e he => ⟨List.min_le_of_mem (List.mem_cons_of_mem 255 he),
    List.le_max_of_mem (List.mem_cons_of_mem 0 he)⟩⟩
  rcases List.mem_cons.mp hmax with hm | hm
  · omega
  · exact (hpos _ (List.mem_cons_of_mem _ hm)).2

/-- A frame's header has its base in a byte and a width of at most 8 bits, which holds the code of every exponent. -/
theorem framePlan_spec (codes : List Nat) :
    let p := framePlan codes
    p.1 < 256 ∧ p.2 ≤ 8 ∧ ∀ v ∈ codes, (expOf v ≠ 0 → p.1 ≤ expOf v) ∧ expCode p.1 (expOf v) < 2 ^ p.2 := by
  obtain ⟨hpos, hbase, htop, hrange⟩ := frameExps_range codes
  have hmem {v : Nat} (hv : v ∈ codes) (hne : expOf v ≠ 0) := mem_frameExps.mpr ⟨⟨v, hv, rfl⟩, hne⟩
  unfold framePlan expCode
  dsimp only
  split
  · next hempty =>
    rw [List.isEmpty_iff.mp hempty] at hmem
    have hzero {v : Nat} (hv : v ∈ codes) : expOf v = 0 :=
      Decidable.byContradiction fun hne => List.not_mem_nil (hmem hv hne)
    exact ⟨by decide, by decide, fun v hv => ⟨fun hne => absurd (hzero hv) hne, by rw [hzero hv]; decide⟩⟩
  · obtain ⟨hw, hspan⟩ := xpWidth_spec
      (span := (frameExps codes).foldl max 0 - (frameExps codes).foldl min 255 + 1) (by omega)
    refine ⟨hbase, hw, fun v hv => ⟨fun hne => (hrange _ (hmem hv hne)).1, ?_⟩⟩
    split
    · exact Nat.two_pow_pos _
    · next hne =>
      have hv' := hrange _ (hmem hv hne)
      dsimp only
      omega

theorem signMant_toNat {v : Nat} (h : v < 65536) : (signMant v).toNat = v / 32768 * 128 + v % 128 := by
  rw [signMant, BitVec.toNat_ofNat]
  omega

/-- The exponent of a code over a frame's base (R377). -/
def codeExp (base code : Nat) : Nat := if code = 0 then 0 else base + code - 1

theorem codeExp_expCode {base e : Nat} (h : e ≠ 0 → base ≤ e) : codeExp base (expCode base e) = e := by
  unfold codeExp expCode
  by_cases he : e = 0
  · rw [if_pos he, if_pos rfl, he]
  · have hle := h he
    rw [if_neg he, if_neg (Nat.succ_ne_zero _)]
    omega

/-- An element of a frame whose header gives a width of at most 8 bits (R377, R379). -/
theorem decodeElem_eq {base w : Nat} (hb : base < 256) (hw : w ≤ 8) (sm ex : Bytes) (i : Nat) :
    decodeElem (base + 256 * w) sm ex i =
      let e := codeExp base (leNat ex / 2 ^ (w * i) % 2 ^ w)
      let b := fld sm i 1
      if 255 < e then none else some (b / 128 * 32768 + e * 128 + b % 128) := by
  have hbase : (base + 256 * w) % 256 = base := by omega
  have hwidth : (base + 256 * w) / 256 % 16 = w := by omega
  unfold decodeElem
  rw [hbase, hwidth]
  exact if_neg (by rw [Bool.or_eq_true, decide_eq_true_eq, decide_eq_true_eq]; omega)

section
variable {codes : List Nat} (hlen : codes.length = 256)
include hlen

/-- The parts of a frame's bytes: its header, the signs and mantissas, and the exponents' codes. -/
theorem encodeFrame_parts :
    let fr := encodeFrame codes
    let p := framePlan codes
    fld fr 0 2 = p.1 + 256 * p.2 ∧ slice fr 2 256 = codes.map signMant
      ∧ slice fr 258 (32 * p.2) = leBytes (32 * p.2) (expPlane codes) ∧ fr.length = 258 + 32 * p.2 := by
  obtain ⟨hb, hw, -⟩ := framePlan_spec codes
  have hsm : (codes.map signMant).length = 256 := by rw [List.length_map, hlen]
  dsimp only
  rw [encodeFrame_eq]
  refine ⟨?_, slice_mid (leBytes_length ..) hsm, slice_tail ?_ (leBytes_length ..), ?_⟩
  · rw [fld, slice_head (leBytes_length ..), leNat_leBytes]
    omega
  · rw [List.length_append, leBytes_length, hsm]
  · simp only [List.length_append, leBytes_length, hsm]

/-- The exponents' codes of a frame, as its bytes hold them. -/
theorem expPlane_digit {i : Nat} (hi : i < codes.length) :
    let p := framePlan codes
    leNat (leBytes (32 * p.2) (expPlane codes)) / 2 ^ (p.2 * i) % 2 ^ p.2 = expCode p.1 (expOf codes[i]) := by
  intro p
  have hfit : ∀ d ∈ (codes.map expOf).map (expCode p.1), d < 2 ^ p.2 := by
    rw [List.map_map, List.forall_mem_map]
    exact fun v hv => ((framePlan_spec codes).2.2 v hv).2
  have hbase : 256 ^ (32 * p.2) = (2 ^ p.2) ^ 256 := by
    rw [show 256 = 2 ^ 8 from rfl, ← Nat.pow_mul, ← Nat.pow_mul]
    congr 1
    omega
  rw [leNat_leBytes, hbase, Nat.pow_mul, digit_mod_pow (hlen ▸ hi)]
  have hi' : i < ((codes.map expOf).map (expCode p.1)).length := by rwa [List.length_map, List.length_map]
  exact (ofDigits_digit hfit hi').trans (by rw [List.getElem_map, List.getElem_map])

/-- Every code is read back from its frame (R376, R377). -/
theorem decodeElem_encodeFrame {i : Nat} (hi : i < codes.length) (hv : codes[i] < 65536) :
    let p := framePlan codes
    decodeElem (p.1 + 256 * p.2) (codes.map signMant) (leBytes (32 * p.2) (expPlane codes)) i = some codes[i] := by
  obtain ⟨hb, hw, hexp⟩ := framePlan_spec codes
  have hbyte : fld (codes.map signMant) i 1 = codes[i] / 32768 * 128 + codes[i] % 128 := by
    have hi' : i < (codes.map signMant).length := by rwa [List.length_map]
    rw [fld, slice_inside hi', List.drop_eq_getElem_cons hi', List.getElem_map, ← signMant_toNat hv]
    rfl
  have hcode := codeExp_expCode (hexp _ (List.getElem_mem hi)).1
  have he := expOf_lt codes[i]
  dsimp only
  rw [decodeElem_eq hb hw, expPlane_digit hlen hi, hcode, hbyte]
  refine (if_neg (by omega)).trans (congrArg some ?_)
  unfold expOf
  omega

end

/-- Settles O37, by reading each part of the packed bytes where it was put. That the parity bytes stand after the flit's
256 is the model's choice (assumption log 86). -/
theorem formatsReadBack : Obligations.FormatsReadBack := by
  refine ⟨⟨fun f hs hv hb => ?_, fun h hx hy hz hc hl hp hj hs he => ?_, fun r hn hi => ?_⟩, fun codes hlen hc => ?_⟩
  · exact ⟨flitBytes_length hb, crcOk_flitBytes hb, flitOf_flitBytes hb hs hv, innerFlit_wireOf hs hv hb⟩
  · exact msgHdr_pack hx hy hz hc hl hp hj hs he
  · exact incRec_pack hn hi
  · intro fr w
    obtain ⟨hb, hw, -⟩ := framePlan_spec codes
    obtain ⟨hhdr, hsm, hex, hlength⟩ := encodeFrame_parts hlen
    have hwidth : w = (framePlan codes).2 := by
      dsimp only [w, fr]
      omega
    rw [hwidth]
    refine ⟨hw, hlength, fun i hi => ?_⟩
    have hi' : i < codes.length := by omega
    rw [hhdr, hsm, hex, decodeElem_encodeFrame hlen hi' (hc _ (List.getElem_mem hi')), List.getElem?_eq_getElem]

end Sys2Proof.Machine
end

section
/-! What accesses to HBM leave at the controllers and on the fault wires: the layer that the maintenance of a stack (O26)
rests on. -/

namespace Sys2Proof.Machine

theorem State.stackAt_modStack_self (s : State) (k : Nat) (f : StackSt → StackSt) :
    (s.modStack k f).stackAt k = f (s.stackAt k) := tget_tmod_self ..

/-- A controller's band, its rise due and the requests that wait at it. -/
def StackSt.orders (x : StackSt) : Band × Option (Band × Nat) × List QueuedReq × List QueuedReq :=
  (x.band, x.due, x.queue, x.ports)

/-- A controller's band and its rise due. -/
def StackSt.duty (x : StackSt) : Band × Option (Band × Nat) := (x.band, x.due)

/-- From `s` to `t` every controller keeps what `f` gives of it, and no report leaves the fault wires. -/
structure CtrlKept {α : Type} (f : StackSt → α) (s t : State) : Prop where
  ctrl : ∀ k, f (t.stackAt k) = f (s.stackAt k)
  wires : s.flt.wires ⊆ t.flt.wires

section
variable {α : Type} {f : StackSt → α} {s t u : State}

theorem CtrlKept.refl (s : State) : CtrlKept f s s := ⟨fun _ => rfl, List.Subset.refl _⟩

theorem CtrlKept.trans (h : CtrlKept f s t) (h' : CtrlKept f t u) : CtrlKept f s u :=
  ⟨fun k => (h'.ctrl k).trans (h.ctrl k), List.Subset.trans h.wires h'.wires⟩

theorem CtrlKept.setMem (h : CtrlKept f s t) (m : MemSt) : CtrlKept f s { t with mem := m } := ⟨h.ctrl, h.wires⟩

theorem CtrlKept.wire (h : CtrlKept f s t) (r : FaultReport) : CtrlKept f s (t.wire r) :=
  ⟨h.ctrl, List.Subset.trans h.wires (List.subset_append_left ..)⟩

theorem CtrlKept.modStack (h : CtrlKept f s t) (k : Nat) {g : StackSt → StackSt}
    (hg : ∀ x, f (g x) = f x := by exact fun _ => rfl) : CtrlKept f s (t.modStack k g) where
  ctrl j := by
    rw [State.stackAt_modStack, ← h.ctrl]
    split
    · next hj => rw [hj, hg]
    · rfl
  wires := h.wires

theorem CtrlKept.foldl {β : Type} {op : State → β → State} (h : CtrlKept f s t)
    (hop : ∀ t b, CtrlKept f t (op t b)) (l : List β) : CtrlKept f s (l.foldl op t) :=
  List.foldlRecOn l op (motive := CtrlKept f s) h fun _ hu b _ => hu.trans (hop _ b)

theorem CtrlKept.duty (h : CtrlKept StackSt.orders s t) : CtrlKept StackSt.duty s t :=
  ⟨fun k => congrArg (fun o => (o.1, o.2.1)) (h.ctrl k), h.wires⟩

end

/-! ## Lines and requests (R316, R317, R333-R336, R344) -/

section
variable (s : State) (k line a : Nat) (n : Option (BitVec 64)) (bs : Bytes)

theorem State.ctrlKept_laneError (lane i : Nat) : CtrlKept StackSt.orders s (s.laneError k lane i) := by
  unfold State.laneError
  dsimp only
  split
  · exact .wire (.modStack (.refl s) k) _
  · exact .modStack (.refl s) k

theorem State.ctrlKept_lineBad (scrub : Bool) : CtrlKept StackSt.orders s (s.lineBad line n scrub) := by
  unfold State.lineBad
  exact .wire (.modStack (.refl s) _) _

theorem State.ctrlKept_readLine (scrub : Bool) : CtrlKept StackSt.orders s (s.readLine line n scrub).1 := by
  unfold State.readLine
  dsimp only
  split
  · exact .refl s
  · refine .trans ?_ (State.ctrlKept_laneError ..)
    exact .modStack (.setMem (.refl s) _) _
  · exact s.ctrlKept_lineBad line n scrub

theorem State.ctrlKept_hbmLines (scrub : Bool) (ls : List Nat) :
    CtrlKept StackSt.orders s (s.hbmLines n scrub ls).1 := by
  induction ls generalizing s with
  | nil => exact .refl s
  | cons l ls ih => exact (s.ctrlKept_readLine l n scrub).trans (ih _)

theorem State.ctrlKept_hbmWriteLine (off : Nat) : CtrlKept StackSt.orders s (s.hbmWriteLine n line off bs) := by
  have hread := s.ctrlKept_readLine line n false
  unfold State.hbmWriteLine
  dsimp only
  split
  · exact (CtrlKept.refl s).setMem _
  · split
    · exact hread
    · exact hread.setMem _

theorem State.ctrlKept_hbmWriteGo (fuel : Nat) : CtrlKept StackSt.orders s (s.hbmWriteGo n fuel a bs) := by
  induction fuel generalizing s a bs with
  | zero => exact .refl s
  | succ fuel ih =>
    rw [State.hbmWriteGo]
    split
    · exact .refl s
    · exact (s.ctrlKept_hbmWriteLine ..).trans (ih ..)

theorem State.ctrlKept_doReq (r : HbmReq) : CtrlKept StackSt.orders s (s.doReq k r) := by
  have hmem := (CtrlKept.refl (f := StackSt.orders) s).setMem (corrupt s.mem (r.addr.toNat / 64) r.err)
  unfold State.doReq
  dsimp only
  split
  · exact hmem.trans (State.ctrlKept_hbmWriteGo ..)
  · exact .modStack (hmem.trans (State.ctrlKept_hbmLines ..)) _

theorem State.ctrlKept_perform (qs : List QueuedReq) : CtrlKept StackSt.orders s (s.perform k qs) :=
  (CtrlKept.refl s).foldl (fun t (q : QueuedReq) => t.ctrlKept_doReq k q.req) qs

/-! ## Slots and ports (R350, R351, R381, R395): requests come and go, and bands stay -/

theorem State.dutyKept_takeReq (q : QueuedReq) : CtrlKept StackSt.duty s (s.takeReq k q) := by
  unfold State.takeReq
  dsimp only
  split
  · exact .modStack (.refl s) k
  · split
    · exact .modStack (.refl s) k
    · split
      · refine .trans (.trans ?_ (State.ctrlKept_perform ..).duty) (State.ctrlKept_doReq ..).duty
        exact .modStack (.refl s) k
      · exact (s.ctrlKept_doReq ..).duty

theorem State.dutyKept_refill : CtrlKept StackSt.duty s (s.refill k) :=
  .foldl (.modStack (.refl s) k) (fun t q => t.dutyKept_takeReq k q) _

theorem State.dutyKept_resumeReqs : CtrlKept StackSt.duty s (s.resumeReqs k) := by
  refine .trans ?_ (State.dutyKept_refill ..)
  exact .foldl (.modStack (.refl s) k) (fun t q => t.dutyKept_takeReq k q) _

/-- Where no request waits at a port, no slot is filled. -/
theorem State.refill_no_ports {s : State} {k : Nat} (h : (s.stackAt k).ports = []) :
    s.refill k = s.modStack k fun t => { t with ports := [] } := by
  rw [State.refill, h]
  rfl

theorem State.stackAt_drainReqs : ((s.drainReqs k).stackAt k).orders = { s.stackAt k with queue := [] }.orders := by
  rw [State.drainReqs, (State.ctrlKept_perform ..).ctrl, State.stackAt_modStack_self]

end

end Sys2Proof.Machine
end

section
/-! The maintenance of a stack (O26): requests that age, patrol chunks and temperature bands. -/

namespace Sys2Proof.Machine

section
variable {s : State} {k : Fin 16} (hk : k.val < s.stacks)

/-! ## Requests that age (R382, R395) -/

theorem State.ageReq_idle {k : Nat} (h : (s.stackAt k).queue = [] ∨ s.serves k = false) : s.ageReq k = s := by
  unfold State.ageReq
  split
  · next hq =>
    rw [hq] at h
    rw [h.resolve_left (List.cons_ne_nil _ _)]
    rfl
  · rfl

theorem State.ageReq_serves {k : Nat} {q : QueuedReq} {rest : List QueuedReq} (hq : (s.stackAt k).queue = q :: rest)
    (hs : s.serves k = true) :
    s.ageReq k = ((s.modStack k fun t => { t with queue := rest }).doReq k q.req).refill k := by
  unfold State.ageReq
  rw [hq]
  exact if_pos hs

/-! ## Patrol scrub (R337-R340) -/

/-- A chunk of which every line is whole moves the position on and changes nothing else. -/
theorem State.scrubNow_whole (hw : s.mem.ecc = []) (k : Nat) :
    s.scrubNow k [] = s.modStack k fun t =>
      { t with chunk := t.chunk + 1, scrubDue := false, scrubNext := max (t.scrubNext + s.scrubInterval k) s.stb.ticks,
               passes := if t.chunk = BitVec.allOnes 25 then t.passes + 1 else t.passes } := by
  have hread (a : Nat) : (s.hbmLines none true (linesOf a 2048)).1 = s := by
    obtain ⟨ds, hds⟩ := State.hbmLines_whole hw none true (a / 64) ((a % 64 + 2048 + 63) / 64)
    rw [linesOf, if_neg (by decide), hds]
  exact congrArg (fun u : State => u.modStack k _) (hread _)

section
include hk

theorem exec_prefetchAging : exec (.prefetchAging k) s = .next (s.ageReq k.val) := guardUnit_eq (decide_eq_true hk)

theorem exec_stackRequestRelease : exec (.boundedResourceRelease (.stackRequest k)) s = .next (s.ageReq k.val) :=
  guardUnit_eq (decide_eq_true hk)

theorem exec_scrubChunk (es : List SymErr) : exec (.scrubChunk k es) s =
    if !s.serves k.val || decide (s.stb.ticks < (s.stackAt k.val).scrubNext) then .next s
    else if !(s.stackAt k.val).queue.isEmpty then .next (s.modStack k.val fun t => { t with scrubDue := true })
    else .next (s.scrubNow k.val es) := guardUnit_eq (decide_eq_true hk)

theorem exec_scrubChunk_early (es : List SymErr)
    (h : s.serves k.val = false ∨ s.stb.ticks < (s.stackAt k.val).scrubNext) :
    exec (.scrubChunk k es) s = .next s := by
  rw [exec_scrubChunk hk, if_pos]
  rwa [Bool.or_eq_true, Bool.not_eq_true', decide_eq_true_eq]

theorem exec_scrubChunk_due (es : List SymErr) (hs : s.serves k.val = true)
    (ht : (s.stackAt k.val).scrubNext ≤ s.stb.ticks) : exec (.scrubChunk k es) s =
    if !(s.stackAt k.val).queue.isEmpty then .next (s.modStack k.val fun t => { t with scrubDue := true })
    else .next (s.scrubNow k.val es) := by
  rw [exec_scrubChunk hk, hs, decide_eq_false (Nat.not_lt.mpr ht)]
  exact if_neg Bool.false_ne_true

theorem exec_scrubYieldExpire (es : List SymErr) : exec (.scrubYieldExpire k es) s =
    if s.serves k.val && (s.stackAt k.val).scrubDue then .next (s.scrubNow k.val es) else .next s :=
  guardUnit_eq (decide_eq_true hk)

theorem exec_scrubYieldExpire_idle (es : List SymErr)
    (h : s.serves k.val = false ∨ (s.stackAt k.val).scrubDue = false) :
    exec (.scrubYieldExpire k es) s = .next s := by
  rw [exec_scrubYieldExpire hk, Bool.and_eq_false_iff.mpr h]
  exact if_neg Bool.false_ne_true

theorem exec_scrubYieldExpire_due (es : List SymErr) (hs : s.serves k.val = true)
    (hd : (s.stackAt k.val).scrubDue = true) : exec (.scrubYieldExpire k es) s = .next (s.scrubNow k.val es) := by
  rw [exec_scrubYieldExpire hk, hs, hd]
  exact if_pos rfl

theorem exec_stackBandChange_due {b : Band} {since : Nat} (h : (s.stackAt k.val).due = some (b, since)) :
    exec (.stackBandChange k) s = .next (s.toBand k.val b) := by
  refine (guardUnit_eq (decide_eq_true hk)).trans ?_
  rw [h]

theorem exec_stackBandChange_falls {c : Nat} (hd : (s.stackAt k.val).due = none)
    (hc : (s.stackAt k.val).coolSince = some c) (ht : c + 1000000 ≤ s.stb.ticks) :
    exec (.stackBandChange k) s = .next (s.toBand k.val (s.stackAt k.val).band.fall.2) := by
  refine (guardUnit_eq (decide_eq_true hk)).trans ?_
  rw [hd, hc]
  exact if_pos ht

theorem exec_stackBandChange_idle (hd : (s.stackAt k.val).due = none) (hc : (s.stackAt k.val).coolSince = none) :
    exec (.stackBandChange k) s = .next s := by
  refine (guardUnit_eq (decide_eq_true hk)).trans ?_
  rw [hd, hc]

end

end

/-! ## Samples of temperature (R346, R348, R744, R747, R748) -/

section
variable (s : State) (i : Nat) (p : PairReading)

/-- Whether a pair's sensors differ is kept in the PMC and in the fault logic. -/
theorem State.track_eq (differ : Bool) : ∃ pm fl, s.track i differ = { s with pmc := pm, flt := fl } := by
  unfold State.track
  dsimp only
  split
  · exact ⟨_, _, rfl⟩
  · split
    · exact ⟨_, _, rfl⟩
    · exact ⟨_, _, rfl⟩

theorem State.setPair_eq : ∃ pm fl, s.setPair i p = { s with pmc := pm, flt := fl } := by
  obtain ⟨pm, fl, h⟩ := s.track_eq i (pairDiffers p)
  unfold State.setPair
  rw [h]
  exact ⟨_, _, rfl⟩

theorem State.pairAt_setPair_self : (s.setPair i p).pairAt i = p := by
  unfold State.setPair State.pairAt
  dsimp only
  rw [List.getD_eq_getElem?_getD, List.getElem?_set_self, Option.getD_some]
  split
  · rw [List.length_append, List.length_replicate]
    omega
  · omega

end

theorem exec_stackTempSample {s : State} {k : Fin 16} (hk : k.val < s.stacks) (p : PairReading) : ∃ pm fl,
    exec (.stackTempSample k p) s = .next (({ s with pmc := pm, flt := fl } : State).modStack k.val fun t =>
      t.sample (ctrlReading p) s.stb.ticks) ∧ ({ s with pmc := pm, flt := fl } : State).pairAt (53 + k.val) = p := by
  obtain ⟨pm, fl, h⟩ := s.setPair_eq (53 + k.val) p
  refine ⟨pm, fl, ?_, ?_⟩
  · rw [← h]
    exact guardUnit_eq (decide_eq_true hk)
  · rw [← h, State.pairAt_setPair_self]

theorem StackSt.due_sample {x : StackSt} (h : x.due = none) (t : Int) (now : Nat) : (x.sample t now).due =
    if x.band.rank < (bandOf t).rank then some (bandOf t, now) else none := by
  simp only [StackSt.sample, h]

theorem StackSt.sample_due {x : StackSt} (h : x.due = none) (t : Int) (now : Nat) :
    (x.sample t now).due.isSome ↔ x.band.rank < (bandOf t).rank := by
  rw [StackSt.due_sample h]
  by_cases hr : x.band.rank < (bandOf t).rank
  · rw [if_pos hr]
    exact ⟨fun _ => hr, fun _ => rfl⟩
  · rw [if_neg hr]
    exact ⟨fun h => absurd h Bool.false_ne_true, fun h => absurd h hr⟩

/-! ## Temperature bands (R346-R351) -/

section
variable (s : State) (k : Nat) (b : Band)

/-- The package with a stack in a band, with no change of it due. -/
def State.inBand : State := s.modStack k fun t => { t with band := b, due := none, coolSince := none }

/-- The report of a stack's shutdown (R350). -/
def shutdownReport : FaultReport := mkReportAll 8 3 (BitVec.ofNat 32 (k + 16 * 0xFFF)) 0

theorem State.toBand_shutdown : s.toBand k .shutdown =
    (((s.drainReqs k).inBand k .shutdown).wire (shutdownReport k)).refill k := rfl

variable {b} in
theorem State.toBand_serving (h : b ≠ .shutdown) : s.toBand k b =
    if (s.stackAt k).band = .shutdown then (s.inBand k b).resumeReqs k else s.inBand k b := by
  unfold State.toBand
  simp only [if_neg h]
  rfl

theorem State.stackAt_inBand : (s.inBand k b).stackAt k =
    { s.stackAt k with band := b, due := none, coolSince := none } := by
  rw [State.inBand, State.stackAt_modStack_self]

theorem State.duty_inBand : ((s.inBand k b).stackAt k).duty = (b, none) := by
  rw [State.stackAt_inBand]
  rfl

theorem State.stackAt_wire (r : FaultReport) : (s.wire r).stackAt k = s.stackAt k := rfl

theorem State.duty_toBand : ((s.toBand k b).stackAt k).duty = (b, none) := by
  by_cases hb : b = .shutdown
  · rw [hb, State.toBand_shutdown, (State.dutyKept_refill ..).ctrl, State.stackAt_wire, State.duty_inBand]
  · rw [State.toBand_serving _ _ hb]
    split
    · rw [(State.dutyKept_resumeReqs ..).ctrl, State.duty_inBand]
    · exact State.duty_inBand ..

theorem State.band_toBand : ((s.toBand k b).stackAt k).band = b := congrArg Prod.fst (s.duty_toBand k b)

theorem State.due_toBand : ((s.toBand k b).stackAt k).due = none := congrArg Prod.snd (s.duty_toBand k b)

theorem State.shutdownReport_mem : shutdownReport k ∈ (s.toBand k .shutdown).flt.wires := by
  rw [State.toBand_shutdown]
  exact (State.dutyKept_refill ..).wires (List.mem_append_right _ List.mem_cons_self)

variable {k} in
/-- A stack that shuts down performs what waits in its slots, and nothing else where no request waits at a port. -/
theorem State.toBand_shutdown_no_ports (h : (s.stackAt k).ports = []) :
    ((s.toBand k .shutdown).stackAt k).queue = [] ∧ (s.toBand k .shutdown).mem = (s.drainReqs k).mem := by
  have hd := s.stackAt_drainReqs k
  have hqueue : ((s.drainReqs k).stackAt k).queue = [] := congrArg (fun o => o.2.2.1) hd
  have hports : ((s.drainReqs k).stackAt k).ports = [] := (congrArg (fun o => o.2.2.2) hd).trans h
  have hin := ((s.drainReqs k).inBand k .shutdown).stackAt_wire k (shutdownReport k)
  rw [State.stackAt_inBand] at hin
  rw [State.toBand_shutdown, State.refill_no_ports (by rw [hin]; exact hports), State.stackAt_modStack_self, hin]
  exact ⟨hqueue, rfl⟩

end

/-- Settles O26, by the cases of each command and by what accesses to HBM leave at the controllers. The band that
follows in a fall, that requests wait in slots and at ports in this order, and when the next chunk is due are the model's
choice (assumption logs 39, 40 and 73). -/
theorem stackMaintenance : Obligations.StackMaintenance := by
  refine ⟨fun s k hk => ⟨?_, fun h => ?_, fun q rest hq hs => ?_, fun es h => ?_, fun es hs ht hq => ?_, fun es h => ?_,
    fun hs hw => ?_⟩, fun s k hk => ⟨fun p => ?_, fun b since h => ?_,
    fun c hd hc ht => ?_, fun hd hc => ?_⟩⟩
  · rw [exec_stackRequestRelease hk, exec_prefetchAging hk]
  · rw [exec_prefetchAging hk, State.ageReq_idle h]
  · rw [exec_prefetchAging hk, State.ageReq_serves hq hs]
  · exact exec_scrubChunk_early hk es h
  · rw [exec_scrubChunk_due hk es hs ht, List.isEmpty_eq_false_iff.mpr hq]
    exact if_pos rfl
  · exact exec_scrubYieldExpire_idle hk es h
  · rw [← State.scrubNow_whole hw]
    refine ⟨fun ht hq => ?_, exec_scrubYieldExpire_due hk [] hs⟩
    rw [exec_scrubChunk_due hk [] hs ht, hq]
    exact if_neg Bool.false_ne_true
  · obtain ⟨pm, fl, hexec, hpair⟩ := exec_stackTempSample hk p
    refine ⟨_, hexec, ?_, ?_, hpair, fun hd => ?_, rfl⟩
    · exact congrArg StackSt.temp (State.stackAt_modStack_self ..)
    · rw [State.stackAt_modStack_self]
      rfl
    · rw [State.stackAt_modStack_self]
      exact StackSt.sample_due hd ..
  · refine ⟨_, exec_stackBandChange_due hk h, s.band_toBand k.val b, s.due_toBand k.val b, ?_⟩
    rintro rfl
    exact ⟨s.toBand_shutdown_no_ports, s.shutdownReport_mem k.val⟩
  · exact ⟨_, exec_stackBandChange_falls hk hd hc ht, s.band_toBand k.val _⟩
  · exact exec_stackBandChange_idle hk hd hc

end Sys2Proof.Machine
end

section
/-! X_ARRIVE (O18): arrivals that fit their counter, arrivals that overflow it, and the issue of the op. -/

namespace Sys2Proof.Machine

/-! ## Arrivals (R402, R407) -/

section
variable (s : State) (scope die core index : Nat) (n : BitVec 64) (inc : Nat)

/-- The unit that holds a crossing: its die, or Town Hall (R404). -/
def xHolder (scope die : Nat) : Nat := if scope ≤ 1 then die else 4

variable {s scope die core index n inc} in
/-- An arrival that fits its counter changes nothing but the crossings. -/
theorem State.arrive_fits (h : (s.xVal scope die core index n).toNat + inc ≤ 65535) :
    s.arrive scope die core index n inc =
      { s with sync := { s.sync with xcnt := (s.arrive scope die core index n inc).sync.xcnt } } := by
  have hfits : s.arrive scope die core index n inc = _ := if_pos h
  rw [hfits]

variable {s scope die core index n inc} in
/-- An arrival that would pass 65,535 also sets OVF at the holder and puts a report on the wires (R407). -/
theorem State.arrive_overflows (h : 65535 < (s.xVal scope die core index n).toNat + inc) :
    s.arrive scope die core index n inc =
      (({ s with sync := { s.sync with xcnt := (s.arrive scope die core index n inc).sync.xcnt } } : State).modXs
        (xHolder scope die) fun x => { x with ovf := true }).wire
          (mkReport 6 8 (xLocus scope die core index) n 0) := by
  have hover : s.arrive scope die core index n inc = _ := if_neg (Nat.not_le.mpr h)
  rw [hover]
  rfl

/-- Of the registers of synchronisation an arrival touches the crossings and their units' status. -/
theorem State.arrive_sync : (s.arrive scope die core index n inc).sync =
    { s.sync with xcnt := (s.arrive scope die core index n inc).sync.xcnt,
                  xs := (s.arrive scope die core index n inc).sync.xs } := by
  rcases Nat.lt_or_ge 65535 ((s.xVal scope die core index n).toNat + inc) with h | h
  · rw [State.arrive_overflows h]
    rfl
  · rw [State.arrive_fits h]

theorem State.tget_arrive_other {j : Nat} (hj : j ≠ xKey scope die core index (bankOf n)) :
    tget 0#16 (s.arrive scope die core index n inc).sync.xcnt j = tget 0#16 s.sync.xcnt j := by
  unfold State.arrive
  dsimp only
  split
  · exact tget_tset_other (0#16) s.sync.xcnt _ hj
  · exact tget_tset_other (0#16) s.sync.xcnt 0xFFFF#16 hj

/-- An arrival sets no flag of a unit but OVF. -/
theorem State.late_arrive (u : Nat) :
    ((s.arrive scope die core index n inc).xsAt u).late = (s.xsAt u).late := by
  rcases Nat.lt_or_ge 65535 ((s.xVal scope die core index n).toNat + inc) with h | h
  · rw [State.arrive_overflows h]
    change ((State.modXs _ _ _).xsAt u).late = _
    rw [State.xsAt_modXs]
    split
    · next hu => rw [hu]; rfl
    · rfl
  · rw [State.arrive_fits h]
    rfl

end

/-! ## The issue of X_ARRIVE (R304, R404, R415) -/

/-- The package after the effect of an X_ARRIVE: the arrival, or the record that leaves or is judged. -/
def State.arriveOp (s : State) (f : ArriveF) (n : BitVec 64) : State :=
  if f.scope.toNat = 3 then s.sendRec f n
  else s.arrive f.scope.toNat f.die.toNat f.core.toNat f.index.toNat n f.n.toNat

section
variable {s : State} {c : CoreRef} {h : OpHdr} {f : ArriveF} {n : BitVec 64}

theorem exec_xArrive (m : MayIssue s (engOf c .sync) (.xArrive c h f) h n)
    (hd : f.scope.toNat ≤ 1 → f.die.toNat < s.dies) : exec (.xArrive c h f) s =
      issue s (engOf c .sync) (.xArrive c h f) h noObs
        (fun _ _ => f.scope.toNat != 3 || s.recRoom ⟨f.x.toNat, f.y.toNat, f.z.toNat⟩)
        fun u r n => (u.arriveOp f n, r, issuedOp 0x40 h n) := by
  refine guardUnit_eq (Bool.and_eq_true_iff.mpr ⟨decide_eq_true m.present, Bool.or_eq_true_iff.mpr ?_⟩)
  rw [decide_eq_true_iff, decide_eq_true_iff]
  exact (Nat.lt_or_ge 1 f.scope.toNat).imp_right hd

theorem exec_xArrive_goes (m : MayIssue s (engOf c .sync) (.xArrive c h f) h n)
    (hd : f.scope.toNat ≤ 1 → f.die.toNat < s.dies)
    (hr : (f.scope.toNat != 3 || s.recRoom ⟨f.x.toNat, f.y.toNat, f.z.toNat⟩) = true) :
    exec (.xArrive c h f) s = .next ((s.arriveOp f n).setEng (engOf c .sync)
      ((s.engAt (engOf c .sync)).push 1 (issuedOp 0x40 h n))) := by
  rw [exec_xArrive m hd, issue_eq m hr, State.issuedSeen_reads_nothing fun _ _ => rfl]
  rfl

end

/-- Settles O18, by what an arrival does with a sum that fits and with one that does not. That a record with SCOPE 3 for
this package is judged here is the model's choice (assumption log 36). -/
theorem arriveCountsAndSaturates : Obligations.ArriveCountsAndSaturates := by
  intro s c h f n m
  refine ⟨fun hs hd => ?_, fun hs => ?_⟩
  · have hne : f.scope.toNat ≠ 3 := fun e => hs (BitVec.eq_of_toNat_eq e)
    have hgoes := exec_xArrive_goes m hd (Bool.or_eq_true_iff.mpr (.inl (bne_iff_ne.mpr hne)))
    rw [State.arriveOp, if_neg hne] at hgoes
    refine ⟨_, hgoes, State.xVal_arrive .., fun j => State.tget_arrive_other s _ _ _ _ n _, State.arrive_fits,
      fun hover => ?_⟩
    rw [State.arrive_overflows hover]
    exact ⟨congrArg XsSt.ovf ((State.xsAt_modXs ..).trans (if_pos rfl)), rfl, rfl⟩
  · have hd : f.scope.toNat ≤ 1 → f.die.toNat < s.dies := by
      rw [hs]
      exact fun h1 => absurd h1 (by decide)
    have hout : s.arriveOp f n = s.sendRec f n := if_pos (congrArg BitVec.toNat hs)
    rw [← hout]
    refine ⟨fun hr => exec_xArrive_goes m hd (Bool.or_eq_true_iff.mpr (.inr hr)), fun hr => ?_⟩
    rw [exec_xArrive m hd]
    refine issue_waits m (Bool.or_eq_false_iff.mpr ⟨?_, hr⟩)
    rw [hs]
    rfl

end Sys2Proof.Machine
end

section
/-! Increment records (O33): what a record settles to, whether it comes from a link or was held. -/

namespace Sys2Proof.Machine

/-! ## The outcomes of a record that no message carries (R413, R418) -/

section
variable {s : State} {h : HeldRec} (hb : h.buf = none)
include hb

/-- A record without a buffer frees none. -/
theorem State.settleRec_no_buffer : s.settleRec h = match s.judgeRec (incRec h.record) with
    | .apply => s.arrive 2 0 0 (incRec h.record).index (incRec h.record).step (incRec h.record).n
    | .stray => s.modXs 4 fun x => { x with stray := true }
    | .discard => s
    | .hold => s := by
  rw [State.settleRec, hb]
  rfl

theorem State.settleRec_apply (hj : s.judgeRec (incRec h.record) = .apply) :
    s.settleRec h = s.arrive 2 0 0 (incRec h.record).index (incRec h.record).step (incRec h.record).n := by
  rw [State.settleRec_no_buffer hb, hj]

theorem State.settleRec_stray (hj : s.judgeRec (incRec h.record) = .stray) :
    s.settleRec h = s.modXs 4 fun x => { x with stray := true } := by
  rw [State.settleRec_no_buffer hb, hj]

theorem State.settleRec_discard (hj : s.judgeRec (incRec h.record) = .discard) : s.settleRec h = s := by
  rw [State.settleRec_no_buffer hb, hj]

end

/-- The package with these held records. -/
def State.withHeld (s : State) (l : List HeldRec) : State := { s with sync := { s.sync with held := l } }

/-- A command that settles record `h`, with the held records that it leaves, does with it what R418 decides. -/
theorem settles_of_exec {s : State} {i : Instr} {h : HeldRec} {l : List HeldRec} (hb : h.buf = none)
    (he : s.judgeRec (incRec h.record) ≠ .hold → exec i s = .next ((s.withHeld l).settleRec h)) :
    (s.judgeRec (incRec h.record) = .apply → Does i s fun t =>
      (t.xVal 2 0 0 (incRec h.record).index (incRec h.record).step).toNat =
        min 65535 ((s.xVal 2 0 0 (incRec h.record).index (incRec h.record).step).toNat + (incRec h.record).n)
      ∧ t.sync.held = l ∧ t.mem = s.mem ∧ t.ctx = s.ctx)
    ∧ (s.judgeRec (incRec h.record) = .stray → Does i s fun t =>
      (t.xsAt 4).stray = true ∧ t.sync.xcnt = s.sync.xcnt ∧ t.sync.held = l)
    ∧ (s.judgeRec (incRec h.record) = .discard → Does i s fun t => t.sync.xcnt = s.sync.xcnt ∧ t.sync.held = l) := by
  have hjudge : (s.withHeld l).judgeRec (incRec h.record) = s.judgeRec (incRec h.record) := rfl
  refine ⟨fun hj => ⟨_, he (by simp [hj]), ?_⟩, fun hj => ⟨_, he (by simp [hj]), ?_⟩,
    fun hj => ⟨_, he (by simp [hj]), ?_⟩⟩
  · rw [State.settleRec_apply hb (hjudge.trans hj)]
    refine ⟨State.xVal_arrive .., ?_, ?_, ?_⟩
    · rw [State.arrive_sync]
      rfl
    · rw [State.arrive_eq]
      rfl
    · rw [State.arrive_eq]
      rfl
  · rw [State.settleRec_stray hb (hjudge.trans hj)]
    exact ⟨congrArg XsSt.stray ((State.xsAt_modXs ..).trans (if_pos rfl)), rfl, rfl⟩
  · rw [State.settleRec_discard hb (hjudge.trans hj)]
    exact ⟨rfl, rfl⟩

/-! ## INCREMENT_RECORD and HELD_RECORD_APPLY (R413, R418, R419) -/

section
variable {s : State}

theorem State.takeRec_hold {h : HeldRec} (hj : s.judgeRec (incRec h.record) = .hold) :
    s.takeRec h = s.withHeld (s.sync.held ++ [h]) := if_pos hj

theorem State.takeRec_settles {h : HeldRec} (hj : s.judgeRec (incRec h.record) ≠ .hold) :
    s.takeRec h = s.settleRec h := if_neg hj

/-- A record that no message carries occupies no buffer. -/
def unsent (b : BitVec 128) : HeldRec := { record := b, link := 0, buf := none }

theorem exec_incrementRecord_unsent {b : BitVec 128}
    (h : s.net.delivered.find? (fun d => d.vc == 1 && BitVec.ofNat 128 (fld d.payload 0 16) == b) = none) :
    exec (.incrementRecord b) s = .next (s.takeRec (unsent b)) := by
  dsimp only [exec, execIncrementRecord]
  rw [h]
  rfl

/-- Abort messages that are held lie under link 24. -/
theorem State.heldAborts_none (h : ∀ q ∈ s.net.delivered, q.link ≠ 24) : s.heldAborts = s := by
  have hnil : s.net.delivered.filter (fun r => r.link == 24) = [] :=
    List.filter_eq_nil_iff.mpr fun q hq => by simpa using h q hq
  unfold State.heldAborts
  rw [hnil]
  split <;> rfl

theorem exec_heldRecordApply_oldest {h : HeldRec} (hd : ∀ q ∈ s.net.delivered, q.link ≠ 24)
    (hf : s.sync.held.find? (fun h => s.judgeRec (incRec h.record) != .hold) = some h) :
    exec .heldRecordApply s = .next ((s.withHeld (s.sync.held.erase h)).settleRec h) := by
  dsimp only [exec, execHeldRecordApply]
  rw [State.heldAborts_none hd, hf]
  rfl

theorem exec_heldRecordApply_none (hd : ∀ q ∈ s.net.delivered, q.link ≠ 24)
    (hf : s.sync.held.find? (fun h => s.judgeRec (incRec h.record) != .hold) = none) :
    exec .heldRecordApply s = .next s := by
  dsimp only [exec, execHeldRecordApply]
  rw [State.heldAborts_none hd, hf]

end

/-- Settles O33, by the outcomes of a record that settles, for a record that arrives and for one that was held. That
HELD_RECORD_APPLY takes one held record at a time, the oldest that need wait no more, is the model's choice (assumption
log 28). -/
theorem incrementRecordsAreJudged : Obligations.IncrementRecordsAreJudged := by
  intro s b
  refine ⟨fun hd => ⟨?_, fun hj => ?_⟩, fun hd => ⟨?_, fun hf => exec_heldRecordApply_none hd hf⟩⟩
  · refine settles_of_exec (h := unsent b) rfl fun hj => ?_
    rw [exec_incrementRecord_unsent hd, State.takeRec_settles hj]
    rfl
  · rw [exec_incrementRecord_unsent hd, State.takeRec_hold (h := unsent b) hj]
    rfl
  · rintro h hf rfl hb
    exact settles_of_exec hb fun _ => exec_heldRecordApply_oldest hd hf

end Sys2Proof.Machine
end

section
/-! WATCHDOG_EXPIRE and COLLECTIVE_TIMEOUT (O21): what a wait and an op slot that run out leave. -/

namespace Sys2Proof.Machine

/-! ## Waits that outlive their watchdog (R421-R425, R455) -/

/-- The package after a hang of a wait is recorded (R424): by the engine's die, and for a package crossing by Town Hall
too. -/
def State.recordHang (s : State) (e : EngRef) (w : WaitSt) (log : BitVec 64) : State :=
  let u := s.modXs e.die.val (·.hangs log)
  if w.scope = 2 then u.modXs 4 (·.hangs log) else u

section
variable (s : State) (e : EngRef) (w : WaitSt) (log : BitVec 64)

theorem State.recordHang_eq :
    s.recordHang e w log = { s with sync := { s.sync with xs := (s.recordHang e w log).sync.xs } } := by
  unfold State.recordHang
  split <;> rfl

theorem State.xsAt_recordHang_die : (s.recordHang e w log).xsAt e.die.val = (s.xsAt e.die.val).hangs log := by
  have hdie : e.die.val ≠ 4 := Nat.ne_of_lt e.die.isLt
  unfold State.recordHang
  split
  · rw [State.xsAt_modXs, if_neg hdie, State.xsAt_modXs, if_pos rfl]
  · rw [State.xsAt_modXs, if_pos rfl]

variable {w} in
theorem State.xsAt_recordHang_townHall (h : w.scope = 2) :
    (s.recordHang e w log).xsAt 4 = (s.xsAt 4).hangs log := by
  have hdie : 4 ≠ e.die.val := (Nat.ne_of_lt e.die.isLt).symm
  rw [State.recordHang, if_pos h, State.xsAt_modXs, if_pos rfl, State.xsAt_modXs, if_neg hdie]

end

/-- The log of the hang of a wait of engine `e` (R455). -/
def State.hangLogOf (s : State) (e : EngRef) (w : WaitSt) : BitVec 64 :=
  hangLog e w (tget 0#16 s.sync.xcnt (xKey w.scope w.die w.core w.index w.bank))

/-- The package after the watchdog of a wait has reported: the hang is on record, the watchdog starts again from 0, and
the report tags every uncommitted step (R424, R425). -/
def State.afterHang (s : State) (e : EngRef) (w : WaitSt) : State :=
  ((s.recordHang e w (s.hangLogOf e w)).setEng e
    { s.engRaw e with wait := some { w with ticks := 0, total := 0 } }).wire
      (mkReportAll 6 8 (xLocus w.scope w.die w.core w.index) 0)

theorem exec_watchdogExpire_hangs {s : State} {cfg : JobCfg} {e : EngRef} {w : WaitSt}
    (hc : s.cur.bind (fun c => c.2.cfg) = some cfg) (hd : e.die.val < s.dies) (hw : (s.engRaw e).wait = some w)
    (hk : w.kind ≠ .attime) (ho : w.ok = false) (hm : s.waitMet w = false) (hx : cfg.sync.expired w = true) :
    exec (.watchdogExpire e) s = .next (s.afterHang e w) := by
  refine (guardUnit_eq (decide_eq_true hd)).trans ?_
  rw [hw, hc]
  exact if_neg (by simp [hk, ho, hm, hx])

theorem State.afterHang_eq (s : State) (e : EngRef) (w : WaitSt) : s.afterHang e w =
    { s with sync := { s.sync with xs := (s.afterHang e w).sync.xs }, eng := (s.afterHang e w).eng,
             flt := { s.flt with wires := (s.afterHang e w).flt.wires } } := by
  unfold State.afterHang
  rw [State.recordHang_eq]
  rfl

theorem State.wires_afterHang (s : State) (e : EngRef) (w : WaitSt) :
    (s.afterHang e w).flt.wires = s.flt.wires ++ [mkReportAll 6 8 (xLocus w.scope w.die w.core w.index) 0] := by
  unfold State.afterHang
  rw [State.recordHang_eq]
  rfl

/-! ## Collectives that outlive their timer (R572-R576, R578) -/

/-- A CX with the log of an op whose timer has run out, unless it holds one. -/
def CxSt.timesOut (x : CxSt) (log : BitVec 64) : CxSt :=
  { x with timeout := true, toLog := if x.toLog.getLsbD 63 then x.toLog else log }

/-- The package after the timer of an op slot has reported: the timer starts again from 0 (R574, R576). -/
def State.afterTimeout (s : State) (die slot : Fin 4) (k : CxSlot) : State :=
  ((s.modCx die.val (·.timesOut (toLogOf k))).setSlot die.val slot.val { k with ticks := 0, total := 0 }).wire
    (mkReportAll 7 2 (unitLocus die.val 1) 0)

theorem State.cxAt_setSlot_self (s : State) (die i : Nat) (k : CxSlot) :
    (s.setSlot die i k).cxAt die = { s.cxAt die with slots := tset none (s.cxAt die).slots i (some k) } :=
  (State.cxAt_modCx ..).trans (if_pos rfl)

theorem State.cxSlot_setSlot_self (s : State) (die i : Nat) (k : CxSlot) :
    (s.setSlot die i k).cxSlot die i = some k := by
  rw [State.cxSlot, State.cxAt_setSlot_self]
  exact tget_tset_self none (s.cxAt die).slots i (some k)

section
variable {s : State} {die slot : Fin 4} {k : CxSlot}

theorem exec_collectiveTimeout_reports {cfg : JobCfg} (hc : s.cur.bind (fun c => c.2.cfg) = some cfg)
    (hd : die.val < s.dies) (hk : s.cxSlot die.val slot.val = some k) (hn : k.done = false)
    (ht : cfg.cto ≤ k.ticks ∨ 4 * cfg.cto ≤ k.total) :
    exec (.collectiveTimeout die slot) s = .next (s.afterTimeout die slot k) := by
  refine (guardUnit_eq (decide_eq_true hd)).trans ?_
  rw [hk, hc]
  refine if_neg ?_
  rw [hn]
  rintro (h | ⟨h1, h2⟩)
  · exact Bool.false_ne_true h
  · omega

/-- Besides its slots, the CX has the log of the op. -/
theorem State.cxAt_afterTimeout : (s.afterTimeout die slot k).cxAt die.val =
    { (s.cxAt die.val).timesOut (toLogOf k) with slots := ((s.afterTimeout die slot k).cxAt die.val).slots } := by
  have hwire (u : State) (r : FaultReport) : (u.wire r).cxAt die.val = u.cxAt die.val := rfl
  rw [State.afterTimeout, hwire, State.cxAt_setSlot_self, State.cxAt_modCx, if_pos rfl]

end

/-- Settles O21, by what a wait and an op slot that have run out leave. The rules leave open what a watchdog does once
it has reported: that it starts again from 0, as the collective timer does, is the model's choice (assumption log
30). -/
theorem watchdogsAndTimersReport : Obligations.WatchdogsAndTimersReport := by
  intro s cfg hc
  refine ⟨fun e w hd hw hk ho hm hx => ?_, fun die slot k hd hk hn ht => ?_⟩
  · have hxs (u : Nat) : (s.afterHang e w).xsAt u = (s.recordHang e w (s.hangLogOf e w)).xsAt u := rfl
    refine ⟨_, exec_watchdogExpire_hangs hc hd hw hk ho hm hx, ?_, fun h2 => ?_, ?_, fun h2 => ?_,
      s.wires_afterHang e w, congrArg EngSt.wait (State.engRaw_setEng ..), s.afterHang_eq e w⟩
    · rw [hxs, State.xsAt_recordHang_die]
      rfl
    · rw [hxs, State.xsAt_recordHang_townHall s e _ h2]
      rfl
    · rw [hxs, State.xsAt_recordHang_die]
      rfl
    · rw [hxs, State.xsAt_recordHang_townHall s e _ h2]
      rfl
  · refine ⟨_, exec_collectiveTimeout_reports hc hd hk hn ht, ?_, ?_, rfl, ?_, rfl⟩
    · rw [State.cxAt_afterTimeout]
      rfl
    · rw [State.cxAt_afterTimeout]
      rfl
    · exact State.cxSlot_setSlot_self ..

end Sys2Proof.Machine
end

section
/-! Time exchanges (O39): what each record makes of the exchange that is open, and what the servo makes of an offset. -/

namespace Sys2Proof.Machine

/-- The difference of two stamps, as two's complement of 64 bits. -/
theorem asInt_ofInt_sub (a b : BitVec 64) : asInt 64 (ofInt 64 ((a.toNat : Int) - b.toNat)) = (a - b).toInt := by
  have ha := a.isLt
  have hb := b.isLt
  have hofInt : ofInt 64 ((a.toNat : Int) - b.toNat) = (a - b).toNat := by
    rw [ofInt, BitVec.toNat_sub]
    omega
  rw [hofInt, BitVec.toInt_eq_toNat_cond, asInt, Nat.mod_eq_of_lt (a - b).isLt]
  split <;> split <;> omega

/-! ## The servo (R432, R433, R436, R437) -/

/-- The servo after an exchange has ended and the frequency of the parent has been measured (R432). -/
def StbSt.gauged (b : StbSt) (off : Int) : StbSt := ({ b with exch := none, offset := offsetReg off }).frequency off

section
variable {b : StbSt} {off : Int}

theorem StbSt.measured_locks (ha : b.st = .acquire) (hn : off.natAbs ≤ 9830) (hg : 3 ≤ b.good) :
    b.measured off = { b.gauged off with good := b.good + 1, st := .locked, corr := -off * 65536 } := by
  simp [StbSt.measured, StbSt.gauged, StbSt.frequency, ha, hn, hg]

theorem StbSt.measured_near (ha : b.st = .acquire) (hn : off.natAbs ≤ 9830) (hg : b.good < 3) :
    b.measured off = { b.gauged off with good := b.good + 1, corr := -off * 65536 } := by
  simp [StbSt.measured, StbSt.gauged, StbSt.frequency, ha, hn, hg]

theorem StbSt.measured_steps (ha : b.st = .acquire) (hn : ¬off.natAbs ≤ 9830) (hs : b.stepped = false) :
    b.measured off =
      { b.gauged off with good := 0, time := ((b.time : Int) - off).toNat, stepped := true, corr := 0 } := by
  simp [StbSt.measured, StbSt.gauged, StbSt.frequency, ha, hn, hs]

theorem StbSt.measured_far (ha : b.st = .acquire) (hn : ¬off.natAbs ≤ 9830) (hs : b.stepped = true) :
    b.measured off = { b.gauged off with good := 0, corr := -off * 65536 } := by
  simp [StbSt.measured, StbSt.gauged, StbSt.frequency, ha, hn, hs]

theorem StbSt.measured_still (h : b.st = .free ∨ b.st = .master) : b.measured off = b.gauged off := by
  rcases h with h | h <;> simp [StbSt.measured, StbSt.gauged, StbSt.frequency, h]

/-- In LOCKED the servo only sets its correction; in HOLDOVER a near offset also locks. -/
theorem StbSt.measured_slews (h : b.st = .locked ∨ b.st = .holdover) :
    ∃ st, b.measured off = { b.gauged off with st := st, corr := -off * 65536 } := by
  rcases h with h | h
  · exact ⟨b.st, by simp [StbSt.measured, StbSt.gauged, StbSt.frequency, h]⟩
  · by_cases hn : off.natAbs ≤ 9830
    · exact ⟨.locked, by simp [StbSt.measured, StbSt.gauged, StbSt.frequency, h, hn]⟩
    · exact ⟨b.st, by simp [StbSt.measured, StbSt.gauged, StbSt.frequency, h, hn]⟩

/-- Where the servo may not step the STB, an offset sets nothing but its state, its count and its correction. -/
theorem StbSt.measured_unstepped (h : b.st ≠ .acquire ∨ b.stepped = true ∨ off.natAbs ≤ 9830) :
    ∃ st good corr, b.measured off = { b.gauged off with st := st, good := good, corr := corr } := by
  by_cases ha : b.st = .acquire
  · by_cases hn : off.natAbs ≤ 9830
    · rcases Nat.lt_or_ge b.good 3 with hg | hg
      · exact ⟨b.st, _, _, StbSt.measured_near ha hn hg⟩
      · exact ⟨.locked, _, _, StbSt.measured_locks ha hn hg⟩
    · have hs : b.stepped = true := (h.resolve_left (not_not_intro ha)).resolve_right hn
      exact ⟨b.st, _, _, StbSt.measured_far ha hn hs⟩
  · have hst : (b.st = .locked ∨ b.st = .holdover) ∨ (b.st = .free ∨ b.st = .master) := by
      cases hb : b.st with
      | acquire => exact absurd hb ha
      | locked | holdover | free | master => decide
    rcases hst with hst | hst
    · obtain ⟨st, heq⟩ := StbSt.measured_slews (off := off) hst
      exact ⟨st, b.good, _, heq⟩
    · exact ⟨b.st, b.good, b.corr, StbSt.measured_still hst⟩

/-- Whatever the servo does, it has measured the parent's frequency, and it stays with its parent and with the TIME_CTRL
that waits for LOCKED. -/
theorem StbSt.measured_gauges (b : StbSt) (off : Int) :
    (b.measured off).meas = (b.gauged off).meas ∧ (b.measured off).rate = (b.gauged off).rate
    ∧ (b.measured off).parent = b.parent ∧ (b.measured off).exchNo = b.exchNo
    ∧ (b.measured off).follow = b.follow := by
  by_cases h : b.st ≠ .acquire ∨ b.stepped = true ∨ off.natAbs ≤ 9830
  · obtain ⟨st, good, corr, heq⟩ := StbSt.measured_unstepped h
    rw [heq]
    exact ⟨rfl, rfl, rfl, rfl, rfl⟩
  · obtain ⟨ha, hs, hn⟩ := not_or.mp h |>.imp_right not_or.mp
    rw [StbSt.measured_steps (Decidable.not_not.mp ha) hn (eq_false_of_ne_true hs)]
    exact ⟨rfl, rfl, rfl, rfl, rfl⟩

theorem StbSt.rate_gauged {t : Nat} {p : Int} (hm : b.meas = some (t, p)) (ht : t < b.ticks) :
    (b.gauged off).rate = ((b.time : Int) - off - p) * 65536 / ((b.ticks - t : Nat) : Int) - 2 ^ 32 := by
  simp only [StbSt.gauged, StbSt.frequency, hm, if_pos ht]

end

/-! ## Records and the exchange that is open (R435) -/

/-- No exchange is open to which a record of this number on link `m` belongs. -/
def StbSt.Foreign (b : StbSt) (m : Fin 24) (num : BitVec 8) : Prop :=
  b.exch = none ∨ b.parent ≠ some m ∨ ∃ e, b.exch = some e ∧ e.num ≠ num

theorem StbSt.Foreign.not_mine {b : StbSt} {m p : Fin 24} {num : BitVec 8} {e : ExchSt} (h : b.Foreign m num)
    (he : b.exch = some e) (hp : b.parent = some p) : ¬(e.num = num ∧ p.val = m.val) := by
  rintro ⟨hn, hv⟩
  rcases h with h | h | ⟨e', h, hne⟩
  · exact Option.some_ne_none e (he.symm.trans h)
  · exact h (hp.trans (congrArg some (Fin.ext hv)))
  · exact hne (Option.some.inj (h.symm.trans he) ▸ hn)

section
variable {s : State} {m : Fin 24} {num : BitVec 8} (h : s.stb.Foreign m num)
include h

theorem State.modExch_foreign (f : ExchSt → ExchSt) : s.modExch m.val num f = s := by
  unfold State.modExch
  split
  · next he hp => exact if_neg (h.not_mine he hp)
  · rfl

theorem State.gotT1f_foreign (v : BitVec 64) : s.gotT1f m.val num v = s := by
  unfold State.gotT1f
  split
  · next he hp => exact if_neg fun ⟨hn, hv, _⟩ => h.not_mine he hp ⟨hn, hv⟩
  · rfl

theorem State.gotT4_foreign (v : BitVec 64) : s.gotT4 m.val num v = s := by
  unfold State.gotT4
  split
  · next he hp =>
    split
    · exact if_neg (h.not_mine he hp)
    · rfl
  · rfl

end

/-- Where no TIME_CTRL waits for LOCKED, nobody is replied to. -/
theorem State.followed_none {s : State} (hf : s.stb.follow = none) : s.followed = s := by
  rw [State.followed, hf]
  split
  · next h => cases h
  · rfl

section
variable {s : State} {m : Fin 24} {num : BitVec 8} {e : ExchSt} (he : s.stb.exch = some e)
  (hp : s.stb.parent = some m) (hn : e.num = num)
include he hp hn

theorem State.modExch_mine (f : ExchSt → ExchSt) :
    s.modExch m.val num f = { s with stb := { s.stb with exch := some (f e) } } := by
  rw [State.modExch, he, hp]
  exact if_pos ⟨hn, rfl⟩

theorem State.gotT1f_mine (h2 : e.t2.isSome = true) (v : BitVec 64) : s.gotT1f m.val num v =
    ({ s with stb := { s.stb with exch := some { e with t1 := some (v.toNat : Int) } } } : State).modMember m.val
      (·.due (tRecord 0x13 num 0)) := by
  rw [State.gotT1f, State.modExch_mine he hp hn, he, hp]
  exact if_pos ⟨hn, rfl, h2⟩

theorem State.gotT4_mine {a b c : BitVec 64} (h1 : e.t1 = some (a.toNat : Int)) (h2 : e.t2 = some (b.toNat : Int))
    (h3 : e.t3 = some (c.toNat : Int)) (hf : s.stb.follow = none) (v : BitVec 64) : s.gotT4 m.val num v =
      { s with stb := s.stb.measured (((b - a).toInt - (v - c).toInt) / 2) } := by
  obtain ⟨-, -, -, -, hfollow⟩ := s.stb.measured_gauges (((b - a).toInt - (v - c).toInt) / 2)
  rw [State.gotT4, he, hp]
  simp only [h1, h2, h3, asInt_ofInt_sub]
  rw [if_pos ⟨hn, trivial⟩]
  exact State.followed_none (hfollow.trans hf)

end

section
variable {s : State} {m : Fin 24} {num : BitVec 8} (hm : m.val < s.links)
include hm

theorem exec_t0 : exec (.t0 m num) s = .next (s.modMember m.val (·.due (tRecord 0x11 num 0))) :=
  guardUnit_eq (decide_eq_true hm)

theorem exec_t1 (v : BitVec 64) :
    exec (.t1 m num v) s = .next (s.modExch m.val num fun e => { e with t2 := some v.toNat }) :=
  guardUnit_eq (decide_eq_true hm)

theorem exec_t1f (v : BitVec 64) : exec (.t1f m num v) s = .next (s.gotT1f m.val num v) :=
  guardUnit_eq (decide_eq_true hm)

theorem exec_t3 (v : BitVec 64) :
    exec (.t3 m num v) s = .next (s.modMember m.val (·.due (tRecord 0x14 num v.toNat))) :=
  guardUnit_eq (decide_eq_true hm)

theorem exec_t4 (v : BitVec 64) : exec (.t4 m num v) s = .next (s.gotT4 m.val num v) :=
  guardUnit_eq (decide_eq_true hm)

end

/-! ## TIME_EXCHANGE (R435, R448, R479) -/

/-- The servo after an exchange has begun (R435). -/
def StbSt.exchangeBegun (b : StbSt) : StbSt :=
  { b with exchNo := b.exchNo + 1, urgent := false, lastExch := if b.urgent then b.lastExch else b.ticks,
           exch := some { num := b.exchNo + 1, t1 := none, t2 := none, t3 := none } }

section
variable {s : State} {m : Fin 24} (hp : s.stb.parent = some m)
include hp

theorem exec_timeExchange_due (hs : s.stb.st = .acquire ∨ s.stb.st = .locked ∨ s.stb.st = .holdover)
    (hd : s.stb.urgent = true ∨ s.stb.lastExch + 10000 ≤ s.stb.ticks) : exec .timeExchange s =
      .next (({ s with stb := s.stb.exchangeBegun } : State).modMember m.val
        (·.due (tRecord 0x10 (s.stb.exchNo + 1) 0))) := by
  have hon : (s.stb.st == .acquire || s.stb.st == .locked || s.stb.st == .holdover) = true := by
    simpa [or_assoc] using hs
  have hdue : (s.stb.urgent || decide (s.stb.lastExch + 10000 ≤ s.stb.ticks)) = true := by simpa using hd
  dsimp only [exec, execTimeExchange]
  split
  · next h => exact absurd (hp.symm.trans h) (Option.some_ne_none m)
  · next p h =>
    obtain rfl : p = m := Option.some.inj (h.symm.trans hp)
    rw [hon, hdue]
    exact if_neg Bool.false_ne_true

theorem exec_timeExchange_early (hu : s.stb.urgent = false) (ht : s.stb.ticks < s.stb.lastExch + 10000) :
    exec .timeExchange s = .next s := by
  dsimp only [exec, execTimeExchange]
  rw [hp]
  exact if_pos (by simp [hu, ht])

end

/-- Settles O39, by what each record makes of the exchange that is open and by the cases of the servo. That the servo
steps the STB at the first far offset of ACQUIRE, locks at the fourth near one and takes its rate from the two newest
measurements is the model's choice (assumption log 38). -/
theorem timeExchangesDriveTheServo : Obligations.TimeExchangesDriveTheServo := by
  refine ⟨fun s m num hm => ⟨fun v => ⟨⟨_, exec_t0 hm, rfl⟩, ⟨_, exec_t3 hm v, rfl⟩⟩, fun hf v => ?_,
    fun e v he hp hn => ⟨?_, fun h2 => ?_, fun a b c h1 h2 h3 hf => ?_⟩,
    fun hp hs => ⟨fun hd => ⟨_, exec_timeExchange_due hp hs hd, rfl, ?_, rfl⟩, exec_timeExchange_early hp⟩⟩,
    fun b off => ?_⟩
  · rw [exec_t1 hm, exec_t1f hm, exec_t4 hm, State.modExch_foreign hf, State.gotT1f_foreign hf, State.gotT4_foreign hf]
    exact ⟨rfl, rfl, rfl⟩
  · rw [exec_t1 hm, State.modExch_mine he hp hn]
  · refine ⟨_, (exec_t1f hm v).trans (congrArg _ (State.gotT1f_mine he hp hn h2 v)), rfl, ?_, rfl⟩
    rw [State.memberAt_modMember, if_pos rfl]
    rfl
  · rw [exec_t4 hm, State.gotT4_mine he hp hn h1 h2 h3 hf]
  · rw [State.memberAt_modMember, if_pos rfl]
    rfl
  · obtain ⟨hmeas, hrate, hparent, hno, -⟩ := b.measured_gauges off
    refine ⟨fun h => ?_, fun ha hn hg => ?_, fun ha hn hg => ?_, fun ha hn hs => ?_, fun ha hn hs => ?_, fun hs => ?_,
      hmeas, fun t p hm ht => hrate.trans (StbSt.rate_gauged hm ht), fun h => ?_, hparent, hno⟩
    · obtain ⟨st, good, corr, heq⟩ := StbSt.measured_unstepped (off := off) (.inl h)
      rw [heq]
      exact ⟨rfl, rfl⟩
    · rw [StbSt.measured_locks ha hn (Nat.le_of_eq hg.symm)]
      exact ⟨rfl, rfl, rfl⟩
    · rw [StbSt.measured_near ha hn hg]
      exact ⟨ha, rfl, rfl⟩
    · rw [StbSt.measured_steps ha hn hs]
      exact ⟨rfl, rfl, rfl, rfl⟩
    · rw [StbSt.measured_far ha hn hs]
      exact ⟨rfl, hs, rfl⟩
    · obtain ⟨st, good, corr, heq⟩ := StbSt.measured_unstepped (off := off) (.inr (.inl hs))
      rw [heq]
      rfl
    · rw [StbSt.measured_still h]
      exact ⟨rfl, rfl⟩

end Sys2Proof.Machine
end

section
/-! What the classification of phases leaves as it is: the layer that ANCHOR_RESULT (O34) rests on. -/

namespace Sys2Proof.Machine

/-- From `s` to `t` nothing changes but the slots of the links, the STB and the links' queues, and each link is paced in
`t` as in `s`. -/
structure SlotsJudged (s t : State) : Prop where
  frame : t = { s with sync := { s.sync with slot := t.sync.slot }, stb := t.stb, net := t.net }
  paced : ∀ j, (t.slotAt j).paced = (s.slotAt j).paced

section
variable {s t u : State}

theorem SlotsJudged.refl (s : State) : SlotsJudged s s := ⟨rfl, fun _ => rfl⟩

theorem SlotsJudged.trans (h : SlotsJudged s t) (k : SlotsJudged t u) : SlotsJudged s u where
  frame := by
    rw [k.frame, h.frame]
  paced j := (k.paced j).trans (h.paced j)

theorem SlotsJudged.foldl {α : Type} {f : State → α → State} (hf : ∀ a x, SlotsJudged a (f a x)) (s : State)
    (l : List α) : SlotsJudged s (l.foldl f s) :=
  List.foldlRecOn l f (motive := SlotsJudged s) (.refl s) fun _ h x _ => h.trans (hf _ x)

theorem SlotsJudged.modSlot (s : State) (j : Nat) {f : SlotSt → SlotSt}
    (hf : ∀ k, (f k).paced = k.paced := by exact fun _ => rfl) : SlotsJudged s (s.modSlot j f) where
  frame := rfl
  paced i := by
    rw [State.slotAt_modSlot]
    split
    · next h => rw [hf, h]
    · rfl

theorem SlotsJudged.setStb (s : State) (b : StbSt) : SlotsJudged s { s with stb := b } := ⟨rfl, fun _ => rfl⟩

/-! ## Messages that Town Hall sends (R472, R484) -/

/-- A message that is sent changes nothing but the links. -/
theorem State.sendOn_net (s : State) (g vc cls phase : Nat) (dst : Vec3) (payload : Bytes) :
    s.sendOn g vc cls phase dst payload = { s with net := (s.sendOn g vc cls phase dst payload).net } := by
  unfold State.sendOn
  split
  · split
    · rfl
    · rfl
  · rfl

theorem State.sendPacing_net (s : State) (j : Nat) (tag : Byte) (phase : BitVec 8) :
    s.sendPacing j tag phase = { s with net := (s.sendPacing j tag phase).net } := by
  unfold State.sendPacing
  split
  · split
    · rfl
    · exact State.sendOn_net ..
  · rfl

theorem SlotsJudged.sendPacing (s : State) (j : Nat) (tag : Byte) (phase : BitVec 8) :
    SlotsJudged s (s.sendPacing j tag phase) := by
  rw [State.sendPacing_net]
  exact ⟨rfl, fun _ => rfl⟩

/-! ## Misses, counts and classes of phases (R445, R446, R448, R449) -/

theorem State.slotMiss_judged (s : State) (j : Nat) : SlotsJudged s (s.slotMiss j) := by
  unfold State.slotMiss
  dsimp only
  split
  · exact ((SlotsJudged.modSlot s j).trans (.setStb ..)).trans (.sendPacing ..)
  · exact (SlotsJudged.modSlot s j).trans (.setStb ..)

theorem State.countPhase_judged (s : State) (j : Nat) (p : PhaseStamp) (o : PhaseCount) :
    SlotsJudged s (s.countPhase j p o) := by
  unfold State.countPhase
  dsimp only
  split
  · exact (SlotsJudged.modSlot s j).trans (.modSlot _ j)
  · exact (SlotsJudged.modSlot s j).trans (State.slotMiss_judged _ j)
  · exact ((SlotsJudged.modSlot s j).trans (.modSlot _ j)).trans (State.slotMiss_judged _ j)
  · exact .modSlot s j

theorem State.classify_judged (s : State) (j : Nat) (p : PhaseStamp) : SlotsJudged s (s.classify j p) := by
  unfold State.classify
  split
  · split
    · split
      · exact .refl s
      · exact s.countPhase_judged ..
    · exact .refl s
  · exact .refl s

/-- The phases of a step that have arrived on every link are classified (R446). -/
def State.classifyAll (s : State) (n : BitVec 64) : State :=
  (List.range s.links).foldl (fun (a : State) j =>
    ((a.slotAt j).stamps.filter fun p => p.step == n).foldl (fun (b : State) p => b.classify j p) a) s

theorem State.classifyAll_judged (s : State) (n : BitVec 64) : SlotsJudged s (s.classifyAll n) :=
  .foldl (fun a j => .foldl (fun b p => b.classify_judged j p) a _) s _

/-- Where no phase of the step has arrived, nothing is classified. -/
theorem State.classifyAll_none {s : State} {n : BitVec 64} (h : ∀ j, ∀ p ∈ (s.slotAt j).stamps, p.step ≠ n) :
    s.classifyAll n = s := by
  refine List.foldlRecOn _ _ (motive := (· = s)) rfl fun a ha j _ => ?_
  have hnil : (s.slotAt j).stamps.filter (fun p => p.step == n) = [] :=
    List.filter_eq_nil_iff.mpr fun p hp => by simpa using h j p hp
  rw [ha, hnil]
  rfl

end

end Sys2Proof.Machine
end

section
/-! Anchors, launches and handshake pacing (O34). -/

namespace Sys2Proof.Machine

/-! ## Tables, steps and times -/

/-- An entry of a table of which each entry has been changed is the default or a changed entry. -/
theorem tget_tmapAll {α : Type} [DecidableEq α] (d : α) (t : Tbl α) (f : α → α) (k : Nat) :
    tget d (tmapAll d t f) k = d ∨ ∃ e ∈ t, tget d (tmapAll d t f) k = f e.2 := by
  refine tget_mem.imp_right fun h => ?_
  obtain ⟨e, he, heq⟩ := List.mem_map.mp (List.mem_filter.mp h).left
  exact ⟨e, he, (congrArg Prod.snd heq).symm⟩

theorem mem_insNat (k : Nat) (l : List Nat) : k ∈ insNat k l := by
  induction l with
  | nil => exact List.mem_singleton.mpr rfl
  | cons j r ih =>
    unfold insNat
    split
    · exact List.mem_cons_self
    · split
      · next h => exact h ▸ List.mem_cons_self
      · exact List.mem_cons_of_mem j ih

/-- A step of the context changed is found again under its number, changed. -/
theorem CtxSt.stepAt_modStep {x : CtxSt} {n : BitVec 64} {f : StepSt → StepSt} (hf : ∀ t, (f t).no = t.no)
    (h : ∃ t ∈ x.steps, t.no = n) : ∃ t, (x.modStep n f).stepAt n = some (f t) := by
  have hsame : ((fun t : StepSt => t.no == n) ∘ fun t => if t.no = n then f t else t) = fun t => t.no == n := by
    funext t
    dsimp only [Function.comp_apply]
    split
    · rw [hf]
    · rfl
  have hfind : (x.steps.find? fun t => t.no == n).isSome = true := List.find?_isSome.mpr (by simpa using h)
  obtain ⟨t, ht⟩ := Option.isSome_iff_exists.mp hfind
  refine ⟨t, ?_⟩
  rw [CtxSt.stepAt, CtxSt.modStep, List.find?_map, hsame, ht, Option.map_some, if_pos]
  simpa using List.find?_some ht

/-- The latest of these times and of a time of this package's own. -/
def latestTime (own : Nat) (times : List (BitVec 64)) : Nat := times.foldl (fun a v => max a v.toNat) own

theorem latestTime_spec (own : Nat) (times : List (BitVec 64)) :
    own ≤ latestTime own times ∧ (∀ v ∈ times, v.toNat ≤ latestTime own times)
    ∧ (latestTime own times = own ∨ ∃ v ∈ times, latestTime own times = v.toNat) := by
  induction times generalizing own with
  | nil => exact ⟨Nat.le_refl _, fun v hv => absurd hv List.not_mem_nil, .inl rfl⟩
  | cons v vs ih =>
    obtain ⟨hown, hvs, hone⟩ := ih (max own v.toNat)
    refine ⟨Nat.le_trans (Nat.le_max_left ..) hown, fun w hw => ?_, ?_⟩
    · rcases List.mem_cons.mp hw with rfl | hw
      · exact Nat.le_trans (Nat.le_max_right ..) hown
      · exact hvs w hw
    · change latestTime (max own v.toNat) vs = own ∨ ∃ w ∈ v :: vs, latestTime (max own v.toNat) vs = w.toNat
      rcases hone with hone | ⟨w, hw, hone⟩
      · rw [hone]
        exact Std.max_eq_or.imp_right fun h => ⟨v, List.mem_cons_self, h⟩
      · exact .inr ⟨w, List.mem_cons_of_mem v hw, hone⟩

/-! ## ANCHOR_RESULT (R440, R441, R446, R451) -/

/-- The slot of a link after an anchor: pacing has ended and no phase has begun (R451). -/
def SlotSt.unpaced (k : SlotSt) : SlotSt :=
  { k with hsk := false, paced := false, readyIn := [], readyOut := [], begun := [] }

/-- A step with its anchor, which has become known at a time (R440). -/
def StepSt.withAnchor (t : StepSt) (a now : Nat) : StepSt := { t with anchor := some a, anchorAt := now }

/-- The package after a step of context `c` has its anchor, before the phases that have arrived are classified. -/
def State.anchored (s : State) (c : Nat) (n : BitVec 64) (a : Nat) : State :=
  let u := (s.consume fun r => r.tagged tagAnchor n).modCtx c fun x =>
    x.modStep n (·.withAnchor a s.stbTicks)
  { u with sync := { u.sync with slot := tmapAll .reset u.sync.slot SlotSt.unpaced } }

section
variable {s : State} {c : Fin 4} {t : StepSt} {cfg : JobCfg}

section
variable (hr : s.resident = some c) (ht : (s.ctxAt c.val).steps.find? (fun t => t.st.runs && t.anchor.isNone) = some t)
  (hc : (s.ctxAt c.val).cfg = some cfg)
include hr ht hc

theorem exec_anchorResult : exec (.anchorResult c) s =
    if (s.anchorTimes cfg t.no).length < cfg.topo.others.length then .next s
    else .next
      ((s.anchored c.val t.no (latestTime t.entered (s.anchorTimes cfg t.no) + cfg.sync.anchorLead)).classifyAll
        t.no) := by
  dsimp only [exec, execAnchorResult]
  rw [ht, hc]
  simp only [hr, ne_eq, not_true_eq_false, false_or]
  rfl

theorem exec_anchorResult_waits (h : ∃ v ∈ cfg.topo.others, s.heardFrom tagAnchor t.no v = none) :
    exec (.anchorResult c) s = .next s := by
  obtain ⟨v, hv, hn⟩ := h
  rw [exec_anchorResult hr ht hc]
  exact if_pos (List.length_filterMap_lt_length_iff_exists.mpr ⟨v, hv, hn⟩)

theorem exec_anchorResult_heard (h : ∀ v ∈ cfg.topo.others, s.heardFrom tagAnchor t.no v ≠ none) :
    exec (.anchorResult c) s = .next
      ((s.anchored c.val t.no (latestTime t.entered (s.anchorTimes cfg t.no) + cfg.sync.anchorLead)).classifyAll
        t.no) := by
  rw [exec_anchorResult hr ht hc]
  refine if_neg fun hlt => ?_
  obtain ⟨v, hv, hn⟩ := List.length_filterMap_lt_length_iff_exists.mp hlt
  exact h v hv hn

end

theorem State.mem_anchorTimes {n : BitVec 64} {w : BitVec 64} :
    w ∈ s.anchorTimes cfg n ↔ ∃ v ∈ cfg.topo.others, s.heardFrom tagAnchor n v = some w := List.mem_filterMap

variable {n : BitVec 64} {a : Nat}

theorem State.ctxAt_anchored (s : State) (c : Nat) (n : BitVec 64) (a : Nat) :
    (s.anchored c n a).ctxAt c = (s.ctxAt c).modStep n (·.withAnchor a s.stbTicks) :=
  tget_tmod_self CtxSt.reset s.ctx c fun x => x.modStep n (·.withAnchor a s.stbTicks)

theorem State.stepAt_anchored (h : ∃ t ∈ (s.ctxAt c.val).steps, t.no = n) :
    ∃ t : StepSt, ((s.anchored c.val n a).ctxAt c.val).stepAt n = some (t.withAnchor a s.stbTicks) := by
  rw [State.ctxAt_anchored]
  exact CtxSt.stepAt_modStep (fun _ => rfl) h

theorem State.slotAt_anchored (c : Nat) (j : Nat) : (s.anchored c n a).slotAt j = .reset
    ∨ ∃ e ∈ s.sync.slot, (s.anchored c n a).slotAt j = e.2.unpaced := tget_tmapAll ..

theorem State.unpaced_anchored (c j : Nat) :
    ((s.anchored c n a).slotAt j).paced = false ∧ ((s.anchored c n a).slotAt j).hsk = false := by
  rcases State.slotAt_anchored c j with h | ⟨e, -, h⟩
  · rw [h]
    exact ⟨rfl, rfl⟩
  · rw [h]
    exact ⟨rfl, rfl⟩

/-- Where no phase of the step has arrived before its anchor, none is there to classify. -/
theorem State.classifyAll_anchored (h : ∀ e ∈ s.sync.slot, ∀ p ∈ e.2.stamps, p.step ≠ n) (c : Nat) :
    (s.anchored c n a).classifyAll n = s.anchored c n a := by
  refine State.classifyAll_none fun j p hp => ?_
  rcases State.slotAt_anchored c j with hj | ⟨e, he, hj⟩
  · rw [hj] at hp
    exact absurd hp List.not_mem_nil
  · rw [hj] at hp
    exact h e he p hp

end

/-! ## LAUNCH_ENTRY (R442, R443) -/

theorem LaunchSt.did_note (l : LaunchSt) (bank : Bool) (i : Nat) : (l.note bank i).did bank i = true := by
  cases bank <;> exact List.contains_iff_mem.mpr (mem_insNat ..)

/-- The package with a launch entry performed for the step of a bank; LATE is set where it is due since before the
anchor was known (R443). -/
def State.launched (s : State) (bank late : Bool) (i : Nat) : State :=
  let u := if late then s.modXs 4 fun x => { x with late := true } else s
  { u with sync := { u.sync with launch := u.sync.launch.note bank i } }

section
variable {s : State} {c : Fin 4} {x : CtxSt} {cfg : JobCfg} {i : Fin 64} {e : LaunchEnt} {t : StepSt} {a : Nat}
  (hr : s.resident = some c) (hx : s.ctxAt c.val = x) (hc : x.cfg = some cfg) (he : cfg.sync.launch[i.val]? = some e)
  (hv : e.valid = true) (hs : x.steps = [t]) (ht : t.st.runs = true) (ha : t.anchor = some a)
  (hd : a + e.offset ≤ s.stbTicks)
include hr hx

theorem State.cur_resident : s.cur = some (c, x) := by
  rw [State.cur, hr, Option.map_some, hx]

include hc he hv hs ht ha hd

theorem exec_launchEntry_due (hn : s.sync.launch.did (bankOf t.no) i.val = false) :
    exec (.launchEntry i) s = .next
      ((s.launched (bankOf t.no) (decide (a + e.offset < t.anchorAt)) i.val).arrive 2 0 0 e.px t.no 1) := by
  dsimp only [exec, execLaunchEntry]
  rw [State.cur_resident hr hx]
  simp [hc, he, hv, hs, ht, ha, hd, hn, State.launched]

omit ht ha hd in
theorem exec_launchEntry_again (hn : s.sync.launch.did (bankOf t.no) i.val = true) :
    exec (.launchEntry i) s = .next s := by
  dsimp only [exec, execLaunchEntry]
  rw [State.cur_resident hr hx]
  simp [hc, he, hv, hs, hn]

end

section
variable (s : State) (bank late : Bool) (i : Nat)

theorem State.launched_eq : s.launched bank late i =
    { s with sync := { s.sync with launch := s.sync.launch.note bank i, xs := (s.launched bank late i).sync.xs } } := by
  cases late <;> rfl

theorem State.late_launched : ((s.launched bank true i).xsAt 4).late = true :=
  congrArg XsSt.late (State.xsAt_modXs s 4 4 fun x => { x with late := true })

end

/-! ## PACE, READY and READY_DUE (R449, R450) -/

/-- A change of the slot of one link leaves the slots of the others. -/
theorem State.slotAt_modSlot_other (s : State) {j k : Nat} (f : SlotSt → SlotSt) (h : j ≠ k) :
    (s.modSlot k f).slotAt j = s.slotAt j := (State.slotAt_modSlot ..).trans (if_neg h)

theorem State.slotAt_modSlot_self (s : State) (k : Nat) (f : SlotSt → SlotSt) :
    (s.modSlot k f).slotAt k = f (s.slotAt k) := (State.slotAt_modSlot ..).trans (if_pos rfl)

/-- A slot after READY of a phase (R450). -/
def SlotSt.heardReady (k : SlotSt) (p : BitVec 8) : SlotSt :=
  { k with readyIn := if k.paced && !k.readyIn.contains p then k.readyIn ++ [p] else k.readyIn }

theorem SlotSt.mem_heardReady {k : SlotSt} {p : BitVec 8} (h : k.paced = true) : p ∈ (k.heardReady p).readyIn := by
  by_cases hp : p ∈ k.readyIn
  · simp [SlotSt.heardReady, hp]
  · simp [SlotSt.heardReady, h, hp]

theorem SlotSt.heardReady_unchanged {k : SlotSt} {p : BitVec 8} (h : k.paced = false ∨ p ∈ k.readyIn) :
    k.heardReady p = k := by
  have hcond : (k.paced && !k.readyIn.contains p) = false := by
    rcases h with h | h <;> simp [h]
  rw [SlotSt.heardReady, hcond]
  rfl

section
variable {s : State} {m : Fin 24} (hm : m.val < s.links)
include hm

theorem exec_pace : ∃ ds, exec (.pace m) s = .next
    (({ s with net := { s.net with delivered := ds } } : State).modSlot m.val fun k =>
      { k with paced := true, readyIn := [] }) :=
  ⟨_, guardUnit_eq (decide_eq_true hm)⟩

theorem exec_ready (p : BitVec 8) : ∃ ds, exec (.ready m p) s = .next
    (({ s with net := { s.net with delivered := ds } } : State).modSlot m.val (·.heardReady p)) :=
  ⟨_, guardUnit_eq (decide_eq_true hm)⟩

end

section
variable {s : State} {m : Fin 24} {p : BitVec 8} {c : Fin 4} {x : CtxSt} {w : WinEnt} {st : StepSt} {a : Nat}
  (hm : m.val < s.links) (hr : s.resident = some c) (hx : s.ctxAt c.val = x)
  (hw : x.cfg.bind (fun g => g.sync.window.find? fun w => w.link == m.val && w.phase == p) = some w)
include hm hr hx hw

theorem exec_readyDue_again (hp : p ∈ (s.slotAt m.val).readyOut) : exec (.readyDue m p) s = .next s := by
  refine (guardUnit_eq (decide_eq_true hm)).trans ?_
  rw [State.cur_resident hr hx]
  simp [hw, hp]

theorem exec_readyDue_first (hst : x.steps.reverse.find? (fun t => t.st.runs) = some st) (ha : st.anchor = some a)
    (ho : a + w.wopen ≤ s.stbTicks) (hh : (s.slotAt m.val).hsk = true) (hp : p ∉ (s.slotAt m.val).readyOut) :
    exec (.readyDue m p) s = .next
      ((s.modSlot m.val fun k => { k with readyOut := k.readyOut ++ [p] }).sendPacing m.val tagReady p) := by
  refine (guardUnit_eq (decide_eq_true hm)).trans ?_
  rw [State.cur_resident hr hx]
  simp [hw, hp, hst, ha, ho, hh]

end

/-- Settles O34, by the state that an anchor leaves before its phases are classified, by the arrival of a launch entry,
and by what each pacing message makes of a slot. -/
theorem anchorsLaunchesAndPacing : Obligations.AnchorsLaunchesAndPacing := by
  refine ⟨⟨fun s c t cfg hr ht hc => ⟨exec_anchorResult_waits hr ht hc, fun h => ?_⟩,
    fun s c x cfg i e t a hr hx hc he hv hs ht ha hd => ⟨fun hn => ?_,
      exec_launchEntry_again hr hx hc he hv hs⟩⟩,
    fun s m p hm => ⟨?_, ?_, fun c x w st a hr hx hw hst ha ho hh =>
      ⟨exec_readyDue_again hm hr hx hw, exec_readyDue_first hm hr hx hw hst ha ho hh⟩⟩⟩
  · have hexec := exec_anchorResult_heard hr ht hc h
    obtain ⟨hown, htimes, hone⟩ := latestTime_spec t.entered (s.anchorTimes cfg t.no)
    generalize latestTime t.entered (s.anchorTimes cfg t.no) = m at hexec hown htimes hone
    have hjudged := (s.anchored c.val t.no (m + cfg.sync.anchorLead)).classifyAll_judged t.no
    obtain ⟨u, hu⟩ := State.stepAt_anchored (a := m + cfg.sync.anchorLead) ⟨t, List.mem_of_find?_eq_some ht, rfl⟩
    refine ⟨_, hexec, ⟨u.withAnchor (m + cfg.sync.anchorLead) s.stbTicks, m, ?_, rfl, rfl, hown, fun p hp w hw => ?_,
      ?_⟩, fun j => ?_, fun hst j => ?_, ?_, ?_, ?_, ?_⟩
    · rw [hjudged.frame]
      exact hu
    · exact htimes w (State.mem_anchorTimes.mpr ⟨p, hp, hw⟩)
    · refine hone.imp_right fun ⟨w, hw, hlatest⟩ => ?_
      obtain ⟨p, hp, hheard⟩ := State.mem_anchorTimes.mp hw
      exact ⟨p, hp, w, hheard, hlatest⟩
    · exact (hjudged.paced j).trans (State.unpaced_anchored c.val j).1
    · rw [State.classifyAll_anchored hst]
      exact (State.unpaced_anchored c.val j).2
    all_goals
      rw [hjudged.frame]
      rfl
  · refine ⟨_, exec_launchEntry_due hr hx hc he hv hs ht ha hd hn, ?_, ?_, fun hlate => ?_, ?_, ?_⟩
    · rw [State.xVal_arrive, State.launched_eq]
      rfl
    · rw [State.arrive_sync, State.launched_eq]
      exact LaunchSt.did_note ..
    · rw [State.late_arrive, decide_eq_true hlate]
      exact State.late_launched ..
    · rw [State.arrive_eq, State.launched_eq]
    · rw [State.arrive_eq, State.launched_eq]
  · obtain ⟨ds, hexec⟩ := exec_pace hm
    refine ⟨_, hexec, ?_, ?_, fun j hj => State.slotAt_modSlot_other _ _ hj, rfl⟩
    · rw [State.slotAt_modSlot_self]
    · rw [State.slotAt_modSlot_self]
  · obtain ⟨ds, hexec⟩ := exec_ready hm p
    refine ⟨_, hexec, fun hp => ?_, fun hp => ?_, fun hp => ?_, fun j hj => State.slotAt_modSlot_other _ _ hj, rfl⟩
    · rw [State.slotAt_modSlot_self]
      exact SlotSt.mem_heardReady hp
    · rw [State.slotAt_modSlot_self]
      exact SlotSt.heardReady_unchanged (.inl hp)
    · rw [State.slotAt_modSlot_self]
      exact SlotSt.heardReady_unchanged (.inr hp)

end Sys2Proof.Machine
end

section
/-! What the link layer changes of a member (R469-R495): the layer that control records (O38), flits received (O40) and
messages received (O41) rest on. -/

namespace Sys2Proof.Machine

/-! ## A member alone -/

section
variable (s : State) (m : Nat) (f : MemberSt → MemberSt)

theorem State.memberAt_modMember_self : (s.modMember m f).memberAt m = f (s.memberAt m) :=
  (s.memberAt_modMember m m f).trans (if_pos rfl)

theorem State.memberAt_modMember_other (j : Nat) (h : j ≠ m) : (s.modMember m f).memberAt j = s.memberAt j :=
  (s.memberAt_modMember m j f).trans (if_neg h)

/-- A change of a member is known by what it makes of that member. -/
theorem State.modMember_congr {f g : MemberSt → MemberSt} (h : f (s.memberAt m) = g (s.memberAt m)) :
    s.modMember m f = s.modMember m g :=
  congrArg (fun x => { s with net := { s.net with member := tset .reset s.net.member m x } }) h

end

/-! ## What messages leave of a member -/

/-- The phase of a member, and where it stands in the flits it receives. -/
def MemberSt.receiver (x : MemberSt) : LinkPhase × Nat × Bool × Nat := (x.st, x.rxSeq, x.nakSent, x.rxUnacked)

theorem MemberSt.receiver_eq {x y : MemberSt} (h : x.receiver = y.receiver) :
    x.st = y.st ∧ x.rxSeq = y.rxSeq ∧ x.nakSent = y.nakSent ∧ x.rxUnacked = y.rxUnacked := by
  simpa only [MemberSt.receiver, Prod.mk.injEq] using h

/-- From `s` to `t` each member keeps its phase and its place in the flits it receives. -/
structure ReceiversKept (s t : State) : Prop where
  receiver : ∀ k, (t.memberAt k).receiver = (s.memberAt k).receiver

section
variable {s t u : State}

theorem ReceiversKept.refl (s : State) : ReceiversKept s s := ⟨fun _ => rfl⟩

theorem ReceiversKept.of_member (h : t.net.member = s.net.member) : ReceiversKept s t :=
  ⟨fun k => congrArg (fun l => (tget MemberSt.reset l k).receiver) h⟩

theorem ReceiversKept.trans (h : ReceiversKept s t) (h' : ReceiversKept t u) : ReceiversKept s u :=
  ⟨fun k => (h'.receiver k).trans (h.receiver k)⟩

theorem ReceiversKept.modMember (s : State) (m : Nat) {f : MemberSt → MemberSt}
    (hf : ∀ x, (f x).receiver = x.receiver := by exact fun _ => rfl) : ReceiversKept s (s.modMember m f) where
  receiver k := by
    rw [State.memberAt_modMember]
    split
    · next h => rw [hf, h]
    · rfl

theorem ReceiversKept.foldl {α : Type} {f : State → α → State} (hf : ∀ a x, ReceiversKept a (f a x)) (s : State)
    (l : List α) : ReceiversKept s (l.foldl f s) :=
  List.foldlRecOn l f (motive := ReceiversKept s) (.refl s) fun _ h x _ => h.trans (hf _ x)

end

section
variable (s : State) (m vc : Nat)

/-! ## Buffers that are freed and taken (R389-R391) -/

/-- A buffer that is freed changes its Market and the credits granted on its link. -/
theorem State.freeOf_grants (buf : Option Nat) : (∀ k, (s.memberAt k).SameButGrants ((s.freeOf m vc buf).memberAt k))
    ∧ s.freeOf m vc buf = { s with net := { s.net with mkt := (s.freeOf m vc buf).net.mkt,
                                                       member := (s.freeOf m vc buf).net.member } } := by
  cases buf with
  | none => exact ⟨fun _ => rfl, rfl⟩
  | some b =>
    have hfree (g : MktSt → MktSt) (n c : Nat) :
        OnlyGrants (s.modMkt (m / 12) g) ((s.modMkt (m / 12) g).grant n vc c 1) :=
      (OnlyGrants.refl _).modMember n fun x => x.setGrant_same ..
    unfold State.freeOf State.freeBuffer
    dsimp only
    split
    · exact ⟨fun _ => rfl, rfl⟩
    · split
      · exact ⟨fun _ => rfl, rfl⟩
      · exact ⟨(hfree _ _ _).members, (hfree _ _ _).frame_modMkt⟩

theorem MemberSt.SameButGrants.receiver {x y : MemberSt} (h : x.SameButGrants y) : y.receiver = x.receiver :=
  h ▸ rfl

theorem State.receivers_freeOf (buf : Option Nat) : ReceiversKept s (s.freeOf m vc buf) :=
  ⟨fun k => ((s.freeOf_grants m vc buf).1 k).receiver⟩

theorem State.receivers_modMkt (f : MktSt → MktSt) : ReceiversKept s (s.modMkt m f) := .of_member rfl

theorem State.receivers_modSlot (f : SlotSt → SlotSt) : ReceiversKept s (s.modSlot m f) := .of_member rfl

theorem State.receivers_dropParts : ReceiversKept s (s.dropParts m) := by
  refine (ReceiversKept.foldl (fun a p => ?_) s _).trans (.modMember _ m)
  split
  · exact a.receivers_freeOf ..
  · exact .refl a

theorem State.receivers_takeBuf (cls : Nat) : ReceiversKept s (s.takeBuf m vc cls).1 := by
  unfold State.takeBuf
  dsimp only
  split
  · exact (s.receivers_modMkt ..).trans (.modMember _ m)
  · exact .refl s

/-! ## Messages that are queued (R472, R475, R486, R504) -/

theorem State.receivers_enqueue (t : TxMsg) : ReceiversKept s (s.enqueue m vc t) := .modMember s m

theorem State.receivers_handTo (ts : List TxMsg) : ReceiversKept s (s.handTo m vc ts) := .modMember s m

/-- A stream that gives a number, and a member that queues the message of this number. -/
theorem State.receivers_enqueueNumbered (k : Nat) (t : TxMsg) : ReceiversKept s ((s.takeSeq k).1.enqueue m vc t) :=
  (ReceiversKept.of_member (s := s) (t := (s.takeSeq k).1) rfl).trans (State.receivers_enqueue ..)

theorem State.receivers_resend (t : TxMsg) : ReceiversKept s (s.resend vc t) := by
  unfold State.resend
  split
  · exact .refl s
  split
  · exact .refl s
  unfold State.sendOnward
  split
  · exact s.receivers_enqueueNumbered ..
  · exact .refl s

theorem State.receivers_sendOn (g cls phase : Nat) (dst : Vec3) (payload : Bytes) :
    ReceiversKept s (s.sendOn g vc cls phase dst payload) := by
  unfold State.sendOn
  split
  · split
    · exact .refl s
    · exact s.receivers_enqueueNumbered ..
  · exact .refl s

theorem State.receivers_innerOut (u : Nat) (h : InnerHdr) (payload : Bytes) (par : List Nat) :
    ReceiversKept s (s.innerOut vc u h payload par) := by
  unfold State.innerOut
  split
  · exact .refl s
  · exact s.receivers_enqueue ..

theorem State.receivers_innerIn (hdr : BitVec 128) (payload : Bytes) (par : List Nat) :
    ReceiversKept s (s.innerIn m vc hdr payload par) := by
  unfold State.innerIn
  dsimp only
  split
  · exact .refl s
  split
  · exact s.receivers_innerOut ..
  split
  · exact .of_member rfl
  · exact .of_member rfl

/-! ## Phases of messages (R444-R450) -/

theorem State.receivers_sendPacing (j : Nat) (tag : Byte) (phase : BitVec 8) :
    ReceiversKept s (s.sendPacing j tag phase) := by
  unfold State.sendPacing
  split
  · split
    · exact .refl s
    · exact s.receivers_sendOn ..
  · exact .refl s

theorem State.receivers_slotMiss (j : Nat) : ReceiversKept s (s.slotMiss j) := by
  unfold State.slotMiss
  extract_lets now times pace u b w
  have hw : ReceiversKept s w := .of_member rfl
  split
  · exact hw.trans (w.receivers_sendPacing ..)
  · exact hw

theorem State.receivers_countPhase (j : Nat) (p : PhaseStamp) (o : PhaseCount) :
    ReceiversKept s (s.countPhase j p o) := by
  unfold State.countPhase
  extract_lets u
  have hu : ReceiversKept s u := s.receivers_modSlot ..
  split
  · exact hu.trans (u.receivers_modSlot ..)
  · exact hu.trans (u.receivers_slotMiss j)
  · exact (hu.trans (u.receivers_modSlot ..)).trans (State.receivers_slotMiss _ j)
  · exact hu

theorem State.receivers_classify (j : Nat) (p : PhaseStamp) : ReceiversKept s (s.classify j p) := by
  unfold State.classify
  split
  · split
    · split
      · exact .refl s
      · exact s.receivers_countPhase ..
    · exact .refl s
  · exact .refl s

theorem State.receivers_stampPhase (j : Nat) (h : MsgHdr) (first last : Nat) :
    ReceiversKept s (s.stampPhase j h first last) := by
  unfold State.stampPhase
  extract_lets phase
  split
  · exact .refl s
  split
  · exact .refl s
  extract_lets _ p _
  exact (s.receivers_modSlot ..).trans (State.receivers_classify _ j p)

end

end Sys2Proof.Machine
end

section
/-! Flit slots (O36): what a slot carries, and what the flit that leaves makes of its member. -/

namespace Sys2Proof.Machine

/-! ## The order of a slot (R493, R495) -/

/-- What a fold chooses out of a list, one against the next, is in the list. -/
theorem mem_foldl_choice {α : Type} {f : α → α → α} (hf : ∀ a b, f a b = a ∨ f a b = b) (e : α) (l : List α) :
    l.foldl f e ∈ e :: l := by
  refine List.foldlRecOn l f (motive := (· ∈ e :: l)) List.mem_cons_self fun a ha b hb => ?_
  rcases hf a b with h | h
  · exact h.symm ▸ ha
  · exact h.symm ▸ List.mem_cons_of_mem e hb

section
variable {s : State} {m v : Nat}

theorem State.mem_eligible : v ∈ s.eligible m ↔ v ∈ [2, 3, 4, 5] ∧ (s.nextMsg m v).isSome := List.mem_filter

/-- The choice by weights is one of the VCs that are eligible. -/
theorem State.pickWeighted_mem {l : List Nat} (hl : l ≠ []) (h5 : ∀ v ∈ l, v ≤ 5) : (s.pickWeighted m l).1 ∈ l := by
  unfold State.pickWeighted
  dsimp only
  split
  · cases l with
    | nil => exact absurd rfl hl
    | cons e r =>
      have hmin : min 5 e = e := Nat.min_eq_right (h5 e List.mem_cons_self)
      rw [List.foldl_cons, hmin]
      exact mem_foldl_choice min_choice e r
  · next p ps hpos =>
    refine (List.mem_filter.mp (hpos ▸ mem_foldl_choice (fun a b => ?_) p ps)).1
    split
    · exact .inr rfl
    · exact .inl rfl

theorem State.eligible_le (h : v ∈ s.eligible m) : v ≤ 5 := by
  have hv := (State.mem_eligible.mp h).1
  simp only [List.mem_cons, List.not_mem_nil, or_false] at hv
  omega

/-- A slot is given to a VC that has a message to send, where fewer than 512 flits are unacknowledged (R481). -/
theorem State.slotPick_vc (h : s.slotPick m = .vc v) :
    (s.memberAt m).unacked.length < 512 ∧ ∃ t, s.nextMsg m v = some t := by
  unfold State.slotPick at h
  extract_lets x up room el vc0 at h
  have hroom (hr : room = true) : x.unacked.length < 512 := of_decide_eq_true (Bool.and_eq_true_iff.mp hr).2
  split at h
  · cases h
  split at h
  · cases h
  split at h
  · next hc =>
    cases h
    obtain ⟨hr, h0⟩ := Bool.and_eq_true_iff.mp hc
    refine ⟨hroom hr, ?_⟩
    dsimp only [vc0] at h0
    split at h0
    · next t ht => exact ⟨t, ht⟩
    · cases h0
  split at h
  · next hc =>
    cases h
    simp only [Bool.and_eq_true] at hc
    obtain ⟨⟨hr, h1⟩, -⟩ := hc
    exact ⟨hroom hr, Option.isSome_iff_exists.mp h1⟩
  split at h
  · next hc =>
    cases h
    obtain ⟨hr, hel⟩ := Bool.and_eq_true_iff.mp hc
    have hmem : (s.pickWeighted m el).1 ∈ s.eligible m :=
      State.pickWeighted_mem (by simpa using hel) fun v => State.eligible_le
    exact ⟨hroom hr, Option.isSome_iff_exists.mp (State.mem_eligible.mp hmem).2⟩
  split at h
  · cases h
  · cases h

/-- A slot replays a flit only where one is to be sent again (R483). -/
theorem State.slotPick_replay (h : s.slotPick m = .replay) : ∃ f r, (s.memberAt m).resend = f :: r := by
  unfold State.slotPick at h
  extract_lets x up room el vc0 at h
  split at h
  · cases h
  split at h
  · next hc =>
    obtain ⟨-, hr⟩ := Bool.and_eq_true_iff.mp hc
    exact List.exists_cons_of_ne_nil (by simpa using hr)
  repeat (split at h; · cases h)
  cases h

/-- While a flit is to be sent again, a member in service sends nothing new. -/
theorem State.slotPick_resends (hs : (s.memberAt m).inService = true) (hr : (s.memberAt m).resend ≠ []) :
    s.slotPick m = .ctrl ∨ s.slotPick m = .replay := by
  have hagain : ((s.memberAt m).inService && !(s.memberAt m).resend.isEmpty) = true := by simp [hs, hr]
  unfold State.slotPick
  dsimp only
  rw [if_pos hagain]
  split
  · exact .inl rfl
  · exact .inr rfl

end

/-! ## The flit that leaves (R477, R481, R493) -/

/-- Between `s` and `t` member `m` has used a flit slot. -/
structure SlotUsed (s t : State) (m : Nat) : Prop where
  slotNo : (t.memberAt m).slotNo = (s.memberAt m).slotNo + 1
  others : ∀ j, j ≠ m → t.memberAt j = s.memberAt j
  frame : t = { s with net := { s.net with member := t.net.member }, stb := t.stb,
                       sync := { s.sync with slot := t.sync.slot } }

/-- A member that is changed uses a slot where the change counts one. -/
theorem SlotUsed.modMember (s : State) (m : Nat) {f : MemberSt → MemberSt}
    (h : (f (s.memberAt m)).slotNo = (s.memberAt m).slotNo + 1) : SlotUsed s (s.modMember m f) m where
  slotNo := by rw [State.memberAt_modMember_self, h]
  others j hj := s.memberAt_modMember_other m f j hj
  frame := rfl

section
variable {s : State} {m : Nat}

/-- A control flit takes 15 of the records that are due, and may add some; the exchange that is open may get a stamp. -/
theorem State.sendCtrl_eq : ∃ l b, s.sendCtrl m =
    { s.modMember m fun x => { x with ctrl := x.ctrl.drop 15 ++ l,
                                      wire := wireOf m (ctrlFlit ((s.memberAt m).ctrl.take 15)) : MemberSt }.used 6 with
      stb := b } := by
  unfold State.sendCtrl
  dsimp only
  split
  · split
    · exact ⟨_, _, rfl⟩
    · exact ⟨_, _, rfl⟩
  · exact ⟨_, _, rfl⟩

theorem State.sendPick_ctrl : SlotUsed s (s.sendPick m .ctrl) m ∧ ∃ l, (s.sendPick m .ctrl).memberAt m =
    { s.memberAt m with ctrl := (s.memberAt m).ctrl.drop 15 ++ l,
                        wire := wireOf m (ctrlFlit ((s.memberAt m).ctrl.take 15)) : MemberSt }.used 6 := by
  obtain ⟨l, b, h⟩ := State.sendCtrl_eq (s := s) (m := m)
  rw [State.sendPick, h]
  have hused := SlotUsed.modMember s m (f := fun x => { x with
    ctrl := x.ctrl.drop 15 ++ l, wire := wireOf m (ctrlFlit ((s.memberAt m).ctrl.take 15)) : MemberSt }.used 6) rfl
  exact ⟨⟨hused.slotNo, hused.others, rfl⟩, l, s.memberAt_modMember_self m _⟩

theorem State.sendPick_replay {f : Flit} {r : List Flit} (h : (s.memberAt m).resend = f :: r) :
    SlotUsed s (s.sendPick m .replay) m ∧ (s.sendPick m .replay).memberAt m =
      { s.memberAt m with resend := r, busy := !r.isEmpty, wire := wireOf m f : MemberSt }.used 8 := by
  have heq : s.sendPick m .replay =
      s.modMember m fun x => { x with resend := r, busy := !r.isEmpty, wire := wireOf m f : MemberSt }.used 8 := by
    refine State.modMember_congr s m ?_
    rw [h]
  rw [heq]
  exact ⟨.modMember s m rfl, s.memberAt_modMember_self m _⟩

theorem State.sendPick_idle : SlotUsed s (s.sendPick m .idle) m ∧ (s.sendPick m .idle).memberAt m =
    { s.memberAt m with wire := wireOf m idleFlit : MemberSt }.used 7 :=
  ⟨.modMember s m rfl, s.memberAt_modMember_self m _⟩

/-- `y` is the member `x` after flit `f` of VC `v` has left it on the link `m`. -/
structure FlitSent (m v : Nat) (f : Flit) (x y : MemberSt) : Prop where
  kept : y.unacked = x.unacked ++ [f]
  vc : f.vc = v
  seq : f.seq = x.txSeq
  next : y.txSeq = (x.txSeq + 1) % 1024
  wire : y.wire = wireOf m f
  hist : y.slotHist.head? = some v

theorem State.sendVc_sends (v : Nat) (t : TxMsg) :
    SlotUsed s (s.sendVc m v t) m ∧ ∃ f, FlitSent m v f (s.memberAt m) ((s.sendVc m v t).memberAt m) := by
  unfold State.sendVc
  extract_lets x fresh bs f credit queue t2 phase u
  have hmember (j : Nat) : u.memberAt j = s.memberAt j := by
    dsimp only [u]
    split <;> rfl
  have hframe : u = { s with sync := { s.sync with slot := u.sync.slot } } := by
    dsimp only [u]
    split <;> rfl
  have hu : u.memberAt m = x := hmember m
  refine ⟨⟨?_, fun j hj => ?_, ?_⟩, f, ?_⟩
  · rw [State.memberAt_modMember_self, hu]
    rfl
  · rw [State.memberAt_modMember_other _ _ _ _ hj, hmember]
  · rw [hframe]
    rfl
  · rw [State.memberAt_modMember_self, hu]
    exact ⟨rfl, rfl, rfl, rfl, rfl, rfl⟩

theorem State.sendPick_vc {v : Nat} {t : TxMsg} (h : s.nextMsg m v = some t) :
    SlotUsed s (s.sendPick m (.vc v)) m
    ∧ ∃ f, FlitSent m v f (s.memberAt m) ((s.sendPick m (.vc v)).memberAt m) := by
  obtain ⟨hused, f, hsent⟩ := s.sendVc_sends (m := m) v t
  obtain ⟨w, heq⟩ : ∃ w, s.sendPick m (.vc v) = (s.sendVc m v t).modMember m fun x => { x with curW := w } :=
    ⟨_, by rw [State.sendPick, h]⟩
  rw [heq]
  refine ⟨⟨?_, fun j hj => ?_, ?_⟩, f, ?_⟩
  · rw [State.memberAt_modMember_self, ← hused.slotNo]
  · rw [State.memberAt_modMember_other _ _ _ _ hj, hused.others j hj]
  · rw [hused.frame]
    rfl
  · rw [State.memberAt_modMember_self]
    exact ⟨hsent.kept, hsent.vc, hsent.seq, hsent.next, hsent.wire, hsent.hist⟩

/-- Whatever a slot is given to, it is used. -/
theorem State.sendPick_used {p : SlotPick} (h : s.slotPick m = p) : SlotUsed s (s.sendPick m p) m := by
  cases p with
  | ctrl => exact State.sendPick_ctrl.1
  | replay =>
    obtain ⟨f, r, hr⟩ := State.slotPick_replay h
    exact (State.sendPick_replay hr).1
  | vc v =>
    obtain ⟨-, t, ht⟩ := State.slotPick_vc h
    exact (State.sendPick_vc ht).1
  | idle => exact State.sendPick_idle.1

end

/-! ## The cycles that the partner reports (R401) -/

/-- The package with these Markets. -/
def State.withMkt (s : State) (l : Tbl MktSt) : State := { s with net := { s.net with mkt := l } }

section
variable (s : State) (m : Nat) (k : BitVec 32)

theorem State.noteStall_eq : s.noteStall m k = s.withMkt (s.noteStall m k).net.mkt := by
  unfold State.noteStall
  split <;> rfl

/-- The package once FLIT_SLOT has taken the partner's report. -/
def State.reported : State := if m < 24 then s.noteStall m k else s

theorem State.reported_eq : s.reported m k = s.withMkt (s.reported m k).net.mkt := by
  unfold State.reported
  split
  · exact s.noteStall_eq m k
  · rfl

theorem State.memberAt_reported (j : Nat) : (s.reported m k).memberAt j = s.memberAt j := by
  rw [State.reported_eq]
  rfl

theorem State.slotPick_reported (j : Nat) : (s.reported m k).slotPick j = s.slotPick j := by
  rw [State.reported_eq]
  rfl

/-- A slot that is used after the report touches the member, the STB and the slot of its link, the report the Market. -/
theorem SlotUsed.frame_reported {s t : State} {m j : Nat} {k : BitVec 32} (h : SlotUsed (s.reported m k) t j) :
    t = { s with net := { s.net with member := t.net.member, mkt := (s.reported m k).net.mkt }, stb := t.stb,
                 sync := { s.sync with slot := t.sync.slot } } := by
  have hframe := h.frame
  rw [State.reported_eq] at hframe
  exact hframe

/-- MKT_STALL grows by the cycles that are reported, to at most its greatest value. -/
theorem State.stalls_noteStall (j : Nat) : (tget 0#32 ((s.noteStall m k).mktAt (m / 12)).stalls j).toNat =
    if j = m % 12 then min ((tget 0#32 (s.mktAt (m / 12)).stalls j).toNat + k.toNat) 0xFFFFFFFF
    else (tget 0#32 (s.mktAt (m / 12)).stalls j).toNat := by
  have hlt := (tget 0#32 (s.mktAt (m / 12)).stalls j).isLt
  unfold State.noteStall
  split
  · next h =>
    rw [h, show (0 : BitVec 32).toNat = 0 from rfl]
    split <;> omega
  · rw [State.mktAt_modMkt, if_pos rfl]
    dsimp only
    rw [tget_tmod]
    split
    · next h =>
      rw [← h, BitVec.toNat_ofNat]
      omega
    · rfl

end

/-! ## FLIT_SLOT and the release of an increment record (R396, R401, R466, R471) -/

section
variable {s : State} {m : Fin 32} {k : BitVec 32} (hm : s.hasMember m.val = true)
include hm

theorem exec_flitSlot_none (h : (s.memberAt m.val).hasSlots = false) :
    exec (.flitSlot m k) s = .next (s.reported m.val k) := by
  refine (guardUnit_eq hm).trans (if_pos ?_)
  change (!((s.reported m.val k).memberAt m.val).hasSlots) = true
  rw [State.memberAt_reported, h]
  rfl

theorem exec_flitSlot_sends (h : (s.memberAt m.val).hasSlots = true) :
    exec (.flitSlot m k) s = .next ((s.reported m.val k).sendPick m.val (s.slotPick m.val)) := by
  rw [← s.slotPick_reported m.val k m.val]
  refine (guardUnit_eq hm).trans (if_neg ?_)
  change ¬(!((s.reported m.val k).memberAt m.val).hasSlots) = true
  rw [State.memberAt_reported, h]
  exact Bool.false_ne_true

omit hm in
theorem exec_incrementSent {j : Fin 24} (hj : j.val < s.links) :
    exec (.boundedResourceRelease (.incrementSent j)) s =
      if (s.memberAt j.val).hasSlots ∧ s.slotPick j.val = .vc 1 then .next (s.sendPick j.val (.vc 1)) else .next s :=
  guardUnit_eq (decide_eq_true hj)

end

/-- Settles O36, by the order in which a slot is given away and by the flit that leaves in it. That MKT_STALL takes the
count that the partner reports, and that a replayed flit counts as no VC's slot, are the model's choice (assumption
logs 33 and 34). -/
theorem flitSlotSendsOneFlit : Obligations.FlitSlotSendsOneFlit := by
  intro s m k hm x v
  have hx : v.memberAt m.val = x := s.memberAt_reported m.val k m.val
  have hpick : v.slotPick m.val = s.slotPick m.val := s.slotPick_reported m.val k m.val
  refine ⟨exec_flitSlot_none hm,
    fun hs => ⟨v.sendPick m.val (s.slotPick m.val), exec_flitSlot_sends hm hs, ?_⟩, State.slotPick_resends,
    fun hfull w hw => absurd (State.slotPick_vc hw).1 (Nat.not_lt.mpr hfull), fun j hj => ?_, fun h24 j _ => ?_⟩
  · have hused := State.sendPick_used hpick
    refine ⟨hused.slotNo.trans (congrArg (·.slotNo + 1) hx),
      fun j hj => (hused.others j hj).trans (s.memberAt_reported m.val k j), hused.frame_reported,
      fun h => ?_, fun h => ?_, fun w h => ?_, fun h => ?_⟩
    · obtain ⟨-, l, hy⟩ := State.sendPick_ctrl (s := v) (m := m.val)
      rw [hx] at hy
      rw [h, hy]
      exact ⟨rfl, rfl, l, rfl⟩
    · obtain ⟨f, r, hr⟩ := State.slotPick_replay (hpick.trans h)
      have hy := (State.sendPick_replay hr).2
      rw [hx] at hr hy
      rw [h, hy]
      exact ⟨f, r, hr, rfl, rfl, rfl, rfl⟩
    · obtain ⟨-, t, ht⟩ := State.slotPick_vc (hpick.trans h)
      obtain ⟨-, f, hsent⟩ := State.sendPick_vc ht
      rw [hx] at hsent
      rw [h]
      exact ⟨f, hsent.kept, hsent.vc, hsent.seq, hsent.next, hsent.wire, hsent.hist⟩
    · have hy := (State.sendPick_idle (s := v) (m := m.val)).2
      rw [hx] at hy
      rw [h]
      exact hy
  · have hlinks : j.val < s.links := by
      have h := hm
      rw [State.hasMember, ← hj, if_pos j.isLt] at h
      exact of_decide_eq_true h
    have hzero : s.reported m.val 0 = s := by
      unfold State.reported
      split <;> rfl
    rw [exec_incrementSent hlinks, hj]
    refine ⟨fun hs hp => ?_, fun h => if_neg fun ⟨hs, hp⟩ => ?_⟩
    · rw [exec_flitSlot_sends hm hs, hzero, hp]
      exact if_pos ⟨hs, rfl⟩
    · rcases h with h | h
      · exact Bool.false_ne_true (h.symm.trans hs)
      · exact h hp
  · have hv : v = s.noteStall m.val k := if_pos h24
    rw [hv]
    exact s.stalls_noteStall m.val k j

end Sys2Proof.Machine
end

section
/-! Control records, retraining and leaks (O38): what each of them makes of its member. -/

namespace Sys2Proof.Machine

/-! ## A member that withdraws (R485-R488) -/

section
variable (s : State) (m : Nat)

theorem State.receivers_wire (r : FaultReport) : ReceiversKept s (s.wire r) := .of_member rfl

theorem State.receivers_refreshGroups : ReceiversKept s s.refreshGroups := by
  unfold State.refreshGroups
  split
  · exact .of_member rfl
  · extract_lets down old net topo u
    have hu : ReceiversKept s u := .of_member rfl
    exact hu.trans (.foldl (fun a _ => a.receivers_wire _) u _)

theorem State.receivers_loseParent : ReceiversKept s (s.loseParent m) := by
  unfold State.loseParent
  split
  · split
    · exact .of_member rfl
    · exact .refl s
  · exact .refl s

theorem ReceiversKept.st {s t : State} (h : ReceiversKept s t) (k : Nat) : (t.memberAt k).st = (s.memberAt k).st :=
  (MemberSt.receiver_eq (h.receiver k)).1

theorem State.withdrawAvenue_withdrawn (fault : Bool) : ((s.withdrawAvenue m fault).memberAt m).st = .withdrawn := by
  unfold State.withdrawAvenue
  extract_lets x g lost rest gone other sent0 sent1 moved told report reported
  have hgone : (gone.memberAt m).st = .withdrawn := congrArg MemberSt.st (State.memberAt_modMember_self ..)
  have hsent : ReceiversKept gone sent1 :=
    (ReceiversKept.foldl (fun a _ => a.receivers_resend ..) gone _).trans
      (.foldl (fun a _ => a.receivers_resend ..) _ _)
  have hmoved : ReceiversKept gone moved := by
    cases hother : other with
    | some t =>
      dsimp only [moved]
      rw [hother]
      exact ((gone.receivers_handTo ..).trans (State.receivers_handTo ..)).trans
        (.foldl (fun a _ => a.receivers_handTo ..) _ _)
    | none =>
      dsimp only [moved]
      rw [hother]
      exact hsent.trans (.foldl (fun a _ => a.receivers_handTo ..) _ _)
  have htold : ReceiversKept moved told := .modMember moved m
  have hreported : ReceiversKept told reported := by
    dsimp only [reported]
    split
    · exact told.receivers_wire _
    · exact .refl told
  have hlast := (reported.receivers_loseParent m).trans (State.receivers_refreshGroups _)
  exact ((((hmoved.trans htold).trans hreported).trans hlast).st m).trans hgone

theorem State.dieLinkDown_withdrawn : ((s.dieLinkDown m).memberAt m).st = .withdrawn := by
  unfold State.dieLinkDown
  extract_lets x begun lost gone waiting moved downs ioDown failed net topo flagged
  split
  · next h => exact h
  have hgone : (gone.memberAt m).st = .withdrawn := congrArg MemberSt.st (State.memberAt_modMember_self ..)
  have hmoved : ReceiversKept gone moved := .foldl (fun a _ => a.receivers_innerOut ..) _ _
  have hflagged : ReceiversKept moved flagged := .of_member rfl
  exact (((hmoved.trans hflagged).trans (flagged.receivers_wire _)).st m).trans hgone

/-- A member that withdraws has withdrawn, unless it was disabled (R485). -/
theorem State.withdraw_withdrawn : ((s.withdraw m).memberAt m).st = .withdrawn
    ∨ ((s.memberAt m).st = .disabled ∧ ((s.withdraw m).memberAt m).st = .disabled) := by
  unfold State.withdraw
  split
  · exact .inl (s.dieLinkDown_withdrawn m)
  split
  · next h => exact h.imp_right fun h => ⟨h, h⟩
  · exact .inl (s.withdrawAvenue_withdrawn m _)

end

/-! ## ACK and NAK (R477-R483, R489) -/

section
variable {x : MemberSt} {seq : Nat}

/-- The place of the first flit with a number. -/
theorem findIdx?_append_cons {α : Type} {p : α → Bool} {a b : List α} {e : α} (ha : ∀ g ∈ a, p g = false)
    (he : p e = true) : (a ++ e :: b).findIdx? p = some a.length := by
  simp [List.findIdx?_append, List.findIdx?_eq_none_iff.mpr ha, List.findIdx?_cons, he]

theorem MemberSt.findIdx?_unacked {a b : List Flit} {f : Flit} (hu : x.unacked = a ++ f :: b) (hf : f.seq = seq)
    (ha : ∀ g ∈ a, g.seq ≠ seq) : (x.unacked.findIdx? fun f => f.seq == seq) = some a.length := by
  rw [hu]
  exact findIdx?_append_cons (fun g hg => beq_false_of_ne (ha g hg)) (beq_iff_eq.mpr hf)

theorem MemberSt.findIdx?_unacked_none (h : ∀ g ∈ x.unacked, g.seq ≠ seq) :
    (x.unacked.findIdx? fun f => f.seq == seq) = none :=
  List.findIdx?_eq_none_iff.mpr fun g hg => beq_false_of_ne (h g hg)

theorem MemberSt.acked_drops {a b : List Flit} {f : Flit} (hu : x.unacked = a ++ f :: b) (hf : f.seq = seq)
    (ha : ∀ g ∈ a, g.seq ≠ seq) : (x.acked seq).unacked = b ∧ (x.acked seq).ctrl = x.ctrl := by
  rw [MemberSt.acked, MemberSt.findIdx?_unacked hu hf ha]
  refine ⟨(congrArg (List.drop (a.length + 1)) hu).trans ?_, rfl⟩
  rw [← List.drop_drop, List.drop_left, List.drop_one, List.tail_cons]

theorem MemberSt.acked_none (h : ∀ g ∈ x.unacked, g.seq ≠ seq) : x.acked seq = x := by
  rw [MemberSt.acked, MemberSt.findIdx?_unacked_none h]

end

/-- A member after a NAK for the flit at place `i` of those it keeps. -/
def MemberSt.replays (x : MemberSt) (i now : Nat) : MemberSt :=
  { x with resend := x.unacked.drop i, replayTimes := (x.replayTimes.filter fun t => decide (now - t < 2000)) ++ [now],
           busy := true, replayCnt := satInc x.replayCnt, replayB := x.replayB + 1 }

section
variable {s : State} {m seq : Nat}

/-- An event below the limit of the REPLAY bucket counts in it. -/
theorem State.replayEvent_counts (h : (s.memberAt m).replayB + 1 < bits (s.bktOf m) 55 48) :
    s.replayEvent m = s.modMember m fun x => { x with replayB := x.replayB + 1 } :=
  if_neg (Nat.not_le.mpr h)

theorem State.nakOn_none (h : ∀ g ∈ (s.memberAt m).unacked, g.seq ≠ seq) : s.nakOn m seq = s := by
  unfold State.nakOn
  extract_lets x
  rw [MemberSt.findIdx?_unacked_none h]
  exact ite_self s

theorem State.nakOn_replays {i : Nat} (hst : (s.memberAt m).st = .active)
    (hi : ((s.memberAt m).unacked.findIdx? fun f => f.seq == seq) = some i)
    (ht : ((s.memberAt m).replayTimes.filter fun t => decide (s.stb.ticks - t < 2000)).length < 16)
    (hb : (s.memberAt m).replayB + 1 < bits (s.bktOf m) 55 48) :
    (∀ j, j ≠ m → (s.nakOn m seq).memberAt j = s.memberAt j)
    ∧ s.nakOn m seq = { s with net := { s.net with member := (s.nakOn m seq).net.member } }
    ∧ (s.nakOn m seq).memberAt m = (s.memberAt m).replays i s.stb.ticks := by
  unfold State.nakOn
  extract_lets x now times
  rw [if_neg (not_not_intro hst), hi]
  dsimp only
  rw [if_neg (Nat.not_le.mpr ht), State.replayEvent_counts (by rw [State.memberAt_modMember_self]; exact hb)]
  refine ⟨fun j hj => ?_, rfl, ?_⟩
  · rw [State.memberAt_modMember_other _ _ _ _ hj, State.memberAt_modMember_other _ _ _ _ hj]
  · rw [State.memberAt_modMember_self, State.memberAt_modMember_self]
    rfl

end

/-! ## STATE (R477, R484, R488) -/

/-- A member once its partner's state is known. -/
def MemberSt.hears (x : MemberSt) (v : BitVec 8) : MemberSt :=
  let again := v == 0 && x.peer == 1 && x.st == .active
  { x with peer := v, resend := if again then x.unacked else x.resend,
           busy := if again then !x.unacked.isEmpty else x.busy || v == 1 }

section
variable {s : State} {m : Nat} {v : BitVec 8}

theorem MemberSt.hears_eq (x : MemberSt) (v : BitVec 8) : x.hears v = { x with
    peer := v, busy := (x.hears v).busy,
    resend := if v = 0 ∧ x.peer = 1 ∧ x.st = .active then x.unacked else x.resend } := by
  simp [MemberSt.hears, and_assoc]

theorem State.peerState_up (h : v.toNat < 2) : s.peerState m v = s.modMember m (·.hears v) :=
  if_neg (Nat.not_le.mpr h)

/-- A partner that withdraws takes this end of the member out of service (R488). -/
theorem State.peerState_down (h : 2 ≤ v.toNat) : ((s.peerState m v).memberAt m).st = .withdrawn
    ∨ ((s.memberAt m).st = .disabled ∧ ((s.peerState m v).memberAt m).st = .disabled) := by
  have hdown : s.peerState m v = ((s.modMember m (·.hears v)).dropParts m).withdraw m := if_pos h
  have hkept : ReceiversKept s ((s.modMember m (·.hears v)).dropParts m) :=
    (ReceiversKept.modMember s m).trans (State.receivers_dropParts ..)
  rw [hdown, ← hkept.st m]
  exact State.withdraw_withdrawn ..

end

/-! ## Retraining ends (R483) -/

/-- A member that is active again, with every flit that it keeps to be sent again. -/
def MemberSt.retrained (x : MemberSt) : MemberSt :=
  ({ x with st := .active, resend := x.unacked, busy := !x.unacked.isEmpty }).due (stateRecord 0)

/-! ## BUCKET_LEAK (R489) -/

/-- A member whose buckets have leaked as their registers say. -/
def MemberSt.leaks (x : MemberSt) (b : Nat) : MemberSt :=
  { x with margin := x.margin - bits b 7 0, replayB := x.replayB - bits b 15 8, uncorrB := x.uncorrB - bits b 23 16 }

/-- The package once the buckets of its first `n` members have leaked. -/
def State.leaked (s : State) (n : Nat) : State :=
  (List.range n).foldl (fun (a : State) m => a.modMember m (·.leaks (a.bktOf m))) s

theorem State.leaked_succ (s : State) (n : Nat) :
    s.leaked (n + 1) = (s.leaked n).modMember n (·.leaks ((s.leaked n).bktOf n)) := by
  rw [State.leaked, List.range_succ, List.foldl_append]
  rfl

theorem State.leaked_frame (s : State) (n : Nat) :
    s.leaked n = { s with net := { s.net with member := (s.leaked n).net.member } } := by
  induction n with
  | zero => rfl
  | succ n ih =>
    rw [State.leaked_succ, ih]
    rfl

theorem State.memberAt_leaked (s : State) (n m : Nat) :
    (s.leaked n).memberAt m = if m < n then (s.memberAt m).leaks (s.bktOf m) else s.memberAt m := by
  induction n with
  | zero => rfl
  | succ n ih =>
    have hbkt : (s.leaked n).bktOf n = s.bktOf n := by
      rw [State.leaked_frame]
      rfl
    rw [State.leaked_succ, hbkt, State.memberAt_modMember]
    split
    · next h =>
      subst h
      rw [ih, if_neg (Nat.lt_irrefl m), if_pos m.lt_succ_self]
    · next h => simp only [ih, Nat.lt_succ_iff_lt_or_eq, h, or_false]

/-! ## What each command does -/

section
variable {s : State} {m : Fin 32} (hm : s.hasMember m.val = true)
include hm

theorem exec_ackDue : exec (.ackDue m) s = .next (s.modMember m.val fun x =>
    if x.rxUnacked = 0 then x else ({ x with rxUnacked := 0 }).due (ackRecord ((x.rxSeq + 1023) % 1024))) :=
  guardUnit_eq hm

theorem exec_ack (seq : BitVec 16) : exec (.ack m seq) s = .next (s.modMember m.val (·.acked seq.toNat)) :=
  guardUnit_eq hm

theorem exec_nak (seq : BitVec 16) : exec (.nak m seq) s = .next (s.nakOn m.val seq.toNat) := guardUnit_eq hm

theorem exec_credit (vc cls : BitVec 8) (g : BitVec 32) :
    exec (.credit m vc cls g) s = .next (s.modMember m.val fun x =>
      { x with credit := tmod (0, 0) x.credit (credKey vc.toNat cls.toNat) fun c => (g.toNat, c.2) }) :=
  guardUnit_eq hm

theorem exec_state (v : BitVec 8) : exec (.state m v) s = .next (s.peerState m.val v) := guardUnit_eq hm

theorem exec_retrainComplete_done (hst : (s.memberAt m.val).st = .retraining)
    (ht : s.stb.ticks ≤ (s.memberAt m.val).retrainStart + retrainBound m.val) :
    exec (.retrainComplete m) s = .next (s.modMember m.val MemberSt.retrained) :=
  (guardUnit_eq hm).trans (congrArg _ (State.modMember_congr _ _ (if_pos ⟨hst, ht⟩)))

theorem exec_retrainComplete_none (h : (s.memberAt m.val).st ≠ .retraining
    ∨ (s.memberAt m.val).retrainStart + retrainBound m.val < s.stb.ticks) :
    exec (.retrainComplete m) s = .next (s.modMember m.val id) := by
  refine (guardUnit_eq hm).trans (congrArg _ (State.modMember_congr _ _ (if_neg fun ⟨hst, ht⟩ => ?_)))
  rcases h with h | h
  · exact h hst
  · exact Nat.not_lt.mpr ht h

theorem exec_retrainTimeout_late (hst : (s.memberAt m.val).st = .retraining)
    (ht : (s.memberAt m.val).retrainStart + retrainBound m.val ≤ s.stb.ticks) :
    exec (.retrainTimeout m) s = .next (s.withdraw m.val) :=
  (guardUnit_eq hm).trans (if_pos ⟨hst, ht⟩)

theorem exec_retrainTimeout_early (h : (s.memberAt m.val).st ≠ .retraining
    ∨ s.stb.ticks < (s.memberAt m.val).retrainStart + retrainBound m.val) :
    exec (.retrainTimeout m) s = .next s := by
  refine (guardUnit_eq hm).trans (if_neg fun ⟨hst, ht⟩ => ?_)
  rcases h with h | h
  · exact h hst
  · exact Nat.not_lt.mpr ht h

end

theorem exec_bucketLeak (s : State) : exec .bucketLeak s = .next (s.leaked 32) := rfl

/-- PARENT_RESELECT in holdover takes the parent link that it finds (R438). -/
theorem exec_parentReselect {s : State} {v : Vec3} {g : TopoCfg} {p : Fin 24} (hst : s.stb.st = .holdover)
    (hp : s.stb.parent = none) (hv : s.stb.gm = some v) (hg : s.topoCfg = some g)
    (h : s.parentToward [2, 1, 0] v = some p) : exec .parentReselect s = .next { s with stb := { s.stb with
      parent := some p, hops := g.hops v, exch := none, meas := none, lastExch := s.stb.ticks - 10000 } } := by
  dsimp only [exec, execParentReselect]
  rw [hst, hp, hv, hg]
  dsimp only
  rw [h]

/-- Settles O38, by what each record, the end of a retraining and a leak make of their members. That a partner's state
of 2 or more takes this end out of service is the model's choice (assumption log 32). -/
theorem linkStateRecordsAndRetraining : Obligations.LinkStateRecordsAndRetraining := by
  refine ⟨fun s m hm => ?_, fun s => ⟨fun m hm => ?_, ?_, fun v g p hst hp hv hg h => ?_⟩⟩
  · intro x only
    have honly (f : MemberSt → MemberSt) : only (s.modMember m.val f) :=
      ⟨s.memberAt_modMember_other m.val f, rfl⟩
    have hself (f : MemberSt → MemberSt) : (s.modMember m.val f).memberAt m.val = f x :=
      s.memberAt_modMember_self m.val f
    refine ⟨⟨_, exec_ackDue hm, honly _, ?_⟩,
      fun seq => ⟨fun a b f hu hf ha => ⟨?_, fun hst ht hb => ?_⟩, fun hn => ⟨?_, ?_⟩⟩,
      fun vc cls g => ⟨_, exec_credit hm vc cls g, honly _, ?_⟩, fun v => ⟨fun hv => ?_, fun hv => ?_⟩⟩
    · rw [hself]
      split
      · next h => exact ⟨h, (List.append_nil _).symm⟩
      · exact ⟨rfl, rfl⟩
    · refine ⟨_, exec_ack hm seq, honly _, ?_⟩
      rw [hself]
      exact x.acked_drops hu hf ha
    · obtain ⟨hothers, hframe, hy⟩ := State.nakOn_replays hst (x.findIdx?_unacked hu hf ha) ht hb
      refine ⟨_, exec_nak hm seq, ⟨hothers, hframe⟩, ?_⟩
      rw [hy]
      exact ⟨(congrArg (List.drop a.length) hu).trans List.drop_left, rfl, rfl, rfl⟩
    · refine ⟨_, exec_ack hm seq, honly _, ?_⟩
      rw [hself, MemberSt.acked_none hn]
    · rw [exec_nak hm, State.nakOn_none hn]
    · rw [hself]
      exact ⟨by rw [tget_tmod_self], fun k hk => tget_tmod_other (0, 0) x.credit (fun c => (g.toNat, c.2)) hk⟩
    · refine ⟨_, (exec_state hm v).trans (congrArg _ (State.peerState_up hv)), honly _, ?_⟩
      rw [hself]
      exact x.hears_eq v
    · exact ⟨_, exec_state hm v, State.peerState_down hv⟩
  · intro x last
    refine ⟨fun hst => ⟨fun ht => ⟨_, exec_retrainComplete_done hm hst ht, ?_⟩,
        fun ht => ⟨_, exec_retrainTimeout_late hm hst ht, ?_⟩⟩,
      fun h => ⟨_, exec_retrainComplete_none hm h, fun j => ?_, rfl⟩, exec_retrainTimeout_early hm⟩
    · have hy := s.memberAt_modMember_self m.val MemberSt.retrained
      exact ⟨congrArg MemberSt.st hy, congrArg MemberSt.resend hy, congrArg MemberSt.ctrl hy,
        s.memberAt_modMember_other m.val _, rfl⟩
    · refine (s.withdraw_withdrawn m.val).resolve_right fun ⟨hd, _⟩ => ?_
      cases hst.symm.trans hd
    · rw [State.memberAt_modMember]
      split
      · next hj => rw [hj, id]
      · rfl
  · refine ⟨_, exec_bucketLeak s, fun m hm => ?_, s.leaked_frame 32⟩
    rw [State.memberAt_leaked, if_pos hm]
    rfl
  · exact ⟨_, exec_parentReselect hst hp hv hg h, rfl, hst, rfl⟩

end Sys2Proof.Machine
end

section
/-! Flits received (O40): what a flit that is refused, and one that is accepted, make of their member. -/

namespace Sys2Proof.Machine

/-! ## A flit that is accepted joins its message (R389, R469-R471, R504) -/

section
variable (s : State) (m : Nat)

theorem State.receivers_fillBuf (p : Partial) (body : Bytes) : ReceiversKept s (s.fillBuf m p body) := by
  unfold State.fillBuf
  split
  · exact .refl s
  · dsimp only
    split
    · exact .refl s
    · exact .of_member rfl

theorem State.receivers_wholeMsg (vc : Nat) (p : Partial) (now : Nat) : ReceiversKept s (s.wholeMsg m vc p now) := by
  unfold State.wholeMsg
  split
  · exact s.receivers_freeOf ..
  · exact (ReceiversKept.modMember s m).trans (State.receivers_stampPhase ..)

theorem State.receivers_joinPart (f : Flit) : ReceiversKept s (s.joinPart m f) := by
  unfold State.joinPart
  extract_lets now freed buf started u
  have hfreed : ReceiversKept s freed := by
    dsimp only [freed]
    split
    · exact s.receivers_freeOf ..
    · exact .refl s
  have hbuf : ReceiversKept s buf.1 := by
    dsimp only [buf]
    split
    · exact hfreed.trans (freed.receivers_takeBuf ..)
    · exact hfreed
  have hu : ReceiversKept s u := by
    dsimp only [u, started]
    split
    · exact hbuf
    · exact .refl s
  split
  · exact hu
  next p _ =>
  have hfill := hu.trans (u.receivers_fillBuf m p f.body)
  extract_lets filled last
  split
  · exact hfill.trans (.modMember _ m)
  have hlast : ReceiversKept s last := hfill.trans (.modMember _ m)
  split
  · exact hlast.trans (last.receivers_wholeMsg ..)
  · exact hlast.trans (last.receivers_innerIn ..)

end

/-! ## A flit that is refused (R468, R480, R489) -/

/-- A member that refuses a flit: one NAK names the number that it expects. -/
def MemberSt.refuses (x : MemberSt) : MemberSt :=
  if x.nakSent then x else ({ x with nakSent := true }).due (nakRecord x.rxSeq)

theorem MemberSt.refuses_eq (x : MemberSt) : x.refuses =
    { x with nakSent := true, ctrl := x.ctrl ++ (if x.nakSent then [] else [nakRecord x.rxSeq]) } := by
  unfold MemberSt.refuses
  split
  · next h =>
    rw [List.append_nil, ← h]
  · rfl

section
variable {s : State} {m : Nat}

theorem State.memberAt_refuse : (s.refuse m).memberAt m = (s.memberAt m).refuses := State.memberAt_modMember_self ..

/-- An event below the limit of the UNCORR bucket counts in it. -/
theorem State.uncorrEvent_counts (h : (s.memberAt m).uncorrB + 1 < bits (s.bktOf m) 63 56) :
    s.uncorrEvent m = s.modMember m fun x => { x with uncorrB := x.uncorrB + 1 } :=
  if_neg (Nat.not_le.mpr h)

/-- A wire unit that is discarded counts, below the limit of the UNCORR bucket, and is refused. -/
theorem State.badFlit_refuses (h : (s.memberAt m).uncorrB + 1 < bits (s.bktOf m) 63 56) :
    (s.badFlit m).memberAt m =
      { (s.memberAt m).refuses with
        uncorrCnt := satInc (s.memberAt m).uncorrCnt, uncorrB := (s.memberAt m).uncorrB + 1 }
    ∧ ∀ j, j ≠ m → (s.badFlit m).memberAt j = s.memberAt j := by
  have hrefused : ((s.modMember m fun x => { x with uncorrCnt := satInc x.uncorrCnt }).refuse m).memberAt m =
      { (s.memberAt m).refuses with uncorrCnt := satInc (s.memberAt m).uncorrCnt } := by
    rw [State.memberAt_refuse, State.memberAt_modMember_self, MemberSt.refuses_eq, MemberSt.refuses_eq]
  rw [State.badFlit, State.uncorrEvent_counts (by rw [hrefused, MemberSt.refuses_eq]; exact h)]
  refine ⟨?_, fun j hj => ?_⟩
  · rw [State.memberAt_modMember_self, hrefused, MemberSt.refuses_eq]
  · rw [State.memberAt_modMember_other _ _ _ _ hj]
    exact (State.memberAt_modMember_other _ _ _ _ hj).trans (State.memberAt_modMember_other _ _ _ _ hj)

/-! ## A wire unit that is decoded (R467, R468, R489) -/

/-- Between `s` and `u` the check symbols of a wire unit have been used on member `m`: it may have counted
corrections. -/
structure Corrected (s u : State) (m : Nat) : Prop where
  member : ∃ margin err corr, u.memberAt m = { s.memberAt m with margin := margin, marginErr := err, corrCnt := corr }
  others : ∀ j, j ≠ m → u.memberAt j = s.memberAt j
  bkt : u.bktOf m = s.bktOf m

theorem Corrected.refl (s : State) (m : Nat) : Corrected s s m := ⟨⟨_, _, _, rfl⟩, fun _ _ => rfl, rfl⟩

theorem Corrected.modMember {u : State} (h : Corrected s u m) {f : MemberSt → MemberSt}
    (hf : ∀ x, ∃ margin err corr, f x = { x with margin := margin, marginErr := err, corrCnt := corr }) :
    Corrected s (u.modMember m f) m where
  member := by
    obtain ⟨_, _, _, hx⟩ := h.member
    obtain ⟨a, b, c, hy⟩ := hf (u.memberAt m)
    rw [State.memberAt_modMember_self, hy, hx]
    exact ⟨a, b, c, rfl⟩
  others j hj := (State.memberAt_modMember_other _ _ _ _ hj).trans (h.others j hj)
  bkt := h.bkt

theorem Corrected.marginEvent {u : State} (h : Corrected s u m) : Corrected s (u.marginEvent m) m := by
  refine h.modMember fun x => ?_
  split
  · exact ⟨_, _, _, rfl⟩
  · exact ⟨_, _, _, rfl⟩

end

/-- The bytes of a flit in a wire unit, and no bytes where it cannot be decoded. -/
def wireBody (m : Nat) (w : Bytes) : Option Bytes := if m < 24 then (fecDecode w).map (·.1) else some w

/-- The flit that a member takes from the bytes of a wire unit. -/
theorem innerFlit_fields (w : Bytes) : (innerFlit w).vc = (flitOf w).vc ∧ (innerFlit w).seq = (flitOf w).seq := by
  have hfld : fld (w.take 256) 0 2 = fld w 0 2 := by
    simp [fld, slice, List.take_take]
  exact ⟨congrArg (bits · 12 10) hfld, congrArg (· % 1024) hfld⟩

section
variable {s : State} {m : Fin 32} {w : Bytes} (hm : s.hasMember m.val = true)
include hm

theorem exec_flitReceive_unheard (ha : (s.memberAt m.val).st ≠ .active) (hr : (s.memberAt m.val).st ≠ .retraining) :
    exec (.flitReceive m w) s = .next s :=
  (guardUnit_eq hm).trans (if_pos ⟨ha, hr⟩)

/-- A wire unit that a member in service receives holds a flit, or it is discarded. -/
theorem exec_flitReceive_heard (hst : (s.memberAt m.val).st = .active ∨ (s.memberAt m.val).st = .retraining) :
    ∃ u, Corrected s u m.val ∧
      ((∃ b f, wireBody m.val w = some b ∧ crcOk b = true ∧ f.vc = (flitOf b).vc ∧ f.seq = (flitOf b).seq
          ∧ exec (.flitReceive m w) s = .next (u.goodFlit m.val f))
        ∨ ((∀ b, wireBody m.val w = some b → crcOk b = false)
          ∧ exec (.flitReceive m w) s = .next (u.badFlit m.val))) := by
  dsimp only [exec, execFlitReceive]
  rw [guardUnit_eq hm, if_neg fun ⟨ha, hr⟩ => hst.elim ha hr]
  unfold wireBody
  split
  · cases hd : fecDecode w with
    | none => exact ⟨s, .refl s _, .inr ⟨fun _ h => (nomatch h), rfl⟩⟩
    | some p =>
      obtain ⟨b, n⟩ := p
      dsimp only [Option.map_some]
      have hmargin : Corrected s (if 3 ≤ n then s.marginEvent m.val else s) m.val := by
        split
        · exact (Corrected.refl s _).marginEvent
        · exact .refl s _
      generalize (if 3 ≤ n then s.marginEvent m.val else s) = u at hmargin ⊢
      cases hc : crcOk b with
      | false => exact ⟨u, hmargin, .inr ⟨fun c h => Option.some.inj h ▸ hc, rfl⟩⟩
      | true =>
        have hcorr : Corrected s
            (if 0 < n then u.modMember m.val fun x => { x with corrCnt := satInc x.corrCnt } else u) m.val := by
          split
          · exact hmargin.modMember fun x => ⟨_, _, _, rfl⟩
          · exact hmargin
        exact ⟨_, hcorr, .inl ⟨b, flitOf b, rfl, hc, rfl, rfl, rfl⟩⟩
  · cases hc : crcOk w with
    | false => exact ⟨s, .refl s _, .inr ⟨fun b h => Option.some.inj h ▸ hc, rfl⟩⟩
    | true => exact ⟨s, .refl s _, .inl ⟨w, innerFlit w, rfl, hc, (innerFlit_fields w).1, (innerFlit_fields w).2, rfl⟩⟩

theorem exec_flitReceive_bad (hst : (s.memberAt m.val).st = .active ∨ (s.memberAt m.val).st = .retraining)
    (h : ∀ b, wireBody m.val w = some b → crcOk b = false) :
    ∃ u, Corrected s u m.val ∧ exec (.flitReceive m w) s = .next (u.badFlit m.val) := by
  obtain ⟨u, hu, ⟨b, -, hb, hc, -⟩ | ⟨-, hexec⟩⟩ := exec_flitReceive_heard (w := w) hm hst
  · exact absurd ((h b hb).symm.trans hc) Bool.false_ne_true
  · exact ⟨u, hu, hexec⟩

theorem exec_flitReceive_good (hst : (s.memberAt m.val).st = .active ∨ (s.memberAt m.val).st = .retraining) {b : Bytes}
    (hb : wireBody m.val w = some b) (hc : crcOk b = true) :
    ∃ u f, Corrected s u m.val ∧ f.vc = (flitOf b).vc ∧ f.seq = (flitOf b).seq
      ∧ exec (.flitReceive m w) s = .next (u.goodFlit m.val f) := by
  obtain ⟨u, hu, ⟨c, f, hw, -, hvc, hseq, hexec⟩ | ⟨h, -⟩⟩ := exec_flitReceive_heard (w := w) hm hst
  · obtain rfl : b = c := Option.some.inj (hb.symm.trans hw)
    exact ⟨u, f, hu, hvc, hseq, hexec⟩
  · exact absurd ((h b hb).symm.trans hc) Bool.false_ne_true

end

/-! ## A flit whose check sequence holds (R464, R480) -/

section
variable {s : State} {m : Nat} {f : Flit}

theorem State.goodFlit_idle (h : f.vc = 7) : s.goodFlit m f = s := by
  rw [State.goodFlit, h]
  rfl

theorem State.goodFlit_refuses (hv : f.vc < 6) (h : f.seq ≠ (s.memberAt m).rxSeq) :
    (s.goodFlit m f).memberAt m = (s.memberAt m).refuses := by
  unfold State.goodFlit
  rw [if_neg (by omega), if_neg (by omega), if_pos h]
  exact State.memberAt_modMember_self ..

/-- The next flit in sequence advances the member's place, whatever becomes of its message. -/
theorem State.goodFlit_accepts (hv : f.vc < 6) (h : f.seq = (s.memberAt m).rxSeq) :
    ((s.goodFlit m f).memberAt m).receiver = ((s.memberAt m).st, ((s.memberAt m).rxSeq + 1) % 1024, false,
      (s.memberAt m).rxUnacked + 1) := by
  unfold State.goodFlit
  rw [if_neg (by omega), if_neg (by omega), if_neg (not_not_intro h)]
  refine ((State.receivers_joinPart _ m f).receiver m).trans ?_
  rw [State.memberAt_modMember_self]
  rfl

end

/-- Settles O40, by what a wire unit that is discarded and a flit that is refused or accepted leave of their member. -/
theorem flitReceiveAcceptsInSequence : Obligations.FlitReceiveAcceptsInSequence := by
  intro s m w hm x body refused
  refine ⟨exec_flitReceive_unheard hm, fun hst => ⟨fun hbad hlim => ?_, fun b hb hc hv hne => ?_,
    fun b hb hc hv heq => ?_, fun b hb hc hv => ?_⟩⟩
  · obtain ⟨u, hu, hexec⟩ := exec_flitReceive_bad hm hst hbad
    obtain ⟨margin, err, corr, hmember⟩ := hu.member
    have hlim' : (u.memberAt m.val).uncorrB + 1 < bits (u.bktOf m.val) 63 56 := by
      rw [hmember, hu.bkt]
      exact hlim
    obtain ⟨hy, hothers⟩ := State.badFlit_refuses hlim'
    rw [MemberSt.refuses_eq, hmember] at hy
    refine ⟨_, hexec, ?_, ?_, fun j hj => (hothers j hj).trans (hu.others j hj)⟩
    · rw [hy]
      exact ⟨rfl, rfl, rfl⟩
    · rw [hy]
  · obtain ⟨u, f, hu, hvc, hseq, hexec⟩ := exec_flitReceive_good hm hst hb hc
    obtain ⟨margin, err, corr, hmember⟩ := hu.member
    have hy := State.goodFlit_refuses (s := u) (m := m.val) (hvc ▸ hv) (by rw [hseq, hmember]; exact hne)
    rw [MemberSt.refuses_eq, hmember] at hy
    refine ⟨_, hexec, ?_, ?_⟩
    · rw [hy]
      exact ⟨rfl, rfl, rfl⟩
    · rw [hy]
  · obtain ⟨u, f, hu, hvc, hseq, hexec⟩ := exec_flitReceive_good hm hst hb hc
    obtain ⟨margin, err, corr, hmember⟩ := hu.member
    have hy := State.goodFlit_accepts (s := u) (m := m.val) (hvc ▸ hv) (by rw [hseq, hmember]; exact heq)
    rw [hmember] at hy
    obtain ⟨-, hrx, hnak, hun⟩ := MemberSt.receiver_eq (y := { x with
      rxSeq := (x.rxSeq + 1) % 1024, nakSent := false, rxUnacked := x.rxUnacked + 1 }) hy
    exact ⟨_, hexec, hrx, hnak, hun⟩
  · obtain ⟨u, f, hu, hvc, -, hexec⟩ := exec_flitReceive_good hm hst hb hc
    obtain ⟨margin, err, corr, hmember⟩ := hu.member
    rw [State.goodFlit_idle (hvc.trans hv)] at hexec
    exact ⟨u, hexec, (congrArg MemberSt.rxSeq hmember :), (congrArg MemberSt.ctrl hmember :)⟩

end Sys2Proof.Machine
end

section
/-! Messages received (O41): a stray, a halt message and a data message that is next in its stream. -/

namespace Sys2Proof.Machine

/-! ## A message that leaves its link (R389, R474) -/

section
variable {s : State} {m : Nat} {r : RxMsg} {rest : List RxMsg}

/-- A buffer that is freed leaves the data and the messages that were delivered, and each link's arrivals. -/
theorem State.freeOf_arrivals (s : State) (link vc : Nat) (buf : Option Nat) :
    (∀ k, ((s.freeOf link vc buf).memberAt k).inbox = (s.memberAt k).inbox)
    ∧ (s.freeOf link vc buf).net.rx = s.net.rx ∧ (s.freeOf link vc buf).net.delivered = s.net.delivered := by
  obtain ⟨hmembers, hframe⟩ := s.freeOf_grants link vc buf
  exact ⟨fun k => (congrArg MemberSt.inbox (hmembers k) :), (congrArg (·.net.rx) hframe :),
    (congrArg (·.net.delivered) hframe :)⟩

variable (hin : (s.memberAt m).inbox = r :: rest)
include hin

theorem State.inbox_popInbox : ((s.popInbox m).memberAt m).inbox = rest := by
  rw [State.popInbox, State.memberAt_modMember_self, hin]
  rfl

theorem State.dropMsg_arrivals : ((s.dropMsg m r).memberAt m).inbox = rest ∧ (s.dropMsg m r).net.rx = s.net.rx
    ∧ (s.dropMsg m r).net.delivered = s.net.delivered := by
  obtain ⟨hinbox, hrx, hdelivered⟩ := (s.popInbox m).freeOf_arrivals r.link r.vc r.buf
  exact ⟨(hinbox m).trans (State.inbox_popInbox hin), hrx, hdelivered⟩

/-- A stray message is gone, and STRAY is set. -/
theorem State.strayMsg_arrivals {t : State} (ht : t = (s.dropMsg m r).modXs 4 fun x => { x with stray := true }) :
    (t.xsAt 4).stray = true ∧ (t.memberAt m).inbox = rest ∧ t.net.rx = s.net.rx
    ∧ t.net.delivered = s.net.delivered := by
  subst ht
  obtain ⟨hinbox, hrx, hdelivered⟩ := State.dropMsg_arrivals hin
  exact ⟨congrArg XsSt.stray ((State.xsAt_modXs ..).trans (if_pos rfl)), hinbox, hrx, hdelivered⟩

end

/-! ## Halt messages (R473, R474, R738, R739) -/

/-- From `s` to `t` a message of VC0 has left its link and joined the arrivals, without its buffer. -/
structure Arrives (s t : State) (m : Nat) (r : RxMsg) (rest : List RxMsg) : Prop where
  delivered : t.net.delivered = s.net.delivered ++ [{ r with buf := none }]
  inbox : (t.memberAt m).inbox = rest

section
variable {s : State} {m : Nat} {r : RxMsg} {rest : List RxMsg} (hh : r.isHalt = true)
include hh

theorem RxMsg.vc_of_isHalt : r.vc = 0 := by
  rw [RxMsg.isHalt, Bool.and_eq_true] at hh
  exact eq_of_beq hh.1

theorem State.recvCtl_halt : s.recvCtl m r = s.recvHalt m r := if_pos hh

theorem State.passCtl_halt : s.passCtl m r = some ((s.popInbox m).deliverCtl r) := by
  rw [State.passCtl, hh]
  rfl

theorem State.deliverCtl_arrives (hin : (s.memberAt m).inbox = r :: rest) :
    Arrives s ((s.popInbox m).deliverCtl r) m r rest := by
  obtain ⟨hinbox, -, hdelivered⟩ := (s.popInbox m).freeOf_arrivals r.link 0 r.buf
  unfold State.deliverCtl
  rw [if_pos (RxMsg.vc_of_isHalt hh), if_pos (RxMsg.vc_of_isHalt hh)]
  exact ⟨congrArg (fun l => l ++ [{ r with buf := none }]) hdelivered, (hinbox m).trans (State.inbox_popInbox hin)⟩

theorem State.recvHalt_arrives {c : Fin 4} (hin : (s.memberAt m).inbox = r :: rest)
    (hc : s.ctxOfJob (msgHdr r.hdr).job = some c)
    (hn : (s.ctxAt c.val).epoch.toNat ≠ (msgHdr r.hdr).epoch ∨ ∀ g, s.groupOf m = some g →
      ((s.streamAt (streamKey c.val g 0 (msgHdr r.hdr).cls)).fresh (msgHdr r.hdr).seq).isSome = true) :
    Arrives s (s.recvHalt m r) m r rest := by
  have harrives := State.deliverCtl_arrives hh hin
  unfold State.recvHalt
  dsimp only
  rw [hc]
  dsimp only
  split
  · next he =>
    have hnew := hn.resolve_left (not_not_intro he)
    unfold State.passNew
    rw [State.passCtl_halt hh, RxMsg.vc_of_isHalt hh]
    split
    · exact harrives
    · next g hg =>
      obtain ⟨t, ht⟩ := Option.isSome_iff_exists.mp (hnew g hg)
      dsimp only
      rw [ht]
      exact ⟨harrives.delivered, harrives.inbox⟩
  · rw [State.passCtl_halt hh]
    exact harrives

theorem State.recvHalt_repeats {c : Fin 4} {g : Nat} (hc : s.ctxOfJob (msgHdr r.hdr).job = some c)
    (he : (s.ctxAt c.val).epoch.toNat = (msgHdr r.hdr).epoch) (hg : s.groupOf m = some g)
    (hf : (s.streamAt (streamKey c.val g 0 (msgHdr r.hdr).cls)).fresh (msgHdr r.hdr).seq = none) :
    s.recvHalt m r = s.dropMsg m r := by
  unfold State.recvHalt State.passNew
  dsimp only
  rw [hc]
  dsimp only
  rw [if_pos he, hg, RxMsg.vc_of_isHalt hh]
  dsimp only
  rw [hf]

end

/-! ## Data messages in order (R389, R472, R827) -/

/-- What a message brings to the data that its link group delivers: its bytes lie in its Market buffer, where it has
one. -/
def RxMsg.chunk (r : RxMsg) : RxChunk :=
  { data := if r.buf.isSome then [] else r.payload, at_ := 0, len := r.payload.length, link := r.link, vc := r.vc,
    buf := r.buf }

section
variable {s : State} {m g : Nat} {r : RxMsg} {c : Fin 4} {cfg : JobCfg}

/-- From `s` to `t` nothing but the links changes. -/
def NetOnly (s t : State) : Prop := t = { s with net := t.net }

theorem NetOnly.trans {s t u : State} (h : NetOnly s t) (h' : NetOnly t u) : NetOnly s u := Eq.trans h' (by rw [h])

theorem State.netOnly_popInbox (s : State) (m : Nat) : NetOnly s (s.popInbox m) := rfl

theorem State.netOnly_modStream (s : State) (k : Nat) (f : StreamSt → StreamSt) : NetOnly s (s.modStream k f) := rfl

theorem State.netOnly_deliverData (s : State) (g : Nat) (r : RxMsg) : NetOnly s (s.deliverData g r) := rfl

theorem State.memberAt_modStream (s : State) (k j : Nat) (f : StreamSt → StreamSt) :
    (s.modStream k f).memberAt j = s.memberAt j := rfl

theorem State.memberAt_deliverData (s : State) (g j : Nat) (r : RxMsg) :
    (s.deliverData g r).memberAt j = s.memberAt j := rfl

theorem State.streamAt_deliverData (s : State) (g k : Nat) (r : RxMsg) :
    (s.deliverData g r).streamAt k = s.streamAt k := rfl

theorem State.rx_modStream (s : State) (k : Nat) (f : StreamSt → StreamSt) : (s.modStream k f).net.rx = s.net.rx := rfl

theorem State.rx_popInbox (s : State) (m : Nat) : (s.popInbox m).net.rx = s.net.rx := rfl

theorem State.streamAt_popInbox (s : State) (m k : Nat) : (s.popInbox m).streamAt k = s.streamAt k := rfl

theorem State.rx_deliverData (s : State) (g : Nat) (r : RxMsg) :
    tget [] (s.deliverData g r).net.rx (rxKey g r.vc (msgHdr r.hdr).cls)
      = tget [] s.net.rx (rxKey g r.vc (msgHdr r.hdr).cls) ++ [r.chunk] :=
  tget_tmod_self [] s.net.rx (rxKey g r.vc (msgHdr r.hdr).cls) fun l => l ++ [r.chunk]

theorem openMsg_clear {x : CtxSt} {t : StreamSt} (he : (msgHdr r.hdr).enc = false) (hl : x.lsec.covers r.vc = false) :
    openMsg x cfg g t r = some r := by
  rw [openMsg, he]
  exact if_neg (ne_true_of_eq_false hl)

theorem State.clearBuf_clear (he : (msgHdr r.hdr).enc = false) : s.clearBuf r = s := by
  unfold State.clearBuf
  split
  · exact if_neg (ne_true_of_eq_false he)
  · rfl

/-- A message in the clear that is next in its stream is delivered. -/
theorem State.recvData_next (hr : s.resident = some c) (hcfg : (s.ctxAt c.val).cfg = some cfg)
    (hg : s.groupOf m = some g)
    (hj : s.judgeJob (BitVec.ofNat 16 (msgHdr r.hdr).job) (BitVec.ofNat 16 (msgHdr r.hdr).epoch) = .apply)
    (hd : (msgHdr r.hdr).dst = cfg.topo.self) (he : (msgHdr r.hdr).enc = false)
    (hl : (s.ctxAt c.val).lsec.covers r.vc = false)
    (hq : (s.streamAt (streamKey c.val g r.vc (msgHdr r.hdr).cls)).expect % 65536 = (msgHdr r.hdr).seq)
    (hheld : (s.streamAt (streamKey c.val g r.vc (msgHdr r.hdr).cls)).held = []) :
    s.recvData m r = ((s.popInbox m).modStream (streamKey c.val g r.vc (msgHdr r.hdr).cls)
      fun t => { t with expect := t.expect + 1 }).deliverData g r := by
  unfold State.recvData
  dsimp only
  rw [hj, State.cur_resident hr rfl, hg]
  dsimp only
  rw [hcfg]
  dsimp only
  rw [if_neg (not_not_intro hd), openMsg_clear he hl]
  dsimp only
  rw [State.clearBuf_clear he, hq, hheld, Nat.add_sub_cancel_left, Nat.mod_self, if_pos rfl]
  rfl

end

/-! ## MESSAGE_RECEIVE -/

section
variable {s : State} {m : Fin 24} {r : RxMsg} {rest : List RxMsg} (hm : m.val < s.links)
include hm

theorem exec_messageReceive_none (h : (s.memberAt m.val).inbox = []) : exec (.messageReceive m) s = .next s := by
  refine (guardUnit_eq (decide_eq_true hm)).trans ?_
  rw [h]

variable (hin : (s.memberAt m.val).inbox = r :: rest)
include hin

theorem exec_messageReceive_ctl (hv : r.vc ≤ 1) : exec (.messageReceive m) s = .next (s.recvCtl m.val r) := by
  refine (guardUnit_eq (decide_eq_true hm)).trans ?_
  rw [hin]
  exact if_pos hv

theorem exec_messageReceive_data (hv : ¬r.vc ≤ 1) : exec (.messageReceive m) s = .next (s.recvData m.val r) := by
  refine (guardUnit_eq (decide_eq_true hm)).trans ?_
  rw [hin]
  exact if_neg hv

theorem exec_messageReceive_halt (hh : r.isHalt = true) :
    exec (.messageReceive m) s = .next (s.recvHalt m.val r) := by
  rw [exec_messageReceive_ctl hm hin ((RxMsg.vc_of_isHalt hh).symm ▸ Nat.zero_le 1), State.recvCtl_halt hh]

theorem exec_messageReceive_stray (hh : r.isHalt = false)
    (hj : s.judgeJob (BitVec.ofNat 16 (msgHdr r.hdr).job) (BitVec.ofNat 16 (msgHdr r.hdr).epoch) = .stray) :
    exec (.messageReceive m) s = .next ((s.dropMsg m.val r).modXs 4 fun x => { x with stray := true }) := by
  by_cases hv : r.vc ≤ 1
  · rw [exec_messageReceive_ctl hm hin hv, State.recvCtl, if_neg (ne_true_of_eq_false hh), hj]
  · rw [exec_messageReceive_data hm hin hv, State.recvData, hj]

end

/-- Settles O41, by what a stray, a halt message and a data message that is next in its stream become. That a halt
message is judged by R739, and not by the epochs of R474, is the model's choice (assumption logs 28 and 70). -/
theorem messagesAreReceivedInOrder : Obligations.MessagesAreReceivedInOrder := by
  intro s m hm
  refine ⟨exec_messageReceive_none hm, fun r rest hin => ?_⟩
  intro h
  refine ⟨fun hj hh => ⟨_, exec_messageReceive_stray hm hin hh hj, State.strayMsg_arrivals hin rfl⟩,
    fun hh => ⟨fun hc => ?_, fun c hc hn => ?_, fun c g hc he hg hf => ?_⟩,
    fun c cfg g hv hr hcfg hg hj hd he hl hq hheld => ?_⟩
  · have hexec := exec_messageReceive_halt hm hin hh
    have hstray : s.recvHalt m.val r = (s.dropMsg m.val r).modXs 4 fun x => { x with stray := true } := by
      rw [State.recvHalt, hc]
    obtain ⟨hset, hinbox, -, hdelivered⟩ := State.strayMsg_arrivals hin hstray
    exact ⟨_, hexec, hset, hinbox, hdelivered⟩
  · have harrives := State.recvHalt_arrives hh hin hc hn
    exact ⟨_, exec_messageReceive_halt hm hin hh, harrives.delivered, harrives.inbox⟩
  · obtain ⟨hinbox, -, hdelivered⟩ := State.dropMsg_arrivals hin
    rw [← State.recvHalt_repeats hh hc he hg hf] at hinbox hdelivered
    exact ⟨_, exec_messageReceive_halt hm hin hh, hdelivered, hinbox⟩
  · have hexec := exec_messageReceive_data hm hin (Nat.not_le.mpr hv)
    rw [State.recvData_next hr hcfg hg hj hd he hl hq hheld] at hexec
    refine ⟨_, hexec, ?_, ?_, ?_, ?_⟩
    · rw [State.memberAt_deliverData, State.memberAt_modStream, State.inbox_popInbox hin]
    · rw [State.rx_deliverData, State.rx_modStream, State.rx_popInbox]
      rfl
    · rw [State.streamAt_deliverData, State.streamAt_modStream, if_pos rfl, State.streamAt_popInbox]
    · exact ((s.netOnly_popInbox m.val).trans (State.netOnly_modStream ..)).trans (State.netOnly_deliverData ..)

end Sys2Proof.Machine
end

section
/-! What accesses to the stores at physical addresses leave as it is: the layer that the ops of the UEs and CXs (O22)
rest on. -/

namespace Sys2Proof.Machine

/-- `t` comes from `s` by accesses to stores and by what their readers report: nothing but the stores, the registers of
cores, the stacks' controllers, the fault wires and the note of a region violation differs. -/
def StoreAccess (s t : State) : Prop :=
  t = { s with mem := t.mem, core := t.core, stack := t.stack, flt := t.flt, sec := t.sec }

theorem StoreAccess.refl (s : State) : StoreAccess s s := rfl

theorem StoreAccess.trans {s t u : State} (h : StoreAccess s t) (h' : StoreAccess t u) : StoreAccess s u :=
  Eq.trans h' (by rw [h])

theorem HbmAccess.storeAccess {s t : State} (h : HbmAccess s t) : StoreAccess s t := Eq.trans h (by rw [h])

/-- A list of accesses is an access. -/
theorem StoreAccess.foldl {α : Type} {s t : State} {op : State → α → State} (h : StoreAccess s t)
    (hop : ∀ t a, StoreAccess t (op t a)) (l : List α) : StoreAccess s (l.foldl op t) :=
  List.foldlRecOn l op (motive := StoreAccess s) h fun _ hu a _ => hu.trans (hop _ a)

section
variable (s : State) (n : Option (BitVec 64)) (a : Nat)

/-! ## Faults of the stores (R720-R724, R826) -/

theorem State.storeAccess_strike (f : ParFlip) : StoreAccess s (s.strike f) := by
  unfold State.strike
  dsimp only
  split <;> rfl

theorem State.storeAccess_strikes (o : HwObs) : StoreAccess s (s.strikes o) :=
  (StoreAccess.refl s).foldl (fun t f => t.storeAccess_strike f) o.flips

theorem State.storeAccess_parFaults (e : Option EngRef) (bad : List Nat) : StoreAccess s (s.parFaults e n bad) := by
  unfold State.parFaults
  split
  · rfl
  · refine StoreAccess.foldl ?_ ?_ _
    · cases e <;> rfl
    · exact fun _ _ => rfl

theorem State.storeAccess_observe (e : EngRef) (n : BitVec 64) (bad : List Nat) (residue : Bool) :
    StoreAccess s (s.observe e n bad residue) := by
  have hfaults := s.storeAccess_parFaults (some n) (some e) bad
  unfold State.observe
  dsimp only
  split
  · exact hfaults.trans rfl
  · exact hfaults

theorem State.storeAccess_violate (who : Issuer) : StoreAccess s (s.violate who n) := by cases who <;> rfl

/-! ## Reads and writes (R322, R826) -/

theorem State.storeAccess_memRead (e : Option EngRef) (len : Nat) : StoreAccess s (s.memRead e n a len).1 := by
  have hfaults := s.storeAccess_parFaults n e (s.parBad (s.parRange a len))
  unfold State.memRead
  dsimp only
  split
  · exact (s.hbmAccess_hbmLines n false _).storeAccess
  · exact hfaults
  · exact hfaults
  · exact hfaults
  · rfl

theorem State.storeAccess_memWrite (bs : Bytes) : StoreAccess s (s.memWrite n a bs) := by
  unfold State.memWrite
  split
  · exact (s.hbmAccess_hbmWriteGo a n bs _).storeAccess
  all_goals rfl

theorem State.storeAccess_physRead (who : Issuer) (len : Nat) : StoreAccess s (s.physRead who n a len).1 := by
  unfold State.physRead
  split
  · rfl
  · split
    · exact s.storeAccess_violate n who
    · exact s.storeAccess_memRead n a _ len

theorem State.storeAccess_physWrite (who : Issuer) (bs : Bytes) : StoreAccess s (s.physWrite who n a bs) := by
  unfold State.physWrite
  split
  · rfl
  · split
    · exact s.storeAccess_violate n who
    · exact s.storeAccess_memWrite n a bs

end

/-- The descriptor that an address names is the image's, which accesses to the stores do not change. -/
theorem StoreAccess.updAt {s t : State} (h : StoreAccess s t) (a : BitVec 48) : t.updAt a = s.updAt a := by
  rw [h]
  rfl

theorem StoreAccess.cxSlot {s t : State} (h : StoreAccess s t) (die i : Nat) : t.cxSlot die i = s.cxSlot die i := by
  rw [h]
  rfl

end Sys2Proof.Machine
end

section
/-! The issue of UE_RUN, CX_RUN and CX_GNORM (O22). -/

namespace Sys2Proof.Machine

/-- How many ops an engine has issued, its SRB, and how many issued ops wait for their completion. -/
def EngSt.counts (r : EngSt) : Nat × BitVec 64 × Nat := (r.opIdx, r.srb, r.issued.length)

theorem EngSt.counts_push (r : EngSt) (words : Nat) (op : IssuedOp) :
    (r.push words op).counts = (r.opIdx + 1, r.srb, r.issued.length + 1) := by
  simp [EngSt.counts, EngSt.push]

/-- Notes on the issued ops complete none of them. -/
theorem EngSt.counts_mapIssued (r : EngSt) (f : IssuedOp → IssuedOp) :
    ({ r with issued := r.issued.map f } : EngSt).counts = r.counts := by
  rw [EngSt.counts, List.length_map]
  rfl

theorem dieFin_val (die : Fin 4) : dieFin die.val = die := Fin.ext (Nat.mod_eq_of_lt die.isLt)

/-! ## What the chunks of a UE_RUN leave as it is (R594-R607) -/

/-- Nothing but the stores, the engines, the UEs, and what reads count and report differs between `s` and `t`. -/
def UpdateFrame (s t : State) : Prop :=
  t = { s with mem := t.mem, eng := t.eng, core := t.core, ue := t.ue, stack := t.stack, flt := t.flt, sec := t.sec }

theorem UpdateFrame.trans {s t u : State} (h : UpdateFrame s t) (h' : UpdateFrame t u) : UpdateFrame s u :=
  Eq.trans h' (by rw [h])

theorem StoreAccess.updateFrame {s t : State} (h : StoreAccess s t) : UpdateFrame s t := Eq.trans h (by rw [h])

/-- `t` comes from `s` by work on a die's UE_RUN in progress: its UE issues no op and completes none. -/
structure Pumped (die : Nat) (s t : State) : Prop where
  frame : UpdateFrame s t
  counts : (t.engRaw (dieEngOf (dieFin die) .ue)).counts = (s.engRaw (dieEngOf (dieFin die) .ue)).counts

section
variable {die : Nat} {s t u : State}

theorem Pumped.refl (die : Nat) (s : State) : Pumped die s s := ⟨rfl, rfl⟩

theorem Pumped.trans (h : Pumped die s t) (h' : Pumped die t u) : Pumped die s u :=
  ⟨h.frame.trans h'.frame, h'.counts.trans h.counts⟩

theorem StoreAccess.pumped (h : StoreAccess s t) : Pumped die s t :=
  ⟨h.updateFrame, by rw [h]; rfl⟩

theorem State.pumped_modUe (s : State) (die : Nat) (f : UeSt → UeSt) : Pumped die s (s.modUe die f) := ⟨rfl, rfl⟩

theorem Pumped.read (h : Pumped die s t) (who : Issuer) (n : Option (BitVec 64)) (a len : Nat) :
    Pumped die s (t.physRead who n a len).1 := h.trans (t.storeAccess_physRead n a who len).pumped

theorem Pumped.write (h : Pumped die s t) (who : Issuer) (n : Option (BitVec 64)) (a : Nat) (bs : Bytes) :
    Pumped die s (t.physWrite who n a bs) := h.trans (t.storeAccess_physWrite n a who bs).pumped

theorem Pumped.modUe (h : Pumped die s t) (f : UeSt → UeSt) : Pumped die s (t.modUe die f) :=
  h.trans (t.pumped_modUe die f)

theorem Pumped.writeUnless (h : Pumped die s t) (c : Prop) [Decidable c] (who : Issuer) (n : Option (BitVec 64))
    (a : Nat) (bs : Bytes) : Pumped die s (if c then t else t.physWrite who n a bs) := by
  split
  · exact h
  · exact h.write who n a bs

theorem Pumped.wireIf (h : Pumped die s t) (c : Bool) (r : FaultReport) :
    Pumped die s (if c then t.wire r else t) := by
  split
  · exact h.trans ⟨rfl, rfl⟩
  · exact h

theorem Pumped.foldl {α : Type} {op : State → α → State} (h : Pumped die s t)
    (hop : ∀ t a, Pumped die t (op t a)) (l : List α) : Pumped die s (l.foldl op t) :=
  List.foldlRecOn l op (motive := Pumped die s) h fun _ hu a _ => hu.trans (hop _ a)

end

section
variable (s : State) (cfg : JobCfg) (im : Img) (die : Nat) (st : StepSt) (d : UpdDesc) (base : BitVec 64)

theorem State.pumped_journal (o : OptCfg) (cx : Bool) (kind : Nat) (step : BitVec 64) (addr len : Nat) :
    Pumped die s (s.journal o die cx kind step addr len) :=
  ((((Pumped.refl die s).read ..).write ..).write ..).modUe _

theorem State.pumped_runChunk (p n : Nat) : Pumped die s (s.runChunk im cfg die st d base p n).1 := by
  have hjournal := (Pumped.refl die s).foldl
    (fun t (r : Nat × Nat) => t.pumped_journal die cfg.opt false 1 st.no r.1 r.2) (d.chunk p n)
  unfold State.runChunk
  dsimp only
  exact (((((((((hjournal.read ..).read ..).read ..).read ..).write ..).write ..).write ..).write ..).writeUnless ..
    |>.modUe _).wireIf ..

/-- A UE and its engine note what chunks gave. -/
theorem State.pumped_progress (f : UeSt → UeSt) (x : BitVec 4) (done : Bool) :
    let e := dieEngOf (dieFin die) .ue
    Pumped die s ((s.modUe die f).setEng e ((s.engRaw e).ueProgress x done)) :=
  ⟨rfl, by rw [State.engRaw_setEng, EngSt.ueProgress, EngSt.counts_mapIssued]⟩

theorem State.pumped_pumpGo (cs : List (Nat × Nat)) : Pumped die s (s.pumpGo im cfg die st d base cs) := by
  induction cs generalizing s with
  | nil => exact s.pumped_progress die _ 0 true
  | cons c cs ih =>
    rw [State.pumpGo]
    split
    · exact s.pumped_modUe die _
    · split
      · exact s.pumped_modUe die _
      · exact ((s.pumped_runChunk cfg im die st d base c.1 c.2).trans (State.pumped_progress ..)).trans (ih _)

theorem State.pumped_pumpUe : Pumped die s (s.pumpUe die st) := by
  unfold State.pumpUe
  split
  · exact ((Pumped.refl die s).read ..).trans (State.pumped_pumpGo ..)
  · exact .refl die s

theorem State.pumped_pumpDie : Pumped die s (s.pumpDie die) := by
  unfold State.pumpDie
  split
  · exact .refl die s
  · split
    · exact s.pumped_pumpUe die _
    · exact .refl die s

end

/-! ## UE_RUN (R583-R585, R612) -/

theorem ueMay_idle {s : State} {die : Nat} {n : BitVec 64} (h : ueMay s die n = true) :
    (s.ueAt die).cur.isNone = true := (Bool.and_eq_true _ _ ▸ h).1

/-- The package as a UE takes up the descriptor at `a`, from its first chunk. -/
def State.ueTakes (s : State) (die : Nat) (n : BitVec 64) (a : BitVec 48) (srb : BitVec 64) : State :=
  s.modUe die fun u =>
    { u with cur := some (a, 0, srb), spec := ((s.stepAt n).map fun t => t.outcome.isNone).getD false }

section
variable (s : State) (die : Fin 4) (h : OpHdr) (n : BitVec 64)

/-- The package in which a UE_RUN has issued and none of its chunks has run. -/
def State.ueIssued (a : BitVec 48) (o : HwObs) : State :=
  let e := dieEngOf die .ue
  let r := s.engAt e
  ((s.strikes o).ueTakes die.val n a r.srb).issuedSeen (s.strikes o) e (.ueRun die h a noObs) n o
    { r with srb := r.srb + BitVec.ofNat 64 (s.updAt a).count }
    { issuedOp 0x50 h n with done := false, flags := [(h.fslot.toNat, 0#4)] }

theorem State.updateFrame_ueIssued (a : BitVec 48) (o : HwObs) : UpdateFrame s (s.ueIssued die h n a o) := by
  have htaken : UpdateFrame s ((s.strikes o).ueTakes die.val n a (s.engAt (dieEngOf die .ue)).srb) :=
    (s.storeAccess_strikes o).updateFrame.trans rfl
  exact (htaken.trans (State.storeAccess_observe ..).updateFrame).trans rfl

theorem State.counts_ueIssued (a : BitVec 48) (o : HwObs) :
    let r := s.engAt (dieEngOf die .ue)
    ((s.ueIssued die h n a o).engRaw (dieEngOf die .ue)).counts =
      (r.opIdx + 1, r.srb + BitVec.ofNat 64 (s.updAt a).count, r.issued.length + 1) := by
  rw [State.ueIssued, State.issuedSeen, State.issued, State.engRaw_setEng, EngSt.counts_push]

variable {s die h n}

theorem exec_ueRun {a : BitVec 48} {o : HwObs} (m : MayIssue s (dieEngOf die .ue) (.ueRun die h a noObs) h n)
    (hm : ueMay s die.val n = true) (hu : s.rangeUp a.toNat 64 = true) :
    exec (.ueRun die h a o) s = .next ((s.ueIssued die h n a o).pumpDie die.val) := by
  refine (guardUnit_eq (decide_eq_true m.present)).trans ?_
  rw [issue_eq m (by rw [hm, hu]; rfl), (s.storeAccess_strikes o).updAt]
  exact congrArg Host.Outcome.next (if_pos (ueMay_idle hm))

end

/-! ## Op slots of a CX (R527) -/

section
variable (s : State) (die i : Nat) (k : CxSlot)

theorem State.cxSlot_setSlot (die' j : Nat) :
    (s.setSlot die i k).cxSlot die' j = if die' = die ∧ j = i then some k else s.cxSlot die' j := by
  by_cases hd : die' = die
  · subst hd
    rw [State.cxSlot, State.cxAt_setSlot_self]
    simp [State.cxSlot, tget_tset]
  · rw [if_neg fun hc => hd hc.1]
    exact congrArg (fun c : CxSt => tget none c.slots j) ((State.cxAt_modCx ..).trans (if_neg hd))

theorem State.cxSlot_issued (e : EngRef) (c : Instr) (r : EngSt) (op : IssuedOp) (j : Nat) :
    (s.issued e c r op).cxSlot die j = s.cxSlot die j := rfl

/-- What a CX changes besides its op slots leaves the slots of every CX. -/
theorem State.cxSlot_modCx {f : CxSt → CxSt} (hf : ∀ c, (f c).slots = c.slots) (die' j : Nat) :
    (s.modCx die f).cxSlot die' j = s.cxSlot die' j := by
  rw [State.cxSlot, State.cxAt_modCx]
  split
  · next hd => rw [hf, ← hd]; rfl
  · rfl

end

/-! ## CX_RUN (R525-R527, R551) -/

/-- The package as a CX takes up a descriptor in a slot: an op that adds to the norm takes its turn (R558). -/
def State.cxTakes (s : State) (die i : Nat) (k : CxSlot) (d : CollDesc) (opSeq : Nat) : State :=
  (s.setSlot die i k).modCx die fun x => { x with normTurn := if d.norm then x.normTurn ++ [opSeq] else x.normTurn }

theorem State.cxSlot_cxTakes (s : State) (die i : Nat) (k : CxSlot) (d : CollDesc) (opSeq j : Nat) :
    (s.cxTakes die i k d opSeq).cxSlot die j = if j = i then some k else s.cxSlot die j := by
  rw [State.cxTakes, State.cxSlot_modCx, State.cxSlot_setSlot]
  · simp
  · exact fun _ => rfl

/-- Nothing but the stores, the engines, the CXs, and what reads count and report differs between `s` and `t`. -/
def CollectiveFrame (s t : State) : Prop :=
  t = { s with mem := t.mem, eng := t.eng, core := t.core, cx := t.cx, stack := t.stack, flt := t.flt, sec := t.sec }

theorem CollectiveFrame.issued {s t : State} (h : StoreAccess s t) (die i : Nat) (k : CxSlot) (d : CollDesc)
    (opSeq : Nat) (e : EngRef) (c : Instr) (r : EngSt) (op : IssuedOp) :
    CollectiveFrame s ((t.cxTakes die i k d opSeq).issued e c r op) := by
  rw [h]
  rfl

/-- What a CX_RUN of the descriptor bytes `bs` puts into its slot. -/
def State.cxRunSlot (s : State) (die : Fin 4) (h : OpHdr) (n : BitVec 64) (bs : Bytes) : CxSlot :=
  let r := s.engAt (dieEngOf die .cx)
  newSlot (BitVec.ofNat 512 (leNat bs)) false (collDesc bs).group n r.opIdx
    (s.cxOrd die.val (collDesc bs).group r.opIdx) r.srb h.fslot

section
variable (s : State) (die : Fin 4) (h : OpHdr) (n : BitVec 64)

/-- The package in which a CX_RUN of the descriptor at `a` has issued into slot `i`. -/
def State.cxRunIssued (a : BitVec 48) (i : Nat) : State :=
  let e := dieEngOf die .cx
  let r := s.engAt e
  let q := s.physRead (.engine e) (some n) a.toNat 64
  (q.1.cxTakes die.val i (s.cxRunSlot die h n q.2) (collDesc q.2) r.opIdx).issued e (.cxRun die h a)
    { r with srb := r.srb + BitVec.ofNat 64 (collDesc q.2).count }
    { issuedOp 0x60 h n with done := false, slot := some i }

theorem State.counts_cxRunIssued (a : BitVec 48) (i : Nat) :
    let r := s.engAt (dieEngOf die .cx)
    let bs := (s.physRead (.engine (dieEngOf die .cx)) (some n) a.toNat 64).2
    ((s.cxRunIssued die h n a i).engRaw (dieEngOf die .cx)).counts =
      (r.opIdx + 1, r.srb + BitVec.ofNat 64 (collDesc bs).count, r.issued.length + 1) := by
  rw [State.cxRunIssued, State.issued, State.engRaw_setEng, EngSt.counts_push]

theorem State.cxSlot_cxRunIssued (a : BitVec 48) (i j : Nat) :
    let bs := (s.physRead (.engine (dieEngOf die .cx)) (some n) a.toNat 64).2
    (s.cxRunIssued die h n a i).cxSlot die.val j =
      if j = i then some (s.cxRunSlot die h n bs) else s.cxSlot die.val j := by
  have hread := s.storeAccess_physRead (some n) a.toNat (.engine (dieEngOf die .cx)) 64
  rw [State.cxRunIssued, State.cxSlot_issued, State.cxSlot_cxTakes, hread.cxSlot]

theorem State.collectiveFrame_cxRunIssued (a : BitVec 48) (i : Nat) :
    CollectiveFrame s (s.cxRunIssued die h n a i) :=
  CollectiveFrame.issued (s.storeAccess_physRead (some n) a.toNat (.engine (dieEngOf die .cx)) 64) ..

variable {s die h n}

theorem exec_cxRun {a : BitVec 48} {i : Nat} (m : MayIssue s (dieEngOf die .cx) (.cxRun die h a) h n)
    (hi : s.freeCx die.val = some i) (hu : s.rangeUp a.toNat 64 = true) :
    exec (.cxRun die h a) s = .next (s.cxRunIssued die h n a i) := by
  obtain rfl : i = (s.freeCx die.val).getD 0 := by rw [hi, Option.getD_some]
  exact guardUnit_issue_reads_nothing m (fun _ _ => rfl) (by rw [hi, hu]; rfl)

end

/-! ## CX_GNORM (R525, R559-R561) -/

/-- What an op slot holds from the issue of its op: whether it is a CX_GNORM, its step and its group. -/
def CxSlot.role (k : CxSlot) : Bool × BitVec 64 × Nat := (k.gnorm, k.step, k.group)

/-- Nothing but the engines and the CXs differs between `s` and `t`. -/
def NormFrame (s t : State) : Prop := t = { s with eng := t.eng, cx := t.cx }

theorem NormFrame.trans {s t u : State} (h : NormFrame s t) (h' : NormFrame t u) : NormFrame s u :=
  Eq.trans h' (by rw [h])

/-- `t` comes from `s` as CXs form the norm: only the engines and the CXs differ, no engine issues an op or completes
one, and each op slot holds the op that it held. -/
structure NormFormed (s t : State) : Prop where
  frame : NormFrame s t
  counts : ∀ e, (t.engRaw e).counts = (s.engRaw e).counts
  roles : ∀ d i, (t.cxSlot d i).map CxSlot.role = (s.cxSlot d i).map CxSlot.role

section
variable {s t u : State}

theorem NormFormed.refl (s : State) : NormFormed s s := ⟨rfl, fun _ => rfl, fun _ _ => rfl⟩

theorem NormFormed.trans (h : NormFormed s t) (h' : NormFormed t u) : NormFormed s u :=
  ⟨h.frame.trans h'.frame, fun e => (h'.counts e).trans (h.counts e),
    fun d i => (h'.roles d i).trans (h.roles d i)⟩

theorem NormFormed.setEng (h : NormFormed s t) {e : EngRef} {r : EngSt} (hr : r.counts = (t.engRaw e).counts) :
    NormFormed s (t.setEng e r) := by
  refine h.trans ⟨rfl, fun d => ?_, fun _ _ => rfl⟩
  by_cases hd : engKey d = engKey e
  · have hraw (u : State) : u.engRaw d = u.engRaw e := congrArg (tget EngSt.reset u.eng) hd
    rw [hraw, hraw, State.engRaw_setEng, hr]
  · rw [State.engRaw_setEng_other _ _ hd]

theorem NormFormed.setSlot (h : NormFormed s t) {die i : Nat} {k k' : CxSlot} (hk : t.cxSlot die i = some k)
    (hr : k'.role = k.role) : NormFormed s (t.setSlot die i k') := by
  refine h.trans ⟨rfl, fun _ => rfl, fun d j => ?_⟩
  rw [State.cxSlot_setSlot]
  split
  · next hc => rw [hc.1, hc.2, hk, Option.map_some, Option.map_some, hr]
  · rfl

theorem NormFormed.modCx (h : NormFormed s t) (die : Nat) {f : CxSt → CxSt} (hf : ∀ c, (f c).slots = c.slots) :
    NormFormed s (t.modCx die f) :=
  h.trans ⟨rfl, fun _ => rfl, fun d i => by rw [State.cxSlot_modCx _ _ hf]⟩

theorem NormFormed.finishSlot (h : NormFormed s t) (die i : Nat) : NormFormed s (t.finishSlot die i) := by
  unfold State.finishSlot
  split
  · exact h
  · next k hk => exact (h.setSlot (k' := { k with done := true }) hk rfl).setEng (EngSt.counts_mapIssued ..)

end

section
variable {s : State} {die i : Nat} {k : CxSlot}

/-- The slot of a die's CX_GNORM is a slot of its CX. -/
theorem State.cxSlot_of_gnormSlot (h : s.gnormSlot die = some (i, k)) : s.cxSlot die i = some k := by
  obtain ⟨j, -, hj⟩ := List.exists_of_findSome?_eq_some h
  split at hj
  · next k' hk =>
    split at hj
    · cases hj
      exact hk
    · cases hj
  · cases hj

/-- A slot that holds a CX_GNORM is found. -/
theorem State.gnormSlot_isSome (hi : i < 4) (hk : s.cxSlot die i = some k) (hg : k.gnorm = true) :
    (s.gnormSlot die).isSome = true := by
  rw [State.gnormSlot, List.findSome?_isSome_iff]
  exact ⟨i, List.mem_range.mpr hi, by simp [hk, hg]⟩

theorem State.freeCx_lt (h : s.freeCx die = some i) : i < 4 :=
  List.mem_range.mp (List.mem_of_find?_eq_some h)

end

/-- A CX with the norm of the steps of a bank (R559, R560). -/
def CxSt.withNorm (x : CxSt) (b : Bool) (v : BitVec 48) : CxSt :=
  if b then { x with gnorm1 := v } else { x with gnorm0 := v }

theorem CxSt.slots_withNorm (x : CxSt) (b : Bool) (v : BitVec 48) : (x.withNorm b v).slots = x.slots := by
  cases b <;> rfl

section
variable (s : State) (die : Nat) (remote : List (BitVec 48))

/-- A die's CX_GNORM receives the norm, in the register of its step's bank, and is done. -/
theorem State.normFormed_receives {i : Nat} {k : CxSlot} (hk : s.cxSlot die i = some k) (b : Bool) (v : BitVec 48)
    (f : BitVec 4) :
    NormFormed s (((s.modCx die (·.withNorm b v)).setSlot die i { k with flags := f }).finishSlot die i) := by
  have hslots (c : CxSt) := c.slots_withNorm b v
  refine (((NormFormed.refl s).modCx die hslots).setSlot (k := k) (k' := { k with flags := f }) ?_ rfl).finishSlot die i
  rw [State.cxSlot_modCx _ _ hslots, hk]

theorem State.normFormed_formNorm : NormFormed s (s.formNorm die remote) := by
  unfold State.formNorm
  split
  · next i k cfg hg hc =>
    split
    · exact .refl s
    · split
      · exact .refl s
      · split
        · exact .refl s
        · exact s.normFormed_receives die (State.cxSlot_of_gnormSlot hg) (bankOf k.step) _ _
  · exact .refl s

/-- The package after every die's CX_GNORM has received the norm, where it is known. -/
def State.formNorms (s : State) (remote : List (BitVec 48)) : State :=
  (List.range s.dies).foldl (fun (a : State) d => a.formNorm d remote) s

theorem State.normFormed_formNorms : NormFormed s (s.formNorms remote) :=
  List.foldlRecOn _ _ (motive := NormFormed s) (.refl s) fun _ ht d _ => ht.trans (State.normFormed_formNorm _ d remote)

end

section
variable (s : State) (die : Fin 4) (h : OpHdr) (n : BitVec 64)

/-- The package in which a CX_GNORM has issued and the norm is not formed. -/
def State.gnormIssued (g : BitVec 6) (i : Nat) : State :=
  let e := dieEngOf die .cx
  let r := s.engAt e
  (s.setSlot die.val i (newSlot 0 true g.toNat n r.opIdx 0 r.srb h.fslot)).issued e (.cxGnorm die h g []) r
    { issuedOp 0x61 h n with done := false, slot := some i }

theorem State.normFrame_gnormIssued (g : BitVec 6) (i : Nat) : NormFrame s (s.gnormIssued die h n g i) := rfl

theorem State.cxSlot_gnormIssued (g : BitVec 6) (i : Nat) :
    ((s.gnormIssued die h n g i).cxSlot die.val i).map CxSlot.role = some (true, n, g.toNat) := by
  rw [State.gnormIssued, State.cxSlot_issued, State.cxSlot_setSlot_self, Option.map_some]
  rfl

theorem State.counts_gnormIssued (g : BitVec 6) (i : Nat) :
    let r := s.engAt (dieEngOf die .cx)
    ((s.gnormIssued die h n g i).engRaw (dieEngOf die .cx)).counts = (r.opIdx + 1, r.srb, r.issued.length + 1) := by
  rw [State.gnormIssued, State.issued, State.engRaw_setEng, EngSt.counts_push]

variable {s die h n}

theorem exec_cxGnorm {g : BitVec 6} {rs : List (BitVec 48)} {i : Nat}
    (m : MayIssue s (dieEngOf die .cx) (.cxGnorm die h g []) h n) (hg : s.gnormSlot die.val = none)
    (he : (s.engAt (dieEngOf die .cx)).issued = []) (hi : s.freeCx die.val = some i) :
    exec (.cxGnorm die h g rs) s = .next ((s.gnormIssued die h n g i).formNorms rs) := by
  have hready : ((s.engAt (dieEngOf die .cx)).issued.isEmpty && (s.freeCx die.val).isSome) = true := by rw [he, hi]; rfl
  have hslot : (s.gnormIssued die h n g i).cxSlot die.val i = some _ := s.cxSlot_setSlot_self die.val i _
  obtain rfl : i = (s.freeCx die.val).getD 0 := by rw [hi, Option.getD_some]
  refine (guardUnit_eq (decide_eq_true m.present)).trans ((if_neg (by rw [hg]; decide)).trans ?_)
  rw [issue_eq m hready, State.issuedSeen_reads_nothing fun _ _ => rfl]
  exact congrArg Host.Outcome.next (if_pos (State.gnormSlot_isSome (State.freeCx_lt hi) hslot rfl))

end

/-- Settles O22, by what UE_RUN, CX_RUN and CX_GNORM make of their engine and slot as they issue, and by what the
chunks of an update and the forming of the norm leave as it is. That CX_RUN takes the lowest free slot is the model's
choice: the rules give the slots no order. -/
theorem updateAndCollectiveOpsIssue : Obligations.UpdateAndCollectiveOpsIssue := by
  intro s die h n
  refine ⟨fun a o m hm hu => ?_, fun a i m hi hu => ?_, fun g rs i m hg he hi => ?_⟩
  · have hpump := (s.ueIssued die h n a o).pumped_pumpDie die.val
    have hcounts := hpump.counts
    rw [dieFin_val, State.counts_ueIssued] at hcounts
    exact ⟨_, exec_ueRun m hm hu, congrArg Prod.fst hcounts, congrArg (·.2.1) hcounts, congrArg (·.2.2) hcounts,
      (s.updateFrame_ueIssued die h n a o).trans hpump.frame⟩
  · have hcounts := s.counts_cxRunIssued die h n a i
    have hslot := s.cxSlot_cxRunIssued die h n a i
    exact ⟨_, exec_cxRun m hi hu, congrArg Prod.fst hcounts, congrArg (·.2.1) hcounts,
      ⟨_, (hslot i).trans (if_pos rfl), rfl, rfl, rfl, rfl, rfl, rfl⟩, fun j hj => (hslot j).trans (if_neg hj),
      s.collectiveFrame_cxRunIssued die h n a i⟩
  · have hnorm := (s.gnormIssued die h n g i).normFormed_formNorms rs
    refine ⟨_, exec_cxGnorm m hg he hi, ?_, ?_, (s.normFrame_gnormIssued die h n g i).trans hnorm.frame⟩
    · have hcounts := hnorm.counts (dieEngOf die .cx)
      rw [State.counts_gnormIssued] at hcounts
      exact congrArg Prod.fst hcounts
    · have hrole := hnorm.roles die.val i
      rw [State.cxSlot_gnormIssued, Option.map_eq_some_iff] at hrole
      obtain ⟨k, hk, hr⟩ := hrole
      simp only [CxSlot.role, Prod.mk.injEq] at hr
      obtain ⟨hgnorm, hstep, hgroup⟩ := hr
      exact ⟨k, hk, hgnorm, hstep, hgroup⟩

end Sys2Proof.Machine
end

section
/-! What every command keeps (O3, O4, O5): the queue, the fuses but for the anti-rollback count, the canonical form of
the memories, and, where nothing is reset, the LOCK bits. One lemma per command, from what the effects that it is made
of keep. -/

namespace Sys2Proof.Machine

-- One theorem after another: the many short proofs of this part, waiting side by side, would take a thread's
-- stack each.
set_option Elab.async false

/-! ## Choices -/

section
variable {lk : Bool} {z s t : State}

theorem keeps_ite {p : Prop} [Decidable p] (hs : Keeps lk z s) (ht : Keeps lk z t) :
    Keeps lk z (if p then s else t) := by
  split
  · exact hs
  · exact ht

theorem outKeeps_ite {p : Prop} [Decidable p] {o q : Out} (ho : OutKeeps lk z o) (hq : OutKeeps lk z q) :
    OutKeeps lk z (if p then o else q) := by
  split
  · exact ho
  · exact hq

/-- A change of a context that leaves its saved copies as they are. -/
theorem State.modCtx_keeps' {c : Nat} {f : CtxSt → CtxSt} (h : Keeps lk z s)
    (hf : ∀ x, (f x).savedSpm = x.savedSpm ∧ (f x).savedSram = x.savedSram := by exact fun _ => ⟨rfl, rfl⟩) :
    Keeps lk z (s.modCtx c f) := by
  refine State.modCtx_keeps h fun _ x k => ?_
  obtain ⟨spm, sram⟩ := hf x
  unfold CtxSt.savedOk at k ⊢
  rw [spm, sram]
  exact k

end

/-! ## Ops of streams and the engines that run them -/

section
variable {lk : Bool} {s : State} {c : CoreRef} {d : Fin 4} {e : EngRef} {h : OpHdr} {o : HwObs} {rs : List CycleRun}

/-- An op with an effect that keeps. -/
theorem issue_keeps {z : State} {i : Instr} {ready : EngSt → BitVec 64 → Bool}
    {act : State → EngSt → BitVec 64 → State × EngSt × IssuedOp} (hz : Keeps lk z s)
    (ha : ∀ a r n, Keeps lk z a → Keeps lk z (act a r n).1) : OutKeeps lk z (issue s e i h o ready act) :=
  issueWith_keeps hz ha

theorem execNop_keeps : OutKeeps lk s (execNop e h s) := guardUnit_keeps (issue_keeps (.refl s) fun _ _ _ k => k)

theorem execEnd_keeps : OutKeeps lk s (execEnd e h s) := guardUnit_keeps (issue_keeps (.refl s) fun _ _ _ k => k)

theorem execAeLoad_keeps {f l : BitVec 16} : OutKeeps lk s (execAeLoad c h f l rs s) :=
  guardUnit_keeps (issue_keeps (State.clock_keeps (.refl s)) fun _ _ _ k => State.modCore_keeps k)

theorem execLoadRowWrite_keeps : OutKeeps lk s (execLoadRowWrite c rs o s) := by
  have clocked : Keeps lk s (s.clock c rs) := State.clock_keeps (.refl s)
  refine guardUnit_keeps ?_
  dsimp only
  split
  · exact .next clocked
  · refine outKeeps_ite (.next clocked) (.next (runReady_keeps (State.observe_keeps ?_)))
    have written := State.strikes_keeps (o := o) clocked
    exact keeps_ite (State.setEng_keeps (State.modCore_keeps written)) (State.modCore_keeps written)

theorem execAePass_keeps {f : PassF} : OutKeeps lk s (execAePass c h f rs o s) :=
  guardUnit_keeps (issue_keeps (State.clock_keeps (.refl s)) fun _ _ _ k => State.modCore_keeps k)

theorem execPassStart_keeps : OutKeeps lk s (execPassStart c rs s) := by
  have clocked : Keeps lk s (s.clock c rs) := State.clock_keeps (.refl s)
  refine guardUnit_keeps ?_
  dsimp only
  split
  · exact .next clocked
  · exact outKeeps_ite (.next clocked) (.next (runReady_keeps (State.modCore_keeps clocked)))

theorem execCurrentLevelStep_keeps {feeder drain : Bool} : OutKeeps lk s (execCurrentLevelStep c feeder drain s) :=
  guardUnit_keeps (.next (State.clock_keeps (.refl s)))

theorem execChecksumCheck_keeps {v : Option (BitVec 48)} : OutKeeps lk s (execChecksumCheck c v s) := by
  refine guardUnit_keeps ?_
  dsimp only
  split
  · exact .next (.refl s)
  · have checked (f) : Keeps lk s (s.modCore c f) := State.modCore_keeps (.refl s)
    exact outKeeps_ite (.next (State.arrayFault_keeps (State.modCore_keeps (checked _)))) (.next (checked _))

theorem execAePreload_keeps {p : PreF} : OutKeeps lk s (execAePreload c h p o s) :=
  guardUnit_keeps (issue_keeps (.refl s) fun _ _ _ k => State.bankWrote_keeps (State.modCore_keeps k))

theorem execBankHandover_keeps {b : Bool} : OutKeeps lk s (execBankHandover c b s) :=
  guardUnit_keeps (.next (State.modCore_keeps (.refl s)))

theorem execVld_keeps {f : VldF} : OutKeeps lk s (execVld c h f o s) :=
  issueVe_keeps (.refl s) fun _ _ _ k => writeLanes_keeps k

theorem execVst_keeps {f : VldF} : OutKeeps lk s (execVst c h f o s) :=
  issueVe_keeps (.refl s) fun _ _ _ k => State.spmWrite_keeps (State.spmWrite_keeps k)

theorem execVop_keeps {f : VopF} : OutKeeps lk s (execVop c h f o s) :=
  issueVe_keeps (.refl s) fun _ _ _ k => writeLanes_keeps k

theorem execVtr_keeps {f : VtrF} : OutKeeps lk s (execVtr c h f o s) :=
  issueVe_keeps (.refl s) fun _ _ _ k => writeLanes_keeps k

theorem execVred_keeps {f : VtrF} : OutKeeps lk s (execVred c h f o s) :=
  issueVe_keeps (.refl s) fun _ _ _ k => State.vregWrite_keeps k

theorem execDrain_keeps {f : DrainF} : OutKeeps lk s (execDrain c h f o s) := by
  refine issueVe_keeps (.refl s) fun a r n k => ?_
  have read (rows) (g) : Keeps lk s
      ((writeRows a c f.fmt f.line.toNat f.sbyte.toNat (regionW f.wide) rows).modCore c g) :=
    State.modCore_keeps (writeRows_keeps k)
  exact keeps_ite (State.bankWrote_keeps (read _ _)) (read _ _)

theorem execSpill_keeps {f : SpillF} : OutKeeps lk s (execSpill c h f o s) :=
  issueVe_keeps (.refl s) fun _ _ _ k =>
    State.bankWrote_keeps (State.modCore_keeps (keeps_foldl k fun _ _ => State.spmWrite_keeps))

theorem execPdrain_keeps {f : PdrainF} : OutKeeps lk s (execPdrain c h f o s) :=
  issueVe_keeps (.refl s) fun _ _ _ k => writeRows_keeps k

theorem execVsrb_keeps {v : BitVec 64} : OutKeeps lk s (execVsrb c h v s) :=
  issueVe_keeps (.refl s) fun _ _ _ k => k

theorem execMeDesc_keeps {x : BitVec 24} : OutKeeps lk s (execMeDesc c h x s) :=
  guardUnit_keeps (issue_keeps (keeps_ite (State.modCore_keeps (.refl s)) (.refl s))
    fun _ _ _ k => State.modCore_keeps k)

theorem execMeSlotFree_keeps : OutKeeps lk s (execMeSlotFree c s) := by
  refine guardUnit_keeps ?_
  split
  · exact outKeeps_ite execMeDesc_keeps (.next (.refl s))
  · exact .next (.refl s)

theorem execCopy_keeps {i : Fin 32} : OutKeeps lk s (execCopy c i o s) :=
  runSlot_keeps (.refl s) fun _ _ k => runCopy_keeps k

theorem execGather_keeps {i : Fin 32} : OutKeeps lk s (execGather c i o s) :=
  runSlot_keeps (.refl s) fun _ _ k => keeps_ite (State.modCore_keeps (runGather_keeps k)) (runGather_keeps k)

theorem execXpEnc_keeps {i : Fin 32} : OutKeeps lk s (execXpEnc c i o s) :=
  runSlot_keeps (.refl s) fun _ _ k => runXpEnc_keeps k

theorem execXpDec_keeps {i : Fin 32} : OutKeeps lk s (execXpDec c i o s) := by
  refine runSlot_keeps (.refl s) fun a m k => ?_
  dsimp only
  split
  · exact State.modCore_keeps (runXpDec_keeps k)
  · exact runXpDec_keeps k

theorem execMeFence_keeps : OutKeeps lk s (execMeFence c h s) :=
  guardUnit_keeps (issue_keeps (.refl s) fun _ _ _ k => k)

theorem execXArrive_keeps {f : ArriveF} : OutKeeps lk s (execXArrive c h f s) :=
  guardUnit_keeps (issue_keeps (.refl s) fun _ _ _ k => keeps_ite (State.sendRec_keeps k) (State.arrive_keeps k))

theorem execXWait_keeps {w : BitVec 2} {i : BitVec 8} {t : BitVec 16} : OutKeeps lk s (execXWait c h w i t s) :=
  guardUnit_keeps (issueWith_keeps (.refl s) fun _ _ _ k => k)

theorem execXReset_keeps {w : BitVec 2} {i : BitVec 8} : OutKeeps lk s (execXReset c h w i s) :=
  guardUnit_keeps (issue_keeps (.refl s) fun _ _ _ k => keeps_mk k)

theorem execXAttime_keeps {t : BitVec 64} : OutKeeps lk s (execXAttime c h t s) :=
  guardUnit_keeps (issue_keeps (.refl s) fun _ _ _ k => k)

theorem execStbTimeReached_keeps : OutKeeps lk s (execStbTimeReached c s) := by
  unfold execStbTimeReached
  dsimp only
  split
  · exact outKeeps_ite (.next (State.setEng_keeps (.refl s))) (.next (.refl s))
  · exact .next (.refl s)

theorem execWaiterWake_keeps : OutKeeps lk s (execWaiterWake e s) := by
  unfold execWaiterWake
  dsimp only
  split
  · exact .next (.refl s)
  · exact outKeeps_ite (.next (.refl s)) (.next (State.setEng_keeps (.refl s)))

theorem execOpComplete_keeps : OutKeeps lk s (execOpComplete e s) := by
  unfold execOpComplete
  dsimp only
  split
  · exact .next (.refl s)
  · next op rest _ =>
    refine outKeeps_ite (.next (.refl s)) ?_
    have freed : Keeps lk s (s.freeSlotOf e op) := State.freeSlotOf_keeps (.refl s)
    have taken (r) (x : SyncSt) : Keeps lk s { (s.freeSlotOf e op).setEng e r with sync := x } :=
      keeps_mk (s := (s.freeSlotOf e op).setEng e r) (State.setEng_keeps freed)
    refine outKeeps_ite (.next (taken _ _)) (.next (State.settleNow_keeps ?_))
    exact keeps_ite (State.modStep_keeps (keeps_ite (State.arrive_keeps (taken _ _)) (taken _ _)))
      (keeps_ite (State.arrive_keeps (taken _ _)) (taken _ _))

theorem execUeRun_keeps {a : BitVec 48} : OutKeeps lk s (execUeRun d h a o s) := by
  refine guardUnit_keeps ?_
  have issued : OutKeeps lk s (issue s (dieEngOf d .ue) (.ueRun d h a noObs) h o
      (fun _ n => ueMay s d.val n && s.rangeUp a.toNat 64) fun s r n =>
       (s.modUe d.val fun u =>
          { u with cur := some (a, 0, r.srb), spec := ((s.stepAt n).map fun t => t.outcome.isNone).getD false },
        { r with srb := r.srb + BitVec.ofNat 64 (s.updAt a).count },
        { issuedOp 0x50 h n with done := false, flags := [(h.fslot.toNat, 0#4)] })) :=
    issue_keeps (.refl s) fun _ _ _ k => State.modUe_keeps k
  dsimp only
  split
  · next t ht => exact .next (keeps_ite (State.pumpDie_keeps (issued t ht)) (issued t ht))
  · exact issued

theorem execCxRun_keeps {a : BitVec 48} : OutKeeps lk s (execCxRun d h a s) :=
  guardUnit_keeps (issue_keeps (.refl s) fun _ _ _ k =>
    State.modCx_keeps (State.setSlot_keeps (State.physRead_keeps k)))

theorem execCxFence_keeps : OutKeeps lk s (execCxFence d h s) :=
  guardUnit_keeps (issue_keeps (.refl s) fun _ _ _ k => k)

theorem execCxGnorm_keeps {g : BitVec 6} {vs : List (BitVec 48)} : OutKeeps lk s (execCxGnorm d h g vs s) := by
  have delivered {a : State} (k : Keeps lk s a) :
      Keeps lk s ((List.range a.dies).foldl (fun (a : State) d => a.formNorm d vs) a) :=
    keeps_foldl k fun _ _ => State.formNorm_keeps
  refine guardUnit_keeps (outKeeps_ite (.next (delivered (.refl s))) ?_)
  have issued : OutKeeps lk s (issue s (dieEngOf d .cx) (.cxGnorm d h g []) h noObs
      (fun r _ => r.issued.isEmpty && (s.freeCx d.val).isSome) fun s r n =>
         let i := (s.freeCx d.val).getD 0
         (s.setSlot d.val i (newSlot 0 true g.toNat n r.opIdx 0 r.srb h.fslot), r,
          { issuedOp 0x61 h n with done := false, slot := some i })) :=
    issue_keeps (.refl s) fun _ _ _ k => State.setSlot_keeps k
  split
  · next t ht => exact .next (keeps_ite (delivered (issued t ht)) (issued t ht))
  · exact issued

end

/-! ## Collectives -/

section
variable {lk : Bool} {s : State} {d i : Fin 4} {o : HwObs}

theorem execAllReduce_keeps : OutKeeps lk s (execAllReduce d i o s) :=
  runColl_keeps (.refl s) fun _ _ => State.reduceStep_keeps

theorem execReduceScatter_keeps : OutKeeps lk s (execReduceScatter d i o s) :=
  runColl_keeps (.refl s) fun _ _ => State.reduceStep_keeps

theorem execAllGather_keeps : OutKeeps lk s (execAllGather d i o s) :=
  runColl_keeps (.refl s) fun _ _ => State.gatherStep_keeps

theorem execBroadcast_keeps : OutKeeps lk s (execBroadcast d i o s) :=
  runColl_keeps (.refl s) fun _ _ => State.castStep_keeps

theorem execA2aDispatch_keeps : OutKeeps lk s (execA2aDispatch d i o s) :=
  runColl_keeps (.refl s) fun _ _ => State.a2aStep_keeps

theorem execA2aCombine_keeps : OutKeeps lk s (execA2aCombine d i o s) :=
  runColl_keeps (.refl s) fun _ _ => State.a2aStep_keeps

theorem execBarrier_keeps {ns : List Nat} : OutKeeps lk s (execBarrier d i ns s) := by
  refine guardUnit_keeps ?_
  split
  · exact .next (.refl s)
  · exact outKeeps_ite (.next (.refl s)) (.next (keeps_foldl (State.meetBarrier_keeps (State.modSlotOf_keeps (.refl s)))
      fun _ _ k => keeps_foldl k fun _ _ => State.endBarrier_keeps))

theorem execPermute_keeps {fs : List PermFlow} : OutKeeps lk s (execPermute d i fs o s) := by
  refine guardUnit_keeps ?_
  split
  · exact .next (.refl s)
  · exact outKeeps_ite (.next (.refl s)) (.next (State.runCx_keeps (.refl s) fun _ _ => State.permStep_keeps))

theorem execCollectiveTimeout_keeps : OutKeeps lk s (execCollectiveTimeout d i s) := by
  refine guardUnit_keeps ?_
  split
  · exact outKeeps_ite (.next (.refl s))
      (.next (State.wire_keeps (State.setSlot_keeps (State.modCx_keeps (.refl s)))))
  · exact .next (.refl s)

end

/-! ## Ports, memory and links -/

section
variable {lk : Bool} {s : State} {k : Fin 16} {m : Fin 32} {j : Fin 24} {num : BitVec 8} {t : BitVec 64}

theorem execPortPriorityAging_keeps {site : PortSite} {p : Fin 6} {ps : List (Fin 6)} :
    OutKeeps lk s (execPortPriorityAging site p ps s) :=
  guardUnit_keeps (outKeeps_ite (.next (.refl s)) (.next (keeps_mk (.refl s))))

theorem execHbmRequest_keeps {r : HbmReq} : OutKeeps lk s (execHbmRequest r s) :=
  outKeeps_ite (.next (State.violate_keeps (.refl s))) (.next (State.takeReq_keeps (.refl s)))

theorem execPrefetchAging_keeps : OutKeeps lk s (execPrefetchAging k s) :=
  guardUnit_keeps (.next (State.ageReq_keeps (.refl s)))

theorem execScrubChunk_keeps {es : List SymErr} : OutKeeps lk s (execScrubChunk k es s) :=
  guardUnit_keeps (outKeeps_ite (.next (.refl s)) (outKeeps_ite (.next (State.modStack_keeps (.refl s)))
    (.next (State.scrubNow_keeps (.refl s)))))

theorem execScrubYieldExpire_keeps {es : List SymErr} : OutKeeps lk s (execScrubYieldExpire k es s) :=
  guardUnit_keeps (outKeeps_ite (.next (State.scrubNow_keeps (.refl s))) (.next (.refl s)))

theorem execStackTempSample_keeps {p : PairReading} : OutKeeps lk s (execStackTempSample k p s) :=
  guardUnit_keeps (.next (State.modStack_keeps (State.setPair_keeps (.refl s))))

theorem execStackBandChange_keeps : OutKeeps lk s (execStackBandChange k s) := by
  refine guardUnit_keeps ?_
  dsimp only
  split
  · exact .next (State.toBand_keeps (.refl s))
  · split
    · exact outKeeps_ite (.next (State.toBand_keeps (.refl s))) (.next (.refl s))
    · exact .next (.refl s)

theorem execMarketPartitionSwap_keeps {io : Fin 2} : OutKeeps lk s (execMarketPartitionSwap io s) :=
  guardUnit_keeps (.next (State.swapMarket_keeps (.refl s)))

theorem execBoundedResourceRelease_keeps {r : BoundedRes} : OutKeeps lk s (execBoundedResourceRelease r s) := by
  cases r with
  | stackRequest x => exact guardUnit_keeps (.next (State.ageReq_keeps (.refl s)))
  | marketBuffer io j vc cls => exact guardUnit_keeps (.next (State.tellCredit_keeps (.refl s)))
  | incrementSent j => exact guardUnit_keeps (outKeeps_ite (.next (State.sendPick_keeps (.refl s))) (.next (.refl s)))
  | meDescriptor c => exact execMeSlotFree_keeps

theorem execBucketLeak_keeps : OutKeeps lk s (execBucketLeak s) :=
  .next (keeps_foldl (.refl s) fun _ _ => State.modMember_keeps)

theorem execFlitSlot_keeps {n : BitVec 32} : OutKeeps lk s (execFlitSlot m n s) := by
  have noted : Keeps lk s (if m.val < 24 then s.noteStall m.val n else s) :=
    keeps_ite (State.noteStall_keeps (.refl s)) (.refl s)
  exact guardUnit_keeps (outKeeps_ite (.next noted) (.next (State.sendPick_keeps noted)))

theorem execAckDue_keeps : OutKeeps lk s (execAckDue m s) := guardUnit_keeps (.next (State.modMember_keeps (.refl s)))

theorem execAck_keeps {n : BitVec 16} : OutKeeps lk s (execAck m n s) :=
  guardUnit_keeps (.next (State.modMember_keeps (.refl s)))

theorem execNak_keeps {n : BitVec 16} : OutKeeps lk s (execNak m n s) :=
  guardUnit_keeps (.next (State.nakOn_keeps (.refl s)))

theorem execCredit_keeps {vc cls : BitVec 8} {n : BitVec 32} : OutKeeps lk s (execCredit m vc cls n s) :=
  guardUnit_keeps (.next (State.modMember_keeps (.refl s)))

theorem execState_keeps {v : BitVec 8} : OutKeeps lk s (execState m v s) :=
  guardUnit_keeps (.next (State.peerState_keeps (.refl s)))

theorem execT0_keeps : OutKeeps lk s (execT0 j num s) := guardUnit_keeps (.next (State.modMember_keeps (.refl s)))

theorem execT1_keeps : OutKeeps lk s (execT1 j num t s) := guardUnit_keeps (.next (State.modExch_keeps (.refl s)))

theorem execT1f_keeps : OutKeeps lk s (execT1f j num t s) := guardUnit_keeps (.next (State.gotT1f_keeps (.refl s)))

theorem execT3_keeps : OutKeeps lk s (execT3 j num t s) := guardUnit_keeps (.next (State.modMember_keeps (.refl s)))

theorem execT4_keeps : OutKeeps lk s (execT4 j num t s) := guardUnit_keeps (.next (State.gotT4_keeps (.refl s)))

theorem execTimeExchange_keeps : OutKeeps lk s (execTimeExchange s) := by
  unfold execTimeExchange
  dsimp only
  split
  · exact .next (.refl s)
  · exact outKeeps_ite (.next (.refl s)) (.next (State.modMember_keeps (keeps_mk (.refl s))))

theorem execParentReselect_keeps : OutKeeps lk s (execParentReselect s) := by
  unfold execParentReselect
  split
  · split
    · exact .next (.refl s)
    · exact .next (keeps_mk (.refl s))
  · exact .next (.refl s)

theorem execRetrainComplete_keeps : OutKeeps lk s (execRetrainComplete m s) :=
  guardUnit_keeps (.next (State.modMember_keeps (.refl s)))

theorem execRetrainTimeout_keeps : OutKeeps lk s (execRetrainTimeout m s) :=
  guardUnit_keeps (outKeeps_ite (.next (State.withdraw_keeps (.refl s))) (.next (.refl s)))

theorem execFlitReceive_keeps {w : Bytes} : OutKeeps lk s (execFlitReceive m w s) := by
  refine guardUnit_keeps (outKeeps_ite (.next (.refl s)) (outKeeps_ite ?_ (outKeeps_ite
    (.next (State.goodFlit_keeps (.refl s))) (.next (State.badFlit_keeps (.refl s))))))
  split
  · exact .next (State.badFlit_keeps (.refl s))
  · next b n _ =>
    have margin : Keeps lk s (if 3 ≤ n then s.marginEvent m.val else s) :=
      keeps_ite (State.marginEvent_keeps (.refl s)) (.refl s)
    exact outKeeps_ite (.next (State.badFlit_keeps margin))
      (.next (State.goodFlit_keeps (keeps_ite (State.modMember_keeps margin) margin)))

end

/-! ## Messages, crossings and pacing -/

section
variable {lk : Bool} {s : State} {j : Fin 24} {p : BitVec 8}

theorem execMessageReceive_keeps : OutKeeps lk s (execMessageReceive j s) := by
  refine guardUnit_keeps ?_
  split
  · exact .next (.refl s)
  · exact outKeeps_ite (.next (State.recvCtl_keeps (.refl s))) (.next (State.recvData_keeps (.refl s)))

theorem execIncrementRecord_keeps {r : BitVec 128} : OutKeeps lk s (execIncrementRecord r s) := by
  unfold execIncrementRecord
  split
  · exact .next (State.takeRec_keeps (keeps_mk (.refl s)))
  · exact .next (State.takeRec_keeps (.refl s))

theorem execHeldRecordApply_keeps : OutKeeps lk s (execHeldRecordApply s) := by
  have aborts : Keeps lk s s.heldAborts := State.heldAborts_keeps (.refl s)
  unfold execHeldRecordApply
  dsimp only
  split
  · exact .next (State.settleRec_keeps (keeps_mk aborts))
  · exact .next aborts

theorem execAbortMessage_keeps {job epoch : BitVec 16} {n : BitVec 64} :
    OutKeeps lk s (execAbortMessage job epoch n s) := by
  unfold execAbortMessage
  split
  · exact .next (State.takeAbort_keeps (.refl s))
  · exact outKeeps_ite (.next (State.holdAbort_keeps (.refl s)))
      (.next (State.modXs_keeps (State.consume_keeps (.refl s))))

theorem execHaltMessage_keeps {bs : Bytes} : OutKeeps lk s (execHaltMessage j bs s) := by
  refine guardUnit_keeps ?_
  have taken (f) : Keeps lk s (s.consume f) := State.consume_keeps (.refl s)
  dsimp only
  split
  · exact .next (taken _)
  · exact outKeeps_ite (.next (taken _)) (outKeeps_ite (.next (State.containHalt_keeps (taken _)))
      (.next (State.haltFlood_keeps (State.modCtx_keeps' (taken _)))))

theorem execPace_keeps : OutKeeps lk s (execPace j s) :=
  guardUnit_keeps (.next (State.modSlot_keeps (State.consume_keeps (.refl s))))

theorem execReady_keeps : OutKeeps lk s (execReady j p s) :=
  guardUnit_keeps (.next (State.modSlot_keeps (State.consume_keeps (.refl s))))

theorem execReadyDue_keeps : OutKeeps lk s (execReadyDue j p s) := by
  refine guardUnit_keeps ?_
  dsimp only
  split
  · exact .next (.refl s)
  · split
    · exact .next (.refl s)
    · exact outKeeps_ite (.next (.refl s)) (.next (State.sendPacing_keeps (State.modSlot_keeps (.refl s))))

theorem execAnchorResult_keeps {c : Fin 4} : OutKeeps lk s (execAnchorResult c s) := by
  unfold execAnchorResult
  dsimp only
  split
  · have anchored (f n g) : Keeps lk s ((s.consume f).modCtx c.val fun x => x.modStep n g) :=
      State.modCtx_keeps' (State.consume_keeps (.refl s))
    refine outKeeps_ite (.next (.refl s)) (.next (keeps_foldl (keeps_mk (anchored _ _ _)) ?_))
    exact fun _ _ k => keeps_foldl k fun _ _ => State.classify_keeps
  · exact .next (.refl s)

theorem execLaunchEntry_keeps {i : Fin 64} : OutKeeps lk s (execLaunchEntry i s) := by
  unfold execLaunchEntry
  split
  · exact .next (.refl s)
  · split
    · exact .next (.refl s)
    · refine outKeeps_ite (.next (.refl s)) ?_
      split
      · exact .next (.refl s)
      · exact .next (State.arrive_keeps (keeps_mk (keeps_ite (State.modXs_keeps (.refl s)) (.refl s))))

theorem execWatchdogExpire_keeps {e : EngRef} : OutKeeps lk s (execWatchdogExpire e s) := by
  refine guardUnit_keeps ?_
  dsimp only
  split
  · have logged (k) (f) : Keeps lk s (s.modXs k f) := State.modXs_keeps (.refl s)
    exact outKeeps_ite (.next (.refl s))
      (.next (State.wire_keeps (State.setEng_keeps (keeps_ite (State.modXs_keeps (logged _ _)) (logged _ _)))))
  · exact .next (.refl s)

end

/-! ## Steps and faults -/

section
variable {lk : Bool} {s : State} {c : Fin 4} {n : BitVec 64}

theorem execStepEnterRunning_keeps : OutKeeps lk s (execStepEnterRunning c s) := by
  unfold execStepEnterRunning
  dsimp only
  split
  · exact outKeeps_ite (.next (State.enterStep_keeps (.refl s))) (.next (.refl s))
  · exact .next (.refl s)

theorem execGlobalNormArrive_keeps : OutKeeps lk s (execGlobalNormArrive c s) := by
  unfold execGlobalNormArrive
  dsimp only
  split
  · next t im cfg _ _ _ =>
    have decided (u : StepSt) : Keeps lk s (s.modCtx c.val fun x => x.modStep t.no fun _ => u) :=
      State.modCtx_keeps' (.refl s)
    have spec (u : StepSt) (l : List Nat) (g : UeSt → UeSt) :
        Keeps lk s (l.foldl (fun (a : State) d => a.modUe d g) (s.modCtx c.val fun x => x.modStep t.no fun _ => u)) :=
      keeps_foldl (decided u) fun _ _ => State.modUe_keeps
    have judged {a : State} (k : Keeps lk s a) (p : Bool) (l : List Nat) (n : BitVec 64) :
        Keeps lk s (if p then l.foldl (fun (a : State) d => a.reportNf n d) a else a) :=
      keeps_ite (keeps_foldl k fun _ _ => State.reportNf_keeps) k
    have pumped {a : State} (k : Keeps lk s a) (p : Bool) (l : List Nat) (u : StepSt) :
        Keeps lk s (if p then l.foldl (fun (a : State) d => a.pumpUe d u) a else a) :=
      keeps_ite (keeps_foldl k fun _ _ => State.pumpUe_keeps) k
    exact .next (State.settle_keeps (pumped (judged (spec _ _ _) _ _ _) _ _ _))
  · exact .next (.refl s)

theorem execJournalRestoreComplete_keeps : OutKeeps lk s (execJournalRestoreComplete c s) := by
  unfold execJournalRestoreComplete
  dsimp only
  split
  · next t cfg _ _ =>
    refine outKeeps_ite (.next (.refl s)) ?_
    generalize hr : (if ((s.ctxAt c.val).steps.head?.any fun u => u.no == t.no) then
      s.restoreAll (!(t.st == .restoring && !t.skipped)) else (s, true)) = r
    have restored : Keeps lk s r.1 := by
      rw [← hr]
      split
      · exact State.restoreAll_keeps (.refl s)
      · exact .refl s
    refine outKeeps_ite (.next (State.haltDone_keeps (State.modCtx_keeps' restored))) ?_
    refine outKeeps_ite (.next (State.haltDone_keeps (State.modCtx_keeps' restored))) ?_
    refine outKeeps_ite (.next (State.settle_keeps (State.modCtx_keeps' ?_)))
      (.next (State.settle_keeps (State.modCtx_keeps' (State.mapUes_keeps restored))))
    exact keeps_foldl (State.mapUes_keeps restored) fun _ _ => State.modUe_keeps
  · exact .next (.refl s)

theorem execCheckDone_keeps {u : Fin 6} : OutKeeps lk s (execCheckDone u n s) := by
  refine guardUnit_keeps ?_
  split
  · exact .next (.refl s)
  · exact outKeeps_ite (.next (State.tryCommit_keeps (State.modCtx_keeps' (.refl s)))) (.next (.refl s))

theorem execDigestExchange_keeps : OutKeeps lk s (execDigestExchange c n s) := by
  unfold execDigestExchange
  dsimp only
  split
  · have taken (f) : Keeps lk s (s.consume f) := State.consume_keeps (.refl s)
    refine outKeeps_ite (.next (.refl s)) (outKeeps_ite (outKeeps_ite ?_ (.next (.refl s))) (outKeeps_ite ?_
      (outKeeps_ite (.next (.refl s)) (outKeeps_ite ?_ ?_))))
    · exact .next (State.tryCommit_keeps (State.modCtx_keeps' (taken _)))
    · exact .next (State.abortSteps_keeps (taken _))
    · exact .next (State.wire_keeps (taken _))
    · exact .next (State.abortSteps_keeps (taken _))
  · exact .next (.refl s)

theorem execHoldupThresholdMet_keeps : OutKeeps lk s (execHoldupThresholdMet c s) := by
  unfold execHoldupThresholdMet
  dsimp only
  split
  · exact outKeeps_ite (.next (State.modCtx_keeps' (.refl s))) (.next (.refl s))
  · exact .next (.refl s)

theorem execFaultReport_keeps {r : FaultReport} : OutKeeps lk s (execFaultReport r s) :=
  .next (State.settleNow_keeps (State.report_keeps (keeps_mk (.refl s))))

/-- A commit record may be what a deferred reset or a loss of power waits for (R806, R822). -/
theorem execCommitRecordWritten_keeps {ok : Bool} : OutKeeps false s (execCommitRecordWritten c ok s) := by
  have written : Keeps false s (s.commitWritten c.val ok) := State.commitWritten_keeps (.refl s)
  exact outKeeps_ite (.next (.refl s)) (.next (keeps_ite (keeps_ite written (State.powerOff_keeps written))
    (keeps_ite (State.dueReset_keeps written) written)))

end

/-! ## Citis commands -/

section
variable {lk : Bool} {s : State} {r : Fin 8}

theorem execIdentify_keeps : OutKeeps lk s (execIdentify r s) :=
  runCmd_keeps (.refl s) fun _ _ => State.outReply_keeps

theorem execQueryStatus_keeps : OutKeeps lk s (execQueryStatus r s) :=
  runCmd_keeps (.refl s) fun _ _ => State.outReply_keeps

theorem execReadTelemetry_keeps : OutKeeps lk s (execReadTelemetry r s) :=
  runCmd_keeps (.refl s) fun _ _ => State.outReply_keeps

theorem execJournalRead_keeps : OutKeeps lk s (execJournalRead r s) :=
  runCmd_keeps (.refl s) fun _ _ k => keeps_ite (State.outReply_keeps k) (State.reply_keeps k)

theorem execAttest_keeps : OutKeeps lk s (execAttest r s) :=
  runCmd_keeps (.refl s) fun a _ k => State.outReply_keeps (keeps_mk (s := a) k)

theorem execRemapCore_keeps : OutKeeps lk s (execRemapCore r s) := by
  refine runCmd_keeps (.refl s) fun a p k => ?_
  dsimp only
  split
  · exact State.reply_keeps k
  · exact keeps_ite (State.reply_keeps k) (State.reply_keeps k)
  · have quit (d l) : Keeps lk s (a.quitCore d l) := State.quitCore_keeps k
    refine keeps_ite (State.reply_keeps k) (State.reply_keeps (State.setPhys_keeps (State.setPhysState_keeps ?_)))
    exact keeps_ite (State.setPhysState_keeps (quit _ _)) (quit _ _)

theorem execLinkCtrl_keeps : OutKeeps lk s (execLinkCtrl r s) := by
  refine runCmd_keeps (.refl s) fun a p k => ?_
  refine keeps_ite (keeps_ite (State.reply_keeps k) ?_) (keeps_ite (State.reply_keeps k) (State.reply_keeps ?_))
  · exact keeps_mk (s := a.modMember (pf p 28 1) fun x => { x with st := .training }) (State.modMember_keeps k)
  · exact keeps_ite (keeps_mk (s := a) k) (State.linkChange_keeps k)

theorem execTimeCtrl_keeps : OutKeeps lk s (execTimeCtrl r s) := by
  refine runCmd_keeps (.refl s) fun a p k => ?_
  dsimp only
  split
  · exact State.reply_keeps k
  · split
    · exact State.reply_keeps (keeps_mk (s := a) k)
    · split
      · exact State.reply_keeps k
      · exact keeps_mk (s := a) k
    · exact State.reply_keeps (keeps_mk (s := a) k)

theorem execTimeCtrlTimeout_keeps : OutKeeps lk s (execTimeCtrlTimeout s) := by
  unfold execTimeCtrlTimeout
  split
  · exact .next (.refl s)
  · have ended : Keeps lk s { s with stb := { s.stb with follow := none } } := keeps_mk (.refl s)
    refine outKeeps_ite (.next (.refl s)) ?_
    dsimp only
    split
    · exact .next (State.pumpRing_keeps (State.reply_keeps ended))
    · exact .next ended

theorem execSetPowerLimit_keeps : OutKeeps lk s (execSetPowerLimit r s) :=
  runCmd_keeps (.refl s) fun a _ k => State.reply_keeps (keeps_ite (keeps_mk (s := a) k) (keeps_mk (s := a) k))

theorem execRunRadish_keeps : OutKeeps lk s (execRunRadish r s) := by
  refine runCmd_keeps (.refl s) fun a p k => ?_
  split
  · exact State.reply_keeps k
  · exact State.reply_keeps k
  · exact keeps_mk (s := a) k

theorem State.radishHbm_keeps {z : State} {p : BitVec 512} (h : Keeps lk z s) : Keeps lk z (s.radishHbm p) :=
  keeps_ite h (State.hbmWrite_keeps (keeps_mk h))

theorem execRadishKernelsFinished_keeps {ks : List RadishRes} : OutKeeps lk s (execRadishKernelsFinished ks s) := by
  unfold execRadishKernelsFinished
  split
  · exact .next (.refl s)
  · have judged : Keeps lk s (ks.foldl (fun (a : State) k => a.radishResult k) { s with radishRun := none }) :=
      keeps_foldl (keeps_mk (.refl s)) fun _ _ => State.radishResult_keeps
    have undefined (n i j) : Keeps lk s { ks.foldl (fun (a : State) k => a.radishResult k) { s with radishRun := none }
        with free := n, mem := { (ks.foldl (fun (a : State) k => a.radishResult k) { s with radishRun := none }).mem
        with spm := .undef i, sram := .undef j } } :=
      keeps_mem judged (Memory.wf_step fun w => { w with spm := Store.wf_undef _, sram := Store.wf_undef _ })
    dsimp only
    split
    · exact .next (State.pumpRing_keeps (State.outReply_keeps (State.radishHbm_keeps (undefined _ _ _))))
    · exact .next (undefined _ _ _)

theorem execClearErrors_keeps : OutKeeps lk s (execClearErrors r s) := by
  refine runCmd_keeps (.refl s) fun a p k => ?_
  dsimp only
  split
  · exact State.reply_keeps k
  · exact State.outReply_keeps (keeps_foldl k fun _ _ k => keeps_ite (State.regClear_keeps k) k)

theorem execFwUpdate_keeps : OutKeeps lk s (execFwUpdate r s) := by
  refine runCmd_keeps (.refl s) fun a p k => ?_
  dsimp only
  split
  · exact State.reply_keeps k
  · exact keeps_ite (State.reply_keeps k) (keeps_ite (State.reply_keeps k) (keeps_mk (s := a) k))

theorem execFlashWriteComplete_keeps {ok : Bool} : OutKeeps lk s (execFlashWriteComplete ok s) := by
  unfold execFlashWriteComplete
  split
  · exact .next (.refl s)
  · have written (toB : Prop) [Decidable toB] (bs : FlashCopy) (fw) : Keeps lk s { s with
        mem := if toB then { s.mem with flashB := bs } else { s.mem with flashA := bs }, fw := fw } := by
      refine keeps_mem (.refl s) fun w => ?_
      dsimp only
      split
      · exact Memory.wf_step (fun w => { w with }) w
      · exact Memory.wf_step (fun w => { w with }) w
    dsimp only
    split
    · exact .next (State.pumpRing_keeps (State.reply_keeps (written _ _ _)))
    · exact .next (written _ _ _)

/-- A context that is new holds no saved copies. -/
theorem execContextCreate_keeps : OutKeeps lk s (execContextCreate r s) := by
  refine runCmd_keeps (.refl s) fun a p k => ?_
  dsimp only
  split
  · exact State.reply_keeps k
  · have made (f) (hf : ∀ x : CtxSt, (f x).savedOk = true) : Keeps lk s (a.modCtx (pktCtx p) f) :=
      State.modCtx_keeps k fun _ x _ => hf x
    have laid {u : State} (h : Keeps lk s u) (q : Prop) [Decidable q] (il : Bool) :
        Keeps lk s (if q then { u with globalIl := il } else u) := keeps_ite (keeps_mk h) h
    have homed {u : State} (h : Keeps lk s u) (q : Prop) [Decidable q] (c : Fin 4) :
        Keeps lk s (if q then ({ u with resident := some c }).refreshCm else u) :=
      keeps_ite (State.refreshCm_keeps (keeps_mk h)) h
    exact State.reply_keeps (homed (laid (made _ fun _ => rfl) _ _) _ _)

theorem execContextSave_keeps : OutKeeps lk s (execContextSave r s) :=
  runCmd_keeps (.refl s) fun _ _ k => State.reply_keeps (keeps_ite (State.startSave_keeps k) (State.modCtx_keeps' k))

/-- The copies that a save holds are the stores as they are, in canonical form. -/
theorem execSaveComplete_keeps {c : Fin 4} : OutKeeps lk s (execSaveComplete c s) := by
  refine outKeeps_ite (.next (.refl s)) (.next (State.wakeRestores_keeps ?_))
  have saved : Keeps lk s (s.modCtx c.val fun x =>
      { x with st := .saved, savedX := s.sync.xcnt, savedSpm := some s.mem.spm, savedSram := some s.mem.sram }) := by
    refine State.modCtx_keeps (.refl s) fun w x _ => ?_
    simp only [State.memOk, Bool.and_eq_true] at w
    obtain ⟨w, _⟩ := w
    obtain ⟨_, _, spm, sram, _⟩ := Memory.wf_iff.1 w
    simp [CtxSt.savedOk, spm, sram]
  have left : Keeps lk s { s.modCtx c.val fun x =>
      { x with st := .saved, savedX := s.sync.xcnt, savedSpm := some s.mem.spm, savedSram := some s.mem.sram } with
      resident := none } := keeps_mk saved
  have gone := State.refreshCm_keeps (State.event_keeps (c := c.val) (code := 0x8005) (detail := s.cm.last.toNat)
    (State.parkEngines_keeps left))
  exact keeps_ite (State.beginDestroy_keeps gone) gone

theorem execContextRestore_keeps : OutKeeps lk s (execContextRestore r s) := by
  refine runCmd_keeps (.refl s) fun a p k => ?_
  dsimp only
  split
  · exact State.beginRestore_keeps k
  · exact State.modCtx_keeps' k
  · exact State.reply_keeps k

/-- The stores that a restore brings back are the saved copies, in canonical form. -/
theorem execContextRestoreComplete_keeps {c : Fin 4} : OutKeeps lk s (execContextRestoreComplete c s) := by
  refine outKeeps_ite (.next (.refl s)) (.next ?_)
  have back : Keeps lk s { s with
      sync := { s.sync with xcnt := (s.ctxAt c.val).savedX },
      mem := { s.mem with spm := (s.ctxAt c.val).savedSpm.getD s.mem.spm,
                          sram := (s.ctxAt c.val).savedSram.getD s.mem.sram } } := by
    refine (Keeps.refl s).trans ⟨rfl, .refl _, fun m => ?_, fun _ => .of_eq rfl rfl rfl⟩
    have saved := State.savedOk_ctxAt m c.val
    simp only [CtxSt.savedOk, Bool.and_eq_true] at saved
    obtain ⟨savedSpm, savedSram⟩ := saved
    simp only [State.memOk, Bool.and_eq_true] at m ⊢
    obtain ⟨m, ctx⟩ := m
    refine ⟨Memory.wf_step (m := s.mem) (fun k => { k with spm := ?_, sram := ?_ }) m, ctx⟩
    · have k := k.spm
      cases h : (s.ctxAt c.val).savedSpm with
      | none => simpa [h] using k
      | some st => simpa [h] using savedSpm
    · have k := k.sram
      cases h : (s.ctxAt c.val).savedSram with
      | none => simpa [h] using k
      | some st => simpa [h] using savedSram
  have goesOn (st : CtxSt → CtxPhase) := State.modCtx_keeps (c := c.val)
    (f := fun x => { x with st := st x, savedX := [], savedSpm := none, savedSram := none }) back fun _ _ _ => rfl
  have destroyed {u : State} (p : Prop) [Decidable p] (h : Keeps lk s u) :
      Keeps lk s (if p then u.beginDestroy c.val else u) := keeps_ite (State.beginDestroy_keeps h) h
  exact destroyed _ (State.replyWaiting_keeps
    (keeps_ite (State.event_keeps (State.modCtx_keeps' (goesOn _))) (goesOn _)))

theorem execContextDestroy_keeps : OutKeeps lk s (execContextDestroy r s) :=
  runCmd_keeps (.refl s) fun _ _ k => keeps_ite (State.modCtx_keeps' k) (State.beginDestroy_keeps k)

theorem execContextScrubComplete_keeps {c : Fin 4} : OutKeeps lk s (execContextScrubComplete c s) := by
  refine outKeeps_ite (.next (.refl s)) (.next (State.wakeRestores_keeps (State.replyWaiting_keeps ?_)))
  have scrubbed (f g) :
      Keeps lk s { s with mem := { s.mem with hbm := s.mem.hbm.filter f, ecc := s.mem.ecc.filter g } } :=
    keeps_mem (.refl s) (Memory.wf_step fun w => { w with hbm := canon_filter w.hbm, ecc := canon_filter w.ecc })
  refine State.modCtx_keeps (State.clearStreams_keeps (State.jdWrite_keeps ?_)) fun _ _ _ => rfl
  exact keeps_ite (State.clearResident_keeps (scrubbed _ _)) (scrubbed _ _)

theorem execLoadImage_keeps : OutKeeps lk s (execLoadImage r s) := by
  refine runCmd_keeps (.refl s) fun a p k => ?_
  refine keeps_ite (State.wrongState_keeps k) (keeps_ite (State.reply_keeps k) ?_)
  split
  · exact State.reply_keeps k
  · next b _ =>
    have written (x) : Keeps lk s (a.hbmWrite none x b) := State.hbmWrite_keeps k
    dsimp only
    split
    · exact State.reply_keeps (written _)
    · split
      · exact State.reply_keeps (written _)
      · exact State.reply_keeps (keeps_ite (State.applyImage_keeps (written _)) (State.modCtx_keeps' (written _)))

theorem execLoadConfig_keeps : OutKeeps lk s (execLoadConfig r s) := by
  refine runCmd_keeps (.refl s) fun a p k => ?_
  dsimp only
  split
  · exact State.reply_keeps k
  · refine keeps_ite (State.reply_keeps k) ?_
    split
    · exact State.reply_keeps k
    · next b _ =>
      have written (x) : Keeps lk s (a.hbmWrite none x b) := State.hbmWrite_keeps k
      split
      · exact State.reply_keeps (State.dropShadow_keeps (written _))
      · exact State.reply_keeps (State.modCtx_keeps' (written _))

theorem execVerifyConfig_keeps : OutKeeps lk s (execVerifyConfig r s) := by
  refine runCmd_keeps (.refl s) fun a p k => ?_
  dsimp only
  split
  · exact State.reply_keeps k
  · split
    · exact State.reply_keeps (State.dropShadow_keeps k)
    · refine keeps_ite (State.finishVerify_keeps k) (keeps_mk (keeps_foldl k ?_))
      exact fun _ _ => State.modMember_keeps

theorem execMemberTrainingComplete_keeps {f : BitVec 24} : OutKeeps lk s (execMemberTrainingComplete f s) := by
  unfold execMemberTrainingComplete
  split
  · exact .next (.refl s)
  · next rest _ =>
    have taken : Keeps lk s { s with net := { s.net with linkTrain := rest } } := keeps_mk (.refl s)
    dsimp only
    split
    · exact .next taken
    · refine .next (State.pumpRing_keeps ?_)
      have ended (q : Bool) (n : NetSt) (ms : List Nat) (g : Nat → Bool) : Keeps lk s
          (if q then { s with net := n }
           else ms.foldl (fun (a : State) m => a.trained (g m) m) { s with net := { s.net with linkTrain := rest } }) :=
        keeps_ite (keeps_mk (.refl s)) (keeps_foldl taken fun _ _ => State.trained_keeps)
      refine keeps_ite (State.reply_keeps (keeps_ite (ended _ _ _ _) (State.dropShadow_keeps (ended _ _ _ _))))
        (keeps_ite (State.reply_keeps (ended _ _ _ _)) (State.finishVerify_keeps (ended _ _ _ _)))

theorem execSwapConfig_keeps : OutKeeps lk s (execSwapConfig r s) := by
  refine runCmd_keeps (.refl s) fun a p k => ?_
  dsimp only
  split
  · exact State.reply_keeps k
  · refine keeps_ite (State.reply_keeps k) (keeps_ite (State.wrongState_keeps k)
      (keeps_ite (State.wrongState_keeps k) ?_))
    split
    · exact State.reply_keeps k
    · exact State.reply_keeps (keeps_ite (State.applySwap_keeps k) (State.modCtx_keeps' k))

theorem execStartSteps_keeps : OutKeeps lk s (execStartSteps r s) := by
  refine runCmd_keeps (.refl s) fun a p k => ?_
  dsimp only
  split
  · refine keeps_ite (keeps_ite (State.reply_keeps k) ?_) (keeps_ite (State.startFrom_keeps k)
      (keeps_ite (State.reply_keeps k) (State.startFrom_keeps (State.physRead_keeps k))))
    split
    · exact State.reply_keeps k
    · exact State.beginSteps_keeps k
  · exact State.reply_keeps k
  · exact State.wrongState_keeps k

theorem execResume_keeps : OutKeeps lk s (execResume r s) := by
  refine runCmd_keeps (.refl s) fun a p k => ?_
  dsimp only
  split
  · exact State.reply_keeps k
  · exact State.startFrom_keeps k

theorem execHalt_keeps : OutKeeps lk s (execHalt r s) := by
  refine runCmd_keeps (.refl s) fun a p k => ?_
  have noted (n) : Keeps lk s ((a.modCtx (pktCtx p) fun x => { x with haltAfter := n }).reply r.val p 0 0 0) :=
    State.reply_keeps (State.modCtx_keeps' k)
  exact keeps_ite (State.wrongState_keeps k) (keeps_ite (State.stopSteps_keeps (noted _)) (noted _))

theorem execAbortStep_keeps : OutKeeps lk s (execAbortStep r s) :=
  runCmd_keeps (.refl s) fun _ _ k =>
    keeps_ite (State.wrongState_keeps k) (State.reply_keeps (State.abortSteps_keeps k))

end

/-! ## Rings, registers and keyed sequences -/

section
variable {lk : Bool} {s : State} {r : Fin 8} {ws : List HostWrite} {a : Agent} {w : BusAddr} {wide b : Bool}
  {v : BitVec 32}

theorem execDoorbell_keeps {t : BitVec 16} : OutKeeps lk s (execDoorbell r ws t s) :=
  .next (keeps_ite (State.ringTail_keeps (State.hostWrites_keeps (.refl s))) (State.hostWrites_keeps (.refl s)))

theorem execRingEnable_keeps : OutKeeps lk s (execRingEnable r ws b s) :=
  .next (keeps_ite (State.ringCtl_keeps (State.hostWrites_keeps (.refl s))) (State.hostWrites_keeps (.refl s)))

theorem execRingDisable_keeps : OutKeeps lk s (execRingDisable r b s) :=
  .next (keeps_ite (State.ringCtl_keeps (.refl s)) (.refl s))

theorem execCompletionHeadWrite_keeps {t : BitVec 16} : OutKeeps lk s (execCompletionHeadWrite r t s) :=
  .next (keeps_ite (State.ringHead_keeps (.refl s)) (.refl s))

theorem execPcieHotReset_keeps : OutKeeps lk s (execPcieHotReset s) := .next (keeps_mk (.refl s))

theorem execRegisterWrite_keeps {x : BitVec 64} : OutKeeps lk s (execRegisterWrite a w wide x s) :=
  .next (State.busWrite_keeps (.refl s))

theorem execClearingRead_keeps : OutKeeps lk s (execClearingRead a w wide s) :=
  .next (State.returned_keeps (State.busRead_keeps (.refl s)))

theorem execStbTimeLowRead_keeps : OutKeeps lk s (execStbTimeLowRead a s) :=
  .next (State.returned_keeps (State.busRead_keeps (.refl s)))

theorem execKeyWrite_keeps : OutKeeps lk s (execKeyWrite a v s) := .next (State.busWrite_keeps (.refl s))

theorem execKeyedLockWrite_keeps {l : LockBlk} : OutKeeps lk s (execKeyedLockWrite a l v s) :=
  .next (State.busWrite_keeps (.refl s))

theorem execLsecLoad_keeps {c : Fin 4} : OutKeeps lk s (execLsecLoad a c v s) := .next (State.busWrite_keeps (.refl s))

theorem execKeyedWindowExpire_keeps : OutKeeps lk s (execKeyedWindowExpire s) := by
  unfold execKeyedWindowExpire
  split
  · exact .next (.refl s)
  · exact outKeeps_ite (.next (.refl s)) (.next (State.modSec_keeps (.refl s)))

theorem execTargetRegisterRead_keeps : OutKeeps lk s (execTargetRegisterRead a s) := by
  unfold execTargetRegisterRead
  split
  · exact .next (.refl s)
  · refine .next (State.returned_keeps ?_)
    have read {q : Bool} {x y : State × Nat} (hx : Keeps lk s x.1) (hy : Keeps lk s y.1) :
        Keeps lk s (if q then x else y).1 := by
      split
      · exact hx
      · exact hy
    exact read (.refl s) (State.read32_keeps (.refl s))

theorem execDebugAgentHalt_keeps : OutKeeps lk s (execDebugAgentHalt a b s) :=
  outKeeps_ite (.next (.refl s)) (.next (State.modSec_keeps (.refl s)))

theorem execDbgToken_keeps {t : Bytes} : OutKeeps lk s (execDbgToken t s) :=
  outKeeps_ite (.next (.refl s)) (.next (State.modSec_keeps (.refl s)))

theorem execDbgRelock_keeps : OutKeeps lk s (execDbgRelock s) := .next (State.modSec_keeps (.refl s))

end

/-! ## The FRU record and the sideband -/

section
variable {lk : Bool} {s : State} {off m en : BitVec 8}

theorem execHostFruCommit_keeps : OutKeeps lk s (execHostFruCommit s) :=
  .next (keeps_ite (State.askFru_keeps (.refl s)) (.refl s))

theorem execHostFruDiscard_keeps : OutKeeps lk s (execHostFruDiscard s) :=
  .next (keeps_ite (State.discardHost_keeps (.refl s)) (.refl s))

theorem execFruSnapshotRead_keeps : OutKeeps lk s (execFruSnapshotRead s) :=
  outKeeps_ite (.next (.refl s)) (.next (keeps_mk (State.snapHost_keeps (.refl s))))

theorem execFruCommitComplete_keeps {x y : Bool} : OutKeeps lk s (execFruCommitComplete x y s) := by
  unfold execFruCommitComplete
  split
  · exact .next (.refl s)
  · next side b _ =>
    have written (i bs f) : Keeps lk s ((s.jdWrite i bs).modFru f) := State.modFru_keeps (State.jdWrite_keeps (.refl s))
    have next {u : State} (h : Keeps lk s u) : OutKeeps lk s (match u.fru.queued with
        | [] => .next u
        | q :: rest => .next ((u.modFru fun f => { f with queued := rest }).startFru q)) := by
      split
      · exact .next h
      · exact .next (State.startFru_keeps (State.modFru_keeps h))
    cases side with
    | host =>
      exact next (keeps_ite (State.latch_keeps (State.modFru_keeps (written _ _ _)))
        (State.modFru_keeps (written _ _ _)))
    | sideband => exact next (State.respond?_keeps (written _ _ _))

theorem execDynamicAddressAssign_keeps {x : BitVec 7} : OutKeeps lk s (execDynamicAddressAssign x s) :=
  .next (keeps_mk (.refl s))

theorem execSidebandRead_keeps : OutKeeps lk s (execSidebandRead s) := by
  unfold execSidebandRead
  split
  · exact .next (keeps_mk (.refl s))
  · exact .next (keeps_ite (.refl s) (keeps_mk (.refl s)))

theorem execGetId_keeps : OutKeeps lk s (execGetId s) := .next (State.sbAnswer_keeps (.refl s))

theorem execGetStatus_keeps : OutKeeps lk s (execGetStatus s) := .next (State.sbAnswer_keeps (.refl s))

theorem execReadTelem_keeps {x : BitVec 16} : OutKeeps lk s (execReadTelem m x s) := by
  refine State.sbReady_keeps (.refl s) fun a k => ?_
  dsimp only
  split
  · exact State.sbBadArg_keeps k
  · exact keeps_ite (State.sbBadArg_keeps k) (State.sbAnswer_keeps (keeps_mk (s := a) k))

theorem execSetPwin_keeps {l : BitVec 16} : OutKeeps lk s (execSetPwin l m en s) :=
  State.sbReady_keeps (.refl s) fun a k =>
    keeps_ite (State.sbBadArg_keeps k) (State.sbAnswer_keeps (keeps_mk (s := a) k))

theorem execSetPrail_keeps : OutKeeps lk s (execSetPrail m en s) :=
  State.sbReady_keeps (.refl s) fun a k =>
    keeps_ite (State.sbBadArg_keeps k) (State.sbAnswer_keeps (keeps_mk (s := a) k))

theorem execGetLimits_keeps : OutKeeps lk s (execGetLimits s) :=
  State.sbReady_keeps (.refl s) fun _ => State.sbAnswer_keeps

theorem execFruRead_keeps : OutKeeps lk s (execFruRead off s) :=
  State.sbReady_keeps (.refl s) fun _ k =>
    keeps_ite (State.sbBadArg_keeps k) (State.sbAnswer_keeps (keeps_ite (State.modFru_keeps k) k))

theorem execFruStage_keeps {bs : Bytes} : OutKeeps lk s (execFruStage off bs s) :=
  State.sbReady_keeps (.refl s) fun _ k =>
    keeps_ite (State.sbBadArg_keeps k) (State.sbAnswer_keeps (State.modFru_keeps k))

theorem execFruCommit_keeps : OutKeeps lk s (execFruCommit s) :=
  State.sbReady_keeps (.refl s) fun a k => State.askFru_keeps (keeps_mk (s := a) k)

theorem execFruDiscard_keeps : OutKeeps lk s (execFruDiscard s) :=
  State.sbReady_keeps (.refl s) fun _ k => State.sbAnswer_keeps (State.modFru_keeps k)

theorem execSetIbiMask_keeps : OutKeeps lk s (execSetIbiMask m s) := .next (State.sbAnswer_keeps (keeps_mk (.refl s)))

theorem execReadEvents_keeps : OutKeeps lk s (execReadEvents s) := .next (State.sbAnswer_keeps (keeps_mk (.refl s)))

end

/-! ## Power, heat and resets -/

section
variable {lk : Bool} {s : State} {d : Fin 4} {b : BootEnv}

theorem execWindowTermEval_keeps : OutKeeps lk s (execWindowTermEval s) :=
  .next (keeps_ite (State.latch_keeps (keeps_mk (.refl s))) (keeps_mk (.refl s)))

theorem execRailTermEval_keeps : OutKeeps lk s (execRailTermEval d s) :=
  guardUnit_keeps (.next (keeps_ite (State.latch_keeps (State.modDiv_keeps (.refl s))) (State.modDiv_keeps (.refl s))))

theorem execThermalSample_keeps {ps : List PairReading} : OutKeeps lk s (execThermalSample ps s) := by
  unfold execThermalSample
  dsimp only
  have judged (ds : List Nat) (l : List (Nat × PairReading)) : Keeps lk s (ds.foldl (fun (a : State) d => a.thermDie d)
      (l.foldl (fun (a : State) p => a.setPair p.1 p.2) s)) :=
    keeps_foldl (keeps_foldl (.refl s) fun _ _ => State.setPair_keeps) fun _ _ => State.thermDie_keeps
  have judged := fun ds => judged ds ((List.range (min 69 ps.length)).zip ps)
  generalize ((List.range (min 69 ps.length)).zip ps).foldl (fun (a : State) p => a.setPair p.1 p.2) s = u at judged ⊢
  have judged := judged (List.range u.dies)
  generalize (List.range u.dies).foldl (fun (a : State) d => a.thermDie d) u = v at judged ⊢
  have slowed : Keeps lk s ((v.pairsOver 1760).foldl (fun (a : State) i => a.overTempAt i) v) :=
    keeps_foldl judged fun _ _ => State.overTempAt_keeps
  generalize (v.pairsOver 1760).foldl (fun (a : State) i => a.overTempAt i) v = w at slowed ⊢
  have released : Keeps lk s { w with pmc := { w.pmc with overTemp := v.pairsOver 1760 } }.endTrip :=
    State.endTrip_keeps (keeps_mk slowed)
  exact .next (keeps_ite (State.latch_keeps released) released)

theorem execTargetMove_keeps : OutKeeps lk s (execTargetMove s) :=
  .next (keeps_foldl (.refl s) fun _ _ k =>
    keeps_ite (State.setTarget_keeps k) (keeps_ite (State.setTarget_keeps k) k))

theorem execDroopStart_keeps : OutKeeps lk s (execDroopStart d s) := guardUnit_keeps (.next (keeps_mk (.refl s)))

theorem execDroopEnd_keeps {n : BitVec 32} : OutKeeps lk s (execDroopEnd d n s) :=
  guardUnit_keeps (outKeeps_ite (.next (keeps_mk (.refl s))) (.next (.refl s)))

theorem execRailOverCurrent_keeps : OutKeeps lk s (execRailOverCurrent d s) :=
  guardUnit_keeps (.next (State.report_keeps (State.latch_keeps (keeps_mk (.refl s)))))

theorem execThermalTrip_keeps {src : TripSource} : OutKeeps lk s (execThermalTrip src s) := by
  cases src with
  | pin0 => exact .next (State.trip_keeps (State.setTrips_keeps (.refl s)))
  | pin1 => exact .next (State.trip_keeps (State.setTrips_keeps (.refl s)))
  | reading => exact .next (keeps_ite (State.trip_keeps (.refl s)) (.refl s))

theorem execTripConditionRelease_keeps : OutKeeps lk s (execTripConditionRelease s) :=
  .next (State.endTrip_keeps (State.setTrips_keeps (.refl s)))

theorem execTripShutdown_keeps : OutKeeps lk s (execTripShutdown s) := by
  unfold execTripShutdown
  split
  · refine .next (keeps_ite (keeps_mk (keeps_foldl (.refl s) ?_)) (.refl s))
    exact fun _ _ k => keeps_ite (State.drainReqs_keeps k) k
  · exact .next (.refl s)

theorem execSensorDisagree_keeps {p : PairRef} : OutKeeps lk s (execSensorDisagree p s) := by
  unfold execSensorDisagree
  dsimp only
  generalize (match p with
    | .sensor i => i.val
    | .trip => 69 : Nat) = k
  split
  · exact .next (.refl s)
  · exact outKeeps_ite (.next (.refl s)) (.next (State.report_keeps (keeps_mk (.refl s))))

theorem execRegulatorSample_keeps {xs : List TileSample} : OutKeeps false s (execRegulatorSample xs s) :=
  .next (keeps_ite (State.powerOff_keeps (State.sampled_keeps (.refl s))) (State.sampled_keeps (.refl s)))

theorem execPowerLoss_keeps {v : Bool} : OutKeeps false s (execPowerLoss v s) := by
  have unpowered (sb pmc) : Keeps false s (if v then { s with sb := sb, pmc := pmc } else s) :=
    keeps_ite (keeps_mk (.refl s)) (.refl s)
  refine outKeeps_ite (.next (unpowered _ _)) (.next ?_)
  have lost {t : State} (h : Keeps false s t) (pmc) : Keeps false s { t.loseSteps with resetDue := none, pmc := pmc } :=
    keeps_mk (State.loseSteps_keeps h)
  exact keeps_ite (lost (unpowered _ _) _) (State.powerOff_keeps (lost (unpowered _ _) _))

theorem execPowerRestore_keeps : OutKeeps false s (execPowerRestore b s) :=
  .next (keeps_ite (State.resetNow_keeps (.refl s)) (.refl s))

theorem execPllLockLoss_keeps : OutKeeps false s (execPllLockLoss b s) := .next (State.warmReset_keeps (.refl s))

theorem execColdReset_keeps : OutKeeps false s (execColdReset b s) := .next (State.resetNow_keeps (.refl s))

theorem execWarmReset_keeps : OutKeeps false s (execWarmReset s) := .next (State.warmReset_keeps (keeps_mk (.refl s)))

theorem execLockstepMismatch_keeps : OutKeeps false s (execLockstepMismatch b s) :=
  outKeeps_ite (.next (.refl s))
    (.next (State.warmReset_keeps (State.crashSlot_keeps (State.latch_keeps (keeps_mk (.refl s))))))

theorem execPkgRstNRelease_keeps : OutKeeps false s (execPkgRstNRelease b s) := by
  have up : Keeps false s { s with pin := { s.pin with pkgRstN := true } } := keeps_mk (.refl s)
  exact outKeeps_ite (.next (.refl s)) (outKeeps_ite (.next up) (outKeeps_ite (.next (State.warmReset_keeps up))
    (.next (State.boot_keeps up))))

end

/-! ## One step (assumption log 1) -/

section
variable {s : State}

theorem step_of_pending_nil (h : s.pending = []) : step s = .next (tick s) := by
  unfold step
  rw [h]

theorem step_of_pending_cons {c : Instr} {cs : List Instr} (h : s.pending = c :: cs) :
    step s = exec c { s with pending := cs } := by
  unfold step
  rw [h]

end

/-! ## Every command -/

/-- A command that is no reset, and no event that a pending reset or a loss of power waits for. -/
theorem exec_keeps_of_not_mayReset {lk : Bool} {s : State} (i : Instr) (h : i.mayReset = false) :
    OutKeeps lk s (exec i s) := by
  cases i with
  | identify _ => exact execIdentify_keeps
  | queryStatus _ => exact execQueryStatus_keeps
  | readTelemetry _ => exact execReadTelemetry_keeps
  | journalRead _ => exact execJournalRead_keeps
  | attest _ => exact execAttest_keeps
  | contextCreate _ => exact execContextCreate_keeps
  | contextSave _ => exact execContextSave_keeps
  | contextRestore _ => exact execContextRestore_keeps
  | contextDestroy _ => exact execContextDestroy_keeps
  | loadImage _ => exact execLoadImage_keeps
  | loadConfig _ => exact execLoadConfig_keeps
  | verifyConfig _ => exact execVerifyConfig_keeps
  | swapConfig _ => exact execSwapConfig_keeps
  | startSteps _ => exact execStartSteps_keeps
  | halt _ => exact execHalt_keeps
  | resume _ => exact execResume_keeps
  | abortStep _ => exact execAbortStep_keeps
  | remapCore _ => exact execRemapCore_keeps
  | linkCtrl _ => exact execLinkCtrl_keeps
  | timeCtrl _ => exact execTimeCtrl_keeps
  | timeCtrlTimeout => exact execTimeCtrlTimeout_keeps
  | setPowerLimit _ => exact execSetPowerLimit_keeps
  | runRadish _ => exact execRunRadish_keeps
  | clearErrors _ => exact execClearErrors_keeps
  | fwUpdate _ => exact execFwUpdate_keeps
  | saveComplete _ => exact execSaveComplete_keeps
  | contextRestoreComplete _ => exact execContextRestoreComplete_keeps
  | contextScrubComplete _ => exact execContextScrubComplete_keeps
  | doorbell _ _ _ => exact execDoorbell_keeps
  | ringEnable _ _ _ => exact execRingEnable_keeps
  | ringDisable _ _ => exact execRingDisable_keeps
  | completionHeadWrite _ _ => exact execCompletionHeadWrite_keeps
  | pcieHotReset => exact execPcieHotReset_keeps
  | registerWrite _ _ _ _ => exact execRegisterWrite_keeps
  | clearingRead _ _ _ => exact execClearingRead_keeps
  | stbTimeLowRead _ => exact execStbTimeLowRead_keeps
  | keyWrite _ _ => exact execKeyWrite_keeps
  | keyedLockWrite _ _ _ => exact execKeyedLockWrite_keeps
  | lsecLoad _ _ _ => exact execLsecLoad_keeps
  | keyedWindowExpire => exact execKeyedWindowExpire_keeps
  | debugAgentHalt _ _ => exact execDebugAgentHalt_keeps
  | dbgToken _ => exact execDbgToken_keeps
  | dbgRelock => exact execDbgRelock_keeps
  | hostFruCommit => exact execHostFruCommit_keeps
  | hostFruDiscard => exact execHostFruDiscard_keeps
  | fruSnapshotRead => exact execFruSnapshotRead_keeps
  | fruCommitComplete _ _ => exact execFruCommitComplete_keeps
  | dynamicAddressAssign _ => exact execDynamicAddressAssign_keeps
  | sidebandRead => exact execSidebandRead_keeps
  | getId => exact execGetId_keeps
  | getStatus => exact execGetStatus_keeps
  | readTelem _ _ => exact execReadTelem_keeps
  | setPwin _ _ _ => exact execSetPwin_keeps
  | setPrail _ _ => exact execSetPrail_keeps
  | getLimits => exact execGetLimits_keeps
  | fruRead _ => exact execFruRead_keeps
  | fruStage _ _ => exact execFruStage_keeps
  | fruCommit => exact execFruCommit_keeps
  | fruDiscard => exact execFruDiscard_keeps
  | setIbiMask _ => exact execSetIbiMask_keeps
  | readEvents => exact execReadEvents_keeps
  | nop _ _ => exact execNop_keeps
  | end_ _ _ => exact execEnd_keeps
  | aeLoad _ _ _ _ _ => exact execAeLoad_keeps
  | loadRowWrite _ _ _ => exact execLoadRowWrite_keeps
  | aePass _ _ _ _ _ => exact execAePass_keeps
  | passStart _ _ => exact execPassStart_keeps
  | currentLevelStep _ _ _ => exact execCurrentLevelStep_keeps
  | checksumCheck _ _ => exact execChecksumCheck_keeps
  | aePreload _ _ _ _ => exact execAePreload_keeps
  | bankHandover _ _ => exact execBankHandover_keeps
  | vld _ _ _ _ => exact execVld_keeps
  | vst _ _ _ _ => exact execVst_keeps
  | vop _ _ _ _ => exact execVop_keeps
  | vtr _ _ _ _ => exact execVtr_keeps
  | vred _ _ _ _ => exact execVred_keeps
  | drain _ _ _ _ => exact execDrain_keeps
  | spill _ _ _ _ => exact execSpill_keeps
  | pdrain _ _ _ _ => exact execPdrain_keeps
  | vsrb _ _ _ => exact execVsrb_keeps
  | meDesc _ _ _ => exact execMeDesc_keeps
  | copy _ _ _ => exact execCopy_keeps
  | gather _ _ _ => exact execGather_keeps
  | xpEnc _ _ _ => exact execXpEnc_keeps
  | xpDec _ _ _ => exact execXpDec_keeps
  | meFence _ _ => exact execMeFence_keeps
  | xArrive _ _ _ => exact execXArrive_keeps
  | xWait _ _ _ _ _ => exact execXWait_keeps
  | xReset _ _ _ _ => exact execXReset_keeps
  | xAttime _ _ _ => exact execXAttime_keeps
  | stbTimeReached _ => exact execStbTimeReached_keeps
  | waiterWake _ => exact execWaiterWake_keeps
  | opComplete _ => exact execOpComplete_keeps
  | ueRun _ _ _ _ => exact execUeRun_keeps
  | cxRun _ _ _ => exact execCxRun_keeps
  | allReduce _ _ _ => exact execAllReduce_keeps
  | reduceScatter _ _ _ => exact execReduceScatter_keeps
  | allGather _ _ _ => exact execAllGather_keeps
  | broadcast _ _ _ => exact execBroadcast_keeps
  | barrier _ _ _ => exact execBarrier_keeps
  | permute _ _ _ _ => exact execPermute_keeps
  | a2aDispatch _ _ _ => exact execA2aDispatch_keeps
  | a2aCombine _ _ _ => exact execA2aCombine_keeps
  | cxGnorm _ _ _ _ => exact execCxGnorm_keeps
  | cxFence _ _ => exact execCxFence_keeps
  | collectiveTimeout _ _ => exact execCollectiveTimeout_keeps
  | portPriorityAging _ _ _ => exact execPortPriorityAging_keeps
  | boundedResourceRelease _ => exact execBoundedResourceRelease_keeps
  | hbmRequest _ => exact execHbmRequest_keeps
  | prefetchAging _ => exact execPrefetchAging_keeps
  | scrubChunk _ _ => exact execScrubChunk_keeps
  | scrubYieldExpire _ _ => exact execScrubYieldExpire_keeps
  | stackTempSample _ _ => exact execStackTempSample_keeps
  | stackBandChange _ => exact execStackBandChange_keeps
  | marketPartitionSwap _ => exact execMarketPartitionSwap_keeps
  | flitSlot _ _ => exact execFlitSlot_keeps
  | flitReceive _ _ => exact execFlitReceive_keeps
  | ackDue _ => exact execAckDue_keeps
  | ack _ _ => exact execAck_keeps
  | nak _ _ => exact execNak_keeps
  | credit _ _ _ _ => exact execCredit_keeps
  | state _ _ => exact execState_keeps
  | t0 _ _ => exact execT0_keeps
  | t1 _ _ _ => exact execT1_keeps
  | t1f _ _ _ => exact execT1f_keeps
  | t3 _ _ _ => exact execT3_keeps
  | t4 _ _ _ => exact execT4_keeps
  | timeExchange => exact execTimeExchange_keeps
  | retrainComplete _ => exact execRetrainComplete_keeps
  | retrainTimeout _ => exact execRetrainTimeout_keeps
  | parentReselect => exact execParentReselect_keeps
  | bucketLeak => exact execBucketLeak_keeps
  | messageReceive _ => exact execMessageReceive_keeps
  | incrementRecord _ => exact execIncrementRecord_keeps
  | heldRecordApply => exact execHeldRecordApply_keeps
  | abortMessage _ _ _ => exact execAbortMessage_keeps
  | haltMessage _ _ => exact execHaltMessage_keeps
  | pace _ => exact execPace_keeps
  | ready _ _ => exact execReady_keeps
  | readyDue _ _ => exact execReadyDue_keeps
  | anchorResult _ => exact execAnchorResult_keeps
  | launchEntry _ => exact execLaunchEntry_keeps
  | watchdogExpire _ => exact execWatchdogExpire_keeps
  | stepEnterRunning _ => exact execStepEnterRunning_keeps
  | globalNormArrive _ => exact execGlobalNormArrive_keeps
  | journalRestoreComplete _ => exact execJournalRestoreComplete_keeps
  | checkDone _ _ => exact execCheckDone_keeps
  | digestExchange _ _ => exact execDigestExchange_keeps
  | holdupThresholdMet _ => exact execHoldupThresholdMet_keeps
  | faultReport _ => exact execFaultReport_keeps
  | windowTermEval => exact execWindowTermEval_keeps
  | railTermEval _ => exact execRailTermEval_keeps
  | thermalSample _ => exact execThermalSample_keeps
  | targetMove => exact execTargetMove_keeps
  | droopStart _ => exact execDroopStart_keeps
  | droopEnd _ _ => exact execDroopEnd_keeps
  | railOverCurrent _ => exact execRailOverCurrent_keeps
  | thermalTrip _ => exact execThermalTrip_keeps
  | tripShutdown => exact execTripShutdown_keeps
  | sensorDisagree _ => exact execSensorDisagree_keeps
  | tripConditionRelease => exact execTripConditionRelease_keeps
  | radishKernelsFinished _ => exact execRadishKernelsFinished_keeps
  | memberTrainingComplete _ => exact execMemberTrainingComplete_keeps
  | flashWriteComplete _ => exact execFlashWriteComplete_keeps
  | targetRegisterRead _ => exact execTargetRegisterRead_keeps
  | commitRecordWritten _ _ => cases h
  | regulatorSample _ => cases h
  | powerLoss _ => cases h
  | powerRestore _ => cases h
  | pllLockLoss _ => cases h
  | coldReset _ => cases h
  | warmReset => cases h
  | lockstepMismatch _ => cases h
  | pkgRstNRelease _ => cases h

/-- What every command keeps. -/
theorem exec_keeps {s : State} (i : Instr) : OutKeeps false s (exec i s) := by
  cases i with
  | commitRecordWritten _ _ => exact execCommitRecordWritten_keeps
  | regulatorSample _ => exact execRegulatorSample_keeps
  | powerLoss _ => exact execPowerLoss_keeps
  | powerRestore _ => exact execPowerRestore_keeps
  | pllLockLoss _ => exact execPllLockLoss_keeps
  | coldReset _ => exact execColdReset_keeps
  | warmReset => exact execWarmReset_keeps
  | lockstepMismatch _ => exact execLockstepMismatch_keeps
  | pkgRstNRelease _ => exact execPkgRstNRelease_keeps
  | _ => exact exec_keeps_of_not_mayReset _ rfl

/-- Settles O3, by what every command keeps. -/
theorem effectsKeepQueueAndFuses : Obligations.EffectsKeepQueueAndFuses := by
  unfold Obligations.EffectsKeepQueueAndFuses
  intro c s t h
  obtain ⟨pending, fuse, _, _⟩ := exec_keeps c t h
  exact ⟨pending, fuse⟩

/-- Settles O4, by what every command and a tick of the timebase keep. That a step on an empty queue is a tick is the
model's choice (assumption log 1). -/
theorem stepKeepsMemoryCanonical : Obligations.StepKeepsMemoryCanonical := by
  unfold Obligations.StepKeepsMemoryCanonical
  intro s t hs h
  cases hq : s.pending with
  | nil =>
    rw [step_of_pending_nil hq] at h
    rw [← Host.Outcome.next.inj h]
    exact (tick_keeps (.refl s)).mem hs
  | cons c cs =>
    rw [step_of_pending_cons hq] at h
    exact (exec_keeps c t h).mem hs

/-- Settles O5, by what a command that resets nothing keeps. -/
theorem locksClearOnlyByReset : Obligations.LocksClearOnlyByReset := by
  unfold Obligations.LocksClearOnlyByReset
  intro c s t hc h
  exact (exec_keeps_of_not_mayReset c hc t h).locks rfl

/-- Settles O1, by the two forms of a step. -/
theorem stepRunsFrontCommandElseTicks : Obligations.StepRunsFrontCommandElseTicks := by
  unfold Obligations.StepRunsFrontCommandElseTicks
  exact ⟨fun c s => step_of_pending_cons rfl,
    fun s h => ⟨step_of_pending_nil h, (tick_keeps (.refl s)).pending.trans h⟩⟩

end Sys2Proof.Machine
end

section
/-! The package after reset (O2), and the registers of the rings: writes of their pointers and of their control (O50),
and the PCIe hot reset (O52). -/

namespace Sys2Proof.Machine

/-! ## After reset (R433, R666, R712, R821, R845) -/

/-- Settles O2, by the values of a state that has only been reset. -/
theorem resetState : Obligations.ResetState := by
  unfold Obligations.ResetState
  refine ⟨rfl, by decide, rfl, fun _ => rfl, fun _ => ⟨rfl, rfl, rfl⟩, rfl, rfl, rfl, rfl, fun _ => rfl, ?_, rfl⟩
  exact fun _ => ⟨rfl, rfl⟩

/-! ## The host's own writes -/

section
variable (s : State) (ws : List HostWrite)

/-- The host writes its own memory and nothing else. -/
theorem State.hostWrites_eq :
    s.hostWrites ws = { s with mem := { s.mem with host := (s.hostWrites ws).mem.host } } := by
  induction ws generalizing s with
  | nil => rfl
  | cons w ws ih => exact ih (s.hostWrite w.addr.toNat w.data)

theorem State.ready_hostWrites : (s.hostWrites ws).ready = s.ready := by rw [State.hostWrites_eq]; rfl

theorem State.ringAt_hostWrites (r : Nat) : (s.hostWrites ws).ringAt r = s.ringAt r := by rw [State.hostWrites_eq]; rfl

end

/-! ## Pointers of a ring (R642, R644, R646, R647) -/

section
variable {s : State} {r : Nat}

/-- Changes of a ring that agree on its present value. -/
theorem State.modRing_congr {f g : RingSt → RingSt} (h : f (s.ringAt r) = g (s.ringAt r)) :
    s.modRing r f = s.modRing r g := by
  unfold State.modRing tmod
  exact congrArg (fun q => { s with rings := tset .reset s.rings r q }) h

/-- A stopped ring takes no entry. -/
theorem State.pumpRing_stopped (h : (s.ringAt r).stopped = true) (k : Nat) : s.pumpRing r k = s := by
  cases k with
  | zero => rfl
  | succ k =>
    have : s.ringReady r = false := by simp [State.ringReady, h]
    simp [State.pumpRing, this]

theorem State.ringTail_fits {v : BitVec 16} (h : (v - (s.ringAt r).sqHead).toNat ≤ 256) :
    s.ringTail r v = (s.modRing r fun q => { q with sqTail := v }).pumpRing r 256 :=
  congrArg (State.pumpRing · r 256) (State.modRing_congr (if_neg (Nat.not_lt.2 h)))

/-- A TAIL more than 256 past HEAD stops the ring. -/
theorem State.ringTail_overruns {v : BitVec 16} (h : 256 < (v - (s.ringAt r).sqHead).toNat) :
    s.ringTail r v = s.modRing r fun q => { q with sqTail := v, overrun := true, stopped := true } := by
  have stops :
      ((s.modRing r fun q => { q with sqTail := v, overrun := true, stopped := true }).ringAt r).stopped = true := by
    rw [State.ringAt_modRing, if_pos rfl]
  calc s.ringTail r v
    _ = (s.modRing r fun q => { q with sqTail := v, overrun := true, stopped := true }).pumpRing r 256 :=
      congrArg (State.pumpRing · r 256) (State.modRing_congr (if_pos h))
    _ = _ := State.pumpRing_stopped stops 256

/-- What the writing of entries that waited changes: the completion ring of `r`, host memory and MSI-X; the pointers
that software and the submission side move stay. -/
structure Drained (s u : State) (r : Nat) : Prop where
  cqHead : (u.ringAt r).cqHead = (s.ringAt r).cqHead
  sqTail : (u.ringAt r).sqTail = (s.ringAt r).sqTail
  sqHead : (u.ringAt r).sqHead = (s.ringAt r).sqHead
  frame : u = { s with rings := u.rings, mem := { s.mem with host := u.mem.host }, msix := u.msix }

theorem Drained.refl (s : State) (r : Nat) : Drained s s r := ⟨rfl, rfl, rfl, rfl⟩

theorem Drained.trans {t u : State} (h : Drained s t r) (k : Drained t u r) : Drained s u r where
  cqHead := k.cqHead.trans h.cqHead
  sqTail := k.sqTail.trans h.sqTail
  sqHead := k.sqHead.trans h.sqHead
  frame := by rw [k.frame, h.frame]

theorem Drained.modRing {f : RingSt → RingSt} (hf : ∀ q, ((f q).cqHead, (f q).sqTail, (f q).sqHead)
    = (q.cqHead, q.sqTail, q.sqHead) := by exact fun _ => rfl) : Drained s (s.modRing r f) r := by
  have h := hf (s.ringAt r)
  simp only [Prod.mk.injEq] at h
  obtain ⟨cqHead, sqTail, sqHead⟩ := h
  refine ⟨?_, ?_, ?_, rfl⟩ <;> rw [State.ringAt_modRing, if_pos rfl] <;> assumption

theorem State.drained_writeEntry (w : WaitEnt) : Drained s (s.writeEntry r w) r := by
  cases h : s.hostOk (s.ringAt r).cqPlace 32 with
  | false =>
    rw [State.writeEntry_stops h]
    exact Drained.modRing
  | true =>
    rw [State.writeEntry_writes h]
    have written : Drained s (s.entryWritten r w) r :=
      Drained.trans (t := s.hostWrite _ _) ⟨rfl, rfl, rfl, rfl⟩ Drained.modRing
    split
    · rw [State.raise_eq rfl]
      exact written.trans ⟨rfl, rfl, rfl, rfl⟩
    · exact written

theorem State.drained_drainWait (k : Nat) : Drained s (s.drainWait r k) r := by
  induction k generalizing s with
  | zero => exact .refl s r
  | succ k ih =>
    unfold State.drainWait
    dsimp only
    split
    · exact .refl s r
    · split
      · exact .refl s r
      · exact (Drained.trans Drained.modRing (State.drained_writeEntry _)).trans ih

theorem State.drainWait_nil (h : (s.ringAt r).waiting = []) (k : Nat) : s.drainWait r k = s := by
  cases k with
  | zero => rfl
  | succ k =>
    unfold State.drainWait
    simp only [h]

end

/-! ## The ring registers (R642-R648, R819) -/

section
variable {s : State} (r : Fin 8) (ws : List HostWrite) (v : BitVec 16) (b : Bool)

theorem exec_doorbell : exec (.doorbell r ws v) s
    = .next (if s.ready then (s.hostWrites ws).ringTail r.val v else s.hostWrites ws) := by
  rw [← State.ready_hostWrites s ws]
  rfl

theorem exec_ringEnable : exec (.ringEnable r ws b) s
    = .next (if s.ready then (s.hostWrites ws).ringCtl r.val true b else s.hostWrites ws) := by
  rw [← State.ready_hostWrites s ws]
  rfl

theorem exec_ringDisable : exec (.ringDisable r b) s = .next (if s.ready then s.ringCtl r.val false b else s) := rfl

theorem exec_completionHeadWrite :
    exec (.completionHeadWrite r v) s = .next (if s.ready then s.ringHead r.val v else s) := rfl

end

/-- Settles O50, by what each ring register makes of its ring and by what the writing of entries that waited leaves. -/
theorem ringRegistersAct : Obligations.RingRegistersAct := by
  unfold Obligations.RingRegistersAct
  intro s r ws h q
  have hq : h.ringAt r.val = q := State.ringAt_hostWrites s ws r.val
  refine ⟨fun hr v b => ?_, fun hr v b => ?_⟩
  · simp only [exec_doorbell, exec_ringEnable, exec_ringDisable, exec_completionHeadWrite, hr]
    exact ⟨rfl, rfl, rfl, rfl⟩
  · simp only [Does, exec_doorbell, exec_ringEnable, exec_ringDisable, exec_completionHeadWrite, hr, if_true]
    refine ⟨fun hv => ?_, fun hv => ⟨_, rfl, ?_⟩, rfl, rfl, fun hv => ?_, fun hv => ?_⟩
    · rw [State.ringTail_fits (hq ▸ hv)]
    · exact State.ringTail_overruns (hq ▸ hv)
    · let u := s.modRing r.val fun q => { q with cqHead := v }
      have hu : u.ringAt r.val = { q with cqHead := v } := (State.ringAt_modRing ..).trans (if_pos rfl)
      obtain ⟨cqHead, sqTail, sqHead, frame⟩ := State.drained_drainWait (s := u) (r := r.val) 512
      refine ⟨u.drainWait r.val 512, congrArg _ (if_neg (Nat.not_lt.2 hv)), ?_, ?_, ?_, fun hw => ?_, frame⟩
      · rw [cqHead, hu]
      · rw [sqTail, hu]
      · rw [sqHead, hu]
      · exact State.drainWait_nil (by rw [hu]; exact hw) 512
    · exact congrArg _ (if_pos hv)

/-! ## The PCIe hot reset (R651) -/

theorem tget_of_above {α : Type} {d : α} {t : Tbl α} {k : Nat} (h : above k t = true) (hr : rising t = true) :
    tget d t k = d := by
  induction t with
  | nil => rfl
  | cons e t ih =>
    obtain ⟨j, v⟩ := e
    rw [rising_cons, Bool.and_eq_true] at hr
    have hj : k < j := by simpa [above] using h
    refine (if_neg (by omega)).trans (ih ?_ hr.2)
    cases t with
    | nil => rfl
    | cons e t => simp only [above, decide_eq_true_eq] at hr ⊢; omega

/-- A change of every entry of a table with rising keys that keeps the background. -/
theorem tget_tmapAll_of_rising {α : Type} [DecidableEq α] {d : α} {t : Tbl α} {f : α → α} (hd : f d = d)
    (hr : rising t = true) (k : Nat) :
    tget d (tmapAll d t f) k = f (tget d t k) := by
  induction t with
  | nil => exact hd.symm
  | cons e t ih =>
    obtain ⟨j, v⟩ := e
    have hrt := rising_tail hr
    rw [rising_cons, Bool.and_eq_true] at hr
    have htail : tget d (tmapAll d ((j, v) :: t) f) k = if j = k then f v else tget d (tmapAll d t f) k := by
      unfold tmapAll
      rw [List.map_cons, List.filter_cons]
      split
      · rfl
      · next hv =>
        split
        · next hk =>
          subst hk
          rw [show f v = d by simpa using hv]
          exact (ih hrt).trans ((congrArg f (tget_of_above hr.1 hrt)).trans hd)
        · rfl
    rw [htail, ih hrt]
    simp only [tget]
    split <;> rfl

/-- A ring after the hot reset. -/
def RingSt.hotReset (q : RingSt) : RingSt :=
  { q with en := false, stopped := true, mute := q.cur.isSome, waiting := [] }

theorem exec_pcieHotReset (s : State) :
    exec .pcieHotReset s = .next { s with rings := tmapAll .reset s.rings RingSt.hotReset } := rfl

/-- Settles O52, by what the hot reset makes of every ring and by the reply of a command on a muted ring. -/
theorem hotResetSilencesEveryRing : Obligations.HotResetSilencesEveryRing := by
  unfold Obligations.HotResetSilencesEveryRing
  intro s
  refine ⟨_, exec_pcieHotReset s, rfl, fun r => ?_⟩
  have disabled := tget_tmapAll RingSt.reset s.rings RingSt.hotReset r
  refine ⟨?_, ?_, fun hc => ?_⟩
  · rcases disabled with h | ⟨e, _, h⟩ <;> exact (congrArg RingSt.en h).trans rfl
  · rcases disabled with h | ⟨e, _, h⟩ <;> exact (congrArg RingSt.stopped h).trans rfl
  · have hr : (State.ringAt { s with rings := tmapAll .reset s.rings RingSt.hotReset } r) = (s.ringAt r).hotReset :=
      tget_tmapAll_of_rising rfl (Bool.and_eq_true .. ▸ hc).1 r
    rw [hr]
    refine ⟨rfl, rfl, fun u p st d n hu hcur => State.reply_mute p st d n ?_⟩
    rw [hu]
    exact Option.isSome_iff_ne_none.2 hcur

end Sys2Proof.Machine
end

section
/-! Fields of byte strings put together from parts (R4). -/

namespace Sys2Proof.Machine

/-! ## Parts of concatenated bytes -/

section
variable {xs ys : Bytes} {off n v : Nat} {b : Byte}

@[simp] theorem length_slice (xs : Bytes) (off n : Nat) : (slice xs off n).length = n := by
  simp only [slice, List.length_append, List.length_replicate, List.length_take, List.length_drop]
  omega

theorem slice_append_left (h : off + n ≤ xs.length) : slice (xs ++ ys) off n = slice xs off n := by
  have hl : off + n ≤ (xs ++ ys).length := by rw [List.length_append]; omega
  rw [slice_inside hl, slice_inside h, List.drop_append_of_le_length (by omega),
    List.take_append_of_le_length (by rw [List.length_drop]; omega)]

theorem slice_append_right (h : xs.length ≤ off) : slice (xs ++ ys) off n = slice ys (off - xs.length) n := by
  rw [slice, slice, List.drop_append, List.drop_eq_nil_of_le h, List.nil_append]

theorem fld_append_left (h : off + n ≤ xs.length) : fld (xs ++ ys) off n = fld xs off n := by
  rw [fld, slice_append_left h, fld]

theorem fld_append_right (h : xs.length ≤ off) : fld (xs ++ ys) off n = fld ys (off - xs.length) n := by
  rw [fld, slice_append_right h, fld]

/-- A field that lies past the first byte. -/
@[simp] theorem fld_cons (b : Byte) (xs : Bytes) (off n : Nat) : fld (b :: xs) (off + 1) n = fld xs off n := rfl

@[simp] theorem fld_head (b : Byte) (xs : Bytes) : fld (b :: xs) 0 1 = b.toNat := by
  rw [fld, slice_inside (by simp)]
  simp [leNat]

theorem fld_whole (h : xs.length = n) : fld xs 0 n = leNat xs := by rw [fld, slice_whole h]

/-- A number where it was put. -/
@[simp] theorem fld_leBytes_whole (n v : Nat) : fld (leBytes n v) 0 n = v % 256 ^ n := by
  rw [fld_whole (leBytes_length n v), leNat_leBytes]

end

end Sys2Proof.Machine
end

section
/-! The I3C sideband target and its limits (O55, O56), and the FRU record (O54). -/

namespace Sys2Proof.Machine

/-! ## SET_PWIN and SET_PRAIL (R877) -/

section
variable {s : State} (h : s.sbOn = true)
include h

/-- SET_PWIN with arguments in their ranges. -/
theorem exec_setPwin_sets {l : BitVec 16} {ms : BitVec 8} (hmin : 100 ≤ l.toNat) (hmax : l.toNat ≤ maxPower s.fuse.kind)
    (hms : 1 ≤ ms.toNat) (hms' : ms.toNat ≤ 100) : exec (.setPwin l ms 1) s =
      .next (({ s with pmc := { s.pmc with sbWin := { en := true, limit := l.toNat, ms := ms.toNat } } }).sbAnswer
        [0#8]) := by
  dsimp only [exec, execSetPwin]
  rw [sbReady_on _ h]
  simp [hmin, hmax, hms, hms']

theorem exec_setPwin_off (l : BitVec 16) (ms : BitVec 8) :
    exec (.setPwin l ms 0) s = .next (({ s with pmc := { s.pmc with sbWin := .off } }).sbAnswer [0#8]) := by
  dsimp only [exec, execSetPwin]
  rw [sbReady_on _ h]
  simp

theorem exec_setPwin_bad {l : BitVec 16} {ms en : BitVec 8} (hen : en ≠ 0)
    (hok : ¬(en = 1 ∧ 100 ≤ l.toNat ∧ l.toNat ≤ maxPower s.fuse.kind ∧ 1 ≤ ms.toNat ∧ ms.toNat ≤ 100)) :
    exec (.setPwin l ms en) s = .next (s.sbAnswer [2#8]) := by
  dsimp only [exec, execSetPwin]
  rw [sbReady_on _ h]
  refine congrArg _ (if_pos ?_)
  by_contra hin
  simp only [Bool.not_eq_true', Bool.not_eq_false, Bool.and_eq_true, Bool.or_eq_true, beq_iff_eq,
    decide_eq_true_eq, hen, false_or, and_assoc] at hin
  exact hok hin

/-- SET_PRAIL with arguments in their ranges. -/
theorem exec_setPrail_sets {l : BitVec 8} (hmin : 1 ≤ l.toNat) (hmax : l.toNat ≤ 95) : exec (.setPrail l 1) s =
    .next (({ s with pmc := { s.pmc with sbRail := { en := true, limit := l.toNat, ms := 0 } } }).sbAnswer [0#8]) := by
  dsimp only [exec, execSetPrail]
  rw [sbReady_on _ h]
  simp [hmin, hmax]

theorem exec_setPrail_off (l : BitVec 8) :
    exec (.setPrail l 0) s = .next (({ s with pmc := { s.pmc with sbRail := .off } }).sbAnswer [0#8]) := by
  dsimp only [exec, execSetPrail]
  rw [sbReady_on _ h]
  simp

theorem exec_setPrail_bad {l en : BitVec 8} (hen : en ≠ 0) (hok : ¬(en = 1 ∧ 1 ≤ l.toNat ∧ l.toNat ≤ 95)) :
    exec (.setPrail l en) s = .next (s.sbAnswer [2#8]) := by
  dsimp only [exec, execSetPrail]
  rw [sbReady_on _ h]
  refine congrArg _ (if_pos ?_)
  by_contra hin
  simp only [Bool.not_eq_true', Bool.not_eq_false, Bool.and_eq_true, Bool.or_eq_true, beq_iff_eq,
    decide_eq_true_eq, hen, false_or, and_assoc] at hin
  exact hok hin

end

/-- Settles O56, by the three forms of an argument: in its ranges, with EN 0, and any other. -/
theorem sidebandLimitsKeepTheirRanges : Obligations.SidebandLimitsKeepTheirRanges := by
  unfold Obligations.SidebandLimitsKeepTheirRanges
  intro s h
  refine ⟨fun l ms en => ⟨?_, ?_, fun hok hen => exec_setPwin_bad h hen hok⟩,
    fun l en => ⟨?_, ?_, fun hok hen => exec_setPrail_bad h hen hok⟩⟩
  · rintro ⟨rfl, hmin, hmax, hms, hms'⟩
    exact exec_setPwin_sets h hmin hmax hms hms'
  · rintro rfl
    exact exec_setPwin_off h l ms
  · rintro ⟨rfl, hmin, hmax⟩
    exact exec_setPrail_sets h hmin hmax
  · rintro rfl
    exact exec_setPrail_off h l

/-! ## What the sideband answers (R872-R878) -/

section
variable (s : State)

theorem toNat_kindCode (k : PartKind) : (BitVec.ofNat 8 (kindCode k)).toNat = kindCode k := by cases k <;> rfl

theorem length_fwBytes : s.fwBytes.length = 4 := length_slice ..

/-- The response to GET_ID. -/
def State.idBytes : Bytes :=
  [0#8, BitVec.ofNat 8 (kindCode s.fuse.kind), BitVec.ofNat 8 (stepCode s.fuse)]
    ++ (if s.sbOn then s.fwBytes else List.replicate 4 0#8) ++ leBytes 8 s.fuse.serial.toNat

theorem exec_getId : exec .getId s = .next (s.sbAnswer s.idBytes) := rfl

theorem idBytes_fields : s.idBytes.length = 15 ∧ fld s.idBytes 0 1 = 0
    ∧ fld s.idBytes 1 1 = kindCode s.fuse.kind ∧ fld s.idBytes 7 8 = s.fuse.serial.toNat
    ∧ (s.sbOn = true → slice s.idBytes 3 4 = s.fwBytes) ∧ (s.sbOn = false → fld s.idBytes 3 4 = 0) := by
  have hfw : (if s.sbOn then s.fwBytes else List.replicate 4 0#8).length = 4 := by
    split
    · exact length_fwBytes s
    · rfl
  have hlen : ([0#8, BitVec.ofNat 8 (kindCode s.fuse.kind), BitVec.ofNat 8 (stepCode s.fuse)] : Bytes).length = 3 := rfl
  have mid : slice s.idBytes 3 4 = if s.sbOn then s.fwBytes else List.replicate 4 0#8 := slice_mid hlen hfw
  refine ⟨?_, rfl, toNat_kindCode _, ?_, fun h => mid.trans (if_pos h), fun h => ?_⟩
  · rw [State.idBytes, List.length_append, List.length_append, hlen, hfw, leBytes_length]
  · rw [State.idBytes, fld_append_right (by rw [List.length_append, hlen, hfw]), List.length_append, hlen, hfw]
    exact (fld_leBytes_whole 8 _).trans (Nat.mod_eq_of_lt s.fuse.serial.isLt)
  · rw [fld, mid, h]
    rfl

/-- The response to GET_STATUS. -/
def State.statusBytes : Bytes :=
  0#8 :: (leBytes 4 (s.regVal .bootStatus) ++ leBytes 4 (s.regVal .fltStatus) ++ leBytes 4 (s.regVal .pmcStatus)
    ++ s.residentBytes)

theorem exec_getStatus : exec .getStatus s = .next (s.sbAnswer s.statusBytes) := rfl

theorem residentBytes_fields : s.residentBytes.length = 2
    ∧ fld s.residentBytes 0 1 = (s.resident.map (·.val)).getD 0xFF := by
  unfold State.residentBytes State.cur
  cases s.resident with
  | none => exact ⟨rfl, rfl⟩
  | some c => exact ⟨rfl, (fld_head ..).trans (Nat.mod_eq_of_lt (by omega))⟩

theorem statusBytes_fields : s.statusBytes.length = 15 ∧ fld s.statusBytes 0 1 = 0
    ∧ fld s.statusBytes 1 4 = s.regVal .bootStatus % 2 ^ 32 ∧ fld s.statusBytes 5 4 = s.regVal .fltStatus % 2 ^ 32
    ∧ fld s.statusBytes 9 4 = s.regVal .pmcStatus % 2 ^ 32
    ∧ fld s.statusBytes 13 1 = (s.resident.map (·.val)).getD 0xFF := by
  obtain ⟨hlen, hres⟩ := residentBytes_fields s
  unfold State.statusBytes
  generalize s.residentBytes = r at hlen hres
  generalize s.regVal .bootStatus = x
  generalize s.regVal .fltStatus = y
  generalize s.regVal .pmcStatus = z
  simp [fld_append_left, fld_append_right, hlen, hres]

/-- The response to GET_LIMITS. -/
def State.limitBytes : Bytes := 0#8 :: (leBytes 4 (s.regVal .plwin) ++ leBytes 4 (s.regVal .plrail))

theorem limitBytes_fields : s.limitBytes.length = 9 ∧ fld s.limitBytes 0 1 = 0
    ∧ fld s.limitBytes 1 4 = s.regVal .plwin % 2 ^ 32 ∧ fld s.limitBytes 5 4 = s.regVal .plrail % 2 ^ 32 := by
  unfold State.limitBytes
  generalize s.regVal .plwin = x
  generalize s.regVal .plrail = y
  simp [fld_append_left, fld_append_right]

variable {s}

theorem exec_sidebandRead_answer {b : Bytes} (h : s.sb.resp = some b) :
    exec .sidebandRead s = .next { s with sb := { s.sb with resp := none, read := b } } := by
  dsimp only [exec, execSidebandRead]
  rw [h]

theorem exec_sidebandRead_none (h : s.sb.resp = none) :
    exec .sidebandRead s = .next (if s.sbCommitting then s else { s with sb := { s.sb with read := [1#8] } }) := by
  dsimp only [exec, execSidebandRead]
  rw [h]

/-- READ_TELEM before stage 2, of a set that does not exist, and of one that does. -/
theorem exec_readTelem (h : s.sbOn = true) (x : BitVec 8) (off : BitVec 16) :
    exec (.readTelem x off) s = .next (match s.telemetry x.toNat with
      | none => s.sbAnswer [2#8]
      | some b =>
        let t := if off = 0 then b else s.sb.telem
        if t.length ≤ off.toNat then s.sbAnswer [2#8]
        else ({ s with sb := { s.sb with telem := t } }).sbAnswer (0#8 :: (t.drop off.toNat).take 64)) := by
  dsimp only [exec, execReadTelem]
  rw [sbReady_on _ h]
  rfl

theorem exec_getLimits (h : s.sbOn = true) : exec .getLimits s = .next (s.sbAnswer s.limitBytes) := by
  dsimp only [exec, execGetLimits]
  rw [sbReady_on _ h]
  rfl

/-- SET_IBI_MASK raises an interrupt where an unmasked event is latched and none is outstanding (R875). -/
theorem exec_setIbiMask (m : BitVec 8) : exec (.setIbiMask m) s = .next (({ s with sb := { s.sb with
    mask := m,
    ibi := if s.sb.ibi = none ∧ s.sb.events &&& ~~~m ≠ 0 then some s.sb.events else s.sb.ibi } }).sbAnswer [0#8]) := by
  dsimp only [exec, execSetIbiMask]
  cases s.sb.ibi with
  | some b => simp
  | none => simp only [true_and, ite_not]

end

/-- Settles O55, by what each command of the sideband answers. That an OFFSET equal to the length of the set is BAD_ARG,
and that a set bit of MASK masks its event, is the model's choice (assumption log 56). -/
theorem sidebandAnswers : Obligations.SidebandAnswers := by
  unfold Obligations.SidebandAnswers
  intro s
  refine ⟨fun d => ⟨_, rfl, rfl⟩, fun b h => ⟨_, exec_sidebandRead_answer h, rfl⟩, fun h hc => ?_, fun h hc => ?_,
    ⟨_, exec_getId s, idBytes_fields s⟩, ⟨_, exec_getStatus s, statusBytes_fields s⟩, fun h x off l => ?_, fun h => ?_,
    fun m => ⟨_, exec_setIbiMask m, rfl, rfl, rfl, rfl⟩, ⟨_, rfl, rfl⟩⟩
  · exact ⟨_, exec_sidebandRead_none h, by simp [hc]⟩
  · rw [exec_sidebandRead_none h, hc]
    rfl
  · dsimp only [exec, execReadTelem, execGetLimits, execSetPwin, execSetPrail]
    exact ⟨sbReady_off _ h, sbReady_off _ h, sbReady_off _ h, sbReady_off _ h⟩
  · refine ⟨⟨_, exec_getLimits h, limitBytes_fields s⟩, fun x off hx => ?_, fun x off b hx =>
      ⟨fun hl => ?_, fun hl => ?_⟩⟩
    · rw [exec_readTelem h, hx]
    · rw [exec_readTelem h, hx]
      exact congrArg _ (if_pos hl)
    · rw [exec_readTelem h, hx]
      exact congrArg _ (if_neg (Nat.not_le.2 hl))

/-! ## FRU commits (R881-R884) -/

section
variable {s : State}

theorem State.askFru_starts (h : s.fru.running = none) (side : FruSide) : s.askFru side = s.startFru side := by
  simp [State.askFru, h]

theorem State.askFru_waits (h : s.fru.running ≠ none) (side : FruSide) : s.askFru side = s.modFru fun f =>
    { f with queued := if f.queued.contains side then f.queued else f.queued ++ [side] } := by
  refine if_neg ?_
  rwa [Option.isNone_iff_eq_none]

/-- A side that asks for a commit is in the queue, once. -/
theorem mem_queued (q : List FruSide) (side : FruSide) : side ∈ if q.contains side then q else q ++ [side] := by
  split
  · next h => exact List.contains_iff_mem.1 h
  · exact List.mem_append_right _ (List.mem_singleton_self side)

theorem exec_hostFruCommit (h : s.ready = true) : exec .hostFruCommit s = .next (s.askFru .host) :=
    congrArg _ (if_pos h)

theorem exec_hostFruDiscard (h : s.ready = true) : exec .hostFruDiscard s = .next s.discardHost := congrArg _ (if_pos h)

theorem exec_fruSnapshotRead (h : s.ready = true) : exec .fruSnapshotRead s = .next { s.snapHost with
    bus := tmod .reset s.snapHost.bus 3 fun b =>
      { b with data := BitVec.ofNat 64 (s.snapHost.regVal (.fruData 0)) } } :=
  if_neg (by simp [h])

theorem regVal_fruData_snapHost (h : s.fruCommitted ≠ []) :
    s.snapHost.regVal (.fruData 0) = fld s.fruCommitted 0 4 := by
  dsimp only [State.regVal]
  simp [State.snapHost, State.modFru, h]

/-- The slot of the JD that a record goes to. -/
def fruPlace (b : Bytes) : Nat := 0x2000 + 0x100 * (fld b 4 2 % 2)

/-- The package after the commit of record `b`, whose read-back succeeds for `ok`: the slot of its GEN is written, and
no commit runs. -/
def State.fruWritten (s : State) (b : Bytes) (ok : Bool) : State :=
  (s.jdWrite (fruPlace b) (if ok then b else b.set 0xF8 (b.getD 0xF8 0#8 ^^^ 1#8))).modFru fun f =>
    { f with running := none, committed := if ok then b else
        (s.jdWrite (fruPlace b) (if ok then b else b.set 0xF8 (b.getD 0xF8 0#8 ^^^ 1#8))).fruCommitted }

/-- The side of the commit is told how it ended (R878, R883). -/
def State.fruTold (s : State) (side : FruSide) (gen : Nat) (ok : Bool) : State :=
  match side with
  | .host =>
    let s := s.modFru fun f => { f with done := f.done || ok, fail := f.fail || !ok }
    if ok then s.latch 4 else s
  | .sideband => s.respond? (if ok then 0#8 :: leBytes 2 gen else [2#8])

theorem State.fru_fruTold_queued (side : FruSide) (gen : Nat) (ok : Bool) :
    (s.fruTold side gen ok).fru.queued = s.fru.queued := by
  cases side with
  | host => cases ok <;> rfl
  | sideband =>
    dsimp only [State.fruTold, State.respond?]
    split <;> rfl

theorem exec_fruCommitComplete {side : FruSide} {b : Bytes} (h : s.fru.running = some (side, b)) (x y : Bool) :
    exec (.fruCommitComplete x y) s =
      match s.fru.queued with
      | [] => .next ((s.fruWritten b (x || y)).fruTold side (fld b 4 2) (x || y))
      | q :: rest => .next ((((s.fruWritten b (x || y)).fruTold side (fld b 4 2) (x || y)).modFru fun f =>
          { f with queued := rest }).startFru q) := by
  have hq : ((s.fruWritten b (x || y)).fruTold side (fld b 4 2) (x || y)).fru.queued = s.fru.queued :=
    State.fru_fruTold_queued ..
  rw [← hq]
  dsimp only [exec, execFruCommitComplete]
  rw [h]
  rfl

/-- The slot of the JD holds the record that it is given, where its read-back succeeds. -/
theorem State.jdRead_fruWritten {b : Bytes} (hb : b.length = 256) :
    (s.fruWritten b true).jdRead (fruPlace b) 256 = b := by
  have h := rdBytes_wrBytes s.mem.jd (fruPlace b) b
  rwa [hb] at h

/-- What the end of a commit changes besides the FRU logic: the JD, and what its side is told. -/
theorem State.frame_fruTold (side : FruSide) (gen : Nat) (ok : Bool) :
    s.fruTold side gen ok = { s with fru := (s.fruTold side gen ok).fru, sb := (s.fruTold side gen ok).sb } := by
  cases side with
  | host => cases ok <;> rfl
  | sideband =>
    dsimp only [State.fruTold, State.respond?]
    split <;> rfl

theorem State.fru_fruTold_sideband (gen : Nat) (ok : Bool) : (s.fruTold .sideband gen ok).fru = s.fru := by
  dsimp only [State.fruTold, State.respond?]
  split <;> rfl

theorem State.mem_fruTold (side : FruSide) (gen : Nat) (ok : Bool) : (s.fruTold side gen ok).mem = s.mem := by
  rw [State.frame_fruTold]

/-- The commit in progress and the committed record once the side is told. -/
theorem State.fru_fruTold_kept (side : FruSide) (gen : Nat) (ok : Bool) :
    (s.fruTold side gen ok).fru.running = s.fru.running
      ∧ (s.fruTold side gen ok).fru.committed = s.fru.committed := by
  cases side with
  | host => cases ok <;> exact ⟨rfl, rfl⟩
  | sideband => rw [State.fru_fruTold_sideband]; exact ⟨rfl, rfl⟩

theorem State.sb_fruTold_sideband (gen : Nat) (ok : Bool) (h : s.sb.resp = none) :
    (s.fruTold .sideband gen ok).sb.resp = some (if ok then 0#8 :: leBytes 2 gen else [2#8]) := by
  dsimp only [State.fruTold, State.respond?]
  rw [h]
  rfl

/-- A commit that no other waits for ends as its read-backs say. -/
theorem exec_fruCommitComplete_ends {side : FruSide} {b : Bytes} (h : s.fru.running = some (side, b))
    (hq : s.fru.queued = []) (x y : Bool) : exec (.fruCommitComplete x y) s =
      .next ((s.fruWritten b (x || y)).fruTold side (fld b 4 2) (x || y)) := by
  rw [exec_fruCommitComplete h, hq]

theorem exec_fruCommitComplete_next {side q : FruSide} {b : Bytes} {l : List FruSide}
    (h : s.fru.running = some (side, b)) (hq : s.fru.queued = q :: l) (x y : Bool) :
    ∃ u : State, exec (.fruCommitComplete x y) s = .next ((u.modFru fun f => { f with queued := l }).startFru q) := by
  rw [exec_fruCommitComplete h, hq]
  exact ⟨_, rfl⟩

end

/-! ## The sideband's FRU commands (R876, R881, R884) -/

section
variable {s : State}

theorem exec_fruRead (h : s.sbOn = true) (off : BitVec 8) : exec (.fruRead off) s = .next (
    if off.toNat % 64 ≠ 0 then s.sbAnswer [2#8]
    else
      let u := if off = 0 then s.modFru fun f => { f with sbSnap := s.fruCommitted } else s
      u.sbAnswer (0#8 :: slice (if u.fru.sbSnap.isEmpty then u.fruStored else u.fru.sbSnap) off.toNat 64)) := by
  dsimp only [exec, execFruRead]
  rw [sbReady_on _ h]
  rfl

theorem exec_fruRead_first (h : s.sbOn = true) : exec (.fruRead 0) s =
    .next ((s.modFru fun f => { f with sbSnap := s.fruCommitted }).sbAnswer (0#8 ::
      slice (if s.fruCommitted = [] then s.fruStored else s.fruCommitted) 0 64)) := by
  have stored : (s.modFru fun f => { f with sbSnap := s.fruCommitted }).fruStored = s.fruStored := rfl
  rw [exec_fruRead h]
  dsimp only [BitVec.toNat_ofNat]
  rw [if_neg (by decide), if_pos rfl, stored]
  simp only [State.modFru, List.isEmpty_iff]
  rfl

theorem exec_fruRead_next (h : s.sbOn = true) {off : BitVec 8} (h0 : off ≠ 0) (hoff : off.toNat % 64 = 0) :
    exec (.fruRead off) s = .next (s.sbAnswer (0#8 ::
      slice (if s.fru.sbSnap = [] then s.fruStored else s.fru.sbSnap) off.toNat 64)) := by
  rw [exec_fruRead h, if_neg (by simpa using hoff), if_neg h0]
  simp only [List.isEmpty_iff]

theorem exec_fruStage (h : s.sbOn = true) (off : BitVec 8) (data : Bytes) : exec (.fruStage off data) s = .next (
    if off.toNat < 8 ∨ data.length = 0 ∨ 32 < data.length ∨ 0xF8 < off.toNat + data.length then s.sbAnswer [2#8]
    else (s.modFru fun f => { f with sbStage := splice s.fruSbStage (off.toNat - 8) data }).sbAnswer [0#8]) := by
  dsimp only [exec, execFruStage]
  rw [sbReady_on _ h]
  rfl

theorem exec_fruCommit (h : s.sbOn = true) :
    exec .fruCommit s = .next (({ s with sb := { s.sb with resp := none } }).askFru .sideband) := by
  dsimp only [exec, execFruCommit]
  rw [sbReady_on _ h]

theorem exec_fruDiscard (h : s.sbOn = true) : exec .fruDiscard s =
    .next ((s.modFru fun f => { f with sbStage := slice s.fruCommitted 8 240 }).sbAnswer [0#8]) := by
  dsimp only [exec, execFruDiscard]
  rw [sbReady_on _ h]

end

/-- Settles O54, by how a commit starts, waits and ends, and by what each FRU command of the host and of the sideband
does. -/
theorem fruCommitsAndSnapshots : Obligations.FruCommitsAndSnapshots := by
  unfold Obligations.FruCommitsAndSnapshots
  intro s rec_
  refine ⟨fun hr => ⟨fun h => ?_, fun h => ?_, ⟨_, exec_hostFruDiscard hr, rfl⟩, ?_⟩, fun side b x y h hq hb => ?_,
    fun side b q l x y h hq => ?_, fun h off data => ?_, fun h off data => ?_⟩
  · exact ⟨_, exec_hostFruCommit hr, State.askFru_starts h _⟩
  · refine ⟨_, exec_hostFruCommit hr, ?_⟩
    rw [State.askFru_waits h]
    exact ⟨rfl, mem_queued _ _, rfl⟩
  · refine ⟨_, exec_fruSnapshotRead hr, rfl, rfl, fun h => ?_⟩
    rw [← regVal_fruData_snapHost h, tget_tmod_self]
  · refine ⟨_, exec_fruCommitComplete_ends h hq x y, ?_⟩
    obtain ⟨running, committed⟩ := State.fru_fruTold_kept (s := s.fruWritten b (x || y)) side (fld b 4 2) (x || y)
    refine ⟨running, (State.frame_fruTold ..).trans (by rw [State.mem_fruTold]; rfl), fun hok => ?_, fun hok => ?_⟩
    · rw [hok] at committed ⊢
      refine ⟨?_, committed, ?_, ?_⟩
      · rw [State.jdRead, State.mem_fruTold]
        exact State.jdRead_fruWritten hb
      · rintro rfl
        exact ⟨Bool.or_true _, Bool.or_false _, rfl⟩
      · rintro rfl hn
        exact State.sb_fruTold_sideband _ true hn
    · rw [hok]
      refine ⟨?_, ?_⟩
      · rintro rfl
        exact ⟨Bool.or_true _, Bool.or_false _, rfl⟩
      · rintro rfl hn
        exact State.sb_fruTold_sideband _ false hn
  · obtain ⟨u, hu⟩ := exec_fruCommitComplete_next h hq x y
    exact ⟨_, hu, rfl, _, rfl⟩
  · dsimp only [exec, execFruRead, execFruStage, execFruCommit, execFruDiscard]
    exact ⟨sbReady_off _ h, sbReady_off _ h, sbReady_off _ h, sbReady_off _ h⟩
  · refine ⟨exec_fruRead_first h, exec_fruRead_next h, fun hoff => ?_, fun hin => ?_, fun hout => ?_, fun hr => ?_,
      fun hr => ?_, exec_fruDiscard h⟩
    · rw [exec_fruRead h, if_pos hoff]
    · rw [exec_fruStage h, if_neg (by omega)]
    · rw [exec_fruStage h, if_pos (by omega)]
    · have h' := State.askFru_starts (s := { s with sb := { s.sb with resp := none } }) hr .sideband
      exact ⟨_, (exec_fruCommit h).trans (congrArg _ h'), rfl, rfl, rfl⟩
    · have h' := State.askFru_waits (s := { s with sb := { s.sb with resp := none } }) hr .sideband
      refine ⟨_, (exec_fruCommit h).trans (congrArg _ h'), ?_⟩
      exact ⟨rfl, mem_queued _ _, rfl, rfl⟩

end Sys2Proof.Machine
end

section
/-! The words of ops: what a word of fields at places holds, and that the word of an op decodes to it (O6). -/

namespace Sys2Proof.Machine

/-! ## Fields at their places -/

/-- A field of a word: its lowest bit, its width and a value that fits. -/
structure Placed where
  lo : Nat
  width : Nat
  val : Nat
  fits : val < 2 ^ width

/-- A bit vector as a field. -/
def Placed.vec (lo : Nat) {n : Nat} (v : BitVec n) : Placed := ⟨lo, n, v.toNat, v.isLt⟩

/-- A Bool as a field. -/
def Placed.flag (lo : Nat) (b : Bool) : Placed := ⟨lo, 1, b2n b, (b2n_lt_two b).trans_eq (pow_one 2).symm⟩

/-- The fields as `fieldsOf` takes them. -/
def places (ps : List Placed) : List (Nat × Nat) := ps.map fun f => (f.lo, f.val)

/-- Whether fields stand at or above bit `n`, in ascending order and apart. -/
def laid : Nat → List Placed → Bool
  | _, [] => true
  | n, f :: r => decide (n ≤ f.lo) && laid (f.lo + f.width) r

theorem laid_cons {n : Nat} {f : Placed} {r : List Placed} (h : laid n (f :: r) = true) :
    n ≤ f.lo ∧ laid (f.lo + f.width) r = true := by
  simpa [laid] using h

theorem laid_mono {n m : Nat} {ps : List Placed} (hmn : m ≤ n) (h : laid n ps = true) : laid m ps = true := by
  cases ps with
  | nil => rfl
  | cons f r => simpa [laid] using ⟨hmn.trans (laid_cons h).1, (laid_cons h).2⟩

theorem lo_le_of_laid {n : Nat} {ps : List Placed} (h : laid n ps = true) {f : Placed} (hf : f ∈ ps) : n ≤ f.lo := by
  induction ps generalizing n with
  | nil => cases hf
  | cons g r ih =>
    obtain ⟨hg, hr⟩ := laid_cons h
    cases hf with
    | head => exact hg
    | tail _ hf => have := ih hr hf; omega

theorem fieldsOf_places_cons (f : Placed) (r : List Placed) :
    fieldsOf (places (f :: r)) = f.val * 2 ^ f.lo + fieldsOf (places r) := rfl

/-- The fields from bit `n` on make a multiple of 2^n. -/
theorem dvd_fieldsOf {n : Nat} {ps : List Placed} (h : laid n ps = true) : 2 ^ n ∣ fieldsOf (places ps) := by
  induction ps generalizing n with
  | nil => exact dvd_zero _
  | cons f r ih =>
    obtain ⟨hf, hr⟩ := laid_cons h
    exact (dvd_mul_of_dvd_right (pow_dvd_pow 2 hf) _).add (ih (laid_mono (by omega) hr))

/-- The fields below the first make no difference to what stands from bit `k` on, past it. -/
theorem fieldsOf_cons_div {f : Placed} {r : List Placed} (h : laid (f.lo + f.width) r = true) {k : Nat}
    (hk : f.lo + f.width ≤ k) : fieldsOf (places (f :: r)) / 2 ^ k = fieldsOf (places r) / 2 ^ k := by
  obtain ⟨g, hg⟩ := dvd_fieldsOf h
  obtain ⟨d, rfl⟩ := Nat.exists_eq_add_of_le hk
  have hlow : f.val * 2 ^ f.lo < 2 ^ (f.lo + f.width) := by
    rw [pow_add, mul_comm]
    exact Nat.mul_lt_mul_of_pos_left f.fits (Nat.two_pow_pos _)
  rw [fieldsOf_places_cons, hg, pow_add 2 _ d, ← Nat.div_div_eq_div_mul, ← Nat.div_div_eq_div_mul,
    Nat.add_mul_div_left _ _ (Nat.two_pow_pos _), Nat.div_eq_of_lt hlow, Nat.zero_add,
    Nat.mul_div_cancel_left _ (Nat.two_pow_pos _)]

/-- A field of a word reads back. -/
theorem fieldsOf_reads {n : Nat} {ps : List Placed} (h : laid n ps = true) :
    ∀ f ∈ ps, fieldsOf (places ps) / 2 ^ f.lo % 2 ^ f.width = f.val := by
  induction ps generalizing n with
  | nil => exact fun _ hf => nomatch hf
  | cons g r ih =>
    obtain ⟨-, hr⟩ := laid_cons h
    intro f hf
    cases hf with
    | head =>
      obtain ⟨q, hq⟩ := dvd_fieldsOf hr
      rw [fieldsOf_places_cons, hq, pow_add, mul_assoc, mul_comm g.val, ← mul_add,
        Nat.mul_div_cancel_left _ (Nat.two_pow_pos _), Nat.add_mul_mod_self_left, Nat.mod_eq_of_lt g.fits]
    | tail _ hf => rw [fieldsOf_cons_div hr (lo_le_of_laid hr hf), ih hr f hf]

/-- Bits [hi:lo] are zero where no field stands. -/
theorem bits_fieldsOf_gap {n hi lo : Nat} {ps : List Placed} (h : laid n ps = true)
    (hgap : ∀ f ∈ ps, f.lo + f.width ≤ lo ∨ hi < f.lo) : bits (fieldsOf (places ps)) hi lo = 0 := by
  induction ps generalizing n with
  | nil => simp [bits, places, fieldsOf]
  | cons f r ih =>
    obtain ⟨-, hr⟩ := laid_cons h
    obtain ⟨hf, hgap⟩ := List.forall_mem_cons.mp hgap
    obtain hf | hf := hf
    · rw [bits, fieldsOf_cons_div hr hf]
      exact ih hr hgap
    · have hl : laid f.lo (f :: r) = true := by simpa [laid] using hr
      rw [bits]
      obtain ⟨q, hq⟩ := dvd_fieldsOf hl
      by_cases hlo : lo ≤ hi + 1
      · obtain ⟨d, hd⟩ := Nat.exists_eq_add_of_le (show hi + 1 ≤ f.lo from hf)
        obtain ⟨k, hk⟩ := Nat.exists_eq_add_of_le hlo
        rw [hq, hd, hk, pow_add, pow_add, mul_assoc, mul_assoc, Nat.mul_div_cancel_left _ (Nat.two_pow_pos _),
          Nat.add_sub_cancel_left, Nat.mul_mod_right]
      · rw [Nat.sub_eq_zero_of_le (by omega), pow_zero, Nat.mod_one]

/-- Fields below bit `m` make a word below 2^m. -/
theorem fieldsOf_div_eq_zero {n m : Nat} {ps : List Placed} (h : laid n ps = true) (hm : ∀ f ∈ ps, f.lo + f.width ≤ m) :
    fieldsOf (places ps) / 2 ^ m = 0 := by
  induction ps generalizing n with
  | nil => simp [places, fieldsOf]
  | cons f r ih =>
    obtain ⟨-, hr⟩ := laid_cons h
    obtain ⟨hf, hm⟩ := List.forall_mem_cons.mp hm
    rw [fieldsOf_cons_div hr hf, ih hr hm]

/-! ## Op words -/

/-- Word `w` holds the field `f`. -/
def Reads (w : Nat) (f : Placed) : Prop := w / 2 ^ f.lo % 2 ^ f.width = f.val

section
variable {w hi lo : Nat}

theorem Reads.vec {v : BitVec (hi + 1 - lo)} (h : Reads w (.vec lo v)) : opBits w hi lo = v := by
  rw [opBits, bits, show w / 2 ^ lo % 2 ^ (hi + 1 - lo) = v.toNat from h, BitVec.ofNat_toNat, BitVec.setWidth_eq]

theorem Reads.flag {b : Bool} (h : Reads w (.flag lo b)) : bitOf w lo = b := bitOf_eq h

end

/-- The header of an op at its places (R274). -/
def hdrPlaced (opc : Nat) (hopc : opc < 256) (h : OpHdr) : List Placed :=
  [⟨0, 8, opc, hopc⟩, .flag 8 h.wen, .vec 9 h.wxc, .flag 15 h.aen, .vec 16 h.axc, .vec 24 h.fslot, .vec 32 h.wtgt]

/-- Word `w` is an op word of opcode `opc` and header `h` that holds the fields `ps` and is zero elsewhere. -/
structure Spells (opc : Nat) (h : OpHdr) (ps : List Placed) (w : Nat) : Prop where
  opc : opcOf w = opc
  hdr : hdrOf w = h
  reads : ps.Forall (Reads w)
  only : ∀ {hi : Nat} {gaps : List (Nat × Nat)}, (decide (47 ≤ hi) && ps.all fun f => f.lo + f.width ≤ hi + 1) = true →
    (gaps.all fun g => (47 < g.2 : Bool) && ps.all fun f => f.lo + f.width ≤ g.2 || g.1 < f.lo) = true →
    onlyBits w hi gaps = true

theorem spells_wordOf {opc : Nat} (hopc : opc < 256) (h : OpHdr) {ps : List Placed} (hl : laid 48 ps = true) :
    Spells opc h ps (wordOf opc h (places ps)) := by
  have hl' : laid 0 (hdrPlaced opc hopc h ++ ps) = true := by
    simpa [hdrPlaced, laid, Placed.vec, Placed.flag] using hl
  have hw : wordOf opc h (places ps) = fieldsOf (places (hdrPlaced opc hopc h ++ ps)) := rfl
  generalize wordOf opc h (places ps) = w at hw
  subst hw
  have hreads := fieldsOf_reads hl'
  have hhdr : ∀ f ∈ hdrPlaced opc hopc h, f.lo + f.width ≤ 48 ∧ (f.lo + f.width ≤ 22 ∨ 23 < f.lo) := by
    simp [hdrPlaced, Placed.vec, Placed.flag]
  obtain ⟨ropc, rwen, rwxc, raen, raxc, rfslot, rwtgt⟩ : (hdrPlaced opc hopc h).Forall (Reads _) :=
    List.forall_iff_forall_mem.mpr fun f hf => hreads f (List.mem_append_left _ hf)
  refine ⟨?_, ?_, List.forall_iff_forall_mem.mpr fun f hf => hreads f (List.mem_append_right _ hf), ?_⟩
  · simpa [opcOf, Reads] using ropc
  · cases h
    simp only [hdrOf, OpHdr.mk.injEq]
    exact ⟨rwen.flag, rwxc.vec (hi := 14), raen.flag, raxc.vec (hi := 21), rfslot.vec (hi := 31), rwtgt.vec (hi := 47)⟩
  · intro hi gaps htop hgaps
    simp only [List.all_eq_true, Bool.and_eq_true, Bool.or_eq_true, decide_eq_true_eq] at htop hgaps
    rw [onlyBits, Bool.and_eq_true, Bool.and_eq_true, beq_iff_eq, beq_iff_eq, List.all_eq_true]
    refine ⟨⟨bits_fieldsOf_gap hl' fun f hf => ?_, fieldsOf_div_eq_zero hl' fun f hf => ?_⟩, fun g hg =>
      beq_iff_eq.mpr (bits_fieldsOf_gap hl' fun f hf => ?_)⟩ <;> obtain hf | hf := List.mem_append.mp hf
    · exact (hhdr f hf).2
    · exact .inr (by have := lo_le_of_laid hl hf; omega)
    · have := (hhdr f hf).1; omega
    · exact htop.2 f hf
    · have := (hhdr f hf).1; have := (hgaps g hg).1; omega
    · exact (hgaps g hg).2 f hf

/-! ## The fields of each op -/

section
variable {w : Nat}

/-- The fields of AE_PRELOAD at their places (R287). -/
def prePlaced (f : PreF) : List Placed := [.flag 48 f.bank, .vec 49 f.row0, .vec 57 f.nrows, .flag 66 f.col0,
  .flag 67 f.wide, .vec 68 f.src, .vec 70 f.pfmt, .vec 86 f.pline]

theorem preFields_eq {f : PreF} (r : (prePlaced f).Forall (Reads w)) : preFields w = f := by
  obtain ⟨bank, row0, nrows, col0, wide, src, pfmt, pline⟩ := r
  cases f
  exact (PreF.mk.injEq ..).mpr ⟨bank.flag, row0.vec, nrows.vec, col0.flag, wide.flag, src.vec, pfmt.vec,
    pline.vec (hi := 101)⟩

/-- The fields of VLD and VST at their places (R288). -/
def vldPlaced (f : VldF) : List Placed := [.vec 48 f.vr, .vec 54 f.fmt, .vec 70 f.line, .vec 86 f.sbyte,
  .vec 108 f.len]

theorem vldFields_eq {f : VldF} (r : (vldPlaced f).Forall (Reads w)) : vldFields w = f := by
  obtain ⟨vr, fmt, line, sbyte, len⟩ := r
  cases f
  exact (VldF.mk.injEq ..).mpr ⟨vr.vec, fmt.vec, line.vec, sbyte.vec, len.vec (hi := 114)⟩

/-- The fields of VOP at their places (R291). -/
def vopPlaced (f : VopF) : List Placed := [.vec 48 f.func, .vec 56 f.vd, .vec 62 f.va, .vec 68 f.vb, .vec 74 f.vc,
  .flag 80 f.isel, .vec 81 f.imm]

theorem vopFields_eq {f : VopF} (r : (vopPlaced f).Forall (Reads w)) : vopFields w = f := by
  obtain ⟨func, vd, va, vb, vc, isel, imm⟩ := r
  cases f
  exact (VopF.mk.injEq ..).mpr ⟨func.vec, vd.vec, va.vec, vb.vec, vc.vec, isel.flag, imm.vec (hi := 112)⟩

/-- The fields of VTR and VRED at their places (R294, R296). -/
def vtrPlaced (f : VtrF) : List Placed := [.vec 48 f.func, .vec 56 f.vd, .vec 62 f.va]

theorem vtrFields_eq {f : VtrF} (r : (vtrPlaced f).Forall (Reads w)) : vtrFields w = f := by
  obtain ⟨func, vd, va⟩ := r
  cases f
  exact (VtrF.mk.injEq ..).mpr ⟨func.vec, vd.vec, va.vec (hi := 67)⟩

/-- The fields of DRAIN at their places (R297). -/
def drainPlaced (f : DrainF) : List Placed := [.flag 48 f.bank, .vec 49 f.row0, .vec 57 f.nrows, .flag 66 f.col0,
  .flag 67 f.wide, .flag 68 f.clear, .flag 69 f.release, .vec 70 f.fmt, .vec 86 f.line, .vec 102 f.sbyte]

theorem drainFields_eq {f : DrainF} (r : (drainPlaced f).Forall (Reads w)) : drainFields w = f := by
  obtain ⟨bank, row0, nrows, col0, wide, clear, release, fmt, line, sbyte⟩ := r
  cases f
  exact (DrainF.mk.injEq ..).mpr ⟨bank.flag, row0.vec, nrows.vec, col0.flag, wide.flag, clear.flag, release.flag,
    fmt.vec, line.vec, sbyte.vec (hi := 123)⟩

/-- The fields of SPILL at their places (R298). -/
def spillPlaced (f : SpillF) : List Placed := [.flag 48 f.bank, .vec 49 f.row0, .vec 57 f.nrows, .flag 66 f.col0,
  .flag 67 f.wide, .flag 68 f.init, .flag 69 f.release, .vec 70 f.pline]

theorem spillFields_eq {f : SpillF} (r : (spillPlaced f).Forall (Reads w)) : spillFields w = f := by
  obtain ⟨bank, row0, nrows, col0, wide, init, release, pline⟩ := r
  cases f
  exact (SpillF.mk.injEq ..).mpr ⟨bank.flag, row0.vec, nrows.vec, col0.flag, wide.flag, init.flag, release.flag,
    pline.vec (hi := 85)⟩

/-- The fields of PDRAIN at their places (R299). -/
def pdrainPlaced (f : PdrainF) : List Placed := [.vec 48 f.nrows, .flag 57 f.wide, .vec 58 f.fmt, .vec 74 f.pline,
  .vec 90 f.line, .vec 106 f.sbyte]

theorem pdrainFields_eq {f : PdrainF} (r : (pdrainPlaced f).Forall (Reads w)) : pdrainFields w = f := by
  obtain ⟨nrows, wide, fmt, pline, line, sbyte⟩ := r
  cases f
  exact (PdrainF.mk.injEq ..).mpr ⟨nrows.vec, wide.flag, fmt.vec, pline.vec, line.vec, sbyte.vec (hi := 127)⟩

/-- The fields of X_ARRIVE at their places (R304). -/
def arrivePlaced (f : ArriveF) : List Placed := [.vec 48 f.scope, .vec 50 f.die, .vec 52 f.core, .vec 59 f.index,
  .vec 67 f.n, .vec 83 f.x, .vec 88 f.y, .vec 93 f.z]

theorem arriveFields_eq {f : ArriveF} (r : (arrivePlaced f).Forall (Reads w)) : arriveFields w = f := by
  obtain ⟨scope, die, core, index, n, x, y, z⟩ := r
  cases f
  exact (ArriveF.mk.injEq ..).mpr ⟨scope.vec, die.vec, core.vec, index.vec, n.vec, x.vec, y.vec, z.vec (hi := 97)⟩

/-- The fields of AE_PASS at their places (R283); its EXT is a word of its own. -/
def passPlaced (f : PassF) : List Placed :=
  [.flag 48 f.orient, .vec 49 f.pack, .flag 51 f.swap, .flag 52 f.sealB, .flag 53 f.exactM, .flag 54 f.opn,
    .flag 55 f.cls, .flag 56 f.acc, .flag 57 f.bank, .vec 64 f.sfmt, .vec 80 f.soff, .vec 96 f.m, .vec 105 f.mimg]

theorem passFields_eq {f : PassF} (r : (passPlaced f).Forall (Reads w)) : passFields w f.ext = f := by
  obtain ⟨orient, pack, swap, sealB, exactM, opn, cls, acc, bank, sfmt, soff, m, mimg⟩ := r
  cases f
  exact (PassF.mk.injEq ..).mpr ⟨orient.flag, pack.vec, swap.flag, sealB.flag, exactM.flag, opn.flag, cls.flag,
    acc.flag, bank.flag, sfmt.vec, soff.vec, m.vec, mimg.vec (hi := 120), rfl⟩

/-- The fields of an EXT at their places (R284), its opcode among them. -/
def extPlaced (f : ExtFields) : List Placed :=
  [.vec 0 0xFE#8, .vec 16 f.soff0, .vec 32 f.soff1, .vec 48 f.soff2, .vec 64 f.soff3, .vec 80 f.m0, .vec 89 f.m1,
    .vec 98 f.m2, .vec 107 f.m3]

/-- The EXT of a packed pass is the word that AE_PASS takes as one. -/
theorem extWord_reads (f : ExtFields) : opcOf (extWord f) = 0xFE ∧ bits (extWord f) 15 8 = 0 ∧
    extWord f / 2 ^ 116 = 0 ∧ extFields (extWord f) = f := by
  have hl : laid 0 (extPlaced f) = true := rfl
  have hw : extWord f = fieldsOf (places (extPlaced f)) := rfl
  generalize extWord f = w at hw
  subst hw
  obtain ⟨opc, soff0, soff1, soff2, soff3, m0, m1, m2, m3⟩ : (extPlaced f).Forall (Reads _) :=
    List.forall_iff_forall_mem.mpr (fieldsOf_reads hl)
  refine ⟨by simpa [opcOf, Reads, Placed.vec] using opc, bits_fieldsOf_gap hl (by simp [extPlaced, Placed.vec]),
    fieldsOf_div_eq_zero hl (by simp [extPlaced, Placed.vec]), ?_⟩
  cases f
  exact (ExtFields.mk.injEq ..).mpr ⟨soff0.vec, soff1.vec, soff2.vec, soff3.vec, m0.vec, m1.vec, m2.vec,
    m3.vec (hi := 115)⟩

/-! ## The op of each word -/

variable {h : OpHdr} (c : CoreRef) (x : Nat)

theorem aeWord_aeLoad {wfmt wline : BitVec 16} (s : Spells 0x10 h [.vec 64 wfmt, .vec 80 wline] w) :
    aeWord c w x = some (.aeLoad c h wfmt wline []) := by
  obtain ⟨f, l⟩ := s.reads
  simp only [aeWord, s.opc, s.hdr, s.only (hi := 95) (gaps := [(63, 48)]) rfl rfl, if_true, Reads.vec (hi := 79) f,
    Reads.vec (hi := 95) l]

/-- A pass is packed where it has an EXT (R283, R284). -/
theorem pack_of_passOk {p : PassF} (hp : passOk h p = true) : p.pack.toNat = 0 ↔ p.ext = none := by
  simp only [passOk, Bool.and_eq_true] at hp
  obtain ⟨⟨⟨⟨-, hext⟩, -⟩, -⟩, -⟩ := hp
  split at hext
  case h_4 => cases hext
  all_goals next hpack he => simp [hpack, he]

/-- The word after a pass: its EXT, or none of its own. -/
def passNext (p : PassF) : Nat :=
  match p.ext with
  | none => 0
  | some e => extWord e

theorem aeWord_aePass {p : PassF} (s : Spells 0x11 h (passPlaced p) w) (hp : passOk h p = true) :
    aeWord c w (passNext p) = some (.aePass c h p [] noObs) := by
  have hpack : bits w 50 49 = p.pack.toNat := by
    obtain ⟨-, hpack, -⟩ := s.reads
    exact hpack
  have hfields := passFields_eq s.reads
  simp only [aeWord, s.opc, s.hdr, hpack, pack_of_passOk hp, s.only (hi := 120) (gaps := [(63, 58)]) rfl rfl]
  cases he : p.ext with
  | none =>
    rw [he] at hfields
    simp [hfields]
  | some e =>
    obtain ⟨hopc, hgap, htop, hx⟩ := extWord_reads e
    rw [he] at hfields
    simp [passNext, he, hopc, hgap, hx, hfields, Nat.lt_of_div_eq_zero (Nat.two_pow_pos 116) htop]

theorem aeWord_aePreload {f : PreF} (s : Spells 0x12 h (prePlaced f) w) :
    aeWord c w x = some (.aePreload c h f noObs) := by
  simp only [aeWord, s.opc, s.hdr, preFields_eq s.reads, s.only (hi := 101) (gaps := []) rfl rfl, if_true]

theorem veWord_vld {f : VldF} (s : Spells 0x20 h (vldPlaced f) w) :
    veWord c w = some (.vld c h f noObs) := by
  simp only [veWord, s.opc, s.hdr, vldFields_eq s.reads, s.only (hi := 114) (gaps := []) rfl rfl, if_true]

theorem veWord_vst {f : VldF} (s : Spells 0x21 h (vldPlaced f) w) :
    veWord c w = some (.vst c h f noObs) := by
  simp only [veWord, s.opc, s.hdr, vldFields_eq s.reads, s.only (hi := 114) (gaps := []) rfl rfl, if_true]

theorem veWord_vop {f : VopF} (s : Spells 0x22 h (vopPlaced f) w) :
    veWord c w = some (.vop c h f noObs) := by
  simp only [veWord, s.opc, s.hdr, vopFields_eq s.reads, s.only (hi := 112) (gaps := []) rfl rfl, if_true]

theorem veWord_vtr {f : VtrF} (s : Spells 0x23 h (vtrPlaced f) w) :
    veWord c w = some (.vtr c h f noObs) := by
  simp only [veWord, s.opc, s.hdr, vtrFields_eq s.reads, s.only (hi := 67) (gaps := []) rfl rfl, if_true]

theorem veWord_vred {f : VtrF} (s : Spells 0x24 h (vtrPlaced f) w) :
    veWord c w = some (.vred c h f noObs) := by
  simp only [veWord, s.opc, s.hdr, vtrFields_eq s.reads, s.only (hi := 67) (gaps := []) rfl rfl, if_true]

theorem veWord_drain {f : DrainF} (s : Spells 0x25 h (drainPlaced f) w) :
    veWord c w = some (.drain c h f noObs) := by
  simp only [veWord, s.opc, s.hdr, drainFields_eq s.reads, s.only (hi := 123) (gaps := []) rfl rfl, if_true]

theorem veWord_spill {f : SpillF} (s : Spells 0x26 h (spillPlaced f) w) :
    veWord c w = some (.spill c h f noObs) := by
  simp only [veWord, s.opc, s.hdr, spillFields_eq s.reads, s.only (hi := 85) (gaps := []) rfl rfl, if_true]

theorem veWord_pdrain {f : PdrainF} (s : Spells 0x27 h (pdrainPlaced f) w) :
    veWord c w = some (.pdrain c h f noObs) := by
  simp only [veWord, s.opc, s.hdr, pdrainFields_eq s.reads, s.only (hi := 127) (gaps := []) rfl rfl, if_true]

theorem veWord_vsrb {v : BitVec 64} (s : Spells 0x28 h [.vec 48 v] w) : veWord c w = some (.vsrb c h v) := by
  simp only [veWord, s.opc, s.hdr, s.only (hi := 111) (gaps := []) rfl rfl, if_true, Reads.vec (hi := 111) s.reads]

theorem syncWord_xArrive {f : ArriveF} (s : Spells 0x40 h (arrivePlaced f) w) :
    syncWord c w = some (.xArrive c h f) := by
  simp only [syncWord, s.opc, s.hdr, arriveFields_eq s.reads, s.only (hi := 97) (gaps := []) rfl rfl, if_true]

theorem syncWord_xWait {scope : BitVec 2} {index : BitVec 8} {target : BitVec 16}
    (s : Spells 0x41 h [.vec 48 scope, .vec 50 index, .vec 58 target] w) :
    syncWord c w = some (.xWait c h scope index target) := by
  obtain ⟨sc, i, t⟩ := s.reads
  simp only [syncWord, s.opc, s.hdr, s.only (hi := 73) (gaps := []) rfl rfl, if_true, Reads.vec (hi := 49) sc,
    Reads.vec (hi := 57) i, Reads.vec (hi := 73) t]

theorem syncWord_xReset {scope : BitVec 2} {index : BitVec 8} (s : Spells 0x42 h [.vec 48 scope, .vec 50 index] w) :
    syncWord c w = some (.xReset c h scope index) := by
  obtain ⟨sc, i⟩ := s.reads
  simp only [syncWord, s.opc, s.hdr, s.only (hi := 57) (gaps := []) rfl rfl, if_true, Reads.vec (hi := 49) sc,
    Reads.vec (hi := 57) i]

theorem syncWord_xAttime {t : BitVec 64} (s : Spells 0x43 h [.vec 48 t] w) :
    syncWord c w = some (.xAttime c h t) := by
  simp only [syncWord, s.opc, s.hdr, s.only (hi := 111) (gaps := []) rfl rfl, if_true, Reads.vec (hi := 111) s.reads]

/-! ## The op that decodes -/

/-- What decoding makes of an op that a word spells: nothing where its encoding is reserved or it names a byte that does
not exist. -/
def opIfSound (i : Option Instr) : Option Instr := i.bind fun i => if i.wf && i.inStore then some i else none

section
variable (h0 : opcOf w ≠ 0) (h1 : opcOf w ≠ 1)
include h0 h1

theorem decodeOp_ae_eq : decodeOp (engOf c .ae) w x = opIfSound (aeWord c w x) := by
  simp only [decodeOp, engOf, opIfSound]

theorem decodeOp_ve_eq : decodeOp (engOf c .ve) w x = opIfSound (veWord c w) := by
  simp only [decodeOp, engOf, opIfSound]

theorem decodeOp_sync_eq : decodeOp (engOf c .sync) w x = opIfSound (syncWord c w) := by
  simp only [decodeOp, engOf, opIfSound]

end

theorem Spells.opc_ne {opc k : Nat} {ps : List Placed} (s : Spells opc h ps w) (hopc : opc ≠ k) : opcOf w ≠ k :=
  fun hk => hopc (s.opc.symm.trans hk)

section
variable {opc : Nat} {ps : List Placed} {i : Instr} (hopc : 2 ≤ opc ∧ opc < 256) (hl : laid 48 ps = true)
include hopc hl

theorem decodeOp_ae (ho : ∀ w, Spells opc h ps w → aeWord c w x = some i) :
    decodeOp (engOf c .ae) (wordOf opc h (places ps)) x = opIfSound (some i) := by
  have s := spells_wordOf hopc.2 h hl
  rw [decodeOp_ae_eq c x (s.opc_ne (by omega)) (s.opc_ne (by omega)), ho _ s]

theorem decodeOp_ve (ho : ∀ w, Spells opc h ps w → veWord c w = some i) :
    decodeOp (engOf c .ve) (wordOf opc h (places ps)) x = opIfSound (some i) := by
  have s := spells_wordOf hopc.2 h hl
  rw [decodeOp_ve_eq c x (s.opc_ne (by omega)) (s.opc_ne (by omega)), ho _ s]

theorem decodeOp_sync (ho : ∀ w, Spells opc h ps w → syncWord c w = some i) :
    decodeOp (engOf c .sync) (wordOf opc h (places ps)) x = opIfSound (some i) := by
  have s := spells_wordOf hopc.2 h hl
  rw [decodeOp_sync_eq c x (s.opc_ne (by omega)) (s.opc_ne (by omega)), ho _ s]

end

section
variable (die : Fin 4) (e : EngRef)

theorem decodeOp_nop (s : Spells 0x00 h [] w) : decodeOp e w x = opIfSound (some (.nop e h)) := by
  simp only [decodeOp, opIfSound, s.opc, s.hdr, s.only (hi := 47) (gaps := []) rfl rfl, if_true]

theorem decodeOp_end (s : Spells 0x01 h [] w) : decodeOp e w x = opIfSound (some (.end_ e h)) := by
  simp only [decodeOp, opIfSound, s.opc, s.hdr, s.only (hi := 47) (gaps := []) rfl rfl, if_true]

theorem decodeOp_meDesc {d : BitVec 24} (s : Spells 0x30 h [.vec 48 d] w) :
    decodeOp (engOf c .me) w x = opIfSound (some (.meDesc c h d)) := by
  simp only [decodeOp, engOf, opIfSound, s.opc, s.hdr, s.only (hi := 71) (gaps := []) rfl rfl, if_true,
    Reads.vec (hi := 71) s.reads]

theorem decodeOp_meFence (s : Spells 0x31 h [] w) :
    decodeOp (engOf c .me) w x = opIfSound (some (.meFence c h)) := by
  simp only [decodeOp, engOf, opIfSound, s.opc, s.hdr, s.only (hi := 47) (gaps := []) rfl rfl, if_true]

theorem decodeOp_ueRun {a : BitVec 48} (s : Spells 0x50 h [.vec 48 a] w) :
    decodeOp (dieEngOf die .ue) w x = opIfSound (some (.ueRun die h a noObs)) := by
  simp only [decodeOp, dieEngOf, opIfSound, s.opc, s.hdr, s.only (hi := 95) (gaps := []) rfl rfl, if_true,
    Reads.vec (hi := 95) s.reads]

theorem decodeOp_cxRun {a : BitVec 48} (s : Spells 0x60 h [.vec 48 a] w) :
    decodeOp (dieEngOf die .cx) w x = opIfSound (some (.cxRun die h a)) := by
  simp only [decodeOp, dieEngOf, opIfSound, s.opc, s.hdr, s.only (hi := 95) (gaps := []) rfl rfl, if_true,
    Reads.vec (hi := 95) s.reads]

theorem decodeOp_cxGnorm {g : BitVec 6} (s : Spells 0x61 h [.vec 48 g] w) :
    decodeOp (dieEngOf die .cx) w x = opIfSound (some (.cxGnorm die h g [])) := by
  simp only [decodeOp, dieEngOf, opIfSound, s.opc, s.hdr, s.only (hi := 53) (gaps := []) rfl rfl, if_true,
    Reads.vec (hi := 53) s.reads]

theorem decodeOp_cxFence (s : Spells 0x62 h [] w) :
    decodeOp (dieEngOf die .cx) w x = opIfSound (some (.cxFence die h)) := by
  simp only [decodeOp, dieEngOf, opIfSound, s.opc, s.hdr, s.only (hi := 47) (gaps := []) rfl rfl, if_true]

end

theorem opIfSound_some {i : Instr} (hwf : i.wf = true) (hin : i.inStore = true) : opIfSound (some i) = some i := by
  simp [opIfSound, hwf, hin]

end

/-- The word of an op decodes to what is left of the op: itself where it is sound. -/
theorem decodeOp_opWord {i : Instr} {e : EngRef} {w x : Nat} (h : opWord i = some (e, w, x)) (hwf : i.wf = true) :
    decodeOp e w x = opIfSound (some i) := by
  unfold opWord at h
  split at h
  all_goals simp only [Option.some.injEq, Prod.mk.injEq, reduceCtorEq] at h
  all_goals obtain ⟨rfl, rfl, rfl⟩ := h
  case h_1 => exact decodeOp_nop _ _ (spells_wordOf (by decide) _ rfl)
  case h_2 => exact decodeOp_end _ _ (spells_wordOf (by decide) _ rfl)
  case h_3 f l => exact decodeOp_ae _ _ (ps := [.vec 64 f, .vec 80 l]) (by decide) rfl fun _ => aeWord_aeLoad _ _
  case h_4 h p =>
    exact decodeOp_ae _ _ (ps := passPlaced p) (by decide) rfl fun _ s =>
      aeWord_aePass _ s (Bool.and_eq_true_iff.mp hwf).2
  case h_5 p => exact decodeOp_ae _ _ (ps := prePlaced p) (by decide) rfl fun _ => aeWord_aePreload _ _
  case h_6 f => exact decodeOp_ve _ _ (ps := vldPlaced f) (by decide) rfl fun _ => veWord_vld _
  case h_7 f => exact decodeOp_ve _ _ (ps := vldPlaced f) (by decide) rfl fun _ => veWord_vst _
  case h_8 f => exact decodeOp_ve _ _ (ps := vopPlaced f) (by decide) rfl fun _ => veWord_vop _
  case h_9 f => exact decodeOp_ve _ _ (ps := vtrPlaced f) (by decide) rfl fun _ => veWord_vtr _
  case h_10 f => exact decodeOp_ve _ _ (ps := vtrPlaced f) (by decide) rfl fun _ => veWord_vred _
  case h_11 f => exact decodeOp_ve _ _ (ps := drainPlaced f) (by decide) rfl fun _ => veWord_drain _
  case h_12 f => exact decodeOp_ve _ _ (ps := spillPlaced f) (by decide) rfl fun _ => veWord_spill _
  case h_13 f => exact decodeOp_ve _ _ (ps := pdrainPlaced f) (by decide) rfl fun _ => veWord_pdrain _
  case h_14 v => exact decodeOp_ve _ _ (ps := [.vec 48 v]) (by decide) rfl fun _ => veWord_vsrb _
  case h_15 => exact decodeOp_meDesc _ _ (spells_wordOf (ps := [.vec 48 _]) (by decide) _ rfl)
  case h_16 => exact decodeOp_meFence _ _ (spells_wordOf (by decide) _ rfl)
  case h_17 f => exact decodeOp_sync _ _ (ps := arrivePlaced f) (by decide) rfl fun _ => syncWord_xArrive _
  case h_18 scope index target =>
    exact decodeOp_sync _ _ (ps := [.vec 48 scope, .vec 50 index, .vec 58 target]) (by decide) rfl fun _ =>
      syncWord_xWait _
  case h_19 scope index =>
    exact decodeOp_sync _ _ (ps := [.vec 48 scope, .vec 50 index]) (by decide) rfl fun _ =>
      syncWord_xReset _
  case h_20 t => exact decodeOp_sync _ _ (ps := [.vec 48 t]) (by decide) rfl fun _ => syncWord_xAttime _
  case h_21 => exact decodeOp_ueRun _ _ (spells_wordOf (ps := [.vec 48 _]) (by decide) _ rfl)
  case h_22 => exact decodeOp_cxRun _ _ (spells_wordOf (ps := [.vec 48 _]) (by decide) _ rfl)
  case h_23 => exact decodeOp_cxGnorm _ _ (spells_wordOf (ps := [.vec 48 _]) (by decide) _ rfl)
  case h_24 => exact decodeOp_cxFence _ _ (spells_wordOf (by decide) _ rfl)

/-- Settles O6, by reading each field of the word at its place: its fields stand apart, and no other bit is set. -/
theorem opWordsDecode : Obligations.OpWordsDecode := by
  unfold Obligations.OpWordsDecode
  intro i e w x h hwf hin
  rw [decodeOp_opWord h hwf, opIfSound_some hwf hin]

end Sys2Proof.Machine
end

section
/-! Power (O57): regulator samples, the windowed and rail terms, the target positions, droops and over-current. -/

namespace Sys2Proof.Machine

/-! ## A pass over numbered units -/

/-- A pass over the units 0 … n-1 in which each turn changes its own unit only: unit `j` is then what its turn makes of
it, and what every turn keeps is kept. -/
theorem foldl_range_unit {σ β : Type} {op : σ → Nat → σ} {unit : σ → Nat → β} {kept : σ → Prop} {made : Nat → β} {s : σ}
    (hs : kept s) (hkept : ∀ a d, kept a → kept (op a d))
    (hown : ∀ a d, kept a → unit a d = unit s d → unit (op a d) d = made d)
    (hother : ∀ a d j, kept a → j ≠ d → unit (op a d) j = unit a j) (n : Nat) :
    kept ((List.range n).foldl op s) ∧
      ∀ j, unit ((List.range n).foldl op s) j = if j < n then made j else unit s j := by
  induction n with
  | zero => exact ⟨hs, fun j => (if_neg (by omega)).symm⟩
  | succ n ih =>
    obtain ⟨hk, hu⟩ := ih
    rw [List.range_succ, List.foldl_append, List.foldl_cons, List.foldl_nil]
    refine ⟨hkept _ _ hk, fun j => ?_⟩
    by_cases hj : j = n
    · subst hj
      rw [hown _ _ hk (by rw [hu, if_neg (by omega)]), if_pos (by omega)]
    · rw [hother _ _ _ hk hj, hu]
      exact if_congr (by omega) rfl rfl

section
variable (s : State)

/-! ## Measurement (R780, R781) -/

/-- One tile takes its reading of a sample set. -/
def State.sampleTile (xs : List TileSample) (a : State) (t : Nat) : State :=
  match xs[t]? with
  | some x => { a with pmc := { a.pmc with tiles := tset .reset a.pmc.tiles t (a.tileSample t x) } }
  | none => a

/-- What a tile reads after a sample set. -/
def State.tileAfter (xs : List TileSample) (i : Nat) : TileSt :=
  match xs[i]? with
  | some x => s.tileSample i x
  | none => s.tileAt i

theorem State.tileSample_congr {s a : State} {i : Nat} (hf : a.fuse = s.fuse) (ht : a.tileAt i = s.tileAt i)
    (x : TileSample) : a.tileSample i x = s.tileSample i x := by
  have hdies : a.dies = s.dies := by rw [State.dies, State.dies, hf]
  have hjd : a.suppliesJd i = s.suppliesJd i := by rw [State.suppliesJd, State.suppliesJd, hdies]
  simp only [State.tileSample, State.tilePower, State.etaOf, State.tileEnergy, hjd, hf, ht]

theorem State.sampleTiles (xs : List TileSample) (n : Nat) :
    let u := (List.range n).foldl (State.sampleTile xs) s
    u = { s with pmc := { s.pmc with tiles := u.pmc.tiles } } ∧
      ∀ i, u.tileAt i = if i < n then s.tileAfter xs i else s.tileAt i := by
  refine foldl_range_unit (kept := fun a : State => a = { s with pmc := { s.pmc with tiles := a.pmc.tiles } }) rfl
    (fun a d ha => ?_) (fun a d ha hd => ?_) (fun a d j _ hj => ?_) n
  · unfold State.sampleTile
    split
    · rw [ha]
    · exact ha
  · unfold State.sampleTile State.tileAfter
    split
    · exact (tget_tset_self ..).trans (State.tileSample_congr (by rw [ha]) hd _)
    · exact hd
  · unfold State.sampleTile
    split
    · exact tget_tset_other _ _ _ hj
    · rfl

/-- The newest sample: the sum of the tiles' powers, and whether one holds too little energy (R804). -/
def State.sumTiles (s : State) : State :=
  let ts := (List.range s.dies).map s.tileAt
  { s with pmc := { s.pmc with pHist := (sumNat (ts.map (·.pin)) :: s.pmc.pHist).take 50000,
                               huLow := ts.any fun t => decide (t.energy < 4000) } }

theorem State.sampled_def (xs : List TileSample) :
    s.sampled xs = ((List.range s.dies).foldl (State.sampleTile xs) s).sumTiles := rfl

/-- What a set of samples leaves: the readings of the tiles, and their powers' sum as the newest sample. -/
theorem State.sampled_eq (xs : List TileSample) :
    let t := s.sampled xs
    (∀ i, t.tileAt i = if i < s.dies then s.tileAfter xs i else s.tileAt i)
      ∧ t.pmc.pHist.head? = some (sumNat ((List.range s.dies).map fun i => (t.tileAt i).pin))
      ∧ t = { s with pmc := { s.pmc with tiles := t.pmc.tiles, pHist := t.pmc.pHist, huLow := t.pmc.huLow } } := by
  obtain ⟨hu, htile⟩ := s.sampleTiles xs s.dies
  have hdies := congrArg State.dies hu
  refine ⟨htile, ?_, ?_⟩
  · rw [← show ((List.range s.dies).foldl (State.sampleTile xs) s).dies = s.dies from hdies]
    exact congrArg (fun l => some (sumNat l)) List.map_map
  · rw [State.sampled_def, hu]
    rfl

theorem exec_regulatorSample (xs : List TileSample) (h : s.pmc.powerLost = false) :
    exec (.regulatorSample xs) s = .next (s.sampled xs) := by
  have hp : (s.sampled xs).pmc.powerLost = false := by
    rw [(s.sampled_eq xs).2.2]
    exact h
  dsimp only [exec, execRegulatorSample]
  rw [if_neg (by simp [hp])]

/-- What a tile reads after a sample set that holds a sample of it (R780, R781). -/
theorem State.tileAt_sampled {xs : List TileSample} {i : Nat} {x : TileSample} (hi : i < s.dies)
    (hx : xs[i]? = some x) :
    (s.sampled xs).tileAt i = s.tileSample i x := by
  rw [(s.sampled_eq xs).1, if_pos hi, State.tileAfter, hx]

theorem State.tileAt_sampled_of_none {xs : List TileSample} {i : Nat} (hx : xs[i]? = none) :
    (s.sampled xs).tileAt i = s.tileAt i := by
  rw [(s.sampled_eq xs).1, State.tileAfter, hx, ite_self]

/-! ## The windowed and rail terms (R784, R786) -/

theorem windowTermEval_does : Does .windowTermEval s fun t =>
    t.pmc.winTerm = s.windowTerm.1 ∧ t.pmc.winDown = (if s.windowTerm.2 then some s.stb.ticks else s.pmc.winDown)
      ∧ t = { s with pmc := { s.pmc with winTerm := t.pmc.winTerm, winDown := t.pmc.winDown }, sb := t.sb } := by
  refine ⟨_, rfl, ?_⟩
  split <;> exact ⟨rfl, rfl, rfl⟩

section
variable {s}

theorem State.windowTerm_none (h : s.winLimit = none) : s.windowTerm = (s.pmc.winTerm - 1, false) := by
  rw [State.windowTerm, h]

variable {l : Nat × Nat × Nat} (h : s.winLimit = some l)
include h

/-- The windowed term under a limit: slower above it; faster at or below 90% unless the window since the last step
slower has not passed. -/
theorem State.windowTerm_over (hm : l.1 * 1000 < meanOf s.pmc.pHist (500 * l.2.1)) :
    s.windowTerm = (min 4 (s.pmc.winTerm + 1), true) := by
  rw [State.windowTerm, h]
  exact if_pos hm

theorem State.windowTerm_under (hm : meanOf s.pmc.pHist (500 * l.2.1) ≤ l.1 * 1000) :
    s.windowTerm = (if meanOf s.pmc.pHist (500 * l.2.1) * 10 ≤ l.1 * 9000
        ∧ (∀ d, s.pmc.winDown = some d → d + 100000 * l.2.1 ≤ s.stb.ticks) then s.pmc.winTerm - 1
      else s.pmc.winTerm, false) := by
  rw [State.windowTerm, h]
  refine (if_neg (by omega)).trans (Prod.ext (if_congr (and_congr_right fun _ => ?_) rfl rfl) rfl)
  cases hd : s.pmc.winDown <;> simp

end

theorem DivSt.railEval_under {d : DivSt} {l mean : Nat} (h : mean ≤ l) : d.railEval (some l) mean =
    if mean * 10 ≤ l * 9 then { d with rail := if 9 ≤ d.railCool then d.rail - 1 else d.rail,
                                       railCool := min 10 (d.railCool + 1) }
    else { d with railCool := 0 } := by
  have hc : min 10 (d.railCool + 1) = 10 ↔ 9 ≤ d.railCool := by omega
  simp only [DivSt.railEval, if_neg (show ¬l < mean by omega), hc]

theorem railTermEval_does (i : Fin 4) (hi : i.val < s.dies) : Does (.railTermEval i) s fun t =>
    t.divAt i.val = (s.divAt i.val).railEval (s.railLimit.map fun l => l.1 * 1000) (s.tileAt i.val).irail
      ∧ (∀ j, j ≠ i.val → t.divAt j = s.divAt j)
      ∧ t = { s with pmc := { s.pmc with div := t.pmc.div }, sb := t.sb } := by
  refine ⟨_, guardUnit_eq (decide_eq_true hi), ?_⟩
  have hown := (State.divAt_modDiv s i.val i.val
    (·.railEval (s.railLimit.map fun l => l.1 * 1000) (s.tileAt i.val).irail)).trans (if_pos rfl)
  have hother (j) (hj : j ≠ i.val) := (State.divAt_modDiv s i.val j
    (·.railEval (s.railLimit.map fun l => l.1 * 1000) (s.tileAt i.val).irail)).trans (if_neg hj)
  split <;> exact ⟨hown, hother, rfl⟩

/-! ## The target position (R787, R788) -/

/-- The turn of a die at a boundary: its target moves by at most one position. -/
def State.moveTarget (a : State) (d : Nat) : State :=
  let t := (a.divAt d).target
  let w := a.wanted d
  if t < w then a.setTarget d (t + 1) else if w < t then a.setTarget d (t - 1) else a

/-- A die's terms after its turn, where the terms ask for position `w`. -/
def DivSt.moved (x : DivSt) (w : Nat) : DivSt :=
  { x with target := if x.target < w then x.target + 1 else if w < x.target then x.target - 1 else x.target }

/-- A die's UE after its turn: one that runs nothing takes up a target that moved. -/
def UeSt.followed (u : UeSt) (x : DivSt) (w : Nat) : UeSt :=
  if x.target ≠ w ∧ u.cur = none then { u with pos := (x.moved w).target } else u

theorem State.setTarget_own (d v : Nat) :
    ((s.setTarget d v).divAt d, (s.setTarget d v).ueAt d) =
      ({ s.divAt d with target := v }, if (s.ueAt d).cur = none then { s.ueAt d with pos := v } else s.ueAt d) := by
  refine Prod.ext ((State.divAt_modDiv ..).trans (if_pos rfl)) ?_
  refine ((State.ueAt_modUe ..).trans (if_pos rfl)).trans (if_congr ?_ rfl rfl)
  exact Option.isNone_iff_eq_none

theorem State.setTarget_other (d v j : Nat) (hj : j ≠ d) :
    ((s.setTarget d v).divAt j, (s.setTarget d v).ueAt j) = (s.divAt j, s.ueAt j) :=
  Prod.ext ((State.divAt_modDiv ..).trans (if_neg hj)) ((State.ueAt_modUe ..).trans (if_neg hj))

theorem State.moveTarget_own (d : Nat) :
    ((s.moveTarget d).divAt d, (s.moveTarget d).ueAt d) =
      ((s.divAt d).moved (s.wanted d), (s.ueAt d).followed (s.divAt d) (s.wanted d)) := by
  unfold State.moveTarget DivSt.moved UeSt.followed
  dsimp only
  split
  case isTrue h => rw [State.setTarget_own]; simp [h, Nat.ne_of_lt h, DivSt.moved]
  case isFalse h =>
    split
    case isTrue h' => rw [State.setTarget_own]; simp [h, h', Nat.ne_of_gt h', DivSt.moved]
    case isFalse h' => rw [show s.wanted d = (s.divAt d).target by omega]; simp

theorem State.moveTarget_other (d j : Nat) (hj : j ≠ d) :
    ((s.moveTarget d).divAt j, (s.moveTarget d).ueAt j) = (s.divAt j, s.ueAt j) := by
  unfold State.moveTarget
  dsimp only
  split
  · exact s.setTarget_other d _ j hj
  · split
    · exact s.setTarget_other d _ j hj
    · rfl

theorem State.moveTarget_frame (d : Nat) : s.moveTarget d =
    { s with pmc := { s.pmc with div := (s.moveTarget d).pmc.div }, ue := (s.moveTarget d).ue } := by
  unfold State.moveTarget
  dsimp only
  split
  · rfl
  · split <;> rfl

/-- What the terms of a die ask for rests on the context in hand and on the terms, not on the target. -/
theorem State.wanted_congr {s a : State} (d : Nat) (hcur : a.cur = s.cur) (hwin : a.pmc.winTerm = s.pmc.winTerm)
    (hd : a.divAt d = s.divAt d) : a.wanted d = s.wanted d := by
  rw [State.wanted, State.wanted, hcur, hwin, hd]

theorem State.targetMove_eq : let t := (List.range s.dies).foldl State.moveTarget s
    t = { s with pmc := { s.pmc with div := t.pmc.div }, ue := t.ue } ∧ ∀ d, (t.divAt d, t.ueAt d) =
      if d < s.dies then ((s.divAt d).moved (s.wanted d), (s.ueAt d).followed (s.divAt d) (s.wanted d))
      else (s.divAt d, s.ueAt d) := by
  refine foldl_range_unit (op := State.moveTarget) (s := s) (unit := fun a d => (a.divAt d, a.ueAt d))
    (kept := fun a : State => a = { s with pmc := { s.pmc with div := a.pmc.div }, ue := a.ue }) rfl
    (fun a d ha => ?_) (fun a d ha hd => ?_) (fun a d j _ hj => a.moveTarget_other d j hj) s.dies
  · rw [State.moveTarget_frame, ha]
  · obtain ⟨hdiv, hue⟩ := Prod.mk.inj hd
    rw [State.moveTarget_own, hdiv, hue, State.wanted_congr d (by rw [ha]; rfl) (by rw [ha]) hdiv]

theorem targetMove_does : Does .targetMove s fun t => ∀ d, d < s.dies →
    t.divAt d = (s.divAt d).moved (s.wanted d)
      ∧ ((s.divAt d).target ≠ s.wanted d → (s.ueAt d).cur = none → (t.ueAt d).pos = (t.divAt d).target)
      ∧ t = { s with pmc := { s.pmc with div := t.pmc.div }, ue := t.ue } := by
  refine ⟨_, rfl, fun d hd => ?_⟩
  obtain ⟨frame, units⟩ := s.targetMove_eq
  obtain ⟨hdiv, hue⟩ := Prod.mk.inj ((units d).trans (if_pos hd))
  refine ⟨hdiv, fun hne hcur => ?_, frame⟩
  refine (congrArg UeSt.pos hue).trans (.trans ?_ (congrArg DivSt.target hdiv).symm)
  rw [UeSt.followed, if_pos ⟨hne, hcur⟩]

/-! ## Droops and over-current (R776, R777, R800, R801) -/

theorem mem_insNat_iff {k e : Nat} {l : List Nat} : e ∈ insNat k l ↔ e = k ∨ e ∈ l := by
  induction l with
  | nil => simp [insNat]
  | cons j r ih =>
    unfold insNat
    split
    · exact List.mem_cons
    · split
      · next h => rw [List.mem_cons, h]; exact (or_self_left ..).symm
      · rw [List.mem_cons, List.mem_cons, ih]; exact or_left_comm

section
variable {s} {d : Fin 4} (hd : d.val < s.dies)
include hd

theorem droopStart_does : Does (.droopStart d) s fun t => (∀ e, e ∈ t.pmc.droop ↔ e = d.val ∨ e ∈ s.pmc.droop)
    ∧ t = { s with pmc := { s.pmc with droop := t.pmc.droop } } :=
  ⟨_, guardUnit_eq (decide_eq_true hd), fun _ => mem_insNat_iff, rfl⟩

theorem exec_droopEnd_of_none (n : BitVec 32) (h : d.val ∉ s.pmc.droop) : exec (.droopEnd d n) s = .next s :=
  (guardUnit_eq (decide_eq_true hd)).trans (if_neg (by simpa using h))

theorem droopEnd_does (n : BitVec 32) (h : d.val ∈ s.pmc.droop) : Does (.droopEnd d n) s fun t =>
    (∀ e, e ∈ t.pmc.droop ↔ e ≠ d.val ∧ e ∈ s.pmc.droop)
      ∧ (tget 0#32 t.pmc.skip d.val).toNat = min ((tget 0#32 s.pmc.skip d.val).toNat + n.toNat) 0xFFFFFFFF
      ∧ (∀ e, e ≠ d.val → tget 0#32 t.pmc.skip e = tget 0#32 s.pmc.skip e)
      ∧ t = { s with pmc := { s.pmc with droop := t.pmc.droop, skip := t.pmc.skip } } := by
  refine ⟨_, (guardUnit_eq (decide_eq_true hd)).trans (if_pos (by simpa using h)), fun e => ?_, ?_,
    fun e he => tget_tmod_other 0#32 s.pmc.skip (satAdd32 · n.toNat) he, rfl⟩
  · rw [List.mem_filter, bne_iff_ne, and_comm]
  · rw [← satAdd32_toNat]
    exact congrArg BitVec.toNat (tget_tmod_self 0#32 s.pmc.skip d.val (satAdd32 · n.toNat))

theorem railOverCurrent_does : ∃ u : State,
    exec (.railOverCurrent d) s = .next (u.report (mkReportAll 9 10 (BitVec.ofNat 32 d.val) 0))
      ∧ u.pmc.oc = true ∧ (∀ e, e ∈ u.pmc.dieOff ↔ e = d.val ∨ e ∈ s.pmc.dieOff) ∧ u.sb.events = s.sb.events ||| 8#8
      ∧ u = { s with pmc := { s.pmc with oc := true, dieOff := u.pmc.dieOff }, sb := u.sb } :=
  ⟨_, guardUnit_eq (decide_eq_true hd), rfl, fun _ => mem_insNat_iff, rfl, rfl⟩

end

end

/-- Settles O57, by what each event makes of its own unit: a pass over the tiles or the dies changes at each turn only
the unit of that turn. The model's choices that it states are those of assumption log 63 (without a limit the terms
fall), 66 (a rail term goes on falling after ten evaluations; targets move without a time guard), 90 (the phases of a
tile's loads) and 65 (over-current is reported without a wire). -/
theorem powerTermsAndDroops : Obligations.PowerTermsAndDroops := by
  unfold Obligations.PowerTermsAndDroops
  intro s
  refine ⟨fun xs hp => ⟨_, exec_regulatorSample s xs hp, fun i x hi hx => ?_, fun i hx => s.tileAt_sampled_of_none hx,
    (s.sampled_eq xs).2⟩, ?_, fun i hi => ?_, targetMove_does s, fun d hd => ⟨droopStart_does hd,
    exec_droopEnd_of_none hd, droopEnd_does hd, railOverCurrent_does hd⟩⟩
  · rw [s.tileAt_sampled hi hx]
    exact ⟨rfl, rfl, rfl, rfl, rfl, rfl, rfl, rfl, rfl, rfl, rfl⟩
  · obtain ⟨t, ht, hterm, hdown, frame⟩ := windowTermEval_does s
    refine ⟨t, ht, fun hn => by rw [hterm, State.windowTerm_none hn], fun l hl => ⟨fun hm => ?_, fun hm => ?_,
      fun hm hd => ?_, fun hm hm' => ?_, fun d hd hlt hm => ?_⟩, frame⟩
    · rw [hterm, hdown, State.windowTerm_over hl hm]
      exact ⟨rfl, if_pos rfl⟩
    · rw [hdown, State.windowTerm_under hl hm]
      exact if_neg Bool.false_ne_true
    · rw [hterm, State.windowTerm_under hl (by omega)]
      exact if_pos ⟨hm, hd⟩
    · rw [hterm, State.windowTerm_under hl hm']
      exact if_neg (by omega)
    · rw [hterm, State.windowTerm_under hl hm]
      exact if_neg fun h => absurd (h.2 d hd) (by omega)
  · obtain ⟨t, ht, hown, hother, frame⟩ := railTermEval_does s i hi
    refine ⟨t, ht, fun hn => ?_, fun l hl => ⟨fun hm => ?_, fun hm => ?_, fun hm hm' => ?_⟩, hother, frame⟩
    · rw [hown, hn]
      rfl
    · rw [hown, hl]
      exact if_pos hm
    · rw [hown, hl, Option.map_some, DivSt.railEval_under (by omega)]
      exact if_pos (by omega)
    · rw [hown, hl, Option.map_some, DivSt.railEval_under hm']
      exact if_neg (by omega)

end Sys2Proof.Machine
end

section
/-! Heat (O58): thermal samples and terms, trips and their end, and the sensors' disagreement. -/

namespace Sys2Proof.Machine

/-! ## What a pass changes -/

/-- From `s` to `t` only dies' terms and what the UEs took up of them have changed. -/
def TermsMoved (s t : State) : Prop := t = { s with pmc := { s.pmc with div := t.pmc.div }, ue := t.ue }

theorem TermsMoved.trans {s t u : State} (h : TermsMoved s t) (h' : TermsMoved t u) : TermsMoved s u :=
  Eq.trans h' (by rw [h])

/-- From `s` to `t` the readings are the same, and all that pairs and their limits rest on. -/
def SameReadings (s t : State) : Prop :=
  t = { s with
    pmc := { s.pmc with div := t.pmc.div, overTemp := t.pmc.overTemp, tripSince := t.pmc.tripSince }, ue := t.ue,
    flt := t.flt, sb := t.sb }

theorem TermsMoved.sameReadings {s t : State} (h : TermsMoved s t) : SameReadings s t := by
  rw [h]
  rfl

theorem SameReadings.trans {s t u : State} (h : SameReadings s t) (h' : SameReadings t u) : SameReadings s u :=
  Eq.trans h' (by rw [h])

section
variable {s t : State} (h : SameReadings s t)
include h

theorem SameReadings.dies : t.dies = s.dies := by rw [h]; rfl

theorem SameReadings.pairsOver : t.pairsOver = s.pairsOver := by rw [h]; rfl

theorem SameReadings.pairDies : t.pairDies = s.pairDies := by rw [h]; rfl

theorem SameReadings.diePairs : t.diePairs = s.diePairs := by rw [h]; rfl

theorem SameReadings.tLimit : t.tLimit = s.tLimit := by rw [h]; rfl

theorem SameReadings.countedReading : t.countedReading = s.countedReading := by rw [h]; rfl

theorem SameReadings.tripReading : t.tripReading = s.tripReading := by rw [h]; rfl

end

/-! ## Readings (R745-R748) -/

theorem getD_append_replicate {α : Type} (l : List α) (d : α) (n j : Nat) :
    (l ++ List.replicate n d).getD j d = l.getD j d := by
  obtain hj | hj := Nat.lt_or_ge j l.length
  · exact List.getD_append _ _ _ _ hj
  · rw [List.getD_append_right _ _ _ _ hj, List.getD_eq_default _ _ hj, List.getD_eq_getElem?_getD,
      List.getElem?_getD_replicate_default_eq]

/-- From `s` to `t` only readings were taken and their disagreement followed. -/
def ReadingsTaken (s t : State) : Prop :=
  t = { s with
    pmc := { s.pmc with pairs := t.pmc.pairs, disSince := t.pmc.disSince, agreeSince := t.pmc.agreeSince },
    flt := { s.flt with disagree := t.flt.disagree } }

theorem ReadingsTaken.trans {s t u : State} (h : ReadingsTaken s t) (h' : ReadingsTaken t u) : ReadingsTaken s u :=
  Eq.trans h' (by rw [h])

theorem State.track_frame (s : State) (k : Nat) (differ : Bool) : s.track k differ = { s with
      pmc := { s.pmc with
        disSince := (s.track k differ).pmc.disSince, agreeSince := (s.track k differ).pmc.agreeSince },
      flt := { s.flt with disagree := (s.track k differ).flt.disagree } } := by
  unfold State.track
  dsimp only
  split
  · rfl
  · split <;> rfl

section
variable (s : State) (i : Nat) (p : PairReading)

theorem State.setPair_taken : ReadingsTaken s (s.setPair i p) :=
  ReadingsTaken.trans (t := s.track i (pairDiffers p)) ((s.track_frame ..).trans (by rw [s.track_frame])) rfl

theorem State.pairAt_setPair_other {j : Nat} (hj : j ≠ i) : (s.setPair i p).pairAt j = s.pairAt j := by
  have hpairs : (s.track i (pairDiffers p)).pmc.pairs = s.pmc.pairs := by rw [s.track_frame]
  unfold State.setPair State.pairAt
  dsimp only
  rw [hpairs, List.getD_eq_getElem?_getD, List.getElem?_set_ne hj.symm, ← List.getD_eq_getElem?_getD]
  split
  · rw [getD_append_replicate]
  · rfl

end

/-- The readings of a sample, pair by pair. -/
def State.takePairs (s : State) (ps : List PairReading) : State :=
  ((List.range (min 69 ps.length)).zip ps).foldl (fun (a : State) p => a.setPair p.1 p.2) s

theorem State.takePairs_eq (s : State) (ps : List PairReading) :
    ReadingsTaken s (s.takePairs ps) ∧ ∀ i p, i < 69 → ps[i]? = some p → (s.takePairs ps).pairAt i = p := by
  let p0 : PairReading := { a := some 0, b := some 0 }
  have hzip : (List.range (min 69 ps.length)).zip ps =
      (List.range (min 69 ps.length)).map fun i => (i, ps.getD i p0) := by
    apply List.ext_getElem
    · simp
    · intro i hi hi'
      simp only [List.length_zip, List.length_range] at hi
      simp [List.getElem?_eq_getElem (show i < ps.length by omega)]
  rw [State.takePairs, hzip, List.foldl_map]
  obtain ⟨hk, hat⟩ := foldl_range_unit (op := fun (a : State) i => a.setPair i (ps.getD i p0)) (s := s)
    (unit := State.pairAt) (kept := ReadingsTaken s) (made := fun i => ps.getD i p0) rfl
    (fun a i ha => ha.trans (a.setPair_taken i _)) (fun a i _ _ => a.pairAt_setPair_self i _)
    (fun a i j _ hj => a.pairAt_setPair_other i _ hj) (min 69 ps.length)
  refine ⟨hk, fun i p hi hp => ?_⟩
  obtain ⟨hlen, rfl⟩ := List.getElem?_eq_some_iff.mp hp
  rw [hat, if_pos (by omega), List.getD_eq_getElem _ _ hlen]

/-- A die at position 4. -/
def DivSt.slow (x : DivSt) : DivSt := { x with target := 4, therm := 4, thermCool := 0 }

/-! ## Thermal terms (R785, R786, R794, R796) -/

theorem DivSt.thermEval_same (x : DivSt) (hot cool held : Bool) :
    (x.thermEval hot cool held).target = x.target ∧ (x.thermEval hot cool held).rail = x.rail := by
  unfold DivSt.thermEval
  split
  · exact ⟨rfl, rfl⟩
  · split <;> exact ⟨rfl, rfl⟩

/-- A die's terms after its thermal evaluation. -/
def State.thermAfter (s : State) (d : Nat) : DivSt :=
  (s.divAt d).thermEval (((s.diePairs d).map s.countedReading).any fun r => decide (s.tLimit ≤ r))
    (((s.diePairs d).map s.countedReading).all fun r => decide (r ≤ s.tLimit - 80)) s.pmc.tripSince.isSome

section
variable (s : State) (d : Nat)

theorem State.thermDies_eq : let t := (List.range s.dies).foldl State.thermDie s
    TermsMoved s t ∧ ∀ d, t.divAt d = if d < s.dies then s.thermAfter d else s.divAt d := by
  refine foldl_range_unit (op := State.thermDie) (s := s) (unit := State.divAt) (kept := TermsMoved s) rfl
    (fun _ _ ha => ha.trans rfl) (fun a d ha hd => ?_)
    (fun _ _ _ _ hj => (State.divAt_modDiv ..).trans (if_neg hj)) s.dies
  have htrip : a.pmc.tripSince = s.pmc.tripSince := by rw [ha]
  refine ((State.divAt_modDiv ..).trans (if_pos rfl)).trans ?_
  rw [State.thermAfter, hd, ha.sameReadings.diePairs, ha.sameReadings.countedReading, ha.sameReadings.tLimit, htrip]

section
variable {s d} {x : DivSt} {l : Int} {rs : List Int} {held : Bool}

/-- The evaluation of readings `rs` against a limit: slower where one is at it. -/
theorem DivSt.thermEval_hot (h : ∃ r, r ∈ rs ∧ l ≤ r) :
    x.thermEval (rs.any fun r => decide (l ≤ r)) (rs.all fun r => decide (r ≤ l - 80)) held =
      { x with therm := min 4 (x.therm + 1), thermCool := 0 } :=
  if_pos (by simpa using h)

/-- Faster after ten evaluations in a row with every reading 5 degrees below, but not while it is held. -/
theorem DivSt.thermEval_cool (h : ∀ r, r ∈ rs → r ≤ l - 80) :
    x.thermEval (rs.any fun r => decide (l ≤ r)) (rs.all fun r => decide (r ≤ l - 80)) held =
      { x with therm := if 9 ≤ x.thermCool ∧ held = false then x.therm - 1 else x.therm,
               thermCool := min 10 (x.thermCool + 1) } := by
  have hcool : min 10 (x.thermCool + 1) = 10 ↔ 9 ≤ x.thermCool := by omega
  rw [DivSt.thermEval, if_neg (by simpa using fun r hr => by have := h r hr; omega), if_pos (by simpa using h)]
  simp [hcool]

/-- Else the term stays. -/
theorem DivSt.thermEval_between (h : ∀ r, r ∈ rs → r < l) (h' : ∃ r, r ∈ rs ∧ l - 80 < r) :
    x.thermEval (rs.any fun r => decide (l ≤ r)) (rs.all fun r => decide (r ≤ l - 80)) held =
      { x with thermCool := 0 } := by
  rw [DivSt.thermEval, if_neg (by simpa using h), if_neg (by simpa using h')]

end

/-- What a die's terms become, where `hot` says that a pair of it is over temperature. -/
theorem State.thermAfter_cases {hot : Prop} [Decidable hot] :
    let x := s.divAt d
    let y := if hot then (s.thermAfter d).slow else s.thermAfter d
    let rs := (s.diePairs d).map s.countedReading
    (hot → y.therm = 4 ∧ y.target = 4 ∧ y.thermCool = 0)
      ∧ (¬hot → y.target = x.target ∧ y.rail = x.rail)
      ∧ (¬hot → (∃ r, r ∈ rs ∧ s.tLimit ≤ r) → y.therm = min 4 (x.therm + 1) ∧ y.thermCool = 0)
      ∧ (¬hot → (∀ r, r ∈ rs → r ≤ s.tLimit - 80) → y.thermCool = min 10 (x.thermCool + 1)
        ∧ y.therm = if 9 ≤ x.thermCool ∧ s.pmc.tripSince = none then x.therm - 1 else x.therm)
      ∧ (¬hot → (∀ r, r ∈ rs → r < s.tLimit) → (∃ r, r ∈ rs ∧ s.tLimit - 80 < r) →
        y.therm = x.therm ∧ y.thermCool = 0) := by
  dsimp only
  refine ⟨fun h => ?_, fun h => ?_, fun h hr => ?_, fun h hr => ?_, fun h hr hr' => ?_⟩
  · rw [if_pos h]
    exact ⟨rfl, rfl, rfl⟩
  · rw [if_neg h]
    exact DivSt.thermEval_same ..
  · rw [if_neg h, State.thermAfter, DivSt.thermEval_hot hr]
    exact ⟨rfl, rfl⟩
  · rw [if_neg h, State.thermAfter, DivSt.thermEval_cool hr]
    exact ⟨rfl, if_congr (by simp) rfl rfl⟩
  · rw [if_neg h, State.thermAfter, DivSt.thermEval_between hr hr']
    exact ⟨rfl, rfl⟩

/-! ## Over-temperature (R795, R802) -/

theorem State.slowest_own : (s.slowest d).divAt d = (s.divAt d).slow := by
  refine ((State.divAt_modDiv ..).trans (if_pos rfl)).trans ?_
  rw [State.divAt_modDiv, if_pos rfl]
  rfl

theorem State.slowest_other {j : Nat} (hj : j ≠ d) : (s.slowest d).divAt j = s.divAt j :=
  ((State.divAt_modDiv ..).trans (if_neg hj)).trans ((State.divAt_modDiv ..).trans (if_neg hj))

theorem State.slowestAll_eq : let t := (List.range s.dies).foldl State.slowest s
    TermsMoved s t ∧ ∀ d, t.divAt d = if d < s.dies then (s.divAt d).slow else s.divAt d :=
  foldl_range_unit (op := State.slowest) (s := s) (unit := State.divAt) (kept := TermsMoved s) rfl
    (fun _ _ ha => ha.trans rfl) (fun a d _ hd => (a.slowest_own d).trans (congrArg DivSt.slow hd))
    (fun a d _ _ hj => a.slowest_other d hj) s.dies

theorem State.slowestOf_eq (l : List Nat) :
    let t := l.foldl (fun (a : State) d => if d < a.dies then a.slowest d else a) s
    TermsMoved s t ∧ ∀ d, d < s.dies → t.divAt d = if d ∈ l then (s.divAt d).slow else s.divAt d := by
  induction l generalizing s with
  | nil => exact ⟨rfl, fun d _ => rfl⟩
  | cons e l ih =>
    rw [List.foldl_cons]
    by_cases he : e < s.dies
    · rw [if_pos he]
      obtain ⟨moved, own⟩ := ih (s.slowest e)
      refine ⟨.trans (t := s.slowest e) rfl moved, fun d hd => (own d hd).trans ?_⟩
      by_cases hde : d = e
      · subst hde
        rw [State.slowest_own, if_pos (List.mem_cons_self ..)]
        exact ite_self _
      · rw [s.slowest_other e hde]
        exact if_congr (by simp [hde]) rfl rfl
    · rw [if_neg he]
      obtain ⟨moved, own⟩ := ih s
      refine ⟨moved, fun d hd => (own d hd).trans (if_congr ?_ rfl rfl)⟩
      rw [List.mem_cons, or_iff_right (by rintro rfl; exact he hd)]

/-- The report of an over-temperature at its onset. -/
def overTempReport (i : Nat) : FaultReport := mkReportAll 8 6 (pairLocus i) 0

/-- From `s` to `t` only dies' terms, what the UEs took up of them and the fault wires have changed. -/
def Heated (s t : State) : Prop :=
  t = { s with pmc := { s.pmc with div := t.pmc.div }, ue := t.ue, flt := { s.flt with wires := t.flt.wires } }

theorem Heated.trans {s t u : State} (h : Heated s t) (h' : Heated t u) : Heated s u := Eq.trans h' (by rw [h])

theorem Heated.sameReadings {s t : State} (h : Heated s t) : SameReadings s t := by
  rw [h]
  rfl

theorem TermsMoved.heated {s t : State} (h : TermsMoved s t) : Heated s t := by
  rw [h]
  rfl

theorem State.overTempAt_eq (i : Nat) : Heated s (s.overTempAt i)
    ∧ (s.overTempAt i).flt.wires = s.flt.wires ++ (if s.pmc.overTemp.contains i then [] else [overTempReport i])
    ∧ ∀ d, d < s.dies → (s.overTempAt i).divAt d = if d ∈ s.pairDies i then (s.divAt d).slow else s.divAt d := by
  obtain ⟨moved, own⟩ := s.slowestOf_eq (s.pairDies i)
  unfold State.overTempAt
  dsimp only
  generalize (s.pairDies i).foldl _ s = u at moved own ⊢
  have hover : u.pmc.overTemp = s.pmc.overTemp := by rw [moved]
  have hwires : u.flt.wires = s.flt.wires := by rw [moved]
  split
  case isTrue hi => exact ⟨moved.heated, by rw [if_pos (hover ▸ hi), hwires, List.append_nil], own⟩
  case isFalse hi =>
    refine ⟨moved.heated.trans rfl, ?_, own⟩
    rw [if_neg (hover ▸ hi), ← hwires]
    rfl

theorem State.overTemps_eq (l : List Nat) : let t := l.foldl State.overTempAt s
    Heated s t
      ∧ t.flt.wires = s.flt.wires ++ (l.filter fun i => !s.pmc.overTemp.contains i).map overTempReport
      ∧ ∀ d, d < s.dies → t.divAt d = if ∃ i, i ∈ l ∧ d ∈ s.pairDies i then (s.divAt d).slow else s.divAt d := by
  induction l generalizing s with
  | nil => exact ⟨rfl, (List.append_nil _).symm, fun d _ => (if_neg (by simp)).symm⟩
  | cons e l ih =>
    rw [List.foldl_cons]
    obtain ⟨heated, wires, own⟩ := s.overTempAt_eq e
    obtain ⟨heated', wires', own'⟩ := ih (s.overTempAt e)
    have hover : (s.overTempAt e).pmc.overTemp = s.pmc.overTemp := by rw [heated]
    refine ⟨heated.trans heated', ?_, fun d hd => ?_⟩
    · rw [wires', wires, hover, List.append_assoc, List.filter_cons]
      cases s.pmc.overTemp.contains e <;> rfl
    · rw [own' d (heated.sameReadings.dies ▸ hd), own d hd, heated.sameReadings.pairDies]
      by_cases hde : d ∈ s.pairDies e
      · rw [if_pos hde, show (s.divAt d).slow.slow = (s.divAt d).slow from rfl, ite_self,
          if_pos ⟨e, List.mem_cons_self, hde⟩]
      · rw [if_neg hde]
        refine if_congr ⟨fun ⟨i, hi, hdi⟩ => ⟨i, List.mem_cons_of_mem _ hi, hdi⟩, fun ⟨i, hi, hdi⟩ => ?_⟩ rfl rfl
        obtain rfl | hi := List.mem_cons.mp hi
        · exact absurd hdi hde
        · exact ⟨i, hi, hdi⟩

/-! ## THERMAL_SAMPLE -/

/-- The package once the readings of a sample have moved the terms, with the over-temperatures that are known. -/
def State.heatUp (s : State) : State :=
  let t := (List.range s.dies).foldl State.thermDie s
  let u := (t.pairsOver 1760).foldl State.overTempAt t
  { u with pmc := { u.pmc with overTemp := t.pairsOver 1760 } }

theorem State.heatUp_eq : let t := s.heatUp
    SameReadings s t ∧ t.pmc.overTemp = s.pairsOver 1760 ∧ t.pmc.tripSince = s.pmc.tripSince ∧ t.sb = s.sb
      ∧ t.flt.wires = s.flt.wires
        ++ ((s.pairsOver 1760).filter fun i => !s.pmc.overTemp.contains i).map overTempReport
      ∧ ∀ d, d < s.dies → t.divAt d =
        if ∃ i, i ∈ s.pairsOver 1760 ∧ d ∈ s.pairDies i then (s.thermAfter d).slow else s.thermAfter d := by
  obtain ⟨moved, therm⟩ := s.thermDies_eq
  unfold State.heatUp
  dsimp only
  generalize (List.range s.dies).foldl State.thermDie s = t at moved therm ⊢
  obtain ⟨heated, wires, own⟩ := t.overTemps_eq (t.pairsOver 1760)
  generalize (t.pairsOver 1760).foldl State.overTempAt t = u at heated wires own ⊢
  have same := moved.sameReadings
  rw [same.pairsOver] at *
  refine ⟨(moved.heated.trans heated).sameReadings.trans rfl, rfl, by rw [heated, moved], by rw [heated, moved], ?_,
    fun d hd => ?_⟩
  · rw [show u.flt.wires = _ from wires, moved]
  · refine (own d (same.dies ▸ hd)).trans ?_
    rw [same.pairDies, therm, if_pos hd]

/-- The package as a sample leaves it, but for the sideband's event. -/
def State.sampledHeat (s : State) (ps : List PairReading) : State := (s.takePairs ps).heatUp.endTrip

/-- Whether the thermal term of a die leaves position 0 (R878). -/
def termRose (a b : State) : Bool := (List.range 4).any fun d => (a.divAt d).therm == 0 && (b.divAt d).therm != 0

theorem exec_thermalSample (ps : List PairReading) : exec (.thermalSample ps) s =
    .next (if termRose s (s.sampledHeat ps) then (s.sampledHeat ps).latch 1 else s.sampledHeat ps) := rfl

end

theorem State.endTrip_eq (s : State) : s.endTrip = { s with pmc := { s.pmc with
    tripSince := if s.pin.ttrip0 && s.pin.ttrip1 && !s.tripReading then none else s.pmc.tripSince } } := by
  unfold State.endTrip
  split <;> rfl

/-- What a sample leaves, but for the sideband: the readings taken, then the terms moved by them. -/
theorem State.sampledHeat_eq (s : State) (ps : List PairReading) :
    let w := s.takePairs ps
    let t := s.sampledHeat ps
    SameReadings w t ∧ t.pmc.overTemp = w.pairsOver 1760
      ∧ t.pmc.tripSince = (if s.pin.ttrip0 && s.pin.ttrip1 && !t.tripReading then none else s.pmc.tripSince)
      ∧ t.sb = s.sb
      ∧ t.flt.wires = s.flt.wires ++ ((w.pairsOver 1760).filter fun i => !s.pmc.overTemp.contains i).map overTempReport
      ∧ ∀ d, d < s.dies → t.divAt d =
        if ∃ i, i ∈ w.pairsOver 1760 ∧ d ∈ w.pairDies i then (w.thermAfter d).slow else w.thermAfter d := by
  obtain ⟨taken, -⟩ := s.takePairs_eq ps
  obtain ⟨same, known, trip, sb, wires, own⟩ := (s.takePairs ps).heatUp_eq
  unfold State.sampledHeat
  dsimp only
  generalize s.takePairs ps = w at taken same known trip sb wires own ⊢
  generalize w.heatUp = u at same known trip sb wires own ⊢
  have same' : SameReadings w u.endTrip := same.trans (by rw [u.endTrip_eq]; rfl)
  have hreads : u.endTrip.tripReading = u.tripReading := same'.tripReading.trans same.tripReading.symm
  have hpin : u.pin = s.pin := by rw [same, taken]
  refine ⟨same', by rw [u.endTrip_eq]; exact known, ?_, by rw [u.endTrip_eq]; exact sb.trans (by rw [taken]), ?_,
    fun d hd => ?_⟩
  · rw [hreads, u.endTrip_eq, hpin, trip, taken]
  · rw [u.endTrip_eq, show u.flt.wires = _ from wires, show w.flt.wires = s.flt.wires by rw [taken],
      show w.pmc.overTemp = s.pmc.overTemp by rw [taken]]
  · rw [u.endTrip_eq]
    exact own d (by rw [taken]; exact hd)

theorem thermalSample_does (s : State) (ps : List PairReading) : Does (.thermalSample ps) s fun t =>
    let w := s.takePairs ps
    SameReadings w t ∧ t.pmc = (s.sampledHeat ps).pmc ∧ t.flt = (s.sampledHeat ps).flt
      ∧ ((∃ d, d < 4 ∧ (s.divAt d).therm = 0 ∧ (t.divAt d).therm ≠ 0) → t.sb.events = s.sb.events ||| 2#8) := by
  obtain ⟨same, -, -, sb, -⟩ := s.sampledHeat_eq ps
  refine ⟨_, exec_thermalSample s ps, ?_⟩
  generalize s.sampledHeat ps = v at same sb ⊢
  split
  case isTrue => exact ⟨same.trans rfl, rfl, rfl, fun _ => by rw [← sb]; rfl⟩
  case isFalse h => exact ⟨same, rfl, rfl, fun ⟨d, hd, h0, h1⟩ => absurd (List.any_eq_true.mpr
      ⟨d, List.mem_range.mpr hd, by simp [h0, h1]⟩) h⟩

/-! ## Trips (R749, R797, R802) -/

section
variable (s : State)

/-- From `s` to `t` only the PMC's state, the pins and the disagreement of pairs have changed. -/
theorem State.setTrips_eq (n0 n1 : Bool) : s.setTrips n0 n1 = { s with
      pin := { s.pin with ttrip0 := n0, ttrip1 := n1 },
      pmc := { s.pmc with
        disSince := (s.setTrips n0 n1).pmc.disSince, agreeSince := (s.setTrips n0 n1).pmc.agreeSince },
      flt := { s.flt with disagree := (s.setTrips n0 n1).flt.disagree } } :=
  State.track_frame { s with pin := { s.pin with ttrip0 := n0, ttrip1 := n1 } } 69 (n0 != n1)

/-- A trip before its report: its time starts once, and every die is at position 4. -/
def State.tripped (s : State) : State :=
  ((List.range s.dies).foldl State.slowest
    { s with pmc := { s.pmc with tripSince := some (s.pmc.tripSince.getD s.stb.ticks) } }).latch 1

theorem State.trip_eq (r : FaultReport) : s.trip r = s.tripped.report r := rfl

theorem State.tripped_eq : s.tripped.pmc.tripSince = some (s.pmc.tripSince.getD s.stb.ticks)
    ∧ s.tripped.sb.events = s.sb.events ||| 2#8 ∧ s.tripped.pin = s.pin
    ∧ ∀ d, d < s.dies → (s.tripped.divAt d).therm = 4 ∧ (s.tripped.divAt d).target = 4 := by
  obtain ⟨moved, own⟩ := State.slowestAll_eq
    { s with pmc := { s.pmc with tripSince := some (s.pmc.tripSince.getD s.stb.ticks) } }
  unfold State.tripped
  refine ⟨?_, ?_, ?_, fun d hd => ?_⟩
  · exact (congrArg (fun a : State => a.pmc.tripSince) moved).trans rfl
  · exact (congrArg (fun a : State => (a.latch 1).sb.events) moved).trans rfl
  · exact (congrArg (fun a : State => a.pin) moved).trans rfl
  · have := (own d).trans (if_pos hd)
    exact ⟨congrArg DivSt.therm this, congrArg DivSt.target this⟩

theorem State.setTrips_tripped (n0 n1 : Bool) : let u := (s.setTrips n0 n1).tripped
    u.pmc.tripSince = some (s.pmc.tripSince.getD s.stb.ticks) ∧ u.sb.events = s.sb.events ||| 2#8
      ∧ u.pin = { s.pin with ttrip0 := n0, ttrip1 := n1 }
      ∧ ∀ d, d < s.dies → (u.divAt d).therm = 4 ∧ (u.divAt d).target = 4 := by
  obtain ⟨since, events, pin, own⟩ := (s.setTrips n0 n1).tripped_eq
  rw [s.setTrips_eq n0 n1] at *
  exact ⟨since, events, pin, own⟩

theorem thermalTrip_does {s : State} {src : TripSource} {r : FaultReport}
    (h0 : src = .pin0 → r = mkReportAll 0x0E 7 0 0) (h1 : src = .pin1 → r = mkReportAll 0x0E 7 0 0)
    (hreading : src = .reading → s.tripReading = true ∧ r = mkReportAll 0x0E 6 s.tripLocus 0) :
    ∃ u : State, exec (.thermalTrip src) s = .next (u.report r)
      ∧ u.pmc.tripSince = some (s.pmc.tripSince.getD s.stb.ticks) ∧ u.sb.events = s.sb.events ||| 2#8
      ∧ (∀ d, d < s.dies → (u.divAt d).therm = 4 ∧ (u.divAt d).target = 4)
      ∧ (src = .pin0 → u.pin = { s.pin with ttrip0 := false }) ∧ (src = .pin1 → u.pin = { s.pin with ttrip1 := false })
      ∧ (src = .reading → u.pin = s.pin) := by
  cases src with
  | pin0 =>
    obtain ⟨since, events, pin, own⟩ := s.setTrips_tripped false s.pin.ttrip1
    rw [h0 rfl]
    exact ⟨_, rfl, since, events, own, fun _ => pin, nofun, nofun⟩
  | pin1 =>
    obtain ⟨since, events, pin, own⟩ := s.setTrips_tripped s.pin.ttrip0 false
    rw [h1 rfl]
    exact ⟨_, rfl, since, events, own, nofun, fun _ => pin, nofun⟩
  | reading =>
    obtain ⟨hhot, rfl⟩ := hreading rfl
    obtain ⟨since, events, pin, own⟩ := s.tripped_eq
    exact ⟨_, congrArg _ (if_pos hhot), since, events, own, nofun, nofun, fun _ => pin⟩

theorem tripConditionRelease_does : Does .tripConditionRelease s fun t =>
    t.pin = { s.pin with ttrip0 := true, ttrip1 := true }
      ∧ t.pmc.tripSince = (if s.tripReading then s.pmc.tripSince else none) ∧ t.pmc.div = s.pmc.div := by
  refine ⟨_, rfl, ?_⟩
  have hreads : (s.setTrips true true).tripReading = s.tripReading := by rw [s.setTrips_eq]; rfl
  rw [State.endTrip_eq, hreads, s.setTrips_eq]
  refine ⟨rfl, ?_, rfl⟩
  cases s.tripReading <;> rfl

/-! ## TRIP_SHUTDOWN (R802, R803) -/

/-- Every stack that serves completes the requests it has accepted. -/
def State.drainAll (s : State) : State :=
  (List.range s.stacks).foldl (fun (a : State) k => if a.serves k then a.drainReqs k else a) s

theorem State.orders_drainReqs_other {k j : Nat} (hj : j ≠ k) :
    ((s.drainReqs k).stackAt j).orders = (s.stackAt j).orders := by
  rw [State.drainReqs, (State.ctrlKept_perform ..).ctrl, State.stackAt_modStack, if_neg hj]

theorem State.serves_congr {s a : State} {k : Nat} (h : HbmAccess s a)
    (ho : (a.stackAt k).orders = (s.stackAt k).orders) : a.serves k = s.serves k := by
  have hband : (a.stackAt k).band = (s.stackAt k).band := congrArg (·.1) ho
  have hpmc : a.pmc = s.pmc := by rw [h]
  rw [State.serves, State.serves, hband, hpmc]

/-- What a controller keeps once it has completed its requests. -/
def StackSt.drained (x : StackSt) : StackSt := { x with queue := [] }

theorem State.drainAll_orders : HbmAccess s s.drainAll ∧ ∀ k, (s.drainAll.stackAt k).orders = if k < s.stacks then
    (if s.serves k then (s.stackAt k).drained else s.stackAt k).orders else (s.stackAt k).orders := by
  refine foldl_range_unit (op := fun (a : State) k => if a.serves k then a.drainReqs k else a) (s := s)
    (unit := fun a k => (a.stackAt k).orders) (kept := HbmAccess s)
    (made := fun k => (if s.serves k then (s.stackAt k).drained else s.stackAt k).orders)
    (.refl s) (fun a k ha => ?_) (fun a k ha hk => ?_) (fun a k j _ hj => ?_) s.stacks
  · split
    · exact ha.trans (a.hbmAccess_drainReqs k)
    · exact ha
  · rw [State.serves_congr ha hk]
    split
    · rw [a.stackAt_drainReqs]
      simp only [StackSt.orders, Prod.mk.injEq] at hk ⊢
      exact ⟨hk.1, hk.2.1, rfl, hk.2.2.2⟩
    · exact hk
  · split
    · exact a.orders_drainReqs_other hj
    · rfl

theorem State.queue_drainAll {k : Nat} (hk : k < s.stacks) (hserves : s.serves k = true) :
    (s.drainAll.stackAt k).queue = [] := by
  have := s.drainAll_orders.2 k
  rw [if_pos hk, if_pos hserves] at this
  exact congrArg (·.2.2.1) this

theorem exec_tripShutdown {t0 : Nat} (h : s.pmc.tripSince = some t0) (hlong : t0 + 1000000 ≤ s.stb.ticks) :
    exec .tripShutdown s = .next { s.drainAll with
      pmc := { s.pmc with dieOff := List.range s.dies, selfRefresh := true } } := by
  have hpmc : s.drainAll.pmc = s.pmc := by rw [s.drainAll_orders.1]
  have hdies : s.drainAll.dies = s.dies := by rw [s.drainAll_orders.1]; rfl
  rw [← hpmc, ← hdies]
  dsimp only [exec, execTripShutdown]
  rw [h]
  exact congrArg _ (if_pos hlong)

theorem exec_tripShutdown_idle (h : ∀ t0, s.pmc.tripSince = some t0 → s.stb.ticks < t0 + 1000000) :
    exec .tripShutdown s = .next s := by
  dsimp only [exec, execTripShutdown]
  split
  · next t0 ht => rw [if_neg (by have := h t0 ht; omega)]
  · rfl

/-! ## SENSOR_DISAGREE (R747, R748, R750) -/

/-- The number of a pair among the disagreements. -/
def pairNo : PairRef → Nat
  | .sensor i => i.val
  | .trip => 69

/-- The package with a disagreement recorded. -/
def State.recordDisagree (s : State) (k : Nat) : State :=
  { s with flt := { s.flt with sensDis := true, disagree := insNat k s.flt.disagree } }

/-- The report of a disagreement. -/
def disagreeReport (k : Nat) : FaultReport :=
  { cls := 0x0F, lkind := if k = 69 then 7 else 6, locus := if k = 69 then 0 else pairLocus k, addr := 0,
    tags := [], all := false, detail := 0 }

theorem exec_sensorDisagree (p : PairRef) : exec (.sensorDisagree p) s =
    match tget none s.pmc.disSince (pairNo p) with
    | none => .next s
    | some t =>
      if s.stb.ticks ≤ t + 200000 ∨ s.flt.disagree.contains (pairNo p) then .next s
      else .next ((s.recordDisagree (pairNo p)).report (disagreeReport (pairNo p))) := by
  cases p <;> rfl

end

/-- Settles O58, by what each pass of a sample makes of its own pair or die: the readings are taken, then the terms
move, then the dies of over-temperatures go to position 4. The model's choices that it states are those of assumption
log 64 (cool counts saturate, a term is held during a trip, samples do not trip, both pins are released at once) and
65 (which reports use the fault wires). -/
theorem heatAndTrips : Obligations.HeatAndTrips := by
  unfold Obligations.HeatAndTrips
  intro s
  refine ⟨fun ps => ?_, fun src r h0 h1 hreading => ?_, fun h => ?_, tripConditionRelease_does s, fun t0 ht =>
    ⟨fun hlong => ⟨_, exec_tripShutdown s ht hlong, ?_⟩, fun hshort => exec_tripShutdown_idle s fun t ht' => ?_⟩,
    fun hnone => exec_tripShutdown_idle s fun t ht => ?_, fun p k hk => ?_⟩
  · obtain ⟨t, ht, same, hpmc, hflt, hevents⟩ := thermalSample_does s ps
    obtain ⟨taken, hpairs⟩ := s.takePairs_eq ps
    obtain ⟨same', known, trip, -, wires, own⟩ := s.sampledHeat_eq ps
    have hdiv (d) : t.divAt d = (s.sampledHeat ps).divAt d := congrArg (fun q : PmcSt => tget DivSt.reset q.div d) hpmc
    have hreads : t.tripReading = (s.sampledHeat ps).tripReading := same.tripReading.trans same'.tripReading.symm
    refine ⟨t, ht, fun i p hi hp => ?_, fun d hd => ?_, ?_, ?_, ?_, hevents, ?_⟩
    · rw [← hpairs i p hi hp, same]
      rfl
    · have hx : (s.takePairs ps).divAt d = s.divAt d := by rw [taken]; rfl
      have hheld : (s.takePairs ps).pmc.tripSince = s.pmc.tripSince := by rw [taken]
      simp only [hdiv, own d hd, same.diePairs, same.countedReading, same.tLimit, same.pairsOver, same.pairDies]
      rw [← hx, ← hheld]
      exact State.thermAfter_cases _ d
    · rw [hpmc, same.pairsOver]
      exact known
    · rw [hpmc, hreads]
      exact trip
    · rw [hflt, same.pairsOver]
      exact wires
    · rw [same, taken]
  · exact thermalTrip_does h0 h1 hreading
  · exact congrArg _ (if_neg (by simp [h]))
  · obtain ⟨acc, -⟩ := s.drainAll_orders
    exact ⟨by rw [acc], by rw [acc], by rw [acc], fun k => s.queue_drainAll⟩
  · obtain rfl := Option.some.inj (ht.symm.trans ht')
    exact hshort
  · rw [hnone] at ht
    cases ht
  · obtain rfl : k = pairNo p := by rw [hk]; cases p <;> rfl
    refine ⟨fun t0 ht hlong hnew => ?_, fun hidle => ?_⟩
    · refine ⟨s.recordDisagree (pairNo p), ?_, rfl, mem_insNat .., rfl⟩
      rw [exec_sensorDisagree, ht]
      exact if_neg (by simp [hnew]; omega)
    · rw [exec_sensorDisagree]
      split
      · rfl
      · next t0 ht => exact if_pos (by simpa using hidle t0 ht)

end Sys2Proof.Machine
end

section
/-! What no report, abort or halt changes: the queue, the fuses, the flash copies, the resident context, the security
state, the power state, a reset that waits, and which stacks failed to train. -/

namespace Sys2Proof.Machine

/-- What a report, an abort or a halt leaves as it was. -/
def State.fixed (s : State) :=
  (s.pending, s.fuse, s.mem.flashA, s.mem.flashB, s.resident, s.sec, s.pmc, s.resetDue, fun k => (s.stackAt k).failed)

/-- `t` comes from `s` without a change of what reports, aborts and halts leave as it was. -/
def Steady (s t : State) : Prop := t.fixed = s.fixed

section
variable {s t u : State}

theorem Steady.refl (s : State) : Steady s s := rfl

theorem Steady.trans (h : Steady s t) (h' : Steady t u) : Steady s u := Eq.trans h' h

/-- An update of what `fixed` does not speak of. -/
theorem Steady.same (h : Steady s t) (hu : u.fixed = t.fixed := by rfl) : Steady s u := h.trans hu

theorem Steady.wire (h : Steady s t) (r : FaultReport) : Steady s (t.wire r) := h

theorem Steady.modMember (h : Steady s t) (m : Nat) (f : MemberSt → MemberSt) : Steady s (t.modMember m f) := h

theorem Steady.modRing (h : Steady s t) (r : Nat) (f : RingSt → RingSt) : Steady s (t.modRing r f) := h

theorem Steady.modCtx (h : Steady s t) (c : Nat) (f : CtxSt → CtxSt) : Steady s (t.modCtx c f) := h

theorem Steady.foldl {α : Type} {op : State → α → State} (h : Steady s t) (hop : ∀ a x, Steady a (op a x))
    (l : List α) : Steady s (l.foldl op t) :=
  List.foldlRecOn l op (motive := Steady s) h fun _ ha x _ => ha.trans (hop _ x)

theorem Steady.ite {c : Prop} [Decidable c] (h : Steady s t) (h' : Steady s u) : Steady s (if c then t else u) := by
  split
  · exact h
  · exact h'

theorem Steady.modStack (h : Steady s t) (k : Nat) {f : StackSt → StackSt}
    (hf : ∀ x, (f x).failed = x.failed := by exact fun _ => rfl) : Steady s (t.modStack k f) := by
  refine h.trans (congrArg (fun g => (t.pending, t.fuse, t.mem.flashA, t.mem.flashB, t.resident, t.sec, t.pmc,
    t.resetDue, g)) (funext fun j => ?_))
  rw [State.stackAt_modStack]
  split
  · next hj => rw [hj, hf]
  · rfl

end

section
variable (s : State)

/-! ## Requests to HBM (R315-R319, R333-R336, R344) -/

section
variable (k line a : Nat) (n : Option (BitVec 64)) (bs : Bytes)

theorem State.steady_laneError (lane i : Nat) : Steady s (s.laneError k lane i) :=
  .ite (.wire (.modStack (.refl s) k) _) (.modStack (.refl s) k)

theorem State.steady_readLine (scrub : Bool) : Steady s (s.readLine line n scrub).1 := by
  unfold State.readLine
  dsimp only
  split
  · exact .refl s
  · refine .trans ?_ (State.steady_laneError ..)
    exact .modStack (.trans (t := { s with mem := _ }) rfl (.refl _)) _
  · exact .wire (.modStack (.refl s) (s.stackOf (64 * line)).1) _

theorem State.steady_hbmLines (scrub : Bool) (ls : List Nat) : Steady s (s.hbmLines n scrub ls).1 := by
  induction ls generalizing s with
  | nil => exact .refl s
  | cons l ls ih => exact (s.steady_readLine l n scrub).trans (ih _)

theorem State.steady_hbmWriteLine (off : Nat) : Steady s (s.hbmWriteLine n line off bs) := by
  have hread := s.steady_readLine line n false
  unfold State.hbmWriteLine
  dsimp only
  split
  · rfl
  · split
    · exact hread
    · exact hread.trans rfl

theorem State.steady_hbmWriteGo (fuel : Nat) : Steady s (s.hbmWriteGo n fuel a bs) := by
  induction fuel generalizing s a bs with
  | zero => exact .refl s
  | succ fuel ih => exact .ite (.refl s) ((s.steady_hbmWriteLine ..).trans (ih ..))

theorem State.steady_doReq (r : HbmReq) : Steady s (s.doReq k r) := by
  have hmem : Steady s { s with mem := corrupt s.mem (r.addr.toNat / 64) r.err } := rfl
  unfold State.doReq
  dsimp only
  split
  · exact hmem.trans (State.steady_hbmWriteGo ..)
  · exact .modStack (hmem.trans (State.steady_hbmLines ..)) _

theorem State.steady_perform (qs : List QueuedReq) : Steady s (s.perform k qs) :=
  .foldl (.refl s) (fun a (q : QueuedReq) => a.steady_doReq k q.req) qs

theorem State.steady_takeReq (q : QueuedReq) : Steady s (s.takeReq k q) :=
  .ite (.modStack (.refl s) k) <| .ite (.modStack (.refl s) k) <|
    .ite (((Steady.modStack (.refl s) k).trans (State.steady_perform ..)).trans (State.steady_doReq ..))
      (s.steady_doReq ..)

theorem State.steady_refill : Steady s (s.refill k) :=
  .foldl (.modStack (.refl s) k) (fun a q => a.steady_takeReq k q) _

theorem State.steady_drainReqs : Steady s (s.drainReqs k) :=
  (Steady.modStack (.refl s) k).trans (State.steady_perform ..)

theorem State.steady_settleEngine (who : Issuer) : Steady s (s.settleEngine who) :=
  .foldl (.refl s) (fun a k => .ite ((a.steady_drainReqs k).trans (State.steady_refill ..)) (.refl a)) _

end

/-! ## Messages (R469-R475, R484, R503, R738) -/

section
variable (m vc cls phase g : Nat) (dst : Vec3) (payload : Bytes) (t : TxMsg)

theorem State.steady_enqueue : Steady s (s.enqueue m vc t) := rfl

theorem State.steady_sendOn : Steady s (s.sendOn g vc cls phase dst payload) := by
  unfold State.sendOn
  split
  · split <;> rfl
  · rfl

theorem State.steady_sendOnward (detour : Bool) : Steady s (s.sendOnward g vc detour t) := by
  unfold State.sendOnward
  split <;> rfl

theorem State.steady_sendTo : Steady s (s.sendTo vc cls phase dst payload) := by
  unfold State.sendTo
  split
  · rfl
  · split
    · rfl
    · exact s.steady_sendOn ..

theorem State.steady_sendAll : Steady s (s.sendAll cls payload) := by
  unfold State.sendAll
  split
  · rfl
  · exact .foldl (.refl s) (fun a v => a.steady_sendTo 0 cls 0 v payload) _

theorem State.steady_freeOf (buf : Option Nat) : Steady s (s.freeOf m vc buf) := by
  unfold State.freeOf
  split
  · unfold State.freeBuffer
    dsimp only
    split
    · rfl
    · split <;> rfl
  · rfl

theorem State.steady_clearStreams (c : Nat) : Steady s (s.clearStreams c) :=
  Steady.trans (.foldl (.refl s) (fun a (r : RxMsg) => a.steady_freeOf r.link r.vc r.buf) _) rfl

theorem State.steady_haltOn (c : Nat) : Steady s (s.haltOn c payload g) := by
  unfold State.haltOn
  dsimp only
  split
  · rfl
  · exact .ite (.refl s) (.foldl (.trans (t := State.modStream s _ _) rfl (.refl _))
      (fun a m => a.steady_enqueue m 0 _) _)

theorem State.steady_haltFlood (c : Nat) (excl : Option Nat) : Steady s (s.haltFlood c payload excl) :=
  .foldl (.refl s) (fun a _ => .ite (.refl a) (a.steady_haltOn ..)) _

theorem State.steady_innerOut (u : Nat) (h : InnerHdr) (par : List Nat) : Steady s (s.innerOut vc u h payload par) := by
  unfold State.innerOut
  split <;> rfl

end

/-! ## Links that go down (R40, R485-R488, R503-R508) -/

section
variable (m : Nat)

theorem State.steady_refreshGroups : Steady s s.refreshGroups := by
  unfold State.refreshGroups
  split
  · rfl
  · exact .foldl (Steady.same (.refl s)) (fun a d => (Steady.refl a).same) _

theorem State.steady_loseParent : Steady s (s.loseParent m) := by
  unfold State.loseParent
  split
  · exact .ite rfl rfl
  · rfl

theorem State.steady_dieLinkDown : Steady s (s.dieLinkDown m) := by
  unfold State.dieLinkDown
  dsimp only
  refine .ite (.refl s) (Steady.trans (.foldl (t := s.modMember m _) rfl (fun a e => a.steady_innerOut ..) _) rfl)

theorem State.steady_dropParts : Steady s (s.dropParts m) := by
  refine Steady.trans (.foldl (.refl s) (fun a p => ?_) _) rfl
  split
  · exact a.steady_freeOf ..
  · rfl

theorem State.steady_resend (vc : Nat) (t : TxMsg) : Steady s (s.resend vc t) := by
  unfold State.resend
  split
  · rfl
  · split
    · rfl
    · exact s.steady_sendOnward ..

/-- What waits on a member that withdraws goes to another member, or back to the package. -/
theorem State.steady_withdrawAvenue (fault : Bool) : Steady s (s.withdrawAvenue m fault) := by
  have hhand (a : State) (k : Nat) (f : Nat → List TxMsg) (l : List Nat) :
      Steady a (l.foldl (fun (b : State) v => b.handTo k v (f v)) a) :=
    .foldl (.refl a) (fun b v => .modMember (.refl b) k _) l
  have hresend (a : State) (v : Nat) (l : List TxMsg) : Steady a (l.foldl (fun (b : State) t => b.resend v t) a) :=
    .foldl (.refl a) (fun b t => b.steady_resend v t) l
  have h1 (f : MemberSt → MemberSt) : Steady s ((s.dropParts m).modMember m f) := .modMember (s.steady_dropParts m) m f
  unfold State.withdrawAvenue
  dsimp only
  refine .trans (.trans (.ite (.wire (.modMember ?_ m _) _) (.modMember ?_ m _)) (State.steady_loseParent ..))
    (State.steady_refreshGroups _)
  all_goals
    split
    · exact (((h1 _).modMember _ _).modMember _ _).trans (hhand ..)
    · exact (((h1 _).trans (hresend ..)).trans (hresend ..)).trans (hhand ..)

theorem State.steady_withdraw : Steady s (s.withdraw m) :=
  .ite (s.steady_dieLinkDown m) (.ite (.refl s) (s.steady_withdrawAvenue m _))

theorem State.steady_collectTo : Steady s (s.collectTo m) :=
  .foldl (.refl s) (fun a j => .foldl (.modMember (.refl a) j _) (fun b _ => .modMember (.refl b) m _) _) _

theorem State.steady_grantAll (cls0 : Bool) : Steady s (s.grantAll m cls0) :=
  .foldl (.refl s) (fun a _ => .ite (.refl a) (.modMember (.refl a) m _)) _

theorem State.steady_bringUp : Steady s (s.bringUp m) := by
  have h (f : MemberSt → MemberSt) : Steady s (s.modMember m f) := .modMember (.refl s) m f
  exact .trans (.ite (((h _).trans (State.steady_collectTo ..)).trans (State.steady_grantAll ..)) (h _))
    (State.steady_refreshGroups _)

end

/-! ## Entries of rings (R645, R646, R655, R663-R665) -/

section
variable (r : Nat)

theorem State.steady_raise (i : Nat) : Steady s (s.raise i) := .ite rfl rfl

theorem State.steady_writeEntry (w : WaitEnt) : Steady s (s.writeEntry r w) := by
  have h (a : Nat) (bs : Bytes) (f : RingSt → RingSt) : Steady s ((s.hostWrite a bs).modRing r f) := rfl
  exact .ite (.modRing (.refl s) r _) (.ite ((h ..).trans (State.steady_raise ..)) (h ..))

theorem State.steady_putEntry (w : WaitEnt) : Steady s (s.putEntry r w) :=
  .ite (.modRing (.refl s) r _) (s.steady_writeEntry r w)

theorem State.steady_reply (p : BitVec 512) (status detail n : Nat) : Steady s (s.reply r p status detail n) := by
  have h (f : RingSt → RingSt) : Steady s (s.modRing r f) := .modRing (.refl s) r f
  exact .ite (h _) ((h _).trans (State.steady_putEntry ..))

theorem State.steady_replyWaiting (ops : List Nat) (c status detail : Nat) :
    Steady s (s.replyWaiting ops c status detail) := by
  unfold State.replyWaiting
  split
  · exact s.steady_reply ..
  · rfl

theorem State.steady_event (c code detail : Nat) : Steady s (s.event c code detail) := by
  unfold State.event
  split
  · rfl
  · exact .ite (.refl s) (s.steady_putEntry ..)

end

/-! ## Fault records and the stop of a step (R273, R531, R757-R759) -/

theorem Steady.jdWrite {s t : State} (h : Steady s t) (off : Nat) (bs : Bytes) : Steady s (t.jdWrite off bs) := h

theorem Steady.setFlt {s t : State} (h : Steady s t) (f : FltSt) : Steady s { t with flt := f } := h

theorem State.steady_logFault (rep : FaultReport) (stb : Nat) (first : BitVec 64) (outcome action : Nat) (lft : Bool) :
    Steady s (s.logFault rep stb first outcome action lft) := by
  have h (off : Nat) (bs : Bytes) (f : FltSt) : Steady s { s.jdWrite off bs with flt := f } :=
    .setFlt (.jdWrite (.refl s) off bs) f
  unfold State.logFault
  dsimp only
  split
  · exact h ..
  · split
    · exact .setFlt (.jdWrite (h ..) _ _) _
    · exact .setFlt (h ..) _

theorem State.steady_countLasting : Steady s s.countLasting := .setFlt (.refl s) _

theorem State.steady_freeChunk (k : RxChunk) : Steady s (s.freeChunk k) := s.steady_freeOf ..

theorem Steady.setNet {s t : State} (h : Steady s t) (n : NetSt) : Steady s { t with net := n } := h

theorem State.steady_dropRx : Steady s s.dropRx := .setNet (.foldl (.refl s) (fun a k => a.steady_freeChunk k) _) _

theorem State.steady_stopCx (n : BitVec 64) (d : Nat) : Steady s (s.stopCx n d) := rfl

theorem Steady.setEngines {s t : State} (h : Steady s t) (e : Tbl EngSt) (c : Tbl CoreSt) :
    Steady s { t with eng := e, core := c } := h

theorem State.steady_stopStep (n : BitVec 64) : Steady s (s.stopStep n) := by
  have h (e : Tbl EngSt) (c : Tbl CoreSt) : Steady s ({ s with eng := e, core := c } : State).dropRx :=
    .trans (.setEngines (.refl s) e c) (State.steady_dropRx _)
  exact .foldl (.setNet (h ..) _) (fun a d => a.steady_stopCx n d) _

/-! ## Halts and aborts (R60, R416, R417, R730-R742) -/

theorem State.steady_haltDone (c : Nat) : Steady s (s.haltDone c) := by
  unfold State.haltDone
  dsimp only
  split
  · rfl
  · have h (f : CtxSt → CtxSt) : Steady s (s.modCtx c f) := .modCtx (.refl s) c f
    exact .ite (((h _).trans (State.steady_event ..)).trans (State.steady_replyWaiting ..)) (.refl s)

theorem State.steady_stopSteps (l : List StepSt) :
    Steady s (l.foldl (fun (a : State) t => if t.held then a else a.stopStep t.no) s) :=
  .foldl (.refl s) (fun a t => .ite (.refl a) (a.steady_stopStep t.no)) l

theorem State.steady_haltCtx (c cause : Nat) (target : CtxPhase) : Steady s (s.haltCtx c cause target) := by
  unfold State.haltCtx
  dsimp only
  exact .trans (.modCtx (.setNet (s.steady_stopSteps _) _) c _) (State.steady_haltDone ..)

theorem State.steady_containHalt (cause : Nat) (target : CtxPhase) (payload : Option Bytes) (excl : Option Nat) :
    Steady s (s.containHalt cause target payload excl) := by
  have h2 (f : FltSt) (p : PinSt) (b : Bytes) :
      Steady s ((({ s with flt := f, pin := p } : State).latch 0).crashSlot b) := rfl
  unfold State.containHalt
  dsimp only
  split
  · split
    · exact .modCtx (.refl s) _ _
    · rfl
  · split
    · exact h2 ..
    · have h3 (f : FltSt) (p : PinSt) (b : Bytes) (c : Nat) :=  (h2 f p b).trans (State.steady_haltFlood _ b c excl)
      split
      · exact (h3 ..).trans (State.steady_haltCtx ..)
      · exact (h3 ..).trans (State.steady_haltCtx ..)
      · exact (h3 ..).trans (State.steady_haltCtx ..)
      · exact (h3 ..).modCtx _ _

theorem State.steady_haltFault (rep : FaultReport) : Steady s (s.haltFault rep) := by
  unfold State.haltFault
  dsimp only
  exact (((s.steady_logFault ..).trans (State.steady_logFault ..)).trans (State.steady_countLasting _)).trans
    (State.steady_containHalt ..)

theorem State.steady_abortOne (c : Nat) (n : BitVec 64) : Steady s (s.abortOne c n) := by
  have h : Steady s ((s.stopStep n).dropStamps n) := .trans (s.steady_stopStep n) rfl
  unfold State.abortOne
  dsimp only
  exact .trans (.modCtx (.foldl h (fun a (t : StepSt) => a.steady_stopStep t.no) _) c _) (State.steady_event ..)

theorem State.steady_abortOnes (c : Nat) (l : List StepSt) :
    Steady s (l.foldl (fun (a : State) u => a.abortOne c u.no) s) := by
  induction l generalizing s with
  | nil => rfl
  | cons t l ih => exact (s.steady_abortOne c t.no).trans (ih _)

theorem State.steady_setEpoch (c : Nat) (e : BitVec 16) : Steady s (s.setEpoch c e) :=
  .setNet (.trans (.modCtx (.refl s) c _) (State.steady_clearStreams ..)) _

theorem State.steady_abortSteps (c : Nat) (ns : List (BitVec 64)) (send : Bool) :
    Steady s (s.abortSteps c ns send) := by
  unfold State.abortSteps
  dsimp only
  split
  · rfl
  · next t r hlive =>
    have h := s.steady_abortOnes c
    have h' (l : List StepSt) (e : BitVec 16) (b : Bytes) :
        Steady s (((l.foldl (fun (a : State) u => a.abortOne c u.no) s).setEpoch c e).sendAll 0 b) :=
      ((h l).trans (State.steady_setEpoch ..)).trans (State.steady_sendAll ..)
    split
    · exact s.steady_haltFault _
    · split
      · exact h _
      · split
        · exact (h' ..).trans (State.steady_haltFault ..)
        · exact h' ..

/-! ## Fences and reports (R305-R311, R726-R733) -/

theorem Steady.modXs {s t : State} (h : Steady s t) (d : Nat) (f : XsSt → XsSt) : Steady s (t.modXs d f) := h

theorem Steady.setEng {s t : State} (h : Steady s t) (e : EngRef) (v : EngSt) : Steady s (t.setEng e v) := h

theorem Steady.modCore {s t : State} (h : Steady s t) (c : CoreRef) (f : CoreSt → CoreSt) :
    Steady s (t.modCore c f) := h

theorem Steady.setPhysState {s t : State} (h : Steady s t) (d p v : Nat) : Steady s (t.setPhysState d p v) := h

theorem Steady.setPhys {s t : State} (h : Steady s t) (d l p : Nat) : Steady s (t.setPhys d l p) := h

theorem State.steady_abandon : Steady s s.abandon :=
  .foldl (.refl s) (fun a d => .ite (.modXs (.refl a) d _) (.refl a)) _

theorem State.steady_quitCore (d l : Nat) : Steady s (s.quitCore d l) := by
  have h (c : CoreRef) (ks : List EngKind) :
      Steady s (ks.foldl (fun (a : State) k => a.settleEngine (.engine (engOf c k))) s) :=
    .foldl (.refl s) (fun a k => a.steady_settleEngine _) ks
  unfold State.quitCore
  dsimp only
  exact .modCore (.foldl (h ..) (fun a _ => .setEng (.refl a) _ _) _) _ _

theorem State.steady_fenceCore (d p : Nat) : Steady s (s.fenceCore d p).1 := by
  unfold State.fenceCore
  split
  · exact .setPhysState (.refl s) d p 2
  · have h (l : Nat) : Steady s ((s.quitCore d l).setPhysState d p 2) := .setPhysState (s.steady_quitCore d l) d p 2
    dsimp only
    split
    · exact h _
    · exact .setPhys (.setPhysState (h _) ..) ..

theorem State.steady_respond (r : FaultReport) (tags : List (BitVec 64)) : Steady s (s.respond r tags) := by
  have habort (a : State) (l : List (BitVec 64)) : Steady a (match a.cur with
      | some (c, _) => a.abortSteps c.val l true
      | none => a) := by
    split
    · exact a.steady_abortSteps ..
    · rfl
  unfold State.respond
  split
  · exact s.steady_containHalt ..
  · have hfence (a : State) (h : Steady s a) (d p : Nat) (rep : FaultReport) :
        Steady s (if (a.fenceCore d p).2 then (a.fenceCore d p).1 else (a.fenceCore d p).1.haltFault rep) :=
      .ite (h.trans (a.steady_fenceCore d p)) ((h.trans (a.steady_fenceCore d p)).trans (State.steady_haltFault ..))
    dsimp only
    split
    · exact hfence _ (s.steady_abandon.trans (State.steady_abortSteps ..)) ..
    · exact hfence _ s.steady_abandon ..
  · dsimp only
    have hdown : Steady s (if r.cls = 0x05 then s
        else s.withdraw (if r.lkind = 4 then r.locus.toNat % 32 else 24 + r.locus.toNat % 8)) :=
      .ite (.refl s) (s.steady_withdraw _)
    exact hdown.trans (habort ..)
  · exact habort s tags

theorem State.steady_report (r : FaultReport) : Steady s (s.report r) := by
  have hlog (a : State) (f : BitVec 64) (o act : Nat) (lft : Bool) := a.steady_logFault r s.stbTicks f o act lft
  unfold State.report
  dsimp only
  split
  · exact (hlog ..).trans (hlog ..)
  · split
    · exact ((hlog ..).trans (hlog ..)).trans (State.steady_countLasting _)
    · have hlasting (f : BitVec 64) := ((hlog s f 0 (s.response r) false).trans (hlog _ f 2 (s.response r) true)).trans
        (State.steady_countLasting _)
      split
      all_goals
        split
        · refine .trans ?_ (State.steady_respond ..)
          split
          · exact (hlasting _).modCtx _ _
          · exact hlasting _
        · split
          · exact hlog ..
          · exact (Steady.modCtx (hlog ..) _ _).trans (State.steady_abortSteps ..)

theorem State.steady_radishResult (k : RadishRes) : Steady s (s.radishResult k) := by
  have h (f : FltSt) (r : FaultReport) : Steady s (({ s with flt := f } : State).report r) :=
    .trans (.setFlt (.refl s) f) (State.steady_report ..)
  unfold State.radishResult
  dsimp only
  split
  · exact .setFlt (.refl s) _
  · split
    · exact h ..
    · exact h ..

end

end Sys2Proof.Machine
end

section
/-! Resets and boot (O59), and the loss and return of power (O60). -/

namespace Sys2Proof.Machine

/-! ## Boot (R814-R820) -/

/-- What boot changes only where a firmware copy takes hold. -/
def State.still (s : State) :=
  (s.pending, s.fuse, s.mem.flashA, s.mem.flashB, s.resident, s.sec, s.pmc, s.resetDue)

theorem Steady.still {s t : State} (h : Steady s t) : t.still = s.still :=
  congrArg (fun x => (x.1, x.2.1, x.2.2.1, x.2.2.2.1, x.2.2.2.2.1, x.2.2.2.2.2.1, x.2.2.2.2.2.2.1, x.2.2.2.2.2.2.2.1)) h

theorem Steady.failed {s t : State} (h : Steady s t) (k : Nat) : (t.stackAt k).failed = (s.stackAt k).failed :=
  congrArg (fun x => x.2.2.2.2.2.2.2.2 k) h

section
variable (s : State) (b : BootEnv)

/-- Whether a stack is failed once it has trained. -/
def State.failedAfter (k : Nat) : Bool :=
  if k < s.stacks then (b.train.getD k { fail := false, lanes := [] }).fail else (s.stackAt k).failed

theorem State.stacks_of_still {s a : State} (h : a.still = s.still) : a.stacks = s.stacks := by
  rw [State.stacks, State.dies, show a.fuse = s.fuse from congrArg (·.2.1) h]
  rfl

theorem State.still_jdWrite (off : Nat) (bs : Bytes) : (s.jdWrite off bs).still = s.still := rfl

theorem State.still_modStack (k : Nat) (f : StackSt → StackSt) : (s.modStack k f).still = s.still := rfl

theorem State.stackAt_jdWrite (off : Nat) (bs : Bytes) (k : Nat) : (s.jdWrite off bs).stackAt k = s.stackAt k := rfl

theorem State.trainStack_still (k : Nat) : (s.trainStack b k).still = s.still := by
  unfold State.trainStack
  dsimp only
  split
  · rw [State.still_jdWrite]
  · rw [State.still_modStack, State.still_jdWrite]

theorem State.failed_trainStack_self (k : Nat) : ((s.trainStack b k).stackAt k).failed = s.failedAfter b k := by
  unfold State.trainStack State.failedAfter
  dsimp only
  by_cases hks : k < s.stacks
  · rw [if_neg (Nat.not_le.mpr hks), if_pos hks, State.stackAt_modStack_self]
  · rw [if_pos (Nat.not_lt.mp hks), if_neg hks, State.stackAt_jdWrite]

theorem State.failed_trainStack_other {k j : Nat} (hj : j ≠ k) :
    ((s.trainStack b k).stackAt j).failed = (s.stackAt j).failed := by
  unfold State.trainStack
  dsimp only
  split
  · rw [State.stackAt_jdWrite]
  · rw [State.stackAt_modStack, if_neg hj, State.stackAt_jdWrite]

theorem State.trainStacks_eq (n : Nat) : let t := (List.range n).foldl (fun (a : State) k => a.trainStack b k) s
    t.still = s.still ∧ ∀ k, (t.stackAt k).failed = if k < n then s.failedAfter b k else (s.stackAt k).failed :=
  foldl_range_unit (op := fun (a : State) k => a.trainStack b k) (s := s) (unit := fun a k => (a.stackAt k).failed)
    (kept := fun a : State => a.still = s.still) rfl (fun a k ha => (a.trainStack_still b k).trans ha)
    (fun a k ha hk => by
      rw [a.failed_trainStack_self, State.failedAfter, State.failedAfter, State.stacks_of_still ha, hk])
    (fun a k j _ hj => a.failed_trainStack_other b hj) n

theorem State.stage3_eq : (s.stage3 b).still = s.still ∧
    ∀ k, k < 16 → ((s.stage3 b).stackAt k).failed = s.failedAfter b k := by
  obtain ⟨still, failed⟩ := s.trainStacks_eq b 16
  have hlink (a : State) (i : Nat) : Steady a (a.trainLink b i) := by
    unfold State.trainLink
    dsimp only
    exact .ite (.refl a) (.ite (.modMember (.refl a) _ _) (.trans (.modMember (.refl a) _ _) (State.steady_bringUp ..)))
  have hdown (a : State) (i : Nat) : Steady a
      (if a.hasMember (24 + i) && b.linkDown.getLsbD i then a.dieLinkDown (24 + i) else a) :=
    .ite (a.steady_dieLinkDown _) (.refl a)
  unfold State.stage3
  dsimp only
  generalize (List.range 16).foldl (fun (a : State) k => a.trainStack b k) s = t at still failed ⊢
  have hlinks : Steady t _ := .foldl (.foldl (.refl t) hlink (List.range 8)) hdown (List.range 8)
  exact ⟨hlinks.still.trans still, fun k hk => (hlinks.failed k).trans ((failed k).trans (if_pos hk))⟩

/-- The package once its stacks and links have trained and Radish has run (R816, R817). -/
def State.readied : State := b.radish.foldl (fun (a : State) k => a.radishResult k) (s.stage2.stage3 b)

theorem State.readied_eq : (s.readied b).still = s.still ∧
    ∀ k, k < 16 → ((s.readied b).stackAt k).failed = s.failedAfter b k := by
  obtain ⟨still, failed⟩ := s.stage2.stage3_eq b
  have hradish : Steady (s.stage2.stage3 b) (s.readied b) := .foldl (.refl _) (fun a k => a.steady_radishResult k) _
  exact ⟨hradish.still.trans still, fun k hk => (hradish.failed k).trans (failed k hk)⟩

/-- The flash as boot finds it. -/
def State.flashFor : FlashCopy × FlashCopy := b.flash.getD (s.mem.flashA, s.mem.flashB)

/-- The package with the flash that boot finds. -/
def State.withFlash : State := { s with mem := { s.mem with flashA := (s.flashFor b).1, flashB := (s.flashFor b).2 } }

theorem State.boot_def : s.boot b = match fwChoice s.fuse (s.flashFor b).1 (s.flashFor b).2 with
    | none => (s.withFlash b).bootStop (bootFail s.fuse (s.flashFor b).1 (s.flashFor b).2)
    | some (fw, copyB) =>
      let u := { s.withFlash b with sec := { s.sec with copyB := copyB, running := fw } }
      if !b.lockstepOk then u.bootStop 4
      else ({ u.readied b with
        sec := { (u.readied b).sec with stage := 5 },
        fuse := { (u.readied b).fuse with arb := max (u.readied b).fuse.arb (fwArb fw) } } : State).latch 5 := by
  unfold State.boot State.withFlash State.flashFor
  cases b.flash <;> rfl

/-- What boot from `u` leaves, where the package was `s` before. -/
def Booted (s : State) (b : BootEnv) (u t : State) : Prop :=
  let f := u.flashFor b
  (t.mem.flashA, t.mem.flashB) = f ∧ t.pending = s.pending
    ∧ (∀ fw copyB, fwChoice s.fuse f.1 f.2 = some (fw, copyB) → b.lockstepOk = true →
      t.sec.stage = 5 ∧ t.sec.running = fw ∧ t.sec.copyB = copyB
      ∧ t.fuse = { s.fuse with arb := max s.fuse.arb (fwArb fw) }
      ∧ t.sb.events.getLsbD 5 = true
      ∧ (∀ k x, k < s.stacks → b.train[k]? = some x → (t.stackAt k).failed = x.fail))
    ∧ (∀ fw copyB, fwChoice s.fuse f.1 f.2 = some (fw, copyB) → b.lockstepOk = false →
      t.sec.stage = 15 ∧ t.sec.fail = 4)
    ∧ (fwChoice s.fuse f.1 f.2 = none → t.sec.stage = 15 ∧ t.sec.fail = bootFail s.fuse f.1 f.2)

/-- A package of at most four dies has at most 16 stacks. -/
theorem State.stacks_le (s : State) : s.stacks ≤ 16 := by
  unfold State.stacks State.dies
  split <;> decide

/-- Boot with a copy that is admissible and a lockstep that agrees (R816-R818). -/
theorem State.boot_started {fw : FlashCopy} {copyB : Bool}
    (h : fwChoice s.fuse (s.flashFor b).1 (s.flashFor b).2 = some (fw, copyB)) (hl : b.lockstepOk = true) :
    let u : State := { s.withFlash b with sec := { s.sec with copyB := copyB, running := fw } }
    s.boot b = ({ u.readied b with
      sec := { (u.readied b).sec with stage := 5 },
      fuse := { (u.readied b).fuse with arb := max (u.readied b).fuse.arb (fwArb fw) } } : State).latch 5 := by
  rw [s.boot_def, h]
  exact if_neg (by simp [hl])

theorem State.boot_lockstep {fw : FlashCopy} {copyB : Bool}
    (h : fwChoice s.fuse (s.flashFor b).1 (s.flashFor b).2 = some (fw, copyB)) (hl : b.lockstepOk = false) :
    s.boot b = ({ s.withFlash b with sec := { s.sec with copyB := copyB, running := fw } } : State).bootStop 4 := by
  rw [s.boot_def, h]
  exact if_pos (by simp [hl])

theorem State.boot_none (h : fwChoice s.fuse (s.flashFor b).1 (s.flashFor b).2 = none) :
    s.boot b = (s.withFlash b).bootStop (bootFail s.fuse (s.flashFor b).1 (s.flashFor b).2) := by
  rw [s.boot_def, h]

/-- What boot keeps whatever copy it finds. -/
theorem State.boot_kept : let t := s.boot b
    (t.mem.flashA, t.mem.flashB) = s.flashFor b ∧ t.pending = s.pending ∧ t.resident = s.resident ∧ t.pmc = s.pmc := by
  cases h : fwChoice s.fuse (s.flashFor b).1 (s.flashFor b).2 with
  | none =>
    rw [s.boot_none b h]
    exact ⟨rfl, rfl, rfl, rfl⟩
  | some c =>
    cases hl : b.lockstepOk with
    | false =>
      rw [s.boot_lockstep b h hl]
      exact ⟨rfl, rfl, rfl, rfl⟩
    | true =>
      rw [s.boot_started b h hl]
      obtain ⟨still, -⟩ := State.readied_eq { s.withFlash b with sec := { s.sec with copyB := c.2, running := c.1 } } b
      generalize State.readied _ b = t at still ⊢
      simp only [State.still, Prod.mk.injEq] at still
      obtain ⟨pending, -, flashA, flashB, resident, -, pmc, -⟩ := still
      exact ⟨Prod.ext flashA flashB, pending, resident, pmc⟩

theorem booted_boot {s u : State} (b : BootEnv) (hp : u.pending = s.pending) (hf : u.fuse = s.fuse) :
    Booted s b u (u.boot b) := by
  obtain ⟨flash, pending, -, -⟩ := u.boot_kept b
  refine ⟨flash, pending.trans hp, fun fw copyB h hl => ?_, fun fw copyB h hl => ?_, fun h => ?_⟩
  · rw [← hf] at h ⊢
    rw [u.boot_started b h hl]
    obtain ⟨still, failed⟩ :=
      State.readied_eq { u.withFlash b with sec := { u.sec with copyB := copyB, running := fw } } b
    generalize State.readied _ b = t at still failed ⊢
    simp only [State.still, Prod.mk.injEq] at still
    obtain ⟨-, fuse, -, -, -, sec, -, -⟩ := still
    refine ⟨rfl, congrArg SecSt.running sec, congrArg SecSt.copyB sec, ?_, ?_, fun k x hk hx => ?_⟩
    · exact congrArg (fun f : Fuses => { f with arb := max f.arb (fwArb fw) }) fuse
    · exact (BitVec.getLsbD_or ..).trans (Bool.or_true _)
    · have hks : k < u.stacks := by rw [State.stacks, State.dies, hf]; exact hk
      refine (failed k (by have := s.stacks_le; omega)).trans ((if_pos hks).trans ?_)
      rw [List.getD_eq_getElem?_getD, hx]
      rfl
  · rw [← hf] at h
    rw [u.boot_lockstep b h hl]
    exact ⟨rfl, rfl⟩
  · rw [← hf] at h ⊢
    rw [u.boot_none b h]
    exact ⟨rfl, rfl⟩

end

theorem Booted.of_flash {s u v t : State} {b : BootEnv} (h : Booted s b u t) (hf : u.flashFor b = v.flashFor b) :
    Booted s b v t := by
  unfold Booted
  rw [← hf]
  exact h

/-! ## Resets (R770, R807, R821-R823, R901) -/

/-- What a reset clears, and what it keeps of the package `s` before it. -/
def Cleared (s u : State) (vaux : Bool) : Prop :=
  u.ctx = [] ∧ u.resident = none ∧ u.rings = [] ∧ u.eng = [] ∧ u.core = [] ∧ u.memLock = [] ∧ u.linkLock = []
    ∧ u.lsecLock = .reset ∧ u.sec.stage = 0 ∧ u.sec.scope = 0 ∧ u.pin.faultN = true
    ∧ (∃ n, u.mem.spm = .undef n ∧ u.mem.sram = .undef (n + 1)) ∧ u.mem.jd = s.mem.jd ∧ u.mem.host = s.mem.host
    ∧ (u.mem.flashA, u.mem.flashB) = (s.mem.flashA, s.mem.flashB) ∧ u.fuse = s.fuse ∧ u.pending = s.pending
    ∧ u.sb = if vaux then .reset else s.sb

section
variable (s : State) (b : BootEnv)

theorem State.cleared_cleared (vaux : Bool) : Cleared s (s.cleared vaux) vaux :=
  ⟨rfl, rfl, rfl, rfl, rfl, rfl, rfl, rfl, rfl, rfl, rfl, ⟨_, rfl, rfl⟩, rfl, rfl, rfl, rfl, rfl, rfl⟩

/-- Only the cores' mapping differs. -/
def RemapOnly (s t : State) : Prop := t = { s with remap := t.remap }

theorem RemapOnly.setPhysState {s t : State} (h : RemapOnly s t) (d p v : Nat) :
    RemapOnly s (t.setPhysState d p v) := by
  rw [h]
  rfl

theorem State.unfence_remap : RemapOnly s s.unfence := by
  refine List.foldlRecOn _ _ (motive := RemapOnly s) rfl fun a ha d _ => ?_
  refine List.foldlRecOn _ _ (motive := RemapOnly s) ha fun a ha p _ => ?_
  split
  · exact ha.setPhysState d p 1
  · exact ha

/-- What a reset leaves before boot. -/
def State.afterReset (cold vaux : Bool) : State := if cold then (s.cleared vaux).unfence else s.cleared vaux

theorem State.afterReset_eq (cold vaux : Bool) :
    s.afterReset cold vaux = { s.cleared vaux with remap := (s.afterReset cold vaux).remap } := by
  cases cold
  · rfl
  · exact State.unfence_remap _

theorem State.cleared_afterReset (cold vaux : Bool) : Cleared s (s.afterReset cold vaux) vaux := by
  rw [s.afterReset_eq]
  exact s.cleared_cleared vaux

theorem State.pin_afterReset (cold vaux : Bool) : (s.afterReset cold vaux).pin = { s.pin with faultN := true } := by
  rw [s.afterReset_eq]
  rfl

/-- A reset clears, and boot starts at once unless PKG_RST_N is low. -/
theorem State.resetNow_some (cold vaux : Bool) : s.resetNow cold vaux (some b) =
    if s.pin.pkgRstN then (s.afterReset cold vaux).boot b else s.afterReset cold vaux := by
  have hpin : (s.afterReset cold vaux).pin.pkgRstN = s.pin.pkgRstN := by rw [s.pin_afterReset]
  rw [← hpin]
  rfl

theorem State.booted_afterReset (cold vaux : Bool) :
    Booted s b (s.afterReset cold vaux) ((s.afterReset cold vaux).boot b) := by
  apply booted_boot <;> rw [s.afterReset_eq] <;> rfl

/-- What a reset with a boot environment leaves. -/
theorem State.resetNow_does (cold vaux : Bool) : ∃ u, Cleared s u vaux
    ∧ (s.pin.pkgRstN = true → Booted s b u (s.resetNow cold vaux (some b)))
    ∧ (s.pin.pkgRstN = false → s.resetNow cold vaux (some b) = u) := by
  refine ⟨s.afterReset cold vaux, s.cleared_afterReset cold vaux, fun h => ?_, fun h => ?_⟩
  · rw [s.resetNow_some, if_pos h]
    exact s.booted_afterReset b cold vaux
  · rw [s.resetNow_some, if_neg (by simp [h])]

section
variable {s} (e : Option BootEnv)

/-- A power loss prevails over a warm reset (R822). -/
theorem State.warmReset_lost (h : s.pmc.powerLost = true) : s.warmReset e = s := if_pos h

variable (hp : s.pmc.powerLost = false)
include hp

theorem State.warmReset_again {n : Nat} {f : Option BootEnv} (hr : s.resetDue = some (n, f)) :
    s.warmReset e = { s with resetDue := some (n, f.orElse fun _ => e) } := by
  rw [State.warmReset, if_neg (by simp [hp]), hr]

theorem State.warmReset_defers (hr : s.resetDue = none) (hc : s.committing = true) :
    s.warmReset e = { s with resetDue := some (0, e) } := by
  rw [State.warmReset, if_neg (by simp [hp]), hr]
  exact if_pos hc

theorem State.warmReset_now (hr : s.resetDue = none) (hc : s.committing = false) :
    s.warmReset e = s.resetNow false false e := by
  rw [State.warmReset, if_neg (by simp [hp]), hr]
  exact if_neg (by simp [hc])

end

/-- The package once a mismatch has driven FAULT_N (R823). -/
def State.faulted : State := { s with pin := { s.pin with faultN := false } }

/-- The package once a mismatch has driven FAULT_N and written its crash slot (R823). -/
def State.mismatched : State := (s.faulted.latch 0).crashSlot (s.faulted.haltPayload 0)

theorem State.committing_congr {s a : State} (hr : a.resident = s.resident) (hc : a.ctx = s.ctx) :
    a.committing = s.committing := by
  have hcur : a.cur = s.cur := by simp only [State.cur, State.ctxAt, hr, hc]
  rw [State.committing, State.committing, hcur]

theorem State.latch_zero_faulted : s.faulted.latch 0 = { s with
    pin := { s.pin with faultN := false },
    sb := { s.sb with events := s.sb.events ||| 1#8, ibi := (s.faulted.latch 0).sb.ibi } } := rfl

theorem State.crashSlot_eq (payload : Bytes) : s.crashSlot payload = { s with
    mem := (s.crashSlot payload).mem, flt := { s.flt with crashNext := s.flt.crashNext + 1 } } := rfl

theorem State.mismatched_eq : s.mismatched = { s with
    mem := s.mismatched.mem, pin := { s.pin with faultN := false },
    sb := { s.sb with events := s.sb.events ||| 1#8, ibi := s.mismatched.sb.ibi },
    flt := { s.flt with crashNext := s.flt.crashNext + 1 } } := by
  unfold State.mismatched
  generalize s.faulted.haltPayload 0 = payload
  rw [State.crashSlot_eq, s.latch_zero_faulted]

theorem State.committing_mismatched : s.mismatched.committing = s.committing := by
  rw [s.mismatched_eq]
  exact State.committing_congr rfl rfl

theorem State.pmc_mismatched : s.mismatched.pmc = s.pmc := by rw [s.mismatched_eq]

theorem State.flash_crashSlot (payload : Bytes) : ((s.crashSlot payload).mem.flashA, (s.crashSlot payload).mem.flashB)
    = (s.mem.flashA, s.mem.flashB) := rfl

theorem State.flash_mismatched : (s.mismatched.mem.flashA, s.mismatched.mem.flashB) = (s.mem.flashA, s.mem.flashB) := by
  unfold State.mismatched
  generalize s.faulted.haltPayload 0 = payload
  rw [State.flash_crashSlot, s.latch_zero_faulted]

theorem State.fuse_mismatched : s.mismatched.fuse = s.fuse := by rw [s.mismatched_eq]

theorem State.pending_mismatched : s.mismatched.pending = s.pending := by rw [s.mismatched_eq]

theorem State.resetDue_mismatched : s.mismatched.resetDue = s.resetDue := by rw [s.mismatched_eq]

theorem exec_lockstepMismatch (h : s.pmc.powerLost = false) :
    exec (.lockstepMismatch b) s = .next (s.mismatched.warmReset (some b)) := if_neg (by simp [h])

/-- The package with PKG_RST_N at a level. -/
def State.withRstN (high : Bool) : State := { s with pin := { s.pin with pkgRstN := high } }

theorem exec_pllLockLoss : exec (.pllLockLoss b) s = .next (s.warmReset (some b)) := rfl

theorem exec_warmReset : exec .warmReset s = .next ((s.withRstN false).warmReset none) := rfl

section
variable {s} {b} (hp : s.pmc.powerLost = false)
include hp

theorem warmReset_does (hr : s.resetDue = none) (hc : s.committing = false) :
    ∃ u, exec .warmReset s = .next u ∧ Cleared s u false ∧ u.pin = { s.pin with pkgRstN := false, faultN := true } := by
  refine ⟨_, (exec_warmReset s).trans (congrArg _ (State.warmReset_now _ hp hr hc)),
    (s.withRstN false).cleared_afterReset false false, (s.withRstN false).pin_afterReset false false⟩

theorem pllLockLoss_does (hr : s.resetDue = none) (hc : s.committing = false) :
    ∃ u t, exec (.pllLockLoss b) s = .next t ∧ Cleared s u false ∧ (s.pin.pkgRstN = true → Booted s b u t)
      ∧ (s.pin.pkgRstN = false → t = u) := by
  obtain ⟨u, cleared, booted, held⟩ := s.resetNow_does b false false
  exact ⟨u, _, (exec_pllLockLoss s b).trans (congrArg _ (State.warmReset_now _ hp hr hc)), cleared, booted, held⟩

theorem exec_pkgRstNRelease (h : s.pin.pkgRstN = false) : exec (.pkgRstNRelease b) s =
    .next (if s.resetDue.isSome then (s.withRstN true).warmReset (some b) else (s.withRstN true).boot b) := by
  refine (if_neg (by simp [h])).trans ((if_neg (by simp [hp])).trans ?_)
  split <;> rfl

theorem lockstepMismatch_boots (hr : s.resetDue = none) (hc : s.committing = false) (h : s.pin.pkgRstN = true) :
    ∃ t, exec (.lockstepMismatch b) s = .next t ∧ Booted s b s t ∧ t.resident = none := by
  have hp' : s.mismatched.pmc.powerLost = false := by rw [s.pmc_mismatched, hp]
  have hc' : s.mismatched.committing = false := by rw [s.committing_mismatched, hc]
  have hr' : s.mismatched.resetDue = none := by rw [s.resetDue_mismatched, hr]
  refine ⟨_, (exec_lockstepMismatch s b hp).trans (congrArg _ (State.warmReset_now _ hp' hr' hc')), ?_⟩
  rw [State.resetNow_some, if_pos (by rw [s.mismatched_eq]; exact h)]
  obtain ⟨-, resident, -, -, -, -, -, -, -, -, -, -, -, -, flash, fuse, pending, -⟩ :=
    s.mismatched.cleared_afterReset false false
  generalize s.mismatched.afterReset false false = u at resident flash fuse pending ⊢
  obtain ⟨-, -, resident', -⟩ := u.boot_kept b
  have hbooted : Booted s b u (u.boot b) :=
    booted_boot b (pending.trans s.pending_mismatched) (fuse.trans s.fuse_mismatched)
  exact ⟨hbooted.of_flash (congrArg b.flash.getD (flash.trans s.flash_mismatched)), resident'.trans resident⟩

end

end

/-- Settles O59, by what each reset comes to: it is refused, deferred, or clears the package and boots it. The model's
choices that it states are those of assumption log 14 (FAULT_N is high after a reset), 67 (how a deferred reset waits)
and 69 (the mismatch's crash slot). -/
theorem resetsAndBoot : Obligations.ResetsAndBoot := by
  unfold Obligations.ResetsAndBoot
  intro s b
  refine ⟨?_, fun hp hr hc => ?_, fun hp hr hc => ?_, fun hp => ?_, fun h => if_pos h,
    fun h hp => ⟨fun hr => ?_, fun n hr => ?_⟩, fun hp hr hc => ?_, fun hp hr hc h => ?_⟩
  · obtain ⟨u, cleared, booted, held⟩ := s.resetNow_does b true true
    exact ⟨u, _, rfl, cleared, booted, held⟩
  · exact ⟨warmReset_does hp hr hc, pllLockLoss_does hp hr hc⟩
  · exact ⟨(exec_warmReset s).trans (congrArg _ (State.warmReset_defers _ hp hr hc)),
      congrArg _ (State.warmReset_defers _ hp hr hc)⟩
  · exact ⟨(exec_warmReset s).trans (congrArg _ (State.warmReset_lost _ hp)), congrArg _ (State.warmReset_lost _ hp),
      if_pos hp⟩
  · refine ⟨_, (exec_pkgRstNRelease hp h).trans (congrArg _ (if_neg (by simp [hr]))), ?_⟩
    exact booted_boot b rfl rfl
  · exact (exec_pkgRstNRelease hp h).trans (congrArg _ ((if_pos (by simp [hr])).trans
      (State.warmReset_again (s := s.withRstN true) (some b) hp hr)))
  · have hp' : s.mismatched.pmc.powerLost = false := by rw [s.pmc_mismatched, hp]
    have hc' : s.mismatched.committing = true := by rw [s.committing_mismatched, hc]
    have hr' : s.mismatched.resetDue = none := by rw [s.resetDue_mismatched, hr]
    refine ⟨_, (exec_lockstepMismatch s b hp).trans (congrArg _ (State.warmReset_defers _ hp' hr' hc')), ?_⟩
    rw [s.mismatched_eq]
    exact ⟨rfl, rfl, rfl, rfl, rfl⟩
  · exact lockstepMismatch_boots hp hr hc h

/-! ## Loss and return of power (R806, R807, R899) -/

/-- Only engines, cores, crossings and collectives differ. -/
def Stopped (s t : State) : Prop := t = { s with eng := t.eng, core := t.core, net := t.net, cx := t.cx }

theorem Stopped.refl (s : State) : Stopped s s := rfl

theorem Stopped.trans {s t u : State} (h : Stopped s t) (h' : Stopped t u) : Stopped s u := by
  unfold Stopped at h'
  rw [h] at h'
  exact h'

theorem Stopped.foldl {α : Type} {s t : State} {op : State → α → State} (h : Stopped s t)
    (hop : ∀ a x, Stopped a (op a x)) (l : List α) : Stopped s (l.foldl op t) :=
  List.foldlRecOn l op (motive := Stopped s) h fun _ ha x _ => ha.trans (hop _ x)

section
variable (s : State)

theorem State.stopped_freeChunk (k : RxChunk) : Stopped s (s.freeChunk k) := by
  unfold State.freeChunk State.freeOf State.freeBuffer
  split
  · dsimp only
    split
    · rfl
    · split <;> rfl
  · rfl

theorem State.stopped_setNet (n : NetSt) : Stopped s { s with net := n } := rfl

theorem State.stopped_stopCx (n : BitVec 64) (die : Nat) : Stopped s (s.stopCx n die) := rfl

theorem State.stopped_dropRx : Stopped s s.dropRx :=
  .trans (.foldl (.refl s) State.stopped_freeChunk _) (State.stopped_setNet ..)

theorem State.stopped_stopStep (n : BitVec 64) : Stopped s (s.stopStep n) := by
  have h (e : Tbl EngSt) (c : Tbl CoreSt) : Stopped s ({ s with eng := e, core := c } : State).dropRx :=
    .trans (t := { s with eng := e, core := c }) rfl (State.stopped_dropRx _)
  exact .foldl (.trans (h ..) (State.stopped_setNet ..)) (fun a d => a.stopped_stopCx n d) _

/-- A step once power is lost (R807). -/
def StepSt.lost (t : StepSt) : StepSt :=
  if t.held then t else { t with st := .aborted, restoring := false, restored := false }

theorem StepSt.held_lost (t : StepSt) : t.lost.held = t.held := by
  unfold StepSt.lost
  split
  · rfl
  · next h => exact (Bool.eq_false_of_not_eq_true h).symm

theorem StepSt.no_lost (t : StepSt) : t.lost.no = t.no := by
  unfold StepSt.lost
  split <;> rfl

/-- The resident context once power is lost (R807). -/
def CtxSt.lost (x : CtxSt) : CtxSt := { x with next := none, steps := x.steps.map StepSt.lost }

theorem CtxSt.any_held_lost (x : CtxSt) : x.lost.steps.any StepSt.held = x.steps.any StepSt.held := by
  rw [CtxSt.lost, List.any_map]
  exact congrArg x.steps.any (funext StepSt.held_lost)

theorem CtxSt.map_no_lost (x : CtxSt) : x.lost.steps.map (·.no) = x.steps.map (·.no) := by
  rw [CtxSt.lost, List.map_map]
  exact List.map_congr_left fun t _ => t.no_lost

theorem CtxSt.filter_held_lost (x : CtxSt) : x.lost.steps.filter StepSt.held = x.steps.filter StepSt.held := by
  rw [CtxSt.lost, List.filter_map, show StepSt.held ∘ StepSt.lost = StepSt.held from funext StepSt.held_lost]
  refine (List.map_congr_left fun t ht => ?_).trans (List.map_id _)
  exact if_pos (List.mem_filter.mp ht).2

theorem CtxSt.aborted_of_mem_lost {x : CtxSt} {k : StepSt} (h : k ∈ x.lost.steps) (hk : k.held = false) :
    k.st = .aborted := by
  obtain ⟨t, -, rfl⟩ := List.mem_map.mp h
  rw [t.held_lost] at hk
  rw [StepSt.lost, if_neg (by simp [hk])]

variable {s} in
theorem State.ctxAt_of_cur {c : Fin 4} {x : CtxSt} (h : s.cur = some (c, x)) : s.ctxAt c.val = x := by
  obtain ⟨d, -, heq⟩ := Option.map_eq_some_iff.mp h
  obtain ⟨rfl, rfl⟩ := Prod.mk.inj heq
  rfl

theorem State.loseSteps_none (h : s.cur = none) : s.loseSteps = s := by rw [State.loseSteps, h]

variable {s} in
theorem State.loseSteps_eq {c : Fin 4} {x : CtxSt} (h : s.cur = some (c, x)) :
    ∃ a, Stopped s a ∧ s.loseSteps = a.modCtx c.val CtxSt.lost := by
  refine ⟨_, .foldl (op := fun (a : State) (t : StepSt) => if t.held then a else a.stopStep t.no) (.refl s)
    (fun a t => ?_) x.steps, ?_⟩
  · split
    · exact rfl
    · exact a.stopped_stopStep t.no
  · rw [State.loseSteps, h]
    rfl

end

section
variable (s : State) (vaux : Bool)

/-- The package with the sideband reset where VAUX is lost (R899). -/
def State.sbReset : State :=
  if vaux then { s with sb := .reset, pmc := { s.pmc with sbWin := .off, sbRail := .off } } else s

/-- The package once the loss of power has stopped the steps, before what is not kept is gone. -/
def State.losing : State :=
  let u := (s.sbReset vaux).loseSteps
  { u with resetDue := none, pmc := { u.pmc with powerLost := true, dieOff := List.range u.dies } }

theorem exec_powerLoss_again (h : s.pmc.powerLost = true) : exec (.powerLoss vaux) s = .next (s.sbReset vaux) :=
  if_pos h

theorem exec_powerLoss (h : s.pmc.powerLost = false) : exec (.powerLoss vaux) s =
    .next (if (s.losing vaux).committing then s.losing vaux else (s.losing vaux).powerOff false) :=
  if_neg (by simp [h])

/-- What the loss of power clears, and what it keeps. -/
def PowerOff (s t : State) : Prop :=
  t.ctx = [] ∧ t.resident = none ∧ t.rings = [] ∧ t.pmc.powerLost = true
    ∧ t.pmc.dieOff = List.range s.dies ∧ t.mem.host = s.mem.host ∧ t.fuse = s.fuse ∧ t.pending = s.pending

/-- What the sideband keeps at the loss of power. -/
def SidebandLost (s t : State) (vaux : Bool) : Prop :=
  if vaux then t.sb = .reset ∧ t.pmc.sbWin = .off ∧ t.pmc.sbRail = .off
  else t.sb = s.sb ∧ t.pmc.sbWin = s.pmc.sbWin ∧ t.pmc.sbRail = s.pmc.sbRail

theorem State.sbReset_eq : let t := s.sbReset vaux
    SidebandLost s t vaux
      ∧ t = { s with sb := t.sb, pmc := { s.pmc with sbWin := t.pmc.sbWin, sbRail := t.pmc.sbRail } } := by
  cases vaux <;> exact ⟨⟨rfl, rfl, rfl⟩, rfl⟩

theorem SidebandLost.congr {s t u : State} {vaux : Bool} (h : SidebandLost s t vaux) (hs : u.sb = t.sb)
    (hw : u.pmc.sbWin = t.pmc.sbWin) (hr : u.pmc.sbRail = t.pmc.sbRail) : SidebandLost s u vaux := by
  unfold SidebandLost
  rw [hs, hw, hr]
  exact h

/-- The loss of power changes steps and engines only. -/
theorem State.loseSteps_frame : let t := s.loseSteps
    t = { s with ctx := t.ctx, eng := t.eng, core := t.core, net := t.net, cx := t.cx } := by
  cases h : s.cur with
  | none => rw [s.loseSteps_none h]
  | some p =>
    obtain ⟨a, ha, heq⟩ := State.loseSteps_eq h
    unfold Stopped at ha
    rw [heq]
    generalize a.eng = e, a.core = k, a.net = n, a.cx = x at ha
    rw [ha]
    rfl

/-- What the loss of power leaves while a commit is in progress. -/
theorem State.losing_frame : let t := s.losing vaux
    t.pmc.powerLost = true ∧ t.pmc.dieOff = List.range s.dies ∧ t.resetDue = none ∧ SidebandLost s t vaux
      ∧ t.mem = s.mem ∧ t.fuse = s.fuse ∧ t.pending = s.pending ∧ t.resident = s.resident := by
  obtain ⟨sb, reset⟩ := s.sbReset_eq vaux
  have frame := (s.sbReset vaux).loseSteps_frame
  unfold State.losing
  generalize s.sbReset vaux = a at sb reset frame ⊢
  dsimp only at frame ⊢
  generalize a.loseSteps = u at frame ⊢
  rw [reset] at frame
  rw [frame]
  exact ⟨rfl, rfl, rfl, sb.congr rfl rfl rfl, rfl, rfl, rfl, rfl⟩

variable {s} in
theorem State.ctxAt_losing {c : Fin 4} {x : CtxSt} (h : s.cur = some (c, x)) (k : Nat) :
    (s.losing vaux).ctxAt k = if k = c.val then x.lost else s.ctxAt k := by
  have hctx (j : Nat) : (s.sbReset vaux).ctxAt j = s.ctxAt j := by
    rw [(s.sbReset_eq vaux).2]
    rfl
  have hcur : (s.sbReset vaux).cur = some (c, x) := by
    rw [← h, State.cur, State.cur, funext fun d : Fin 4 => congrArg (Prod.mk d) (hctx d.val), (s.sbReset_eq vaux).2]
  have hx : s.ctxAt c.val = x := State.ctxAt_of_cur h
  obtain ⟨a, ha, heq⟩ := State.loseSteps_eq hcur
  have hstop (j : Nat) : a.ctxAt j = s.ctxAt j := by
    rw [← hctx, ha]
    rfl
  have hlose : (s.losing vaux).ctxAt k = (s.sbReset vaux).loseSteps.ctxAt k := rfl
  rw [hlose, heq, State.ctxAt_modCtx, hstop, hstop, hx]

theorem State.losing_committing : (s.losing vaux).committing = s.committing := by
  obtain ⟨-, -, -, -, -, -, -, hres⟩ := s.losing_frame vaux
  cases h : s.resident with
  | none => simp only [State.committing, State.cur, hres, h, Option.map_none]
  | some c =>
    have hcur : s.cur = some (c, s.ctxAt c.val) := by rw [State.cur, h, Option.map_some]
    have hlost := State.ctxAt_losing vaux hcur c.val
    rw [if_pos rfl] at hlost
    simp only [State.committing, State.cur, hres, h, Option.map_some, hlost]
    exact CtxSt.any_held_lost _

theorem State.powerOff_false : PowerOff s (s.powerOff false) ∧ (s.powerOff false).mem.jd = s.mem.jd
    ∧ SidebandLost s (s.powerOff false) false :=
  ⟨⟨rfl, rfl, rfl, rfl, rfl, rfl, rfl, rfl⟩, rfl, rfl, rfl, rfl⟩

/-- The package's power is gone once no commit is in progress (R807). -/
theorem powerLoss_clears (hp : s.pmc.powerLost = false) (hc : s.committing = false) :
    Does (.powerLoss vaux) s fun t => PowerOff s t ∧ SidebandLost s t vaux ∧ t.mem.jd = s.mem.jd := by
  refine ⟨_, exec_powerLoss s vaux hp, ?_⟩
  rw [if_neg (by rw [s.losing_committing vaux, hc]; decide)]
  obtain ⟨-, -, -, sb, mem, fuse, pending, -⟩ := s.losing_frame vaux
  generalize s.losing vaux = u at sb mem fuse pending ⊢
  obtain ⟨⟨ctx, resident, rings, lost, off, host, fuse', pending'⟩, jd, sb', win, rail⟩ := u.powerOff_false
  have hdies : u.dies = s.dies := by rw [State.dies, State.dies, fuse]
  exact ⟨⟨ctx, resident, rings, lost, off.trans (by rw [hdies]), host.trans (by rw [mem]), fuse'.trans fuse,
    pending'.trans pending⟩, sb.congr sb' win rail, jd.trans (by rw [mem])⟩

/-- A commit in progress goes on and everything else stops (R807). -/
theorem powerLoss_commits (hp : s.pmc.powerLost = false) (hc : s.committing = true) :
    Does (.powerLoss vaux) s fun t =>
      t.pmc.powerLost = true ∧ t.pmc.dieOff = List.range s.dies ∧ t.resetDue = none ∧ SidebandLost s t vaux
      ∧ t.mem = s.mem ∧ ∀ c x, s.cur = some (c, x) → (t.ctxAt c.val).next = none
        ∧ (t.ctxAt c.val).steps.map (·.no) = x.steps.map (·.no)
        ∧ (t.ctxAt c.val).steps.filter StepSt.held = x.steps.filter StepSt.held
        ∧ (∀ k, k ∈ (t.ctxAt c.val).steps → k.held = false → k.st = .aborted) ∧ OtherContexts s t c.val := by
  refine ⟨_, exec_powerLoss s vaux hp, ?_⟩
  rw [if_pos (by rw [s.losing_committing vaux, hc])]
  obtain ⟨lost, off, due, sb, mem, -, -, -⟩ := s.losing_frame vaux
  refine ⟨lost, off, due, sb, mem, fun c x h => ?_⟩
  have hlost := State.ctxAt_losing vaux h
  have hc := hlost c.val
  rw [if_pos rfl] at hc
  rw [hc]
  exact ⟨rfl, x.map_no_lost, x.filter_held_lost, fun k => CtxSt.aborted_of_mem_lost,
    fun k hk => (hlost k).trans (if_neg hk)⟩

/-- A bus at or below 1.40 V ends a commit in progress (R807). -/
theorem regulatorSample_ends {xs : List TileSample} (hp : s.pmc.powerLost = true)
    (hx : ∃ i x, i < s.dies ∧ xs[i]? = some x ∧ x.vib ≤ 1400) :
    Does (.regulatorSample xs) s fun t => PowerOff s t ∧ t.mem.jd = s.mem.jd := by
  obtain ⟨i, x, hi, hxi, hv⟩ := hx
  have hvib : ((s.sampled xs).tileAt i).vib ≤ 1400 := by
    rw [s.tileAt_sampled hi hxi]
    exact hv
  obtain ⟨-, -, frame⟩ := s.sampled_eq xs
  dsimp only at frame
  have hlost : (s.sampled xs).pmc.powerLost = true := by
    rw [frame]
    exact hp
  have hdies : (s.sampled xs).dies = s.dies := by
    rw [frame]
    rfl
  have hflat : ((List.range (s.sampled xs).dies).any fun t => decide (((s.sampled xs).tileAt t).vib ≤ 1400)) = true :=
    List.any_eq_true.mpr ⟨i, List.mem_range.mpr (hdies ▸ hi), decide_eq_true hvib⟩
  refine ⟨(s.sampled xs).powerOff false, congrArg Host.Outcome.next (if_pos ⟨hlost, hflat⟩), ?_⟩
  · obtain ⟨off, jd, -⟩ := (s.sampled xs).powerOff_false
    generalize (s.sampled xs).powerOff false = t at off jd ⊢
    rw [frame] at off jd
    exact ⟨off, jd⟩

/-- The end of the commit ends what power still served (R807). -/
theorem commitRecordWritten_ends {c : Fin 4} {ok : Bool} (hr : s.resident = some c) (hc : s.committing = true)
    (hd : (s.commitWritten c.val ok).committing = false) (hp : (s.commitWritten c.val ok).pmc.powerLost = true) :
    Does (.commitRecordWritten c ok) s fun t => t.ctx = [] ∧ t.resident = none ∧ t.pmc.powerLost = true
      ∧ t.mem.jd = (s.commitWritten c.val ok).mem.jd := by
  refine ⟨(s.commitWritten c.val ok).powerOff false, ?_, ?_⟩
  · refine (if_neg (by simp [hr, hc])).trans (congrArg _ ((if_pos hp).trans (if_neg ?_)))
    rw [hd]
    decide
  · obtain ⟨⟨ctx, resident, -, lost, -⟩, jd, -⟩ := (s.commitWritten c.val ok).powerOff_false
    exact ⟨ctx, resident, lost, jd⟩

theorem powerRestore_boots (b : BootEnv) (hp : s.pmc.powerLost = true) (hr : s.pin.pkgRstN = true) :
    Does (.powerRestore b) s fun t => t.pmc.powerLost = false ∧ t.resident = none
      ∧ (t.sec.stage = 5 ↔ (fwChoice s.fuse (s.flashFor b).1 (s.flashFor b).2 ≠ none ∧ b.lockstepOk = true)) := by
  refine ⟨_, congrArg Host.Outcome.next ((if_pos hp).trans ((s.resetNow_some b true false).trans (if_pos hr))), ?_⟩
  have hpmc : (s.afterReset true false).pmc.powerLost = false := by
    rw [s.afterReset_eq]
    rfl
  obtain ⟨-, resident, -, -, -, -, -, -, -, -, -, -, -, -, flash, -, -, -⟩ := s.cleared_afterReset true false
  obtain ⟨-, -, started, lockstep, none⟩ := (s.booted_afterReset b true false).of_flash (v := s)
    (congrArg b.flash.getD flash)
  obtain ⟨-, -, resident', pmc⟩ := (s.afterReset true false).boot_kept b
  refine ⟨(congrArg PmcSt.powerLost pmc).trans hpmc, resident'.trans resident, ?_⟩
  cases h : fwChoice s.fuse (s.flashFor b).1 (s.flashFor b).2 with
  | none => simp [(none h).1]
  | some p =>
    cases hl : b.lockstepOk with
    | false => simp [(lockstep p.1 p.2 h hl).1]
    | true => simp [(started p.1 p.2 h hl).1]

end

/-- Settles O60, by whether a commit is in progress when power is lost. What the loss clears and when, and that power
that returns is a cold reset, is the model's choice (assumption log 67). -/
theorem powerLossEndsEverythingButACommit : Obligations.PowerLossEndsEverythingButACommit := by
  unfold Obligations.PowerLossEndsEverythingButACommit
  intro s vaux
  exact ⟨powerLoss_clears s vaux, powerLoss_commits s vaux,
    fun hp => ⟨_, exec_powerLoss_again s vaux hp, s.sbReset_eq vaux⟩, fun xs => regulatorSample_ends s,
    fun c ok _ => commitRecordWritten_ends s, fun b => powerRestore_boots s b,
    fun b hp => congrArg _ (if_neg (by simp [hp]))⟩

end Sys2Proof.Machine
end

section
/-! Keyed sequences, lock registers, LSEC keys and the debug path (O53). -/

namespace Sys2Proof.Machine

/-! ## Places of Town Hall's registers (R852, R862) -/

section
variable (s : State) {a : Agent} {off : Nat}

theorem State.place_town (h : off < 0x400000) : s.place (0x1004C0000000 + off) = .reg 4 off := by
  have hb : ¬(0x1004C0000000 + off < s.hbmBytes) := by
    unfold State.hbmBytes
    split <;> omega
  have ha : ¬(0x1004C0000000 + off < 0x100000000000) := by omega
  have hu : (0x1004C0000000 + off - 0x100000000000) / 2 ^ 32 = 4 := by omega
  have ho : (0x1004C0000000 + off) % 2 ^ 32 = 0xC0000000 + off := by omega
  have hoff : 0xC0000000 + off < 0xC1000000 := by omega
  have hwin : 0xC0000000 + off - 0xC0000000 = off := by omega
  simp only [State.place, if_neg hb, if_neg ha, hu, ho, hoff, hwin]
  simp [State.unitOn]

/-- Every agent that reaches the register windows finds a register of Town Hall at its place. -/
theorem State.busPlace_town (h : off < 0x400000) (hh : a = .host → s.ready = true)
    (hd : a = .debug → s.sec.scope.getLsbD 1 = true) : s.busPlace a (townAddr a off) = .reg 4 off false := by
  have hbar : (BitVec.ofNat 26 off).toNat = off := Nat.mod_eq_of_lt (by omega)
  have hphys : (BitVec.ofNat 48 (0x1004C0000000 + off)).toNat = 0x1004C0000000 + off := Nat.mod_eq_of_lt (by omega)
  have hwin : off < 0x800000 := by omega
  cases a with
  | host => simp only [State.busPlace, townAddr, barPlace, hbar, hh rfl, if_pos hwin, Bool.true_or, if_true]
  | debug =>
    simp only [State.busPlace, townAddr, hphys, s.place_town h, hd rfl, if_pos hwin, Bool.not_true, Bool.false_eq_true,
      and_false, if_false]
  | control | service =>
    simp only [State.busPlace, townAddr, hphys, s.place_town h, if_pos hwin, reduceCtorEq, false_and, if_false]

theorem busAligned_town (h : off < 0x400000) (h4 : off % 4 = 0) : busAligned (townAddr a off) false = true := by
  have hbar : (BitVec.ofNat 26 off).toNat = off := Nat.mod_eq_of_lt (by omega)
  have hphys : (BitVec.ofNat 48 (0x1004C0000000 + off)).toNat = 0x1004C0000000 + off := Nat.mod_eq_of_lt (by omega)
  have hmod : (0x1004C0000000 + off) % 4 = 0 := by omega
  cases a <;> simp [busAligned, townAddr, hbar, hphys, h4, hmod]

theorem lockAddr_lsec (a : Agent) : lockAddr a .lsec = townAddr a 0x0148 := by cases a <;> rfl

/-- A write of a 32-bit register of Town Hall that no other agent's sequence names. -/
theorem State.busWrite_town {g : Reg} {v : BitVec 32} (h : off < 0x400000) (h4 : off % 4 = 0)
    (hh : a = .host → s.ready = true) (hd : a = .debug → s.sec.scope.getLsbD 1 = true)
    (hg : s.regAt 4 off = some g) (hw : g.wide = false) (hk : s.keyedAway a 4 off = false) :
    s.busWrite a (townAddr a off) false (BitVec.ofNat 64 v.toNat) = s.accessWrite a 4 off g v.toNat (2 ^ 32 - 1) := by
  have hv : (BitVec.ofNat 64 v.toNat).toNat % 2 ^ 32 = v.toNat := by
    rw [BitVec.toNat_ofNat]
    omega
  simp only [State.busWrite, busAligned_town h h4, s.busPlace_town h hh hd, Nat.not_le.mpr h, State.write32, hg, hw, hk,
    hv, Bool.not_true, Bool.false_eq_true, decide_false, Bool.or_false, Bool.not_false, if_true, if_false]

/-! ## The registers that take a keyed write, and the key (R848, R849) -/

theorem State.regAt_town (h : linkReg 0 off = none) {g : Reg}
    (ht : townReg s.links (if s.ios = 2 then 4 else 1) off = some g) : s.regAt 4 off = some g := by
  simp [State.regAt, State.unitOn, h, ht]

theorem State.regAt_keySeq : s.regAt 4 0x0008 = some .keySeq := by
  refine s.regAt_town (by decide) ?_
  simp [townReg, regIdx]

theorem State.regAt_lsecLock : s.regAt 4 0x0148 = some .lsecLock := by
  refine s.regAt_town (by decide) ?_
  simp [townReg, regIdx]

theorem State.regAt_lsecCtl (c : Fin 4) : s.regAt 4 (0x0100 + 4 * c.val) = some (.lsecCtl c.val) := by
  have hl : linkReg 0 (0x0100 + 4 * c.val) = none := by
    revert c
    decide
  refine s.regAt_town hl ?_
  simp [townReg, regIdx]

/-! ## Writes by the standing of the sequence (R837-R839) -/

variable {s} in
/-- A write with no other agent's window open and no sequence of its own. -/
theorem State.accessWrite_plain {u : Nat} {g : Reg} {v mask : Nat} (hk : s.keyedAway a u off = false)
    (hu : s.keyUse a u off = .plain) :
    s.accessWrite a u off g v mask = (s.rsvWrite u off g v mask).regWrite a g false v mask := by
  rw [State.accessWrite, if_neg (by simp [hk]), hu]

section
variable {k : KeySeq} (hs : s.sec.seq = some k) (ha : k.agent = a)
include hs ha

/-- An agent's own sequence keeps it from no register. -/
theorem State.keyedAway_own (u : Nat) : s.keyedAway a u off = false := by
  simp [State.keyedAway, hs, ha]

/-- A keyed write in its window. -/
theorem State.accessWrite_keyed {u : Nat} {g : Reg} {v mask : Nat} (hu : k.unit = u) (ht : k.target = off)
    (hl : k.live = true) : s.accessWrite a u off g v mask =
      ((s.modSec fun c => { c with seq := none }).rsvWrite u off g v mask).regWrite a g true v mask := by
  have huse : s.keyUse a u off = .keyed := by simp [State.keyUse, hs, ha, hu, ht, hl]
  rw [State.accessWrite, if_neg (by simp [s.keyedAway_own hs ha]), huse]

end

/-! ## The key (R848, R913) -/

section
variable (a : Agent) (v : BitVec 32)

/-- Whether another agent's sequence is open. -/
def State.seqTaken : Prop := ∃ k, s.sec.seq = some k ∧ k.live = true ∧ k.agent ≠ a

theorem State.keyWrite_taken (n : Nat) (h : s.seqTaken a) : s.keyWrite a n = s.lockBusy a := by
  obtain ⟨k, hs, hl, ha⟩ := h
  simp [State.keyWrite, hs, hl, ha]

theorem State.keyWrite_free (n : Nat) (h : ¬s.seqTaken a) : s.keyWrite a n =
    if bits n 31 24 = 0xA5 ∧ (s.regAt (bits n 23 21) (4 * bits n 20 0)).any Reg.keyed then
      s.modSec fun c =>
        { c with seq := some { agent := a, unit := bits n 23 21, target := 4 * bits n 20 0, count := 0 } }
    else s.modSec fun c => { c with seq := none, seqFail := true } := by
  cases hs : s.sec.seq with
  | none =>
    simp only [State.keyWrite, hs, Bool.false_eq_true, if_false]
    rfl
  | some k =>
    have hk : (k.live && k.agent != a) = false :=
      Bool.eq_false_of_not_eq_true fun hk => h ⟨k, hs, by simpa using hk⟩
    simp only [State.keyWrite, hs, hk, Bool.false_eq_true, if_false]
    rfl

variable {a} in
theorem exec_keyWrite (hh : a = .host → s.ready = true) (hd : a = .debug → s.sec.scope.getLsbD 1 = true)
    (hk : s.keyedAway a 4 8 = false) (hu : s.keyUse a 4 8 = .plain) :
    exec (.keyWrite a v) s = .next (s.keyWrite a v.toNat) := by
  refine congrArg Host.Outcome.next ((s.busWrite_town (by decide) (by decide) hh hd s.regAt_keySeq rfl hk).trans ?_)
  rw [State.accessWrite_plain hk hu]
  rfl

end

/-! ## LSEC_LOCK (R849, R914) -/

section
variable {v : BitVec 32}

theorem bitOf_toNat (w : Nat) (v : BitVec w) (i : Nat) : bitOf v.toNat i = v.getLsbD i := BitVec.testBit_toNat v

theorem LockSt.write_keyed {l : LockSt} {n : Nat} (hv : bitOf n 0 = true) :
    (l.write true n).1.lock = true ∧ (l.write true n).2 = false := by
  simp [LockSt.write, hv]

theorem LockSt.write_plain {l : LockSt} {n : Nat} (hv : bitOf n 0 = true) (hl : l.lock = false) :
    (l.write false n).1.lock = false ∧ (l.write false n).2 = true := by
  simp [LockSt.write, hv, hl]

theorem State.regWrite_lsecLock_keyed {n : Nat} (mask : Nat) (hv : bitOf n 0 = true) :
    s.regWrite a .lsecLock true n mask = { s with lsecLock := (s.lsecLock.write true n).1 } :=
  if_neg (by simp [(LockSt.write_keyed (l := s.lsecLock) hv).2])

theorem State.regWrite_lsecLock_plain {n : Nat} (mask : Nat) (hv : bitOf n 0 = true) (hl : s.lsecLock.lock = false) :
    s.regWrite a .lsecLock false n mask = ({ s with lsecLock := (s.lsecLock.write false n).1 } : State).seqFail :=
  if_pos (LockSt.write_plain hv hl).2

variable (hh : a = .host → s.ready = true) (hd : a = .debug → s.sec.scope.getLsbD 1 = true) (hv : v.getLsbD 0 = true)
include hh hd hv

theorem keyedLockWrite_locks {k : KeySeq} (hs : s.sec.seq = some k) (ha : k.agent = a) (hu : k.unit = 4)
    (ht : k.target = 0x0148) (hl : k.live = true) :
    Does (.keyedLockWrite a .lsec v) s fun t => t.lsecLock.lock = true ∧ t.sec = { s.sec with seq := none }
      ∧ t = { s with lsecLock := t.lsecLock, sec := t.sec, rsv := t.rsv } := by
  have hbit : bitOf v.toNat 0 = true := (bitOf_toNat 32 v 0).trans hv
  have hw : exec (.keyedLockWrite a .lsec v) s = .next (s.accessWrite a 4 0x0148 .lsecLock v.toNat (2 ^ 32 - 1)) := by
    dsimp only [exec, execKeyedLockWrite]
    rw [lockAddr_lsec, s.busWrite_town (by decide) (by decide) hh hd s.regAt_lsecLock rfl (s.keyedAway_own hs ha 4)]
  refine ⟨_, hw, ?_⟩
  rw [s.accessWrite_keyed hs ha hu ht hl, State.rsvWrite_eq, State.regWrite_lsecLock_keyed _ _ hbit]
  exact ⟨(LockSt.write_keyed hbit).1, rfl, rfl⟩

theorem keyedLockWrite_fails (hl : s.lsecLock.lock = false) (hs : s.sec.seq = none) :
    Does (.keyedLockWrite a .lsec v) s fun t => t.lsecLock.lock = false ∧ t.sec = { s.sec with seqFail := true }
      ∧ t = { s with lsecLock := t.lsecLock, sec := t.sec, rsv := t.rsv } := by
  have hbit : bitOf v.toNat 0 = true := (bitOf_toNat 32 v 0).trans hv
  have hk : s.keyedAway a 4 0x0148 = false := by simp [State.keyedAway, hs]
  have hu : s.keyUse a 4 0x0148 = .plain := by simp [State.keyUse, hs]
  have hw : exec (.keyedLockWrite a .lsec v) s = .next (s.accessWrite a 4 0x0148 .lsecLock v.toNat (2 ^ 32 - 1)) := by
    dsimp only [exec, execKeyedLockWrite]
    rw [lockAddr_lsec, s.busWrite_town (by decide) (by decide) hh hd s.regAt_lsecLock rfl hk]
  refine ⟨_, hw, ?_⟩
  rw [State.accessWrite_plain hk hu, State.rsvWrite_eq, State.regWrite_lsecLock_plain (hv := hbit)]
  · exact ⟨(LockSt.write_plain hbit hl).1, rfl, rfl⟩
  · exact hl

end

/-! ## LSEC_CTL (R832, R833) -/

/-- A context's LSEC once a staged key is taken with a write of LSEC_CTL. -/
def CtxSt.keyed (x : CtxSt) (v : Nat) (key : BitVec 256) (job : BitVec 16) : CtxSt :=
  { x with lsec := { x.lsec with en := bitOf v 0, hs := bitOf v 1, key := key, keyJob := job, valid := true } }

theorem State.ctxAt_modSec (f : SecSt → SecSt) (k : Nat) : (s.modSec f).ctxAt k = s.ctxAt k := rfl

theorem State.loadKey_taken {c : Nat} (h : (s.ctxAt c).st ≠ .stepping) : s.loadKey c =
    (s.modCtx c fun x => { x with lsec := { x.lsec with
        key := stagedKey s.sec.stageKey, keyJob := s.sec.stageJob, valid := true } }).modSec
      fun e => { e with stageKey := List.replicate 8 0#32 } :=
  if_pos h

theorem State.lsecWrite_load {c n : Nat} (hl : s.lsecLock.lock = false) (hv : bitOf n 2 = true)
    (hst : (s.ctxAt c).st ≠ .stepping) : let t := s.lsecWrite c true n
    t.ctxAt c = (s.ctxAt c).keyed n (stagedKey s.sec.stageKey) s.sec.stageJob
      ∧ t.sec = { s.sec with stageKey := List.replicate 8 0#32 } ∧ OtherContexts s t c
      ∧ t = { s with ctx := t.ctx, sec := t.sec } := by
  have hw : s.lsecWrite c true n =
      (s.modCtx c fun x => { x with lsec := { x.lsec with en := bitOf n 0, hs := bitOf n 1 } }).loadKey c := by
    simp only [State.lsecWrite, hv, hl, Bool.not_true, Bool.and_false, Bool.false_eq_true, if_false, Bool.and_self,
      if_true]
  dsimp only
  rw [hw, State.loadKey_taken _ (by rw [State.ctxAt_modCtx, if_pos rfl]; exact hst)]
  refine ⟨?_, ?_, fun k hk => ?_, ?_⟩
  · rw [State.ctxAt_modSec, State.ctxAt_modCtx, if_pos rfl, State.ctxAt_modCtx, if_pos rfl]
    rfl
  · rfl
  · rw [State.ctxAt_modSec, State.ctxAt_modCtx, if_neg hk, State.ctxAt_modCtx, if_neg hk]
  · dsimp only [State.modSec, State.modCtx]

theorem lsecLoad_takes {c : Fin 4} {v : BitVec 32} {k : KeySeq} (hh : a = .host → s.ready = true)
    (hd : a = .debug → s.sec.scope.getLsbD 1 = true) (hv : v.getLsbD 2 = true) (hlock : s.lsecLock.lock = false)
    (hs : s.sec.seq = some k) (ha : k.agent = a) (hu : k.unit = 4) (ht : k.target = 0x0100 + 4 * c.val)
    (hl : k.live = true) (hst : (s.ctxAt c.val).st ≠ .stepping) :
    Does (.lsecLoad a c v) s fun t =>
      (t.ctxAt c.val) = { s.ctxAt c.val with lsec := { (s.ctxAt c.val).lsec with
          en := v.getLsbD 0, hs := v.getLsbD 1, key := stagedKey s.sec.stageKey, keyJob := s.sec.stageJob,
          valid := true } }
      ∧ t.sec = { s.sec with seq := none, stageKey := List.replicate 8 0#32 } ∧ OtherContexts s t c.val
      ∧ t = { s with ctx := t.ctx, sec := t.sec, rsv := t.rsv } := by
  have hw : exec (.lsecLoad a c v) s =
      .next (s.accessWrite a 4 (0x0100 + 4 * c.val) (.lsecCtl c.val) v.toNat (2 ^ 32 - 1)) := by
    dsimp only [exec, execLsecLoad]
    rw [s.busWrite_town (by omega) (by omega) hh hd (s.regAt_lsecCtl c) rfl (s.keyedAway_own hs ha 4)]
  refine ⟨_, hw, ?_⟩
  rw [s.accessWrite_keyed hs ha hu ht hl, State.rsvWrite_eq, State.regWrite, ← bitOf_toNat, ← bitOf_toNat]
  generalize (State.rsvWrite _ _ _ _ _ _).rsv = rsv
  obtain ⟨hctx, hsec, hother, hframe⟩ := State.lsecWrite_load
    { s.modSec (fun c => { c with seq := none }) with rsv := rsv } (c := c.val) hlock
    ((bitOf_toNat 32 v 2).trans hv) hst
  generalize State.lsecWrite _ _ _ _ = t at hctx hsec hother hframe ⊢
  refine ⟨hctx, hsec, hother, ?_⟩
  rw [hframe]
  rfl

end

/-! ## The debug path (R842-R844) -/

section
variable (s : State)

theorem debugAgentHalt_does {a : Agent} (hs : s.sec.scope.getLsbD 0 = true) (hd : a ≠ .debug) (hh : a ≠ .host)
    (h : Bool) : Does (.debugAgentHalt a h) s fun t =>
      (a ∈ t.sec.haltedAgents ↔ h = true) ∧ (∀ b, b ≠ a → (b ∈ t.sec.haltedAgents ↔ b ∈ s.sec.haltedAgents))
      ∧ t = { s with sec := { s.sec with haltedAgents := t.sec.haltedAgents } } := by
  refine ⟨_, if_neg (by simp [hs, hd, hh]), ?_, fun b hb => ?_, rfl⟩
  · cases h with
    | true => by_cases hm : a ∈ s.sec.haltedAgents <;> simp [State.modSec, hm]
    | false => simp [State.modSec]
  · cases h with
    | true => by_cases hm : a ∈ s.sec.haltedAgents <;> simp [State.modSec, hm, hb]
    | false => simp [State.modSec, hb]

theorem dbgToken_does {tok : Bytes} (hd : s.sec.dbgDisabled = false) : Does (.dbgToken tok) s fun t =>
    t.sec.challengeNo = s.sec.challengeNo + 1
    ∧ (s.tokenOk tok = true → t.sec.scope = s.sec.scope ||| BitVec.ofNat 16 (fld tok 6 2)
      ∧ t.sec.dbgFails = s.sec.dbgFails)
    ∧ (s.tokenOk tok = false → t.sec.scope = s.sec.scope ∧ t.sec.dbgFails = s.sec.dbgFails + 1)
    ∧ (t.sec.dbgDisabled = true ↔ 3 ≤ t.sec.dbgFails) ∧ t = { s with sec := t.sec } := by
  refine ⟨_, if_neg (by simp [hd]), rfl, fun h => ?_, fun h => ?_, decide_eq_true_iff, rfl⟩
  · rw [h]
    exact ⟨rfl, rfl⟩
  · rw [h]
    exact ⟨rfl, rfl⟩

theorem keyedWindowExpire_does {k : KeySeq} (hs : s.sec.seq = some k) (hc : 64 ≤ k.count)
    (ha : k.agent ∉ s.sec.haltedAgents) : exec .keyedWindowExpire s =
      .next (s.modSec fun c => { c with seq := some { k with count := max k.count 65 } }) := by
  dsimp only [exec, execKeyedWindowExpire]
  rw [hs]
  refine if_neg ?_
  simpa [ha] using hc

end

/-- Settles O53, by how each write stands to the sequence that is open. That a plain write of LOCK sets SEQ_FAIL is
R914's; that token scopes add up (assumption log 55) and that KEYED_WINDOW_EXPIRE ends the window (log 54) is the
model's choice. -/
theorem keyedWritesAndDebug : Obligations.KeyedWritesAndDebug := by
  unfold Obligations.KeyedWritesAndDebug
  intro s a hh hd
  refine ⟨fun v u off hu hoff hk huse => ⟨fun hbusy => ?_, fun hfree hkey hreg => ?_, fun hfree hno => ?_⟩,
    fun v hv hl => ⟨fun k hs ha hu ht hlive => keyedLockWrite_locks s hh hd hv hs ha hu ht hlive,
      fun hs => keyedLockWrite_fails s hh hd hv hl hs⟩,
    fun c v k hv hl hs ha hu ht hlive hst => lsecLoad_takes s hh hd hv hl hs ha hu ht hlive hst,
    fun k hs hc ha => ⟨_, keyedWindowExpire_does s hs hc ha, rfl⟩,
    fun hs hd hh h => debugAgentHalt_does s hs hd hh h, fun tok hd => dbgToken_does s hd, fun tok hd => if_pos hd,
    ⟨_, rfl, rfl⟩⟩
  · rw [exec_keyWrite s v hh hd hk huse, s.keyWrite_taken a _ hbusy]
  · rw [exec_keyWrite s v hh hd hk huse, s.keyWrite_free a _ hfree, ← hu, ← hoff, if_pos ⟨hkey, hreg⟩]
  · rw [exec_keyWrite s v hh hd hk huse, s.keyWrite_free a _ hfree, ← hu, ← hoff, if_neg hno]

end Sys2Proof.Machine
end

section
/-! FAULT_REPORT (O32): what a report records, and how it aborts the steps that it tags. -/

namespace Sys2Proof.Machine

/-! ## What sends and events leave (R469-R475, R645-R652) -/

/-- Only the links and their messages differ. -/
def Sent (s t : State) : Prop := t = { s with net := t.net }

theorem Sent.refl (s : State) : Sent s s := rfl

theorem Sent.trans {s t u : State} (h : Sent s t) (h' : Sent t u) : Sent s u := by
  unfold Sent at h'
  rw [h] at h'
  exact h'

theorem Sent.foldl {α : Type} {s t : State} {op : State → α → State} (h : Sent s t)
    (hop : ∀ a x, Sent a (op a x)) (l : List α) : Sent s (l.foldl op t) :=
  List.foldlRecOn l op (motive := Sent s) h fun _ ha x _ => ha.trans (hop _ x)

/-- Only what a completion entry goes to differs: the rings, the host's memory and the interrupts. -/
def Told (s t : State) : Prop := t = { s with mem := t.mem, rings := t.rings, msix := t.msix }

theorem Told.trans {s t u : State} (h : Told s t) (h' : Told t u) : Told s u := by
  unfold Told at h'
  rw [h] at h'
  exact h'

section
variable (s : State)

theorem State.sent_sendOn (g vc cls phase : Nat) (dst : Vec3) (payload : Bytes) :
    Sent s (s.sendOn g vc cls phase dst payload) := by
  unfold State.sendOn
  split
  · split <;> rfl
  · rfl

theorem State.sent_sendTo (vc cls phase : Nat) (dst : Vec3) (payload : Bytes) :
    Sent s (s.sendTo vc cls phase dst payload) := by
  unfold State.sendTo
  split
  · rfl
  · split
    · rfl
    · exact s.sent_sendOn ..

theorem State.sent_sendAll (cls : Nat) (payload : Bytes) : Sent s (s.sendAll cls payload) := by
  unfold State.sendAll
  split
  · rfl
  · exact .foldl (.refl s) (fun a v => a.sent_sendTo 0 cls 0 v payload) _

theorem State.sent_freeOf (link vc : Nat) (buf : Option Nat) : Sent s (s.freeOf link vc buf) := by
  unfold State.freeOf State.freeBuffer
  split
  · dsimp only
    split
    · rfl
    · split <;> rfl
  · rfl

theorem State.sent_clearStreams (c : Nat) : Sent s (s.clearStreams c) :=
  Sent.trans (.foldl (.refl s) (fun a (r : RxMsg) => a.sent_freeOf r.link r.vc r.buf) _) rfl

theorem State.told_raise (i : Nat) : Told s (s.raise i) := by
  unfold State.raise
  dsimp only
  split <;> rfl

theorem State.told_writeEntry (r : Nat) (w : WaitEnt) : Told s (s.writeEntry r w) := by
  have h (a : Nat) (bs : Bytes) (f : RingSt → RingSt) : Told s ((s.hostWrite a bs).modRing r f) := rfl
  unfold State.writeEntry
  dsimp only
  split
  · rfl
  · split
    · exact (h ..).trans (State.told_raise ..)
    · exact h ..

theorem State.told_putEntry (r : Nat) (w : WaitEnt) : Told s (s.putEntry r w) := by
  unfold State.putEntry
  dsimp only
  split
  · rfl
  · exact s.told_writeEntry r w

theorem State.told_event (c code detail : Nat) : Told s (s.event c code detail) := by
  unfold State.event
  split
  · rfl
  · split
    · rfl
    · exact s.told_putEntry ..

end

theorem Steady.resident {s t : State} (h : Steady s t) : t.resident = s.resident := congrArg (fun x => x.2.2.2.2.1) h

/-! ## Fault records (R757-R760) -/

section
variable (s : State) (r : FaultReport)

theorem faultRecord_length (seq stb : Nat) (first : BitVec 64) (outcome action : Nat) (je : Nat × Nat) :
    (faultRecord seq r stb first outcome action je).length = 64 := by
  simp [faultRecord]

/-- The package with the bytes of the next record at a place of the JD. -/
def State.recorded (off : Nat) (b : Bytes) : State :=
  { s with
    mem := { s.mem with jd := wrBytes s.mem.jd off b },
    flt := { s.flt with seq := s.flt.seq + 1, next := s.flt.next + 1 } }

theorem State.recorded_eq (off : Nat) (b : Bytes) :
    { s.jdWrite off b with flt := { (s.jdWrite off b).flt with
        seq := (s.jdWrite off b).flt.seq + 1, next := (s.jdWrite off b).flt.next + 1 } } = s.recorded off b := rfl

/-- A report that is not of a lasting fault makes one record (R757, R758). -/
theorem State.logFault_one (stb : Nat) (first : BitVec 64) (outcome action : Nat) :
    s.logFault r stb first outcome action false = s.recorded (0x200000 + 64 * s.flt.next.toNat)
      (faultRecord s.flt.seq.toNat r stb first outcome action s.jobEpoch) := by
  unfold State.logFault
  exact (if_pos rfl).trans (State.recorded_eq ..)

section
variable (off : Nat) {b : Bytes} (h : b.length = 64)
include h

theorem State.jdRead_recorded : (s.recorded off b).jdRead off 64 = b := by
  rw [← h]
  exact rdBytes_wrBytes ..

theorem State.tget_recorded {a : Nat} (ha : a < off ∨ off + 64 ≤ a) :
    tget 0 (s.recorded off b).mem.jd a = tget 0 s.mem.jd a :=
  tget_wrBytes_outside (by rw [h]; exact ha)

end

theorem State.resident_recorded (off : Nat) (b : Bytes) : (s.recorded off b).resident = s.resident := rfl

theorem State.settleNow_none (h : s.resident = none) : s.settleNow = s := by rw [State.settleNow, h]

/-- The package once a report has left the fault wires. -/
def State.taken : State := { s with flt := { s.flt with wires := s.flt.wires.erase r } }

theorem exec_faultReport : exec (.faultReport r) s = .next ((s.taken r).report r).settleNow := rfl

theorem State.tagged_none (h : s.resident = none) : s.tagged r = [] := by
  rw [State.tagged, State.cur, h, Option.map_none]

section
variable (hb : bornLasting r.cls = false) (hs : r.cls ≠ 0x0F) (hl : r.cls ≠ 0x10)
include hb hs hl

/-- With no context resident a report is recorded and nothing else. -/
theorem State.report_none (h : s.resident = none) : s.report r =
    s.logFault r s.stbTicks (r.tags.headD (BitVec.allOnes 64)) 0 0 false := by
  have hcur : s.cur = none := by rw [State.cur, h, Option.map_none]
  unfold State.report
  dsimp only
  rw [if_neg hs, if_neg hl, s.tagged_none r h, hcur, if_neg (by simp [hb])]
  have hres (t : State) (ht : Steady s t) : t.resident = none := ht.resident.trans h
  rw [List.nil_append, List.isEmpty_nil, if_pos rfl]
  simp only [hres _ (s.steady_logFault ..)]

theorem faultReport_logs (h : s.resident = none) : Does (.faultReport r) s fun t =>
    t.flt = { s.flt with wires := s.flt.wires.erase r, seq := s.flt.seq + 1, next := s.flt.next + 1 }
    ∧ t.jdRead (0x200000 + 64 * s.flt.next.toNat) 64
        = faultRecord s.flt.seq.toNat r s.stbTicks ((r.tags).headD (BitVec.allOnes 64)) 0 0 (0, 0)
    ∧ (∀ a, a < 0x200000 + 64 * s.flt.next.toNat ∨ 0x200000 + 64 * s.flt.next.toNat + 64 ≤ a →
        tget 0 t.mem.jd a = tget 0 s.mem.jd a)
    ∧ t = { s with flt := t.flt, mem := { s.mem with jd := t.mem.jd } } := by
  have hje : (s.taken r).jobEpoch = (0, 0) := by
    rw [State.jobEpoch, State.cur, show (s.taken r).resident = none from h, Option.map_none]
  have hres : ((s.taken r).recorded (0x200000 + 64 * (s.taken r).flt.next.toNat)
      (faultRecord (s.taken r).flt.seq.toNat r (s.taken r).stbTicks (r.tags.headD (BitVec.allOnes 64)) 0 0
        (0, 0))).resident = none :=
    (State.resident_recorded ..).trans h
  refine ⟨_, exec_faultReport s r, ?_⟩
  rw [(s.taken r).report_none r hb hs hl h, State.logFault_one, hje, State.settleNow_none _ hres]
  have hlen := faultRecord_length r s.flt.seq.toNat s.stbTicks (r.tags.headD (BitVec.allOnes 64)) 0 0 (0, 0)
  refine ⟨rfl, State.jdRead_recorded _ _ hlen, fun a ha => State.tget_recorded _ _ hlen ha, ?_⟩
  dsimp only [State.recorded, State.taken]

end

/-! ## The abort of the one uncommitted step (R60, R71, R416) -/

theorem Told.ctxAt {s t : State} (h : Told s t) (k : Nat) : t.ctxAt k = s.ctxAt k := by
  rw [h]
  rfl

theorem Sent.ctxAt {s t : State} (h : Sent s t) (k : Nat) : t.ctxAt k = s.ctxAt k := by
  rw [h]
  rfl

theorem Stopped.ctxAt {s t : State} (h : Stopped s t) (k : Nat) : t.ctxAt k = s.ctxAt k := by
  rw [h]
  rfl

theorem State.ctxAt_dropStamps (n : BitVec 64) (k : Nat) : (s.dropStamps n).ctxAt k = s.ctxAt k := rfl

theorem State.ctxAt_consume (f : RxMsg → Bool) (k : Nat) : (s.consume f).ctxAt k = s.ctxAt k := rfl

theorem State.ctxAt_recorded (off : Nat) (b : Bytes) (k : Nat) : (s.recorded off b).ctxAt k = s.ctxAt k := rfl

theorem State.ctxAt_setEpoch (e : BitVec 16) (k : Nat) :
    (s.setEpoch k e).ctxAt k = { s.ctxAt k with epoch := e } := by
  unfold State.setEpoch
  rw [State.ctxAt_consume, (State.sent_clearStreams ..).ctxAt, State.ctxAt_modCtx, if_pos rfl]

section
variable {s} {c : Nat} {t : StepSt} (hs : (s.ctxAt c).steps = [t])
include hs

theorem State.ctxAt_abortOne :
    (s.abortOne c t.no).ctxAt c = { s.ctxAt c with steps := [{ t.abort with discarded := t.discarded }] } := by
  have hlater : [t].filter (fun u => decide (t.no.toNat < u.no.toNat)) = [] := by simp
  unfold State.abortOne
  dsimp only
  rw [hs, hlater, (State.told_event ..).ctxAt, State.ctxAt_modCtx, if_pos rfl, List.foldl_nil, State.ctxAt_dropStamps,
    (State.stopped_stopStep ..).ctxAt, hs]
  simp

/-- An abort that this package originates of its one uncommitted step. -/
theorem State.abortSteps_one (ha : t.abortable = true) (he : (s.ctxAt c).epoch ≠ 0xFFFF) (hn : t.aborts < 3) :
    (s.abortSteps c [t.no] true).ctxAt c = { s.ctxAt c with
      steps := [{ t.abort with discarded := t.discarded }], epoch := (s.ctxAt c).epoch + 1 } := by
  have hlive : [t].filter (fun u => [t.no].contains u.no && u.abortable) = [t] := by simp [ha]
  unfold State.abortSteps
  dsimp only
  rw [hs, hlive]
  have hctx := State.ctxAt_abortOne hs
  simp only [List.reverse_cons, List.reverse_nil, List.nil_append, List.foldl_cons, List.foldl_nil, if_neg he,
    Bool.not_true, Bool.false_eq_true, if_false]
  have hdone : (((s.abortOne c t.no).setEpoch c ((s.ctxAt c).epoch + 1)).sendAll 0 (abortPayload t.no)).ctxAt c =
      { s.ctxAt c with steps := [{ t.abort with discarded := t.discarded }], epoch := (s.ctxAt c).epoch + 1 } := by
    rw [(State.sent_sendAll ..).ctxAt, State.ctxAt_setEpoch, hctx]
  generalize State.sendAll _ _ _ = v at hdone ⊢
  have hfind : [{ t.abort with discarded := t.discarded }].find? (fun u =>
      [t].any (·.no == u.no) && u.st == .aborted && decide (4 ≤ u.aborts)) = none := by
    simp [StepSt.abort]
    omega
  rw [hdone]
  simp only [hfind]
  exact hdone

end

/-! ## A report that tags the one uncommitted step (R63, R726) -/

/-- A context with a fault noted with the steps that it tags (R726). -/
def CtxSt.noted (x : CtxSt) (tags : List (BitVec 64)) (f : SeenFault) : CtxSt :=
  { x with steps := x.steps.map fun t => if tags.contains t.no then t.note f else t }

section
variable {s} {c : Fin 4} {t : StepSt} (hr : s.resident = some c) (hs : (s.ctxAt c.val).steps = [t])
include hr hs

theorem State.settleNow_aborted (ht : t.st = .aborted) : s.settleNow = s := by
  have hfinal : s.tryFinal c.val = s := by
    unfold State.tryFinal
    dsimp only
    rw [hs, List.head?_cons]
    split
    · next h _ _ =>
      obtain rfl := Option.some.inj h
      rw [if_neg (by simp [ht])]
    · rfl
  have hcommit : s.tryCommit c.val = s := by
    unfold State.tryCommit
    dsimp only
    rw [hs, List.head?_cons]
    exact if_neg (by simp [ht])
  rw [State.settleNow, hr]
  exact (congrArg (State.tryCommit · c.val) hfinal).trans hcommit

theorem State.tagged_one (hh : t.held = false) {r : FaultReport} (hr' : r.tags = [t.no]) : s.tagged r = [t.no] := by
  rw [State.tagged, State.cur, hr, Option.map_some]
  simp [hs, hh, hr']

/-- A report of a transient fault is recorded, noted with the step and aborts it. -/
theorem State.report_one (hh : t.held = false) (hf : t.faults = []) {r : FaultReport} (ht : r.tags = [t.no])
    (hb : bornLasting r.cls = false) (hd : r.cls ≠ 0x0F) (hl : r.cls ≠ 0x10) : s.report r =
      ((s.logFault r s.stbTicks t.no 0 1 false).modCtx c.val fun x =>
        x.noted [t.no] { rep := r, stb := s.stbTicks, first := t.no }).abortSteps c.val [t.no] true := by
  have hcur : s.cur = some (c, s.ctxAt c.val) := by rw [State.cur, hr, Option.map_some]
  have hres (v : State) (hv : Steady s v) : v.resident = some c := hv.resident.trans hr
  unfold State.report
  dsimp only
  rw [if_neg hd, if_neg hl, State.tagged_one hr hs hh ht, hcur]
  dsimp only
  rw [if_neg (by simp [hs, hb, hf])]
  simp only [hres _ (s.steady_logFault ..), List.cons_append, List.headD_cons, List.isEmpty_cons, Bool.false_eq_true,
    if_false, CtxSt.noted]

omit hr hs in
theorem StepSt.note_first {t : StepSt} (h : t.faultsRun = []) (f : SeenFault) :
    t.note f = { t with faultsRun := [f] } := by
  rw [StepSt.note, h]
  rfl

omit hr hs in
/-- The abort of the one step that a report has been noted with. -/
theorem State.abortSteps_noted {u : State} {x : CtxSt} (hu : u.ctxAt c.val = x) (hr : u.resident = some c)
    (hs : x.steps = [t]) (ha : t.abortable = true) (hn : t.aborts < 3) (hf : t.faultsRun = [])
    (he : x.epoch ≠ 0xFFFF) (f : SeenFault) :
    let v := (u.modCtx c.val fun x => x.noted [t.no] f).abortSteps c.val [t.no] true
    v.resident = some c ∧ v.ctxAt c.val =
      { x with steps := [{ t.abort with faultsRun := [f], discarded := t.discarded }], epoch := x.epoch + 1 } := by
  have hctx : (u.modCtx c.val fun x => x.noted [t.no] f).ctxAt c.val =
      { x with steps := [{ t with faultsRun := [f] }] } := by
    rw [State.ctxAt_modCtx, if_pos rfl, hu, CtxSt.noted, hs]
    simp [StepSt.note_first hf]
  have habort := State.abortSteps_one (congrArg CtxSt.steps hctx) ha (by rw [hctx]; exact he) hn
  refine ⟨(State.steady_abortSteps ..).resident.trans hr, habort.trans ?_⟩
  rw [hctx]
  rfl

theorem State.report_aborts (ha : t.abortable = true) (hh : t.held = false) (hn : t.aborts < 3) (hf : t.faults = [])
    (hf' : t.faultsRun = []) (he : (s.ctxAt c.val).epoch ≠ 0xFFFF) {r : FaultReport} (ht : r.tags = [t.no])
    (hb : bornLasting r.cls = false) (hd : r.cls ≠ 0x0F) (hl : r.cls ≠ 0x10) :
    ∃ v, s.report r = v ∧ v.resident = some c ∧ v.ctxAt c.val = { s.ctxAt c.val with
      steps := [{ t.abort with
        faultsRun := [{ rep := r, stb := s.stbTicks, first := t.no }], discarded := t.discarded }],
      epoch := (s.ctxAt c.val).epoch + 1 } :=
  ⟨_, State.report_one hr hs hh hf ht hb hd hl, State.abortSteps_noted
    (by rw [State.logFault_one, State.ctxAt_recorded]) ((s.steady_logFault ..).resident.trans hr) hs ha hn hf' he _⟩

end

theorem faultReport_aborts {c : Fin 4} {t : StepSt} (hr : s.resident = some c) (hs : (s.ctxAt c.val).steps = [t])
    (ht : t.st = .running ∨ t.st = .gated) (hn : t.aborts < 3) (hf : t.faults = []) (hf' : t.faultsRun = [])
    (he : (s.ctxAt c.val).epoch ≠ 0xFFFF) (htag : r.tags = [t.no]) (hb : bornLasting r.cls = false)
    (hd : r.cls ≠ 0x0F) (hl : r.cls ≠ 0x10) :
    Does (.faultReport r) s fun v => ∃ u, (v.ctxAt c.val).steps = [u] ∧ u.no = t.no ∧ u.st = .aborted
      ∧ u.restoring = true ∧ u.aborts = t.aborts + 1 ∧ u.faultsRun.map (·.rep) = [r]
      ∧ (v.ctxAt c.val).epoch = (s.ctxAt c.val).epoch + 1 := by
  have hheld : t.held = false := by rcases ht with h | h <;> simp [StepSt.held, h]
  have habort : t.abortable = true := by rcases ht with h | h <;> simp [StepSt.abortable, hheld, h]
  obtain ⟨v, hv, hvr, hctx⟩ := State.report_aborts (s := s.taken r) hr hs habort hheld hn hf hf' he htag hb hd hl
  have hsteps := congrArg CtxSt.steps hctx
  refine ⟨v, (exec_faultReport s r).trans (congrArg Host.Outcome.next ?_), _, hsteps, rfl, rfl, rfl, rfl, rfl,
    congrArg CtxSt.epoch hctx⟩
  rw [hv]
  exact State.settleNow_aborted hvr hsteps rfl

end

/-- Settles O32, by the record that a report makes, and by the abort of the one step that it tags. -/
theorem faultReportsAreLoggedAndAbort : Obligations.FaultReportsAreLoggedAndAbort := by
  unfold Obligations.FaultReportsAreLoggedAndAbort
  exact ⟨fun s r => ⟨exec_faultReport s r, fun h hb hd hl => faultReport_logs s r hb hd hl h⟩,
    fun s c t r hr hs ht hn hf hf' he htag hb hd hl => faultReport_aborts s r hr hs ht hn hf hf' he htag hb hd hl⟩

end Sys2Proof.Machine
end

section
/-! The query commands of Citis (O42): IDENTIFY, QUERY_STATUS, READ_TELEMETRY, JOURNAL_READ and ATTEST. -/

namespace Sys2Proof.Machine

/-! ## Blocks (R709-R711, R825) -/

section
variable (s : State)

theorem State.fwBytes_length : s.fwBytes.length = 4 := length_slice ..

theorem State.identityBlock_length : s.identityBlock.length = 256 := by
  simp only [State.identityBlock, List.length_append, leBytes_length, List.length_cons, List.length_nil,
    List.length_map, List.length_range, List.length_replicate, s.fwBytes_length]

/-- The identity block names the part (R710). -/
theorem State.identityBlock_kind : fld s.identityBlock 2 1 = kindCode s.fuse.kind := by
  unfold State.identityBlock
  iterate 10 rw [fld_append_left (by simp [s.fwBytes_length])]
  rw [fld_append_right (by simp)]
  simp
  cases s.fuse.kind <;> decide

theorem State.identityBlock_serial : fld s.identityBlock 8 8 = s.fuse.serial.toNat := by
  unfold State.identityBlock
  iterate 8 rw [fld_append_left (by simp [s.fwBytes_length])]
  rw [fld_append_right (by simp [s.fwBytes_length])]
  simp [s.fwBytes_length]
  omega

theorem State.identityBlock_hbm : fld s.identityBlock 32 8 = s.hbmBytes := by
  have hlt : s.hbmBytes < 256 ^ 8 := by
    unfold State.hbmBytes
    split <;> decide
  unfold State.identityBlock
  iterate 2 rw [fld_append_left (by simp [s.fwBytes_length])]
  rw [fld_append_right (by simp [s.fwBytes_length])]
  simp [s.fwBytes_length]
  omega

variable (c : Nat)

theorem State.statusBlock_length : (s.statusBlock c).length = 128 := by
  simp [State.statusBlock]

theorem CtxPhase.code_lt (p : CtxPhase) : p.code < 256 := by cases p <;> decide

/-- The status block holds the state of the context (R711). -/
theorem State.statusBlock_state : fld (s.statusBlock c) 0 1 = (s.ctxAt c).st.code := by
  unfold State.statusBlock
  iterate 11 rw [fld_append_left (by simp)]
  rw [fld_head, BitVec.toNat_ofNat]
  exact Nat.mod_eq_of_lt (CtxPhase.code_lt _)

theorem State.statusBlock_resident :
    fld (s.statusBlock c) 1 1 = (s.resident.map (·.val)).getD 0xFF := by
  have hlt : (s.resident.map (·.val)).getD 0xFF < 256 := by
    cases s.resident with
    | none => decide
    | some c => exact Nat.lt_trans c.isLt (by decide)
  unfold State.statusBlock
  iterate 11 rw [fld_append_left (by simp)]
  rw [fld_cons, fld_head, BitVec.toNat_ofNat]
  exact Nat.mod_eq_of_lt hlt

theorem State.committedOf_lt : s.committedOf c < 256 ^ 8 := by
  unfold State.committedOf
  cases s.newestRec c with
  | none => decide
  | some b => exact (recStep b).isLt

theorem State.statusBlock_committed : fld (s.statusBlock c) 24 8 = s.committedOf c := by
  unfold State.statusBlock
  iterate 8 rw [fld_append_left (by simp)]
  rw [fld_append_right (by simp)]
  simp only [List.length_append, List.length_cons, List.length_nil, leBytes_length]
  rw [show 24 - (0 + 1 + 1 + 1 + 1 + 1 + 1 + 1 + 1 + 8 + 8) = 0 from rfl, fld_leBytes_whole]
  exact Nat.mod_eq_of_lt (s.committedOf_lt c)

theorem State.committedOf_congr {s t : State} (h : t.mem.jd = s.mem.jd) : t.committedOf c = s.committedOf c := by
  unfold State.committedOf State.newestRec State.jdRead
  rw [h]

/-- Whether a telemetry set exists depends on its number alone (R869). -/
theorem State.isSome_telemetry (n : Nat) : (s.telemetry n).isSome = decide (n < 5) := by
  match n with
  | 0 | 1 | 2 | 3 | 4 => rfl
  | n + 5 => simp [State.telemetry]

theorem State.attestBody_length (p : BitVec 512) : (s.attestBody p).length = 320 := by
  simp [State.attestBody, s.fwBytes_length]

theorem State.journalBytes_length (off len : Nat) : (s.journalBytes off len).length = len := by
  unfold State.journalBytes
  split
  · exact length_slice ..
  · exact rdBytes_length ..

end

/-! ## Outputs (R657) -/

section
variable {s : State} {r : Fin 8} {p : BitVec 512} {bs : Bytes} {n : Nat}

theorem served_outReply (hn : bs.length = n) (h : s.outErr p n = none) :
    served r (s.outReply r.val p bs 0 0) = outputs r p s bs 0 0 := by
  rw [State.outReply_eq_of_none (hn ▸ h)]
  rfl

theorem served_outReply_err (hn : bs.length = n) {e : Nat × Nat} (h : s.outErr p n = some e) :
    served r (s.outReply r.val p bs 0 0) = replies r p s e.1 e.2 := by
  rw [outReply_eq, hn, h]
  rfl

end

/-! ## The commands (R662) -/

section
variable {s : State} {r : Fin 8} {p : BitVec 512}

theorem exec_identify (a : Accepted (.identify r) s r p) : exec (.identify r) s =
    served r ((s.takeEntry r.val p).outReply r.val p (s.takeEntry r.val p).identityBlock 0 0) := by
  dsimp only [exec, execIdentify]
  rw [a.runCmd_eq rfl]

theorem exec_queryStatus (a : Accepted (.queryStatus r) s r p) : exec (.queryStatus r) s =
    served r ((s.takeEntry r.val p).outReply r.val p ((s.takeEntry r.val p).statusBlock (pktCtx p)) 0 0) := by
  dsimp only [exec, execQueryStatus]
  rw [a.runCmd_eq rfl]

theorem exec_readTelemetry (a : Accepted (.readTelemetry r) s r p) : exec (.readTelemetry r) s =
    served r ((s.takeEntry r.val p).outReply r.val p (((s.takeEntry r.val p).telemetry (pf p 28 1)).getD []) 0 0) := by
  dsimp only [exec, execReadTelemetry]
  rw [a.runCmd_eq rfl]

/-- A packet whose fields are not reserved encodings meets every check of its arguments (R654). -/
theorem pktBad_none {ok : Bool} {vals : List (Bool × Nat)} {used : List (Nat × Nat)} (h : pktBad p ok vals used = none)
    {v : Bool × Nat} (hv : v ∈ vals) : v.1 = true := by
  unfold pktBad at h
  rw [Option.map_eq_none_iff, List.find?_eq_none] at h
  simpa using h v (List.mem_append_left _ (List.mem_append_right _ hv))

/-- A command that gets no reject names no reserved encoding. -/
theorem State.cmdReject_fields {r : Nat} {f : CmdForm} (h : s.cmdReject r f p = none) :
    pktBad p (f.ctxOk (pktCtx p)) (f.vals s p) f.used = none := by
  cases hbad : pktBad p (f.ctxOk (pktCtx p)) (f.vals s p) f.used with
  | none => rfl
  | some off =>
    unfold State.cmdReject at h
    dsimp only at h
    rw [hbad] at h
    split at h <;> cases h

/-- READ_TELEMETRY names a set that exists (R869). -/
theorem readTelemetry_set (a : Accepted (.readTelemetry r) s r p) :
    ∃ b, (s.takeEntry r.val p).telemetry (pf p 28 1) = some b := by
  obtain ⟨f, hf, -, hrej, -⟩ := a.form
  obtain rfl := congrArg Prod.snd (Option.some.inj hf)
  have hset : (s.telemetry (pf p 28 1)).isSome = true :=
    pktBad_none (State.cmdReject_fields hrej) (v := (_, 28)) (List.mem_singleton_self _)
  rw [State.isSome_telemetry] at hset
  exact Option.isSome_iff_exists.mp ((State.isSome_telemetry ..).trans hset)

/-- Whether a range lies in a region that JOURNAL_READ reads (R709). -/
def inJournal (off len : Nat) : Prop := ∃ g, g ∈ jdRegions ∧ g.1 ≤ off ∧ off + len ≤ g.1 + g.2

theorem inJournal_iff (off len : Nat) :
    (jdRegions.any fun g => decide (g.1 ≤ off) && decide (off + len ≤ g.1 + g.2)) = true ↔ inJournal off len := by
  simp only [List.any_eq_true, Bool.and_eq_true, decide_eq_true_eq, inJournal]

theorem State.journalBytes_takeEntry (r off len : Nat) (q : BitVec 512) :
    (s.takeEntry r q).journalBytes off len = s.journalBytes off len := rfl

theorem exec_journalRead (a : Accepted (.journalRead r) s r p) (h : inJournal (pf p 32 8) (pf p 24 4)) :
    exec (.journalRead r) s = served r ((s.takeEntry r.val p).outReply r.val p
      (s.journalBytes (pf p 32 8) (pf p 24 4)) 0 0) := by
  dsimp only [exec, execJournalRead]
  rw [a.runCmd_eq rfl, if_pos ((inJournal_iff ..).mpr h), State.journalBytes_takeEntry]

theorem exec_journalRead_outside (a : Accepted (.journalRead r) s r p) (h : ¬inJournal (pf p 32 8) (pf p 24 4)) :
    exec (.journalRead r) s = replies r p (s.takeEntry r.val p) 0x60 0 := by
  dsimp only [exec, execJournalRead]
  rw [a.runCmd_eq rfl, if_neg (mt (inJournal_iff ..).mp h)]
  rfl

/-- The report of ATTEST with its signature (R825). -/
def State.attestReport (s : State) (p : BitVec 512) : Bytes :=
  s.attestBody p ++ leBytes 96 (Config.deviceSign s.fuse.serial (sha384 (s.attestBody p)) s.free).toNat

theorem State.attestReport_length (s : State) (p : BitVec 512) : (s.attestReport p).length = 416 := by
  rw [State.attestReport, List.length_append, s.attestBody_length, leBytes_length]

theorem exec_attest (a : Accepted (.attest r) s r p) : exec (.attest r) s =
    served r (({ s.takeEntry r.val p with free := (s.takeEntry r.val p).free + 1 } : State).outReply r.val p
      ((s.takeEntry r.val p).attestReport p) 0 0) := by
  dsimp only [exec, execAttest]
  rw [a.runCmd_eq rfl, State.attestReport]

end

/-- Settles O42, by the length of each block and what keeps it from the buffer. -/
theorem citisQueriesWriteTheirBlocks : Obligations.CitisQueriesWriteTheirBlocks := by
  unfold Obligations.CitisQueriesWriteTheirBlocks
  intro s r p
  refine ⟨fun a => ⟨State.identityBlock_length _, State.identityBlock_kind _, State.identityBlock_serial _,
      State.identityBlock_hbm _, fun h => ?_, fun e h => ?_⟩,
    fun a => ⟨State.statusBlock_length .., ?_, State.statusBlock_resident .., ?_, fun h => ?_, fun e h => ?_⟩,
    fun a => ?_, fun a => ⟨fun hin => ⟨State.journalBytes_length .., fun h => ?_⟩, fun hout => ?_⟩,
    fun a => ⟨State.attestReport_length .., fun h => ?_⟩⟩
  · rw [exec_identify a, served_outReply (State.identityBlock_length _) h]
  · rw [exec_identify a, served_outReply_err (State.identityBlock_length _) h]
  · exact State.statusBlock_state ..
  · exact (State.statusBlock_committed ..).trans (State.committedOf_congr _ rfl)
  · rw [exec_queryStatus a, served_outReply (State.statusBlock_length ..) h]
  · rw [exec_queryStatus a, served_outReply_err (State.statusBlock_length ..) h]
  · obtain ⟨b, hb⟩ := readTelemetry_set a
    have hexec := exec_readTelemetry a
    rw [hb] at hexec
    exact ⟨b, hb, fun h => hexec.trans (served_outReply rfl h), fun e h => hexec.trans (served_outReply_err rfl h)⟩
  · rw [exec_journalRead a hin, served_outReply (State.journalBytes_length ..) h]
  · refine exec_journalRead_outside a fun ⟨g, hg, hin⟩ => hout g hg hin
  · rw [exec_attest a]
    exact served_outReply (State.attestReport_length ..) (Eq.trans (State.outErr_congr rfl p 416) h)

end Sys2Proof.Machine
end

section
/-! CONTEXT_CREATE, CONTEXT_SAVE, CONTEXT_RESTORE and CONTEXT_DESTROY (O45). -/

namespace Sys2Proof.Machine

/-! ## What a change of the links leaves (R504-R512, R684) -/

/-- Only the links and what they report differ. -/
def Linked (s t : State) : Prop := t = { s with net := t.net, flt := t.flt }

theorem Linked.refl (s : State) : Linked s s := rfl

theorem Linked.trans {s t u : State} (h : Linked s t) (h' : Linked t u) : Linked s u := by
  unfold Linked at h'
  rw [h] at h'
  exact h'

theorem Linked.foldl {α : Type} {s t : State} {op : State → α → State} (h : Linked s t)
    (hop : ∀ a x, Linked a (op a x)) (l : List α) : Linked s (l.foldl op t) :=
  List.foldlRecOn l op (motive := Linked s) h fun _ ha x _ => ha.trans (hop _ x)

theorem Linked.ctxAt {s t : State} (h : Linked s t) (k : Nat) : t.ctxAt k = s.ctxAt k := by
  rw [h]
  rfl

theorem Linked.resident {s t : State} (h : Linked s t) : t.resident = s.resident := by rw [h]

theorem Linked.ios {s t : State} (h : Linked s t) : t.ios = s.ios := by
  rw [h]
  rfl

section
variable (s : State)

theorem State.linked_modMember (m : Nat) (f : MemberSt → MemberSt) : Linked s (s.modMember m f) := rfl

theorem State.linked_modMkt (io : Nat) (f : MktSt → MktSt) : Linked s (s.modMkt io f) := rfl

theorem State.linked_wire (r : FaultReport) : Linked s (s.wire r) := rfl

theorem State.linked_setNet (n : NetSt) : Linked s { s with net := n } := rfl

theorem State.linked_refreshGroups : Linked s s.refreshGroups := by
  unfold State.refreshGroups
  split
  · exact s.linked_setNet _
  · exact .foldl (s.linked_setNet _) (fun a _ => a.linked_wire _) _

theorem State.linked_applyLinks (cfg : JobCfg) : Linked s (s.applyLinks cfg) :=
  Linked.trans (.foldl (.refl s) (fun a j => a.linked_modMember j _) _) (State.linked_refreshGroups _)

theorem State.linked_pendMarket (cfg : JobCfg) : Linked s (s.pendMarket cfg) :=
  .foldl (.refl s) (fun a io => a.linked_modMkt io _) _

/-- Each Market has the configuration pending (R387). -/
theorem State.pendCfg_pendMarket (cfg : JobCfg) {i : Nat} (hi : i < s.ios) :
    ((s.pendMarket cfg).mktAt i).pendCfg = some cfg.market := by
  obtain ⟨-, hmkt⟩ := foldl_range_unit (op := fun (a : State) io => a.modMkt io fun k =>
      { k with pendCfg := some cfg.market }) (unit := State.mktAt) (kept := fun _ => True)
    (made := fun io => { s.mktAt io with pendCfg := some cfg.market }) (s := s) trivial (fun _ _ _ => trivial)
    (fun a d _ h => by rw [State.mktAt_modMkt, if_pos rfl, h])
    (fun a d j _ hj => by rw [State.mktAt_modMkt, if_neg hj]) s.ios
  exact congrArg MktSt.pendCfg ((hmkt i).trans (if_pos hi))

end

/-! ## CONTEXT_CREATE (R667-R670) -/

section
variable (s : State)

/-- Whether every context is FREE. -/
def State.allFree : Prop := ∀ k, k < 4 → (s.ctxAt k).st = .free

theorem State.allFree_iff : ((List.range 4).all fun k => (s.ctxAt k).st == .free) = true ↔ s.allFree := by
  simp only [List.all_eq_true, List.mem_range, beq_iff_eq, State.allFree]

/-- What CONTEXT_CREATE asks of a region (R667-R669). -/
theorem State.createErr_none {base bytes img cfg il : Nat} (h1 : base % 2 ^ 30 = 0) (h2 : base < s.hbmBytes)
    (h3 : bytes % 2 ^ 30 = 0) (h4 : bytes ≠ 0) (h5 : base + bytes ≤ s.hbmBytes)
    (h6 : s.regionMeets base bytes = none) (h7 : s.saveBytes + 2 * (img + cfg) * 2 ^ 20 ≤ bytes)
    (h8 : s.allFree ∨ il = b2n s.globalIl) : s.createErr base bytes img cfg il = none := by
  unfold State.createErr
  dsimp only
  rw [if_neg (by omega), if_neg (by omega), h6]
  dsimp only
  rw [if_neg (by omega), if_neg]
  rcases h8 with h | h
  · simp [(s.allFree_iff).mpr h]
  · simp [h]

/-- The context that CONTEXT_CREATE makes with a packet. -/
def createdCtx (p : BitVec 512) (home : Bool) (l : LsecSt) : CtxSt :=
  { CtxSt.reset with
    st := if home then .idle else .saved, base := pf p 32 8, bytes := pf p 40 8, imgMib := pf p 48 4,
    cfgMib := pf p 52 4, evtEvery := pf p 58 2, lsec := l,
    evtRing := if pf p 57 1 < 8 then some (Fin.ofNat 8 (pf p 57 1)) else none }

/-- The package with the context that CONTEXT_CREATE makes. -/
def State.created (p : BitVec 512) : State :=
  let first := (List.range 4).all fun k => (s.ctxAt k).st == .free
  let home := s.resident.isNone
  let s := s.modCtx (pktCtx p) fun x => createdCtx p home x.lsec
  let s := if first then { s with globalIl := pf p 56 1 == 1 } else s
  if home then ({ s with resident := some (Fin.ofNat 4 (pktCtx p)) }).refreshCm else s

theorem State.created_does (p : BitVec 512) : let u := s.created p
    OtherContexts s u (pktCtx p)
      ∧ u = { s with ctx := u.ctx, resident := u.resident, globalIl := u.globalIl, cm := u.cm }
      ∧ u.ctxAt (pktCtx p) = createdCtx p s.resident.isNone (s.ctxAt (pktCtx p)).lsec
      ∧ u.resident = (if s.resident.isNone then some (Fin.ofNat 4 (pktCtx p)) else s.resident)
      ∧ (s.allFree → u.globalIl = (pf p 56 1 == 1))
      ∧ ((∃ k, k < 4 ∧ (s.ctxAt k).st ≠ .free) → u.globalIl = s.globalIl) := by
  have hctx (k : Nat) : (s.created p).ctxAt k =
      (s.modCtx (pktCtx p) fun x => createdCtx p s.resident.isNone x.lsec).ctxAt k := by
    unfold State.created
    dsimp only
    split <;> split <;> rfl
  have hil : (s.created p).globalIl =
      if ((List.range 4).all fun k => (s.ctxAt k).st == .free) then pf p 56 1 == 1 else s.globalIl := by
    unfold State.created
    dsimp only
    split <;> split <;> rfl
  refine ⟨fun k hk => ?_, ?_, ?_, ?_, fun h => ?_, fun ⟨k, hk, h⟩ => ?_⟩
  · rw [hctx, State.ctxAt_modCtx, if_neg hk]
  · unfold State.created
    dsimp only
    split <;> split <;> rfl
  · rw [hctx, State.ctxAt_modCtx, if_pos rfl]
  · unfold State.created
    dsimp only
    split <;> split <;> rfl
  · rw [hil, if_pos ((s.allFree_iff).mpr h)]
  · rw [hil, if_neg fun hall => h ((s.allFree_iff).mp hall k hk)]

end

section
variable {s : State} {r : Fin 8} {p : BitVec 512}

theorem exec_contextCreate (a : Accepted (.contextCreate r) s r p)
    (h : (s.takeEntry r.val p).createErr (pf p 32 8) (pf p 40 8) (pf p 48 4) (pf p 52 4) (pf p 56 1) = none) :
    exec (.contextCreate r) s = replies r p ((s.takeEntry r.val p).created p) 0 0 := by
  dsimp only [exec, execContextCreate]
  rw [a.runCmd_eq rfl, h]
  rfl

end

theorem OtherContexts.of_takeEntry {s u : State} {r c : Nat} {p : BitVec 512}
    (h : OtherContexts (s.takeEntry r p) u c) : OtherContexts s u c :=
  fun k hk => h k hk

/-! ## CONTEXT_SAVE (R672) -/

section
variable {s : State} {r : Fin 8} {p : BitVec 512} (a : Accepted (.contextSave r) s r p)
include a

theorem exec_contextSave_now (h : (s.ctxAt (pktCtx p)).steps = []) : exec (.contextSave r) s =
    replies r p ((s.takeEntry r.val p).modCtx (pktCtx p) fun x => { x with st := .saving, saveSched := false })
      0 0 := by
  dsimp only [exec, execContextSave]
  rw [a.runCmd_eq rfl]
  exact congrArg (fun u : State => replies r p u 0 0) (if_pos (List.isEmpty_iff.mpr h))

theorem exec_contextSave_later (h : (s.ctxAt (pktCtx p)).steps ≠ []) : exec (.contextSave r) s =
    replies r p ((s.takeEntry r.val p).modCtx (pktCtx p) fun x => { x with saveSched := true }) 0 0 := by
  dsimp only [exec, execContextSave]
  rw [a.runCmd_eq rfl]
  exact congrArg (fun u : State => replies r p u 0 0) (if_neg (mt List.isEmpty_iff.mp h))

end

/-! ## CONTEXT_RESTORE (R674, R675) -/

section
variable (s : State) (c : Nat)

/-- The package in which a context is resident and restoring, before its configuration is activated. -/
def State.restoring : State :=
  ({ (s.modCtx c fun x => { x with st := .restoring, restoreWait := false }).parkEngines with
    resident := some (Fin.ofNat 4 c) } : State).refreshCm

theorem State.ctxAt_restoring (k : Nat) : (s.restoring c).ctxAt k =
    if k = c then { s.ctxAt c with st := .restoring, restoreWait := false } else s.ctxAt k := by
  have h (u : State) (o : Option (Fin 4)) :
      ({ u.parkEngines with resident := o } : State).refreshCm.ctxAt k = u.ctxAt k := rfl
  exact (h ..).trans (State.ctxAt_modCtx ..)

theorem State.beginRestore_def : s.beginRestore c = match ((s.restoring c).ctxAt c).cfg with
    | some g => ((s.restoring c).applyLinks g).pendMarket g
    | none => s.restoring c := rfl

theorem State.beginRestore_linked : Linked (s.restoring c) (s.beginRestore c) := by
  rw [s.beginRestore_def]
  split
  · exact (State.linked_applyLinks ..).trans (State.linked_pendMarket ..)
  · exact .refl _

theorem State.beginRestore_does : let u := s.beginRestore c
    OtherContexts s u c ∧ u.ctxAt c = { s.ctxAt c with st := .restoring, restoreWait := false }
      ∧ u.resident = some (Fin.ofNat 4 c)
      ∧ (∀ g i, (s.ctxAt c).cfg = some g → i < s.ios → (u.mktAt i).pendCfg = some g.market) := by
  have hl := s.beginRestore_linked c
  refine ⟨fun k hk => ?_, ?_, hl.resident, fun g i hg hi => ?_⟩
  · rw [hl.ctxAt, s.ctxAt_restoring, if_neg hk]
  · rw [hl.ctxAt, s.ctxAt_restoring, if_pos rfl]
  · have hcfg : ((s.restoring c).ctxAt c).cfg = some g := by
      rw [s.ctxAt_restoring, if_pos rfl]
      exact hg
    rw [s.beginRestore_def, hcfg]
    exact State.pendCfg_pendMarket _ g (((State.linked_applyLinks ..).ios).symm ▸ hi)

end

section
variable {s : State} {r : Fin 8} {p : BitVec 512} (a : Accepted (.contextRestore r) s r p)
include a

theorem exec_contextRestore_now (h : s.resident = none) :
    exec (.contextRestore r) s = served r ((s.takeEntry r.val p).beginRestore (pktCtx p)) := by
  have hgate : (s.takeEntry r.val p).restoreGate false = .free := by
    rw [State.restoreGate, State.cur, show (s.takeEntry r.val p).resident = none from h, Option.map_none]
  dsimp only [exec, execContextRestore]
  rw [a.runCmd_eq rfl, hgate]

variable {o : Fin 4} {y : CtxSt} (hcur : s.cur = some (o, y))
include hcur

omit a in
theorem State.restoreGate_takeEntry : (s.takeEntry r.val p).restoreGate false =
    if y.st = .saving ∨ y.saveSched then .wait else .other o.val := by
  rw [State.restoreGate, show (s.takeEntry r.val p).cur = some (o, y) from hcur]
  simp

theorem exec_contextRestore_waits (h : y.st = .saving ∨ y.saveSched = true) : exec (.contextRestore r) s =
    served r ((s.takeEntry r.val p).modCtx (pktCtx p) fun x => { x with restoreWait := true }) := by
  dsimp only [exec, execContextRestore]
  rw [a.runCmd_eq rfl, State.restoreGate_takeEntry hcur, if_pos h]

theorem exec_contextRestore_other (h : y.st ≠ .saving) (h' : y.saveSched = false) : exec (.contextRestore r) s =
    replies r p (s.takeEntry r.val p) 0x41 o.val := by
  dsimp only [exec, execContextRestore]
  rw [a.runCmd_eq rfl, State.restoreGate_takeEntry hcur, if_neg (by simp [h, h'])]
  rfl

end

/-! ## CONTEXT_DESTROY (R676) -/

section
variable (s : State) (c : Nat)

/-- A context whose scrub has started. -/
def CtxSt.scrubbing (x : CtxSt) : CtxSt :=
  { x with
    st := .destroying, destroyWait := false, saveSched := false, steps := [], next := none, remain := none,
    unbounded := false, haltAfter := none, haltTo := none, halted := false, haltRec := false }

theorem State.ctxAt_release (k : Nat) : (s.release c).ctxAt k =
    if k = c then { s.ctxAt c with halted := false, haltRec := false } else s.ctxAt k := by
  have hpin (u : State) (f : FltSt) (q : PinSt) : ({ u with flt := f, pin := q } : State).ctxAt k = u.ctxAt k := rfl
  unfold State.release
  dsimp only
  split
  · exact State.ctxAt_modCtx ..
  · exact (hpin ..).trans (State.ctxAt_modCtx ..)

theorem State.ctxAt_parkEngines (k : Nat) : s.parkEngines.ctxAt k = s.ctxAt k := rfl

theorem State.ctxAt_beginDestroy (k : Nat) : (s.beginDestroy c).ctxAt k =
    if k = c then (s.ctxAt c).scrubbing else s.ctxAt k := by
  have hstop (l : List StepSt) (j : Nat) :
      (l.foldl (fun (a : State) t => a.stopStep t.no) s).parkEngines.ctxAt j = s.ctxAt j := by
    have h : Stopped s (l.foldl (fun (a : State) t => a.stopStep t.no) s) :=
      .foldl (.refl s) (fun a (t : StepSt) => a.stopped_stopStep t.no) l
    exact (State.ctxAt_parkEngines ..).trans (h.ctxAt j)
  have hpark : ∃ a : State, (∀ j, a.ctxAt j = s.ctxAt j) ∧ s.beginDestroy c = (a.modCtx c fun x =>
      { x with st := .destroying, destroyWait := false, saveSched := false, steps := [], next := none, remain := none,
               unbounded := false, haltAfter := none, haltTo := none }).release c := by
    unfold State.beginDestroy
    dsimp only
    split
    · exact ⟨_, hstop _, rfl⟩
    · exact ⟨s, fun _ => rfl, rfl⟩
  obtain ⟨a, ha, heq⟩ := hpark
  rw [heq, State.ctxAt_release, State.ctxAt_modCtx, State.ctxAt_modCtx, if_pos rfl, ha, ha]
  split
  · rfl
  · rfl

theorem State.beginDestroy_does : let u := s.beginDestroy c
    OtherContexts s u c ∧ u.ctxAt c = (s.ctxAt c).scrubbing :=
  ⟨fun k hk => (s.ctxAt_beginDestroy c k).trans (if_neg hk), (s.ctxAt_beginDestroy c c).trans (if_pos rfl)⟩

end

section
variable {s : State} {r : Fin 8} {p : BitVec 512} (a : Accepted (.contextDestroy r) s r p)
include a

theorem exec_contextDestroy_waits
    (h : (s.ctxAt (pktCtx p)).st = .saving ∨ (s.ctxAt (pktCtx p)).st = .restoring) : exec (.contextDestroy r) s =
      served r ((s.takeEntry r.val p).modCtx (pktCtx p) fun x => { x with destroyWait := true }) := by
  dsimp only [exec, execContextDestroy]
  rw [a.runCmd_eq rfl]
  exact congrArg (served r) (if_pos h)

theorem exec_contextDestroy_now (h : (s.ctxAt (pktCtx p)).st ≠ .saving) (h' : (s.ctxAt (pktCtx p)).st ≠ .restoring) :
    exec (.contextDestroy r) s = served r ((s.takeEntry r.val p).beginDestroy (pktCtx p)) := by
  dsimp only [exec, execContextDestroy]
  rw [a.runCmd_eq rfl]
  exact congrArg (served r) (if_neg (not_or.mpr ⟨h, h'⟩))

end

/-- Settles O45, by what each command makes of its own context. -/
theorem contextCommandsTakeEffect : Obligations.ContextCommandsTakeEffect := by
  unfold Obligations.ContextCommandsTakeEffect
  intro s r p
  refine ⟨fun a => ?_, fun a => ⟨fun h => exec_contextSave_now a h, fun h => exec_contextSave_later a h⟩,
    fun a => ⟨fun h => ?_, fun o y hcur h => exec_contextRestore_waits a hcur h,
      fun o y hcur h h' => exec_contextRestore_other a hcur h h'⟩,
    fun a => ⟨fun h => exec_contextDestroy_waits a h, fun h h' => ?_⟩⟩
  · intro base bytes h1 h2 h3 h4 h5 h6 h7 h8
    obtain ⟨other, frame, ctx, resident, first, later⟩ := (s.takeEntry r.val p).created_does p
    exact ⟨_, exec_contextCreate a (State.createErr_none _ h1 h2 h3 h4 h5 h6 h7 h8), other.of_takeEntry, frame, ctx,
      resident, first, later⟩
  · obtain ⟨other, ctx, resident, market⟩ := (s.takeEntry r.val p).beginRestore_does (pktCtx p)
    exact ⟨_, exec_contextRestore_now a h, other.of_takeEntry, ctx, resident, market⟩
  · obtain ⟨other, ctx⟩ := (s.takeEntry r.val p).beginDestroy_does (pktCtx p)
    exact ⟨_, exec_contextDestroy_now a h h', other.of_takeEntry, ctx⟩

end Sys2Proof.Machine
end

section
/-! LOAD_IMAGE, LOAD_CONFIG, VERIFY_CONFIG and SWAP_CONFIG (O46). -/

namespace Sys2Proof.Machine

section
variable {s : State} {r : Fin 8} {p : BitVec 512}

theorem State.ctxAt_takeEntry (q k : Nat) (p : BitVec 512) : (s.takeEntry q p).ctxAt k = s.ctxAt k := rfl

theorem State.cfgAreaOf_takeEntry (q : Nat) (x : CtxSt) (area : Bool) :
    (s.takeEntry q p).cfgAreaOf x area = s.cfgAreaOf x area := rfl

/-! ## LOAD_IMAGE (R687-R691) -/

/-- The package once an image of a host buffer is written to an area of its context, and what its checks make of it. -/
def State.takeImage (t : State) (r : Nat) (p : BitVec 512) (x : CtxSt) (at_ : Nat) (area : Bool) (b : Bytes) : State :=
  let v := t.hbmWrite none at_ b
  match v.imgReject x b with
  | some e => v.reply r p e.1 e.2 0
  | none =>
    match v.pairCheck x (some (imgOf b area)) (if x.swapsAt x.highest true then x.shadow else x.cfg) x.nextNo with
    | some d => v.reply r p 0x26 d 0
    | none =>
      let u := if x.steps.isEmpty then v.applyImage (pktCtx p) (imgOf b area)
        else v.modCtx (pktCtx p) fun x => { x with pendImg := some (imgOf b area) }
      u.reply r p 0 0 0

section
variable (a : Accepted (.loadImage r) s r p)
include a

theorem exec_loadImage_pending (h : (s.ctxAt (pktCtx p)).pendImg ≠ none) : exec (.loadImage r) s =
    replies r p (s.takeEntry r.val p) 7 (s.ctxAt (pktCtx p)).st.code := by
  dsimp only [exec, execLoadImage]
  rw [a.runCmd_eq rfl]
  exact congrArg (served r) (if_pos (Option.isSome_iff_ne_none.mpr h))

variable (h : (s.ctxAt (pktCtx p)).pendImg = none)
include h

theorem exec_loadImage_large (hl : (s.ctxAt (pktCtx p)).imgMib * 2 ^ 20 < pf p 24 4) : exec (.loadImage r) s =
    replies r p (s.takeEntry r.val p) 0x14 (pf p 24 4) := by
  dsimp only [exec, execLoadImage]
  rw [a.runCmd_eq rfl]
  exact congrArg (served r) ((if_neg (by simp [State.ctxAt_takeEntry, h])).trans (if_pos hl))

variable (hl : pf p 24 4 ≤ (s.ctxAt (pktCtx p)).imgMib * 2 ^ 20)
include hl

theorem exec_loadImage_unread (hb : (s.takeEntry r.val p).inBuf p = none) : exec (.loadImage r) s =
    replies r p (s.takeEntry r.val p) 9 0 := by
  dsimp only [exec, execLoadImage]
  rw [a.runCmd_eq rfl, State.ctxAt_takeEntry, if_neg (by simp [h]), if_neg (Nat.not_lt.mpr hl), hb]
  rfl

theorem exec_loadImage_read {b : Bytes} (hb : (s.takeEntry r.val p).inBuf p = some b) :
    let area := (s.ctxAt (pktCtx p)).img.any fun i => !i.area
    exec (.loadImage r) s = served r ((s.takeEntry r.val p).takeImage r.val p (s.ctxAt (pktCtx p))
      (s.imgArea (s.ctxAt (pktCtx p)) area) area b) := by
  have harea (o : Option Img) : (match o with
    | some i => !i.area
    | none => false) = o.any fun i => !i.area := by cases o <;> rfl
  dsimp only [exec, execLoadImage]
  rw [a.runCmd_eq rfl, State.ctxAt_takeEntry, if_neg (by simp [h]), if_neg (Nat.not_lt.mpr hl), hb]
  refine congrArg (served r) ?_
  rw [← harea]
  rfl

end

section
variable {t : State} {q at_ : Nat} {x : CtxSt} {area : Bool} {b : Bytes}

theorem State.takeImage_rejected {e : Nat × Nat} (h : (t.hbmWrite none at_ b).imgReject x b = some e) :
    t.takeImage q p x at_ area b = (t.hbmWrite none at_ b).reply q p e.1 e.2 0 := by
  rw [State.takeImage, h]

variable (h : (t.hbmWrite none at_ b).imgReject x b = none)
include h

theorem State.takeImage_mismatch {d : Nat} (hp : (t.hbmWrite none at_ b).pairCheck x (some (imgOf b area))
    (if x.swapsAt x.highest true then x.shadow else x.cfg) x.nextNo = some d) :
    t.takeImage q p x at_ area b = (t.hbmWrite none at_ b).reply q p 0x26 d 0 := by
  rw [State.takeImage, h]
  dsimp only
  rw [hp]

variable (hp : (t.hbmWrite none at_ b).pairCheck x (some (imgOf b area))
  (if x.swapsAt x.highest true then x.shadow else x.cfg) x.nextNo = none)
include hp

theorem State.takeImage_active (hs : x.steps = []) : t.takeImage q p x at_ area b =
    ((t.hbmWrite none at_ b).applyImage (pktCtx p) (imgOf b area)).reply q p 0 0 0 := by
  rw [State.takeImage, h]
  dsimp only
  rw [hp]
  exact congrArg (fun u : State => u.reply q p 0 0 0) (if_pos (List.isEmpty_iff.mpr hs))

theorem State.takeImage_pending (hs : x.steps ≠ []) : t.takeImage q p x at_ area b =
    ((t.hbmWrite none at_ b).modCtx (pktCtx p) fun x => { x with pendImg := some (imgOf b area) }).reply q p 0 0 0 := by
  rw [State.takeImage, h]
  dsimp only
  rw [hp]
  exact congrArg (fun u : State => u.reply q p 0 0 0) (if_neg (mt List.isEmpty_iff.mp hs))

end

/-! ## LOAD_CONFIG (R680-R682) -/

section
variable (a : Accepted (.loadConfig r) s r p)
include a

theorem exec_loadConfig_swapping {k : BitVec 64} (h : (s.ctxAt (pktCtx p)).swapAt = some k) :
    exec (.loadConfig r) s = replies r p (s.takeEntry r.val p) 0x24 k.toNat := by
  dsimp only [exec, execLoadConfig]
  rw [a.runCmd_eq rfl, State.ctxAt_takeEntry, h]
  rfl

variable (h : (s.ctxAt (pktCtx p)).swapAt = none)
include h

theorem exec_loadConfig_large (hl : (s.ctxAt (pktCtx p)).cfgMib * 2 ^ 20 < pf p 24 4) : exec (.loadConfig r) s =
    replies r p (s.takeEntry r.val p) 0x14 (pf p 24 4) := by
  dsimp only [exec, execLoadConfig]
  rw [a.runCmd_eq rfl, State.ctxAt_takeEntry, h]
  exact congrArg (served r) (if_pos hl)

variable (hl : pf p 24 4 ≤ (s.ctxAt (pktCtx p)).cfgMib * 2 ^ 20) {b : Bytes}
  (hb : (s.takeEntry r.val p).inBuf p = some b)
include hl hb

theorem exec_loadConfig_bad {e : Nat × Nat} (hread : ((s.takeEntry r.val p).hbmWrite none
    (s.cfgAreaOf (s.ctxAt (pktCtx p)) !(s.ctxAt (pktCtx p)).cfgArea) b).readCfg (pktCtx p) b = .inl e) :
    exec (.loadConfig r) s = replies r p (((s.takeEntry r.val p).hbmWrite none
      (s.cfgAreaOf (s.ctxAt (pktCtx p)) !(s.ctxAt (pktCtx p)).cfgArea) b).modCtx (pktCtx p)
        fun x => { x with shadow := none, verified := false }) e.1 e.2 := by
  dsimp only [exec, execLoadConfig]
  rw [a.runCmd_eq rfl, State.ctxAt_takeEntry, h]
  dsimp only
  rw [if_neg (Nat.not_lt.mpr hl), hb]
  dsimp only
  rw [State.cfgAreaOf_takeEntry, hread]
  rfl

theorem exec_loadConfig_good {g : JobCfg} (hread : ((s.takeEntry r.val p).hbmWrite none
    (s.cfgAreaOf (s.ctxAt (pktCtx p)) !(s.ctxAt (pktCtx p)).cfgArea) b).readCfg (pktCtx p) b = .inr g) :
    exec (.loadConfig r) s = replies r p (((s.takeEntry r.val p).hbmWrite none
      (s.cfgAreaOf (s.ctxAt (pktCtx p)) !(s.ctxAt (pktCtx p)).cfgArea) b).modCtx (pktCtx p)
        fun x => { x with shadow := some g, verified := false }) 0 0 := by
  dsimp only [exec, execLoadConfig]
  rw [a.runCmd_eq rfl, State.ctxAt_takeEntry, h]
  dsimp only
  rw [if_neg (Nat.not_lt.mpr hl), hb]
  dsimp only
  rw [State.cfgAreaOf_takeEntry, hread]
  rfl

end

/-! ## VERIFY_CONFIG (R683) -/

section
variable (a : Accepted (.verifyConfig r) s r p)
include a

theorem exec_verifyConfig_empty (h : (s.ctxAt (pktCtx p)).shadow = none) :
    exec (.verifyConfig r) s = replies r p (s.takeEntry r.val p) 0x23 0 := by
  dsimp only [exec, execVerifyConfig]
  rw [a.runCmd_eq rfl, State.ctxAt_takeEntry, h]
  rfl

variable {g : JobCfg} (h : (s.ctxAt (pktCtx p)).shadow = some g)
include h

theorem exec_verifyConfig_bad {e : Nat × Nat} (hread : (s.takeEntry r.val p).readCfg (pktCtx p) g.raw = .inl e) :
    exec (.verifyConfig r) s = replies r p ((s.takeEntry r.val p).modCtx (pktCtx p)
      fun x => { x with shadow := none, verified := false }) e.1 e.2 := by
  dsimp only [exec, execVerifyConfig]
  rw [a.runCmd_eq rfl, State.ctxAt_takeEntry, h]
  dsimp only
  rw [hread]
  rfl

theorem exec_verifyConfig_good {k : JobCfg} (hread : (s.takeEntry r.val p).readCfg (pktCtx p) g.raw = .inr k)
    (hm : ∀ j, j < s.links → k.topo.memberEn.getLsbD j = true →
      (s.memberAt j).st ≠ .disabled ∧ (s.memberAt j).st ≠ .withdrawn)
    (hp : (s.takeEntry r.val p).pairCheck (s.ctxAt (pktCtx p))
      ((s.ctxAt (pktCtx p)).pendImg <|> (s.ctxAt (pktCtx p)).img) (some g) (s.ctxAt (pktCtx p)).nextNo = none) :
    exec (.verifyConfig r) s = replies r p ((s.takeEntry r.val p).modCtx (pktCtx p)
      fun x => { x with verified := true }) 0 0 := by
  have hms : ((List.range (s.takeEntry r.val p).links).filter fun j => k.topo.memberEn.getLsbD j
      && (((s.takeEntry r.val p).memberAt j).st == .disabled || ((s.takeEntry r.val p).memberAt j).st == .withdrawn))
        = [] := by
    refine List.filter_eq_nil_iff.mpr fun j hj hon => ?_
    simp only [Bool.and_eq_true, Bool.or_eq_true, beq_iff_eq] at hon
    obtain ⟨hdis, hwd⟩ := hm j (List.mem_range.mp hj) hon.1
    exact hon.2.elim hdis hwd
  dsimp only [exec, execVerifyConfig]
  rw [a.runCmd_eq rfl, State.ctxAt_takeEntry, h]
  dsimp only
  rw [hread]
  dsimp only
  rw [hms, if_pos List.isEmpty_nil, State.finishVerify, State.ctxAt_takeEntry, h]
  dsimp only
  rw [hp]
  rfl

end

/-! ## SWAP_CONFIG (R684-R686, R834) -/

section
variable (s : State) (c : Nat) (x : CtxSt) (g : JobCfg)

theorem State.ctxAt_setEpoch_other (e : BitVec 16) {k : Nat} (hk : k ≠ c) : (s.setEpoch c e).ctxAt k = s.ctxAt k := by
  unfold State.setEpoch
  rw [State.ctxAt_consume, (State.sent_clearStreams ..).ctxAt, State.ctxAt_modCtx, if_neg hk]

/-- A context whose two configurations are exchanged (R685). -/
def CtxSt.swapped : CtxSt :=
  { x with
    cfg := some g, shadow := x.cfg, verified := false, cfgArea := !x.cfgArea, swapAt := none, lsec := x.lsec.arm }

variable {s c g}

/-- A swap changes its own context. -/
theorem State.applySwap_does (h : (s.ctxAt c).shadow = some g) : let u := s.applySwap c
    OtherContexts s u c ∧ (u.ctxAt c).cfg = some g ∧ (u.ctxAt c).shadow = (s.ctxAt c).cfg
      ∧ (u.ctxAt c).verified = false ∧ (u.ctxAt c).cfgArea = !(s.ctxAt c).cfgArea ∧ (u.ctxAt c).swapAt = none := by
  have hself : (s.modCtx c fun x => x.swapped g).ctxAt c = (s.ctxAt c).swapped g := by
    rw [State.ctxAt_modCtx, if_pos rfl]
  have hother {k : Nat} (hk : k ≠ c) : (s.modCtx c fun x => x.swapped g).ctxAt k = s.ctxAt k := by
    rw [State.ctxAt_modCtx, if_neg hk]
  have hlink : ∃ a : State, Linked a (s.applySwap c)
      ∧ (a = s.modCtx c (fun x => x.swapped g) ∨ a = (s.modCtx c fun x => x.swapped g).setEpoch c 0) := by
    unfold State.applySwap
    dsimp only
    rw [h]
    dsimp only
    refine ⟨_, (State.linked_applyLinks ..).trans (State.linked_pendMarket ..), ?_⟩
    split
    · exact .inl rfl
    · exact .inr rfl
  obtain ⟨a, hl, ha⟩ := hlink
  have hctx : ∃ e, a.ctxAt c = { (s.ctxAt c).swapped g with epoch := e } := by
    rcases ha with rfl | rfl
    · exact ⟨_, hself⟩
    · exact ⟨0, (State.ctxAt_setEpoch _ 0 c).trans (by rw [hself])⟩
  obtain ⟨e, he⟩ := hctx
  refine ⟨fun k hk => ?_, ?_⟩
  · rw [hl.ctxAt]
    rcases ha with rfl | rfl
    · exact hother hk
    · exact (State.ctxAt_setEpoch_other _ _ _ hk).trans (hother hk)
  · rw [hl.ctxAt, he]
    exact ⟨rfl, rfl, rfl, rfl, rfl⟩

end

section
variable (a : Accepted (.swapConfig r) s r p)
include a

theorem exec_swapConfig_unverified
    (h : (s.ctxAt (pktCtx p)).shadow = none ∨ (s.ctxAt (pktCtx p)).verified = false) :
    exec (.swapConfig r) s = replies r p (s.takeEntry r.val p) 0x23 0 := by
  dsimp only [exec, execSwapConfig]
  rw [a.runCmd_eq rfl, State.ctxAt_takeEntry]
  cases hg : (s.ctxAt (pktCtx p)).shadow with
  | none => rfl
  | some g =>
    have hv : (s.ctxAt (pktCtx p)).verified = false := h.resolve_left (by simp [hg])
    exact congrArg (served r) (if_pos (by simp [hv]))

/-- The package with a swap made now or put off to a boundary. -/
def State.swapsNow (t : State) (c : Nat) (now : Bool) (n : BitVec 64) : State :=
  if now then t.applySwap c else t.modCtx c fun x => { x with swapAt := some n }

variable {g : JobCfg} (h : (s.ctxAt (pktCtx p)).shadow = some g) (hv : (s.ctxAt (pktCtx p)).verified = true)
  (hk : (s.ctxAt (pktCtx p)).lsec.wrongJob true g.job = false)
  (hp : (s.takeEntry r.val p).pairCheck (s.ctxAt (pktCtx p))
    ((s.ctxAt (pktCtx p)).pendImg <|> (s.ctxAt (pktCtx p)).img) (some g)
    (if BitVec.ofNat 64 (pf p 32 8) = 0 then (s.ctxAt (pktCtx p)).nextNo else (BitVec.ofNat 64 (pf p 32 8)).toNat + 1) =
      none)
include h hv hk hp

theorem exec_swapConfig_verified (hpast : ¬((s.ctxAt (pktCtx p)).st = .stepping ∧ BitVec.ofNat 64 (pf p 32 8) ≠ 0
    ∧ (BitVec.ofNat 64 (pf p 32 8)).toNat < (s.ctxAt (pktCtx p)).highest.toNat)) :
    exec (.swapConfig r) s = replies r p ((s.takeEntry r.val p).swapsNow (pktCtx p)
      ((s.ctxAt (pktCtx p)).st == CtxPhase.idle || ((s.ctxAt (pktCtx p)).steps.isEmpty
        && BitVec.ofNat 64 (pf p 32 8) != 0 && BitVec.ofNat 64 (pf p 32 8) == (s.ctxAt (pktCtx p)).highest))
      (BitVec.ofNat 64 (pf p 32 8))) 0 0 := by
  dsimp only [exec, execSwapConfig]
  rw [a.runCmd_eq rfl, State.ctxAt_takeEntry, h]
  dsimp only
  rw [if_neg (by simp [hv]), if_neg hpast, if_neg (by simp [hk]), hp]
  rfl

theorem exec_swapConfig_now (hnow : (s.ctxAt (pktCtx p)).st = .idle ∨ ((s.ctxAt (pktCtx p)).st = .stepping
    ∧ (s.ctxAt (pktCtx p)).steps = [] ∧ BitVec.ofNat 64 (pf p 32 8) ≠ 0
    ∧ BitVec.ofNat 64 (pf p 32 8) = (s.ctxAt (pktCtx p)).highest)) :
    exec (.swapConfig r) s = replies r p ((s.takeEntry r.val p).applySwap (pktCtx p)) 0 0 := by
  have hpast : ¬((s.ctxAt (pktCtx p)).st = .stepping ∧ BitVec.ofNat 64 (pf p 32 8) ≠ 0
      ∧ (BitVec.ofNat 64 (pf p 32 8)).toNat < (s.ctxAt (pktCtx p)).highest.toNat) := by
    rintro ⟨hst, -, hlt⟩
    rcases hnow with hi | ⟨-, -, -, heq⟩
    · exact absurd (hi.symm.trans hst) (by decide)
    · exact absurd (congrArg BitVec.toNat heq) (Nat.ne_of_lt hlt)
  rw [exec_swapConfig_verified a h hv hk hp hpast]
  refine congrArg (fun u : State => replies r p u 0 0) (if_pos ?_)
  rcases hnow with hi | ⟨-, hs, h0, heq⟩
  · simp [hi]
  · rw [hs, ← heq, bne_iff_ne.mpr h0, beq_self_eq_true]
    exact Bool.or_true _

theorem exec_swapConfig_later (hst : (s.ctxAt (pktCtx p)).st = .stepping)
    (hlater : (s.ctxAt (pktCtx p)).highest < BitVec.ofNat 64 (pf p 32 8) ∨ BitVec.ofNat 64 (pf p 32 8) = 0
      ∨ (BitVec.ofNat 64 (pf p 32 8) = (s.ctxAt (pktCtx p)).highest ∧ (s.ctxAt (pktCtx p)).steps ≠ [])) :
    exec (.swapConfig r) s = replies r p ((s.takeEntry r.val p).modCtx (pktCtx p)
      fun x => { x with swapAt := some (BitVec.ofNat 64 (pf p 32 8)) }) 0 0 := by
  generalize hn : BitVec.ofNat 64 (pf p 32 8) = n at hlater
  have hpast : ¬((s.ctxAt (pktCtx p)).st = .stepping ∧ n ≠ 0 ∧ n.toNat < (s.ctxAt (pktCtx p)).highest.toNat) := by
    rintro ⟨-, h0, hlt⟩
    rcases hlater with hgt | h0' | ⟨heq, -⟩
    · exact Nat.lt_asymm hlt hgt
    · exact h0 h0'
    · exact absurd (congrArg BitVec.toNat heq) (Nat.ne_of_lt hlt)
  rw [exec_swapConfig_verified a h hv hk hp (hn ▸ hpast), hn]
  refine congrArg (fun u : State => replies r p u 0 0) (if_neg ?_)
  rw [hst]
  rcases hlater with hgt | h0' | ⟨-, hs⟩
  · have hne : n ≠ (s.ctxAt (pktCtx p)).highest := fun heq => absurd hgt (heq ▸ BitVec.lt_irrefl _)
    simp [hne]
  · simp [h0']
  · simp [hs]

end

end

/-- Settles O46, by what each command finds in the order of its checks. That VERIFY_CONFIG without a shadow replies
CFG_NOT_VERIFIED (assumption log 45), when the pair is checked (log 43) and that a swap at a boundary already reached is
made at once (log 47) is the model's choice. -/
theorem imagesAndConfigurationsLoad : Obligations.ImagesAndConfigurationsLoad := by
  unfold Obligations.ImagesAndConfigurationsLoad
  intro s r p
  refine ⟨fun a => ⟨exec_loadImage_pending a, exec_loadImage_large a, exec_loadImage_unread a, fun b h hl hb => ?_⟩,
    fun a => ⟨fun k h => exec_loadConfig_swapping a h, exec_loadConfig_large a, fun b h hl hb =>
      ⟨fun e he => exec_loadConfig_bad a h hl hb he, fun g hg => exec_loadConfig_good a h hl hb hg⟩⟩,
    fun a => ⟨exec_verifyConfig_empty a, fun g e h he => exec_verifyConfig_bad a h he,
      fun g k h hk hm hp => exec_verifyConfig_good a h hk hm hp⟩,
    fun a => ⟨exec_swapConfig_unverified a, fun g h hv hk => ?_⟩⟩
  · have hexec := exec_loadImage_read a h hl hb
    exact ⟨fun e he => hexec.trans (congrArg (served r) (State.takeImage_rejected he)),
      fun d he hd => hexec.trans (congrArg (served r) (State.takeImage_mismatch he hd)),
      fun he hp hs => hexec.trans (congrArg (served r) (State.takeImage_active he hp hs)),
      fun he hp hs => hexec.trans (congrArg (served r) (State.takeImage_pending he hp hs))⟩
  · intro n hp
    refine ⟨fun hnow => ?_, fun hst hlater => exec_swapConfig_later a h hv hk hp hst hlater⟩
    obtain ⟨other, done⟩ := State.applySwap_does (s := s.takeEntry r.val p) h
    exact ⟨_, exec_swapConfig_now a h hv hk hp hnow, other.of_takeEntry, done⟩

end Sys2Proof.Machine
end

section
/-! START_STEPS, RESUME, HALT and ABORT_STEP (O47). -/

namespace Sys2Proof.Machine

/-! ## A read gives as many bytes as it asks for (R322, R333) -/

section
variable (s : State) (n : Option (BitVec 64)) (a len : Nat)

theorem lineData_length (m : MemSt) (line : Nat) : (lineData m line).length = 64 := by
  rw [lineData, List.length_map, List.length_range]

theorem State.readLine_length (line : Nat) (scrub : Bool) : (s.readLine line n scrub).2.1.length = 64 := by
  unfold State.readLine
  dsimp only
  split
  · exact lineData_length ..
  · dsimp only
    split
    · exact List.length_set.trans (lineData_length ..)
    · exact lineData_length ..
  · exact lineData_length ..

theorem State.hbmLines_length (scrub : Bool) (ls : List Nat) :
    (s.hbmLines n scrub ls).2.1.length = 64 * ls.length := by
  induction ls generalizing s with
  | nil => rfl
  | cons l ls ih =>
    rw [State.hbmLines, List.length_append, s.readLine_length, ih, List.length_cons]
    omega

theorem State.hbmRead_length : (s.hbmRead n a len).2.length = len := by
  unfold State.hbmRead linesOf
  dsimp only
  rw [List.length_take, List.length_drop, s.hbmLines_length]
  split
  · next h => omega
  · rw [List.length_map, List.length_range]
    omega

theorem State.memRead_length (e : Option EngRef) : (s.memRead e n a len).2.length = len := by
  unfold State.memRead
  dsimp only
  split
  · exact s.hbmRead_length ..
  · exact (List.length_map ..).trans List.length_range
  · exact (List.length_map ..).trans List.length_range
  · exact rdBytes_length ..
  · exact List.length_replicate

theorem State.physRead_length (who : Issuer) : (s.physRead who n a len).2.length = len := by
  unfold State.physRead
  split
  · next h => exact h.symm
  · split
    · exact List.length_replicate
    · exact s.memRead_length ..

end

theorem StoreAccess.ctxAt {s t : State} (h : StoreAccess s t) (k : Nat) : t.ctxAt k = s.ctxAt k := by
  rw [h]
  rfl

/-! ## Records (R617-R621) -/

section
variable {s : State} {c : Nat} {b : Bytes}

/-- The newest record of a context is a record (R621). -/
theorem State.recValid_newestRec (h : s.newestRec c = some b) : recValid b = true := by
  unfold State.newestRec at h
  dsimp only at h
  split at h
  · next ha hb =>
    split at h
    · exact Option.some.inj h ▸ hb
    · exact Option.some.inj h ▸ ha
  · next ha _ => exact Option.some.inj h ▸ ha
  · next _ hb => exact Option.some.inj h ▸ hb
  · exact absurd h (by simp)

theorem State.newestRec_congr {t : State} (h : t.mem.jd = s.mem.jd) : t.newestRec c = s.newestRec c := by
  unfold State.newestRec State.jdRead
  rw [h]

theorem State.newestRec_takeEntry (q : Nat) (p : BitVec 512) : (s.takeEntry q p).newestRec c = s.newestRec c :=
  State.newestRec_congr rfl

end

/-! ## Steps that begin (R692-R697) -/

/-- A context whose steps are scheduled. -/
def CtxSt.begun (x : CtxSt) (step0 : BitVec 64) (n : Nat) (fin : TrainSt) : CtxSt :=
  { x with
    st := .stepping, steps := [], next := some step0, unbounded := n == 0,
    remain := if n = 0 then none else some n, haltAfter := none, saveSched := false, haltTo := none, cause := 0,
    fin := fin, halted := false, haltRec := false }

section
variable (s : State) (c : Nat) (step0 : BitVec 64) (n : Nat) (fin : TrainSt)

theorem State.ctxAt_beginSteps (k : Nat) : (s.beginSteps c step0 n fin).ctxAt k =
    if k = c then (s.ctxAt c).begun step0 n fin else s.ctxAt k := by
  unfold State.beginSteps
  rw [State.ctxAt_modCtx, State.ctxAt_parkEngines, State.ctxAt_parkEngines, State.ctxAt_release, State.ctxAt_release,
    if_pos rfl]
  split <;> rfl

theorem State.mem_beginSteps : (s.beginSteps c step0 n fin).mem = s.mem := by
  have h : (s.release c).mem = s.mem := by
    unfold State.release
    dsimp only
    split <;> rfl
  have hpark (u : State) (f : CtxSt → CtxSt) : (u.parkEngines.modCtx c f).mem = u.mem := rfl
  unfold State.beginSteps
  rw [hpark, h]

/-- The steps of a context are scheduled between two states. -/
def Begun (u : State) : Prop := OtherContexts s u c ∧ u.ctxAt c = (s.ctxAt c).begun step0 n fin

theorem State.begun_beginSteps {v : State} (hv : ∀ k, v.ctxAt k = s.ctxAt k) :
    Begun s c step0 n fin (v.beginSteps c step0 n fin) := by
  refine ⟨fun k hk => ?_, ?_⟩
  · rw [v.ctxAt_beginSteps, if_neg hk, hv]
  · rw [v.ctxAt_beginSteps, if_pos rfl, hv]

end

/-! ## The record that is followed (R693-R696) -/

section
variable {t : State} {q : Nat} {p : BitVec 512} {b : Bytes} {im : Img} {g : JobCfg} {jd verify : Bool}
  {step0 : Option (BitVec 64)} {n : Nat} (hi : (t.ctxAt (pktCtx p)).img = some im)
  (hg : (t.ctxAt (pktCtx p)).cfg = some g) (hb : recValid b = true)
include hi hg hb

/-- A record of another step than the one before the first is not followed. -/
theorem State.startFrom_other {k : BitVec 64} (hk : recStep b + 1 ≠ k) :
    t.startFrom q p (some b) jd verify (some k) n = t.reply q p 0x31 (fld b 8 8) 0 := by
  unfold State.startFrom
  dsimp only
  rw [hi, hg]
  dsimp only
  rw [if_pos (by simpa [hb] using hk.symm)]

/-- A record that is followed without a check of its digests. -/
theorem State.startFrom_begins (hk : step0 = none ∨ step0 = some (recStep b + 1))
    (hp : t.pairErr (t.ctxAt (pktCtx p)) im g = none) : t.startFrom q p (some b) jd false step0 n =
      (if jd then (t.jdWrite (recSlot (pktCtx p) (recStep b + 1 - 1)) b).refreshCm else t).beginSteps (pktCtx p)
        (recStep b + 1) n (trainOf b) := by
  unfold State.startFrom
  dsimp only
  rw [hi, hg]
  dsimp only
  rw [if_neg (by rcases hk with rfl | rfl <;> simp [hb]), hp]
  rfl

end

/-! ## START_STEPS (R692-R696) -/

section
variable {s : State} {r : Fin 8} {p : BitVec 512} (a : Accepted (.startSteps r) s r p)
include a

theorem exec_startSteps_refused {e : Nat × Nat}
    (h : (s.takeEntry r.val p).startErr (s.ctxAt (pktCtx p)) (pf p 28 1) = some e) :
    exec (.startSteps r) s = replies r p (s.takeEntry r.val p) e.1 e.2 := by
  dsimp only [exec, execStartSteps]
  rw [a.runCmd_eq rfl, State.ctxAt_takeEntry, h]
  rfl

variable {im : Img} {g : JobCfg} (hi : (s.ctxAt (pktCtx p)).img = some im) (hg : (s.ctxAt (pktCtx p)).cfg = some g)
  (h : (s.takeEntry r.val p).startErr (s.ctxAt (pktCtx p)) (pf p 28 1) = none)
include hi hg h

theorem exec_startSteps_bounds (h0 : pf p 28 1 = 0)
    (hl : asInt 8 (pf p 30 1) < g.opt.lsMin ∨ g.opt.lsMax < asInt 8 (pf p 30 1)) :
    exec (.startSteps r) s = replies r p (s.takeEntry r.val p) 2 30 := by
  dsimp only [exec, execStartSteps]
  rw [a.runCmd_eq rfl, State.ctxAt_takeEntry, h, hi, hg]
  exact congrArg (served r) ((if_pos h0).trans (if_pos hl))

theorem exec_startSteps_fresh (h0 : pf p 28 1 = 0) (hl : g.opt.lsMin ≤ asInt 8 (pf p 30 1))
    (hl' : asInt 8 (pf p 30 1) ≤ g.opt.lsMax) (hp : (s.takeEntry r.val p).pairErr (s.ctxAt (pktCtx p)) im g = none) :
    exec (.startSteps r) s = served r ((s.takeEntry r.val p).beginSteps (pktCtx p) (BitVec.ofNat 64 (pf p 32 8))
      (pf p 40 8) (trainFresh (asInt 8 (pf p 30 1)))) := by
  dsimp only [exec, execStartSteps]
  rw [a.runCmd_eq rfl, State.ctxAt_takeEntry, h, hi, hg]
  dsimp only
  rw [if_pos h0, if_neg (by omega), hp]

/-- SRC 1 follows the newest record. -/
theorem exec_startSteps_newest (h1 : pf p 28 1 = 1) {b : Bytes} (hb : s.newestRec (pktCtx p) = some b) :
    exec (.startSteps r) s = served r ((s.takeEntry r.val p).startFrom r.val p (some b) false (pf p 29 1 == 1)
      (some (BitVec.ofNat 64 (pf p 32 8))) (pf p 40 8)) := by
  dsimp only [exec, execStartSteps]
  rw [a.runCmd_eq rfl, State.ctxAt_takeEntry, h, hi, hg]
  dsimp only
  rw [if_neg (by omega), if_pos h1, State.newestRec_takeEntry, hb]

theorem startSteps_fresh (h0 : pf p 28 1 = 0) (hl : g.opt.lsMin ≤ asInt 8 (pf p 30 1))
    (hl' : asInt 8 (pf p 30 1) ≤ g.opt.lsMax) (hp : (s.takeEntry r.val p).pairErr (s.ctxAt (pktCtx p)) im g = none) :
    ∃ u, exec (.startSteps r) s = served r u ∧ Begun s (pktCtx p) (BitVec.ofNat 64 (pf p 32 8)) (pf p 40 8)
      (trainFresh (asInt 8 (pf p 30 1))) u :=
  ⟨_, exec_startSteps_fresh a hi hg h h0 hl hl' hp, State.begun_beginSteps _ _ _ _ _ fun _ => rfl⟩

theorem startSteps_other (h1 : pf p 28 1 = 1) {b : Bytes} (hb : s.newestRec (pktCtx p) = some b)
    (hk : recStep b + 1 ≠ BitVec.ofNat 64 (pf p 32 8)) :
    exec (.startSteps r) s = replies r p (s.takeEntry r.val p) 0x31 (fld b 8 8) :=
  (exec_startSteps_newest a hi hg h h1 hb).trans
    (congrArg (served r) (State.startFrom_other (t := s.takeEntry r.val p) hi hg (State.recValid_newestRec hb) hk))

theorem startSteps_newest (h1 : pf p 28 1 = 1) {b : Bytes} (hb : s.newestRec (pktCtx p) = some b)
    (hk : recStep b + 1 = BitVec.ofNat 64 (pf p 32 8))
    (hp : (s.takeEntry r.val p).pairErr (s.ctxAt (pktCtx p)) im g = none) (hv : pf p 29 1 = 0) :
    ∃ u, exec (.startSteps r) s = served r u ∧ Begun s (pktCtx p) (recStep b + 1) (pf p 40 8) (trainOf b) u := by
  have hexec := exec_startSteps_newest a hi hg h h1 hb
  rw [hv, ← hk] at hexec
  exact ⟨_, hexec.trans (congrArg (served r)
      (State.startFrom_begins hi hg (State.recValid_newestRec hb) (.inr rfl) hp)),
    State.begun_beginSteps _ _ _ _ _ fun _ => rfl⟩

variable (h2 : pf p 28 1 = 2)
include h2

theorem exec_startSteps_outside
    (hin : (s.takeEntry r.val p).inRegion (s.ctxAt (pktCtx p)) (pf p 48 8) 4096 = false) :
    exec (.startSteps r) s = replies r p (s.takeEntry r.val p) 2 48 := by
  dsimp only [exec, execStartSteps]
  rw [a.runCmd_eq rfl, State.ctxAt_takeEntry, h, hi, hg]
  dsimp only
  rw [if_neg (by omega), if_neg (by omega), if_pos (by simp [hin])]
  rfl

/-- SRC 2 follows a record of the context's region. -/
theorem exec_startSteps_region
    (hin : (s.takeEntry r.val p).inRegion (s.ctxAt (pktCtx p)) (pf p 48 8) 4096 = true) :
    let q := (s.takeEntry r.val p).physRead (.command (Fin.ofNat 4 (pktCtx p))) none (pf p 48 8) 4096
    exec (.startSteps r) s = served r (q.1.startFrom r.val p (some q.2) true (pf p 29 1 == 1)
      (some (BitVec.ofNat 64 (pf p 32 8))) (pf p 40 8)) := by
  dsimp only [exec, execStartSteps]
  rw [a.runCmd_eq rfl, State.ctxAt_takeEntry, h, hi, hg]
  dsimp only
  rw [if_neg (by omega), if_neg (by omega), if_neg (by simp [hin])]

theorem startSteps_region (hin : (s.takeEntry r.val p).inRegion (s.ctxAt (pktCtx p)) (pf p 48 8) 4096 = true) :
    let q := (s.takeEntry r.val p).physRead (.command (Fin.ofNat 4 (pktCtx p))) none (pf p 48 8) 4096
    recValid q.2 = true → recStep q.2 + 1 = BitVec.ofNat 64 (pf p 32 8) →
    q.1.pairErr (s.ctxAt (pktCtx p)) im g = none → pf p 29 1 = 0 →
    ∃ u, exec (.startSteps r) s = served r u
      ∧ Begun s (pktCtx p) (recStep q.2 + 1) (pf p 40 8) (trainOf q.2) u
      ∧ u.jdRead (recSlot (pktCtx p) (recStep q.2)) 4096 = q.2 := by
  intro q hb hk hp hv
  have hexec := exec_startSteps_region a hi hg h h2 hin
  have hctx (k : Nat) : q.1.ctxAt k = s.ctxAt k :=
    ((s.takeEntry r.val p).storeAccess_physRead none (pf p 48 8) (.command (Fin.ofNat 4 (pktCtx p))) 4096).ctxAt k
  have hlen : q.2.length = 4096 := State.physRead_length ..
  change exec (.startSteps r) s = served r (q.1.startFrom r.val p (some q.2) true (pf p 29 1 == 1)
    (some (BitVec.ofNat 64 (pf p 32 8))) (pf p 40 8)) at hexec
  generalize q.1 = v at hexec hctx hp
  generalize q.2 = b at hexec hb hk hlen
  rw [hv, ← hk] at hexec
  refine ⟨_, hexec.trans (congrArg (served r) (State.startFrom_begins (by rw [hctx]; exact hi) (by rw [hctx]; exact hg)
    hb (.inr rfl) (by rw [hctx]; exact hp))), State.begun_beginSteps _ _ _ _ _ fun k => ?_, ?_⟩
  · exact hctx k
  · rw [State.jdRead, State.mem_beginSteps, BitVec.add_sub_cancel, if_pos rfl, ← hlen]
    exact rdBytes_wrBytes ..

end

/-! ## RESUME (R700) -/

section
variable {s : State} {r : Fin 8} {p : BitVec 512} (a : Accepted (.resume r) s r p)
include a

theorem exec_resume_refused {e : Nat × Nat} (h : (s.takeEntry r.val p).startErr (s.ctxAt (pktCtx p)) 1 = some e) :
    exec (.resume r) s = replies r p (s.takeEntry r.val p) e.1 e.2 := by
  dsimp only [exec, execResume]
  rw [a.runCmd_eq rfl, State.ctxAt_takeEntry, h]
  rfl

theorem exec_resume_follows (h : (s.takeEntry r.val p).startErr (s.ctxAt (pktCtx p)) 1 = none) :
    exec (.resume r) s = served r ((s.takeEntry r.val p).startFrom r.val p (s.newestRec (pktCtx p)) false false none
      (pf p 40 8)) := by
  dsimp only [exec, execResume]
  rw [a.runCmd_eq rfl, State.ctxAt_takeEntry, h]
  dsimp only
  rw [State.newestRec_takeEntry]

theorem resume_begins {im : Img} {g : JobCfg} {b : Bytes} (hi : (s.ctxAt (pktCtx p)).img = some im)
    (hg : (s.ctxAt (pktCtx p)).cfg = some g) (h : (s.takeEntry r.val p).startErr (s.ctxAt (pktCtx p)) 1 = none)
    (hb : s.newestRec (pktCtx p) = some b) (hp : (s.takeEntry r.val p).pairErr (s.ctxAt (pktCtx p)) im g = none) :
    ∃ u, exec (.resume r) s = served r u ∧ Begun s (pktCtx p) (recStep b + 1) (pf p 40 8) (trainOf b) u := by
  have hexec := exec_resume_follows a h
  rw [hb] at hexec
  exact ⟨_, hexec.trans (congrArg (served r) (State.startFrom_begins (t := s.takeEntry r.val p) hi hg
    (State.recValid_newestRec hb) (.inl rfl) hp)), State.begun_beginSteps _ _ _ _ _ fun _ => rfl⟩

end

/-! ## HALT (R697-R699) -/

theorem Told.cm {s t : State} (h : Told s t) : t.cm = s.cm := by rw [h]

theorem State.told_reply (s : State) (r : Nat) (p : BitVec 512) (st d n : Nat) : Told s (s.reply r p st d n) := by
  have h (f : RingSt → RingSt) : Told s (s.modRing r f) := rfl
  unfold State.reply
  dsimp only
  split
  · exact h _
  · exact (h _).trans (State.told_putEntry ..)

section
variable {s : State} {r : Fin 8} {p : BitVec 512} (a : Accepted (.halt r) s r p)
include a

theorem exec_halt_past (h0 : BitVec.ofNat 64 (pf p 32 8) ≠ 0)
    (h : BitVec.ofNat 64 (pf p 32 8) < (s.ctxAt (pktCtx p)).highest) :
    exec (.halt r) s = replies r p (s.takeEntry r.val p) 7
      ((s.ctxAt (pktCtx p)).st.code + 256 * (s.ctxAt (pktCtx p)).highest.toNat) := by
  dsimp only [exec, execHalt]
  rw [a.runCmd_eq rfl, State.ctxAt_takeEntry]
  exact congrArg (served r) (if_pos ⟨h0, h⟩)

/-- The last step of a halt that names step `n`, zero for the step in hand. -/
def CtxSt.lastOf (x : CtxSt) (n : BitVec 64) : BitVec 64 := if n = 0 then x.highest else n

variable (h : (s.ctxAt (pktCtx p)).highest ≤ (s.ctxAt (pktCtx p)).lastOf (BitVec.ofNat 64 (pf p 32 8)))
include h

theorem exec_halt_set : exec (.halt r) s =
    let v := ((s.takeEntry r.val p).modCtx (pktCtx p) fun x =>
      { x with haltAfter := some ((s.ctxAt (pktCtx p)).lastOf (BitVec.ofNat 64 (pf p 32 8))) }).reply r.val p 0 0 0
    served r (if (s.ctxAt (pktCtx p)).steps.isEmpty
        ∧ (s.ctxAt (pktCtx p)).lastOf (BitVec.ofNat 64 (pf p 32 8)) = (s.ctxAt (pktCtx p)).highest then
      v.stopSteps (pktCtx p) else v) := by
  dsimp only [exec, execHalt]
  rw [a.runCmd_eq rfl, State.ctxAt_takeEntry]
  refine congrArg (served r) (if_neg fun ⟨h0, hlt⟩ => ?_)
  rw [CtxSt.lastOf, if_neg h0] at h
  exact Nat.not_lt.mpr h hlt

theorem halt_later (hgo : (s.ctxAt (pktCtx p)).steps ≠ []
    ∨ (s.ctxAt (pktCtx p)).lastOf (BitVec.ofNat 64 (pf p 32 8)) ≠ (s.ctxAt (pktCtx p)).highest) :
    exec (.halt r) s = served r (((s.takeEntry r.val p).modCtx (pktCtx p) fun x =>
      { x with haltAfter := some ((s.ctxAt (pktCtx p)).lastOf (BitVec.ofNat 64 (pf p 32 8))) }).reply r.val p 0 0
        0) := by
  rw [exec_halt_set a h]
  refine congrArg (served r) (if_neg fun ⟨hs, hk⟩ => ?_)
  exact hgo.elim (· (List.isEmpty_iff.mp hs)) (· hk)

omit h in
theorem halt_now (hs : (s.ctxAt (pktCtx p)).steps = [])
    (hk : (s.ctxAt (pktCtx p)).lastOf (BitVec.ofNat 64 (pf p 32 8)) = (s.ctxAt (pktCtx p)).highest) :
    let v := ((s.takeEntry r.val p).modCtx (pktCtx p) fun x =>
      { x with haltAfter := some ((s.ctxAt (pktCtx p)).lastOf (BitVec.ofNat 64 (pf p 32 8))) }).reply r.val p 0 0 0
    exec (.halt r) s = served r ((v.modCtx (pktCtx p) fun x =>
      { x with st := .idle, haltAfter := none, remain := none, unbounded := false, next := none }).event (pktCtx p)
        0x8003 s.cm.last.toNat) := by
  intro v
  have hcm : v.cm = s.cm := (State.told_reply ..).cm
  rw [exec_halt_set a (by rw [hk]; exact BitVec.le_refl _)]
  refine congrArg (served r) ((if_pos ⟨List.isEmpty_iff.mpr hs, hk⟩).trans ?_)
  change v.stopSteps (pktCtx p) = _
  unfold State.stopSteps
  dsimp only
  rw [State.modCtx_cm, hcm]

end

/-! ## ABORT_STEP (R701) -/

section
variable {s : State} {r : Fin 8} {p : BitVec 512} (a : Accepted (.abortStep r) s r p)
include a

theorem exec_abortStep_none
    (h : (s.ctxAt (pktCtx p)).steps.filter (fun k => k.abortable && k.st != .committing) = []) :
    exec (.abortStep r) s = replies r p (s.takeEntry r.val p) 7 (s.ctxAt (pktCtx p)).st.code := by
  dsimp only [exec, execAbortStep]
  rw [a.runCmd_eq rfl, State.ctxAt_takeEntry, h]
  rfl

theorem exec_abortStep_some
    (h : (s.ctxAt (pktCtx p)).steps.filter (fun k => k.abortable && k.st != .committing) ≠ []) :
    exec (.abortStep r) s = replies r p ((s.takeEntry r.val p).abortSteps (pktCtx p)
      (((s.ctxAt (pktCtx p)).steps.filter fun k => k.abortable && k.st != .committing).map (·.no)) true) 0 0 := by
  dsimp only [exec, execAbortStep]
  rw [a.runCmd_eq rfl, State.ctxAt_takeEntry]
  exact congrArg (served r) (if_neg (mt List.isEmpty_iff.mp h))

end

/-- Settles O47, by the checks in their order and what begins after them. That a HALT whose boundary is past stops at
once is the model's choice (assumption log 47). -/
theorem stepCommandsTakeEffect : Obligations.StepCommandsTakeEffect := by
  unfold Obligations.StepCommandsTakeEffect
  intro s r p
  refine ⟨fun a => ⟨fun e he => exec_startSteps_refused a he, fun im g hi hg h =>
      ⟨fun h0 => ⟨exec_startSteps_bounds a hi hg h h0, startSteps_fresh a hi hg h h0⟩,
        fun h1 b hb => ⟨startSteps_other a hi hg h h1 hb, startSteps_newest a hi hg h h1 hb⟩,
        exec_startSteps_outside a hi hg h, fun h2 hin hb hk hp hv => startSteps_region a hi hg h h2 hin hb hk hp hv⟩⟩,
    fun a => ⟨fun e he => exec_resume_refused a he, fun im g b hi hg h hb hp => resume_begins a hi hg h hb hp⟩,
    fun a => ⟨exec_halt_past a, fun h hgo => halt_later a h hgo, fun hs hk => halt_now a hs hk⟩,
    fun a => ⟨exec_abortStep_none a, exec_abortStep_some a⟩⟩

end Sys2Proof.Machine
end

section
/-! SAVE_COMPLETE, CONTEXT_RESTORE_COMPLETE and CONTEXT_SCRUB_COMPLETE (O48). -/

namespace Sys2Proof.Machine

/-! ## Tables without some of their keys -/

/-- A table that keeps the keys of which `q` holds. -/
theorem tget_filter {α : Type} (d : α) (t : Tbl α) (q : Nat → Bool) (k : Nat) :
    tget d (t.filter fun e => q e.1) k = if q k then tget d t k else d := by
  induction t with
  | nil => exact (ite_self _).symm
  | cons e t ih =>
    rw [List.filter_cons]
    by_cases hk : e.1 = k
    · cases hq : q e.1 with
      | true => rw [if_pos rfl, if_pos (hk ▸ hq), tget, tget, if_pos hk, if_pos hk]
      | false =>
        have hqk : q k = false := hk ▸ hq
        rw [if_neg Bool.false_ne_true, ih, if_neg (by simp [hqk]), if_neg (by simp [hqk])]
    · have htail : tget d (e :: t) k = tget d t k := by rw [tget, if_neg hk]
      rw [htail, ← ih]
      split
      · rw [tget, if_neg hk]
      · rfl

theorem rdBytes_wrBytes_of_length {t : Tbl Byte} {a n : Nat} {bs : Bytes} (h : bs.length = n) :
    rdBytes (wrBytes t a bs) a n = bs := by
  rw [← h, rdBytes_wrBytes]

/-! ## Restores that wait (R674) -/

section
variable (s : State)

/-- What `wakeRestores` does for one context. -/
def State.wakeOne (c : Nat) : State :=
  if (s.ctxAt c).restoreWait then
    (match s.restoreGate true with
     | .free => s.beginRestore c
     | .wait => s
     | .other o => (s.modCtx c fun x => { x with restoreWait := false }).replyWaiting [0x12] c 0x41 o)
  else s

theorem State.wakeRestores_def : s.wakeRestores = (List.range 4).foldl State.wakeOne s := rfl

theorem State.wakeOne_idle {c : Nat} (h : (s.ctxAt c).restoreWait = false) : s.wakeOne c = s := if_neg (by simp [h])

theorem State.wakeOne_free {c : Nat} (h : (s.ctxAt c).restoreWait = true) (hr : s.resident = none) :
    s.wakeOne c = s.beginRestore c := by
  rw [State.wakeOne, if_pos h, State.restoreGate, State.cur, hr, Option.map_none]

theorem State.wakeAll_idle {l : List Nat} (h : ∀ c, c ∈ l → (s.ctxAt c).restoreWait = false) :
    l.foldl State.wakeOne s = s := by
  induction l with
  | nil => rfl
  | cons c l ih =>
    rw [List.foldl_cons, s.wakeOne_idle (h c List.mem_cons_self)]
    exact ih fun k hk => h k (List.mem_cons_of_mem c hk)

theorem State.wakeRestores_idle (h : ∀ c, c < 4 → (s.ctxAt c).restoreWait = false) : s.wakeRestores = s :=
  s.wakeAll_idle fun c hc => h c (List.mem_range.mp hc)

/-- The one restore that waits begins where no context is resident. -/
theorem State.wakeRestores_one {c : Nat} (hc : c < 4) (h : (s.ctxAt c).restoreWait = true)
    (hother : ∀ k, k < 4 → k ≠ c → (s.ctxAt k).restoreWait = false) (hr : s.resident = none) :
    s.wakeRestores = s.beginRestore c := by
  obtain ⟨l, m, hl⟩ := List.append_of_mem (List.mem_range.mpr hc)
  have hnodup : (l ++ c :: m).Nodup := hl ▸ List.nodup_range
  obtain ⟨-, hm, hdisj⟩ := List.nodup_append.mp hnodup
  have hidle {k : Nat} (hk : k ∈ l ++ c :: m) (hne : k ≠ c) : (s.ctxAt k).restoreWait = false :=
    hother k (List.mem_range.mp (hl ▸ hk)) hne
  obtain ⟨other, ctx, -, -⟩ := s.beginRestore_does c
  rw [State.wakeRestores_def, hl, List.foldl_append, List.foldl_cons, s.wakeAll_idle fun k hk =>
    hidle (List.mem_append_left _ hk) (hdisj k hk c List.mem_cons_self), s.wakeOne_free h hr]
  refine State.wakeAll_idle _ fun k hk => ?_
  have hne : k ≠ c := fun heq => (List.nodup_cons.mp hm).1 (heq ▸ hk)
  rw [other k hne]
  exact hidle (List.mem_append_right _ (List.mem_cons_of_mem c hk)) hne

end

/-! ## SAVE_COMPLETE (R673) -/

section
variable (s : State) (c : Fin 4)

/-- The package in which a context is saved. -/
def State.saved : State :=
  ({ s.modCtx c.val (fun x => { x with
    st := .saved, savedX := s.sync.xcnt, savedSpm := some s.mem.spm, savedSram := some s.mem.sram }) with
    resident := none } : State).parkEngines

theorem State.saved_does : let v := s.saved c
    v.resident = none ∧ v.ctxAt c.val = { s.ctxAt c.val with
        st := .saved, savedX := s.sync.xcnt, savedSpm := some s.mem.spm, savedSram := some s.mem.sram }
      ∧ OtherContexts s v c.val ∧ v = { s with ctx := v.ctx, resident := v.resident, eng := v.eng, ue := v.ue } := by
  have hctx (u : State) (o : Option (Fin 4)) (k : Nat) :
      ({ u with resident := o } : State).parkEngines.ctxAt k = u.ctxAt k := rfl
  refine ⟨rfl, ?_, fun k hk => ?_, ?_⟩
  · exact (hctx ..).trans ((State.ctxAt_modCtx ..).trans (if_pos rfl))
  · exact (hctx ..).trans ((State.ctxAt_modCtx ..).trans (if_neg hk))
  · dsimp only [State.saved, State.parkEngines, State.dropJournal, State.modCtx]

theorem exec_saveComplete (h : s.regionServed (s.ctxAt c.val) = true) (hst : (s.ctxAt c.val).st = .saving)
    (hd : (s.ctxAt c.val).destroyWait = false) : exec (.saveComplete c) s =
      .next ((s.saved c).event c.val 0x8005 s.cm.last.toNat).refreshCm.wakeRestores := by
  refine (if_neg (by simp [hst, h])).trans (congrArg (fun u : State => Host.Outcome.next u.wakeRestores) ?_)
  exact if_neg (by simp [hd])

theorem State.ctxAt_refreshCm (k : Nat) : s.refreshCm.ctxAt k = s.ctxAt k := rfl

theorem Told.resident {s t : State} (h : Told s t) : t.resident = s.resident := by rw [h]

/-- What a save leaves before the restores that wait. -/
def State.saveDone : State := ((s.saved c).event c.val 0x8005 s.cm.last.toNat).refreshCm

theorem State.resident_saveDone : (s.saveDone c).resident = none :=
  (State.told_event ..).resident.trans (s.saved_does c).1

theorem State.restoreWait_saveDone (k : Nat) :
    ((s.saveDone c).ctxAt k).restoreWait = (s.ctxAt k).restoreWait := by
  obtain ⟨-, hself, hother, -⟩ := s.saved_does c
  rw [State.saveDone, State.ctxAt_refreshCm, (State.told_event ..).ctxAt]
  by_cases hk : k = c.val
  · rw [hk, hself]
  · rw [hother k hk]

end

/-! ## CONTEXT_RESTORE_COMPLETE (R675, R742) -/

section
variable (s : State) (c : Fin 4)

/-- The package once the save area is copied back. -/
def State.copiedBack : State :=
  let x := s.ctxAt c.val
  { s with
    sync := { s.sync with xcnt := x.savedX },
    mem := { s.mem with spm := x.savedSpm.getD s.mem.spm, sram := x.savedSram.getD s.mem.sram } }

/-- A context whose stores are copied back. -/
def CtxSt.copied (x : CtxSt) : CtxSt :=
  { x with st := if (x.unbounded || decide (0 < x.remain.getD 0)) && !x.haltRec then .stepping else .idle,
           savedX := [], savedSpm := none, savedSram := none }

/-- A context whose scheduled steps a halt has discarded meanwhile (R742). -/
def CtxSt.haltedMeanwhile (x : CtxSt) : CtxSt :=
  { x with haltRec := false, next := none, remain := none, unbounded := false, haltAfter := none }

theorem State.modCtx_congr {f g : CtxSt → CtxSt} {k : Nat} (h : f (s.ctxAt k) = g (s.ctxAt k)) :
    s.modCtx k f = s.modCtx k g :=
  congrArg (fun x => { s with ctx := tset .reset s.ctx k x }) h

/-- The package once the context is restored. -/
def State.restoredCtx : State := (s.copiedBack c).modCtx c.val CtxSt.copied

/-- What the end of a restore of a context leaves, `x` of that context. -/
def Restored (x : CtxSt) (u : State) : Prop :=
  u.sync = { s.sync with xcnt := (s.ctxAt c.val).savedX } ∧ OtherContexts s u c.val
    ∧ u.mem = { s.mem with
        spm := (s.ctxAt c.val).savedSpm.getD s.mem.spm, sram := (s.ctxAt c.val).savedSram.getD s.mem.sram }
    ∧ u = { s with sync := u.sync, mem := u.mem, ctx := u.ctx } ∧ u.ctxAt c.val = x

theorem State.restored_restoredCtx : Restored s c (s.ctxAt c.val).copied (s.restoredCtx c) := by
  refine ⟨rfl, fun k hk => ?_, rfl, ?_, ?_⟩
  · exact (State.ctxAt_modCtx ..).trans (if_neg hk)
  · dsimp only [State.restoredCtx, State.copiedBack, State.modCtx]
  · exact (State.ctxAt_modCtx ..).trans (if_pos rfl)

theorem Restored.modCtx {s : State} {c : Fin 4} {x : CtxSt} {u : State} (h : Restored s c x u) (f : CtxSt → CtxSt) :
    Restored s c (f x) (u.modCtx c.val f) := by
  obtain ⟨sync, other, mem, frame, ctx⟩ := h
  refine ⟨sync, fun k hk => ?_, mem, ?_, ?_⟩
  · exact (State.ctxAt_modCtx ..).trans ((if_neg hk).trans (other k hk))
  · rw [frame]
    dsimp only [State.modCtx]
  · exact (State.ctxAt_modCtx ..).trans ((if_pos rfl).trans (congrArg f ctx))

variable {s c} (h : s.regionServed (s.ctxAt c.val) = true) (hst : (s.ctxAt c.val).st = .restoring)
  (h0 : (s.mktAt 0).pendCfg = none) (h1 : (s.mktAt 1).pendCfg = none) (hd : (s.ctxAt c.val).destroyWait = false)
include h hst h0 h1 hd

theorem exec_contextRestoreComplete (hr : (s.ctxAt c.val).haltRec = false) : exec (.contextRestoreComplete c) s =
    .next ((s.restoredCtx c).replyWaiting [0x12] c.val 0 0) := by
  refine (if_neg (by simp [hst, h, h0, h1])).trans (congrArg Host.Outcome.next ((if_neg (by simp [hd])).trans ?_))
  refine congrArg (fun u : State => u.replyWaiting [0x12] c.val 0 0) ((if_neg (by simp [hr])).trans ?_)
  exact State.modCtx_congr (s.copiedBack c) rfl

theorem exec_contextRestoreComplete_halted (hr : (s.ctxAt c.val).haltRec = true) : exec (.contextRestoreComplete c) s =
    .next ((((s.restoredCtx c).modCtx c.val CtxSt.haltedMeanwhile).event c.val 0x8004 s.cm.last.toNat).replyWaiting
      [0x12] c.val 0 0) := by
  refine (if_neg (by simp [hst, h, h0, h1])).trans (congrArg Host.Outcome.next ((if_neg (by simp [hd])).trans ?_))
  refine congrArg (fun u : State => u.replyWaiting [0x12] c.val 0 0) ((if_pos (by simp [hr])).trans ?_)
  refine congrArg (fun u : State => (u.modCtx c.val CtxSt.haltedMeanwhile).event c.val 0x8004 s.cm.last.toNat) ?_
  exact State.modCtx_congr (s.copiedBack c) rfl

end

/-! ## CONTEXT_SCRUB_COMPLETE (R676) -/

section
variable (s : State) (c : Fin 4)

/-- Whether an address lies outside a context's region. -/
def CtxSt.outside (x : CtxSt) (a : Nat) : Bool := decide (a < x.base) || decide (x.base + x.bytes ≤ a)

/-- The package with the HBM of a context's region zero. -/
def State.zeroed : State :=
  { s with mem := { s.mem with
      hbm := s.mem.hbm.filter fun e => (s.ctxAt c.val).outside e.1,
      ecc := s.mem.ecc.filter fun e => (s.ctxAt c.val).outside (64 * (e.1 / 68)) } }

/-- The package with the stores of a scrubbed context zero. -/
def State.cleanedStores : State :=
  if s.resident = some c then (s.zeroed c).clearResident (s.ctxAt c.val) else s.zeroed c

/-- The package with a context scrubbed. -/
def State.scrubbed : State :=
  (((s.cleanedStores c).jdWrite (0x8000 + c.val * 0x2000) (List.replicate 0x2000 0#8)).clearStreams c.val).modCtx c.val
    fun x => { CtxSt.reset with lsec := x.lsec }

/-- What a scrub keeps of the stores and the contexts. -/
structure Cleaned (u : State) : Prop where
  hbm : u.mem.hbm = (s.zeroed c).mem.hbm
  ctx : u.ctx = s.ctx
  resident : s.resident = some c → u.resident = none ∧ u.mem.spm.gen = none ∧ u.mem.spm.cells = []
    ∧ u.mem.sram.cells = [] ∧ u.sync.xcnt = []
  other : s.resident ≠ some c → u.resident = s.resident ∧ u.mem.spm = s.mem.spm ∧ u.mem.sram = s.mem.sram

theorem State.cleaned_stores : Cleaned s c (s.cleanedStores c) := by
  unfold State.cleanedStores
  split
  · next hr =>
    unfold State.clearResident
    dsimp only
    split
    · exact ⟨rfl, rfl, fun _ => ⟨rfl, rfl, rfl, rfl, rfl⟩, fun h => absurd hr h⟩
    · exact ⟨rfl, rfl, fun _ => ⟨rfl, rfl, rfl, rfl, rfl⟩, fun h => absurd hr h⟩
  · next hr => exact ⟨rfl, rfl, fun h => absurd h hr, fun _ => ⟨rfl, rfl, rfl⟩⟩

theorem Sent.kept {s t : State} (h : Sent s t) :
    t.mem = s.mem ∧ t.ctx = s.ctx ∧ t.resident = s.resident ∧ t.sync = s.sync := by
  rw [h]
  exact ⟨rfl, rfl, rfl, rfl⟩

theorem State.scrubbed_kept : let u := s.scrubbed c
    u.mem.hbm = (s.cleanedStores c).mem.hbm ∧ u.mem.spm = (s.cleanedStores c).mem.spm
      ∧ u.mem.sram = (s.cleanedStores c).mem.sram
      ∧ u.mem.jd = wrBytes (s.cleanedStores c).mem.jd (0x8000 + c.val * 0x2000) (List.replicate 0x2000 0#8)
      ∧ u.resident = (s.cleanedStores c).resident ∧ u.sync = (s.cleanedStores c).sync
      ∧ ∀ k, u.ctxAt k = if k = c.val then { CtxSt.reset with lsec := (s.ctxAt c.val).lsec } else s.ctxAt k := by
  have hclean := s.cleaned_stores c
  have hmod (v : State) (f : CtxSt → CtxSt) :
      (v.modCtx c.val f).mem = v.mem ∧ (v.modCtx c.val f).resident = v.resident
        ∧ (v.modCtx c.val f).sync = v.sync := ⟨rfl, rfl, rfl⟩
  have hjd (v : State) (off : Nat) (b : Bytes) : (v.jdWrite off b).mem.hbm = v.mem.hbm
      ∧ (v.jdWrite off b).mem.spm = v.mem.spm ∧ (v.jdWrite off b).mem.sram = v.mem.sram
      ∧ (v.jdWrite off b).mem.jd = wrBytes v.mem.jd off b ∧ (v.jdWrite off b).ctx = v.ctx
      ∧ (v.jdWrite off b).resident = v.resident ∧ (v.jdWrite off b).sync = v.sync :=
    ⟨rfl, rfl, rfl, rfl, rfl, rfl, rfl⟩
  unfold State.scrubbed
  generalize s.cleanedStores c = v at hclean ⊢
  obtain ⟨hbm, spm, sram, jd, jctx, jres, jsync⟩ := hjd v (0x8000 + c.val * 0x2000) (List.replicate 0x2000 0#8)
  generalize v.jdWrite (0x8000 + c.val * 0x2000) (List.replicate 0x2000 0#8) = w at hbm spm sram jd jctx jres jsync ⊢
  obtain ⟨mem, ctx, resident, sync⟩ := (w.sent_clearStreams c.val).kept
  generalize w.clearStreams c.val = x at mem ctx resident sync ⊢
  have hctx (k : Nat) : x.ctxAt k = s.ctxAt k := by
    rw [State.ctxAt, State.ctxAt, ctx, jctx, hclean.ctx]
  obtain ⟨mmem, mres, msync⟩ := hmod x fun y => { CtxSt.reset with lsec := y.lsec }
  have m := mmem.trans mem
  exact ⟨(congrArg MemSt.hbm m).trans hbm, (congrArg MemSt.spm m).trans spm, (congrArg MemSt.sram m).trans sram,
    (congrArg MemSt.jd m).trans jd, mres.trans (resident.trans jres), msync.trans (sync.trans jsync), fun k => by
    rw [State.ctxAt_modCtx, hctx, hctx]⟩

theorem State.hbm_zeroed (k : Nat) : tget 0#8 (s.zeroed c).mem.hbm k =
    if (s.ctxAt c.val).outside k then tget 0#8 s.mem.hbm k else 0#8 :=
  tget_filter ..

/-- What the end of a scrub leaves (R676). -/
theorem State.scrubbed_does : let u := s.scrubbed c
    let x := s.ctxAt c.val
    u.ctxAt c.val = { CtxSt.reset with lsec := x.lsec } ∧ OtherContexts s u c.val
      ∧ (∀ a, x.base ≤ a → a < x.base + x.bytes → tget 0#8 u.mem.hbm a = 0)
      ∧ (∀ a, a < x.base ∨ x.base + x.bytes ≤ a → tget 0#8 u.mem.hbm a = tget 0#8 s.mem.hbm a)
      ∧ u.jdRead (0x8000 + c.val * 0x2000) 0x2000 = List.replicate 0x2000 0#8
      ∧ (s.resident = some c → u.resident = none ∧ u.mem.spm.gen = none ∧ u.mem.spm.cells = []
          ∧ u.mem.sram.cells = [] ∧ u.sync.xcnt = [])
      ∧ (s.resident ≠ some c → u.resident = s.resident ∧ u.mem.spm = s.mem.spm ∧ u.mem.sram = s.mem.sram) := by
  obtain ⟨hhbm, hspm, hsram, hjd, resident, sync, ctx⟩ := s.scrubbed_kept c
  obtain ⟨hbm, -, home, other⟩ := s.cleaned_stores c
  refine ⟨(ctx c.val).trans (if_pos rfl), fun k hk => (ctx k).trans (if_neg hk), fun a hlo hhi => ?_, fun a ha => ?_,
    ?_, fun h => ?_, fun h => ?_⟩
  · rw [hhbm, hbm, s.hbm_zeroed, if_neg]
    · rfl
    · simp only [CtxSt.outside, Bool.or_eq_true, decide_eq_true_eq]
      omega
  · rw [hhbm, hbm, s.hbm_zeroed, if_pos]
    simpa only [CtxSt.outside, Bool.or_eq_true, decide_eq_true_eq] using ha
  · rw [State.jdRead, hjd]
    exact rdBytes_wrBytes_of_length List.length_replicate
  · rw [resident, hspm, hsram, sync]
    exact home h
  · rw [resident, hspm, hsram]
    exact other h

theorem Told.replyWaiting (ops : List Nat) (k status detail : Nat) : Told s (s.replyWaiting ops k status detail) := by
  unfold State.replyWaiting
  split
  · exact s.told_reply ..
  · rfl

theorem exec_contextScrubComplete (h : s.regionServed (s.ctxAt c.val) = true)
    (hst : (s.ctxAt c.val).st = .destroying) : exec (.contextScrubComplete c) s =
      .next ((s.scrubbed c).replyWaiting [0x13] c.val 0 0).wakeRestores :=
  if_neg (by simp [hst, h])

end

/-- Settles O48, by what each completion makes of its context before the restores that wait. That the saved copy is a
field of the context is the model's choice (assumption log 51). -/
theorem savesRestoresAndScrubsFinish : Obligations.SavesRestoresAndScrubsFinish := by
  unfold Obligations.SavesRestoresAndScrubsFinish
  intro s c
  refine ⟨fun h => ⟨fun hst => if_pos (.inr (by simp [h])), fun hst => if_pos (.inr (.inr (.inr (by simp [h])))),
      fun hst => if_pos (.inr (by simp [h]))⟩,
    fun h hst hd => ⟨s.saveDone c, ⟨s.saved c, ?_⟩, fun hw => ?_, fun k hk hne hw hother => ?_⟩,
    fun h hst h0 h1 hd => ?_, fun h hst hw => ⟨s.scrubbed c, ?_, s.scrubbed_does c⟩⟩
  · obtain ⟨resident, ctx, other, frame⟩ := s.saved_does c
    exact ⟨resident, ctx, other, frame, rfl⟩
  · refine (exec_saveComplete s c h hst hd).trans
      (congrArg Host.Outcome.next (State.wakeRestores_idle _ fun k hk => ?_))
    exact (s.restoreWait_saveDone c k).trans (hw k hk)
  · refine (exec_saveComplete s c h hst hd).trans (congrArg Host.Outcome.next (State.wakeRestores_one _ hk
      ((s.restoreWait_saveDone c k).trans hw) (fun j hj hjk => (s.restoreWait_saveDone c j).trans (hother j hj hjk))
      (s.resident_saveDone c)))
  · have hback := s.restored_restoredCtx c
    cases hr : (s.ctxAt c.val).haltRec with
    | false =>
      obtain ⟨sync, other, mem, frame, ctx⟩ := hback
      refine ⟨_, sync, other, mem, frame, fun _ => ⟨?_, exec_contextRestoreComplete h hst h0 h1 hd hr⟩,
        fun h => absurd h (by decide)⟩
      rw [ctx, CtxSt.copied, hr]
      simp
    | true =>
      obtain ⟨sync, other, mem, frame, ctx⟩ := hback.modCtx CtxSt.haltedMeanwhile
      refine ⟨_, sync, other, mem, frame, fun h => absurd h (by decide),
        fun _ => ⟨?_, exec_contextRestoreComplete_halted h hst h0 h1 hd hr⟩⟩
      rw [ctx, CtxSt.haltedMeanwhile, CtxSt.copied, hr]
      simp
  · refine (exec_contextScrubComplete s c h hst).trans
      (congrArg Host.Outcome.next (State.wakeRestores_idle _ fun k hk => ?_))
    obtain ⟨-, -, -, -, -, -, ctx⟩ := s.scrubbed_kept c
    rw [(Told.replyWaiting ..).ctxAt, ctx]
    split
    · rfl
    · next hne => exact hw k hk hne

end Sys2Proof.Machine
end

section
/-! A FOLLOW, a Radish run, a firmware write and a training that end (O44). -/

namespace Sys2Proof.Machine

/-! ## A FOLLOW that is not LOCKED (R704) -/

theorem exec_timeCtrlTimeout {s : State} {r : Fin 8} {q : CurCmd} {t0 : Nat} (hc : (s.ringAt r.val).cur = some q)
    (hf : s.stb.follow = some (r, t0)) (ht : t0 + 10000000 ≤ s.stb.ticks) (hst : s.stb.st ≠ .locked) :
    exec .timeCtrlTimeout s =
      replies r q.pkt { s with stb := { s.stb with follow := none } } 0x30 s.stb.st.code := by
  have hc' : (({ s with stb := { s.stb with follow := none } } : State).ringAt r.val).cur = some q := hc
  have hlate : ¬ (s.stb.ticks < t0 + 10000000 ∨ s.stb.st = .locked) := not_or.mpr ⟨Nat.not_lt.mpr ht, hst⟩
  dsimp only [exec, execTimeCtrlTimeout]
  rw [hf]
  dsimp only
  rw [if_neg hlate, hc']
  rfl

/-! ## A Radish run (R706, R754, R756) -/

theorem length_radishReport (stb : Nat) (ks : List RadishRes) :
    (radishReport stb ks).length = 16 + 16 * ks.length := by
  have hline : ∀ k : RadishRes, (leBytes 2 k.kernel.toNat ++ [k.group, k.die, k.phys, k.result, 0#8, 0#8]
      ++ leBytes 8 k.crc.toNat).length = 16 := fun k => by simp
  have hlines : (ks.map fun k : RadishRes => (leBytes 2 k.kernel.toNat
      ++ [k.group, k.die, k.phys, k.result, 0#8, 0#8] ++ leBytes 8 k.crc.toNat).length).sum = 16 * ks.length := by
    simp only [hline, List.map_const', List.sum_replicate, smul_eq_mul, Nat.mul_comm]
  simp only [radishReport, List.length_append, leBytes_length, List.length_flatMap] at hlines ⊢
  omega

/-- What the kernels' results leave (R754, R755). -/
def State.radishEffects (s : State) (ks : List RadishRes) : State :=
  ks.foldl (fun (a : State) k => a.radishResult k) { s with radishRun := none }

/-- Scratchpads and SRAM are undefined after the kernels (R706). -/
def State.radishStores (s : State) : State :=
  { s with free := s.free + 2, mem := { s.mem with spm := .undef s.free, sram := .undef (s.free + 1) } }

theorem State.stb_hbmWrite (s : State) (n : Option (BitVec 64)) (a : Nat) (bs : Bytes) :
    (s.hbmWrite n a bs).stb = s.stb := by
  have h : HbmAccess s (s.hbmWrite n a bs) := s.hbmAccess_hbmWriteGo a n bs _
  rw [h]

theorem State.stbTicks_radishHbm (s : State) (p : BitVec 512) : (s.radishHbm p).stbTicks = s.stbTicks := by
  unfold State.radishHbm
  split
  · rfl
  · exact congrArg (fun x : StbSt => x.time / 65536) (State.stb_hbmWrite ..)

/-- The status and DETAIL of a run: the first failing kernel and its die, or OK (R706). -/
def radishStatus (ks : List RadishRes) : Nat × Nat :=
  match ks.find? fun k => k.result == 1 with
  | some k => (0x61, k.kernel.toNat + 65536 * (k.die.toNat % 4))
  | none => (0, 0)

theorem radishStatus_pass {ks : List RadishRes} (h : ∀ k, k ∈ ks → k.result ≠ 1) : radishStatus ks = (0, 0) := by
  rw [radishStatus, List.find?_eq_none.mpr fun k hk => by simpa using h k hk]

theorem radishStatus_fail {a b : List RadishRes} {k : RadishRes} (hk : k.result = 1)
    (ha : ∀ j, j ∈ a → j.result ≠ 1) :
    radishStatus (a ++ k :: b) = (0x61, k.kernel.toNat + 65536 * (k.die.toNat % 4)) := by
  rw [radishStatus, List.find?_eq_some_iff_append.mpr
    ⟨by simpa using hk, a, b, rfl, fun j hj => by simpa using ha j hj⟩]

theorem exec_radishKernelsFinished {s : State} {r : Fin 8} {q : CurCmd} {ks : List RadishRes}
    (h : s.radishRun = some r) (hc : ((s.radishEffects ks).ringAt r.val).cur = some q)
    (ho : ((s.radishEffects ks).radishStores.radishHbm q.pkt).outErr q.pkt (16 + 16 * ks.length) = none) :
    exec (.radishKernelsFinished ks) s =
      outputs r q.pkt ((s.radishEffects ks).radishStores.radishHbm q.pkt)
        (radishReport ((s.radishEffects ks).radishStores.radishHbm q.pkt).stbTicks ks)
        (radishStatus ks).1 (radishStatus ks).2 := by
  have hc' : ((s.radishEffects ks).radishStores.ringAt r.val).cur = some q := hc
  have hexec : exec (.radishKernelsFinished ks) s =
      match ((s.radishEffects ks).radishStores.ringAt r.val).cur with
      | some q => served r (((s.radishEffects ks).radishStores.radishHbm q.pkt).outReply r.val q.pkt
          (radishReport (s.radishEffects ks).radishStores.stbTicks ks) (radishStatus ks).1 (radishStatus ks).2)
      | none => .next (s.radishEffects ks).radishStores := by
    dsimp only [exec, execRadishKernelsFinished]
    rw [h]
    rfl
  rw [hexec, hc', State.stbTicks_radishHbm]
  exact congrArg (served r) (State.outReply_eq_of_none (by rw [length_radishReport, ho]))

/-! ## A firmware write (R708) -/

theorem exec_flashWriteComplete {s : State} {r : Fin 8} {q : CurCmd} (ok : Bool)
    (hc : (s.ringAt r.val).cur = some q) (h : s.fw.busy = some r) :
    let c := if ok then s.fw.image else blankFlash
    exec (.flashWriteComplete ok) s =
      replies r q.pkt { s with fw := { s.fw with busy := none },
                               mem := if s.fw.toB then { s.mem with flashB := c } else { s.mem with flashA := c } }
        (if ok then 0 else 0x50) 0 := by
  have hc' : ∀ m f, (({ s with mem := m, fw := f } : State).ringAt r.val).cur = some q := fun _ _ => hc
  dsimp only [exec, execFlashWriteComplete]
  rw [h]
  dsimp only
  rw [hc']
  rfl

/-! ## The states of the members (R485, R488) -/

/-- Every member is in the same state as before. -/
def SameMembers (s t : State) : Prop := ∀ j, (t.memberAt j).st = (s.memberAt j).st

theorem SameMembers.refl (s : State) : SameMembers s s := fun _ => rfl

theorem SameMembers.trans {s t u : State} (h : SameMembers s t) (h' : SameMembers t u) : SameMembers s u :=
  fun j => (h' j).trans (h j)

theorem SameMembers.foldl {α : Type} {s t : State} {op : State → α → State} (h : SameMembers s t)
    (hop : ∀ a x, SameMembers a (op a x)) (l : List α) : SameMembers s (l.foldl op t) :=
  List.foldlRecOn l op (motive := SameMembers s) h fun _ ha x _ => ha.trans (hop _ x)

section
variable (s : State)

theorem State.sameMembers_modMember (m : Nat) {f : MemberSt → MemberSt} (hf : ∀ x, (f x).st = x.st) :
    SameMembers s (s.modMember m f) := fun j => by
  rw [State.memberAt_modMember]
  split
  · next h => rw [hf, h]
  · rfl

theorem State.sameMembers_handTo (m vc : Nat) (ts : List TxMsg) : SameMembers s (s.handTo m vc ts) :=
  s.sameMembers_modMember m fun _ => rfl

theorem State.sameMembers_collectTo (m : Nat) : SameMembers s (s.collectTo m) := by
  unfold State.collectTo
  refine .foldl (.refl s) (fun a j => ?_) _
  refine .foldl (a.sameMembers_modMember j ?_) (fun b v => b.sameMembers_handTo m v _) _
  exact fun _ => rfl

theorem State.sameMembers_grantAll (m : Nat) (cls0 : Bool) : SameMembers s (s.grantAll m cls0) := by
  refine .foldl (.refl s) (fun a x => ?_) _
  split
  · exact .refl a
  · exact a.sameMembers_modMember m fun _ => rfl

theorem State.sameMembers_refreshGroups : SameMembers s s.refreshGroups := by
  unfold State.refreshGroups
  split
  · exact fun _ => rfl
  · exact .foldl (fun _ => rfl) (fun a d j => by rw [State.memberAt, State.wire_net]; rfl) _

/-- A member that comes into service is ACTIVE, and the others stay as they are. -/
theorem State.st_bringUp (m j : Nat) :
    ((s.bringUp m).memberAt j).st = if j = m then .active else (s.memberAt j).st := by
  unfold State.bringUp
  dsimp only
  rw [State.sameMembers_refreshGroups]
  split
  · rw [State.sameMembers_grantAll, State.sameMembers_collectTo, State.memberAt_modMember]
    split <;> rfl
  · rw [State.memberAt_modMember]
    split <;> rfl

/-- A training that ends changes the state of its own member only. -/
theorem State.st_trained_other (ok : Bool) {m j : Nat} (h : j ≠ m) :
    ((s.trained ok m).memberAt j).st = (s.memberAt j).st := by
  unfold State.trained
  split
  · rfl
  · split
    · rw [State.st_bringUp, if_neg h]
    · rw [State.memberAt_modMember, if_neg h]

end

theorem State.st_trained {s : State} {m : Nat} (ok : Bool) (h : (s.memberAt m).st = .training) :
    ((s.trained ok m).memberAt m).st = if ok then .active else .withdrawn := by
  unfold State.trained
  rw [if_neg (not_not.mpr h)]
  cases ok
  · exact congrArg MemberSt.st ((State.memberAt_modMember ..).trans (if_pos rfl))
  · exact (State.st_bringUp ..).trans (if_pos rfl)

/-- The members `ms` leave training, each as `ok` says. -/
def State.allTrained (s : State) (ok : Nat → Bool) (ms : List Nat) : State :=
  ms.foldl (fun (a : State) m => a.trained (ok m) m) s

theorem State.st_allTrained_other {ok : Nat → Bool} {m : Nat} {ms : List Nat} (h : m ∉ ms) (s : State) :
    ((s.allTrained ok ms).memberAt m).st = (s.memberAt m).st := by
  induction ms generalizing s with
  | nil => rfl
  | cons k ms ih =>
    obtain ⟨hk, hms⟩ := not_or.mp (mt List.mem_cons.mpr h)
    exact (ih hms _).trans (s.st_trained_other _ hk)

theorem State.st_allTrained {ok : Nat → Bool} {m : Nat} {ms : List Nat} (hnd : ms.Nodup) (h : m ∈ ms) {s : State}
    (hst : (s.memberAt m).st = .training) :
    ((s.allTrained ok ms).memberAt m).st = if ok m then .active else .withdrawn := by
  induction ms generalizing s with
  | nil => exact absurd h List.not_mem_nil
  | cons k ms ih =>
    obtain ⟨hk, hms⟩ := List.nodup_cons.mp hnd
    rcases List.mem_cons.mp h with rfl | h
    · exact (State.st_allTrained_other hk _).trans (State.st_trained _ hst)
    · exact ih hms h ((s.st_trained_other _ fun e : m = k => hk (e ▸ h)).trans hst)

/-! ## A training that ends (R683, R703) -/

/-- The members of a mask (R485). -/
def maskMembers (mask : BitVec 24) : List Nat := (List.range 24).filter fun j => mask.getLsbD j

theorem nodup_maskMembers (mask : BitVec 24) : (maskMembers mask).Nodup := List.nodup_range.filter _

theorem mem_maskMembers {mask : BitVec 24} {m : Nat} (hm : m < 24) (h : mask.getLsbD m = true) :
    m ∈ maskMembers mask := List.mem_filter.mpr ⟨List.mem_range.mpr hm, h⟩

section
variable {s : State} {r : Fin 8} {q : CurCmd} {mask failed : BitVec 24} {rest : List (Fin 8 × BitVec 24)}
  (hc : (s.ringAt r.val).cur = some q) (h : s.net.linkTrain = (r, mask) :: rest)
include hc h

/-- The package once the training of `mask` has left the list. -/
def State.trainTaken (s : State) (rest : List (Fin 8 × BitVec 24)) : State :=
  { s with net := { s.net with linkTrain := rest } }

theorem exec_memberTrainingComplete :
    let t := s.trainTaken rest
    let bad := mask &&& failed
    let done := t.allTrained (fun m => !bad.getLsbD m) (maskMembers mask)
    let ofLink := pktOp q.pkt == 0x41
    let u := if (ofLink && (s.ctxIn [.stepping]).isSome && bad == 0) = true then
        { t with net := { t.net with linkSched := s.net.linkSched ++ (maskMembers mask).map fun m => (m, true) } }
      else done
    exec (.memberTrainingComplete failed) s = served r
      (if bad ≠ 0 then (if ofLink = true then u else u.dropShadow (pktCtx q.pkt)).reply r.val q.pkt 0x25 bad.toNat 0
       else if ofLink = true then u.reply r.val q.pkt 0 0 0
       else u.finishVerify r.val q.pkt) := by
  have hc' : ((s.trainTaken rest).ringAt r.val).cur = some q := hc
  dsimp only [State.trainTaken] at hc'
  dsimp only [exec, execMemberTrainingComplete]
  rw [h]
  dsimp only
  rw [hc']
  rfl

end

/-- Settles O44, by what each operation does when it ends; a training by the states of its members, one after the
other. That scratchpads, SRAM and the HBM range are undefined after a Radish run is the model's choice (assumption log
48), and so is the copy erased by a firmware write that does not read back (assumption log 50). -/
theorem packageOperationsFinish : Obligations.PackageOperationsFinish := by
  unfold Obligations.PackageOperationsFinish
  intro s r q hc
  refine ⟨fun t0 => exec_timeCtrlTimeout hc, fun ks h => ?_, fun ok => exec_flashWriteComplete ok hc,
    fun mask failed rest h => ?_⟩
  · intro u v hcur ho
    have hexec := exec_radishKernelsFinished h hcur ho
    refine ⟨length_radishReport .., fun hpass => ?_, fun a k b hks hk ha => ?_⟩
    · rw [radishStatus_pass hpass] at hexec
      exact hexec
    · rw [show radishStatus ks = _ from hks ▸ radishStatus_fail hk ha] at hexec
      exact hexec
  · have hexec := exec_memberTrainingComplete (failed := failed) hc h
    intro t ms done
    refine ⟨fun m hm hmask hst => ?_, fun hbad => ?_, fun hbad hop hstep => ?_, fun hbad hop hstep => ?_,
      fun hbad hop => ?_⟩
    · have := State.st_allTrained (ok := fun m => !(mask &&& failed).getLsbD m) (nodup_maskMembers mask)
        (mem_maskMembers hm hmask) (s := t) hst
      refine this.trans ?_
      rw [BitVec.getLsbD_and, hmask, Bool.true_and]
      cases failed.getLsbD m <;> rfl
    · have hlater : (mask &&& failed == 0) = false := beq_eq_false_iff_ne.mpr hbad
      rw [hexec, hlater, Bool.and_false, if_pos hbad]
      refine congrArg (fun u : State => served r (u.reply r.val q.pkt 0x25 (mask &&& failed).toNat 0)) ?_
      exact if_congr beq_iff_eq rfl rfl
    · rw [hexec, beq_iff_eq.mpr hop, hstep, if_neg (not_not.mpr hbad)]
      rfl
    · rw [hexec, beq_iff_eq.mpr hop, beq_iff_eq.mpr hbad, Option.isSome_iff_ne_none.mpr hstep,
        if_neg (not_not.mpr hbad)]
      rfl
    · rw [hexec, beq_eq_false_iff_ne.mpr hop, if_neg (not_not.mpr hbad)]
      rfl

end Sys2Proof.Machine
end
